-- ==== Sys2Proof/Word.lean ====
section
/-!
DEFINITION. The word types of the Igfin architecture (R4, R57) and their plainest arithmetic.
Bit-field, sign-extension and byte-order helpers stand in Machine/Bits.lean.
-/

namespace Sys2Proof

/-- One byte of any memory. -/
abbrev Byte := BitVec 8
/-- A 16-bit element or half word (R57). -/
abbrev Half := BitVec 16
/-- A 32-bit register, the unit of the V, T and K classes (R28). -/
abbrev Word := BitVec 32
/-- A 64-bit value: a register pair (R57), an instruction word or a clause header (R77). -/
abbrev DWord := BitVec 64
/-- The address of a clause header in a context's code space (R38). -/
abbrev CodeAddr := BitVec 48

end Sys2Proof
end

