-- ==== Sys2Proof/Syntax.lean ====
section
/-!
DEFINITION. The syntax: one inductive `Instr` with a constructor for every row of the opcode table, and
the types of its operands.
-/

namespace Sys2Proof

/-- The common fields of every Igfin instruction (R84): the guard and the stall count. -/
structure Hdr where
  /-- GUARD.NEG: negate the guard predicate. -/
  neg : Bool
  /-- GUARD.P: guard predicate index. -/
  p : Fin 8
  /-- STALL (R92). -/
  stall : Fin 16
  deriving DecidableEq, Repr

/-- An operand code of R47 that is not reserved. -/
inductive Opnd where
  /-- Codes 0 to 1535: V registers. -/
  | v (n : Fin 1536)
  /-- Codes 1536 to 1791: K registers. -/
  | k (n : Fin 256)
  /-- Codes 1792 to 1807: T registers. -/
  | t (n : Fin 16)
  /-- Codes 1808 to 1823: the constants, numbered from 1808. -/
  | c (n : Fin 16)
  deriving DecidableEq, Repr

/-- A predicate source field (R87). -/
structure PSrc where
  neg : Bool
  p : Fin 8
  deriving DecidableEq, Repr

/-- Rounding modes (R62). -/
inductive Round where | rne | rz | rdn | rup
  deriving DecidableEq, Repr

/-- The forms of add and sub (R142). -/
inductive SumForm where | i32 | i64 | i32sat | n32sat
  deriving DecidableEq, Repr
/-- The forms of neg and abs (R142). -/
inductive NegForm where | i32 | i64 | i32sat
  deriving DecidableEq, Repr
/-- The forms of mul (R144). -/
inductive MulForm where | i32 | i64 | i32sat | n32sat | wideI | wideN
  deriving DecidableEq, Repr
/-- The forms of mad (R144). -/
inductive MadForm where | i32 | wideI | wideN
  deriving DecidableEq, Repr
/-- The forms of min and max (R145). -/
inductive CmpForm where | i32 | n32 | i64 | n64
  deriving DecidableEq, Repr
/-- The element types (R100), in code order. -/
inductive ElTy where
  | i8 | i16 | i32 | i64 | n8 | n16 | n32 | n64 | f32 | f16 | bf16 | fn8 | fw8 | fn4 | i4 | n4
  deriving DecidableEq, Repr
/-- The 16-bit float formats of hadd2, hmul2, hfma2 and dot2. -/
inductive HalfFmt where | f16 | bf16
  deriving DecidableEq, Repr
/-- Comparison conditions of setp (R165). -/
inductive Cc where | eq | ne | lt | le | gt | ge | num | nan
  deriving DecidableEq, Repr
/-- Directions of qswp (R170). -/
inductive QDir where | h | v | d
  deriving DecidableEq, Repr
/-- The forms of vote with their destinations (R172). -/
inductive VoteDst where
  | any (pd : Fin 8)
  | all (pd : Fin 8)
  | bal (d : Opnd)
  deriving DecidableEq, Repr
/-- The operations of lscan (R173). -/
inductive ScanOp where | add | minI | maxI | minN | maxN | and | or | xor
  deriving DecidableEq, Repr
/-- Access sizes (R103). -/
inductive MSize where | b8 | b16 | b32 | b64 | b128
  deriving DecidableEq, Repr
/-- Ordering scopes (R103, R287). -/
inductive Scope where | team | clu | dev
  deriving DecidableEq, Repr
/-- Atomic operations (R105, R186). -/
inductive AtOp where | add | minI | maxI | minN | maxN | and | or | xor | xchg | fadd | fmin | fmax
  deriving DecidableEq, Repr
/-- The spaces an atomic acts in. -/
inductive ASpace where | s | h | c
  deriving DecidableEq, Repr
/-- Fence kinds (R191). -/
inductive FenceKind where | full | acq | rel
  deriving DecidableEq, Repr
/-- Matrix formats (R35). -/
inductive MFmt where | bf16 | f16 | fn8 | fw8 | i8 | fn4 | i4
  deriving DecidableEq, Repr
/-- The system-register views (R41). -/
inductive SysReg where
  | status | mode | nflags | chksb | trapcause | trappcLo | trappcHi | trapinfoLo | trapinfoHi | role
  | groupid | teamid | clusterid | coreid | dieid | ctxid | clockLo | clockHi | caps | accstat
  deriving DecidableEq, Repr
/-- Conditions of the bytecode skip (R347). -/
inductive SkipCc where | always | eq | ne | ltu | geu
  deriving DecidableEq, Repr

/-- What a network peer answers to one unit of a copy.net (R232, R234, R302). -/
inductive PeerReply where
  /-- The peer acknowledged the write. -/
  | ack
  /-- The peer answered a read with these bytes. -/
  | data (bytes : List Byte)
  /-- The peer refused the access. -/
  | refuse
  deriving DecidableEq, Repr

/-- An entry of a copy, call or estimator buffer (R382). -/
inductive BufEntry where
  /-- A copy in flight. -/
  | copy (id : Nat)
  /-- A call that its unit has not accepted. -/
  | call (id : Nat)
  /-- A request in the input buffer of the estimator unit of a core, by its place. -/
  | request (die core k : Nat)
  /-- A contribution staged at the unit of a core, by its place. -/
  | staged (die core k : Nat)
  deriving DecidableEq, Repr

/-- An SRAM array: its class (R394), its die, its core, unit or slice there, and which of that place's arrays of the class. -/
structure ArrayId where
  cls : Nat
  die : Nat
  core : Nat
  num : Nat
  deriving DecidableEq, Repr

/-- A place where a storage error is found (R382), and whether it can be corrected. -/
inductive ErrLoc where
  /-- A single-bit error of an array (R381, R394). -/
  | single (a : ArrayId)
  /-- An uncorrectable error in a scratchpad line: die, core, offset. -/
  | scratch (die core off : Nat)
  /-- In a register block of a group of the team. -/
  | regs (team : Nat)
  /-- In an operand-buffer range, accumulator, CV or X state, or frontier table of the team. -/
  | teamState (team : Nat) (cls : Nat)
  /-- In a copy, estimator or call buffer entry. -/
  | entry (b : BufEntry)
  /-- In a coprocessor unit serving the call. -/
  | unitCall (call : Nat)
  /-- In the on-chip state of the pass. -/
  | unitPass (pass : Nat)
  /-- In hub SRAM: the word (R394). -/
  | hub (word : Nat)
  /-- An HBM or CXL page whose data cannot be read (R384): the physical address. -/
  | page (pa : Nat)
  deriving DecidableEq, Repr

/-- How far a flash write had come when power was lost (R397): the bytes already written. -/
inductive FlashPart where
  /-- Part of a slot image: offset and the bytes written. -/
  | image (off : Nat) (bytes : List Byte)
  /-- Part of the marker record that FWCOMMIT overwrites: the bytes it now holds. -/
  | marker (bytes : List Byte)
  deriving DecidableEq, Repr

/-- A master's command record (R386) without its CMD field, which the constructor names, and its LEN,
which is the length of the body. -/
structure MRec where
  /-- The session the record came by. -/
  sid : Nat
  seq : Word
  ctx : Word
  /-- The reserved word at 0x0C. -/
  rsv : Word
  body : List Byte
  sig : List Byte
  deriving DecidableEq, Repr


/-- Every row of the opcode table: the Igfin instructions (R97 to R109), the Proofer's bytecodes (R347),
and the events and hub commands, which have no encoding of their own and carry the names of the units
they concern. -/
inductive Instr where
  /-- BR, format FB, MAJOR 0x00 (R113). -/
  | br (h : Hdr) (off : BitVec 32)
  /-- BRX, format FB, MAJOR 0x01 (R113). -/
  | brx (h : Hdr) (a : Opnd) (off : BitVec 32)
  /-- CALL, format FB, MAJOR 0x02 (R113). -/
  | call (h : Hdr) (d : Opnd) (off : BitVec 32)
  /-- CALLX, format F3, MAJOR 0x03 (R113). -/
  | callx (h : Hdr) (d : Opnd) (a : Opnd)
  /-- RET, format FB, MAJOR 0x04 (R115). -/
  | ret (h : Hdr) (a : Opnd)
  /-- EXIT, format FB, MAJOR 0x05 (R117). -/
  | exit (h : Hdr)
  /-- MEET, format FB, MAJOR 0x06 (R119). -/
  | meet (h : Hdr) (off : BitVec 32)
  /-- LOOP, format FB, MAJOR 0x07 (R121, R122). -/
  | loop (h : Hdr) (a : Opnd) (off : BitVec 32)
  /-- LOOP_IMM, format FB, MAJOR 0x07 (R122). -/
  | loopImm (h : Hdr) (n : BitVec 11) (off : BitVec 32)
  /-- LOOPV, format FB, MAJOR 0x08 (R121, R122). -/
  | loopv (h : Hdr) (a : Opnd) (off : BitVec 32)
  /-- LPOP, format FB, MAJOR 0x09 (R123). -/
  | lpop (h : Hdr)
  /-- TRAP, format FL, MAJOR 0x18 (R129). -/
  | trap (h : Hdr) (imm : Word)
  /-- RFE, format FB, MAJOR 0x19 (R131). -/
  | rfe (h : Hdr)
  /-- YIELD, format FB, MAJOR 0x1A (R132). -/
  | yield (h : Hdr)
  /-- BKPT, format FL, MAJOR 0x1B (R130). -/
  | bkpt (h : Hdr) (imm : Word)
  /-- NOP, format FL, MAJOR 0x1C (R133). -/
  | nop (h : Hdr)
  /-- MFS, format FI, MAJOR 0x1D (R134). -/
  | mfs (h : Hdr) (d : Opnd) (sr : SysReg)
  /-- MTS, format FI, MAJOR 0x1E (R135). -/
  | mts (h : Hdr) (sr : SysReg) (a : Opnd)
  /-- ADD, format F3, MAJOR 0x20 (R142). -/
  | add (h : Hdr) (f : SumForm) (d : Opnd) (a : Opnd) (b : Opnd) (c : Opnd)
  /-- ADDC, format F3, MAJOR 0x21 (R143). -/
  | addc (h : Hdr) (co : Bool) (d : Opnd) (a : Opnd) (b : Opnd) (c : Opnd)
  /-- SUB, format F3, MAJOR 0x22 (R142). -/
  | sub (h : Hdr) (f : SumForm) (d : Opnd) (a : Opnd) (b : Opnd)
  /-- SUBB, format F3, MAJOR 0x23 (R143). -/
  | subb (h : Hdr) (bo : Bool) (d : Opnd) (a : Opnd) (b : Opnd) (c : Opnd)
  /-- NEG, format F3, MAJOR 0x24 (R142). -/
  | neg (h : Hdr) (f : NegForm) (d : Opnd) (a : Opnd)
  /-- ABS, format F3, MAJOR 0x25 (R142). -/
  | abs (h : Hdr) (f : NegForm) (d : Opnd) (a : Opnd)
  /-- MUL, format F3, MAJOR 0x26 (R144). -/
  | mul (h : Hdr) (f : MulForm) (d : Opnd) (a : Opnd) (b : Opnd)
  /-- MULHI, format F3, MAJOR 0x27 (R144). -/
  | mulhi (h : Hdr) (uns : Bool) (d : Opnd) (a : Opnd) (b : Opnd)
  /-- MAD, format F3, MAJOR 0x28 (R144). -/
  | mad (h : Hdr) (f : MadForm) (d : Opnd) (a : Opnd) (b : Opnd) (c : Opnd)
  /-- MADHI, format F3, MAJOR 0x29 (R144). -/
  | madhi (h : Hdr) (uns : Bool) (d : Opnd) (a : Opnd) (b : Opnd) (c : Opnd)
  /-- MIN, format F3, MAJOR 0x2A (R145). -/
  | min (h : Hdr) (f : CmpForm) (d : Opnd) (a : Opnd) (b : Opnd)
  /-- MAX, format F3, MAJOR 0x2B (R145). -/
  | max (h : Hdr) (f : CmpForm) (d : Opnd) (a : Opnd) (b : Opnd)
  /-- AND, format F3, MAJOR 0x2C (R146). -/
  | and (h : Hdr) (d : Opnd) (a : Opnd) (b : Opnd)
  /-- OR, format F3, MAJOR 0x2C (R146). -/
  | or (h : Hdr) (d : Opnd) (a : Opnd) (b : Opnd)
  /-- XOR, format F3, MAJOR 0x2C (R146). -/
  | xor (h : Hdr) (d : Opnd) (a : Opnd) (b : Opnd)
  /-- ANDN, format F3, MAJOR 0x2C (R146). -/
  | andn (h : Hdr) (d : Opnd) (a : Opnd) (b : Opnd)
  /-- NOT, format F3, MAJOR 0x2C (R146). -/
  | not (h : Hdr) (d : Opnd) (a : Opnd)
  /-- SHL, format F3, MAJOR 0x2D (R146). -/
  | shl (h : Hdr) (d : Opnd) (a : Opnd) (b : Opnd)
  /-- SHR, format F3, MAJOR 0x2D (R146). -/
  | shr (h : Hdr) (d : Opnd) (a : Opnd) (b : Opnd)
  /-- SAR, format F3, MAJOR 0x2D (R146). -/
  | sar (h : Hdr) (d : Opnd) (a : Opnd) (b : Opnd)
  /-- ROT, format F3, MAJOR 0x2D (R146). -/
  | rot (h : Hdr) (d : Opnd) (a : Opnd) (b : Opnd)
  /-- CLZ, format F3, MAJOR 0x2E (R146). -/
  | clz (h : Hdr) (d : Opnd) (a : Opnd)
  /-- POPC, format F3, MAJOR 0x2E (R146). -/
  | popc (h : Hdr) (d : Opnd) (a : Opnd)
  /-- BREV, format F3, MAJOR 0x2E (R146). -/
  | brev (h : Hdr) (d : Opnd) (a : Opnd)
  /-- BFE, format F3, MAJOR 0x2F (R147). -/
  | bfe (h : Hdr) (sgn : Bool) (d : Opnd) (a : Opnd) (b : Opnd) (c : Opnd)
  /-- BFI, format F3, MAJOR 0x30 (R147). -/
  | bfi (h : Hdr) (d : Opnd) (a : Opnd) (b : Opnd) (c : Opnd)
  /-- LEA, format F3, MAJOR 0x31 (R148). -/
  | lea (h : Hdr) (sh : Fin 8) (d : Opnd) (a : Opnd) (b : Opnd) (c : Opnd)
  /-- ADDMIN, format F3, MAJOR 0x32 (R149). -/
  | addmin (h : Hdr) (uns : Bool) (d : Opnd) (a : Opnd) (b : Opnd) (c : Opnd)
  /-- ADDMAX, format F3, MAJOR 0x33 (R149). -/
  | addmax (h : Hdr) (uns : Bool) (d : Opnd) (a : Opnd) (b : Opnd) (c : Opnd)
  /-- DIV, format F3, MAJOR 0x34 (R150). -/
  | div (h : Hdr) (uns : Bool) (d : Opnd) (a : Opnd) (b : Opnd) (sb : Fin 16)
  /-- REM, format F3, MAJOR 0x35 (R150). -/
  | rem (h : Hdr) (uns : Bool) (d : Opnd) (a : Opnd) (b : Opnd) (sb : Fin 16)
  /-- MOV, format F3, MAJOR 0x36 (R151). -/
  | mov (h : Hdr) (wide : Bool) (d : Opnd) (a : Opnd)
  /-- MOVI, format FL, MAJOR 0x37 (R151). -/
  | movi (h : Hdr) (d : Opnd) (imm : Word)
  /-- FADD, format F3, MAJOR 0x40 (R152). -/
  | fadd (h : Hdr) (rm : Round) (d : Opnd) (a : Opnd) (b : Opnd)
  /-- FSUB, format F3, MAJOR 0x41 (R152). -/
  | fsub (h : Hdr) (rm : Round) (d : Opnd) (a : Opnd) (b : Opnd)
  /-- FMUL, format F3, MAJOR 0x42 (R152). -/
  | fmul (h : Hdr) (rm : Round) (d : Opnd) (a : Opnd) (b : Opnd)
  /-- FFMA, format F3, MAJOR 0x43 (R152). -/
  | ffma (h : Hdr) (rm : Round) (d : Opnd) (a : Opnd) (b : Opnd) (c : Opnd)
  /-- FMIN, format F3, MAJOR 0x44 (R153). -/
  | fmin (h : Hdr) (d : Opnd) (a : Opnd) (b : Opnd)
  /-- FMAX, format F3, MAJOR 0x45 (R153). -/
  | fmax (h : Hdr) (d : Opnd) (a : Opnd) (b : Opnd)
  /-- FABS, format F3, MAJOR 0x46 (R154). -/
  | fabs (h : Hdr) (d : Opnd) (a : Opnd)
  /-- FNEG, format F3, MAJOR 0x47 (R154). -/
  | fneg (h : Hdr) (d : Opnd) (a : Opnd)
  /-- FRCP, format F3, MAJOR 0x48 (R155). -/
  | frcp (h : Hdr) (rm : Round) (d : Opnd) (a : Opnd) (sb : Fin 16)
  /-- FRSQ, format F3, MAJOR 0x49 (R155). -/
  | frsq (h : Hdr) (rm : Round) (d : Opnd) (a : Opnd) (sb : Fin 16)
  /-- FSQRT, format F3, MAJOR 0x4A (R155). -/
  | fsqrt (h : Hdr) (rm : Round) (d : Opnd) (a : Opnd) (sb : Fin 16)
  /-- FDIV, format F3, MAJOR 0x4B (R155). -/
  | fdiv (h : Hdr) (rm : Round) (d : Opnd) (a : Opnd) (b : Opnd) (sb : Fin 16)
  /-- FEXP2, format F3, MAJOR 0x4C (R156). -/
  | fexp2 (h : Hdr) (d : Opnd) (a : Opnd) (sb : Fin 16)
  /-- FLOG2, format F3, MAJOR 0x4D (R156). -/
  | flog2 (h : Hdr) (d : Opnd) (a : Opnd) (sb : Fin 16)
  /-- FSIN, format F3, MAJOR 0x4E (R156). -/
  | fsin (h : Hdr) (d : Opnd) (a : Opnd) (sb : Fin 16)
  /-- FCOS, format F3, MAJOR 0x4F (R156). -/
  | fcos (h : Hdr) (d : Opnd) (a : Opnd) (sb : Fin 16)
  /-- FRINT, format F3, MAJOR 0x50 (R157). -/
  | frint (h : Hdr) (d : Opnd) (a : Opnd)
  /-- FTRUNC, format F3, MAJOR 0x50 (R157). -/
  | ftrunc (h : Hdr) (d : Opnd) (a : Opnd)
  /-- FFLOOR, format F3, MAJOR 0x50 (R157). -/
  | ffloor (h : Hdr) (d : Opnd) (a : Opnd)
  /-- FCEIL, format F3, MAJOR 0x50 (R157). -/
  | fceil (h : Hdr) (d : Opnd) (a : Opnd)
  /-- FCLASS, format F3, MAJOR 0x51 (R158). -/
  | fclass (h : Hdr) (d : Opnd) (a : Opnd)
  /-- CVT, format FI, MAJOR 0x52 (R159). -/
  | cvt (h : Hdr) (d : Opnd) (a : Opnd) (dst : ElTy) (src : ElTy) (rm : Round) (elem : Fin 8)
  /-- HADD2, format F3, MAJOR 0x53 (R160). -/
  | hadd2 (h : Hdr) (hf : HalfFmt) (rm : Round) (d : Opnd) (a : Opnd) (b : Opnd)
  /-- HMUL2, format F3, MAJOR 0x54 (R160). -/
  | hmul2 (h : Hdr) (hf : HalfFmt) (rm : Round) (d : Opnd) (a : Opnd) (b : Opnd)
  /-- HFMA2, format F3, MAJOR 0x55 (R160). -/
  | hfma2 (h : Hdr) (hf : HalfFmt) (rm : Round) (d : Opnd) (a : Opnd) (b : Opnd) (c : Opnd)
  /-- DOT2, format F3, MAJOR 0x60 (R71, R161). -/
  | dot2 (h : Hdr) (hf : HalfFmt) (rm : Round) (d : Opnd) (a : Opnd) (b : Opnd) (c : Opnd)
  /-- DOT4_FLOAT, format F3, MAJOR 0x61 (R71, R161). -/
  | dot4f (h : Hdr) (fw8 : Bool) (rm : Round) (d : Opnd) (a : Opnd) (b : Opnd) (c : Opnd)
  /-- DOT4_INTEGER, format F3, MAJOR 0x62 (R72, R161). -/
  | dot4i (h : Hdr) (uns : Bool) (d : Opnd) (a : Opnd) (b : Opnd)
  /-- DOT8_FLOAT, format F3, MAJOR 0x63 (R71, R161). -/
  | dot8f (h : Hdr) (rm : Round) (d : Opnd) (a : Opnd) (b : Opnd) (c : Opnd)
  /-- DOT8_INTEGER, format F3, MAJOR 0x64 (R72, R161). -/
  | dot8i (h : Hdr) (uns : Bool) (d : Opnd) (a : Opnd) (b : Opnd)
  /-- PK, format F3, MAJOR 0x65 (R162). -/
  | pk (h : Hdr) (ty : ElTy) (d : Opnd) (a : Opnd) (b : Opnd) (c : Opnd)
  /-- UPK, format F3, MAJOR 0x66 (R163). -/
  | upk (h : Hdr) (ty : ElTy) (d : Opnd) (a : Opnd) (b : Opnd)
  /-- SCL, format F3, MAJOR 0x67 (R164). -/
  | scl (h : Hdr) (hi : Bool) (rm : Round) (d : Opnd) (a : Opnd) (b : Opnd)
  /-- SETP_I32, format F3, MAJOR 0x70 (R165). -/
  | setpI (h : Hdr) (cc : Cc) (pd : Fin 8) (a : Opnd) (b : Opnd) (pc : PSrc)
  /-- SETP_N32, format F3, MAJOR 0x71 (R165). -/
  | setpN (h : Hdr) (cc : Cc) (pd : Fin 8) (a : Opnd) (b : Opnd) (pc : PSrc)
  /-- SETP_F32, format F3, MAJOR 0x72 (R165). -/
  | setpF (h : Hdr) (cc : Cc) (pd : Fin 8) (a : Opnd) (b : Opnd) (pc : PSrc)
  /-- PAND, format F3, MAJOR 0x73 (R166). -/
  | pand (h : Hdr) (pd : Fin 8) (pa : PSrc) (pb : PSrc)
  /-- POR, format F3, MAJOR 0x73 (R166). -/
  | por (h : Hdr) (pd : Fin 8) (pa : PSrc) (pb : PSrc)
  /-- PXOR, format F3, MAJOR 0x73 (R166). -/
  | pxor (h : Hdr) (pd : Fin 8) (pa : PSrc) (pb : PSrc)
  /-- PNOT, format F3, MAJOR 0x73 (R166). -/
  | pnot (h : Hdr) (pd : Fin 8) (pa : PSrc)
  /-- SEL, format F3, MAJOR 0x74 (R167). -/
  | sel (h : Hdr) (wide : Bool) (d : Opnd) (a : Opnd) (b : Opnd) (pc : PSrc)
  /-- LSH, format F3, MAJOR 0x75 (R169). -/
  | lsh (h : Hdr) (dn : Bool) (d : Opnd) (a : Opnd) (b : Opnd) (c : Opnd)
  /-- LXOR, format F3, MAJOR 0x76 (R169). -/
  | lxor (h : Hdr) (d : Opnd) (a : Opnd) (b : Opnd)
  /-- LBC, format F3, MAJOR 0x77 (R169). -/
  | lbc (h : Hdr) (d : Opnd) (a : Opnd) (b : Opnd)
  /-- LROT, format F3, MAJOR 0x78 (R169). -/
  | lrot (h : Hdr) (d : Opnd) (a : Opnd) (b : Opnd)
  /-- QSWP, format F3, MAJOR 0x79 (R170). -/
  | qswp (h : Hdr) (dir : QDir) (d : Opnd) (a : Opnd)
  /-- QBC, format F3, MAJOR 0x7A (R170). -/
  | qbc (h : Hdr) (d : Opnd) (a : Opnd) (b : Opnd)
  /-- VOTE, format F3, MAJOR 0x7B (R172). -/
  | vote (h : Hdr) (k : VoteDst) (pa : PSrc)
  /-- LSCAN, format F3, MAJOR 0x7C (R173). -/
  | lscan (h : Hdr) (op : ScanOp) (excl : Bool) (d : Opnd) (a : Opnd)
  /-- LD_S, format FM, MAJOR 0x80 (R179). -/
  | ldS (h : Hdr) (sz : MSize) (sx : Bool) (ord : Option Scope) (d : Opnd) (a : Opnd) (off : BitVec 12) (sb : Fin 16)
  /-- ST_S, format FM, MAJOR 0x81 (R179). -/
  | stS (h : Hdr) (sz : MSize) (ord : Option Scope) (a : Opnd) (off : BitVec 12) (d : Opnd)
  /-- LD_H, format FM, MAJOR 0x82 (R179). -/
  | ldH (h : Hdr) (sz : MSize) (sx : Bool) (ord : Option Scope) (d : Opnd) (a : Opnd) (off : BitVec 12) (sb : Fin 16)
  /-- ST_H, format FM, MAJOR 0x83 (R179). -/
  | stH (h : Hdr) (sz : MSize) (ord : Option Scope) (a : Opnd) (off : BitVec 12) (d : Opnd)
  /-- LD_K, format FM, MAJOR 0x84 (R179). -/
  | ldK (h : Hdr) (sz : MSize) (sx : Bool) (d : Opnd) (a : Opnd) (off : BitVec 12) (sb : Fin 16)
  /-- ST_K, format FM, MAJOR 0x85 (R179). -/
  | stK (h : Hdr) (sz : MSize) (a : Opnd) (off : BitVec 12) (d : Opnd)
  /-- LD_C, format FM, MAJOR 0x86 (R179). -/
  | ldC (h : Hdr) (sz : MSize) (sx : Bool) (ord : Option Scope) (d : Opnd) (a : Opnd) (off : BitVec 12) (sb : Fin 16)
  /-- ST_C, format FM, MAJOR 0x87 (R179). -/
  | stC (h : Hdr) (sz : MSize) (ord : Option Scope) (a : Opnd) (off : BitVec 12) (d : Opnd)
  /-- LDU, format FM, MAJOR 0x88 (R182). -/
  | ldu (h : Hdr) (sz : MSize) (ord : Option Scope) (d : Opnd) (a : Opnd) (off : BitVec 12) (sb : Fin 16)
  /-- LDT, format FM, MAJOR 0x89 (R183). -/
  | ldt (h : Hdr) (w : Fin 4) (d : Opnd) (a : Opnd) (off : BitVec 12) (sb : Fin 16)
  /-- ATOM_S, format FM, MAJOR 0x98 (R186). -/
  | atomS (h : Hdr) (op : AtOp) (wide : Bool) (ordf : Bool) (a : Opnd) (off : BitVec 12) (d : Opnd) (sb : Fin 16)
  /-- ATOM_H, format FM, MAJOR 0x99 (R186). -/
  | atomH (h : Hdr) (op : AtOp) (wide : Bool) (ordf : Bool) (a : Opnd) (off : BitVec 12) (d : Opnd) (sb : Fin 16)
  /-- ATOM_C, format FM, MAJOR 0x9A (R186). -/
  | atomC (h : Hdr) (op : AtOp) (wide : Bool) (ordf : Bool) (a : Opnd) (off : BitVec 12) (d : Opnd) (sb : Fin 16)
  /-- RED_S, format FM, MAJOR 0x9B (R186). -/
  | redS (h : Hdr) (op : AtOp) (wide : Bool) (ordf : Bool) (a : Opnd) (off : BitVec 12) (d : Opnd)
  /-- RED_H, format FM, MAJOR 0x9C (R186). -/
  | redH (h : Hdr) (op : AtOp) (wide : Bool) (ordf : Bool) (a : Opnd) (off : BitVec 12) (d : Opnd)
  /-- RED_C, format FM, MAJOR 0x9D (R186). -/
  | redC (h : Hdr) (op : AtOp) (wide : Bool) (ordf : Bool) (a : Opnd) (off : BitVec 12) (d : Opnd)
  /-- ATOM_CAS, format FM, MAJOR 0x9E (R188). -/
  | cas (h : Hdr) (sp : ASpace) (wide : Bool) (ordf : Bool) (a : Opnd) (off : BitVec 12) (d : Opnd) (sb : Fin 16)
  /-- FENCE, format FI, MAJOR 0xA8 (R191). -/
  | fence (h : Hdr) (kind : FenceKind) (sc : Scope)
  /-- BAR_INIT, format FM, MAJOR 0xA9 (R194). -/
  | barInit (h : Hdr) (a : Opnd) (off : BitVec 12) (d : Opnd)
  /-- BAR_ARRIVE, format FM, MAJOR 0xA9 (R195). -/
  | barArrive (h : Hdr) (d : Opnd) (a : Opnd) (off : BitVec 12) (sb : Fin 16)
  /-- BAR_WAIT, format FM, MAJOR 0xA9 (R196). -/
  | barWait (h : Hdr) (a : Opnd) (off : BitVec 12) (d : Opnd)
  /-- ARR_INIT, format FM, MAJOR 0xAA (R199). -/
  | arrInit (h : Hdr) (a : Opnd) (off : BitVec 12) (d : Opnd)
  /-- ARR_ADD, format FM, MAJOR 0xAA (R199). -/
  | arrAdd (h : Hdr) (a : Opnd) (off : BitVec 12) (d : Opnd)
  /-- ARR_WAIT, format FM, MAJOR 0xAA (R200). -/
  | arrWait (h : Hdr) (a : Opnd) (off : BitVec 12) (d : Opnd)
  /-- ARR_READ, format FM, MAJOR 0xAA (R199). -/
  | arrRead (h : Hdr) (d : Opnd) (a : Opnd) (off : BitVec 12) (sb : Fin 16)
  /-- EREG, format FM, MAJOR 0xB0 (R203). -/
  | ereg (h : Hdr) (a : Opnd) (d : Opnd)
  /-- ESAMP, format FM, MAJOR 0xB1 (R205). -/
  | esamp (h : Hdr) (a : Opnd) (off : BitVec 12) (d : Opnd)
  /-- ESAMP_W, format FM, MAJOR 0xB1 (R205). -/
  | esampW (h : Hdr) (a : Opnd) (off : BitVec 12) (d : Opnd)
  /-- ESAMPB, format FM, MAJOR 0xB2 (R206). -/
  | esampB (h : Hdr) (a : Opnd) (off : BitVec 12) (d : Opnd)
  /-- ELD, format FM, MAJOR 0xB3 (R209). -/
  | eld (h : Hdr) (d : Opnd) (a : Opnd) (off : BitVec 12) (p : Fin 8) (sb : Fin 16)
  /-- EDECAY, format FM, MAJOR 0xB4 (R210). -/
  | edecay (h : Hdr) (a : Opnd) (d : Opnd)
  /-- EFLUSH, format FM, MAJOR 0xB5 (R211). -/
  | eflush (h : Hdr) (a : Opnd)
  /-- ECLR, format FM, MAJOR 0xB6 (R212). -/
  | eclr (h : Hdr) (a : Opnd)
  /-- MMA, format FX, MAJOR 0xB8 (R225). -/
  | mma (h : Hdr) (fmt : MFmt) (acc : Fin 16) (a : Opnd) (x : Fin 16) (cv : Fin 8) (reuse : Bool)
  /-- CVDECL_SET, format FX, MAJOR 0xB9 (R224). -/
  | cvdeclSet (h : Hdr) (cv : Fin 8) (pa : PSrc)
  /-- CVDECL_ADD, format FX, MAJOR 0xB9 (R224). -/
  | cvdeclAdd (h : Hdr) (cv : Fin 8) (pa : PSrc)
  /-- XRES, format FX, MAJOR 0xBA (R221). -/
  | xres (h : Hdr) (x : Fin 16) (a : Opnd)
  /-- XREL, format FX, MAJOR 0xBB (R221). -/
  | xrel (h : Hdr) (x : Fin 16)
  /-- XLD, format FX, MAJOR 0xBC (R223). -/
  | xld (h : Hdr) (sh : Bool) (x : Fin 16) (a : Opnd) (b : Opnd) (sb : Fin 16)
  /-- XSC, format FX, MAJOR 0xBD (R221). -/
  | xsc (h : Hdr) (x : Fin 16) (a : Opnd) (b : Opnd)
  /-- ACC_CLR, format FX, MAJOR 0xBE (R229). -/
  | accClr (h : Hdr) (acc : Fin 16)
  /-- ACC_MV, format FX, MAJOR 0xBF (R229). -/
  | accMv (h : Hdr) (bf : Bool) (d : Opnd) (acc : Fin 16) (sb : Fin 16)
  /-- ACC_LD, format FX, MAJOR 0xC0 (R229). -/
  | accLd (h : Hdr) (sh : Bool) (acc : Fin 16) (a : Opnd) (sb : Fin 16)
  /-- ACC_ST, format FX, MAJOR 0xC1 (R229). -/
  | accSt (h : Hdr) (sh : Bool) (a : Opnd) (acc : Fin 16) (sb : Fin 16)
  /-- MSTAT, format FX, MAJOR 0xC2 (R229). -/
  | mstat (h : Hdr) (d : Opnd) (sb : Fin 16)
  /-- COPY_G2S, format F3, MAJOR 0xC8 (R231, R233). -/
  | copyG2s (h : Hdr) (acq : Bool) (rel : Bool) (sc : Scope) (tr : Option (Fin 8)) (a : Opnd) (b : Opnd)
  /-- COPY_S2G, format F3, MAJOR 0xC9 (R231, R233). -/
  | copyS2g (h : Hdr) (acq : Bool) (rel : Bool) (sc : Scope) (tr : Option (Fin 8)) (a : Opnd) (b : Opnd)
  /-- COPY_S2S, format F3, MAJOR 0xCA (R231, R233). -/
  | copyS2s (h : Hdr) (acq : Bool) (rel : Bool) (sc : Scope) (tr : Option (Fin 8)) (a : Opnd) (b : Opnd)
  /-- COPY_DIE, format F3, MAJOR 0xCB (R231, R233). -/
  | copyDie (h : Hdr) (acq : Bool) (rel : Bool) (sc : Scope) (tr : Option (Fin 8)) (a : Opnd) (b : Opnd)
  /-- COPY_NET, format F3, MAJOR 0xCC (R231, R233). -/
  | copyNet (h : Hdr) (acq : Bool) (rel : Bool) (sc : Scope) (tr : Option (Fin 8)) (a : Opnd) (b : Opnd)
  /-- CPC_LAT, format F3, MAJOR 0xD0 (R236). -/
  | cpcLat (h : Hdr) (tr : Option (Fin 8)) (a : Opnd)
  /-- CPC_GLZ, format F3, MAJOR 0xD1 (R236). -/
  | cpcGlz (h : Hdr) (tr : Option (Fin 8)) (a : Opnd)
  /-- CPC_CUT, format F3, MAJOR 0xD2 (R236). -/
  | cpcCut (h : Hdr) (tr : Option (Fin 8)) (a : Opnd)
  /-- CPC_ICG, format F3, MAJOR 0xD3 (R236). -/
  | cpcIcg (h : Hdr) (tr : Option (Fin 8)) (a : Opnd)
  /-- TOKEN, format F3, MAJOR 0xD4 (R240). -/
  | token (h : Hdr) (a : Opnd) (b : Opnd)
  /-- TSKIP, format F3, MAJOR 0xD5 (R240). -/
  | tskip (h : Hdr) (a : Opnd)
  /-- SPAWN, format F3, MAJOR 0xD8 (R242). -/
  | spawn (h : Hdr) (tr : Option (Fin 8)) (a : Opnd) (b : Opnd)
  /-- TGET, format FM, MAJOR 0xD9 (R243). -/
  | tget (h : Hdr) (d : Opnd) (a : Opnd) (sb : Fin 16)
  /-- TDONE, format F3, MAJOR 0xDA (R244). -/
  | tdone (h : Hdr) (a : Opnd)
  /-- CLAIM, format FI, MAJOR 0xDB (R245). -/
  | claim (h : Hdr) (n : Fin 192)
  /-- CLAIM_TRY, format FI, MAJOR 0xDB (R245). -/
  | claimTry (h : Hdr) (pd : Fin 8) (n : Fin 192)
  /-- SURR, format FI, MAJOR 0xDC (R246). -/
  | surr (h : Hdr) (n : Fin 192)
  /-- Proofer bytecode BYTECODE_MOVI, OP 0x01 (R347). -/
  | bMovi (d : Fin 8) (i : BitVec 17)
  /-- Proofer bytecode MOVH, OP 0x02 (R347). -/
  | bMovh (d : Fin 8) (i : BitVec 16)
  /-- Proofer bytecode BYTECODE_ADD, OP 0x03 (R347). -/
  | bAdd (d : Fin 8) (a : Fin 8) (b : Fin 8)
  /-- Proofer bytecode BYTECODE_SUB, OP 0x04 (R347). -/
  | bSub (d : Fin 8) (a : Fin 8) (b : Fin 8)
  /-- Proofer bytecode BYTECODE_AND, OP 0x05 (R347). -/
  | bAnd (d : Fin 8) (a : Fin 8) (b : Fin 8)
  /-- Proofer bytecode BYTECODE_OR, OP 0x06 (R347). -/
  | bOr (d : Fin 8) (a : Fin 8) (b : Fin 8)
  /-- Proofer bytecode ADDI, OP 0x07 (R347). -/
  | bAddi (d : Fin 8) (a : Fin 8) (i : BitVec 17)
  /-- Proofer bytecode BYTECODE_SHL, OP 0x08 (R347). -/
  | bShl (d : Fin 8) (a : Fin 8) (n : Fin 64)
  /-- Proofer bytecode BYTECODE_SHR, OP 0x09 (R347). -/
  | bShr (d : Fin 8) (a : Fin 8) (n : Fin 64)
  /-- Proofer bytecode LDP, OP 0x0A (R347). -/
  | bLdp (d : Fin 8) (w : Fin 8)
  /-- Proofer bytecode LDW, OP 0x0B (R347). -/
  | bLdw (d : Fin 8) (a : Fin 8) (i : BitVec 17)
  /-- Proofer bytecode STW, OP 0x0C (R347). -/
  | bStw (a : Fin 8) (d : Fin 8) (i : BitVec 17)
  /-- Proofer bytecode SKIP, OP 0x0D (R347). -/
  | bSkip (cc : SkipCc) (a : Fin 8) (b : Fin 8) (i : BitVec 17)
  /-- Proofer bytecode BYTECODE_LOOP, OP 0x0E (R347). -/
  | bLoop (n : Byte)
  /-- Proofer bytecode ENDL, OP 0x0F (R347). -/
  | bEndl
  /-- Proofer bytecode LAUNCH, OP 0x10 (R347). -/
  | bLaunch (a : Fin 8) (b : Fin 8)
  /-- Proofer bytecode WAITL, OP 0x11 (R347). -/
  | bWaitl
  /-- Proofer bytecode IB, OP 0x12 (R347). -/
  | bIb (a : Fin 8) (b : Fin 8)
  /-- Proofer bytecode TKT, OP 0x13 (R347). -/
  | bTkt (a : Fin 8)
  /-- Proofer bytecode ENDP, OP 0x14 (R347). -/
  | bEndp
  /-- LOAD_DATA_RETURN (R179). -/
  | loadDataReturn (team : Nat) (gix : Nat) (slot : Nat)
  /-- ATOMIC_RETURN (R190). -/
  | atomicReturn (team : Nat) (gix : Nat) (slot : Nat)
  /-- ESTIMATOR_MERGE (R205, R279). -/
  | estimatorMerge (die : Nat) (core : Nat)
  /-- ELD_RETURN (R209). -/
  | eldReturn (team : Nat) (gix : Nat) (slot : Nat)
  /-- STEP_START (R226). -/
  | stepStart (die : Nat) (core : Nat) (mctx : Nat)
  /-- STEP_COMPLETE (R226). -/
  | stepComplete (die : Nat) (core : Nat) (mctx : Nat)
  /-- BADSCALE (R226). -/
  | badscale (team : Nat) (gix : Nat) (tid : Nat)
  /-- XLD_COMPLETE (R223). -/
  | xldComplete (team : Nat) (gix : Nat) (slot : Nat)
  /-- ACC_MOVE_COMPLETE (R229). -/
  | accMoveComplete (team : Nat) (gix : Nat) (slot : Nat)
  /-- COPY_UNIT_WRITE (R276). -/
  | copyUnitWrite (copy : Nat) (unit : Nat) (peer : PeerReply)
  /-- CALL_ACCEPT (R237). -/
  | callAccept (call : Nat)
  /-- CALLFAULT (R239). -/
  | callfault (team : Nat) (gix : Nat) (tid : Nat)
  /-- TGET_RETURN (R243). -/
  | tgetReturn (team : Nat) (gix : Nat) (slot : Nat)
  /-- PENDING_PUSH (R244). -/
  | pendingPush (die : Nat)
  /-- CLAIM_GRANT (R245). -/
  | claimGrant (die : Nat) (core : Nat) (slice : Nat)
  /-- REGDEADLOCK (R247). -/
  | regdeadlock (die : Nat) (core : Nat) (slice : Nat)
  /-- CVSTATE_STALL (R260). -/
  | cvstateStall (team : Nat) (gix : Nat)
  /-- SELECT (R257). -/
  | select (team : Nat)
  /-- TIMEOUT (R264). -/
  | timeout (team : Nat)
  /-- TEAM_COMPLETE (R118). -/
  | teamComplete (team : Nat)
  /-- PASS_BEGIN (R311). -/
  | passBegin (call : Nat)
  /-- TRI (R313). -/
  | tri (call : Nat)
  /-- PASS_END (R312). -/
  | passEnd (call : Nat)
  /-- PASS_ABORT (R328). -/
  | passAbort (call : Nat)
  /-- RESOLUTION_BEGIN (R310). -/
  | resolutionBegin (pass : Nat)
  /-- BIN_RESOLVE (R317). -/
  | binResolve (pass : Nat)
  /-- FRAG (R320). -/
  | frag (call : Nat)
  /-- BINDONE (R321). -/
  | bindone (call : Nat)
  /-- BIN_COMMIT (R321). -/
  | binCommit (pass : Nat) (bin : Nat)
  /-- STREAM_COMMIT (R323). -/
  | streamCommit (pass : Nat) (pixel : Nat)
  /-- LATTICE_TRI (R334). -/
  | latticeTri (call : Nat)
  /-- PATCH (R335). -/
  | patch (call : Nat)
  /-- SAMPLE (R339). -/
  | sample (call : Nat)
  /-- DECODE (R340). -/
  | decodeCall (call : Nat)
  /-- SIGNAL (R344). -/
  | signal (sid : Nat) (ctx : Nat) (q : BitVec 16) (rsv : BitVec 16) (tail : Word)
  /-- QUEUE_IDLE_TIMEOUT (R346). -/
  | queueIdleTimeout (slot : Nat)
  /-- PENDING_REMAP (R346). -/
  | pendingRemap (ctx : Nat) (q : Nat)
  /-- LOTTERY_DRAW (R353). -/
  | lotteryDraw
  /-- BUDGET (R349). -/
  | budget (eng : Nat)
  /-- NODE_COMPLETE (R356). -/
  | nodeComplete (run : Nat) (node : Nat)
  /-- PLACEMENT_ROUND (R359). -/
  | placementRound
  /-- DISPATCH (R362). -/
  | dispatch (ctx : Nat) (q : Nat)
  /-- SAVE (R372). -/
  | save (team : Nat)
  /-- PAGE_IN (R377). -/
  | pageIn (ctx : Nat) (va : Nat) (ok : Bool) (data : List (Nat × Byte))
  /-- COW_RESOLVE (R378). -/
  | cowResolve (ctx : Nat) (va : Nat)
  /-- SCRUB (R381, R382). -/
  | scrub (found : Option ErrLoc)
  /-- CORE_FAULT (R399). -/
  | coreFault (die : Nat) (core : Nat)
  /-- SVCDONE (R399). -/
  | svcDone
  /-- PEER_WRITE (R408). -/
  | peerWrite (sid : Nat) (ctx : Nat) (va : Nat) (data : List Byte)
  /-- PEER_READ (R385). -/
  | peerRead (sid : Nat) (ctx : Nat) (va : Nat) (n : Nat)
  /-- HSEM_LEASE_EXPIRY (R392). -/
  | hsemLeaseExpiry
  /-- BOOT (R396). -/
  | boot
  /-- ILLOP (R89). -/
  | illop (w : DWord) (opnd : BitVec 11)
  /-- BADCLAUSE (R78). -/
  | badclause (hdr : DWord)
  /-- SEQUENCE_UNIT_RESULT (R141). -/
  | sequenceUnitResult (team : Nat) (gix : Nat) (slot : Nat)
  /-- WRITE_APPLY (R284). -/
  | writeApply (idx : Nat) (view : Nat)
  /-- BADSIG (R386). -/
  | badsig (cmd : BitVec 16) (r : MRec)
  /-- HSEMACQ (R392). -/
  | hsemacq (r : MRec)
  /-- HSEMREL (R392). -/
  | hsemrel (r : MRec)
  /-- THAW (R392). -/
  | thaw (r : MRec)
  /-- JREAD (R391). -/
  | jread (r : MRec)
  /-- CTXCREATE (R380). -/
  | ctxcreate (r : MRec)
  /-- CTXDESTROY (R390). -/
  | ctxdestroy (r : MRec)
  /-- QCREATE (R343). -/
  | qcreate (r : MRec)
  /-- QDESTROY (R390). -/
  | qdestroy (r : MRec)
  /-- QCLEAR (R390). -/
  | qclear (r : MRec)
  /-- TQCREATE (R360). -/
  | tqcreate (r : MRec)
  /-- PROGLOAD (R348). -/
  | progload (r : MRec)
  /-- MAP (R390). -/
  | map (r : MRec)
  /-- UNMAP (R379). -/
  | unmap (r : MRec)
  /-- PEERMAP (R389). -/
  | peermap (r : MRec)
  /-- GRAPHCANCEL (R356). -/
  | graphcancel (r : MRec)
  /-- CTXPREEMPT (R369). -/
  | ctxpreempt (r : MRec)
  /-- CTXRESUME (R390). -/
  | ctxresume (r : MRec)
  /-- SEED (R353). -/
  | seed (r : MRec)
  /-- FWWRITE (R397). -/
  | fwwrite (r : MRec)
  /-- FWCOMMIT (R397). -/
  | fwcommit (r : MRec)
  /-- RESET (R389). -/
  | reset (r : MRec)
  /-- KEYSET (R389). -/
  | keyset (r : MRec)
  /-- ATTEST (R398). -/
  | attest (r : MRec)
  /-- SVC_ENGINE (R399). -/
  | svcEngine (r : MRec)
  /-- SVC_STACK (R399). -/
  | svcStack (r : MRec)
  /-- SVC_CORE (R399). -/
  | svcCore (r : MRec)
  /-- SVC_PORT (R399). -/
  | svcPort (r : MRec)
  /-- SESSION_ESTABLISH (R385). -/
  | sessionEstablish (sid : Nat) (port : Nat) (key : List Byte)
  /-- UNKNOWN_COMMAND (R388). -/
  | unknownCommand (cmd : BitVec 16) (r : MRec)
  /-- POWER_LOSS (R397). -/
  | powerLoss (part : Option FlashPart)
  deriving DecidableEq, Repr

end Sys2Proof
end

