-- ==== Sys2Proof/Machine/Static.lean ====
section
/-!
DEFINITION. What the opcode map says of an instruction beside its encoding (R79, R80, R87 to R110): the
registers each operand field names and how, its clause class, its latency, its scoreboard slot, and the
check `wellFormed` of R89 on the operands.
-/

namespace Sys2Proof

/-- Which operand codes an operand field admits. -/
inductive OpCls where
  /-- Any register or constant code. -/
  | any
  /-- A V or T register. -/
  | dVT
  /-- A V, T or K register as destination. A K register makes the instruction its uniform form (R110). -/
  | dVTK
  /-- A V register. -/
  | dV
  /-- A K register as destination (ldu). -/
  | dK
  /-- A V, T or K register. -/
  | vtk
  /-- A K register or codes 1808 to 1814 and 1820 to 1823 (R107, R216). -/
  | uni
  /-- A K register or a code that does not vary by thread (R32). -/
  | unif
  /-- A K register. -/
  | kOnly
  /-- A K register or #0, code 1808 (R109). -/
  | kZero
  /-- A K register or codes 1808 to 1814 (R122). -/
  | loopA
  deriving DecidableEq, Repr

/-- One operand of an instruction: the field, whether its registers are written and read, how many
consecutive registers it names, and the multiple its first register number must be. -/
structure OpUse where
  o : Opnd
  wr : Bool
  rd : Bool
  n : Nat
  al : Nat
  cls : OpCls
  deriving DecidableEq, Repr

/-- Registers of an operand of add and sub. -/
def SumForm.regs : SumForm → Nat | .i64 => 2 | _ => 1
/-- Registers of an operand of neg and abs. -/
def NegForm.regs : NegForm → Nat | .i64 => 2 | _ => 1
/-- Registers of the result of mul. -/
def MulForm.dRegs : MulForm → Nat | .i64 => 2 | .wideI => 2 | .wideN => 2 | _ => 1
/-- Registers of a source of mul. -/
def MulForm.sRegs : MulForm → Nat | .i64 => 2 | _ => 1
/-- Registers of the result and of C of mad. -/
def MadForm.regs : MadForm → Nat | .i32 => 1 | _ => 2
/-- Registers of an operand of min and max. -/
def CmpForm.regs : CmpForm → Nat | .i64 => 2 | .n64 => 2 | _ => 1
/-- Bits of an element (R57, R64, R69). -/
def ElTy.bits : ElTy → Nat
  | .i8 => 8 | .i16 => 16 | .i32 => 32 | .i64 => 64 | .n8 => 8 | .n16 => 16 | .n32 => 32 | .n64 => 64
  | .f32 => 32 | .f16 => 16 | .bf16 => 16 | .fn8 => 8 | .fw8 => 8 | .fn4 => 4 | .i4 => 4 | .n4 => 4
/-- Registers that hold a value of the type: 64-bit types use pairs (R100). -/
def ElTy.regs (t : ElTy) : Nat := if t.bits = 64 then 2 else 1
/-- The integer types. -/
def ElTy.isInt : ElTy → Bool
  | .f32 => false | .f16 => false | .bf16 => false | .fn8 => false | .fw8 => false | .fn4 => false | _ => true
/-- The narrow floating-point types FN8, FW8 and FN4 (R64). -/
def ElTy.isNarrow : ElTy → Bool | .fn8 => true | .fw8 => true | .fn4 => true | _ => false
/-- Bytes of an access (R103). -/
def MSize.bytes : MSize → Nat | .b8 => 1 | .b16 => 2 | .b32 => 4 | .b64 => 8 | .b128 => 16
/-- Registers an access names (R104, R179). -/
def MSize.regs : MSize → Nat | .b64 => 2 | .b128 => 4 | _ => 1
/-- Registers of a 32- or 64-bit operand. -/
def wideRegs (w : Bool) : Nat := if w then 2 else 1
/-- The multiple an atom.cas register number must be (R105). -/
def casAlign (w : Bool) : Nat := if w then 4 else 1
/-- Registers of the run ldt writes (R183): element width 4, 8, 16, 32. -/
def ldtRegs (w : Fin 4) : Nat := 2 * 2 ^ w.val
/-- Registers of the run acc.mv writes (R229). -/
def accMvRegs (bf : Bool) : Nat := if bf then 16 else 32
/-- The registers acc.mv may write (R229). -/
def accMvCls (bf : Bool) : OpCls := if bf then .dVT else .dV

/-- The operands of an instruction (R97 to R109). The events and bytecodes have none. DEDUCED (log entry 9; safe). -/
def uses : Instr → List OpUse
  | .brx _ a _ => [⟨a, false, true, 1, 1, .vtk⟩]
  | .call _ d _ => [⟨d, true, false, 2, 2, .dVT⟩]
  | .callx _ d a => [⟨d, true, false, 2, 2, .dVT⟩, ⟨a, false, true, 1, 1, .vtk⟩]
  | .ret _ a => [⟨a, false, true, 2, 2, .vtk⟩]
  | .loop _ a _ => [⟨a, false, true, 1, 1, .loopA⟩]
  | .loopv _ a _ => [⟨a, false, true, 1, 1, .dVT⟩]
  | .mfs _ d _ => [⟨d, true, false, 1, 1, .dVT⟩]
  | .mts _ _ a => [⟨a, false, true, 1, 1, .any⟩]
  | .add _ f d a b c => [⟨d, true, false, f.regs, f.regs, .dVTK⟩, ⟨a, false, true, f.regs, f.regs, .any⟩, ⟨b, false, true, f.regs, f.regs, .any⟩, ⟨c, false, true, f.regs, f.regs, .any⟩]
  | .addc _ _ d a b c => [⟨d, true, false, 1, 1, .dVTK⟩, ⟨a, false, true, 1, 1, .any⟩, ⟨b, false, true, 1, 1, .any⟩, ⟨c, false, true, 1, 1, .any⟩]
  | .sub _ f d a b => [⟨d, true, false, f.regs, f.regs, .dVTK⟩, ⟨a, false, true, f.regs, f.regs, .any⟩, ⟨b, false, true, f.regs, f.regs, .any⟩]
  | .subb _ _ d a b c => [⟨d, true, false, 1, 1, .dVTK⟩, ⟨a, false, true, 1, 1, .any⟩, ⟨b, false, true, 1, 1, .any⟩, ⟨c, false, true, 1, 1, .any⟩]
  | .neg _ f d a => [⟨d, true, false, f.regs, f.regs, .dVTK⟩, ⟨a, false, true, f.regs, f.regs, .any⟩]
  | .abs _ f d a => [⟨d, true, false, f.regs, f.regs, .dVTK⟩, ⟨a, false, true, f.regs, f.regs, .any⟩]
  | .mul _ f d a b => [⟨d, true, false, f.dRegs, f.dRegs, .dVTK⟩, ⟨a, false, true, f.sRegs, f.sRegs, .any⟩, ⟨b, false, true, f.sRegs, f.sRegs, .any⟩]
  | .mulhi _ _ d a b => [⟨d, true, false, 1, 1, .dVTK⟩, ⟨a, false, true, 1, 1, .any⟩, ⟨b, false, true, 1, 1, .any⟩]
  | .mad _ f d a b c => [⟨d, true, false, f.regs, f.regs, .dVTK⟩, ⟨a, false, true, 1, 1, .any⟩, ⟨b, false, true, 1, 1, .any⟩, ⟨c, false, true, f.regs, f.regs, .any⟩]
  | .madhi _ _ d a b c => [⟨d, true, false, 1, 1, .dVTK⟩, ⟨a, false, true, 1, 1, .any⟩, ⟨b, false, true, 1, 1, .any⟩, ⟨c, false, true, 1, 1, .any⟩]
  | .min _ f d a b => [⟨d, true, false, f.regs, f.regs, .dVTK⟩, ⟨a, false, true, f.regs, f.regs, .any⟩, ⟨b, false, true, f.regs, f.regs, .any⟩]
  | .max _ f d a b => [⟨d, true, false, f.regs, f.regs, .dVTK⟩, ⟨a, false, true, f.regs, f.regs, .any⟩, ⟨b, false, true, f.regs, f.regs, .any⟩]
  | .and _ d a b => [⟨d, true, false, 1, 1, .dVTK⟩, ⟨a, false, true, 1, 1, .any⟩, ⟨b, false, true, 1, 1, .any⟩]
  | .or _ d a b => [⟨d, true, false, 1, 1, .dVTK⟩, ⟨a, false, true, 1, 1, .any⟩, ⟨b, false, true, 1, 1, .any⟩]
  | .xor _ d a b => [⟨d, true, false, 1, 1, .dVTK⟩, ⟨a, false, true, 1, 1, .any⟩, ⟨b, false, true, 1, 1, .any⟩]
  | .andn _ d a b => [⟨d, true, false, 1, 1, .dVTK⟩, ⟨a, false, true, 1, 1, .any⟩, ⟨b, false, true, 1, 1, .any⟩]
  | .not _ d a => [⟨d, true, false, 1, 1, .dVTK⟩, ⟨a, false, true, 1, 1, .any⟩]
  | .shl _ d a b => [⟨d, true, false, 1, 1, .dVTK⟩, ⟨a, false, true, 1, 1, .any⟩, ⟨b, false, true, 1, 1, .any⟩]
  | .shr _ d a b => [⟨d, true, false, 1, 1, .dVTK⟩, ⟨a, false, true, 1, 1, .any⟩, ⟨b, false, true, 1, 1, .any⟩]
  | .sar _ d a b => [⟨d, true, false, 1, 1, .dVTK⟩, ⟨a, false, true, 1, 1, .any⟩, ⟨b, false, true, 1, 1, .any⟩]
  | .rot _ d a b => [⟨d, true, false, 1, 1, .dVTK⟩, ⟨a, false, true, 1, 1, .any⟩, ⟨b, false, true, 1, 1, .any⟩]
  | .clz _ d a => [⟨d, true, false, 1, 1, .dVTK⟩, ⟨a, false, true, 1, 1, .any⟩]
  | .popc _ d a => [⟨d, true, false, 1, 1, .dVTK⟩, ⟨a, false, true, 1, 1, .any⟩]
  | .brev _ d a => [⟨d, true, false, 1, 1, .dVTK⟩, ⟨a, false, true, 1, 1, .any⟩]
  | .bfe _ _ d a b c => [⟨d, true, false, 1, 1, .dVTK⟩, ⟨a, false, true, 1, 1, .any⟩, ⟨b, false, true, 1, 1, .any⟩, ⟨c, false, true, 1, 1, .any⟩]
  | .bfi _ d a b c => [⟨d, true, false, 1, 1, .dVTK⟩, ⟨a, false, true, 1, 1, .any⟩, ⟨b, false, true, 1, 1, .any⟩, ⟨c, false, true, 1, 1, .any⟩]
  | .lea _ _ d a b c => [⟨d, true, false, 1, 1, .dVTK⟩, ⟨a, false, true, 1, 1, .any⟩, ⟨b, false, true, 1, 1, .any⟩, ⟨c, false, true, 1, 1, .any⟩]
  | .addmin _ _ d a b c => [⟨d, true, false, 1, 1, .dVTK⟩, ⟨a, false, true, 1, 1, .any⟩, ⟨b, false, true, 1, 1, .any⟩, ⟨c, false, true, 1, 1, .any⟩]
  | .addmax _ _ d a b c => [⟨d, true, false, 1, 1, .dVTK⟩, ⟨a, false, true, 1, 1, .any⟩, ⟨b, false, true, 1, 1, .any⟩, ⟨c, false, true, 1, 1, .any⟩]
  | .div _ _ d a b _ => [⟨d, true, false, 1, 1, .dVT⟩, ⟨a, false, true, 1, 1, .any⟩, ⟨b, false, true, 1, 1, .any⟩]
  | .rem _ _ d a b _ => [⟨d, true, false, 1, 1, .dVT⟩, ⟨a, false, true, 1, 1, .any⟩, ⟨b, false, true, 1, 1, .any⟩]
  | .mov _ wide d a => [⟨d, true, false, wideRegs wide, wideRegs wide, .dVTK⟩, ⟨a, false, true, wideRegs wide, wideRegs wide, .any⟩]
  | .movi _ d _ => [⟨d, true, false, 1, 1, .dVTK⟩]
  | .fadd _ _ d a b => [⟨d, true, false, 1, 1, .dVTK⟩, ⟨a, false, true, 1, 1, .any⟩, ⟨b, false, true, 1, 1, .any⟩]
  | .fsub _ _ d a b => [⟨d, true, false, 1, 1, .dVTK⟩, ⟨a, false, true, 1, 1, .any⟩, ⟨b, false, true, 1, 1, .any⟩]
  | .fmul _ _ d a b => [⟨d, true, false, 1, 1, .dVTK⟩, ⟨a, false, true, 1, 1, .any⟩, ⟨b, false, true, 1, 1, .any⟩]
  | .ffma _ _ d a b c => [⟨d, true, false, 1, 1, .dVTK⟩, ⟨a, false, true, 1, 1, .any⟩, ⟨b, false, true, 1, 1, .any⟩, ⟨c, false, true, 1, 1, .any⟩]
  | .fmin _ d a b => [⟨d, true, false, 1, 1, .dVTK⟩, ⟨a, false, true, 1, 1, .any⟩, ⟨b, false, true, 1, 1, .any⟩]
  | .fmax _ d a b => [⟨d, true, false, 1, 1, .dVTK⟩, ⟨a, false, true, 1, 1, .any⟩, ⟨b, false, true, 1, 1, .any⟩]
  | .fabs _ d a => [⟨d, true, false, 1, 1, .dVTK⟩, ⟨a, false, true, 1, 1, .any⟩]
  | .fneg _ d a => [⟨d, true, false, 1, 1, .dVTK⟩, ⟨a, false, true, 1, 1, .any⟩]
  | .frcp _ _ d a _ => [⟨d, true, false, 1, 1, .dVT⟩, ⟨a, false, true, 1, 1, .any⟩]
  | .frsq _ _ d a _ => [⟨d, true, false, 1, 1, .dVT⟩, ⟨a, false, true, 1, 1, .any⟩]
  | .fsqrt _ _ d a _ => [⟨d, true, false, 1, 1, .dVT⟩, ⟨a, false, true, 1, 1, .any⟩]
  | .fdiv _ _ d a b _ => [⟨d, true, false, 1, 1, .dVT⟩, ⟨a, false, true, 1, 1, .any⟩, ⟨b, false, true, 1, 1, .any⟩]
  | .fexp2 _ d a _ => [⟨d, true, false, 1, 1, .dVT⟩, ⟨a, false, true, 1, 1, .any⟩]
  | .flog2 _ d a _ => [⟨d, true, false, 1, 1, .dVT⟩, ⟨a, false, true, 1, 1, .any⟩]
  | .fsin _ d a _ => [⟨d, true, false, 1, 1, .dVT⟩, ⟨a, false, true, 1, 1, .any⟩]
  | .fcos _ d a _ => [⟨d, true, false, 1, 1, .dVT⟩, ⟨a, false, true, 1, 1, .any⟩]
  | .frint _ d a => [⟨d, true, false, 1, 1, .dVTK⟩, ⟨a, false, true, 1, 1, .any⟩]
  | .ftrunc _ d a => [⟨d, true, false, 1, 1, .dVTK⟩, ⟨a, false, true, 1, 1, .any⟩]
  | .ffloor _ d a => [⟨d, true, false, 1, 1, .dVTK⟩, ⟨a, false, true, 1, 1, .any⟩]
  | .fceil _ d a => [⟨d, true, false, 1, 1, .dVTK⟩, ⟨a, false, true, 1, 1, .any⟩]
  | .fclass _ d a => [⟨d, true, false, 1, 1, .dVTK⟩, ⟨a, false, true, 1, 1, .any⟩]
  | .cvt _ d a dst src _ _ => [⟨d, true, false, dst.regs, dst.regs, .dVTK⟩, ⟨a, false, true, src.regs, src.regs, .any⟩]
  | .hadd2 _ _ _ d a b => [⟨d, true, false, 1, 1, .dVTK⟩, ⟨a, false, true, 1, 1, .any⟩, ⟨b, false, true, 1, 1, .any⟩]
  | .hmul2 _ _ _ d a b => [⟨d, true, false, 1, 1, .dVTK⟩, ⟨a, false, true, 1, 1, .any⟩, ⟨b, false, true, 1, 1, .any⟩]
  | .hfma2 _ _ _ d a b c => [⟨d, true, false, 1, 1, .dVTK⟩, ⟨a, false, true, 1, 1, .any⟩, ⟨b, false, true, 1, 1, .any⟩, ⟨c, false, true, 1, 1, .any⟩]
  | .dot2 _ _ _ d a b c => [⟨d, true, true, 1, 1, .dVT⟩, ⟨a, false, true, 1, 1, .any⟩, ⟨b, false, true, 1, 1, .any⟩, ⟨c, false, true, 1, 1, .any⟩]
  | .dot4f _ _ _ d a b c => [⟨d, true, true, 1, 1, .dVT⟩, ⟨a, false, true, 1, 1, .any⟩, ⟨b, false, true, 1, 1, .any⟩, ⟨c, false, true, 1, 1, .any⟩]
  | .dot4i _ _ d a b => [⟨d, true, true, 1, 1, .dVT⟩, ⟨a, false, true, 1, 1, .any⟩, ⟨b, false, true, 1, 1, .any⟩]
  | .dot8f _ _ d a b c => [⟨d, true, true, 1, 1, .dVT⟩, ⟨a, false, true, 1, 1, .any⟩, ⟨b, false, true, 1, 1, .any⟩, ⟨c, false, true, 1, 1, .any⟩]
  | .dot8i _ _ d a b => [⟨d, true, true, 1, 1, .dVT⟩, ⟨a, false, true, 1, 1, .any⟩, ⟨b, false, true, 1, 1, .any⟩]
  | .pk _ _ d a b c => [⟨d, true, true, 1, 1, .dVT⟩, ⟨a, false, true, 1, 1, .any⟩, ⟨b, false, true, 1, 1, .any⟩, ⟨c, false, true, 1, 1, .any⟩]
  | .upk _ _ d a b => [⟨d, true, false, 1, 1, .dVT⟩, ⟨a, false, true, 1, 1, .any⟩, ⟨b, false, true, 1, 1, .any⟩]
  | .scl _ _ _ d a b => [⟨d, true, false, 1, 1, .dVT⟩, ⟨a, false, true, 1, 1, .any⟩, ⟨b, false, true, 1, 1, .any⟩]
  | .setpI _ _ _ a b _ => [⟨a, false, true, 1, 1, .any⟩, ⟨b, false, true, 1, 1, .any⟩]
  | .setpN _ _ _ a b _ => [⟨a, false, true, 1, 1, .any⟩, ⟨b, false, true, 1, 1, .any⟩]
  | .setpF _ _ _ a b _ => [⟨a, false, true, 1, 1, .any⟩, ⟨b, false, true, 1, 1, .any⟩]
  | .sel _ wide d a b _ => [⟨d, true, false, wideRegs wide, wideRegs wide, .dVT⟩, ⟨a, false, true, wideRegs wide, wideRegs wide, .any⟩, ⟨b, false, true, wideRegs wide, wideRegs wide, .any⟩]
  | .lsh _ _ d a b c => [⟨d, true, false, 1, 1, .dVT⟩, ⟨a, false, true, 1, 1, .any⟩, ⟨b, false, true, 1, 1, .any⟩, ⟨c, false, true, 1, 1, .any⟩]
  | .lxor _ d a b => [⟨d, true, false, 1, 1, .dVT⟩, ⟨a, false, true, 1, 1, .any⟩, ⟨b, false, true, 1, 1, .any⟩]
  | .lbc _ d a b => [⟨d, true, false, 1, 1, .dVT⟩, ⟨a, false, true, 1, 1, .any⟩, ⟨b, false, true, 1, 1, .any⟩]
  | .lrot _ d a b => [⟨d, true, false, 1, 1, .dVT⟩, ⟨a, false, true, 1, 1, .any⟩, ⟨b, false, true, 1, 1, .any⟩]
  | .qswp _ _ d a => [⟨d, true, false, 1, 1, .dVT⟩, ⟨a, false, true, 1, 1, .any⟩]
  | .qbc _ d a b => [⟨d, true, false, 1, 1, .dVT⟩, ⟨a, false, true, 1, 1, .any⟩, ⟨b, false, true, 1, 1, .any⟩]
  | .vote _ (.bal d) _ => [⟨d, true, false, 1, 1, .dVT⟩]
  | .lscan _ _ _ d a => [⟨d, true, false, 1, 1, .dVT⟩, ⟨a, false, true, 1, 1, .any⟩]
  | .ldS _ sz _ _ d a _ _ => [⟨d, true, false, sz.regs, sz.regs, .dVT⟩, ⟨a, false, true, 1, 1, .any⟩]
  | .stS _ sz _ a _ d => [⟨a, false, true, 1, 1, .any⟩, ⟨d, false, true, sz.regs, sz.regs, .any⟩]
  | .ldH _ sz _ _ d a _ _ => [⟨d, true, false, sz.regs, sz.regs, .dVT⟩, ⟨a, false, true, 1, 1, .any⟩]
  | .stH _ sz _ a _ d => [⟨a, false, true, 1, 1, .any⟩, ⟨d, false, true, sz.regs, sz.regs, .any⟩]
  | .ldK _ sz _ d a _ _ => [⟨d, true, false, sz.regs, sz.regs, .dVT⟩, ⟨a, false, true, 1, 1, .any⟩]
  | .stK _ sz a _ d => [⟨a, false, true, 1, 1, .any⟩, ⟨d, false, true, sz.regs, sz.regs, .any⟩]
  | .ldC _ sz _ _ d a _ _ => [⟨d, true, false, sz.regs, sz.regs, .dVT⟩, ⟨a, false, true, 1, 1, .any⟩]
  | .stC _ sz _ a _ d => [⟨a, false, true, 1, 1, .any⟩, ⟨d, false, true, sz.regs, sz.regs, .any⟩]
  | .ldu _ sz _ d a _ _ => [⟨d, true, false, sz.regs, sz.regs, .dK⟩, ⟨a, false, true, 1, 1, .kOnly⟩]
  | .ldt _ w d a _ _ => [⟨d, true, false, ldtRegs w, 1, .dVT⟩, ⟨a, false, true, 1, 1, .any⟩]
  | .atomS _ _ wide _ a _ d _ => [⟨a, false, true, 1, 1, .any⟩, ⟨d, true, true, wideRegs wide, wideRegs wide, .dVT⟩]
  | .atomH _ _ wide _ a _ d _ => [⟨a, false, true, 1, 1, .any⟩, ⟨d, true, true, wideRegs wide, wideRegs wide, .dVT⟩]
  | .atomC _ _ wide _ a _ d _ => [⟨a, false, true, 1, 1, .any⟩, ⟨d, true, true, wideRegs wide, wideRegs wide, .dVT⟩]
  | .redS _ _ wide _ a _ d => [⟨a, false, true, 1, 1, .any⟩, ⟨d, false, true, wideRegs wide, wideRegs wide, .any⟩]
  | .redH _ _ wide _ a _ d => [⟨a, false, true, 1, 1, .any⟩, ⟨d, false, true, wideRegs wide, wideRegs wide, .any⟩]
  | .redC _ _ wide _ a _ d => [⟨a, false, true, 1, 1, .any⟩, ⟨d, false, true, wideRegs wide, wideRegs wide, .any⟩]
  | .cas _ _ wide _ a _ d _ => [⟨a, false, true, 1, 1, .any⟩, ⟨d, true, true, 2 * wideRegs wide, casAlign wide, .dVT⟩]
  | .barInit _ a _ d => [⟨a, false, true, 1, 1, .any⟩, ⟨d, false, true, 1, 1, .any⟩]
  | .barArrive _ d a _ _ => [⟨d, true, true, 1, 1, .dVT⟩, ⟨a, false, true, 1, 1, .any⟩]
  | .barWait _ a _ d => [⟨a, false, true, 1, 1, .any⟩, ⟨d, false, true, 1, 1, .any⟩]
  | .arrInit _ a _ d => [⟨a, false, true, 1, 1, .any⟩, ⟨d, false, true, 1, 1, .any⟩]
  | .arrAdd _ a _ d => [⟨a, false, true, 1, 1, .any⟩, ⟨d, false, true, 1, 1, .any⟩]
  | .arrWait _ a _ d => [⟨a, false, true, 1, 1, .any⟩, ⟨d, false, true, 1, 1, .any⟩]
  | .arrRead _ d a _ _ => [⟨d, true, false, 2, 2, .dVT⟩, ⟨a, false, true, 1, 1, .any⟩]
  | .ereg _ a d => [⟨a, false, true, 1, 1, .uni⟩, ⟨d, false, true, 1, 1, .uni⟩]
  | .esamp _ a _ d => [⟨a, false, true, 1, 1, .any⟩, ⟨d, false, true, 1, 1, .any⟩]
  | .esampW _ a _ d => [⟨a, false, true, 1, 1, .any⟩, ⟨d, false, true, 2, 2, .any⟩]
  | .esampB _ a _ d => [⟨a, false, true, 1, 1, .any⟩, ⟨d, false, true, 3, 1, .vtk⟩]
  | .eld _ d a _ _ _ => [⟨d, true, false, 2, 2, .dVT⟩, ⟨a, false, true, 1, 1, .any⟩]
  | .edecay _ a d => [⟨a, false, true, 1, 1, .uni⟩, ⟨d, false, true, 1, 1, .uni⟩]
  | .eflush _ a => [⟨a, false, true, 1, 1, .uni⟩]
  | .eclr _ a => [⟨a, false, true, 1, 1, .uni⟩]
  | .mma _ _ _ a _ _ _ => [⟨a, false, false, 8, 1, .dV⟩]
  | .xres _ _ a => [⟨a, false, true, 4, 4, .kOnly⟩]
  | .xld _ _ _ a b _ => [⟨a, false, true, 1, 1, .any⟩, ⟨b, false, true, 1, 1, .any⟩]
  | .xsc _ _ a b => [⟨a, false, true, 1, 1, .uni⟩, ⟨b, false, true, 1, 1, .uni⟩]
  | .accMv _ bf d _ _ => [⟨d, true, false, accMvRegs bf, 1, accMvCls bf⟩]
  | .accLd _ _ _ a _ => [⟨a, false, true, 1, 1, .uni⟩]
  | .accSt _ _ a _ _ => [⟨a, false, true, 1, 1, .uni⟩]
  | .mstat _ d _ => [⟨d, true, false, 1, 1, .dVT⟩]
  | .copyG2s _ _ _ _ _ a b => [⟨a, false, true, 8, 8, .kOnly⟩, ⟨b, false, true, 1, 1, .kZero⟩]
  | .copyS2g _ _ _ _ _ a b => [⟨a, false, true, 8, 8, .kOnly⟩, ⟨b, false, true, 1, 1, .kZero⟩]
  | .copyS2s _ _ _ _ _ a b => [⟨a, false, true, 8, 8, .kOnly⟩, ⟨b, false, true, 1, 1, .kZero⟩]
  | .copyDie _ _ _ _ _ a b => [⟨a, false, true, 8, 8, .kOnly⟩, ⟨b, false, true, 1, 1, .kZero⟩]
  | .copyNet _ _ _ _ _ a b => [⟨a, false, true, 8, 8, .kOnly⟩, ⟨b, false, true, 1, 1, .kZero⟩]
  | .cpcLat _ _ a => [⟨a, false, true, 16, 1, .dV⟩]
  | .cpcGlz _ _ a => [⟨a, false, true, 16, 1, .dV⟩]
  | .cpcCut _ _ a => [⟨a, false, true, 16, 1, .dV⟩]
  | .cpcIcg _ _ a => [⟨a, false, true, 16, 1, .dV⟩]
  | .token _ a b => [⟨a, false, true, 1, 1, .uni⟩, ⟨b, false, true, 1, 1, .uni⟩]
  | .tskip _ a => [⟨a, false, true, 1, 1, .any⟩]
  | .spawn _ _ a b => [⟨a, false, true, 16, 1, .dV⟩, ⟨b, false, true, 1, 1, .unif⟩]
  | .tget _ d a _ => [⟨d, true, false, 16, 1, .dV⟩, ⟨a, false, true, 1, 1, .uni⟩]
  | .tdone _ a => [⟨a, false, true, 16, 1, .dV⟩]
  | _ => []

/-- Clause classes (R79). -/
inductive CClass where | valu | uniform | mem | matrix | engine | control
  deriving DecidableEq, Repr

/-- The destination of an instruction that has a uniform form (R110). -/
def uniformDst? : Instr → Option Opnd
  | .add _ _ d _ _ _ => some d
  | .addc _ _ d _ _ _ => some d
  | .sub _ _ d _ _ => some d
  | .subb _ _ d _ _ _ => some d
  | .neg _ _ d _ => some d
  | .abs _ _ d _ => some d
  | .mul _ _ d _ _ => some d
  | .mulhi _ _ d _ _ => some d
  | .mad _ _ d _ _ _ => some d
  | .madhi _ _ d _ _ _ => some d
  | .min _ _ d _ _ => some d
  | .max _ _ d _ _ => some d
  | .and _ d _ _ => some d
  | .or _ d _ _ => some d
  | .xor _ d _ _ => some d
  | .andn _ d _ _ => some d
  | .not _ d _ => some d
  | .shl _ d _ _ => some d
  | .shr _ d _ _ => some d
  | .sar _ d _ _ => some d
  | .rot _ d _ _ => some d
  | .clz _ d _ => some d
  | .popc _ d _ => some d
  | .brev _ d _ => some d
  | .bfe _ _ d _ _ _ => some d
  | .bfi _ d _ _ _ => some d
  | .lea _ _ d _ _ _ => some d
  | .addmin _ _ d _ _ _ => some d
  | .addmax _ _ d _ _ _ => some d
  | .mov _ _ d _ => some d
  | .movi _ d _ => some d
  | .fadd _ _ d _ _ => some d
  | .fsub _ _ d _ _ => some d
  | .fmul _ _ d _ _ => some d
  | .ffma _ _ d _ _ _ => some d
  | .fmin _ d _ _ => some d
  | .fmax _ d _ _ => some d
  | .fabs _ d _ => some d
  | .fneg _ d _ => some d
  | .frint _ d _ => some d
  | .ftrunc _ d _ => some d
  | .ffloor _ d _ => some d
  | .fceil _ d _ => some d
  | .fclass _ d _ => some d
  | .cvt _ d _ _ _ _ _ => some d
  | .hadd2 _ _ _ d _ _ => some d
  | .hmul2 _ _ _ d _ _ => some d
  | .hfma2 _ _ _ d _ _ _ => some d
  | .ldu _ _ _ d _ _ _ => some d
  | _ => none

/-- A K register. -/
def Opnd.isK : Opnd → Bool | .k _ => true | _ => false

/-- The uniform class (R110): the instruction writes a K register and has a uniform form. -/
def isUniform (i : Instr) : Bool :=
  match uniformDst? i with
  | some d => d.isK
  | none => false

/-- The clause class of an instruction (R79); none for nop, which every class admits, and for what is not
an Igfin instruction. -/
def clauseClass (i : Instr) : Option CClass :=
  if isUniform i then some .uniform else
  match i with
  | .br .. => some .control
  | .brx .. => some .control
  | .call .. => some .control
  | .callx .. => some .control
  | .ret .. => some .control
  | .exit .. => some .control
  | .meet .. => some .control
  | .loop .. => some .control
  | .loopImm .. => some .control
  | .loopv .. => some .control
  | .lpop .. => some .control
  | .trap .. => some .control
  | .rfe .. => some .control
  | .yield .. => some .control
  | .bkpt .. => some .control
  | .mfs .. => some .control
  | .mts .. => some .control
  | .add .. => some .valu
  | .addc .. => some .valu
  | .sub .. => some .valu
  | .subb .. => some .valu
  | .neg .. => some .valu
  | .abs .. => some .valu
  | .mul .. => some .valu
  | .mulhi .. => some .valu
  | .mad .. => some .valu
  | .madhi .. => some .valu
  | .min .. => some .valu
  | .max .. => some .valu
  | .and .. => some .valu
  | .or .. => some .valu
  | .xor .. => some .valu
  | .andn .. => some .valu
  | .not .. => some .valu
  | .shl .. => some .valu
  | .shr .. => some .valu
  | .sar .. => some .valu
  | .rot .. => some .valu
  | .clz .. => some .valu
  | .popc .. => some .valu
  | .brev .. => some .valu
  | .bfe .. => some .valu
  | .bfi .. => some .valu
  | .lea .. => some .valu
  | .addmin .. => some .valu
  | .addmax .. => some .valu
  | .div .. => some .valu
  | .rem .. => some .valu
  | .mov .. => some .valu
  | .movi .. => some .valu
  | .fadd .. => some .valu
  | .fsub .. => some .valu
  | .fmul .. => some .valu
  | .ffma .. => some .valu
  | .fmin .. => some .valu
  | .fmax .. => some .valu
  | .fabs .. => some .valu
  | .fneg .. => some .valu
  | .frcp .. => some .valu
  | .frsq .. => some .valu
  | .fsqrt .. => some .valu
  | .fdiv .. => some .valu
  | .fexp2 .. => some .valu
  | .flog2 .. => some .valu
  | .fsin .. => some .valu
  | .fcos .. => some .valu
  | .frint .. => some .valu
  | .ftrunc .. => some .valu
  | .ffloor .. => some .valu
  | .fceil .. => some .valu
  | .fclass .. => some .valu
  | .cvt .. => some .valu
  | .hadd2 .. => some .valu
  | .hmul2 .. => some .valu
  | .hfma2 .. => some .valu
  | .dot2 .. => some .valu
  | .dot4f .. => some .valu
  | .dot4i .. => some .valu
  | .dot8f .. => some .valu
  | .dot8i .. => some .valu
  | .pk .. => some .valu
  | .upk .. => some .valu
  | .scl .. => some .valu
  | .setpI .. => some .valu
  | .setpN .. => some .valu
  | .setpF .. => some .valu
  | .pand .. => some .valu
  | .por .. => some .valu
  | .pxor .. => some .valu
  | .pnot .. => some .valu
  | .sel .. => some .valu
  | .lsh .. => some .valu
  | .lxor .. => some .valu
  | .lbc .. => some .valu
  | .lrot .. => some .valu
  | .qswp .. => some .valu
  | .qbc .. => some .valu
  | .vote .. => some .valu
  | .lscan .. => some .valu
  | .ldS .. => some .mem
  | .stS .. => some .mem
  | .ldH .. => some .mem
  | .stH .. => some .mem
  | .ldK .. => some .mem
  | .stK .. => some .mem
  | .ldC .. => some .mem
  | .stC .. => some .mem
  | .ldu .. => some .uniform
  | .ldt .. => some .mem
  | .atomS .. => some .mem
  | .atomH .. => some .mem
  | .atomC .. => some .mem
  | .redS .. => some .mem
  | .redH .. => some .mem
  | .redC .. => some .mem
  | .cas .. => some .mem
  | .fence .. => some .mem
  | .barInit .. => some .mem
  | .barArrive .. => some .mem
  | .barWait .. => some .mem
  | .arrInit .. => some .mem
  | .arrAdd .. => some .mem
  | .arrWait .. => some .mem
  | .arrRead .. => some .mem
  | .ereg .. => some .mem
  | .esamp .. => some .mem
  | .esampW .. => some .mem
  | .esampB .. => some .mem
  | .eld .. => some .mem
  | .edecay .. => some .mem
  | .eflush .. => some .mem
  | .eclr .. => some .mem
  | .mma .. => some .matrix
  | .cvdeclSet .. => some .matrix
  | .cvdeclAdd .. => some .matrix
  | .xres .. => some .matrix
  | .xrel .. => some .matrix
  | .xld .. => some .matrix
  | .xsc .. => some .matrix
  | .accClr .. => some .matrix
  | .accMv .. => some .matrix
  | .accLd .. => some .matrix
  | .accSt .. => some .matrix
  | .mstat .. => some .matrix
  | .copyG2s .. => some .engine
  | .copyS2g .. => some .engine
  | .copyS2s .. => some .engine
  | .copyDie .. => some .engine
  | .copyNet .. => some .engine
  | .cpcLat .. => some .engine
  | .cpcGlz .. => some .engine
  | .cpcCut .. => some .engine
  | .cpcIcg .. => some .engine
  | .token .. => some .engine
  | .tskip .. => some .engine
  | .spawn .. => some .engine
  | .tget .. => some .engine
  | .tdone .. => some .engine
  | .claim .. => some .engine
  | .claimTry .. => some .engine
  | .surr .. => some .engine
  | _ => none

/-- The control instructions (R80). -/
def isControl : Instr → Bool
  | .br .. => true
  | .brx .. => true
  | .call .. => true
  | .callx .. => true
  | .ret .. => true
  | .exit .. => true
  | .meet .. => true
  | .loop .. => true
  | .loopImm .. => true
  | .loopv .. => true
  | .lpop .. => true
  | .trap .. => true
  | .rfe .. => true
  | .yield .. => true
  | .bkpt .. => true
  | _ => false

/-- The block-ending waits (R80). -/
def isBlockEnding : Instr → Bool
  | .barWait .. => true
  | .arrWait .. => true
  | _ => false

/-- The fixed latency of an instruction's result (R93); a uniform-class ALU instruction has 2. The predicate of a .try form has
none, and is visible at once. DESIGN CHOICE (log entry 61; unsafe). -/
def latency (i : Instr) : Option Nat :=
  if isUniform i then (match i with | .ldu .. => none | _ => some 2) else
  match i with
  | .mfs .. => some 4
  | .mts .. => some 4
  | .add .. => some 4
  | .addc .. => some 4
  | .sub .. => some 4
  | .subb .. => some 4
  | .neg .. => some 4
  | .abs .. => some 4
  | .mul .. => some 6
  | .mulhi .. => some 6
  | .mad .. => some 6
  | .madhi .. => some 6
  | .min .. => some 4
  | .max .. => some 4
  | .and .. => some 4
  | .or .. => some 4
  | .xor .. => some 4
  | .andn .. => some 4
  | .not .. => some 4
  | .shl .. => some 4
  | .shr .. => some 4
  | .sar .. => some 4
  | .rot .. => some 4
  | .clz .. => some 4
  | .popc .. => some 4
  | .brev .. => some 4
  | .bfe .. => some 4
  | .bfi .. => some 4
  | .lea .. => some 4
  | .addmin .. => some 4
  | .addmax .. => some 4
  | .mov .. => some 4
  | .movi .. => some 4
  | .fadd .. => some 4
  | .fsub .. => some 4
  | .fmul .. => some 4
  | .ffma .. => some 4
  | .fmin .. => some 4
  | .fmax .. => some 4
  | .fabs .. => some 4
  | .fneg .. => some 4
  | .frint .. => some 4
  | .ftrunc .. => some 4
  | .ffloor .. => some 4
  | .fceil .. => some 4
  | .fclass .. => some 4
  | .cvt .. => some 4
  | .hadd2 .. => some 4
  | .hmul2 .. => some 4
  | .hfma2 .. => some 4
  | .dot2 .. => some 6
  | .dot4f .. => some 6
  | .dot4i .. => some 6
  | .dot8f .. => some 6
  | .dot8i .. => some 6
  | .pk .. => some 4
  | .upk .. => some 4
  | .scl .. => some 4
  | .setpI .. => some 4
  | .setpN .. => some 4
  | .setpF .. => some 4
  | .pand .. => some 4
  | .por .. => some 4
  | .pxor .. => some 4
  | .pnot .. => some 4
  | .sel .. => some 4
  | .lsh .. => some 6
  | .lxor .. => some 6
  | .lbc .. => some 6
  | .lrot .. => some 6
  | .qswp .. => some 6
  | .qbc .. => some 6
  | .vote .. => some 6
  | .lscan .. => some 6
  | _ => none

/-- The scoreboard slot a variable-latency instruction names (R94). -/
def slotOf : Instr → Option (Fin 16)
  | .div _ _ _ _ _ sb => some sb
  | .rem _ _ _ _ _ sb => some sb
  | .frcp _ _ _ _ sb => some sb
  | .frsq _ _ _ _ sb => some sb
  | .fsqrt _ _ _ _ sb => some sb
  | .fdiv _ _ _ _ _ sb => some sb
  | .fexp2 _ _ _ sb => some sb
  | .flog2 _ _ _ sb => some sb
  | .fsin _ _ _ sb => some sb
  | .fcos _ _ _ sb => some sb
  | .ldS _ _ _ _ _ _ _ sb => some sb
  | .ldH _ _ _ _ _ _ _ sb => some sb
  | .ldK _ _ _ _ _ _ sb => some sb
  | .ldC _ _ _ _ _ _ _ sb => some sb
  | .ldu _ _ _ _ _ _ sb => some sb
  | .ldt _ _ _ _ _ sb => some sb
  | .atomS _ _ _ _ _ _ _ sb => some sb
  | .atomH _ _ _ _ _ _ _ sb => some sb
  | .atomC _ _ _ _ _ _ _ sb => some sb
  | .cas _ _ _ _ _ _ _ sb => some sb
  | .barArrive _ _ _ _ sb => some sb
  | .arrRead _ _ _ _ sb => some sb
  | .eld _ _ _ _ _ sb => some sb
  | .xld _ _ _ _ _ sb => some sb
  | .accMv _ _ _ _ sb => some sb
  | .accLd _ _ _ _ sb => some sb
  | .accSt _ _ _ _ sb => some sb
  | .mstat _ _ sb => some sb
  | .tget _ _ _ sb => some sb
  | _ => none

/-- The common fields of an Igfin instruction (R84). -/
def hdrOf : Instr → Option Hdr
  | .br h .. => some h
  | .brx h .. => some h
  | .call h .. => some h
  | .callx h .. => some h
  | .ret h .. => some h
  | .exit h .. => some h
  | .meet h .. => some h
  | .loop h .. => some h
  | .loopImm h .. => some h
  | .loopv h .. => some h
  | .lpop h .. => some h
  | .trap h .. => some h
  | .rfe h .. => some h
  | .yield h .. => some h
  | .bkpt h .. => some h
  | .nop h .. => some h
  | .mfs h .. => some h
  | .mts h .. => some h
  | .add h .. => some h
  | .addc h .. => some h
  | .sub h .. => some h
  | .subb h .. => some h
  | .neg h .. => some h
  | .abs h .. => some h
  | .mul h .. => some h
  | .mulhi h .. => some h
  | .mad h .. => some h
  | .madhi h .. => some h
  | .min h .. => some h
  | .max h .. => some h
  | .and h .. => some h
  | .or h .. => some h
  | .xor h .. => some h
  | .andn h .. => some h
  | .not h .. => some h
  | .shl h .. => some h
  | .shr h .. => some h
  | .sar h .. => some h
  | .rot h .. => some h
  | .clz h .. => some h
  | .popc h .. => some h
  | .brev h .. => some h
  | .bfe h .. => some h
  | .bfi h .. => some h
  | .lea h .. => some h
  | .addmin h .. => some h
  | .addmax h .. => some h
  | .div h .. => some h
  | .rem h .. => some h
  | .mov h .. => some h
  | .movi h .. => some h
  | .fadd h .. => some h
  | .fsub h .. => some h
  | .fmul h .. => some h
  | .ffma h .. => some h
  | .fmin h .. => some h
  | .fmax h .. => some h
  | .fabs h .. => some h
  | .fneg h .. => some h
  | .frcp h .. => some h
  | .frsq h .. => some h
  | .fsqrt h .. => some h
  | .fdiv h .. => some h
  | .fexp2 h .. => some h
  | .flog2 h .. => some h
  | .fsin h .. => some h
  | .fcos h .. => some h
  | .frint h .. => some h
  | .ftrunc h .. => some h
  | .ffloor h .. => some h
  | .fceil h .. => some h
  | .fclass h .. => some h
  | .cvt h .. => some h
  | .hadd2 h .. => some h
  | .hmul2 h .. => some h
  | .hfma2 h .. => some h
  | .dot2 h .. => some h
  | .dot4f h .. => some h
  | .dot4i h .. => some h
  | .dot8f h .. => some h
  | .dot8i h .. => some h
  | .pk h .. => some h
  | .upk h .. => some h
  | .scl h .. => some h
  | .setpI h .. => some h
  | .setpN h .. => some h
  | .setpF h .. => some h
  | .pand h .. => some h
  | .por h .. => some h
  | .pxor h .. => some h
  | .pnot h .. => some h
  | .sel h .. => some h
  | .lsh h .. => some h
  | .lxor h .. => some h
  | .lbc h .. => some h
  | .lrot h .. => some h
  | .qswp h .. => some h
  | .qbc h .. => some h
  | .vote h .. => some h
  | .lscan h .. => some h
  | .ldS h .. => some h
  | .stS h .. => some h
  | .ldH h .. => some h
  | .stH h .. => some h
  | .ldK h .. => some h
  | .stK h .. => some h
  | .ldC h .. => some h
  | .stC h .. => some h
  | .ldu h .. => some h
  | .ldt h .. => some h
  | .atomS h .. => some h
  | .atomH h .. => some h
  | .atomC h .. => some h
  | .redS h .. => some h
  | .redH h .. => some h
  | .redC h .. => some h
  | .cas h .. => some h
  | .fence h .. => some h
  | .barInit h .. => some h
  | .barArrive h .. => some h
  | .barWait h .. => some h
  | .arrInit h .. => some h
  | .arrAdd h .. => some h
  | .arrWait h .. => some h
  | .arrRead h .. => some h
  | .ereg h .. => some h
  | .esamp h .. => some h
  | .esampW h .. => some h
  | .esampB h .. => some h
  | .eld h .. => some h
  | .edecay h .. => some h
  | .eflush h .. => some h
  | .eclr h .. => some h
  | .mma h .. => some h
  | .cvdeclSet h .. => some h
  | .cvdeclAdd h .. => some h
  | .xres h .. => some h
  | .xrel h .. => some h
  | .xld h .. => some h
  | .xsc h .. => some h
  | .accClr h .. => some h
  | .accMv h .. => some h
  | .accLd h .. => some h
  | .accSt h .. => some h
  | .mstat h .. => some h
  | .copyG2s h .. => some h
  | .copyS2g h .. => some h
  | .copyS2s h .. => some h
  | .copyDie h .. => some h
  | .copyNet h .. => some h
  | .cpcLat h .. => some h
  | .cpcGlz h .. => some h
  | .cpcCut h .. => some h
  | .cpcIcg h .. => some h
  | .token h .. => some h
  | .tskip h .. => some h
  | .spawn h .. => some h
  | .tget h .. => some h
  | .tdone h .. => some h
  | .claim h .. => some h
  | .claimTry h .. => some h
  | .surr h .. => some h
  | _ => none

/-- The instructions that issue one pass for the group whatever it streams (R91): the region commands of
R107 and the per-group instructions of R216; a uniform-class instruction does too. -/
def isPerGroup : Instr → Bool
  | .ereg .. => true
  | .edecay .. => true
  | .eflush .. => true
  | .eclr .. => true
  | .xres .. => true
  | .xrel .. => true
  | .xsc .. => true
  | .accClr .. => true
  | .accLd .. => true
  | .accSt .. => true
  | .mstat .. => true
  | .copyG2s .. => true
  | .copyS2g .. => true
  | .copyS2s .. => true
  | .copyDie .. => true
  | .copyNet .. => true
  | .token .. => true
  | .tget .. => true
  | .claim .. => true
  | .claimTry .. => true
  | .surr .. => true
  | _ => false

/-- The instructions whose passes may be parted by a halt (R370): of those that issue more than one pass, all but the ones
whose threads interact, a spawn among them, whose records one tail update places (R242), and those whose passes read no
V register. DEDUCED (log entry 56; unsafe). -/
def splits : Instr → Bool
  | .lsh .. => false
  | .lxor .. => false
  | .lbc .. => false
  | .lrot .. => false
  | .qswp .. => false
  | .qbc .. => false
  | .vote .. => false
  | .lscan .. => false
  | .ldt .. => false
  | .atomS .. => false
  | .atomH .. => false
  | .atomC .. => false
  | .redS .. => false
  | .redH .. => false
  | .redC .. => false
  | .cas .. => false
  | .mma .. => false
  | .cvdeclSet .. => false
  | .cvdeclAdd .. => false
  | .exit .. => false
  | .spawn .. => false
  | i => (hdrOf i).isSome && !isUniform i && !isPerGroup i

/-- Predicates an instruction writes. -/
def predWrites : Instr → List (Fin 8)
  | .setpI _ _ pd _ _ _ => [pd]
  | .setpN _ _ pd _ _ _ => [pd]
  | .setpF _ _ pd _ _ _ => [pd]
  | .pand _ pd _ _ => [pd]
  | .por _ pd _ _ => [pd]
  | .pxor _ pd _ _ => [pd]
  | .pnot _ pd _ => [pd]
  | .vote _ (.any pd) _ => [pd]
  | .vote _ (.all pd) _ => [pd]
  | .eld _ _ _ _ p _ => [p]
  | .copyG2s _ _ _ _ (some p) _ _ => [p]
  | .copyS2g _ _ _ _ (some p) _ _ => [p]
  | .copyS2s _ _ _ _ (some p) _ _ => [p]
  | .copyDie _ _ _ _ (some p) _ _ => [p]
  | .copyNet _ _ _ _ (some p) _ _ => [p]
  | .cpcLat _ (some p) _ => [p]
  | .cpcGlz _ (some p) _ => [p]
  | .cpcCut _ (some p) _ => [p]
  | .cpcIcg _ (some p) _ => [p]
  | .spawn _ (some p) _ _ => [p]
  | .claimTry _ pd _ => [pd]
  | _ => []

/-- Predicates an instruction reads beside its guard. -/
def predReads : Instr → List (Fin 8)
  | .setpI _ _ _ _ _ pc => [pc.p]
  | .setpN _ _ _ _ _ pc => [pc.p]
  | .setpF _ _ _ _ _ pc => [pc.p]
  | .pand _ _ pa pb => [pa.p, pb.p]
  | .por _ _ pa pb => [pa.p, pb.p]
  | .pxor _ _ pa pb => [pa.p, pb.p]
  | .pnot _ _ pa => [pa.p]
  | .sel _ _ _ _ _ pc => [pc.p]
  | .vote _ _ pa => [pa.p]
  | .cvdeclSet _ _ pa => [pa.p]
  | .cvdeclAdd _ _ pa => [pa.p]
  | _ => []

/-- Why an encoding is not an instruction (R89). -/
inductive Reject where
  /-- A MAJOR the opcode map leaves unassigned. -/
  | unassignedMajor
  /-- An FN, SIZE, ORDER, FMT, MOD, type or system-register code the map does not list. -/
  | badCode
  /-- A field that must be zero is not. -/
  | nonzeroField
  /-- An operand field the instruction does not have is not zero: it holds this code. -/
  | unusedOperand (code : BitVec 11)
  /-- A reserved operand code, 1824 to 2047 (R47). -/
  | reservedCode (code : BitVec 11)
  /-- A constant code, or a register of a class the field does not admit. -/
  | badOperand (code : BitVec 11)
  /-- A pair or run that breaks R88. -/
  | badRun (code : BitVec 11)
  /-- The guard encoding breaks R85. -/
  | badGuard
  /-- A thread-varying operand in a uniform-class instruction (R32). -/
  | varying (code : BitVec 11)
  /-- The instruction's own limits: a rounding code, element index, count or size that its entry forbids. -/
  | badLimit
  /-- A class or position that breaks R79 or R80. -/
  | badPlace
  /-- A bytecode word that is none of R347's rows. -/
  | badBytecode
  deriving DecidableEq, Repr

/-- The operand code an ILLOP records: the offending one, an unused operand field's content among them, or 0x7FF (R90).
DEDUCED (log entry 10; unsafe). -/
def Reject.opnd : Reject → BitVec 11
  | .unusedOperand c => c
  | .reservedCode c => c
  | .badOperand c => c
  | .badRun c => c
  | .varying c => c
  | _ => 0x7FF

/-- The 11-bit code of an operand (R47). -/
def Opnd.code : Opnd → BitVec 11
  | .v n => BitVec.ofNat 11 n.val
  | .k n => BitVec.ofNat 11 (1536 + n.val)
  | .t n => BitVec.ofNat 11 (1792 + n.val)
  | .c n => BitVec.ofNat 11 (1808 + n.val)

/-- The operand an 11-bit code names; none for the reserved codes (R47). -/
def Opnd.ofCode (c : BitVec 11) : Option Opnd :=
  if h : c.toNat < 1536 then some (.v ⟨c.toNat, h⟩)
  else if h : c.toNat - 1536 < 256 then some (.k ⟨c.toNat - 1536, h⟩)
  else if h : c.toNat - 1792 < 16 then some (.t ⟨c.toNat - 1792, h⟩)
  else if h : c.toNat - 1808 < 16 then some (.c ⟨c.toNat - 1808, h⟩)
  else none

/-- Codes 1808 to 1814 and 1820 to 1823 (R107, R216), by their number from 1808. -/
def constUni (n : Fin 16) : Bool := n.val ≤ 6 || 12 ≤ n.val
/-- The constant codes that do not vary by thread (R32): those and 1816. -/
def constUniform (n : Fin 16) : Bool := constUni n || n.val == 8

/-- Whether an operand field of the class admits the operand. -/
def OpCls.admits : OpCls → Opnd → Bool
  | .any, _ => true
  | .dVT, .v _ => true
  | .dVT, .t _ => true
  | .dVTK, .v _ => true
  | .dVTK, .t _ => true
  | .dVTK, .k _ => true
  | .dV, .v _ => true
  | .dK, .k _ => true
  | .vtk, .v _ => true
  | .vtk, .t _ => true
  | .vtk, .k _ => true
  | .uni, .k _ => true
  | .uni, .c n => constUni n
  | .unif, .k _ => true
  | .unif, .c n => constUniform n
  | .kOnly, .k _ => true
  | .kZero, .k _ => true
  | .kZero, .c n => n.val == 0
  | .loopA, .k _ => true
  | .loopA, .c n => n.val ≤ 6
  | _, _ => false

/-- Number of a register in its class, and how many registers the class has; none for a constant. -/
def Opnd.numOf : Opnd → Option (Nat × Nat)
  | .v n => some (n.val, 1536)
  | .k n => some (n.val, 256)
  | .t n => some (n.val, 16)
  | .c _ => none

/-- R88 for one operand: alignment, end of class, and constants as pairs. -/
def runOk (u : OpUse) : Bool :=
  match u.o.numOf with
  | some (r, top) => r % u.al == 0 && r + u.n ≤ top
  | none => u.n ≤ 1 || (u.n == 2 && u.o == .c 0)

/-- The operand checks of R89 for one operand. -/
def checkUse (u : OpUse) : Option Reject :=
  if !u.cls.admits u.o then some (.badOperand u.o.code)
  else if !runOk u then some (.badRun u.o.code)
  else none

/-- R85 and R32 for an instruction of the uniform class. -/
def checkUniform (i : Instr) : Option Reject :=
  if isUniform i then
    match hdrOf i with
    | some h =>
      if h.neg || h.p != 0 then some .badGuard
      else (uses i).findSome? fun u => if OpCls.unif.admits u.o then none else some (.varying u.o.code)
    | none => none
  else none

/-- R85: a negated P0 as guard. -/
def checkGuard (i : Instr) : Option Reject :=
  match hdrOf i with
  | some h => if h.neg && h.p == 0 then some .badGuard else none
  | none => none

/-- Elements of the type in 32 bits. -/
def ElTy.perWord (t : ElTy) : Nat := if t.bits ≥ 32 then 1 else 32 / t.bits

/-- The limits an instruction's own entry sets on its fields (R100 to R105, R122, R136, R182, R245). -/
def checkLimits : Instr → Bool
  | .loopImm _ n _ => n != 0
  | .mts _ sr _ => match sr with
    | .mode => true | .nflags => true | .chksb => true | .trappcLo => true | .trappcHi => true
    | .trapinfoLo => true | .trapinfoHi => true | .role => true | .accstat => true | _ => false
  | .cvt _ _ _ dst src rm el =>
    dst != src && el.val < src.perWord &&
      (rm == .rne || !((dst.isInt && src.isInt) || dst.isNarrow || src.isNarrow))
  | .pk _ ty _ _ _ _ => ty.bits ≤ 16
  | .upk _ ty _ _ _ => ty.bits ≤ 16
  | .setpI _ cc _ _ _ _ => cc != .num && cc != .nan
  | .setpN _ cc _ _ _ _ => cc != .num && cc != .nan
  | .ldS _ sz sx .. => !sx || sz.bytes ≤ 2
  | .ldH _ sz sx .. => !sx || sz.bytes ≤ 2
  | .ldK _ sz sx .. => !sx || sz.bytes ≤ 2
  | .ldC _ sz sx .. => !sx || sz.bytes ≤ 2
  | .ldu _ sz .. => 4 ≤ sz.bytes
  | .atomS _ op wide .. => !wide || (op != .fadd && op != .fmin && op != .fmax)
  | .atomH _ op wide .. => !wide || (op != .fadd && op != .fmin && op != .fmax)
  | .atomC _ op wide .. => !wide || (op != .fadd && op != .fmin && op != .fmax)
  | .redS _ op wide .. => !wide || (op != .fadd && op != .fmin && op != .fmax)
  | .redH _ op wide .. => !wide || (op != .fadd && op != .fmin && op != .fmax)
  | .redC _ op wide .. => !wide || (op != .fadd && op != .fmin && op != .fmax)
  | .claim _ n => n.val != 0
  | .claimTry _ _ n => n.val != 0
  | .surr _ n => n.val != 0
  | .bMovh _ _ => true
  | .bSkip _ _ _ i => i != 0
  | .bLoop n => n != 0
  | _ => true

/-- The first check of R89 that an instruction's operands fail, which gives TRAPINFO.OPND (R90).
DESIGN CHOICE (log entry 44; unsafe). -/
def firstReject (i : Instr) : Option Reject :=
  (checkGuard i).orElse fun _ => (checkUniform i).orElse fun _ =>
    ((uses i).findSome? checkUse).orElse fun _ =>
      if checkLimits i then none else some .badLimit

/-- Every operand, guard and limit check of R89 passes. -/
def wellFormed (i : Instr) : Bool := (firstReject i).isNone

end Sys2Proof
end

