-- ==== Sys2Proof/WellFormed.lean ====
section
/-!
DEFINITION. Well-formed instructions: those whose operands, guard and limits pass every check of R89.
-/

namespace Sys2Proof

/-- The instruction passes every operand, guard and limit check of R89 (`wellFormed`, Machine/Static.lean). -/
abbrev WellFormed (i : Instr) : Prop := wellFormed i = true

end Sys2Proof
end

