-- ==== Sys2Proof/Decode.lean ====
section
/-!
DEFINITION. The decoder and the encoder, written from the body formats of R86 and the opcode map R97 to
R109 (Igfin words) and from R347 (Proofer bytecode words). Decoding is total: it answers an instruction
or the reason (R89) why the word is none.
-/

namespace Sys2Proof

/-- The fields of format F3 (R86). -/
structure BodyF3 where
  fn : BitVec 4 := 0
  c : BitVec 11 := 0
  b : BitVec 11 := 0
  a : BitVec 11 := 0
  d : BitVec 11 := 0
  deriving DecidableEq, Repr
/-- The fields of format FI (R86). -/
structure BodyFI where
  imm : BitVec 16 := 0
  mod : BitVec 4 := 0
  fn : BitVec 6 := 0
  a : BitVec 11 := 0
  d : BitVec 11 := 0
  deriving DecidableEq, Repr
/-- The fields of formats FL and FB (R86): the 32-bit field is IMM32 or OFF32. -/
structure BodyFL where
  imm : BitVec 32 := 0
  fn : BitVec 5 := 0
  d : BitVec 11 := 0
  deriving DecidableEq, Repr
/-- The fields of format FM (R86). -/
structure BodyFM where
  off : BitVec 12 := 0
  sb : BitVec 4 := 0
  order : BitVec 3 := 0
  size : BitVec 3 := 0
  fn : BitVec 4 := 0
  a : BitVec 11 := 0
  d : BitVec 11 := 0
  deriving DecidableEq, Repr
/-- The fields of format FX (R86). -/
structure BodyFX where
  mod : BitVec 4 := 0
  fn : BitVec 4 := 0
  fmt : BitVec 3 := 0
  reuse : BitVec 1 := 0
  cv : BitVec 3 := 0
  b : BitVec 11 := 0
  a : BitVec 11 := 0
  d : BitVec 11 := 0
  deriving DecidableEq, Repr

/-- Bits [63:16] of an F3 instruction. -/
def BodyF3.pack (f : BodyF3) : BitVec 48 := f.fn ++ f.c ++ f.b ++ f.a ++ f.d
/-- Bits [63:16] of an FI instruction. -/
def BodyFI.pack (f : BodyFI) : BitVec 48 := f.imm ++ f.mod ++ f.fn ++ f.a ++ f.d
/-- Bits [63:16] of an FL or FB instruction. -/
def BodyFL.pack (f : BodyFL) : BitVec 48 := f.imm ++ f.fn ++ f.d
/-- Bits [63:16] of an FM instruction. -/
def BodyFM.pack (f : BodyFM) : BitVec 48 := f.off ++ f.sb ++ f.order ++ f.size ++ f.fn ++ f.a ++ f.d
/-- Bits [63:16] of an FX instruction. -/
def BodyFX.pack (f : BodyFX) : BitVec 48 := f.mod ++ f.fn ++ f.fmt ++ f.reuse ++ f.cv ++ f.b ++ f.a ++ f.d

/-- The F3 fields of bits [63:16]. -/
def BodyF3.unpack (w : BitVec 48) : BodyF3 :=
  ⟨w.extractLsb' 44 4, w.extractLsb' 33 11, w.extractLsb' 22 11, w.extractLsb' 11 11, w.extractLsb' 0 11⟩
/-- The FI fields of bits [63:16]. -/
def BodyFI.unpack (w : BitVec 48) : BodyFI :=
  ⟨w.extractLsb' 32 16, w.extractLsb' 28 4, w.extractLsb' 22 6, w.extractLsb' 11 11, w.extractLsb' 0 11⟩
/-- The FL or FB fields of bits [63:16]. -/
def BodyFL.unpack (w : BitVec 48) : BodyFL :=
  ⟨w.extractLsb' 16 32, w.extractLsb' 11 5, w.extractLsb' 0 11⟩
/-- The FM fields of bits [63:16]. -/
def BodyFM.unpack (w : BitVec 48) : BodyFM :=
  ⟨w.extractLsb' 36 12, w.extractLsb' 32 4, w.extractLsb' 29 3, w.extractLsb' 26 3, w.extractLsb' 22 4,
    w.extractLsb' 11 11, w.extractLsb' 0 11⟩
/-- The FX fields of bits [63:16]. -/
def BodyFX.unpack (w : BitVec 48) : BodyFX :=
  ⟨w.extractLsb' 44 4, w.extractLsb' 40 4, w.extractLsb' 37 3, w.extractLsb' 36 1, w.extractLsb' 33 3,
    w.extractLsb' 22 11, w.extractLsb' 11 11, w.extractLsb' 0 11⟩

/-- The fields every instruction shares (R84), beside its body. -/
structure RawInstr where
  body : BitVec 48
  major : BitVec 8
  neg : BitVec 1
  p : BitVec 3
  stall : BitVec 4
  deriving DecidableEq, Repr

/-- The 64-bit word of an instruction. -/
def RawInstr.pack (r : RawInstr) : DWord := r.body ++ r.major ++ r.neg ++ r.p ++ r.stall
/-- The shared fields of a 64-bit word. -/
def RawInstr.unpack (w : DWord) : RawInstr :=
  ⟨w.extractLsb' 16 48, w.extractLsb' 8 8, w.extractLsb' 7 1, w.extractLsb' 4 3, w.extractLsb' 0 4⟩

/-- The word of an instruction with common fields `h`, MAJOR and body. -/
def mkWord (h : Hdr) (major : BitVec 8) (body : BitVec 48) : DWord :=
  RawInstr.pack ⟨body, major, BitVec.ofBool h.neg, BitVec.ofFin h.p, BitVec.ofFin h.stall⟩

/-- The common fields of an unpacked word. -/
def RawInstr.hdr (r : RawInstr) : Hdr := ⟨r.neg == 1, r.p.toFin, r.stall.toFin⟩

/-! ### Field codes -/

/-- FN of the forms of add and sub (R98). -/
def sumFn : SumForm → BitVec 4 | .i32 => 0 | .i64 => 1 | .i32sat => 2 | .n32sat => 3
/-- The form an FN code names. -/
def sumOf (b : BitVec 4) : Option SumForm :=
  match b.toNat with | 0 => some .i32 | 1 => some .i64 | 2 => some .i32sat | 3 => some .n32sat | _ => none
/-- FN of the forms of neg and abs (R98). -/
def negFn : NegForm → BitVec 4 | .i32 => 0 | .i64 => 1 | .i32sat => 2
/-- The form an FN code names. -/
def negOf (b : BitVec 4) : Option NegForm :=
  match b.toNat with | 0 => some .i32 | 1 => some .i64 | 2 => some .i32sat | _ => none
/-- A form chosen by FN 0 or 1. -/
def boolFn : Bool → BitVec 4 | false => 0 | true => 1
/-- The choice FN 0 or 1 names. -/
def boolOf (b : BitVec 4) : Option Bool := match b.toNat with | 0 => some false | 1 => some true | _ => none
/-- FN of the forms of mul (R98). -/
def mulFn : MulForm → BitVec 4 | .i32 => 0 | .i64 => 1 | .i32sat => 2 | .n32sat => 3 | .wideI => 4 | .wideN => 5
/-- The form an FN code names. -/
def mulOf (b : BitVec 4) : Option MulForm :=
  match b.toNat with
  | 0 => some .i32 | 1 => some .i64 | 2 => some .i32sat | 3 => some .n32sat | 4 => some .wideI | 5 => some .wideN
  | _ => none
/-- FN of the forms of mad (R98). -/
def madFn : MadForm → BitVec 4 | .i32 => 0 | .wideI => 1 | .wideN => 2
/-- The form an FN code names. -/
def madOf (b : BitVec 4) : Option MadForm :=
  match b.toNat with | 0 => some .i32 | 1 => some .wideI | 2 => some .wideN | _ => none
/-- FN of the forms of min and max (R98). -/
def cmpFn : CmpForm → BitVec 4 | .i32 => 0 | .n32 => 1 | .i64 => 2 | .n64 => 3
/-- The form an FN code names. -/
def cmpOf (b : BitVec 4) : Option CmpForm :=
  match b.toNat with | 0 => some .i32 | 1 => some .n32 | 2 => some .i64 | 3 => some .n64 | _ => none
/-- FN 0 to 7 as a number: the shift of lea (R98) or the predicate of eld (R107). -/
def fin8Fn (n : Fin 8) : BitVec 4 := BitVec.ofNat 4 n.val
/-- The number FN names. -/
def fin8Of (b : BitVec 4) : Option (Fin 8) := if h : b.toNat < 8 then some ⟨b.toNat, h⟩ else none
/-- FN[1:0] of ldt (R104). -/
def fin4Fn (n : Fin 4) : BitVec 4 := BitVec.ofNat 4 n.val
/-- The width code FN names. -/
def fin4Of (b : BitVec 4) : Option (Fin 4) := if h : b.toNat < 4 then some ⟨b.toNat, h⟩ else none
/-- The rounding code (R62). -/
def Round.bits : Round → BitVec 2 | .rne => 0 | .rz => 1 | .rdn => 2 | .rup => 3
/-- The mode a rounding code names (R62). -/
def Round.ofBits (b : BitVec 2) : Round :=
  match b.toNat with | 0 => .rne | 1 => .rz | 2 => .rdn | _ => .rup
/-- FN of a rounded operation: rounding code in [1:0], [3:2] zero (R99). -/
def rmFn (m : Round) : BitVec 4 := (0 : BitVec 2) ++ m.bits
/-- The rounding mode of an FN whose [3:2] is zero. -/
def rmOf (b : BitVec 4) : Option Round :=
  if b.extractLsb' 2 2 = 0 then some (Round.ofBits (b.extractLsb' 0 2)) else none
/-- FN of hadd2, hmul2 and hfma2 (R99): [3:2] 0 .f16, 1 .bf16. -/
def halfFn (f : HalfFmt) (m : Round) : BitVec 4 := (match f with | .f16 => (0 : BitVec 2) | .bf16 => 1) ++ m.bits
/-- The format and mode such an FN names. -/
def halfOf (b : BitVec 4) : Option (HalfFmt × Round) :=
  match (b.extractLsb' 2 2).toNat with
  | 0 => some (.f16, Round.ofBits (b.extractLsb' 0 2)) | 1 => some (.bf16, Round.ofBits (b.extractLsb' 0 2)) | _ => none
/-- FN of dot2 (R101): [3:2] 0 .bf16, 1 .f16. -/
def dot2Fn (f : HalfFmt) (m : Round) : BitVec 4 := (match f with | .bf16 => (0 : BitVec 2) | .f16 => 1) ++ m.bits
/-- The format and mode such an FN names. -/
def dot2Of (b : BitVec 4) : Option (HalfFmt × Round) :=
  match (b.extractLsb' 2 2).toNat with
  | 0 => some (.bf16, Round.ofBits (b.extractLsb' 0 2)) | 1 => some (.f16, Round.ofBits (b.extractLsb' 0 2)) | _ => none
/-- FN of the float dot4 (R101): [3:2] 0 .fn8, 1 .fw8. -/
def dot4Fn (fw8 : Bool) (m : Round) : BitVec 4 := (if fw8 then (1 : BitVec 2) else 0) ++ m.bits
/-- The format and mode such an FN names. -/
def dot4Of (b : BitVec 4) : Option (Bool × Round) :=
  match (b.extractLsb' 2 2).toNat with
  | 0 => some (false, Round.ofBits (b.extractLsb' 0 2)) | 1 => some (true, Round.ofBits (b.extractLsb' 0 2)) | _ => none
/-- FN of scl (R101): [3] zero, [2] scale half, [1:0] rounding. -/
def sclFn (hi : Bool) (m : Round) : BitVec 4 := (if hi then (1 : BitVec 2) else 0) ++ m.bits
/-- The scale half and mode such an FN names. -/
def sclOf (b : BitVec 4) : Option (Bool × Round) :=
  match (b.extractLsb' 2 2).toNat with
  | 0 => some (false, Round.ofBits (b.extractLsb' 0 2)) | 1 => some (true, Round.ofBits (b.extractLsb' 0 2)) | _ => none
/-- The type code (R100). -/
def tyFn : ElTy → BitVec 4
  | .i8 => 0 | .i16 => 1 | .i32 => 2 | .i64 => 3 | .n8 => 4 | .n16 => 5 | .n32 => 6 | .n64 => 7
  | .f32 => 8 | .f16 => 9 | .bf16 => 10 | .fn8 => 11 | .fw8 => 12 | .fn4 => 13 | .i4 => 14 | .n4 => 15
/-- The element type a code names (R100). -/
def tyOf (b : BitVec 4) : Option ElTy :=
  match b.toNat with
  | 0 => some .i8 | 1 => some .i16 | 2 => some .i32 | 3 => some .i64 | 4 => some .n8 | 5 => some .n16
  | 6 => some .n32 | 7 => some .n64 | 8 => some .f32 | 9 => some .f16 | 10 => some .bf16 | 11 => some .fn8
  | 12 => some .fw8 | 13 => some .fn4 | 14 => some .i4 | 15 => some .n4 | _ => none
/-- IMM16 of cvt (R100). -/
def cvtImm (dst src : ElTy) (m : Round) (el : Fin 8) : BitVec 16 :=
  (0 : BitVec 1) ++ BitVec.ofFin (w := 3) el ++ m.bits ++ (0 : BitVec 1) ++ tyFn src ++ (0 : BitVec 1) ++ tyFn dst
/-- The fields of cvt's IMM16; type codes 16 to 31 and bit 15 are refused (R100). -/
def cvtOf (b : BitVec 16) : Option (ElTy × ElTy × Round × Fin 8) :=
  if b.extractLsb' 15 1 = 0 ∧ b.extractLsb' 9 1 = 0 ∧ b.extractLsb' 4 1 = 0 then
    match tyOf (b.extractLsb' 0 4), tyOf (b.extractLsb' 5 4) with
    | some d, some s => some (d, s, Round.ofBits (b.extractLsb' 10 2), (b.extractLsb' 12 3).toFin)
    | _, _ => none
  else none
/-- FN of setp (R102). -/
def ccFn : Cc → BitVec 4 | .eq => 0 | .ne => 1 | .lt => 2 | .le => 3 | .gt => 4 | .ge => 5 | .num => 6 | .nan => 7
/-- The condition FN names. -/
def ccOf (b : BitVec 4) : Option Cc :=
  match b.toNat with
  | 0 => some .eq | 1 => some .ne | 2 => some .lt | 3 => some .le | 4 => some .gt | 5 => some .ge
  | 6 => some .num | 7 => some .nan | _ => none
/-- FN of qswp (R102). -/
def dirFn : QDir → BitVec 4 | .h => 0 | .v => 1 | .d => 2
/-- The direction FN names. -/
def dirOf (b : BitVec 4) : Option QDir := match b.toNat with | 0 => some .h | 1 => some .v | 2 => some .d | _ => none
/-- The operation code of lscan (R173). -/
def ScanOp.bits : ScanOp → BitVec 3
  | .add => 0 | .minI => 1 | .maxI => 2 | .minN => 3 | .maxN => 4 | .and => 5 | .or => 6 | .xor => 7
/-- The operation a code names (R173). -/
def ScanOp.ofBits (b : BitVec 3) : ScanOp :=
  match b.toNat with
  | 0 => .add | 1 => .minI | 2 => .maxI | 3 => .minN | 4 => .maxN | 5 => .and | 6 => .or | _ => .xor
/-- FN of lscan (R102): [3] .excl. -/
def scanFn (o : ScanOp) (excl : Bool) : BitVec 4 := BitVec.ofBool excl ++ o.bits
/-- The operation and form FN names. -/
def scanOf (b : BitVec 4) : Option (ScanOp × Bool) :=
  some (ScanOp.ofBits (b.extractLsb' 0 3), b.extractLsb' 3 1 == 1)
/-- SIZE of a load or store (R103). -/
def sizeBits : MSize → BitVec 3 | .b8 => 0 | .b16 => 1 | .b32 => 2 | .b64 => 3 | .b128 => 4
/-- The access size SIZE names; 5 to 7 are refused. -/
def sizeOf (b : BitVec 3) : Option MSize :=
  match b.toNat with | 0 => some .b8 | 1 => some .b16 | 2 => some .b32 | 3 => some .b64 | 4 => some .b128 | _ => none
/-- ORDER of a load (R103). -/
def acqBits : Option Scope → BitVec 3 | none => 0 | some .team => 1 | some .clu => 3 | some .dev => 5
/-- The acquire scope ORDER names; a release code is refused. -/
def acqOf (b : BitVec 3) : Option (Option Scope) :=
  match b.toNat with
  | 0 => some none | 1 => some (some .team) | 3 => some (some .clu) | 5 => some (some .dev) | _ => none
/-- ORDER of a store (R103). -/
def relBits : Option Scope → BitVec 3 | none => 0 | some .team => 2 | some .clu => 4 | some .dev => 6
/-- The release scope ORDER names; an acquire code is refused. -/
def relOf (b : BitVec 3) : Option (Option Scope) :=
  match b.toNat with
  | 0 => some none | 2 => some (some .team) | 4 => some (some .clu) | 6 => some (some .dev) | _ => none
/-- FN of an atomic (R105). -/
def atFn : AtOp → BitVec 4
  | .add => 0 | .minI => 1 | .maxI => 2 | .minN => 3 | .maxN => 4 | .and => 5 | .or => 6 | .xor => 7
  | .xchg => 8 | .fadd => 9 | .fmin => 10 | .fmax => 11
/-- The operation FN names; 12 to 15 are refused. -/
def atOf (b : BitVec 4) : Option AtOp :=
  match b.toNat with
  | 0 => some .add | 1 => some .minI | 2 => some .maxI | 3 => some .minN | 4 => some .maxN | 5 => some .and
  | 6 => some .or | 7 => some .xor | 8 => some .xchg | 9 => some .fadd | 10 => some .fmin | 11 => some .fmax
  | _ => none
/-- SIZE of an atomic (R105): 2 or 3, plus 4 for .ord. -/
def atSize (wide ordf : Bool) : BitVec 3 := BitVec.ofBool ordf ++ (1 : BitVec 1) ++ BitVec.ofBool wide
/-- The width and .ord flag SIZE names. -/
def atSizeOf (b : BitVec 3) : Option (Bool × Bool) :=
  if b.extractLsb' 1 1 = 1 then some (b.extractLsb' 0 1 == 1, b.extractLsb' 2 1 == 1) else none
/-- FN of atom.cas (R105). -/
def spFn : ASpace → BitVec 4 | .s => 0 | .h => 1 | .c => 2
/-- The space FN names. -/
def spOf (b : BitVec 4) : Option ASpace := match b.toNat with | 0 => some .s | 1 => some .h | 2 => some .c | _ => none
/-- FN of fence (R106). -/
def fenceFn : FenceKind → BitVec 6 | .full => 0 | .acq => 1 | .rel => 2
/-- The fence kind FN names (R191). -/
def fenceOf (b : BitVec 6) : Option FenceKind := match b.toNat with | 0 => some .full | 1 => some .acq | 2 => some .rel | _ => none
/-- MOD of fence (R106). -/
def scopeBits : Scope → BitVec 4 | .team => 0 | .clu => 1 | .dev => 2
/-- The scope MOD names (R191). -/
def scopeOf (b : BitVec 4) : Option Scope := match b.toNat with | 0 => some .team | 1 => some .clu | 2 => some .dev | _ => none
/-- FMT of mma (R35). -/
def mfmtBits : MFmt → BitVec 3 | .bf16 => 0 | .f16 => 1 | .fn8 => 2 | .fw8 => 3 | .i8 => 4 | .fn4 => 5 | .i4 => 6
/-- The matrix format a code names; 7 is refused (R35). -/
def mfmtOf (b : BitVec 3) : Option MFmt :=
  match b.toNat with
  | 0 => some .bf16 | 1 => some .f16 | 2 => some .fn8 | 3 => some .fw8 | 4 => some .i8 | 5 => some .fn4
  | 6 => some .i4 | _ => none
/-- One-bit field. -/
def bool1 (b : Bool) : BitVec 1 := BitVec.ofBool b
/-- The value of a one-bit field. -/
def bool1Of (b : BitVec 1) : Option Bool := some (b == 1)
/-- FN of the copy commands (R109): acquire, release, scope. -/
def copyFn (acq rel : Bool) (sc : Scope) : BitVec 4 :=
  (match sc with | .team => (0 : BitVec 2) | .clu => 1 | .dev => 2) ++ BitVec.ofBool rel ++ BitVec.ofBool acq
/-- The flags FN names; scope 3 is refused. -/
def copyOf (b : BitVec 4) : Option (Bool × Bool × Scope) :=
  match (b.extractLsb' 2 2).toNat with
  | 0 => some (b.extractLsb' 0 1 == 1, b.extractLsb' 1 1 == 1, .team)
  | 1 => some (b.extractLsb' 0 1 == 1, b.extractLsb' 1 1 == 1, .clu)
  | 2 => some (b.extractLsb' 0 1 == 1, b.extractLsb' 1 1 == 1, .dev)
  | _ => none
/-- IMM16 of claim and surr (R109). -/
def claimImm (n : Fin 192) : BitVec 16 := BitVec.ofNat 16 n.val
/-- The block count of IMM16; above 191 it is refused. -/
def claimOf (b : BitVec 16) : Option (Fin 192) := if h : b.toNat < 192 then some ⟨b.toNat, h⟩ else none
/-- The number of a system register (R41). -/
def SysReg.num : SysReg → Nat
  | .status => 0 | .mode => 1 | .nflags => 2 | .chksb => 3 | .trapcause => 4 | .trappcLo => 5 | .trappcHi => 6
  | .trapinfoLo => 7 | .trapinfoHi => 8 | .role => 9 | .groupid => 10 | .teamid => 11 | .clusterid => 12
  | .coreid => 13 | .dieid => 14 | .ctxid => 15 | .clockLo => 16 | .clockHi => 17 | .caps => 18 | .accstat => 19
/-- IMM16 of mfs and mts. -/
def sregBits (r : SysReg) : BitVec 16 := BitVec.ofNat 16 r.num
/-- The system register IMM16 names (R41, R134). -/
def sregOf (b : BitVec 16) : Option SysReg :=
  match b.toNat with
  | 0 => some .status | 1 => some .mode | 2 => some .nflags | 3 => some .chksb | 4 => some .trapcause
  | 5 => some .trappcLo | 6 => some .trappcHi | 7 => some .trapinfoLo | 8 => some .trapinfoHi | 9 => some .role
  | 10 => some .groupid | 11 => some .teamid | 12 => some .clusterid | 13 => some .coreid | 14 => some .dieid
  | 15 => some .ctxid | 16 => some .clockLo | 17 => some .clockHi | 18 => some .caps | 19 => some .accstat
  | _ => none
/-- The condition code of the bytecode skip (R347). -/
def skipBits : SkipCc → BitVec 3 | .always => 0 | .eq => 1 | .ne => 2 | .ltu => 3 | .geu => 4
/-- The condition a code names. -/
def skipOf (b : BitVec 3) : Option SkipCc :=
  match b.toNat with | 0 => some .always | 1 => some .eq | 2 => some .ne | 3 => some .ltu | 4 => some .geu | _ => none
/-- FN of vote (R102). -/
def voteFn : VoteDst → BitVec 4 | .any _ => 0 | .all _ => 1 | .bal _ => 2
/-- The D field of vote. -/
def voteD : VoteDst → BitVec 11
  | .any p => BitVec.ofNat 11 p.val
  | .all p => BitVec.ofNat 11 p.val
  | .bal d => d.code
/-- A predicate source field (R87). -/
def PSrc.bits (s : PSrc) : BitVec 11 := (0 : BitVec 7) ++ BitVec.ofBool s.neg ++ BitVec.ofFin (w := 3) s.p
/-- A predicate, accumulator or X index, or a slot number, in the low bits of a field (R87, R94). -/
def idxBits {n : Nat} (i : Fin n) : BitVec 11 := BitVec.ofNat 11 i.val
/-- The try field (R109). -/
def tryBits : Option (Fin 8) → BitVec 11 | none => 0 | some p => BitVec.ofNat 11 (8 + p.val)

/-! ### Reading fields -/

/-- The result of decoding. -/
abbrev Dec := Except Reject

/-- An operand code (R47). -/
def rdOp (c : BitVec 11) : Dec Opnd := match Opnd.ofCode c with | some o => .ok o | none => .error (.reservedCode c)
/-- A predicate destination (R87). -/
def rdPd (c : BitVec 11) : Dec (Fin 8) := if h : c.toNat < 8 then .ok ⟨c.toNat, h⟩ else .error .nonzeroField
/-- A predicate source (R87). -/
def rdPs (c : BitVec 11) : Dec PSrc :=
  if c.extractLsb' 4 7 = 0 then .ok ⟨c.extractLsb' 3 1 == 1, (c.extractLsb' 0 3).toFin⟩ else .error .nonzeroField
/-- An index in the low four bits (R87, R94). -/
def rdIdx (c : BitVec 11) : Dec (Fin 16) := if h : c.toNat < 16 then .ok ⟨c.toNat, h⟩ else .error .nonzeroField
/-- A try field (R109). -/
def rdTry (c : BitVec 11) : Dec (Option (Fin 8)) :=
  if c = 0 then .ok none
  else if h : c.toNat - 8 < 8 then (if 8 ≤ c.toNat then .ok (some ⟨c.toNat - 8, h⟩) else .error .nonzeroField)
  else .error .nonzeroField
/-- A code of a field. -/
def rdCode {α : Type} (o : Option α) : Dec α := match o with | some a => .ok a | none => .error .badCode
/-- A field the map marks zero (R89). -/
def rdZero {n : Nat} (b : BitVec n) : Dec Unit := if b = 0 then .ok () else .error .nonzeroField
/-- An operand field the instruction does not have (R87, R89). -/
def rdNone (c : BitVec 11) : Dec Unit := if c = 0 then .ok () else .error (.unusedOperand c)
/-- The destination of vote (R102). -/
def rdVote (fn : BitVec 4) (d : BitVec 11) : Dec VoteDst :=
  match fn.toNat with
  | 0 => (rdPd d).map .any
  | 1 => (rdPd d).map .all
  | 2 => (rdOp d).map .bal
  | _ => .error .badCode


/-! ### The encoder -/

/-- An encoded instruction: a 64-bit Igfin word, a 32-bit bytecode word, or none for an event or hub command. -/
inductive Encoded where
  | igfin (w : DWord)
  | bytecode (w : Word)
  | none
  deriving DecidableEq, Repr

/-- A bytecode word (R347): OP, D, A, B and IMM17. -/
def mkByte (op : BitVec 6) (d a b : BitVec 3) (i : BitVec 17) : Word := op ++ d ++ a ++ b ++ i

/-- The word of an instruction (R86, R97 to R109, R347). -/
def encode : Instr → Encoded
  | .br h off => .igfin (mkWord h 0x00 ({ imm := off } : BodyFL).pack)
  | .brx h a off => .igfin (mkWord h 0x01 ({ d := a.code, imm := off } : BodyFL).pack)
  | .call h d off => .igfin (mkWord h 0x02 ({ d := d.code, imm := off } : BodyFL).pack)
  | .callx h d a => .igfin (mkWord h 0x03 ({ d := d.code, a := a.code } : BodyF3).pack)
  | .ret h a => .igfin (mkWord h 0x04 ({ d := a.code } : BodyFL).pack)
  | .exit h => .igfin (mkWord h 0x05 ({  } : BodyFL).pack)
  | .meet h off => .igfin (mkWord h 0x06 ({ imm := off } : BodyFL).pack)
  | .loop h a off => .igfin (mkWord h 0x07 ({ d := a.code, imm := off } : BodyFL).pack)
  | .loopImm h n off => .igfin (mkWord h 0x07 ({ fn := 1, d := n, imm := off } : BodyFL).pack)
  | .loopv h a off => .igfin (mkWord h 0x08 ({ d := a.code, imm := off } : BodyFL).pack)
  | .lpop h => .igfin (mkWord h 0x09 ({  } : BodyFL).pack)
  | .trap h imm => .igfin (mkWord h 0x18 ({ imm := imm } : BodyFL).pack)
  | .rfe h => .igfin (mkWord h 0x19 ({  } : BodyFL).pack)
  | .yield h => .igfin (mkWord h 0x1A ({  } : BodyFL).pack)
  | .bkpt h imm => .igfin (mkWord h 0x1B ({ imm := imm } : BodyFL).pack)
  | .nop h => .igfin (mkWord h 0x1C ({  } : BodyFL).pack)
  | .mfs h d sr => .igfin (mkWord h 0x1D ({ d := d.code, imm := sregBits sr } : BodyFI).pack)
  | .mts h sr a => .igfin (mkWord h 0x1E ({ a := a.code, imm := sregBits sr } : BodyFI).pack)
  | .add h f d a b c => .igfin (mkWord h 0x20 ({ fn := sumFn f, d := d.code, a := a.code, b := b.code, c := c.code } : BodyF3).pack)
  | .addc h co d a b c => .igfin (mkWord h 0x21 ({ fn := boolFn co, d := d.code, a := a.code, b := b.code, c := c.code } : BodyF3).pack)
  | .sub h f d a b => .igfin (mkWord h 0x22 ({ fn := sumFn f, d := d.code, a := a.code, b := b.code } : BodyF3).pack)
  | .subb h bo d a b c => .igfin (mkWord h 0x23 ({ fn := boolFn bo, d := d.code, a := a.code, b := b.code, c := c.code } : BodyF3).pack)
  | .neg h f d a => .igfin (mkWord h 0x24 ({ fn := negFn f, d := d.code, a := a.code } : BodyF3).pack)
  | .abs h f d a => .igfin (mkWord h 0x25 ({ fn := negFn f, d := d.code, a := a.code } : BodyF3).pack)
  | .mul h f d a b => .igfin (mkWord h 0x26 ({ fn := mulFn f, d := d.code, a := a.code, b := b.code } : BodyF3).pack)
  | .mulhi h uns d a b => .igfin (mkWord h 0x27 ({ fn := boolFn uns, d := d.code, a := a.code, b := b.code } : BodyF3).pack)
  | .mad h f d a b c => .igfin (mkWord h 0x28 ({ fn := madFn f, d := d.code, a := a.code, b := b.code, c := c.code } : BodyF3).pack)
  | .madhi h uns d a b c => .igfin (mkWord h 0x29 ({ fn := boolFn uns, d := d.code, a := a.code, b := b.code, c := c.code } : BodyF3).pack)
  | .min h f d a b => .igfin (mkWord h 0x2A ({ fn := cmpFn f, d := d.code, a := a.code, b := b.code } : BodyF3).pack)
  | .max h f d a b => .igfin (mkWord h 0x2B ({ fn := cmpFn f, d := d.code, a := a.code, b := b.code } : BodyF3).pack)
  | .and h d a b => .igfin (mkWord h 0x2C ({ d := d.code, a := a.code, b := b.code } : BodyF3).pack)
  | .or h d a b => .igfin (mkWord h 0x2C ({ fn := 1, d := d.code, a := a.code, b := b.code } : BodyF3).pack)
  | .xor h d a b => .igfin (mkWord h 0x2C ({ fn := 2, d := d.code, a := a.code, b := b.code } : BodyF3).pack)
  | .andn h d a b => .igfin (mkWord h 0x2C ({ fn := 3, d := d.code, a := a.code, b := b.code } : BodyF3).pack)
  | .not h d a => .igfin (mkWord h 0x2C ({ fn := 4, d := d.code, a := a.code } : BodyF3).pack)
  | .shl h d a b => .igfin (mkWord h 0x2D ({ d := d.code, a := a.code, b := b.code } : BodyF3).pack)
  | .shr h d a b => .igfin (mkWord h 0x2D ({ fn := 1, d := d.code, a := a.code, b := b.code } : BodyF3).pack)
  | .sar h d a b => .igfin (mkWord h 0x2D ({ fn := 2, d := d.code, a := a.code, b := b.code } : BodyF3).pack)
  | .rot h d a b => .igfin (mkWord h 0x2D ({ fn := 3, d := d.code, a := a.code, b := b.code } : BodyF3).pack)
  | .clz h d a => .igfin (mkWord h 0x2E ({ d := d.code, a := a.code } : BodyF3).pack)
  | .popc h d a => .igfin (mkWord h 0x2E ({ fn := 1, d := d.code, a := a.code } : BodyF3).pack)
  | .brev h d a => .igfin (mkWord h 0x2E ({ fn := 2, d := d.code, a := a.code } : BodyF3).pack)
  | .bfe h sgn d a b c => .igfin (mkWord h 0x2F ({ fn := boolFn sgn, d := d.code, a := a.code, b := b.code, c := c.code } : BodyF3).pack)
  | .bfi h d a b c => .igfin (mkWord h 0x30 ({ d := d.code, a := a.code, b := b.code, c := c.code } : BodyF3).pack)
  | .lea h sh d a b c => .igfin (mkWord h 0x31 ({ fn := fin8Fn sh, d := d.code, a := a.code, b := b.code, c := c.code } : BodyF3).pack)
  | .addmin h uns d a b c => .igfin (mkWord h 0x32 ({ fn := boolFn uns, d := d.code, a := a.code, b := b.code, c := c.code } : BodyF3).pack)
  | .addmax h uns d a b c => .igfin (mkWord h 0x33 ({ fn := boolFn uns, d := d.code, a := a.code, b := b.code, c := c.code } : BodyF3).pack)
  | .div h uns d a b sb => .igfin (mkWord h 0x34 ({ fn := boolFn uns, d := d.code, a := a.code, b := b.code, c := idxBits sb } : BodyF3).pack)
  | .rem h uns d a b sb => .igfin (mkWord h 0x35 ({ fn := boolFn uns, d := d.code, a := a.code, b := b.code, c := idxBits sb } : BodyF3).pack)
  | .mov h wide d a => .igfin (mkWord h 0x36 ({ fn := boolFn wide, d := d.code, a := a.code } : BodyF3).pack)
  | .movi h d imm => .igfin (mkWord h 0x37 ({ d := d.code, imm := imm } : BodyFL).pack)
  | .fadd h rm d a b => .igfin (mkWord h 0x40 ({ fn := rmFn rm, d := d.code, a := a.code, b := b.code } : BodyF3).pack)
  | .fsub h rm d a b => .igfin (mkWord h 0x41 ({ fn := rmFn rm, d := d.code, a := a.code, b := b.code } : BodyF3).pack)
  | .fmul h rm d a b => .igfin (mkWord h 0x42 ({ fn := rmFn rm, d := d.code, a := a.code, b := b.code } : BodyF3).pack)
  | .ffma h rm d a b c => .igfin (mkWord h 0x43 ({ fn := rmFn rm, d := d.code, a := a.code, b := b.code, c := c.code } : BodyF3).pack)
  | .fmin h d a b => .igfin (mkWord h 0x44 ({ d := d.code, a := a.code, b := b.code } : BodyF3).pack)
  | .fmax h d a b => .igfin (mkWord h 0x45 ({ d := d.code, a := a.code, b := b.code } : BodyF3).pack)
  | .fabs h d a => .igfin (mkWord h 0x46 ({ d := d.code, a := a.code } : BodyF3).pack)
  | .fneg h d a => .igfin (mkWord h 0x47 ({ d := d.code, a := a.code } : BodyF3).pack)
  | .frcp h rm d a sb => .igfin (mkWord h 0x48 ({ fn := rmFn rm, d := d.code, a := a.code, c := idxBits sb } : BodyF3).pack)
  | .frsq h rm d a sb => .igfin (mkWord h 0x49 ({ fn := rmFn rm, d := d.code, a := a.code, c := idxBits sb } : BodyF3).pack)
  | .fsqrt h rm d a sb => .igfin (mkWord h 0x4A ({ fn := rmFn rm, d := d.code, a := a.code, c := idxBits sb } : BodyF3).pack)
  | .fdiv h rm d a b sb => .igfin (mkWord h 0x4B ({ fn := rmFn rm, d := d.code, a := a.code, b := b.code, c := idxBits sb } : BodyF3).pack)
  | .fexp2 h d a sb => .igfin (mkWord h 0x4C ({ d := d.code, a := a.code, c := idxBits sb } : BodyF3).pack)
  | .flog2 h d a sb => .igfin (mkWord h 0x4D ({ d := d.code, a := a.code, c := idxBits sb } : BodyF3).pack)
  | .fsin h d a sb => .igfin (mkWord h 0x4E ({ d := d.code, a := a.code, c := idxBits sb } : BodyF3).pack)
  | .fcos h d a sb => .igfin (mkWord h 0x4F ({ d := d.code, a := a.code, c := idxBits sb } : BodyF3).pack)
  | .frint h d a => .igfin (mkWord h 0x50 ({ d := d.code, a := a.code } : BodyF3).pack)
  | .ftrunc h d a => .igfin (mkWord h 0x50 ({ fn := 1, d := d.code, a := a.code } : BodyF3).pack)
  | .ffloor h d a => .igfin (mkWord h 0x50 ({ fn := 2, d := d.code, a := a.code } : BodyF3).pack)
  | .fceil h d a => .igfin (mkWord h 0x50 ({ fn := 3, d := d.code, a := a.code } : BodyF3).pack)
  | .fclass h d a => .igfin (mkWord h 0x51 ({ d := d.code, a := a.code } : BodyF3).pack)
  | .cvt h d a dst src rm elem => .igfin (mkWord h 0x52 ({ d := d.code, a := a.code, imm := cvtImm dst src rm elem } : BodyFI).pack)
  | .hadd2 h hf rm d a b => .igfin (mkWord h 0x53 ({ fn := halfFn hf rm, d := d.code, a := a.code, b := b.code } : BodyF3).pack)
  | .hmul2 h hf rm d a b => .igfin (mkWord h 0x54 ({ fn := halfFn hf rm, d := d.code, a := a.code, b := b.code } : BodyF3).pack)
  | .hfma2 h hf rm d a b c => .igfin (mkWord h 0x55 ({ fn := halfFn hf rm, d := d.code, a := a.code, b := b.code, c := c.code } : BodyF3).pack)
  | .dot2 h hf rm d a b c => .igfin (mkWord h 0x60 ({ fn := dot2Fn hf rm, d := d.code, a := a.code, b := b.code, c := c.code } : BodyF3).pack)
  | .dot4f h fw8 rm d a b c => .igfin (mkWord h 0x61 ({ fn := dot4Fn fw8 rm, d := d.code, a := a.code, b := b.code, c := c.code } : BodyF3).pack)
  | .dot4i h uns d a b => .igfin (mkWord h 0x62 ({ fn := boolFn uns, d := d.code, a := a.code, b := b.code } : BodyF3).pack)
  | .dot8f h rm d a b c => .igfin (mkWord h 0x63 ({ fn := rmFn rm, d := d.code, a := a.code, b := b.code, c := c.code } : BodyF3).pack)
  | .dot8i h uns d a b => .igfin (mkWord h 0x64 ({ fn := boolFn uns, d := d.code, a := a.code, b := b.code } : BodyF3).pack)
  | .pk h ty d a b c => .igfin (mkWord h 0x65 ({ fn := tyFn ty, d := d.code, a := a.code, b := b.code, c := c.code } : BodyF3).pack)
  | .upk h ty d a b => .igfin (mkWord h 0x66 ({ fn := tyFn ty, d := d.code, a := a.code, b := b.code } : BodyF3).pack)
  | .scl h hi rm d a b => .igfin (mkWord h 0x67 ({ fn := sclFn hi rm, d := d.code, a := a.code, b := b.code } : BodyF3).pack)
  | .setpI h cc pd a b pc => .igfin (mkWord h 0x70 ({ fn := ccFn cc, d := idxBits pd, a := a.code, b := b.code, c := pc.bits } : BodyF3).pack)
  | .setpN h cc pd a b pc => .igfin (mkWord h 0x71 ({ fn := ccFn cc, d := idxBits pd, a := a.code, b := b.code, c := pc.bits } : BodyF3).pack)
  | .setpF h cc pd a b pc => .igfin (mkWord h 0x72 ({ fn := ccFn cc, d := idxBits pd, a := a.code, b := b.code, c := pc.bits } : BodyF3).pack)
  | .pand h pd pa pb => .igfin (mkWord h 0x73 ({ d := idxBits pd, a := pa.bits, b := pb.bits } : BodyF3).pack)
  | .por h pd pa pb => .igfin (mkWord h 0x73 ({ fn := 1, d := idxBits pd, a := pa.bits, b := pb.bits } : BodyF3).pack)
  | .pxor h pd pa pb => .igfin (mkWord h 0x73 ({ fn := 2, d := idxBits pd, a := pa.bits, b := pb.bits } : BodyF3).pack)
  | .pnot h pd pa => .igfin (mkWord h 0x73 ({ fn := 3, d := idxBits pd, a := pa.bits } : BodyF3).pack)
  | .sel h wide d a b pc => .igfin (mkWord h 0x74 ({ fn := boolFn wide, d := d.code, a := a.code, b := b.code, c := pc.bits } : BodyF3).pack)
  | .lsh h dn d a b c => .igfin (mkWord h 0x75 ({ fn := boolFn dn, d := d.code, a := a.code, b := b.code, c := c.code } : BodyF3).pack)
  | .lxor h d a b => .igfin (mkWord h 0x76 ({ d := d.code, a := a.code, b := b.code } : BodyF3).pack)
  | .lbc h d a b => .igfin (mkWord h 0x77 ({ d := d.code, a := a.code, b := b.code } : BodyF3).pack)
  | .lrot h d a b => .igfin (mkWord h 0x78 ({ d := d.code, a := a.code, b := b.code } : BodyF3).pack)
  | .qswp h dir d a => .igfin (mkWord h 0x79 ({ fn := dirFn dir, d := d.code, a := a.code } : BodyF3).pack)
  | .qbc h d a b => .igfin (mkWord h 0x7A ({ d := d.code, a := a.code, b := b.code } : BodyF3).pack)
  | .vote h k pa => .igfin (mkWord h 0x7B ({ fn := voteFn k, d := voteD k, a := pa.bits } : BodyF3).pack)
  | .lscan h op excl d a => .igfin (mkWord h 0x7C ({ fn := scanFn op excl, d := d.code, a := a.code } : BodyF3).pack)
  | .ldS h sz sx ord d a off sb => .igfin (mkWord h 0x80 ({ fn := boolFn sx, size := sizeBits sz, sb := BitVec.ofFin sb, order := acqBits ord, a := a.code, d := d.code, off := off } : BodyFM).pack)
  | .stS h sz ord a off d => .igfin (mkWord h 0x81 ({ size := sizeBits sz, order := relBits ord, a := a.code, d := d.code, off := off } : BodyFM).pack)
  | .ldH h sz sx ord d a off sb => .igfin (mkWord h 0x82 ({ fn := boolFn sx, size := sizeBits sz, sb := BitVec.ofFin sb, order := acqBits ord, a := a.code, d := d.code, off := off } : BodyFM).pack)
  | .stH h sz ord a off d => .igfin (mkWord h 0x83 ({ size := sizeBits sz, order := relBits ord, a := a.code, d := d.code, off := off } : BodyFM).pack)
  | .ldK h sz sx d a off sb => .igfin (mkWord h 0x84 ({ fn := boolFn sx, size := sizeBits sz, sb := BitVec.ofFin sb, a := a.code, d := d.code, off := off } : BodyFM).pack)
  | .stK h sz a off d => .igfin (mkWord h 0x85 ({ size := sizeBits sz, a := a.code, d := d.code, off := off } : BodyFM).pack)
  | .ldC h sz sx ord d a off sb => .igfin (mkWord h 0x86 ({ fn := boolFn sx, size := sizeBits sz, sb := BitVec.ofFin sb, order := acqBits ord, a := a.code, d := d.code, off := off } : BodyFM).pack)
  | .stC h sz ord a off d => .igfin (mkWord h 0x87 ({ size := sizeBits sz, order := relBits ord, a := a.code, d := d.code, off := off } : BodyFM).pack)
  | .ldu h sz ord d a off sb => .igfin (mkWord h 0x88 ({ size := sizeBits sz, order := acqBits ord, sb := BitVec.ofFin sb, a := a.code, d := d.code, off := off } : BodyFM).pack)
  | .ldt h w d a off sb => .igfin (mkWord h 0x89 ({ fn := fin4Fn w, sb := BitVec.ofFin sb, a := a.code, d := d.code, off := off } : BodyFM).pack)
  | .atomS h op wide ordf a off d sb => .igfin (mkWord h 0x98 ({ fn := atFn op, size := atSize wide ordf, sb := BitVec.ofFin sb, a := a.code, d := d.code, off := off } : BodyFM).pack)
  | .atomH h op wide ordf a off d sb => .igfin (mkWord h 0x99 ({ fn := atFn op, size := atSize wide ordf, sb := BitVec.ofFin sb, a := a.code, d := d.code, off := off } : BodyFM).pack)
  | .atomC h op wide ordf a off d sb => .igfin (mkWord h 0x9A ({ fn := atFn op, size := atSize wide ordf, sb := BitVec.ofFin sb, a := a.code, d := d.code, off := off } : BodyFM).pack)
  | .redS h op wide ordf a off d => .igfin (mkWord h 0x9B ({ fn := atFn op, size := atSize wide ordf, a := a.code, d := d.code, off := off } : BodyFM).pack)
  | .redH h op wide ordf a off d => .igfin (mkWord h 0x9C ({ fn := atFn op, size := atSize wide ordf, a := a.code, d := d.code, off := off } : BodyFM).pack)
  | .redC h op wide ordf a off d => .igfin (mkWord h 0x9D ({ fn := atFn op, size := atSize wide ordf, a := a.code, d := d.code, off := off } : BodyFM).pack)
  | .cas h sp wide ordf a off d sb => .igfin (mkWord h 0x9E ({ fn := spFn sp, size := atSize wide ordf, sb := BitVec.ofFin sb, a := a.code, d := d.code, off := off } : BodyFM).pack)
  | .fence h kind sc => .igfin (mkWord h 0xA8 ({ fn := fenceFn kind, mod := scopeBits sc } : BodyFI).pack)
  | .barInit h a off d => .igfin (mkWord h 0xA9 ({ size := 3, a := a.code, d := d.code, off := off } : BodyFM).pack)
  | .barArrive h d a off sb => .igfin (mkWord h 0xA9 ({ size := 3, fn := 1, sb := BitVec.ofFin sb, a := a.code, d := d.code, off := off } : BodyFM).pack)
  | .barWait h a off d => .igfin (mkWord h 0xA9 ({ size := 3, fn := 2, a := a.code, d := d.code, off := off } : BodyFM).pack)
  | .arrInit h a off d => .igfin (mkWord h 0xAA ({ size := 4, a := a.code, d := d.code, off := off } : BodyFM).pack)
  | .arrAdd h a off d => .igfin (mkWord h 0xAA ({ size := 4, fn := 1, a := a.code, d := d.code, off := off } : BodyFM).pack)
  | .arrWait h a off d => .igfin (mkWord h 0xAA ({ size := 4, fn := 2, a := a.code, d := d.code, off := off } : BodyFM).pack)
  | .arrRead h d a off sb => .igfin (mkWord h 0xAA ({ size := 4, fn := 3, sb := BitVec.ofFin sb, a := a.code, d := d.code, off := off } : BodyFM).pack)
  | .ereg h a d => .igfin (mkWord h 0xB0 ({ a := a.code, d := d.code } : BodyFM).pack)
  | .esamp h a off d => .igfin (mkWord h 0xB1 ({ size := 4, a := a.code, d := d.code, off := off } : BodyFM).pack)
  | .esampW h a off d => .igfin (mkWord h 0xB1 ({ size := 4, fn := 1, a := a.code, d := d.code, off := off } : BodyFM).pack)
  | .esampB h a off d => .igfin (mkWord h 0xB2 ({ size := 4, a := a.code, d := d.code, off := off } : BodyFM).pack)
  | .eld h d a off p sb => .igfin (mkWord h 0xB3 ({ size := 4, fn := fin8Fn p, sb := BitVec.ofFin sb, a := a.code, d := d.code, off := off } : BodyFM).pack)
  | .edecay h a d => .igfin (mkWord h 0xB4 ({ a := a.code, d := d.code } : BodyFM).pack)
  | .eflush h a => .igfin (mkWord h 0xB5 ({ a := a.code } : BodyFM).pack)
  | .eclr h a => .igfin (mkWord h 0xB6 ({ a := a.code } : BodyFM).pack)
  | .mma h fmt acc a x cv reuse => .igfin (mkWord h 0xB8 ({ fmt := mfmtBits fmt, reuse := bool1 reuse, cv := BitVec.ofFin cv, b := idxBits x, a := a.code, d := idxBits acc } : BodyFX).pack)
  | .cvdeclSet h cv pa => .igfin (mkWord h 0xB9 ({ cv := BitVec.ofFin cv, a := pa.bits } : BodyFX).pack)
  | .cvdeclAdd h cv pa => .igfin (mkWord h 0xB9 ({ fn := 1, cv := BitVec.ofFin cv, a := pa.bits } : BodyFX).pack)
  | .xres h x a => .igfin (mkWord h 0xBA ({ d := idxBits x, a := a.code } : BodyFX).pack)
  | .xrel h x => .igfin (mkWord h 0xBB ({ d := idxBits x } : BodyFX).pack)
  | .xld h sh x a b sb => .igfin (mkWord h 0xBC ({ fn := boolFn sh, d := idxBits x, a := a.code, b := b.code, mod := BitVec.ofFin sb } : BodyFX).pack)
  | .xsc h x a b => .igfin (mkWord h 0xBD ({ d := idxBits x, a := a.code, b := b.code } : BodyFX).pack)
  | .accClr h acc => .igfin (mkWord h 0xBE ({ d := idxBits acc } : BodyFX).pack)
  | .accMv h bf d acc sb => .igfin (mkWord h 0xBF ({ fn := boolFn bf, d := d.code, a := idxBits acc, mod := BitVec.ofFin sb } : BodyFX).pack)
  | .accLd h sh acc a sb => .igfin (mkWord h 0xC0 ({ fn := boolFn sh, d := idxBits acc, a := a.code, mod := BitVec.ofFin sb } : BodyFX).pack)
  | .accSt h sh a acc sb => .igfin (mkWord h 0xC1 ({ fn := boolFn sh, d := idxBits acc, a := a.code, mod := BitVec.ofFin sb } : BodyFX).pack)
  | .mstat h d sb => .igfin (mkWord h 0xC2 ({ d := d.code, mod := BitVec.ofFin sb } : BodyFX).pack)
  | .copyG2s h acq rel sc tr a b => .igfin (mkWord h 0xC8 ({ fn := copyFn acq rel sc, d := tryBits tr, a := a.code, b := b.code } : BodyF3).pack)
  | .copyS2g h acq rel sc tr a b => .igfin (mkWord h 0xC9 ({ fn := copyFn acq rel sc, d := tryBits tr, a := a.code, b := b.code } : BodyF3).pack)
  | .copyS2s h acq rel sc tr a b => .igfin (mkWord h 0xCA ({ fn := copyFn acq rel sc, d := tryBits tr, a := a.code, b := b.code } : BodyF3).pack)
  | .copyDie h acq rel sc tr a b => .igfin (mkWord h 0xCB ({ fn := copyFn acq rel sc, d := tryBits tr, a := a.code, b := b.code } : BodyF3).pack)
  | .copyNet h acq rel sc tr a b => .igfin (mkWord h 0xCC ({ fn := copyFn acq rel sc, d := tryBits tr, a := a.code, b := b.code } : BodyF3).pack)
  | .cpcLat h tr a => .igfin (mkWord h 0xD0 ({ d := tryBits tr, a := a.code } : BodyF3).pack)
  | .cpcGlz h tr a => .igfin (mkWord h 0xD1 ({ d := tryBits tr, a := a.code } : BodyF3).pack)
  | .cpcCut h tr a => .igfin (mkWord h 0xD2 ({ d := tryBits tr, a := a.code } : BodyF3).pack)
  | .cpcIcg h tr a => .igfin (mkWord h 0xD3 ({ d := tryBits tr, a := a.code } : BodyF3).pack)
  | .token h a b => .igfin (mkWord h 0xD4 ({ a := a.code, b := b.code } : BodyF3).pack)
  | .tskip h a => .igfin (mkWord h 0xD5 ({ a := a.code } : BodyF3).pack)
  | .spawn h tr a b => .igfin (mkWord h 0xD8 ({ d := tryBits tr, a := a.code, b := b.code } : BodyF3).pack)
  | .tget h d a sb => .igfin (mkWord h 0xD9 ({ d := d.code, a := a.code, sb := BitVec.ofFin sb } : BodyFM).pack)
  | .tdone h a => .igfin (mkWord h 0xDA ({ a := a.code } : BodyF3).pack)
  | .claim h n => .igfin (mkWord h 0xDB ({ imm := claimImm n } : BodyFI).pack)
  | .claimTry h pd n => .igfin (mkWord h 0xDB ({ fn := 1, d := idxBits pd, imm := claimImm n } : BodyFI).pack)
  | .surr h n => .igfin (mkWord h 0xDC ({ imm := claimImm n } : BodyFI).pack)
  | .bMovi d i => .bytecode (mkByte 1 (BitVec.ofFin d) 0 0 i)
  | .bMovh d i => .bytecode (mkByte 2 (BitVec.ofFin d) 0 0 ((0 : BitVec 1) ++ i))
  | .bAdd d a b => .bytecode (mkByte 3 (BitVec.ofFin d) (BitVec.ofFin a) (BitVec.ofFin b) 0)
  | .bSub d a b => .bytecode (mkByte 4 (BitVec.ofFin d) (BitVec.ofFin a) (BitVec.ofFin b) 0)
  | .bAnd d a b => .bytecode (mkByte 5 (BitVec.ofFin d) (BitVec.ofFin a) (BitVec.ofFin b) 0)
  | .bOr d a b => .bytecode (mkByte 6 (BitVec.ofFin d) (BitVec.ofFin a) (BitVec.ofFin b) 0)
  | .bAddi d a i => .bytecode (mkByte 7 (BitVec.ofFin d) (BitVec.ofFin a) 0 i)
  | .bShl d a n => .bytecode (mkByte 8 (BitVec.ofFin d) (BitVec.ofFin a) 0 (BitVec.ofNat 17 n.val))
  | .bShr d a n => .bytecode (mkByte 9 (BitVec.ofFin d) (BitVec.ofFin a) 0 (BitVec.ofNat 17 n.val))
  | .bLdp d w => .bytecode (mkByte 10 (BitVec.ofFin d) 0 0 (BitVec.ofNat 17 (8 * w.val)))
  | .bLdw d a i => .bytecode (mkByte 11 (BitVec.ofFin d) (BitVec.ofFin a) 0 i)
  | .bStw a d i => .bytecode (mkByte 12 (BitVec.ofFin d) (BitVec.ofFin a) 0 i)
  | .bSkip cc a b i => .bytecode (mkByte 13 (skipBits cc) (BitVec.ofFin a) (BitVec.ofFin b) i)
  | .bLoop n => .bytecode (mkByte 14 0 0 0 (BitVec.ofNat 17 n.toNat))
  | .bEndl => .bytecode (mkByte 15 0 0 0 0)
  | .bLaunch a b => .bytecode (mkByte 16 0 (BitVec.ofFin a) (BitVec.ofFin b) 0)
  | .bWaitl => .bytecode (mkByte 17 0 0 0 0)
  | .bIb a b => .bytecode (mkByte 18 0 (BitVec.ofFin a) (BitVec.ofFin b) 0)
  | .bTkt a => .bytecode (mkByte 19 0 (BitVec.ofFin a) 0 0)
  | .bEndp => .bytecode (mkByte 20 0 0 0 0)
  | _ => .none

/-! ### The decoder -/

/-- The instructions of format F3. -/
def parseF3 (major : Nat) (h : Hdr) (bd : BodyF3) : Dec Instr :=
  match major with
  | 3 => do
    rdZero bd.fn
    rdNone bd.c
    rdNone bd.b
    let a ← rdOp bd.a
    let d ← rdOp bd.d
    return .callx h d a
  | 32 => do
    let f ← rdCode (sumOf bd.fn)
    let c ← rdOp bd.c
    let b ← rdOp bd.b
    let a ← rdOp bd.a
    let d ← rdOp bd.d
    return .add h f d a b c
  | 33 => do
    let co ← rdCode (boolOf bd.fn)
    let c ← rdOp bd.c
    let b ← rdOp bd.b
    let a ← rdOp bd.a
    let d ← rdOp bd.d
    return .addc h co d a b c
  | 34 => do
    let f ← rdCode (sumOf bd.fn)
    rdNone bd.c
    let b ← rdOp bd.b
    let a ← rdOp bd.a
    let d ← rdOp bd.d
    return .sub h f d a b
  | 35 => do
    let bo ← rdCode (boolOf bd.fn)
    let c ← rdOp bd.c
    let b ← rdOp bd.b
    let a ← rdOp bd.a
    let d ← rdOp bd.d
    return .subb h bo d a b c
  | 36 => do
    let f ← rdCode (negOf bd.fn)
    rdNone bd.c
    rdNone bd.b
    let a ← rdOp bd.a
    let d ← rdOp bd.d
    return .neg h f d a
  | 37 => do
    let f ← rdCode (negOf bd.fn)
    rdNone bd.c
    rdNone bd.b
    let a ← rdOp bd.a
    let d ← rdOp bd.d
    return .abs h f d a
  | 38 => do
    let f ← rdCode (mulOf bd.fn)
    rdNone bd.c
    let b ← rdOp bd.b
    let a ← rdOp bd.a
    let d ← rdOp bd.d
    return .mul h f d a b
  | 39 => do
    let uns ← rdCode (boolOf bd.fn)
    rdNone bd.c
    let b ← rdOp bd.b
    let a ← rdOp bd.a
    let d ← rdOp bd.d
    return .mulhi h uns d a b
  | 40 => do
    let f ← rdCode (madOf bd.fn)
    let c ← rdOp bd.c
    let b ← rdOp bd.b
    let a ← rdOp bd.a
    let d ← rdOp bd.d
    return .mad h f d a b c
  | 41 => do
    let uns ← rdCode (boolOf bd.fn)
    let c ← rdOp bd.c
    let b ← rdOp bd.b
    let a ← rdOp bd.a
    let d ← rdOp bd.d
    return .madhi h uns d a b c
  | 42 => do
    let f ← rdCode (cmpOf bd.fn)
    rdNone bd.c
    let b ← rdOp bd.b
    let a ← rdOp bd.a
    let d ← rdOp bd.d
    return .min h f d a b
  | 43 => do
    let f ← rdCode (cmpOf bd.fn)
    rdNone bd.c
    let b ← rdOp bd.b
    let a ← rdOp bd.a
    let d ← rdOp bd.d
    return .max h f d a b
  | 44 =>
    match bd.fn.toNat with
    | 0 => do
      rdNone bd.c
      let b ← rdOp bd.b
      let a ← rdOp bd.a
      let d ← rdOp bd.d
      return .and h d a b
    | 1 => do
      rdNone bd.c
      let b ← rdOp bd.b
      let a ← rdOp bd.a
      let d ← rdOp bd.d
      return .or h d a b
    | 2 => do
      rdNone bd.c
      let b ← rdOp bd.b
      let a ← rdOp bd.a
      let d ← rdOp bd.d
      return .xor h d a b
    | 3 => do
      rdNone bd.c
      let b ← rdOp bd.b
      let a ← rdOp bd.a
      let d ← rdOp bd.d
      return .andn h d a b
    | 4 => do
      rdNone bd.c
      rdNone bd.b
      let a ← rdOp bd.a
      let d ← rdOp bd.d
      return .not h d a
    | _ => .error .badCode
  | 45 =>
    match bd.fn.toNat with
    | 0 => do
      rdNone bd.c
      let b ← rdOp bd.b
      let a ← rdOp bd.a
      let d ← rdOp bd.d
      return .shl h d a b
    | 1 => do
      rdNone bd.c
      let b ← rdOp bd.b
      let a ← rdOp bd.a
      let d ← rdOp bd.d
      return .shr h d a b
    | 2 => do
      rdNone bd.c
      let b ← rdOp bd.b
      let a ← rdOp bd.a
      let d ← rdOp bd.d
      return .sar h d a b
    | 3 => do
      rdNone bd.c
      let b ← rdOp bd.b
      let a ← rdOp bd.a
      let d ← rdOp bd.d
      return .rot h d a b
    | _ => .error .badCode
  | 46 =>
    match bd.fn.toNat with
    | 0 => do
      rdNone bd.c
      rdNone bd.b
      let a ← rdOp bd.a
      let d ← rdOp bd.d
      return .clz h d a
    | 1 => do
      rdNone bd.c
      rdNone bd.b
      let a ← rdOp bd.a
      let d ← rdOp bd.d
      return .popc h d a
    | 2 => do
      rdNone bd.c
      rdNone bd.b
      let a ← rdOp bd.a
      let d ← rdOp bd.d
      return .brev h d a
    | _ => .error .badCode
  | 47 => do
    let sgn ← rdCode (boolOf bd.fn)
    let c ← rdOp bd.c
    let b ← rdOp bd.b
    let a ← rdOp bd.a
    let d ← rdOp bd.d
    return .bfe h sgn d a b c
  | 48 => do
    rdZero bd.fn
    let c ← rdOp bd.c
    let b ← rdOp bd.b
    let a ← rdOp bd.a
    let d ← rdOp bd.d
    return .bfi h d a b c
  | 49 => do
    let sh ← rdCode (fin8Of bd.fn)
    let c ← rdOp bd.c
    let b ← rdOp bd.b
    let a ← rdOp bd.a
    let d ← rdOp bd.d
    return .lea h sh d a b c
  | 50 => do
    let uns ← rdCode (boolOf bd.fn)
    let c ← rdOp bd.c
    let b ← rdOp bd.b
    let a ← rdOp bd.a
    let d ← rdOp bd.d
    return .addmin h uns d a b c
  | 51 => do
    let uns ← rdCode (boolOf bd.fn)
    let c ← rdOp bd.c
    let b ← rdOp bd.b
    let a ← rdOp bd.a
    let d ← rdOp bd.d
    return .addmax h uns d a b c
  | 52 => do
    let uns ← rdCode (boolOf bd.fn)
    let sb ← rdIdx bd.c
    let b ← rdOp bd.b
    let a ← rdOp bd.a
    let d ← rdOp bd.d
    return .div h uns d a b sb
  | 53 => do
    let uns ← rdCode (boolOf bd.fn)
    let sb ← rdIdx bd.c
    let b ← rdOp bd.b
    let a ← rdOp bd.a
    let d ← rdOp bd.d
    return .rem h uns d a b sb
  | 54 => do
    let wide ← rdCode (boolOf bd.fn)
    rdNone bd.c
    rdNone bd.b
    let a ← rdOp bd.a
    let d ← rdOp bd.d
    return .mov h wide d a
  | 64 => do
    let rm ← rdCode (rmOf bd.fn)
    rdNone bd.c
    let b ← rdOp bd.b
    let a ← rdOp bd.a
    let d ← rdOp bd.d
    return .fadd h rm d a b
  | 65 => do
    let rm ← rdCode (rmOf bd.fn)
    rdNone bd.c
    let b ← rdOp bd.b
    let a ← rdOp bd.a
    let d ← rdOp bd.d
    return .fsub h rm d a b
  | 66 => do
    let rm ← rdCode (rmOf bd.fn)
    rdNone bd.c
    let b ← rdOp bd.b
    let a ← rdOp bd.a
    let d ← rdOp bd.d
    return .fmul h rm d a b
  | 67 => do
    let rm ← rdCode (rmOf bd.fn)
    let c ← rdOp bd.c
    let b ← rdOp bd.b
    let a ← rdOp bd.a
    let d ← rdOp bd.d
    return .ffma h rm d a b c
  | 68 => do
    rdZero bd.fn
    rdNone bd.c
    let b ← rdOp bd.b
    let a ← rdOp bd.a
    let d ← rdOp bd.d
    return .fmin h d a b
  | 69 => do
    rdZero bd.fn
    rdNone bd.c
    let b ← rdOp bd.b
    let a ← rdOp bd.a
    let d ← rdOp bd.d
    return .fmax h d a b
  | 70 => do
    rdZero bd.fn
    rdNone bd.c
    rdNone bd.b
    let a ← rdOp bd.a
    let d ← rdOp bd.d
    return .fabs h d a
  | 71 => do
    rdZero bd.fn
    rdNone bd.c
    rdNone bd.b
    let a ← rdOp bd.a
    let d ← rdOp bd.d
    return .fneg h d a
  | 72 => do
    let rm ← rdCode (rmOf bd.fn)
    let sb ← rdIdx bd.c
    rdNone bd.b
    let a ← rdOp bd.a
    let d ← rdOp bd.d
    return .frcp h rm d a sb
  | 73 => do
    let rm ← rdCode (rmOf bd.fn)
    let sb ← rdIdx bd.c
    rdNone bd.b
    let a ← rdOp bd.a
    let d ← rdOp bd.d
    return .frsq h rm d a sb
  | 74 => do
    let rm ← rdCode (rmOf bd.fn)
    let sb ← rdIdx bd.c
    rdNone bd.b
    let a ← rdOp bd.a
    let d ← rdOp bd.d
    return .fsqrt h rm d a sb
  | 75 => do
    let rm ← rdCode (rmOf bd.fn)
    let sb ← rdIdx bd.c
    let b ← rdOp bd.b
    let a ← rdOp bd.a
    let d ← rdOp bd.d
    return .fdiv h rm d a b sb
  | 76 => do
    rdZero bd.fn
    let sb ← rdIdx bd.c
    rdNone bd.b
    let a ← rdOp bd.a
    let d ← rdOp bd.d
    return .fexp2 h d a sb
  | 77 => do
    rdZero bd.fn
    let sb ← rdIdx bd.c
    rdNone bd.b
    let a ← rdOp bd.a
    let d ← rdOp bd.d
    return .flog2 h d a sb
  | 78 => do
    rdZero bd.fn
    let sb ← rdIdx bd.c
    rdNone bd.b
    let a ← rdOp bd.a
    let d ← rdOp bd.d
    return .fsin h d a sb
  | 79 => do
    rdZero bd.fn
    let sb ← rdIdx bd.c
    rdNone bd.b
    let a ← rdOp bd.a
    let d ← rdOp bd.d
    return .fcos h d a sb
  | 80 =>
    match bd.fn.toNat with
    | 0 => do
      rdNone bd.c
      rdNone bd.b
      let a ← rdOp bd.a
      let d ← rdOp bd.d
      return .frint h d a
    | 1 => do
      rdNone bd.c
      rdNone bd.b
      let a ← rdOp bd.a
      let d ← rdOp bd.d
      return .ftrunc h d a
    | 2 => do
      rdNone bd.c
      rdNone bd.b
      let a ← rdOp bd.a
      let d ← rdOp bd.d
      return .ffloor h d a
    | 3 => do
      rdNone bd.c
      rdNone bd.b
      let a ← rdOp bd.a
      let d ← rdOp bd.d
      return .fceil h d a
    | _ => .error .badCode
  | 81 => do
    rdZero bd.fn
    rdNone bd.c
    rdNone bd.b
    let a ← rdOp bd.a
    let d ← rdOp bd.d
    return .fclass h d a
  | 83 => do
    let (hf, rm) ← rdCode (halfOf bd.fn)
    rdNone bd.c
    let b ← rdOp bd.b
    let a ← rdOp bd.a
    let d ← rdOp bd.d
    return .hadd2 h hf rm d a b
  | 84 => do
    let (hf, rm) ← rdCode (halfOf bd.fn)
    rdNone bd.c
    let b ← rdOp bd.b
    let a ← rdOp bd.a
    let d ← rdOp bd.d
    return .hmul2 h hf rm d a b
  | 85 => do
    let (hf, rm) ← rdCode (halfOf bd.fn)
    let c ← rdOp bd.c
    let b ← rdOp bd.b
    let a ← rdOp bd.a
    let d ← rdOp bd.d
    return .hfma2 h hf rm d a b c
  | 96 => do
    let (hf, rm) ← rdCode (dot2Of bd.fn)
    let c ← rdOp bd.c
    let b ← rdOp bd.b
    let a ← rdOp bd.a
    let d ← rdOp bd.d
    return .dot2 h hf rm d a b c
  | 97 => do
    let (fw8, rm) ← rdCode (dot4Of bd.fn)
    let c ← rdOp bd.c
    let b ← rdOp bd.b
    let a ← rdOp bd.a
    let d ← rdOp bd.d
    return .dot4f h fw8 rm d a b c
  | 98 => do
    let uns ← rdCode (boolOf bd.fn)
    rdNone bd.c
    let b ← rdOp bd.b
    let a ← rdOp bd.a
    let d ← rdOp bd.d
    return .dot4i h uns d a b
  | 99 => do
    let rm ← rdCode (rmOf bd.fn)
    let c ← rdOp bd.c
    let b ← rdOp bd.b
    let a ← rdOp bd.a
    let d ← rdOp bd.d
    return .dot8f h rm d a b c
  | 100 => do
    let uns ← rdCode (boolOf bd.fn)
    rdNone bd.c
    let b ← rdOp bd.b
    let a ← rdOp bd.a
    let d ← rdOp bd.d
    return .dot8i h uns d a b
  | 101 => do
    let ty ← rdCode (tyOf bd.fn)
    let c ← rdOp bd.c
    let b ← rdOp bd.b
    let a ← rdOp bd.a
    let d ← rdOp bd.d
    return .pk h ty d a b c
  | 102 => do
    let ty ← rdCode (tyOf bd.fn)
    rdNone bd.c
    let b ← rdOp bd.b
    let a ← rdOp bd.a
    let d ← rdOp bd.d
    return .upk h ty d a b
  | 103 => do
    let (hi, rm) ← rdCode (sclOf bd.fn)
    rdNone bd.c
    let b ← rdOp bd.b
    let a ← rdOp bd.a
    let d ← rdOp bd.d
    return .scl h hi rm d a b
  | 112 => do
    let cc ← rdCode (ccOf bd.fn)
    let pc ← rdPs bd.c
    let b ← rdOp bd.b
    let a ← rdOp bd.a
    let pd ← rdPd bd.d
    return .setpI h cc pd a b pc
  | 113 => do
    let cc ← rdCode (ccOf bd.fn)
    let pc ← rdPs bd.c
    let b ← rdOp bd.b
    let a ← rdOp bd.a
    let pd ← rdPd bd.d
    return .setpN h cc pd a b pc
  | 114 => do
    let cc ← rdCode (ccOf bd.fn)
    let pc ← rdPs bd.c
    let b ← rdOp bd.b
    let a ← rdOp bd.a
    let pd ← rdPd bd.d
    return .setpF h cc pd a b pc
  | 115 =>
    match bd.fn.toNat with
    | 0 => do
      rdNone bd.c
      let pb ← rdPs bd.b
      let pa ← rdPs bd.a
      let pd ← rdPd bd.d
      return .pand h pd pa pb
    | 1 => do
      rdNone bd.c
      let pb ← rdPs bd.b
      let pa ← rdPs bd.a
      let pd ← rdPd bd.d
      return .por h pd pa pb
    | 2 => do
      rdNone bd.c
      let pb ← rdPs bd.b
      let pa ← rdPs bd.a
      let pd ← rdPd bd.d
      return .pxor h pd pa pb
    | 3 => do
      rdNone bd.c
      rdNone bd.b
      let pa ← rdPs bd.a
      let pd ← rdPd bd.d
      return .pnot h pd pa
    | _ => .error .badCode
  | 116 => do
    let wide ← rdCode (boolOf bd.fn)
    let pc ← rdPs bd.c
    let b ← rdOp bd.b
    let a ← rdOp bd.a
    let d ← rdOp bd.d
    return .sel h wide d a b pc
  | 117 => do
    let dn ← rdCode (boolOf bd.fn)
    let c ← rdOp bd.c
    let b ← rdOp bd.b
    let a ← rdOp bd.a
    let d ← rdOp bd.d
    return .lsh h dn d a b c
  | 118 => do
    rdZero bd.fn
    rdNone bd.c
    let b ← rdOp bd.b
    let a ← rdOp bd.a
    let d ← rdOp bd.d
    return .lxor h d a b
  | 119 => do
    rdZero bd.fn
    rdNone bd.c
    let b ← rdOp bd.b
    let a ← rdOp bd.a
    let d ← rdOp bd.d
    return .lbc h d a b
  | 120 => do
    rdZero bd.fn
    rdNone bd.c
    let b ← rdOp bd.b
    let a ← rdOp bd.a
    let d ← rdOp bd.d
    return .lrot h d a b
  | 121 => do
    let dir ← rdCode (dirOf bd.fn)
    rdNone bd.c
    rdNone bd.b
    let a ← rdOp bd.a
    let d ← rdOp bd.d
    return .qswp h dir d a
  | 122 => do
    rdZero bd.fn
    rdNone bd.c
    let b ← rdOp bd.b
    let a ← rdOp bd.a
    let d ← rdOp bd.d
    return .qbc h d a b
  | 123 => do
    let k ← rdVote bd.fn bd.d
    rdNone bd.c
    rdNone bd.b
    let pa ← rdPs bd.a
    return .vote h k pa
  | 124 => do
    let (op, excl) ← rdCode (scanOf bd.fn)
    rdNone bd.c
    rdNone bd.b
    let a ← rdOp bd.a
    let d ← rdOp bd.d
    return .lscan h op excl d a
  | 200 => do
    let (acq, rel, sc) ← rdCode (copyOf bd.fn)
    rdNone bd.c
    let b ← rdOp bd.b
    let a ← rdOp bd.a
    let tr ← rdTry bd.d
    return .copyG2s h acq rel sc tr a b
  | 201 => do
    let (acq, rel, sc) ← rdCode (copyOf bd.fn)
    rdNone bd.c
    let b ← rdOp bd.b
    let a ← rdOp bd.a
    let tr ← rdTry bd.d
    return .copyS2g h acq rel sc tr a b
  | 202 => do
    let (acq, rel, sc) ← rdCode (copyOf bd.fn)
    rdNone bd.c
    let b ← rdOp bd.b
    let a ← rdOp bd.a
    let tr ← rdTry bd.d
    return .copyS2s h acq rel sc tr a b
  | 203 => do
    let (acq, rel, sc) ← rdCode (copyOf bd.fn)
    rdNone bd.c
    let b ← rdOp bd.b
    let a ← rdOp bd.a
    let tr ← rdTry bd.d
    return .copyDie h acq rel sc tr a b
  | 204 => do
    let (acq, rel, sc) ← rdCode (copyOf bd.fn)
    rdNone bd.c
    let b ← rdOp bd.b
    let a ← rdOp bd.a
    let tr ← rdTry bd.d
    return .copyNet h acq rel sc tr a b
  | 208 => do
    rdZero bd.fn
    rdNone bd.c
    rdNone bd.b
    let a ← rdOp bd.a
    let tr ← rdTry bd.d
    return .cpcLat h tr a
  | 209 => do
    rdZero bd.fn
    rdNone bd.c
    rdNone bd.b
    let a ← rdOp bd.a
    let tr ← rdTry bd.d
    return .cpcGlz h tr a
  | 210 => do
    rdZero bd.fn
    rdNone bd.c
    rdNone bd.b
    let a ← rdOp bd.a
    let tr ← rdTry bd.d
    return .cpcCut h tr a
  | 211 => do
    rdZero bd.fn
    rdNone bd.c
    rdNone bd.b
    let a ← rdOp bd.a
    let tr ← rdTry bd.d
    return .cpcIcg h tr a
  | 212 => do
    rdZero bd.fn
    rdNone bd.c
    let b ← rdOp bd.b
    let a ← rdOp bd.a
    rdNone bd.d
    return .token h a b
  | 213 => do
    rdZero bd.fn
    rdNone bd.c
    rdNone bd.b
    let a ← rdOp bd.a
    rdNone bd.d
    return .tskip h a
  | 216 => do
    rdZero bd.fn
    rdNone bd.c
    let b ← rdOp bd.b
    let a ← rdOp bd.a
    let tr ← rdTry bd.d
    return .spawn h tr a b
  | 218 => do
    rdZero bd.fn
    rdNone bd.c
    rdNone bd.b
    let a ← rdOp bd.a
    rdNone bd.d
    return .tdone h a
  | _ => .error .unassignedMajor

/-- The instructions of format FI. -/
def parseFI (major : Nat) (h : Hdr) (bd : BodyFI) : Dec Instr :=
  match major with
  | 29 => do
    let sr ← rdCode (sregOf bd.imm)
    rdZero bd.mod
    rdZero bd.fn
    rdNone bd.a
    let d ← rdOp bd.d
    return .mfs h d sr
  | 30 => do
    let sr ← rdCode (sregOf bd.imm)
    rdZero bd.mod
    rdZero bd.fn
    let a ← rdOp bd.a
    rdNone bd.d
    return .mts h sr a
  | 82 => do
    let (dst, src, rm, elem) ← rdCode (cvtOf bd.imm)
    rdZero bd.mod
    rdZero bd.fn
    let a ← rdOp bd.a
    let d ← rdOp bd.d
    return .cvt h d a dst src rm elem
  | 168 => do
    rdZero bd.imm
    let sc ← rdCode (scopeOf bd.mod)
    let kind ← rdCode (fenceOf bd.fn)
    rdNone bd.a
    rdNone bd.d
    return .fence h kind sc
  | 219 =>
    match bd.fn.toNat with
    | 0 => do
      let n ← rdCode (claimOf bd.imm)
      rdZero bd.mod
      rdNone bd.a
      rdNone bd.d
      return .claim h n
    | 1 => do
      let n ← rdCode (claimOf bd.imm)
      rdZero bd.mod
      rdNone bd.a
      let pd ← rdPd bd.d
      return .claimTry h pd n
    | _ => .error .badCode
  | 220 => do
    let n ← rdCode (claimOf bd.imm)
    rdZero bd.mod
    rdZero bd.fn
    rdNone bd.a
    rdNone bd.d
    return .surr h n
  | _ => .error .unassignedMajor

/-- The instructions of format FL. -/
def parseFL (major : Nat) (h : Hdr) (bd : BodyFL) : Dec Instr :=
  match major with
  | 24 => do
    rdZero bd.fn
    rdNone bd.d
    return .trap h bd.imm
  | 27 => do
    rdZero bd.fn
    rdNone bd.d
    return .bkpt h bd.imm
  | 28 => do
    rdZero bd.imm
    rdZero bd.fn
    rdNone bd.d
    return .nop h
  | 55 => do
    rdZero bd.fn
    let d ← rdOp bd.d
    return .movi h d bd.imm
  | _ => .error .unassignedMajor

/-- The instructions of format FB. -/
def parseFB (major : Nat) (h : Hdr) (bd : BodyFL) : Dec Instr :=
  match major with
  | 0 => do
    rdZero bd.fn
    rdNone bd.d
    return .br h bd.imm
  | 1 => do
    rdZero bd.fn
    let a ← rdOp bd.d
    return .brx h a bd.imm
  | 2 => do
    rdZero bd.fn
    let d ← rdOp bd.d
    return .call h d bd.imm
  | 4 => do
    rdZero bd.imm
    rdZero bd.fn
    let a ← rdOp bd.d
    return .ret h a
  | 5 => do
    rdZero bd.imm
    rdZero bd.fn
    rdNone bd.d
    return .exit h
  | 6 => do
    rdZero bd.fn
    rdNone bd.d
    return .meet h bd.imm
  | 7 =>
    match bd.fn.toNat with
    | 0 => do
      let a ← rdOp bd.d
      return .loop h a bd.imm
    | 1 => do
      return .loopImm h bd.d bd.imm
    | _ => .error .badCode
  | 8 => do
    rdZero bd.fn
    let a ← rdOp bd.d
    return .loopv h a bd.imm
  | 9 => do
    rdZero bd.imm
    rdZero bd.fn
    rdNone bd.d
    return .lpop h
  | 25 => do
    rdZero bd.imm
    rdZero bd.fn
    rdNone bd.d
    return .rfe h
  | 26 => do
    rdZero bd.imm
    rdZero bd.fn
    rdNone bd.d
    return .yield h
  | _ => .error .unassignedMajor

/-- The instructions of format FM. -/
def parseFM (major : Nat) (h : Hdr) (bd : BodyFM) : Dec Instr :=
  match major with
  | 128 => do
    let ord ← rdCode (acqOf bd.order)
    let sz ← rdCode (sizeOf bd.size)
    let sx ← rdCode (boolOf bd.fn)
    let a ← rdOp bd.a
    let d ← rdOp bd.d
    return .ldS h sz sx ord d a bd.off bd.sb.toFin
  | 129 => do
    rdZero bd.sb
    let ord ← rdCode (relOf bd.order)
    let sz ← rdCode (sizeOf bd.size)
    rdZero bd.fn
    let a ← rdOp bd.a
    let d ← rdOp bd.d
    return .stS h sz ord a bd.off d
  | 130 => do
    let ord ← rdCode (acqOf bd.order)
    let sz ← rdCode (sizeOf bd.size)
    let sx ← rdCode (boolOf bd.fn)
    let a ← rdOp bd.a
    let d ← rdOp bd.d
    return .ldH h sz sx ord d a bd.off bd.sb.toFin
  | 131 => do
    rdZero bd.sb
    let ord ← rdCode (relOf bd.order)
    let sz ← rdCode (sizeOf bd.size)
    rdZero bd.fn
    let a ← rdOp bd.a
    let d ← rdOp bd.d
    return .stH h sz ord a bd.off d
  | 132 => do
    rdZero bd.order
    let sz ← rdCode (sizeOf bd.size)
    let sx ← rdCode (boolOf bd.fn)
    let a ← rdOp bd.a
    let d ← rdOp bd.d
    return .ldK h sz sx d a bd.off bd.sb.toFin
  | 133 => do
    rdZero bd.sb
    rdZero bd.order
    let sz ← rdCode (sizeOf bd.size)
    rdZero bd.fn
    let a ← rdOp bd.a
    let d ← rdOp bd.d
    return .stK h sz a bd.off d
  | 134 => do
    let ord ← rdCode (acqOf bd.order)
    let sz ← rdCode (sizeOf bd.size)
    let sx ← rdCode (boolOf bd.fn)
    let a ← rdOp bd.a
    let d ← rdOp bd.d
    return .ldC h sz sx ord d a bd.off bd.sb.toFin
  | 135 => do
    rdZero bd.sb
    let ord ← rdCode (relOf bd.order)
    let sz ← rdCode (sizeOf bd.size)
    rdZero bd.fn
    let a ← rdOp bd.a
    let d ← rdOp bd.d
    return .stC h sz ord a bd.off d
  | 136 => do
    let ord ← rdCode (acqOf bd.order)
    let sz ← rdCode (sizeOf bd.size)
    rdZero bd.fn
    let a ← rdOp bd.a
    let d ← rdOp bd.d
    return .ldu h sz ord d a bd.off bd.sb.toFin
  | 137 => do
    rdZero bd.order
    rdZero bd.size
    let w ← rdCode (fin4Of bd.fn)
    let a ← rdOp bd.a
    let d ← rdOp bd.d
    return .ldt h w d a bd.off bd.sb.toFin
  | 152 => do
    rdZero bd.order
    let (wide, ordf) ← rdCode (atSizeOf bd.size)
    let op ← rdCode (atOf bd.fn)
    let a ← rdOp bd.a
    let d ← rdOp bd.d
    return .atomS h op wide ordf a bd.off d bd.sb.toFin
  | 153 => do
    rdZero bd.order
    let (wide, ordf) ← rdCode (atSizeOf bd.size)
    let op ← rdCode (atOf bd.fn)
    let a ← rdOp bd.a
    let d ← rdOp bd.d
    return .atomH h op wide ordf a bd.off d bd.sb.toFin
  | 154 => do
    rdZero bd.order
    let (wide, ordf) ← rdCode (atSizeOf bd.size)
    let op ← rdCode (atOf bd.fn)
    let a ← rdOp bd.a
    let d ← rdOp bd.d
    return .atomC h op wide ordf a bd.off d bd.sb.toFin
  | 155 => do
    rdZero bd.sb
    rdZero bd.order
    let (wide, ordf) ← rdCode (atSizeOf bd.size)
    let op ← rdCode (atOf bd.fn)
    let a ← rdOp bd.a
    let d ← rdOp bd.d
    return .redS h op wide ordf a bd.off d
  | 156 => do
    rdZero bd.sb
    rdZero bd.order
    let (wide, ordf) ← rdCode (atSizeOf bd.size)
    let op ← rdCode (atOf bd.fn)
    let a ← rdOp bd.a
    let d ← rdOp bd.d
    return .redH h op wide ordf a bd.off d
  | 157 => do
    rdZero bd.sb
    rdZero bd.order
    let (wide, ordf) ← rdCode (atSizeOf bd.size)
    let op ← rdCode (atOf bd.fn)
    let a ← rdOp bd.a
    let d ← rdOp bd.d
    return .redC h op wide ordf a bd.off d
  | 158 => do
    rdZero bd.order
    let (wide, ordf) ← rdCode (atSizeOf bd.size)
    let sp ← rdCode (spOf bd.fn)
    let a ← rdOp bd.a
    let d ← rdOp bd.d
    return .cas h sp wide ordf a bd.off d bd.sb.toFin
  | 169 =>
    match bd.fn.toNat with
    | 0 => do
      rdZero bd.sb
      rdZero bd.order
      rdZero (bd.size - 3)
      let a ← rdOp bd.a
      let d ← rdOp bd.d
      return .barInit h a bd.off d
    | 1 => do
      rdZero bd.order
      rdZero (bd.size - 3)
      let a ← rdOp bd.a
      let d ← rdOp bd.d
      return .barArrive h d a bd.off bd.sb.toFin
    | 2 => do
      rdZero bd.sb
      rdZero bd.order
      rdZero (bd.size - 3)
      let a ← rdOp bd.a
      let d ← rdOp bd.d
      return .barWait h a bd.off d
    | _ => .error .badCode
  | 170 =>
    match bd.fn.toNat with
    | 0 => do
      rdZero bd.sb
      rdZero bd.order
      rdZero (bd.size - 4)
      let a ← rdOp bd.a
      let d ← rdOp bd.d
      return .arrInit h a bd.off d
    | 1 => do
      rdZero bd.sb
      rdZero bd.order
      rdZero (bd.size - 4)
      let a ← rdOp bd.a
      let d ← rdOp bd.d
      return .arrAdd h a bd.off d
    | 2 => do
      rdZero bd.sb
      rdZero bd.order
      rdZero (bd.size - 4)
      let a ← rdOp bd.a
      let d ← rdOp bd.d
      return .arrWait h a bd.off d
    | 3 => do
      rdZero bd.order
      rdZero (bd.size - 4)
      let a ← rdOp bd.a
      let d ← rdOp bd.d
      return .arrRead h d a bd.off bd.sb.toFin
    | _ => .error .badCode
  | 176 => do
    rdZero bd.off
    rdZero bd.sb
    rdZero bd.order
    rdZero bd.size
    rdZero bd.fn
    let a ← rdOp bd.a
    let d ← rdOp bd.d
    return .ereg h a d
  | 177 =>
    match bd.fn.toNat with
    | 0 => do
      rdZero bd.sb
      rdZero bd.order
      rdZero (bd.size - 4)
      let a ← rdOp bd.a
      let d ← rdOp bd.d
      return .esamp h a bd.off d
    | 1 => do
      rdZero bd.sb
      rdZero bd.order
      rdZero (bd.size - 4)
      let a ← rdOp bd.a
      let d ← rdOp bd.d
      return .esampW h a bd.off d
    | _ => .error .badCode
  | 178 => do
    rdZero bd.sb
    rdZero bd.order
    rdZero (bd.size - 4)
    rdZero bd.fn
    let a ← rdOp bd.a
    let d ← rdOp bd.d
    return .esampB h a bd.off d
  | 179 => do
    rdZero bd.order
    rdZero (bd.size - 4)
    let p ← rdCode (fin8Of bd.fn)
    let a ← rdOp bd.a
    let d ← rdOp bd.d
    return .eld h d a bd.off p bd.sb.toFin
  | 180 => do
    rdZero bd.off
    rdZero bd.sb
    rdZero bd.order
    rdZero bd.size
    rdZero bd.fn
    let a ← rdOp bd.a
    let d ← rdOp bd.d
    return .edecay h a d
  | 181 => do
    rdZero bd.off
    rdZero bd.sb
    rdZero bd.order
    rdZero bd.size
    rdZero bd.fn
    let a ← rdOp bd.a
    rdNone bd.d
    return .eflush h a
  | 182 => do
    rdZero bd.off
    rdZero bd.sb
    rdZero bd.order
    rdZero bd.size
    rdZero bd.fn
    let a ← rdOp bd.a
    rdNone bd.d
    return .eclr h a
  | 217 => do
    rdZero bd.off
    rdZero bd.order
    rdZero bd.size
    rdZero bd.fn
    let a ← rdOp bd.a
    let d ← rdOp bd.d
    return .tget h d a bd.sb.toFin
  | _ => .error .unassignedMajor

/-- The instructions of format FX. -/
def parseFX (major : Nat) (h : Hdr) (bd : BodyFX) : Dec Instr :=
  match major with
  | 184 => do
    rdZero bd.mod
    rdZero bd.fn
    let fmt ← rdCode (mfmtOf bd.fmt)
    let reuse ← rdCode (bool1Of bd.reuse)
    let x ← rdIdx bd.b
    let a ← rdOp bd.a
    let acc ← rdIdx bd.d
    return .mma h fmt acc a x bd.cv.toFin reuse
  | 185 =>
    match bd.fn.toNat with
    | 0 => do
      rdZero bd.mod
      rdZero bd.fmt
      rdZero bd.reuse
      rdNone bd.b
      let pa ← rdPs bd.a
      rdNone bd.d
      return .cvdeclSet h bd.cv.toFin pa
    | 1 => do
      rdZero bd.mod
      rdZero bd.fmt
      rdZero bd.reuse
      rdNone bd.b
      let pa ← rdPs bd.a
      rdNone bd.d
      return .cvdeclAdd h bd.cv.toFin pa
    | _ => .error .badCode
  | 186 => do
    rdZero bd.mod
    rdZero bd.fn
    rdZero bd.fmt
    rdZero bd.reuse
    rdZero bd.cv
    rdNone bd.b
    let a ← rdOp bd.a
    let x ← rdIdx bd.d
    return .xres h x a
  | 187 => do
    rdZero bd.mod
    rdZero bd.fn
    rdZero bd.fmt
    rdZero bd.reuse
    rdZero bd.cv
    rdNone bd.b
    rdNone bd.a
    let x ← rdIdx bd.d
    return .xrel h x
  | 188 => do
    let sh ← rdCode (boolOf bd.fn)
    rdZero bd.fmt
    rdZero bd.reuse
    rdZero bd.cv
    let b ← rdOp bd.b
    let a ← rdOp bd.a
    let x ← rdIdx bd.d
    return .xld h sh x a b bd.mod.toFin
  | 189 => do
    rdZero bd.mod
    rdZero bd.fn
    rdZero bd.fmt
    rdZero bd.reuse
    rdZero bd.cv
    let b ← rdOp bd.b
    let a ← rdOp bd.a
    let x ← rdIdx bd.d
    return .xsc h x a b
  | 190 => do
    rdZero bd.mod
    rdZero bd.fn
    rdZero bd.fmt
    rdZero bd.reuse
    rdZero bd.cv
    rdNone bd.b
    rdNone bd.a
    let acc ← rdIdx bd.d
    return .accClr h acc
  | 191 => do
    let bf ← rdCode (boolOf bd.fn)
    rdZero bd.fmt
    rdZero bd.reuse
    rdZero bd.cv
    rdNone bd.b
    let acc ← rdIdx bd.a
    let d ← rdOp bd.d
    return .accMv h bf d acc bd.mod.toFin
  | 192 => do
    let sh ← rdCode (boolOf bd.fn)
    rdZero bd.fmt
    rdZero bd.reuse
    rdZero bd.cv
    rdNone bd.b
    let a ← rdOp bd.a
    let acc ← rdIdx bd.d
    return .accLd h sh acc a bd.mod.toFin
  | 193 => do
    let sh ← rdCode (boolOf bd.fn)
    rdZero bd.fmt
    rdZero bd.reuse
    rdZero bd.cv
    rdNone bd.b
    let a ← rdOp bd.a
    let acc ← rdIdx bd.d
    return .accSt h sh a acc bd.mod.toFin
  | 194 => do
    rdZero bd.fn
    rdZero bd.fmt
    rdZero bd.reuse
    rdZero bd.cv
    rdNone bd.b
    rdNone bd.a
    let d ← rdOp bd.d
    return .mstat h d bd.mod.toFin
  | _ => .error .unassignedMajor

/-- The body format of a MAJOR (R97 to R109). -/
inductive Fmt where | f3 | fi | fl | fb | fm | fx
  deriving DecidableEq, Repr

/-- The format the opcode map gives a MAJOR; none for an unassigned one. -/
def fmtOf (major : Nat) : Option Fmt :=
  if major ∈ [3, 32, 33, 34, 35, 36, 37, 38, 39, 40, 41, 42, 43, 44, 45, 46, 47, 48, 49, 50, 51, 52, 53, 54, 64, 65, 66, 67, 68, 69, 70, 71, 72, 73, 74, 75, 76, 77, 78, 79, 80, 81, 83, 84, 85, 96, 97, 98, 99, 100, 101, 102, 103, 112, 113, 114, 115, 116, 117, 118, 119, 120, 121, 122, 123, 124, 200, 201, 202, 203, 204, 208, 209, 210, 211, 212, 213, 216, 218] then some .f3
  else if major ∈ [29, 30, 82, 168, 219, 220] then some .fi
  else if major ∈ [24, 27, 28, 55] then some .fl
  else if major ∈ [0, 1, 2, 4, 5, 6, 7, 8, 9, 25, 26] then some .fb
  else if major ∈ [128, 129, 130, 131, 132, 133, 134, 135, 136, 137, 152, 153, 154, 155, 156, 157, 158, 169, 170, 176, 177, 178, 179, 180, 181, 182, 217] then some .fm
  else if major ∈ [184, 185, 186, 187, 188, 189, 190, 191, 192, 193, 194] then some .fx
  else none

/-- The fields of an Igfin word read as an instruction, before the operand checks. -/
def parseWord (w : DWord) : Dec Instr :=
  let r := RawInstr.unpack w
  match fmtOf r.major.toNat with
  | some .f3 => parseF3 r.major.toNat r.hdr (BodyF3.unpack r.body)
  | some .fi => parseFI r.major.toNat r.hdr (BodyFI.unpack r.body)
  | some .fl => parseFL r.major.toNat r.hdr (BodyFL.unpack r.body)
  | some .fb => parseFB r.major.toNat r.hdr (BodyFL.unpack r.body)
  | some .fm => parseFM r.major.toNat r.hdr (BodyFM.unpack r.body)
  | some .fx => parseFX r.major.toNat r.hdr (BodyFX.unpack r.body)
  | none => .error .unassignedMajor

/-- Decoding of a 64-bit Igfin word: the instruction, or why the encoding is none (R89). -/
def decode (w : DWord) : Dec Instr :=
  match parseWord w with
  | .error r => .error r
  | .ok i => match firstReject i with | some r => .error r | none => .ok i

/-- Decoding of a bytecode word (R347). -/
def decodeByte (w : Word) : Dec Instr :=
  let d := (w.extractLsb' 23 3)
  let a := (w.extractLsb' 20 3)
  let b := (w.extractLsb' 17 3)
  let i := (w.extractLsb' 0 17)
  let bad : Dec Instr := .error .badBytecode
  match (w.extractLsb' 26 6).toNat with
  | 1 => if a = 0 ∧ b = 0 then .ok (.bMovi d.toFin i) else bad
  | 2 => if a = 0 ∧ b = 0 ∧ i.extractLsb' 16 1 = 0 then .ok (.bMovh d.toFin (i.extractLsb' 0 16)) else bad
  | 3 => if i = 0 then .ok (.bAdd d.toFin a.toFin b.toFin) else bad
  | 4 => if i = 0 then .ok (.bSub d.toFin a.toFin b.toFin) else bad
  | 5 => if i = 0 then .ok (.bAnd d.toFin a.toFin b.toFin) else bad
  | 6 => if i = 0 then .ok (.bOr d.toFin a.toFin b.toFin) else bad
  | 7 => if b = 0 then .ok (.bAddi d.toFin a.toFin i) else bad
  | 8 => if b = 0 then (if h : i.toNat < 64 then .ok (.bShl d.toFin a.toFin ⟨i.toNat, h⟩) else bad) else bad
  | 9 => if b = 0 then (if h : i.toNat < 64 then .ok (.bShr d.toFin a.toFin ⟨i.toNat, h⟩) else bad) else bad
  | 10 => if a = 0 ∧ b = 0 ∧ i.toNat % 8 = 0 then
      (if h : i.toNat / 8 < 8 then .ok (.bLdp d.toFin ⟨i.toNat / 8, h⟩) else bad) else bad
  | 11 => if b = 0 then .ok (.bLdw d.toFin a.toFin i) else bad
  | 12 => if b = 0 then .ok (.bStw a.toFin d.toFin i) else bad
  | 13 => match skipOf d with | some cc => .ok (.bSkip cc a.toFin b.toFin i) | none => bad
  | 14 => if d = 0 ∧ a = 0 ∧ b = 0 ∧ i ≠ 0 ∧ i.toNat < 256 then .ok (.bLoop (BitVec.ofNat 8 i.toNat)) else bad
  | 15 => if d = 0 ∧ a = 0 ∧ b = 0 ∧ i = 0 then .ok .bEndl else bad
  | 16 => if d = 0 ∧ i = 0 then .ok (.bLaunch a.toFin b.toFin) else bad
  | 17 => if d = 0 ∧ a = 0 ∧ b = 0 ∧ i = 0 then .ok .bWaitl else bad
  | 18 => if d = 0 ∧ i = 0 then .ok (.bIb a.toFin b.toFin) else bad
  | 19 => if d = 0 ∧ b = 0 ∧ i = 0 then .ok (.bTkt a.toFin) else bad
  | 20 => if d = 0 ∧ a = 0 ∧ b = 0 ∧ i = 0 then .ok .bEndp else bad
  | _ => bad

/-- Little-endian value of a list of bytes (R4). -/
def leNat : List Byte → Nat
  | [] => 0
  | b :: bs => b.toNat + 256 * leNat bs

/-- The first `n` bytes of a number, little-endian (R4). -/
def leBytes : Nat → Nat → List Byte
  | 0, _ => []
  | n + 1, x => BitVec.ofNat 8 x :: leBytes n (x / 256)

/-- Decoding of the bytes of an Igfin instruction as they lie in code space. -/
def decodeBytes (bs : List Byte) : Dec Instr := decode (BitVec.ofNat 64 (leNat (bs.take 8)))

/-- Decoding of the bytes of a bytecode word (R347). -/
def decodeByteBytes (bs : List Byte) : Dec Instr := decodeByte (BitVec.ofNat 32 (leNat (bs.take 4)))

/-- The instruction the decoder reads from an opcode-table row's word of `nbits` bits. A row of at most 32
bits is a bytecode word (R347); a longer one is an Igfin word (R86). DESIGN CHOICE (log entry 5; unsafe). -/
def decodeTableWord (nbits w : Nat) : Option Instr :=
  if nbits ≤ 32 then
    match decodeByteBytes (leBytes 4 (w % 2 ^ nbits)) with | .ok i => some i | .error _ => none
  else
    match decodeBytes (leBytes 8 (w % 2 ^ nbits)) with | .ok i => some i | .error _ => none

end Sys2Proof
end

