-- ==== Sys2Proof/Config.lean ====
section
/-!
DEFINITION. What is fixed for one Balril 960 (R2), and the free values: opaque constants that stand
for every value the manual leaves open. Nothing in Lean can evaluate an opaque constant, so a claim
holds for every value it may have.
-/

namespace Sys2Proof.Config

/-- Compute dies of a module (R2). -/
abbrev dies : Nat := 4
/-- Enabled cores of a die, the logical cores 0 to 79 (R2, R45). -/
abbrev cores : Nat := 80
/-- Physical cores of a die: 80 enabled and 4 spares. -/
abbrev physCores : Nat := 84
/-- Slices of a core (R2). -/
abbrev slices : Nat := 4
/-- Group slots of a slice (R252). -/
abbrev slots : Nat := 32
/-- Threads of a group (R250). -/
abbrev groupThreads : Nat := 32
/-- Groups of a team at most (R250). -/
abbrev teamGroups : Nat := 32
/-- V blocks in a slice's pool (R251). -/
abbrev vPool : Nat := 192
/-- Cores of a region (R2, R250). -/
abbrev regionCores : Nat := 8
/-- Regions of a die (R2). -/
abbrev regionsPerDie : Nat := 10
/-- Operand buffer of a core, in KiB (R266). -/
abbrev opBufKiB : Nat := 512
/-- Granules of 4 KiB in a core's scratchpad (R268). -/
abbrev granules : Nat := 768
/-- Last valid offset in a core's scratchpad (R175). -/
abbrev spLast : Nat := 0x2FFFFF
/-- Copy slots of a core (R233). -/
abbrev copySlots : Nat := 32
/-- Calls a core's buffer holds for each type (R237). -/
abbrev callBuf : Nat := 16
/-- Stores of which a read may still find the earlier contents: the newest ones. DESIGN CHOICE (log entry 11; unsafe). -/
abbrev oldStores : Nat := 1024
/-- Entries of an estimator unit's input buffer (R279). -/
abbrev estBuf : Nat := 64
/-- Contributions one estimator unit stages (R211). -/
abbrev estStage : Nat := 4096
/-- Pending successor pushes of a die (R244). -/
abbrev pendPush : Nat := 256
/-- Frontier entries of a Sieve (R255). -/
abbrev frontier : Nat := 32
/-- Bytes of a group's frame area (R365). -/
abbrev frameArea : Nat := 6144
/-- Mapped-queue slots of the Proofer (R345). -/
abbrev queueSlots : Nat := 256
/-- Bytecode engines of the Proofer (R347). -/
abbrev engines : Nat := 16
/-- Entries of the journal (R393). -/
abbrev journalLen : Nat := 65536
/-- Core cycles in one microsecond at 1.75 GHz (R3). -/
abbrev cyclesPerUs : Nat := 1750
/-- First physical address of the CXL tier (R267). -/
abbrev cxlBase : Nat := 2 ^ 40
/-- Bytes of HBM in the module (R267). -/
abbrev hbmBytes : Nat := 512 * 2 ^ 30
/-- Bytes of the CXL tier at most (R385). -/
abbrev cxlBytes : Nat := 4 * 2 ^ 40
/-- Spare cores of a die. -/
abbrev spares : Nat := 4

/-- FREE VALUE: an unspecified 32-bit value (R30, R95), one for each key. DESIGN CHOICE (log entry 1; safe). -/
opaque freeWord : Nat → Word
/-- FREE VALUE: an unspecified byte that a copy writes (R7, R232), one for each key. DESIGN CHOICE (log entry 1; safe). -/
opaque freeByte : Nat → Byte
/-- FREE VALUE: a byte of a team's carve-out that nothing has written (R24): the carve-out's key and the offset.
DESIGN CHOICE (log entry 1; safe). -/
opaque freeShared : Nat → Nat → Byte
/-- FREE VALUE: an unspecified choice between two allowed outcomes, one for each key. DESIGN CHOICE (log entry 1; safe). -/
opaque freeBool : Nat → Bool
/-- FREE VALUE: which of the two binary32 values that bracket the exact result a transcendental
instruction delivers (R156): `true` is the upper one. A fixed function of the function and input bits.
DESIGN CHOICE (log entry 40; safe). -/
opaque pickUpper : Nat → Word → Bool
/-- FREE VALUE: the secret of the device identity key (R398). DESIGN CHOICE (log entry 19; unsafe). -/
opaque identitySecret : List Byte
/-- FREE VALUE: the bytes of Uliord's fused root key (R396). DESIGN CHOICE (log entry 19; unsafe). -/
opaque rootKey : List Byte
/-- FREE VALUE: the fused floor of the firmware security version (R396). DESIGN CHOICE (log entry 19; unsafe). -/
opaque svnFloor : Nat
/-- FREE VALUE: the signed part, security version and signature of a firmware image (R396); the manual
gives no image layout. DESIGN CHOICE (log entry 19; unsafe). -/
opaque imageBody : List Byte → List Byte
/-- FREE VALUE: the security version a firmware image carries (R396). DESIGN CHOICE (log entry 19; unsafe). -/
opaque imageSvn : List Byte → Nat
/-- FREE VALUE: the Ed448 signature a firmware image carries (R396). DESIGN CHOICE (log entry 19; unsafe). -/
opaque imageSig : List Byte → List Byte
/-- FREE VALUE: the key a master port holds before any KEYSET (R386). DESIGN CHOICE (log entry 18; safe). -/
opaque masterKey : Nat → List Byte
/-- FREE VALUE: the content of the hub flash as delivered (R396): slot and byte offset. DESIGN CHOICE (log entry 19; unsafe). -/
opaque flashByte : Nat → Nat → Byte
/-- FREE VALUE: the number of bytes the delivered image of a firmware slot has. DESIGN CHOICE (log entry 19; unsafe). -/
opaque flashLen : Nat → Nat

end Sys2Proof.Config
end

