-- ==== Sys2Proof/Machine/State.lean ====
section
/-!
DEFINITION. The state of a Balril 960 as plain data: every register, memory, queue, buffer and table the
manual gives the machine; the fault and refusal reasons; and the state right after device reset.
-/

namespace Sys2Proof.Machine

/-- A sparse map in canonical form: keys strictly rising (Laws/Sparse.lean). -/
abbrev SMap (α : Type) := List (Nat × α)

/-- A byte memory: address and byte, addresses strictly rising, no entry equal to 0, which an unlisted
address reads as. -/
abbrev Memory := List Host.Cell

/-- A register file: register number and value, numbers strictly rising, no zero value listed (R28). -/
abbrev RegMap := SMap Word

/-- The memory form: addresses strictly rising and no listed byte zero. DESIGN CHOICE (log entry 8; unsafe). -/
def Memory.wf (m : Memory) : Bool := (m.map Prod.fst).Pairwise (· < ·) && m.all (fun c => c.2 != 0)

/-- The form of a memory whose unlisted bytes are unspecified (R24): addresses strictly rising. -/
def Memory.sorted (m : Memory) : Bool := (m.map Prod.fst).Pairwise (· < ·)

/-! ### Traps (R363, R364) -/

/-- The causes of R363, which enter a handler, and of R364, which kill. -/
inductive Cause where
  | illop | vrange | stallshort | badclause | badtarget | loopdepth | loopcount | trap | bkpt
  | misalign | spaddr | shrange | stackrange | cluaddr | spowner | sptype | barahead | barinit | copyfault
  | estregion | estdesc | estarg | eststage | cvstate | xinvalid | xformat | xrecord | xspace | xbusy | xrange
  | badscale | nomatctx | copydesc | badcall | tokwin | callfault | taskq | taskcnt | claimlimit | regdeadlock
  | timeout | frameovf | badsave | uncorr | cancel | nofit | ctxlost
  deriving DecidableEq, Repr

/-- A fault a thread will raise when it begins its next clause (R226, R239). -/
structure PendFault where
  cause : Cause
  opnd : BitVec 11
  value : Word
  deriving DecidableEq, Repr

/-! ### Threads (R28, R38 to R44) -/

/-- A loop stack entry (R39). -/
structure LoopEntry where
  start : CodeAddr
  endc : CodeAddr
  count : BitVec 24
  deriving DecidableEq, Repr

/-- Where a thread stands with respect to its team's Sieve (R255, R256). CURVEC, the waiting vectors of the
frontier and the overflow part of PARKVEC (R52, R53) are read off these. -/
inductive Place where
  /-- In CURVEC: it runs the current block. -/
  | cur
  /-- In the waiting vector of a frontier entry, by slot. -/
  | entry (slot : Nat)
  /-- Overflow-parked. -/
  | overflow
  /-- Nowhere: it has exited. -/
  | gone
  deriving DecidableEq, Repr

/-- What a wait-parked thread waits for (R196, R200). -/
inductive WaitOn where
  /-- A barrier word: target team, offset in its carve-out, the token's phase, the address used. -/
  | bar (team : Nat) (off : Nat) (phase : BitVec 16) (addr : Word)
  /-- An arrival word on the die: its address and the recorded generation. -/
  | arr (addr : Nat) (gen : Word)
  deriving DecidableEq, Repr

/-- A wait that parked a thread: the PC of the wait, which the Sieve keeps (R56), the operand code of its
address, and what it waits for. -/
structure Wait where
  pc : DWord
  opnd : BitVec 11
  on : WaitOn
  /-- The loop stack at the wait. -/
  loops : List LoopEntry
  /-- The T registers that were defined at the wait, which a run of it after a restore or a fault at it finds again
  (R30, R56). -/
  tdef : BitVec 16
  deriving DecidableEq, Repr

/-- The state that follows a thread (R28, R38 to R41, R44). -/
structure Thread where
  /-- PC (R38). -/
  pc : DWord
  /-- MR (R38). -/
  mr : DWord
  /-- Loop stack, top first; LDEPTH is its length (R39). -/
  loops : List LoopEntry
  /-- V registers (R28). -/
  v : RegMap
  /-- T registers (R28, R30). DESIGN CHOICE (log entry 4; safe). -/
  t : RegMap
  /-- Which T registers hold a defined value in the current block (R30). DESIGN CHOICE (log entry 4; safe). -/
  tdef : BitVec 16
  /-- P registers; bit 0 is P0 (R31). -/
  p : BitVec 8
  /-- HELPER (R40). -/
  helper : Bool
  /-- EXITED (R40). -/
  exited : Bool
  /-- INTRAP (R40). -/
  intrap : Bool
  /-- TRAPCAUSE.CODE (R41, R363). -/
  cause : BitVec 8
  /-- TRAPPC (R41). -/
  trappc : DWord
  /-- TRAPINFO (R41). -/
  trapinfo : DWord
  /-- The CLOCK.HI shadow (R44). -/
  clkHi : Word
  place : Place
  /-- Wait-parked by a block-ending wait (R256); its WAITVEC bit. -/
  wait : Option Wait
  /-- Deferred by yield (R132); its DEFVEC bit. -/
  deferred : Bool
  /-- Faults the thread raises at its next clause boundary (R226, R239). -/
  faults : List PendFault
  deriving DecidableEq, Repr

/-! ### Groups (R28, R32, R33) -/

/-- A resource whose readers R92 and R95 concern. -/
inductive Res where
  | reg (code : Nat)
  | pred (n : Nat)
  | sys (n : Nat)
  deriving DecidableEq, Repr

/-- A fixed-latency result not yet visible: the resource and the first cycle in which a first pass sees it (R92). -/
structure Window where
  res : Res
  from_ : Nat
  /-- For a system register written by mts: the value it had before (R135). -/
  old : Word
  deriving DecidableEq, Repr

/-- What a variable-latency operation is (R94). -/
inductive OpKind where | load | atomic | eld | tget | seq | xld | acc
  deriving DecidableEq, Repr

/-! ### Places, agents and what they have seen of memory (R282 to R292) -/

/-- A place in on-die memory. -/
inductive Loc where
  /-- Die scratchpad: die and address. -/
  | die (d addr : Nat)
  /-- A team's carve-out: team and offset. -/
  | sh (team off : Nat)
  /-- A group's spill stack. -/
  | st (team gix off : Nat)
  deriving DecidableEq, Repr
/-- A memory that several agents of a die share: a die's scratchpad, a team's carve-out, or main memory in a view. -/
inductive Mem where
  | die (d : Nat)
  | sh (team : Nat)
  | main (view : Nat)
  deriving DecidableEq, Repr
/-- On whose behalf an access is made: context, cluster, team and group (R287). -/
structure Author where
  ctx : Nat
  cluster : Nat
  team : Nat
  gix : Nat
  deriving DecidableEq, Repr
/-- An agent that reads memory (R282): a thread by team and index in team, every thread of a team, or a core's copy engine. -/
inductive Agent where
  | thread (team tit : Nat)
  | team (id : Nat)
  | copy (die core : Nat)
  deriving DecidableEq, Repr
/-- How far an agent has come in the history of its die's view: the latest point at which it has read, and the points from
which an acquire of the team's, the cluster's and the device's scope lets it read (R286, R289). -/
structure Sight where
  seen : Nat
  team : Nat
  clu : Nat
  dev : Nat
  deriving DecidableEq, Repr
/-- Who reads: on whose behalf, the agents, how far they have come, and the point up to which the writes of the group itself
are to be found (R235). -/
structure Reader where
  by_ : Author
  agents : List Agent
  sight : Sight
  own : Nat
  deriving DecidableEq, Repr
/-- A release of a scope below the device's that has come after a store which is not performed yet (R287): whose, its scope,
the number of the last write before it, the unit of the store that releases (none for a fence, whose later writes all do), and
whether it is a full fence. -/
structure Release where
  by_ : Author
  scope : Scope
  at_ : Nat
  place : Option (Mem × Nat)
  full : Bool
  deriving DecidableEq, Repr
/-- A write of the recent past of a view (R285, R290): on whose behalf it was made, none for the Proofer, the hub and the
units; its memory; each address with the byte that stood there before; its number in the history of the views; the agents that
have read or made it; how far its makers had acquired, which an acquire of what they write hands on (R296); and the releases
that came between its issue and its performing. -/
structure Old where
  by_ : Option Author
  mem : Mem
  cells : List (Nat × Byte)
  no : Nat
  known : List Agent
  carry : Sight
  rels : List Release
  deriving DecidableEq, Repr

/-- What an accumulator instruction does once the steps before it are complete (R229). -/
inductive AccAct where
  | none
  /-- acc.mv: bf16 form, accumulator, first register code, the receiving threads. -/
  | mv (bf : Bool) (acc : Nat) (d : Nat) (threads : List Nat)
  /-- acc.ld: accumulator, team-shared, address, and who reads. -/
  | ld (acc : Nat) (sh : Bool) (addr : Nat) (r : Reader)
  /-- acc.st: accumulator, team-shared, address. -/
  | st (acc : Nat) (sh : Bool) (addr : Nat)
  /-- mstat: register code and the receiving threads. -/
  | stat (d : Nat) (threads : List Nat)
  deriving DecidableEq, Repr

/-- The read of a thread's load that may still be made anew: of which place, of how many bytes, by which load or xld, for an
xld to which offset of the buffer, the cycle of its issue and that in which it is performed at the latest, the point of the
view's history that it is no older than, and how many writes it stays behind the newest (R185, R290, R292, R295). -/
structure LateRead where
  tid : Nat
  loc : Loc
  size : Nat
  i : Instr
  off : Nat
  since : Nat
  due : Nat
  floor : Nat
  age : Nat
  deriving DecidableEq, Repr

/-- A variable-latency operation that keeps its scoreboard slot busy (R33). A slot is busy exactly when a
group's list holds an operation of that slot. -/
structure PendOp where
  slot : Nat
  kind : OpKind
  /-- Results to write: thread, register code, value. Thread 32 stands for the group (a K register). -/
  writes : List (Nat × Nat × Word)
  /-- Predicate results: thread, predicate, value. -/
  preds : List (Nat × Nat × Bool)
  /-- Flags to set when the result is written (R43). -/
  flags : BitVec 6
  /-- The destination registers of the operation: thread and register code (R95). -/
  regs : List (Nat × Nat)
  /-- tget: the helper mask of the record taken (R243). -/
  hmask : Option Word
  /-- eld: requests the home unit has not yet performed. -/
  need : Nat
  acc : AccAct
  /-- The steps of the team that were issued before an accumulator instruction and that it waits for (R229). -/
  waits : List Nat
  /-- xld: the record, and the offset and byte of each byte to place (R223). -/
  xrec : Nat
  xbytes : List (Nat × Byte)
  /-- Loads and xld: the reads that have yet to be performed; until then `writes` and `xbytes` hold what an earlier read
  would give. -/
  reads : List LateRead
  /-- The threads for which the code block of the operation has ended, so that it gives them no T register (R30). -/
  ended : List Nat
  deriving DecidableEq, Repr

/-- The reuse latch of a group (R227, R50). -/
structure Latch where
  valid : Bool
  code : Nat
  /-- The threads whose rows it holds. -/
  held : List Nat
  /-- Word i of thread t at key 8 × t + i. -/
  rows : RegMap
  deriving DecidableEq, Repr

/-- The state a group's 32 threads share (R28, R41). -/
structure Group where
  /-- GIX, SLICE and SLOT of GROUPID (R41). -/
  gix : Nat
  slice : Nat
  slot : Nat
  /-- VBLK and KBLK of GROUPID (R41). -/
  vblk : Nat
  kblk : Nat
  /-- The pool blocks it holds, in the order of its registers; the first holds V0 to V7 (R50). -/
  blocks : List Nat
  /-- ROLE (R41, R251). -/
  role : BitVec 3
  /-- MODE.FTZ (R41). -/
  ftz : Bool
  /-- CHKSB.EN (R41). -/
  chksb : Bool
  /-- NFLAGS[5:0]: SAT, NX, UF, OF, DZ, NV (R41). -/
  nflags : BitVec 6
  /-- The last cycle in which a completing instruction set flags, and the flags set in it (R43). -/
  flagsAt : Nat
  flagsSet : BitVec 6
  /-- K registers (R28). -/
  k : RegMap
  threads : List Thread
  /-- Busy scoreboard slots (R33). -/
  ops : List PendOp
  latch : Latch
  /-- The earliest cycle of the group's next first pass (R91). -/
  nextIssue : Nat
  /-- The cycle of the last pass of its last instruction. -/
  lastPass : Nat
  /-- Fixed-latency results not yet visible (R92). -/
  windows : List Window
  /-- The clause whose first instruction the group has issued (R78, R81, R83). -/
  clauseAt : Option CodeAddr
  /-- The current instruction has begun and back-pressure holds it part-way (R217, R264). -/
  held : Bool
  /-- The group stalls in claim for this many blocks (R245). -/
  claim : Option Nat
  /-- The group stalls in token until the window of this number, the oldest when it came to stall, closes (R240). -/
  tokWait : Option Nat
  /-- The spill stack (R266); an unlisted byte reads as zero. DESIGN CHOICE (log entry 8; unsafe). -/
  stack : Memory
  deriving DecidableEq, Repr

/-! ### Teams (R52 to R54) -/

/-- A valid frontier entry (R53). -/
structure FEntry where
  slot : Nat
  addr : DWord
  age : Nat
  deriving DecidableEq, Repr

/-- A convergence register (R37, R228). -/
structure CvReg where
  declared : BitVec 1024
  signed : BitVec 1024
  issued : Bool
  done : Bool
  params : Bool
  acc : Nat
  xidx : Nat
  fmt : Nat
  reuse : Bool
  acode : Nat
  /-- The issued step has begun (R224). -/
  begun : Bool
  /-- The issued step, by number. -/
  step : Option Nat
  /-- The A run and scale run as each signer's registers held them when it signed (R226): register j of the run of
  thread t in team at key 16 × t + j. -/
  snap : RegMap
  deriving DecidableEq, Repr

/-- A token window (R240): its number, base, length, and the retired tokens by their distance from the base. -/
structure TokWin where
  id : Nat
  base : Word
  len : Nat
  retired : List Nat
  deriving DecidableEq, Repr

/-- Which launch a team belongs to: a node of a graph run, or a dispatch queue (R362). -/
inductive Origin where
  | node (run : Nat) (idx : Nat)
  | dispatch (ctx : Nat) (queue : Nat)
  deriving DecidableEq, Repr

/-- A team (R250), with its Sieve (R255). -/
structure Team where
  id : Nat
  ctx : Nat
  origin : Origin
  /-- TEAMID (R41). -/
  teamid : Word
  /-- The unit the team was placed with; teams of one cluster share it. -/
  clusterNo : Nat
  /-- CSIZE and TIC of CLUSTERID (R41). -/
  csize : Nat
  tic : Nat
  /-- Placement: DIEID, COREID.CORE (R41). -/
  die : Nat
  core : Nat
  /-- The core the team was placed on first, which orders its staged contributions (R211, R280). -/
  firstCore : Nat
  /-- The handler's entry clause address; 0 for none (R52, R354). -/
  handler : DWord
  /-- Whether the team has an instruction budget, and what remains of it (R264). -/
  budgeted : Bool
  budget : DWord
  /-- SHARED and STACK of the launch node (R354, R271). -/
  shsize : Nat
  stackSize : Nat
  /-- The team-shared carve-out (R175); an unlisted byte holds an unspecified value (R24). -/
  shared : Memory
  /-- Key of the unspecified values of the carve-out. -/
  sharedKey : Nat
  /-- The operand-buffer range of the team: first KiB and KiB (R221, R357). -/
  opBase : Nat
  opSize : Nat
  /-- The operand buffer, by byte offset in the core's buffer (R266). DESIGN CHOICE (log entry 8; unsafe). -/
  opbuf : Memory
  /-- The 4 KiB local granules the team holds (R271). -/
  localGran : List Nat
  /-- The team's place in the context's save region (R373). -/
  saveOff : Nat
  saveLen : Nat
  /-- The valid frontier entries (R53). -/
  frontier : List FEntry
  /-- CURADDR (R52). -/
  curaddr : DWord
  /-- X0 to X15 (R34). -/
  x : List (BitVec 128)
  /-- CV0 to CV7 (R37). -/
  cv : List CvReg
  /-- STATUS.MATCTX: the bound matrix context (R36). -/
  matctx : Option Nat
  /-- Open token windows, oldest first (R240). -/
  windows : List TokWin
  /-- Windows that the team's kill has closed (R265); fragments sent before may still wait for their tokens (R323). -/
  shut : List TokWin
  /-- Tokens retired so far as R308 has it, by tskip or by a TRI: the token, and whether tskip retired it (R324). -/
  retired : List (Word × Bool)
  groups : List Group
  /-- The cause of the team's kill (R265). -/
  killed : Option Cause
  /-- The team stands halted for pre-emption (R369). -/
  halted : Bool
  deriving DecidableEq, Repr

/-! ### Matrix contexts (R36, R218, R226, R230) -/

/-- An issued tile step. -/
structure MStep where
  id : Nat
  /-- The cycle in which it issued, which orders it among the pending ones (R225). -/
  cycle : Nat
  cv : Nat
  acc : Nat
  xidx : Nat
  fmt : Nat
  reuse : Bool
  acode : Nat
  /-- Threads in team by rank, and those that signed (R219, R226). -/
  rows : List Nat
  signers : List Nat
  /-- The signers' runs at signing (R226). -/
  snap : RegMap
  deriving DecidableEq, Repr

/-- A step that runs: the accumulator elements it will write, its flags, or the bad scale it met. -/
structure MRun where
  step : MStep
  result : List (Nat × Word)
  flags : BitVec 3
  bad : Option (Word × BitVec 11)
  deriving DecidableEq, Repr

/-- A bound matrix context. -/
structure MatCtx where
  die : Nat
  core : Nat
  idx : Nat
  team : Nat
  /-- C[i][j] of accumulator n at key 1024 × n + 32 × i + j (R36). -/
  acc : RegMap
  /-- ACCSTAT[2:0]: IV, OF, UF (R41). -/
  flags : BitVec 3
  /-- The last cycle in which a tile step set flags, and the flags set in it (R43). -/
  flagsAt : Nat
  flagsSet : BitVec 3
  /-- ACCSTAT.RESV, ACC and RESK (R41, R230). -/
  resv : Bool
  accf : Nat
  resk : Nat
  /-- Sequence index of each accumulator (R230). -/
  seq : List Nat
  pending : List MStep
  running : Option MRun
  deriving DecidableEq, Repr

/-! ### Estimator units (R201 to R214, R278, R279) -/

/-- A registered region (R202, R203). -/
structure Region where
  die : Nat
  num : Nat
  ctx : Nat
  desc : Nat
  base : Nat
  count : Nat
  eps : Word
  wmin : Word
  entry : DWord
  queue : Nat
  det : Bool
  dropped : Word
  deriving DecidableEq, Repr

/-- A contribution on its way or staged (R205, R206, R211). -/
structure Contrib where
  /-- Its number in the issue order, which orders one thread's contributions (R211). -/
  no : Nat
  ctx : Nat
  die : Nat
  /-- The core of the unit that stages it; source core, TEAMID and thread index in team, which order it (R211, R280). -/
  core : Nat
  srcCore : Nat
  teamid : Word
  tid : Nat
  /-- The word's die scratchpad address. -/
  addr : Nat
  region : Nat
  /-- esampb: a batch (n, mean, S); otherwise (weight, sample). -/
  batch : Bool
  w : Word
  x : Word
  sb : Word
  deriving DecidableEq, Repr

/-- A request in an estimator unit's input buffer (R279). -/
inductive EstReq where
  | contrib (c : Contrib)
  /-- eld: team, group, slot, thread, address, destination code, predicate. -/
  | read (team gix slot tid addr d p : Nat)
  deriving DecidableEq, Repr

/-- The input buffer of one core's unit, oldest first. -/
structure EstUnit where
  die : Nat
  core : Nat
  inbuf : List EstReq
  /-- Contributions staged at the core, in issue order (R211). -/
  staged : List Contrib
  deriving DecidableEq, Repr

/-! ### Copies and calls (R231 to R239) -/

/-- The five kinds of copy (R232). -/
inductive CopyKind where | g2s | s2g | s2s | die | net
  deriving DecidableEq, Repr

/-- A copy in flight (R231 to R235). -/
structure Copy where
  id : Nat
  kind : CopyKind
  die : Nat
  core : Nat
  ctx : Nat
  team : Nat
  gix : Nat
  /-- The eight descriptor words. -/
  desc : List Word
  /-- Address of the arrival word; none for #0. -/
  arrive : Option Nat
  acq : Bool
  rel : Bool
  scope : Scope
  /-- Bytes of the box whose destination units are written, by number. -/
  done : List Nat
  /-- Bytes of the box whose source units have been read (R274), by number. -/
  buf : SMap Byte
  /-- Bytes whose writes are performed, and of them those that the arrival word has been raised by (R276). -/
  raised : Nat
  told : Nat
  /-- The release has been sent to the destination die (R284). -/
  sent : Bool
  /-- The earlier copies, calls and pending pushes of the group, which a release waits for (R235, R293). -/
  after : List Nat
  /-- The cycle of its issue, and for whom it reads (R235). -/
  issued : Nat
  reader : Reader
  /-- Virtual address of the page the copy stalls on (R377). -/
  stalled : Option Nat
  deriving DecidableEq, Repr

/-- The four kinds of call (R236). -/
inductive CallKind where | lat | glz | cut | icg
  deriving DecidableEq, Repr

/-- A coprocessor call: in the core's buffer, or accepted by its unit (R237). -/
structure Call where
  id : Nat
  kind : CallKind
  die : Nat
  core : Nat
  ctx : Nat
  team : Nat
  gix : Nat
  tid : Nat
  /-- The 16 words of the record. -/
  words : List Word
  accepted : Bool
  /-- The unit has performed the call but holds its return record back (R312, R321, R323, R328). -/
  waiting : Bool
  /-- The token window of an ordered call, the one that held its token when it was issued (R240, R323). -/
  win : Nat
  /-- The number of the last write of the views when it was sent (R299, R341). -/
  sentAt : Nat
  deriving DecidableEq, Repr

/-! ### Cutter and Icing (R304 to R328) -/

/-- An accepted primitive (R313, R314). -/
structure Prim where
  /-- Words 4 to 12: the vertices. -/
  verts : List Word
  primid : Word
  token : Word
  cull : Nat
  mayKill : Bool
  culled : Bool
  deriving DecidableEq, Repr

/-- A late entry (R318, R319). -/
structure Late where
  primid : Word
  token : Word
  z : Word
  x : Nat
  y : Nat
  deriving DecidableEq, Repr

/-- A bin of a pass that a primitive overlaps and that has not completed (R314, R317, R319 to R322). -/
structure Bin where
  /-- Bin index (R317). -/
  idx : Nat
  /-- The slot of a resolved bin; none while it is unresolved. -/
  slot : Option Nat
  /-- Late entries kept so far (R319). -/
  late : List Late
  /-- The places of the fragment area in use (R318, R320). -/
  frags : List Nat
  /-- The accepted BINDONE that waits: its call and FCOUNT (R321). -/
  done : Option (Nat × Nat)
  /-- Counters that the bin adds at its completion: BINS_TOUCHED and FRAGS_RESOLVED (R324). -/
  touched : Nat
  resolvedN : Nat
  deriving DecidableEq, Repr

/-- A stream-path fragment that waits for its commit (R323). -/
structure StreamFrag where
  call : Nat
  token : Word
  pixel : Nat
  words : List Word
  /-- The window its token lies in. -/
  win : Nat
  /-- Every token of that window from its base to its own has been retired (R323). -/
  ready : Bool
  deriving DecidableEq, Repr

/-- An open pass (R304, R311). -/
structure Pass where
  id : Nat
  die : Nat
  /-- The handle: Cutter instance and pass slot (R304). -/
  cutter : Nat
  slot : Nat
  team : Nat
  ctx : Nat
  /-- The 16 words of the descriptor (R311). -/
  desc : List Word
  prims : List Prim
  culledN : Nat
  /-- PASS.END: its call, TBASE, TCOUNT (R312). -/
  ended : Option (Nat × Nat × Nat)
  resolving : Bool
  /-- END had been accepted and its whole range retired at one time, from which on the pass resolves (R310): the tokens of
  the range that tskip had retired then (R324). -/
  due : Option Nat
  /-- Tokens of the range of END that tskip retired, once the pass resolves (R324). -/
  skipped : Nat
  /-- Index of the next bin the Cutter takes (R317). -/
  nextBin : Nat
  /-- Next slot in ring order (R317). -/
  nextSlot : Nat
  bins : List Bin
  stream : List StreamFrag
  /-- Stream-path counters: FRAGS_PASSED and QUERY0 to QUERY3 (R324). -/
  streamPassed : List Nat
  /-- The pass has been abandoned (R327). -/
  abandoned : Bool
  deriving DecidableEq, Repr

/-! ### Task queues (R241 to R244, R360 to R362) -/

/-- A task queue (R360). HEAD and TAIL count pops and pushes. -/
structure TaskQ where
  ctx : Nat
  num : Nat
  die : Nat
  ring : Nat
  logn : Nat
  head : Nat
  tail : Nat
  dtable : Nat
  dnode : Nat
  maxteams : Nat
  /-- TEAMID of the next dispatch team, and the teams alive (R362). -/
  nextTeam : Nat
  alive : Nat
  /-- Dispatch has stopped (R362). -/
  stopped : Bool
  /-- The last tget that it has taken: its cycle, core and group slot (R361). -/
  lastGet : Nat × Nat × Nat
  deriving DecidableEq, Repr

/-- A push that waits for space in its queue: a successor record of a tdone (R244), or a record of a plain spawn that the
queue has taken in its place behind the earlier ones (R242). -/
structure PendPush where
  id : Nat
  die : Nat
  ctx : Nat
  queue : Nat
  /-- The group whose instruction made it. -/
  team : Nat
  gix : Nat
  bytes : List Byte
  /-- The thread and the spawn that stalls for it; none for a tdone, which has gone on. -/
  by_ : Option (Nat × Instr)
  deriving DecidableEq, Repr

/-- Stores of one instruction that have issued and are not performed yet: those that one pass makes to one word of a bank
(R272), as thread, place and bytes in ascending thread index; the cycles of their issue and in which they are performed; the
releases of narrow scope that have come since; and the agents that go on only when they are performed, as they have acquired
what such a release orders, with the scope of that acquire (R185, R287, R289, R292). -/
structure LateStore where
  by_ : Author
  parts : List (Nat × Loc × List Byte)
  since : Nat
  due : Nat
  rels : List Release
  awaits : List (Agent × Scope)
  deriving DecidableEq, Repr

/-- What a region command at work has still to do (R210 to R212): an edecay, by a factor, or eclr on the words from `next` on
of those from `base`; or the merges of an eflush in order, and the region that an ereg registers after them (R203). -/
inductive RegionJob where
  | scale (factor : Option Word) (base count next : Nat)
  | merge (cs : List Contrib) (reg : Option Region)
  deriving DecidableEq, Repr
/-- A region command at work: the group and the threads that issued it, which know what it writes (R185, R400), the die, what it
has to do, and the cycle in which it acts on its next word (R279). -/
structure RegionOp where
  by_ : Author
  agents : List Agent
  die : Nat
  job : RegionJob
  due : Nat
  deriving DecidableEq, Repr

/-- A claim in a slice's queue (R245). -/
structure ClaimReq where
  die : Nat
  core : Nat
  slice : Nat
  team : Nat
  gix : Nat
  n : Nat
  deriving DecidableEq, Repr

/-! ### Scratchpad tags and region tables (R268 to R270) -/

/-- A region table entry in use (R269). -/
structure RegionEnt where
  die : Nat
  core : Nat
  idx : Nat
  owner : Nat
  est : Bool
  base : Nat
  limit : Nat
  deriving DecidableEq, Repr

/-- Owner tag and LOCAL bit of a range of 64-byte lines (R268). The first range that holds a line gives its
tag; a line in no range has owner 0 and LOCAL clear. -/
structure TagRange where
  die : Nat
  core : Nat
  line : Nat
  count : Nat
  owner : Nat
  loc : Bool
  deriving DecidableEq, Repr

/-! ### Main memory (R267, R283 to R285, R376) -/

/-- One view of main memory by physical address (R283): bytes, the write-order number of each byte's last
write, and the view's clock of five counts (R284). -/
structure View where
  mem : Memory
  order : SMap Nat
  clock : List Nat
  deriving DecidableEq, Repr

/-- A unit that a copy.die writes on another die: the die, the copy, the cells by scratchpad address, and the bytes
it raises by (R283, R298). Without cells it is the raise of a copy that releases (R284). -/
structure SpWrite where
  die : Nat
  copy : Nat
  cells : List Host.Cell
  bytes : Nat
  deriving DecidableEq, Repr

/-- A write being carried to other views (R284). -/
structure Carried where
  origin : Nat
  clock : List Nat
  /-- Number in the unit's write order (R285). -/
  order : Nat
  cells : List Host.Cell
  /-- Views it has yet to reach. -/
  dests : List Nat
  /-- The team whose copy wrote it; none for the Proofer, the hub and peers. -/
  team : Option Nat
  /-- On whose behalf it is made, and whether it fills a frame, of which no earlier contents are to be read (R298). -/
  by_ : Option Author
  fills : Bool
  /-- The copy that wrote it. -/
  copy : Option Nat
  sp : Option SpWrite
  deriving DecidableEq, Repr

/-- Where a page lives (R390, MAP). -/
inductive PagePlace where
  | resident (pa : Nat)
  | cxl (pa : Nat)
  | remote (peer : Nat) (pa : Nat)
  deriving DecidableEq, Repr

/-- A page of a context (R376, R377). -/
structure Page where
  va : Nat
  size : Nat
  place : PagePlace
  read : Bool
  write : Bool
  cow : Bool
  /-- The peer handle that MAP named. -/
  peer : Nat
  /-- Its frame was taken from HBMQUOTA. -/
  owned : Bool
  deriving DecidableEq, Repr

/-- A kernel as loaded into a context: its entry clause address and its data images (R23, R25, R402). -/
structure Kernel where
  entry : Nat
  shared : List Byte
  scratch : List Byte
  deriving DecidableEq, Repr

/-- Pre-emption state of a context (R369, R390). -/
inductive CtxRun where
  | running
  /-- CTXPREEMPT has been accepted: the session and master it came from, its journal number and SEQ. -/
  | preempting (sid : Nat) (master : Nat) (jseq : Nat) (seq : Word)
  | saved
  deriving DecidableEq, Repr

/-- A context (R380, R390). -/
structure Context where
  id : Nat
  /-- SAVEVA and SAVESIZE (R373, R390). -/
  saveVa : Nat
  saveSize : Nat
  /-- The save region by offset from SAVEVA. -/
  saveMem : Memory
  hbmQuota : Nat
  hbmUsed : Nat
  pages : List Page
  /-- Code space (R38, R77), by byte address. DESIGN CHOICE (log entry 5; unsafe). -/
  code : Memory
  /-- DESIGN CHOICE (log entry 5; unsafe). -/
  kernels : List Kernel
  /-- Contributions that were staged when the context was pre-empted (R280, R372). -/
  staged : List Contrib
  run : CtxRun
  /-- Sessions that have repeated a CTXPREEMPT which is not answered yet (R387). -/
  again : List Nat
  /-- R383: the context has been ended. -/
  ended : Bool
  /-- CTXDESTROY has been accepted; the resources go when the last team has completed. -/
  dying : Bool
  deriving DecidableEq, Repr

/-- What the model keeps of a saved group beside its save area. -/
structure SavedGroup where
  /-- VBLK at the save, which gives the length of the area (R50). -/
  vblk : Nat
  /-- The clause the group has begun (R83), and the claim it stalls in (R245). -/
  clause : Option CodeAddr
  claim : Option Nat
  /-- The threads whose rows the reuse latch holds (R227). -/
  latchHeld : List Nat
  /-- For each thread: the defined T registers (R30), and the faults it has yet to raise (R226, R239). -/
  threads : List (BitVec 16 × List PendFault)
  deriving DecidableEq, Repr

/-- A team saved in its context's save region (R371 to R374): where its areas lie, and what no area holds. -/
structure SavedTeam where
  ctx : Nat
  id : Nat
  origin : Origin
  teamid : Word
  clusterNo : Nat
  tic : Nat
  die : Nat
  firstCore : Nat
  off : Nat
  len : Nat
  /-- What the launch node fixes. -/
  shsize : Nat
  stackSize : Nat
  opSize : Nat
  opBase : Nat
  budgeted : Bool
  /-- A matrix context was bound. -/
  matrix : Bool
  groups : List SavedGroup
  windows : List TokWin
  retired : List (Word × Bool)
  /-- A kill that reached the team after its save (R238); it ends at the next placement round. -/
  doomed : Option Cause
  sharedKey : Nat
  /-- Offsets of the carve-out that hold a value (R24). -/
  sharedSet : List Nat
  /-- The CV registers: R54 holds their sets and CVSTATE; the runs as signed are kept here (R226). -/
  cv : List CvReg
  /-- Issued steps that have not begun, and sequence indices (R230). -/
  steps : List MStep
  seq : List Nat
  deriving DecidableEq, Repr

/-! ### The Proofer (R343 to R362) -/

/-- The execution of one buffer level of a packet (R349, R350). -/
structure Frame where
  /-- Address of the current packet, and packets left after it in this buffer. -/
  addr : Nat
  left : Nat
  packet : List Byte
  /-- The program, as loaded when the packet began (R347). -/
  code : List Word
  /-- Next word, steps so far, and open loops: first word of the body and runs left. -/
  pc : Nat
  steps : Nat
  loops : List (Nat × Nat)
  deriving DecidableEq, Repr

/-- A command queue (R343): the fields of its descriptor and what the Proofer keeps for it. -/
structure CmdQ where
  ctx : Nat
  num : Nat
  /-- Virtual address of the descriptor. -/
  desc : Nat
  ring : Nat
  logn : Nat
  head : Word
  tail : Word
  prog : Nat
  tickets : Nat
  wbase : Nat
  wsize : Nat
  idle : Nat
  fault : Nat
  faulted : Bool
  pending : Bool
  faultPc : Word
  /-- g0 to g7. -/
  g : List DWord
  /-- The hardware slot that maps it, its last signal time, its last packet end (R345, R346). -/
  slot : Option Nat
  lastSignal : Nat
  lastEnd : Nat
  /-- When it became PENDING, and its number in the order in which queues did (R346). -/
  pendSince : Nat
  pendNo : Nat
  /-- The packet in execution: frames, innermost first (R350). -/
  frames : List Frame
  /-- The engine that runs it. -/
  engine : Option Nat
  /-- Suspended in waitl (R349). -/
  waitl : Bool
  /-- The page that the Proofer is making resident for it (R377), and one that could not be made resident. -/
  stalled : Option Nat
  lost : Option Nat
  /-- Runs of this queue not yet complete. -/
  launches : List Nat
  deriving DecidableEq, Repr

/-- A signal that waits for a slot (R345): the queue and the new TAIL, none for a PENDING queue's own. -/
structure SigWait where
  ctx : Nat
  num : Nat
  tail : Option Word
  deriving DecidableEq, Repr

/-- State of a launch node (R354). -/
inductive NodeState where | waiting | running | done | failed | skipped | cancelled
  deriving DecidableEq, Repr

/-- A node of a running graph (R354, R356). -/
structure NodeRun where
  state : NodeState
  counter : Nat
  /-- Teams not yet ended, placed or not. -/
  left : Nat
  /-- From what cycle on its completion may be handled, once none is left. -/
  dueFrom : Nat
  /-- The first kill (R356): its cause, its cycle and the team's TEAMID. -/
  cause : Option Cause
  causeAt : Nat × Nat
  /-- GRAPHCANCEL has cancelled it. -/
  cancelled : Bool
  deriving DecidableEq, Repr

/-- A launched graph table (R355). -/
structure GraphRun where
  id : Nat
  ctx : Nat
  table : Nat
  queue : Nat
  /-- The nodes' 256-byte images as read at the launch. -/
  images : List (List Byte)
  nodes : List NodeRun
  deriving DecidableEq, Repr

/-- A unit of placement (R357): a team or a cluster, new or restored. -/
structure PlaceUnit where
  ctx : Nat
  origin : Origin
  /-- View 4's clock at the launch, which the start of each team acquires (R408). -/
  clock : List Nat
  /-- The command queue that launched it; none for dispatch. -/
  queue : Option Nat
  firstTeam : Nat
  teams : Nat
  /-- Further units of the same node behind this one. -/
  more : Nat
  /-- The node's image (R354). -/
  image : List Byte
  /-- Failed rounds as head (R359). -/
  fails : Nat
  /-- The saved teams it restores (R374). -/
  restore : List Nat
  deriving DecidableEq, Repr

/-- A Proofer engine (R347, R399). -/
structure Engine where
  queue : Option (Nat × Nat)
  /-- From what cycle on it may draw, once it is free (R353). -/
  freeFrom : Nat
  /-- Withdrawn for service. -/
  service : Bool
  deriving DecidableEq, Repr

/-! ### The hub (R385 to R399) -/

/-- What a session's key is (R385). -/
inductive SessKey where
  | master (m : Nat)
  | peer (key : List Byte)
  deriving DecidableEq, Repr

/-- An authenticated session (R385). -/
structure Session where
  sid : Nat
  port : Nat
  key : SessKey
  deriving DecidableEq, Repr

/-- A peer handle of a context (R389, R390). -/
structure Peer where
  ctx : Nat
  handle : Nat
  endpoint : List Byte
  key : List Byte
  deriving DecidableEq, Repr

/-- Status codes of commands (R388). -/
inductive Status where
  | ok | badsig | badseq | frozen | hsemreq | busy | badcmd | noroom | nospare | gone | badimage | badsignal | loadcheck
  deriving DecidableEq, Repr

/-- A response record (R391). -/
structure Response where
  sid : Nat
  jseq : Nat
  cmd : BitVec 16
  status : Status
  nextSeq : Word
  body : List Byte
  deriving DecidableEq, Repr

/-- What the hub sends out: responses, acknowledgements (R408), data to peers (R385) and copy.net writes. -/
inductive OutMsg where
  | response (r : Response)
  | ack (sid : Nat)
  | read (sid : Nat) (bytes : List Byte)
  | netWrite (handle : Nat) (addr : Nat) (bytes : List Byte)
  deriving DecidableEq, Repr

/-- A master port (R386, R387, R392). -/
structure Master where
  key : List Byte
  last : Word
  /-- Digest and response of the last command taken (R387). -/
  lastDigest : List Byte
  lastResp : Option Response
  frozen : Bool
  deriving DecidableEq, Repr

/-- A journal entry (R393). -/
structure JEntry where
  jseq : Nat
  time : Nat
  cmd : BitVec 16
  source : Nat
  status : Status
  seq : Word
  ctx : Word
  detail : Word
  digest : List Byte
  deriving DecidableEq, Repr

/-- A marker record (R396). -/
structure Marker where
  slot : Byte
  mseq : Word
  idig : List Byte
  check : List Byte
  deriving DecidableEq, Repr

/-- A firmware slot of the hub flash (R396): the image bytes. -/
abbrev FlashImage := List Byte

/-- A service operation in progress (R399). -/
inductive SvcOp where
  | engine (n : Nat)
  | stack (s : Nat)
  | core (die core : Nat) (spare : Bool)
  | port (p : Nat)
  deriving DecidableEq, Repr

/-- The service operation in progress, and the teams of a migration that it saves. -/
structure Svc where
  op : SvcOp
  teams : List Nat
  deriving DecidableEq, Repr

/-- The hub. -/
structure Hub where
  masters : List Master
  /-- HSEM: its holder and the end of the lease (R392). -/
  hsem : Option (Nat × Nat)
  journal : List JEntry
  jseq : Nat
  /-- CORRCOUNT (R381). -/
  corrcount : DWord
  /-- When a CORRECTED event was last journalled for an array (R381). -/
  corrTimes : List (ArrayId × Nat)
  /-- Firmware slots A and B, and the markers K0 and K1 (R396); `booted`: the marker that named the running slot. -/
  flash : List FlashImage
  markers : List Marker
  /-- The marker whose slot booted; none in the recovery loader (R396). -/
  booted : Option Marker
  recovery : Bool
  /-- The hub has yet to boot. -/
  needBoot : Bool
  sessions : List Session
  peers : List Peer
  outbox : List OutMsg
  svc : Option Svc
  /-- Ports out of service (R399). -/
  portsOut : List Nat
  /-- Core faults that wait for another service operation to end (R399). -/
  coreFaults : List (Nat × Nat)
  deriving DecidableEq, Repr

/-- A logical core's physical core when it is not its own number, and cores out of placement (R46, R399). -/
structure CoreMap where
  /-- Key die × 128 + core: physical core. -/
  phys : SMap Nat
  /-- Spares used on each die. -/
  sparesUsed : List Nat
  /-- Cores out of placement: die × 128 + core. -/
  out : List Nat
  deriving DecidableEq, Repr

/-! ### What moves next -/

/-- What the next step does: an event or command, an instruction of a group or of an engine, or the passing
of cycles. -/
inductive Act where
  | ev (i : Instr)
  | group (team gix : Nat)
  /-- An instruction of a group, of which no more than `n + 1` passes issue for now (R370). -/
  | part (team gix n : Nat)
  | engine (n : Nat)
  | tick (n : Nat)
  deriving DecidableEq, Repr

/-- Who the instruction in execution belongs to. -/
inductive Cursor where
  | none
  | group (team gix : Nat)
  /-- The same, for its first `n + 1` passes. -/
  | part (team gix n : Nat)
  | engine (n : Nat)
  deriving DecidableEq, Repr

/-- The state of the device. -/
structure State where
  /-- The device cycle count (R44). -/
  clock : Nat
  /-- The acts still to come, in order: inputs and the interleaving of the agents. When it is empty, the step
  chooses by the fixed rule of Machine/Sched.lean. DESIGN CHOICE (log entry 2; unsafe). -/
  agenda : List Act
  /-- DESIGN CHOICE (log entry 2; unsafe). -/
  cur : Cursor
  /-- Counter of the free values (the model's own field). DESIGN CHOICE (log entry 1; safe). -/
  nonce : Nat
  /-- Counter of ids. DESIGN CHOICE (log entry 2; unsafe). -/
  nextId : Nat
  /-- The number of the next main-memory write in the write orders (R285). DESIGN CHOICE (log entry 2; unsafe). -/
  writeNo : Nat
  contexts : List Context
  teams : List Team
  saved : List SavedTeam
  matctx : List MatCtx
  /-- Key die × 128 + core: the matrix context that began a step last (R218). -/
  turns : SMap Nat
  regions : List Region
  est : List EstUnit
  /-- Region commands at work. -/
  regionOps : List RegionOp
  copies : List Copy
  calls : List Call
  passes : List Pass
  taskqs : List TaskQ
  pushes : List PendPush
  claims : List ClaimReq
  /-- The last claim that a slice has taken, key (die × 128 + core) × 4 + slice: its cycle and group slot (R245). -/
  claimAt : SMap (Nat × Nat)
  /-- Die scratchpad bytes (R175): key die × 2^29 + address. DESIGN CHOICE (log entry 8; unsafe). -/
  scratch : Memory
  /-- Stores that have issued and are not performed yet, oldest first. -/
  late : List LateStore
  /-- The number of the last write in the history of the views. DESIGN CHOICE (log entry 11; unsafe). -/
  writes : Nat
  /-- The newest writes of the dies' views, newest first. DESIGN CHOICE (log entry 11; unsafe). -/
  olds : List Old
  /-- How far agents have come in the history of their views; an agent that is not listed stands at its start.
  DESIGN CHOICE (log entry 11; unsafe). -/
  sights : List (Agent × Sight)
  /-- Scratchpad lines with an uncorrectable error, marked poisoned (R382): key divided by 64. -/
  poisoned : List Nat
  /-- DESIGN CHOICE (log entry 21; unsafe). -/
  regionTab : List RegionEnt
  /-- DESIGN CHOICE (log entry 21; unsafe). -/
  tags : List TagRange
  views : List View
  carried : List Carried
  /-- Physical pages retired (R384), in 64 KiB units. -/
  retiredPages : List Nat
  cmdqs : List CmdQ
  engines : List Engine
  /-- Signals that wait for a slot (R345), oldest first. -/
  mapWaits : List SigWait
  /-- Proofer program slots (R347): slot and words. -/
  programs : SMap (List Word)
  /-- The lottery generator x (R353). -/
  lottery : Word
  runs : List GraphRun
  units : List PlaceUnit
  /-- An event that calls for a placement round has happened (R359); the cycles of the first such event and of the last. -/
  placeDue : Bool
  placeSince : Nat
  placeLast : Nat
  cores : CoreMap
  hub : Hub
  deriving DecidableEq, Repr

/-- What can stop the machine with a fault. -/
inductive Fault where
  /-- Raised by no instruction: the manual gives an effect to every step, so no meaning faults. Safe. -/
  | none
  deriving DecidableEq, Repr

/-- What can be refused. -/
inductive Refusal where
  /-- Raised by exec for an instruction that has no meaning in the model yet. Safe. -/
  | notModelled (mnemonic : String)
  deriving DecidableEq, Repr

/-- A view of main memory at reset: nothing listed, clock zero (R284). DESIGN CHOICE (log entry 7; unsafe). -/
def View.reset : View := ⟨[], [], [0, 0, 0, 0, 0]⟩

/-- A master port at reset (R386, R392). DESIGN CHOICE (log entry 18; safe). DESIGN CHOICE (log entry 31; unsafe). -/
def Master.reset (m : Nat) : Master := ⟨Config.masterKey m, 0, [], none, false⟩

/-- The image of a firmware slot as delivered (R396). DESIGN CHOICE (log entry 19; unsafe). -/
def flashImage (slot : Nat) : FlashImage := (List.range (Config.flashLen slot)).map (Config.flashByte slot)

/-- A marker record as delivered: none of its bytes written. DESIGN CHOICE (log entry 19; unsafe). -/
def Marker.blank : Marker := ⟨0xFF, 0xFFFFFFFF, [], []⟩

/-- The hub at device reset (R392, R393, R396). DESIGN CHOICE (log entry 19; unsafe). -/
def Hub.reset : Hub :=
  { masters := [Master.reset 0, Master.reset 1], hsem := none, journal := [], jseq := 0, corrcount := 0,
    corrTimes := [], flash := [flashImage 0, flashImage 1], markers := [Marker.blank, Marker.blank],
    booted := none, recovery := false, needBoot := true, sessions := [], peers := [], outbox := [], svc := none,
    portsOut := [], coreFaults := [] }

/-- The device right after reset: the clock and the lottery generator at their reset values (R44, R353), no
context, team or queue, nothing in any memory. -/
def State.reset : State :=
  { clock := 0, agenda := [], cur := .none, nonce := 0, nextId := 1, writeNo := 1, contexts := [], teams := [],
    saved := [], matctx := [], turns := [], regions := [], est := [], regionOps := [], copies := [], calls := [], passes := [],
    taskqs := [], pushes := [], claims := [], claimAt := [], scratch := [], late := [], writes := 0, olds := [], sights := [], poisoned := [], regionTab := [], tags := [],
    views := List.replicate 5 View.reset, carried := [], retiredPages := [], cmdqs := [],
    engines := List.replicate Config.engines ⟨none, 0, false⟩, mapWaits := [], programs := [], lottery := 1, runs := [], units := [],
    placeDue := false, placeSince := 0, placeLast := 0, cores := ⟨[], [0, 0, 0, 0], []⟩, hub := Hub.reset }

end Sys2Proof.Machine
end

