-- ==== Sys2Proof/Machine/Bits.lean ====
section
/-!
DEFINITION. Bit-field, sign-extension and byte-order helpers (R4, R26, R27, R57), and the sparse maps that
hold registers and memories.
-/

namespace Sys2Proof.Machine

/-! ### Integers and words -/

/-- zext(b, 32) and sext(b, 32) of R27 for a word. -/
abbrev uw (w : Word) : Int := (w.toNat : Int)
/-- The signed value of a word. -/
abbrev sw (w : Word) : Int := w.toInt
/-- An exact integer modulo 2^32 (R69). -/
def wrap32 (x : Int) : Word := BitVec.ofInt 32 x
/-- An exact integer modulo 2^64 (R69). -/
def wrap64 (x : Int) : DWord := BitVec.ofInt 64 x
/-- Clamp to an interval: sat_i and sat_n of R27. -/
def clampInt (lo hi x : Int) : Int := if x < lo then lo else if hi < x then hi else x
/-- sat_i(x, n). -/
def satI (n : Nat) (x : Int) : Int := clampInt (-(2 ^ (n - 1))) (2 ^ (n - 1) - 1) x
/-- sat_n(x, n). -/
def satN (n : Nat) (x : Int) : Int := clampInt 0 (2 ^ n - 1) x
/-- sext of the low `n` bits of a number. -/
def sextNat (n : Nat) (x : Nat) : Int :=
  let y : Nat := x % 2 ^ n
  if n = 0 then 0 else if y < 2 ^ (n - 1) then (y : Int) else (y : Int) - 2 ^ n
/-- Bits [lo+n-1:lo] of a number. -/
def bitsOf (x lo n : Nat) : Nat := x / 2 ^ lo % 2 ^ n
/-- Bit `i` of a number. -/
def bitOf (x i : Nat) : Bool := x / 2 ^ i % 2 == 1
/-- The 64-bit value of a pair: the even register holds the low word (R57). -/
def pairOf (lo hi : Word) : DWord := hi ++ lo
/-- The low word of a 64-bit value. -/
def loWord (x : DWord) : Word := x.extractLsb' 0 32
/-- The high word of a 64-bit value. -/
def hiWord (x : DWord) : Word := x.extractLsb' 32 32
/-- Element `j` of width `w` of a packed word (R57). -/
def element (w j : Nat) (x : Word) : Nat := bitsOf x.toNat (w * j) w
/-- A word with element `j` of width `w` replaced. -/
def setElement (w j : Nat) (v : Nat) (x : Word) : Word :=
  BitVec.ofNat 32 (x.toNat - element w j x * 2 ^ (w * j) + v % 2 ^ w * 2 ^ (w * j))
/-- ceil(a / b). -/
def ceilDiv (a b : Nat) : Nat := (a + b - 1) / b
/-- The least multiple of `b` at or above `a`. -/
def roundUp (a b : Nat) : Nat := ceilDiv a b * b
/-- Number of one bits. -/
def popNat : Nat → Nat → Nat
  | 0, _ => 0
  | n + 1, x => x % 2 + popNat n (x / 2)
/-- The indices below `n` of the one bits of a number, ascending. -/
def oneBits (n x : Nat) : List Nat := (List.range n).filter (bitOf x)
/-- The number whose one bits are the listed indices. -/
def bitsMask (l : List Nat) : Nat := l.foldl (fun a i => if bitOf a i then a else a + 2 ^ i) 0

/-! ### Byte order -/

/-- The little-endian bytes of a word. -/
def wordBytes (w : Word) : List Byte := leBytes 4 w.toNat
/-- The little-endian bytes of a 64-bit value. -/
def dwordBytes (w : DWord) : List Byte := leBytes 8 w.toNat
/-- The word whose little-endian bytes stand at offset `o` of a list; bytes past its end count as 0. -/
def wordAt (bs : List Byte) (o : Nat) : Word := BitVec.ofNat 32 (leNat ((bs.drop o).take 4))
/-- The 64-bit value at offset `o` of a list of bytes. -/
def dwordAt (bs : List Byte) (o : Nat) : DWord := BitVec.ofNat 64 (leNat ((bs.drop o).take 8))
/-- The 16-bit value at offset `o` of a list of bytes. -/
def halfAt (bs : List Byte) (o : Nat) : Nat := leNat ((bs.drop o).take 2)
/-- The byte at offset `o` of a list. -/
def byteAt (bs : List Byte) (o : Nat) : Byte := bs.getD o 0
/-- The words of a list of bytes, four bytes each. -/
def wordsOf (n : Nat) (bs : List Byte) : List Word := (List.range n).map (fun i => wordAt bs (4 * i))

/-! ### Sparse maps -/

/-- The value at a key, if listed. -/
def SMap.get? {α : Type} : SMap α → Nat → Option α
  | [], _ => none
  | (k, v) :: m, x => if k = x then some v else SMap.get? m x
/-- Set the value at a key. -/
def SMap.set {α : Type} : SMap α → Nat → α → SMap α
  | [], x, v => [(x, v)]
  | (k, w) :: m, x, v =>
    if x = k then (x, v) :: m else if x < k then (x, v) :: (k, w) :: m else (k, w) :: SMap.set m x v
/-- Remove a key. -/
def SMap.erase {α : Type} : SMap α → Nat → SMap α
  | [], _ => []
  | (k, w) :: m, x => if k = x then SMap.erase m x else (k, w) :: SMap.erase m x

/-- A register; one that is not listed holds 0. -/
def RegMap.read (m : RegMap) (n : Nat) : Word := (SMap.get? m n).getD 0
/-- Write a register, keeping the canonical form. -/
def RegMap.write (m : RegMap) (n : Nat) (v : Word) : RegMap := if v = 0 then SMap.erase m n else SMap.set m n v

/-- The byte at an address; an unlisted address reads as 0.
DESIGN CHOICE (log entry 7; unsafe). DESIGN CHOICE (log entry 8; unsafe). -/
def Memory.read (m : Memory) (a : Nat) : Byte := (SMap.get? m a).getD 0
/-- Write a byte, keeping the canonical form. -/
def Memory.write (m : Memory) (a : Nat) (b : Byte) : Memory := if b = 0 then SMap.erase m a else SMap.set m a b
/-- Read `n` bytes from an address. -/
def Memory.readN (m : Memory) (a n : Nat) : List Byte := (List.range n).map (fun i => m.read (a + i))
/-- Write bytes from an address. -/
def Memory.writeN (m : Memory) : Nat → List Byte → Memory
  | _, [] => m
  | a, b :: bs => Memory.writeN (m.write a b) (a + 1) bs
/-- Read a little-endian word. -/
def Memory.word (m : Memory) (a : Nat) : Word := BitVec.ofNat 32 (leNat (m.readN a 4))
/-- Read a little-endian 64-bit value. -/
def Memory.dword (m : Memory) (a : Nat) : DWord := BitVec.ofNat 64 (leNat (m.readN a 8))
/-- Write listed cells. -/
def Memory.writeCells (m : Memory) (cs : List Host.Cell) : Memory := cs.foldl (fun m c => m.write c.1 c.2) m
/-- Clear the bytes from `a` to `a + n - 1`. -/
def Memory.clear (m : Memory) (a n : Nat) : Memory := m.filter (fun c => c.1 < a || a + n ≤ c.1)

/-! ### Lists -/

/-- Replace the elements that satisfy a test. -/
def replaceIf {α : Type} (p : α → Bool) (f : α → α) (l : List α) : List α := l.map (fun a => if p a then f a else a)
/-- Replace the element at an index. -/
def modifyAt {α : Type} (f : α → α) : Nat → List α → List α
  | _, [] => []
  | 0, a :: l => f a :: l
  | n + 1, a :: l => a :: modifyAt f n l
/-- The first `n` elements of a list, the last one repeated with a default when it is too short. -/
def padTo {α : Type} (n : Nat) (d : α) (l : List α) : List α := (l ++ List.replicate (n - l.length) d).take n

end Sys2Proof.Machine
end

