-- ==== Sys2Proof/Machine/Flags.lean ====
section
/-!
DEFINITION. The sticky flags (R41, R63, R74, R76) and how they are set.
-/

namespace Sys2Proof.Machine

/-! ### Flags (R41, R63) -/

/-- NFLAGS bits: SAT NX UF OF DZ NV from bit 5 down. -/
abbrev FlagBits := BitVec 6
/-- NV. -/
def fNV : FlagBits := 1
/-- DZ. -/
def fDZ : FlagBits := 2
/-- OF. -/
def fOF : FlagBits := 4
/-- UF. -/
def fUF : FlagBits := 8
/-- NX. -/
def fNX : FlagBits := 16
/-- SAT. -/
def fSAT : FlagBits := 32
/-- A flag if a condition holds. -/
def flagIf (c : Bool) (f : FlagBits) : FlagBits := if c then f else 0

/-- set_flag of R27: an instruction's flags join NFLAGS unless the thread is a helper (R76). -/
def Group.setFlags (g : Group) (helper : Bool) (f : FlagBits) : Group :=
  if helper then g else { g with nflags := g.nflags ||| f }

/-- An instruction whose result is written in cycle `c` sets its flags (R43). -/
def Group.complete (g : Group) (c : Nat) (f : FlagBits) : Group :=
  { g with nflags := g.nflags ||| f, flagsAt := if f = 0 then g.flagsAt else c,
           flagsSet := if f = 0 then g.flagsSet else if g.flagsAt = c then g.flagsSet ||| f else f }
/-- The flags that an mts of cycle `c` cannot clear: a completing instruction has set them in that cycle (R43). -/
def Group.lateFlags (g : Group) (c : Nat) : FlagBits := if g.flagsAt = c then g.flagsSet else 0

/-- ACCSTAT flags: IV OF UF from bit 2 down. -/
abbrev AccFlags := BitVec 3
/-- ACCSTAT.UF. -/
def aUF : AccFlags := 1
/-- ACCSTAT.OF. -/
def aOF : AccFlags := 2
/-- ACCSTAT.IV. -/
def aIV : AccFlags := 4

/-- A tile step that completes in cycle `c` sets its flags in ACCSTAT (R43). -/
def MatCtx.complete (m : MatCtx) (c : Nat) (f : AccFlags) : MatCtx :=
  { m with flags := m.flags ||| f, flagsAt := if f = 0 then m.flagsAt else c,
           flagsSet := if f = 0 then m.flagsSet else if m.flagsAt = c then m.flagsSet ||| f else f }
/-- The ACCSTAT flags that an mts of cycle `c` cannot clear (R43). -/
def MatCtx.lateFlags (m : MatCtx) (c : Nat) : AccFlags := if m.flagsAt = c then m.flagsSet else 0

end Sys2Proof.Machine
end

