-- ==== Sys2Proof/Machine/Fp.lean ====
section
/-!
DEFINITION. The number formats and their exact arithmetic (R57 to R72, R152 to R164): values are dyadic
rationals, an operation is exact, and one function rounds.
-/

namespace Sys2Proof.Machine

/-! ### Values -/

/-- The value of an encoding: a NaN (signalling or not), an infinity, or (−1)^neg × m × 2^e. -/
inductive FV where
  | nan (sig : Bool)
  | inf (neg : Bool)
  | fin (neg : Bool) (m : Nat) (e : Int)
  deriving DecidableEq, Repr

/-- A floating-point format: precision with the hidden bit, exponents of the smallest and largest normal
numbers, and whether the highest exponent field encodes infinities and NaNs (R64). -/
structure FFmt where
  p : Nat
  emin : Int
  emax : Int
  ieee : Bool
  deriving DecidableEq, Repr

/-- binary32. -/
def ffF32 : FFmt := ⟨24, -126, 127, true⟩
/-- binary16. -/
def ffF16 : FFmt := ⟨11, -14, 15, true⟩
/-- BF16 (R61). -/
def ffBF16 : FFmt := ⟨8, -126, 127, true⟩
/-- FN8 (R64). -/
def ffFN8 : FFmt := ⟨4, -7, 7, false⟩
/-- FW8 (R64). -/
def ffFW8 : FFmt := ⟨3, -15, 15, false⟩
/-- FN4 (R64). -/
def ffFN4 : FFmt := ⟨2, 0, 2, false⟩

/-- Bits of the exponent field. -/
def FFmt.ebits (f : FFmt) : Nat := Nat.log2 (f.emax - f.emin).toNat + 1
/-- Width of an encoding. -/
def FFmt.width (f : FFmt) : Nat := f.p + f.ebits
/-- Exponent of the unit in the last place of subnormal numbers. -/
def FFmt.qmin (f : FFmt) : Int := f.emin - (f.p : Int) + 1

/-- The value of an encoding (R65, IEEE 754). -/
def FFmt.value (f : FFmt) (x : Nat) : FV :=
  let mb := f.p - 1
  let neg := bitOf x (f.width - 1)
  let ef := bitsOf x mb f.ebits
  let mf := bitsOf x 0 mb
  if f.ieee && ef = 2 ^ f.ebits - 1 then (if mf = 0 then .inf neg else .nan (!(bitOf x (mb - 1))))
  else if !f.ieee && neg && ef = 0 && mf = 0 then .nan true
  else if ef = 0 then .fin neg mf f.qmin
  else .fin neg (mf + 2 ^ mb) (f.qmin + (ef : Int) - 1)

/-- The canonical NaN (R58), or the NaN code of a narrow format (R64). -/
def FFmt.nan (f : FFmt) : Nat :=
  if f.ieee then (2 ^ f.ebits - 1) * 2 ^ (f.p - 1) + 2 ^ (f.p - 2) else 2 ^ (f.width - 1)
/-- An infinity. -/
def FFmt.inf (f : FFmt) (neg : Bool) : Nat :=
  (if neg then 2 ^ (f.width - 1) else 0) + (2 ^ f.ebits - 1) * 2 ^ (f.p - 1)
/-- The magnitude of the largest finite value. -/
def FFmt.maxMag (f : FFmt) : Nat :=
  if f.ieee then (2 ^ f.ebits - 1) * 2 ^ (f.p - 1) - 1 else 2 ^ (f.width - 1) - 1
/-- A zero. A narrow format has no negative zero (R64). -/
def FFmt.zero (f : FFmt) (neg : Bool) : Nat := if neg && f.ieee then 2 ^ (f.width - 1) else 0
/-- The sign bit of an encoding. -/
def FFmt.signBit (f : FFmt) (neg : Bool) : Nat := if neg then 2 ^ (f.width - 1) else 0

/-- The encoding of an element type that is a floating-point type. -/
def elFmt : ElTy → FFmt
  | .f16 => ffF16 | .bf16 => ffBF16 | .fn8 => ffFN8 | .fw8 => ffFW8 | .fn4 => ffFN4 | _ => ffF32

/-- Bit length of a number. -/
def bitLen (m : Nat) : Nat := if m = 0 then 0 else Nat.log2 m + 1

/-! ### Rounding (R62, R63) -/

/-- Whether rounding of a magnitude goes up: quotient, remainder, divisor. -/
def roundsUp (rm : Round) (neg : Bool) (q r d : Nat) : Bool :=
  match rm with
  | .rne => d < 2 * r || (2 * r == d && q % 2 == 1)
  | .rz => false
  | .rdn => neg && r != 0
  | .rup => !neg && r != 0

/-- m × 2^e rounded to a multiple of 2^q: the multiple, and whether it differs. -/
def roundAt (rm : Round) (neg : Bool) (m : Nat) (e q : Int) : Nat × Bool :=
  if q ≤ e then (m * 2 ^ (e - q).toNat, false)
  else
    let d := 2 ^ (q - e).toNat
    (m / d + (if roundsUp rm neg (m / d) (m % d) d then 1 else 0), m % d != 0)

/-- Overflow to infinity or to the largest finite value (R27, R61). -/
def overflowsToInf (rm : Round) (neg : Bool) : Bool :=
  match rm with | .rne => true | .rz => false | .rdn => neg | .rup => !neg

/-- IEEE rounding of a nonzero (−1)^neg × m × 2^e into an IEEE format: encoding and flags OF, UF, NX (R63).
Tininess is judged after rounding with unbounded exponent. -/
def roundNonzero (f : FFmt) (rm : Round) (neg : Bool) (m : Nat) (e : Int) : Nat × FlagBits :=
  let top : Int := e + (bitLen m : Int) - 1
  let qu : Int := top - (f.p : Int) + 1
  let u := roundAt rm neg m e qu
  let utop : Int := qu + (bitLen u.1 : Int) - 1
  if f.emax < utop then
    ((if overflowsToInf rm neg then f.inf neg else f.signBit neg + f.maxMag), fOF ||| fNX)
  else
    let q := if qu < f.qmin then f.qmin else qu
    let r := roundAt rm neg m e q
    (f.signBit neg + (if r.1 = 0 then 0 else r.1 + (q - f.qmin).toNat * 2 ^ (f.p - 1)),
      flagIf r.2 fNX ||| flagIf (r.2 && decide (utop < f.emin)) fUF)

/-- Whether a magnitude encoding is a nonzero subnormal number. -/
def FFmt.isSub (f : FFmt) (x : Nat) : Bool :=
  let mag := x % 2 ^ (f.width - 1)
  mag != 0 && mag < 2 ^ (f.p - 1)

/-- flush_sub of R27 on an encoding. -/
def FFmt.flush (f : FFmt) (x : Nat) : Nat := if f.isSub x then f.signBit (bitOf x (f.width - 1)) else x

/-- Rounding of a value into an IEEE format under FTZ or not (R27, R60, R63). `zneg` is the sign an exact
zero takes. -/
def roundFV (f : FFmt) (ftz : Bool) (rm : Round) (v : FV) : Nat × FlagBits :=
  match v with
  | .nan sig => (f.nan, flagIf sig fNV)
  | .inf n => (f.inf n, 0)
  | .fin n 0 _ => (f.zero n, 0)
  | .fin n m e =>
    let r := roundNonzero f rm n m e
    if ftz && f.isSub r.1 then (f.flush r.1, r.2 ||| fUF ||| fNX) else r

/-- round_narrow (R27, R67): rounding into FN8, FW8 or FN4. -/
def roundNarrow (f : FFmt) (v : FV) : Nat × FlagBits :=
  match v with
  | .nan sig => (f.nan, flagIf sig fNV)
  | .inf n => (f.signBit n + f.maxMag, fSAT ||| fNX)
  | .fin _ 0 _ => (0, 0)
  | .fin n m e =>
    let top : Int := e + (bitLen m : Int) - 1
    let qu : Int := top - (f.p : Int) + 1
    let q := if qu < f.qmin then f.qmin else qu
    let r := roundAt .rne n m e q
    let mag := if r.1 = 0 then 0 else r.1 + (q - f.qmin).toNat * 2 ^ (f.p - 1)
    -- a source above the largest finite value saturates
    let big := match f.value f.maxMag with
      | .fin _ mm em => decide (mm * 2 ^ (em - f.qmin).toNat < (roundAt .rup false m e f.qmin).1)
      | _ => false
    if big then (f.signBit n + f.maxMag, fSAT ||| fNX)
    else if mag = 0 then (0, fUF ||| fNX)
    else
      let tiny := decide (mag < 2 ^ (f.p - 1))
      (f.signBit n + mag, flagIf r.2 fNX ||| flagIf (r.2 && tiny) fUF)

/-- Rounding into any floating-point element type. -/
def roundElem (t : ElTy) (ftz : Bool) (rm : Round) (v : FV) : Nat × FlagBits :=
  if t.isNarrow then roundNarrow (elFmt t) v else roundFV (elFmt t) ftz rm v

/-! ### Inputs (R59, R60) -/

/-- Read an encoding under R60. -/
def FFmt.input (f : FFmt) (ftz : Bool) (x : Nat) : FV := f.value (if ftz then f.flush x else x)
/-- NV for a signalling NaN operand. -/
def FV.sigNV : FV → FlagBits | .nan true => fNV | _ => 0
/-- A NaN? -/
def FV.isNan : FV → Bool | .nan _ => true | _ => false
/-- A zero? -/
def FV.isZero : FV → Bool | .fin _ 0 _ => true | _ => false
/-- An infinity? -/
def FV.isInf : FV → Bool | .inf _ => true | _ => false
/-- The sign. -/
def FV.neg : FV → Bool | .inf n => n | .fin n _ _ => n | .nan _ => false
/-- The value with its sign inverted. -/
def FV.negate : FV → FV | .nan s => .nan s | .inf n => .inf (!n) | .fin n m e => .fin (!n) m e
/-- A quiet NaN. -/
def FV.qnan : FV := .nan false

/-! ### Exact operations -/

/-- The exact integer m × 2^(e − q) with sign, for q ≤ e. -/
def scaled (n : Bool) (m : Nat) (e q : Int) : Int :=
  let x : Int := ((m * 2 ^ (e - q).toNat : Nat) : Int)
  if n then -x else x

/-- A signed integer times 2^q. The sign of a zero is `zneg`. -/
def FV.ofInt (x q : Int) (zneg : Bool) : FV := .fin (if x = 0 then zneg else decide (x < 0)) x.natAbs q

/-- Exact sum of finite values; an exact zero sum of nonzero or opposite terms is −0 only in .rm (R152). -/
def addFin (rm : Round) (n1 : Bool) (m1 : Nat) (e1 : Int) (n2 : Bool) (m2 : Nat) (e2 : Int) : FV :=
  let q := if e1 < e2 then e1 else e2
  let z := if m1 = 0 ∧ m2 = 0 ∧ n1 = n2 then n1 else rm == .rdn
  FV.ofInt (scaled n1 m1 e1 q + scaled n2 m2 e2 q) q z

/-- Exact sum with its invalid cases (R59, R152). -/
def addFV (rm : Round) (x y : FV) : FV × FlagBits :=
  match x, y with
  | .nan s, .nan t => (.qnan, flagIf (s || t) fNV)
  | .nan s, _ => (.qnan, flagIf s fNV)
  | _, .nan t => (.qnan, flagIf t fNV)
  | .inf a, .inf b => if a = b then (.inf a, 0) else (.qnan, fNV)
  | .inf a, .fin .. => (.inf a, 0)
  | .fin .., .inf b => (.inf b, 0)
  | .fin n1 m1 e1, .fin n2 m2 e2 => (addFin rm n1 m1 e1 n2 m2 e2, 0)

/-- Exact product with its invalid cases (R59). -/
def mulFV (x y : FV) : FV × FlagBits :=
  match x, y with
  | .nan s, .nan t => (.qnan, flagIf (s || t) fNV)
  | .nan s, _ => (.qnan, flagIf s fNV)
  | _, .nan t => (.qnan, flagIf t fNV)
  | .inf a, .inf b => (.inf (a != b), 0)
  | .inf a, .fin b m _ => if m = 0 then (.qnan, fNV) else (.inf (a != b), 0)
  | .fin a m _, .inf b => if m = 0 then (.qnan, fNV) else (.inf (a != b), 0)
  | .fin n1 m1 e1, .fin n2 m2 e2 => (.fin (n1 != n2) (m1 * m2) (e1 + e2), 0)

/-- x × y + z, fused (R152): Inf × 0 is invalid even beside a quiet NaN z. -/
def fmaFV (rm : Round) (x y z : FV) : FV × FlagBits :=
  let p := mulFV x y
  let s := addFV rm p.1 z
  (s.1, p.2 ||| s.2)

/-- An exact operation's value rounded into a format, with all flags. -/
def finishFV (f : FFmt) (ftz : Bool) (rm : Round) (v : FV × FlagBits) : Nat × FlagBits :=
  let r := roundFV f ftz rm v.1
  (r.1, v.2 ||| r.2)

/-- The quotient of magnitudes with a sticky bit: enough bits for any rounding here. -/
def divMag (m1 : Nat) (e1 : Int) (m2 : Nat) (e2 : Int) : Nat × Int :=
  let k := 64 + bitLen m2
  let n := m1 * 2 ^ k
  (2 * (n / m2) + (if n % m2 = 0 then 0 else 1), e1 - e2 - k - 1)

/-- x / y (R155). -/
def divFV (x y : FV) : FV × FlagBits :=
  match x, y with
  | .nan s, .nan t => (.qnan, flagIf (s || t) fNV)
  | .nan s, _ => (.qnan, flagIf s fNV)
  | _, .nan t => (.qnan, flagIf t fNV)
  | .inf _, .inf _ => (.qnan, fNV)
  | .inf a, .fin b _ _ => (.inf (a != b), 0)
  | .fin a _ _, .inf b => (.fin (a != b) 0 0, 0)
  | .fin a m1 e1, .fin b m2 e2 =>
    if m2 = 0 then (if m1 = 0 then (.qnan, fNV) else (.inf (a != b), fDZ))
    else if m1 = 0 then (.fin (a != b) 0 0, 0)
    else let r := divMag m1 e1 m2 e2; (.fin (a != b) r.1 r.2, 0)

/-- Integer square root, bit by bit from bit `k − 1`. -/
def isqrtGo : Nat → Nat → Nat → Nat
  | 0, _, acc => acc
  | k + 1, n, acc => if (acc + 2 ^ k) * (acc + 2 ^ k) ≤ n then isqrtGo k n (acc + 2 ^ k) else isqrtGo k n acc
/-- floor(√n). -/
def isqrt (n : Nat) : Nat := isqrtGo (bitLen n / 2 + 1) n 0

/-- √(m × 2^e) for m > 0 as a magnitude with a sticky bit. -/
def sqrtMag (m : Nat) (e : Int) : Nat × Int :=
  let odd := e % 2 ≠ 0
  let m' := (if odd then 2 * m else m) * 2 ^ 160
  let e' := (if odd then e - 1 else e) - 160
  let r := isqrt m'
  (2 * r + (if r * r = m' then 0 else 1), e' / 2 - 1)

/-- √x (R155). -/
def sqrtFV (x : FV) : FV × FlagBits :=
  match x with
  | .nan s => (.qnan, flagIf s fNV)
  | .inf n => if n then (.qnan, fNV) else (.inf false, 0)
  | .fin n m e =>
    if m = 0 then (.fin n 0 0, 0) else if n then (.qnan, fNV)
    else let r := sqrtMag m e; (.fin false r.1 r.2, 0)

/-- 1/√(m × 2^e) for m > 0 as a magnitude with a sticky bit. -/
def rsqMag (m : Nat) (e : Int) : Nat × Int :=
  let odd := e % 2 ≠ 0
  let m' := if odd then 2 * m else m
  let e' := if odd then e - 1 else e
  let k := 128 + bitLen m'
  let r := isqrt (2 ^ (2 * k) / m')
  (2 * r + (if r * r * m' = 2 ^ (2 * k) then 0 else 1), -(e' / 2) - k - 1)

/-- 1/√x (R155). -/
def rsqFV (x : FV) : FV × FlagBits :=
  match x with
  | .nan s => (.qnan, flagIf s fNV)
  | .inf n => if n then (.qnan, fNV) else (.fin false 0 0, 0)
  | .fin n m e =>
    if m = 0 then (.inf n, fDZ) else if n then (.qnan, fNV)
    else let r := rsqMag m e; (.fin false r.1 r.2, 0)

/-- Order of two non-NaN values: −1, 0 or 1, with −0 equal to +0. -/
def cmpFV (x y : FV) : Int :=
  match x, y with
  | .inf a, .inf b => if a = b then 0 else if a then -1 else 1
  | .inf a, _ => if a then -1 else 1
  | _, .inf b => if b then 1 else -1
  | .fin n1 m1 e1, .fin n2 m2 e2 =>
    let q := if e1 < e2 then e1 else e2
    let d := scaled n1 m1 e1 q - scaled n2 m2 e2 q
    if d < 0 then -1 else if d = 0 then 0 else 1
  | _, _ => 0

/-- The encoding of a value that is already representable, in .rne. -/
def FFmt.encode (f : FFmt) (v : FV) : Nat := (roundFV f false .rne v).1

/-- minimumNumber or maximumNumber (R153) on encodings of F32 or another IEEE format. -/
def minmaxFV (f : FFmt) (ftz : Bool) (isMax : Bool) (a b : Nat) : Nat × FlagBits :=
  let a' := if ftz then f.flush a else a
  let b' := if ftz then f.flush b else b
  let x := f.value a'
  let y := f.value b'
  let fl := x.sigNV ||| y.sigNV
  match x, y with
  | .nan _, .nan _ => (f.nan, fl)
  | .nan _, _ => (b', fl)
  | _, .nan _ => (a', fl)
  | _, _ =>
    let c := cmpFV x y
    let aLess := c < 0 || (c == 0 && x.neg && !y.neg)
    (if aLess != isMax then a' else b', fl)

/-! ### Conversions (R70, R157) -/

/-- A finite value rounded to an integer: the integer, and whether it differs. -/
def toIntFin (rm : Round) (n : Bool) (m : Nat) (e : Int) : Int × Bool :=
  let r := roundAt rm n m e 0
  ((if n then -(r.1 : Int) else r.1), r.2)

/-- The range of an integer element type (R69). -/
def elRange (t : ElTy) : Int × Int :=
  match t with
  | .n4 => (0, 2 ^ 4 - 1) | .n8 => (0, 2 ^ 8 - 1) | .n16 => (0, 2 ^ 16 - 1) | .n32 => (0, 2 ^ 32 - 1)
  | .n64 => (0, 2 ^ 64 - 1) | .i4 => (-(2 ^ 3), 2 ^ 3 - 1) | .i8 => (-(2 ^ 7), 2 ^ 7 - 1)
  | .i16 => (-(2 ^ 15), 2 ^ 15 - 1) | .i64 => (-(2 ^ 63), 2 ^ 63 - 1) | _ => (-(2 ^ 31), 2 ^ 31 - 1)

/-- The signed integer types. -/
def elSigned : ElTy → Bool
  | .i4 => true | .i8 => true | .i16 => true | .i32 => true | .i64 => true | _ => false

/-- Value of an integer element. -/
def elInt (t : ElTy) (x : Nat) : Int := if elSigned t then sextNat t.bits x else ((x % 2 ^ t.bits : Nat) : Int)

/-- Float to integer (R70). -/
def toIntFV (t : ElTy) (rm : Round) (v : FV) : Int × FlagBits :=
  let r := elRange t
  match v with
  | .nan _ => (0, fNV)
  | .inf n => (if n then r.1 else r.2, fSAT ||| fNX)
  | .fin n m e =>
    let i := toIntFin rm n m e
    let c := clampInt r.1 r.2 i.1
    if c = i.1 then (c, flagIf i.2 fNX) else (c, fSAT ||| fNX)

/-- An integer as a value. A zero is +0. -/
def intFV (x : Int) : FV := FV.ofInt x 0 false

/-- Integral rounding of an F32 encoding (R157). -/
def rintF32 (ftz : Bool) (rm : Round) (a : Nat) : Nat × FlagBits :=
  match ffF32.input ftz a with
  | .nan s => (ffF32.nan, flagIf s fNV)
  | .inf n => (ffF32.inf n, 0)
  | .fin n m e =>
    let r := roundAt rm n m e 0
    (ffF32.encode (.fin n r.1 0), 0)

/-- The class mask of R158. -/
def fclassF32 (a : Nat) : Nat :=
  match ffF32.value a with
  | .nan true => 1
  | .nan false => 2
  | .inf n => if n then 4 else 512
  | .fin n 0 _ => if n then 32 else 64
  | .fin n _ _ =>
    if ffF32.isSub a then (if n then 16 else 128) else (if n then 8 else 256)

/-! ### Dot products (R71, R72) -/

/-- The value of element `j` of a packed operand of a float type, under R60. -/
def elemFV (t : ElTy) (ftz : Bool) (j : Nat) (x : Word) : FV := (elFmt t).input (ftz && (elFmt t).ieee) (element t.bits j x)

/-- Exact sum of a list of finite values as an integer times 2^q. -/
def sumFin (q : Int) : List FV → Int
  | [] => 0
  | .fin n m e :: l => scaled n m e q + sumFin q l
  | _ :: l => sumFin q l
/-- The least exponent of the finite values of a list, at most `q`. -/
def minExp (q : Int) : List FV → Int
  | [] => q
  | .fin _ _ e :: l => minExp (if e < q then e else q) l
  | _ :: l => minExp q l
/-- The exact sum of products that are not NaN and not infinities of both signs; +0 when it is zero. -/
def sumFV (l : List FV) : FV :=
  match l.find? FV.isInf with
  | some v => v
  | none => let q := minExp 0 l; FV.ofInt (sumFin q l) q false

/-- A float dot product (R71): element type, count, operands, scale and addend. A zero sum of the products is +0.
DEDUCED (log entry 49; unsafe). -/
def dotFloat (t : ElTy) (n : Nat) (ftz : Bool) (rm : Round) (a b scale c : Word) : Nat × FlagBits :=
  let as := (List.range n).map (fun j => elemFV t ftz j a)
  let bs := (List.range n).map (fun j => elemFV t ftz j b)
  let x := ffF32.input ftz scale.toNat
  let y := ffF32.input ftz c.toNat
  let ps := as.zipWith mulFV bs
  let sig := as.any (fun v => v == .nan true) || bs.any (fun v => v == .nan true) || x == .nan true || y == .nan true
  let inval := ps.any (fun p => p.2 != 0) || (ps.any (fun p => p.1 == .inf true) && ps.any (fun p => p.1 == .inf false))
  if as.any FV.isNan || bs.any FV.isNan || x.isNan || y.isNan || inval then
    (ffF32.nan, flagIf (sig || inval) fNV)
  else
    let s := sumFV (ps.map Prod.fst)
    finishFV ffF32 ftz rm (fmaFV rm s x y)

/-- An integer dot product (R72). -/
def dotInt (t : ElTy) (n : Nat) (a b c : Word) : Word :=
  wrap32 (uw c + ((List.range n).map (fun j => elInt t (element t.bits j a) * elInt t (element t.bits j b))).foldl (· + ·) 0)

/-! ### SC16 scales (R68) -/

/-- The class of an SC16 scale. -/
inductive ScClass where | zero | good (v : FV) | bad
  deriving DecidableEq, Repr
/-- Classify an SC16 encoding. -/
def scClass (x : Nat) : ScClass :=
  if x = 0 ∨ x = 0x8000 then .zero else if x < 0x7F80 then .good (ffBF16.value x) else .bad

/-! ### Transcendentals (R156) -/

/-- floor(π × 2^512). -/
def piFx : Nat := 0x3243f6a8885a308d313198a2e03707344a4093822299f31d0082efa98ec4e6c89452821e638d01377be5466cf34e90c6cc0ac29b7c97c50dd3f84d5b5b5470917
/-- floor(ln 2 × 2^512). -/
def ln2Fx : Nat := 0xb17217f7d1cf79abc9e3b39803f2f6af40f343267298b62d8a0d175b8baafa2be7b876206debac98559552fb4afa1b10ed2eae35c138214427573b291169b825
/-- 1 in fixed point with 512 fraction bits. -/
def oneFx : Nat := 2 ^ 512

/-- Terms of exp(y) − the sum from term `k`, with y in fixed point. -/
def expGo : Nat → Nat → Nat → Nat → Nat
  | 0, _, _, _ => 0
  | n + 1, k, y, t => t + expGo n (k + 1) y (t * y / oneFx / (k + 1))
/-- exp(y) in fixed point for 0 ≤ y < 1. -/
def expFx (y : Nat) : Nat := expGo 120 0 y oneFx

/-- Alternating series Σ (−1)^i y^(k+2i)/(k+2i)!: sine from k = 1, cosine from k = 0, as a difference. -/
def trigGo : Nat → Nat → Nat → Nat → Int
  | 0, _, _, _ => 0
  | n + 1, k, y2, t => (t : Int) - trigGo n (k + 2) y2 (t * y2 / oneFx / ((k + 1) * (k + 2)))
/-- sin(y) in fixed point for 0 ≤ y ≤ π/2. -/
def sinFx (y : Nat) : Int := trigGo 70 1 (y * y / oneFx) y
/-- cos(y) in fixed point for 0 ≤ y ≤ π/2. -/
def cosFx (y : Nat) : Int := trigGo 70 0 (y * y / oneFx) oneFx

/-- Σ z^(2i+1)/(2i+1) from i = k. -/
def atanhGo : Nat → Nat → Nat → Nat → Nat
  | 0, _, _, _ => 0
  | n + 1, k, z2, t => t / (2 * k + 1) + atanhGo n (k + 1) z2 (t * z2 / oneFx)
/-- ln(m) in fixed point for 1 ≤ m ≤ 2 in fixed point. -/
def lnFx (m : Nat) : Nat :=
  let z := (m - oneFx) * oneFx / (m + oneFx)
  2 * atanhGo 180 0 (z * z / oneFx) z

/-- One of the two binary32 values that bracket (−1)^neg × m × 2^e, which is never exact here; `sel` tells
whether the upper one is delivered. -/
def bracket (ftz : Bool) (sel : Bool) (neg : Bool) (m : Nat) (e : Int) : Nat × FlagBits :=
  let r := roundNonzero ffF32 (if sel then .rup else .rdn) neg (2 * m + 1) (e - 1)
  if ftz && ffF32.isSub r.1 then (ffF32.flush r.1, r.2 ||| fUF ||| fNX) else (r.1, r.2 ||| fNX)

/-- x as a fixed-point number with 512 fraction bits, rounded toward −Inf: m × 2^e with sign. -/
def fixed512 (n : Bool) (m : Nat) (e : Int) : Int :=
  let sh := e + 512
  if 0 ≤ sh then (if n then -((m * 2 ^ sh.toNat : Nat) : Int) else ((m * 2 ^ sh.toNat : Nat) : Int))
  else (if n then -((m / 2 ^ (-sh).toNat : Nat) : Int) else ((m / 2 ^ (-sh).toNat : Nat) : Int))

/-- fexp2 (R156). -/
def exp2F32 (ftz : Bool) (a : Word) : Nat × FlagBits :=
  match ffF32.input ftz a.toNat with
  | .nan s => (ffF32.nan, flagIf s fNV)
  | .inf n => (if n then 0 else ffF32.inf false, 0)
  | .fin n m e =>
    if m = 0 then (ffF32.encode (.fin false 1 0), 0)
    else if cmpFV (.fin n m e) (.fin false 128 0) ≠ -1 then (ffF32.inf false, fOF ||| fNX)
    else if cmpFV (.fin n m e) (.fin true 400 0) = -1 then bracket ftz (Config.pickUpper 0 a) false 1 (-400)
    else
      let x := fixed512 n m e
      let k := x / (oneFx : Int)
      let fr := (x % (oneFx : Int)).toNat
      if fr = 0 then
        (if -149 ≤ k then roundFV ffF32 ftz .rne (.fin false 1 k)
         else bracket ftz (Config.pickUpper 0 a) false 1 (-400))
      else bracket ftz (Config.pickUpper 0 a) false (expFx (fr * ln2Fx / oneFx)) (k - 512)

/-- flog2 (R156). -/
def log2F32 (ftz : Bool) (a : Word) : Nat × FlagBits :=
  match ffF32.input ftz a.toNat with
  | .nan s => (ffF32.nan, flagIf s fNV)
  | .inf n => if n then (ffF32.nan, fNV) else (ffF32.inf false, 0)
  | .fin n m e =>
    if m = 0 then (ffF32.inf true, fDZ)
    else if n then (ffF32.nan, fNV)
    else
      let len := bitLen m
      let k : Int := e + (len : Int) - 1
      let mant := m * 2 ^ 512 / 2 ^ (len - 1)
      if mant = oneFx then (ffF32.encode (intFV k), 0)
      else
        let v : Int := k * (oneFx : Int) + ((lnFx mant * oneFx / ln2Fx : Nat) : Int)
        bracket ftz (Config.pickUpper 1 a) (v < 0) v.natAbs (-512)

/-- sin or cos of a finite nonzero value: quadrant and remainder by exact reduction with π to 512 bits. -/
def trigF32 (isCos : Bool) (ftz : Bool) (a : Word) : Nat × FlagBits :=
  match ffF32.input ftz a.toNat with
  | .nan s => (ffF32.nan, flagIf s fNV)
  | .inf _ => (ffF32.nan, fNV)
  | .fin n m e =>
    if m = 0 then (if isCos then ffF32.encode (.fin false 1 0) else ffF32.zero n, 0)
    else
      let x := (fixed512 false m e).toNat
      let half := piFx / 2
      let k := x / half
      let r := x % half
      let quad := (k + (if isCos then 1 else 0)) % 4
      let v : Int := (if quad % 2 = 0 then sinFx r else cosFx r)
      let neg := (2 ≤ quad) != (n && !isCos)
      bracket ftz (Config.pickUpper (if isCos then 3 else 2) a) neg v.natAbs (-512)

end Sys2Proof.Machine
end

