-- ==== Sys2Proof/Machine/Ops.lean ====
section
/-!
DEFINITION. The named operations on the state that the meanings share: finding and changing teams, groups
and threads; clause headers and PC values (R38, R77, R81); the frontier (R255 to R258), meetings (R120) and
exits (R117); the kill of a team (R265); taking a trap (R127, R128, R365 to R368) and returning from one
(R131, R367).
-/

namespace Sys2Proof.Machine

/-! ### Finding and changing records -/

/-- A team by id. -/
def State.team? (s : State) (id : Nat) : Option Team := s.teams.find? (fun t => t.id == id)
/-- Change a team. -/
def State.modTeam (s : State) (id : Nat) (f : Team → Team) : State :=
  { s with teams := replaceIf (fun t => t.id == id) f s.teams }
/-- A group of a team. -/
def Team.group? (t : Team) (gix : Nat) : Option Group := t.groups.find? (fun g => g.gix == gix)
/-- Change a group of a team. -/
def Team.modGroup (t : Team) (gix : Nat) (f : Group → Group) : Team :=
  { t with groups := replaceIf (fun g => g.gix == gix) f t.groups }
/-- Change a thread of a group. -/
def Group.modThread (g : Group) (i : Nat) (f : Thread → Thread) : Group :=
  { g with threads := modifyAt f i g.threads }
/-- Change every thread of a group. -/
def Group.mapThreads (g : Group) (f : Thread → Thread) : Group := { g with threads := g.threads.map f }
/-- Change a thread of a team. -/
def Team.modThread (t : Team) (gix i : Nat) (f : Thread → Thread) : Team :=
  t.modGroup gix (fun g => g.modThread i f)
/-- Change every thread of a team. -/
def Team.mapThreads (t : Team) (f : Thread → Thread) : Team :=
  { t with groups := t.groups.map (fun g => g.mapThreads f) }
/-- A thread of a team. -/
def Team.thread? (t : Team) (gix i : Nat) : Option Thread :=
  match t.group? gix with | some g => g.threads[i]? | none => none
/-- A thread by its index in team (code 1818). -/
def Team.byTit (t : Team) (n : Nat) : Option Thread := t.thread? (n / 32) (n % 32)
/-- Change a group. -/
def State.modGroup (s : State) (id gix : Nat) (f : Group → Group) : State := s.modTeam id (fun t => t.modGroup gix f)
/-- Change a thread. -/
def State.modThread (s : State) (id gix i : Nat) (f : Thread → Thread) : State :=
  s.modTeam id (fun t => t.modThread gix i f)
/-- A group. -/
def State.group? (s : State) (id gix : Nat) : Option Group :=
  match s.team? id with | some t => t.group? gix | none => none
/-- A thread. -/
def State.thread? (s : State) (id gix i : Nat) : Option Thread :=
  match s.team? id with | some t => t.thread? gix i | none => none
/-- The threads of a team with their group and index, in ascending thread index in team. -/
def Team.all (t : Team) : List (Nat × Nat × Thread) :=
  t.groups.flatMap (fun g => g.threads.zipIdx.map (fun p => (g.gix, p.2, p.1)))
/-- A context by id. -/
def State.ctx? (s : State) (id : Nat) : Option Context := s.contexts.find? (fun c => c.id == id)
/-- Change a context. -/
def State.modCtx (s : State) (id : Nat) (f : Context → Context) : State :=
  { s with contexts := replaceIf (fun c => c.id == id) f s.contexts }
/-- A fresh id. -/
def State.bumpId (s : State) : State := { s with nextId := s.nextId + 1 }
/-- Use up the keys of the free values of one step. DESIGN CHOICE (log entry 1; safe). -/
def State.bumpNonce (s : State) : State := { s with nonce := s.nonce + 1 }

/-- The key of a free value: the step's number, an operand position, a thread and a code. DESIGN CHOICE (log entry 1; safe). -/
def freeKey (nonce pos t code : Nat) : Nat := 2 * (((nonce * 64 + pos) * 64 + t) * 8192 + code)
/-- The key of a free value: the step's number, a position and an index below 2^64. DESIGN CHOICE (log entry 1; safe). -/
def wideKey (nonce pos a : Nat) : Nat := 2 * ((nonce * 64 + pos) * 2 ^ 64 + a) + 1

/-! ### Clause headers and PC values (R38, R77, R78, R81) -/

/-- The 64-bit word of a context's code space at an address. -/
def State.codeAt (s : State) (ctx addr : Nat) : DWord :=
  match s.ctx? ctx with | some c => c.code.dword addr | none => 0
/-- CNT of a header. -/
def hdrCnt (h : DWord) : Nat := bitsOf h.toNat 0 4
/-- CLASS of a header. -/
def hdrClass (h : DWord) : Nat := bitsOf h.toNat 4 3
/-- ENTRY of a header. -/
def hdrEntry (h : DWord) : Bool := bitOf h.toNat 7
/-- SBWAIT of a header. -/
def hdrSb (h : DWord) : Nat := bitsOf h.toNat 8 16
/-- CVWAIT of a header. -/
def hdrCv (h : DWord) : Nat := bitsOf h.toNat 24 8
/-- Signature and reserved field are right. -/
def hdrSigOk (h : DWord) : Bool := bitsOf h.toNat 32 32 == 0xC1A50000
/-- The header passes R78. -/
def hdrOk (h : DWord) : Bool := hdrSigOk h && decide (hdrClass h < 6)
/-- TRAPINFO.VALUE of a BADCLAUSE (R78). -/
def hdrFaultValue (h : DWord) : Word := if hdrSigOk h then loWord h else hiWord h
/-- The header address of a PC value. -/
def pcAddr (pc : DWord) : Nat := bitsOf pc.toNat 0 48
/-- The instruction index of a PC value. -/
def pcIdx (pc : DWord) : Nat := bitsOf pc.toNat 48 4
/-- A PC value (R38). -/
def mkPc (addr idx : Nat) : DWord := BitVec.ofNat 64 (addr % 2 ^ 48 + idx % 16 * 2 ^ 48)
/-- The order of PC values in R257: header address, then index. -/
def pcKey (pc : DWord) : Nat := pcAddr pc * 16 + pcIdx pc
/-- The value MR has when no meeting is pending (R38). -/
def mrNone : DWord := 0xFFFFFFFFFFFFFFFF
/-- A target that is an ENTRY header with index 0 (R82, R113). -/
def State.entryOk (s : State) (ctx : Nat) (tgt : Int) : Bool :=
  decide (0 ≤ tgt) && decide (tgt < 2 ^ 48) && tgt % 8 == 0 &&
    (let h := s.codeAt ctx tgt.toNat; hdrOk h && hdrEntry h)

/-! ### Places of threads (R255, R256) -/

/-- The entry a thread waits in. -/
def Team.entryOf (t : Team) (th : Thread) : Option FEntry :=
  match th.place with | .entry n => t.frontier.find? (fun e => e.slot == n) | _ => none
/-- Held at a meeting (R120), wait-parked or not. DEDUCED (log entry 42; unsafe). -/
def Team.isHeld (t : Team) (th : Thread) : Bool :=
  match t.entryOf th with | some e => e.addr == th.mr | none => false
/-- Eligible for selection (R256). -/
def Team.eligible (t : Team) (th : Thread) : Bool :=
  (t.entryOf th).isSome && !t.isHeld th && th.wait.isNone && !th.deferred
/-- Streamable: in CURVEC. -/
def Thread.current (th : Thread) : Bool := th.place == .cur

/-- Insert an entry in slot order. -/
def insertEntry (e : FEntry) : List FEntry → List FEntry
  | [] => [e]
  | f :: l => if e.slot < f.slot then e :: f :: l else f :: insertEntry e l
/-- The lowest-numbered free slot of the frontier. -/
def Team.freeSlot (t : Team) : Option Nat :=
  (List.range Config.frontier).find? (fun n => !(t.frontier.any (fun e => e.slot == n)))

/-- A T register code. -/
def isTCode (code : Nat) : Bool := decide (1792 ≤ code) && decide (code < 1808)

/-- A thread drops out of the T results of an operation, those to come included. DEDUCED (log entry 41; unsafe). -/
def PendOp.dropT (i : Nat) (o : PendOp) : PendOp :=
  { o with
    ended := i :: o.ended
    writes := o.writes.filter (fun w => !(w.1 == i && isTCode w.2.1)),
    acc := (match o.acc with
      | .mv bf a d ths => .mv bf a d (if isTCode d then ths.filter (fun x => x != i) else ths)
      | .stat d ths => .stat d (if isTCode d then ths.filter (fun x => x != i) else ths)
      | a => a) }

/-- The code block ends for a thread: its T registers are no longer defined, and a result still to come for one
of them defines it no more (R30). -/
def Group.endBlock (g : Group) (i : Nat) : Group :=
  { g.modThread i (fun x => { x with tdef := 0 }) with ops := g.ops.map (PendOp.dropT i) }

/-- A thread joins the frontier by its PC (R255). -/
def Team.join (t : Team) (gix i : Nat) : Team :=
  match t.thread? gix i with
  | none => t
  | some th =>
    match t.frontier.find? (fun e => e.addr == th.pc) with
    | some e => t.modThread gix i (fun x => { x with place := .entry e.slot })
    | none =>
      match t.freeSlot with
      | some n =>
        let t1 := { t with frontier := insertEntry ⟨n, th.pc, 0⟩ t.frontier }
        let t2 := t1.mapThreads (fun x =>
          if x.place = .overflow ∧ x.pc = th.pc ∧ x.wait = none then { x with place := .entry n } else x)
        t2.modThread gix i (fun x => { x with place := .entry n })
      | none => t.modThread gix i (fun x => { x with place := .overflow })

/-- The meeting of a group at `v` is released if every member is held there (R120). -/
def Team.meetCheck (t : Team) (gix : Nat) (v : DWord) : Team :=
  match t.group? gix with
  | none => t
  | some g =>
    let mem := g.threads.filter (fun th => th.mr == v && !th.exited)
    if v ≠ mrNone ∧ mem ≠ [] ∧ mem.all t.isHeld then
      t.modGroup gix (fun g => g.mapThreads (fun th => if th.mr = v ∧ th.exited = false then { th with mr := mrNone } else th))
    else t

/-- Every meeting at `v` that is complete is released, group by group (R120). -/
def Team.meetAt (t : Team) (v : DWord) : Team := t.groups.foldl (fun a g => a.meetCheck g.gix v) t

/-- A thread joins the frontier, and with it the overflow-parked threads of its PC; the meetings at that address that
are now complete are released (R120, R255). -/
def Team.arrive (t : Team) (gix i : Nat) : Team :=
  match t.thread? gix i with
  | none => t
  | some th => (t.join gix i).meetAt th.pc

/-- The code block ends for a thread, which joins the frontier (R30, R255). -/
def Team.enterMeet (t : Team) (gix i : Nat) : Team := (t.modGroup gix (fun g => g.endBlock i)).arrive gix i

/-- An overflow-parked thread that is not wait-parked tries to enter (R258). -/
def Team.tryEnter (t : Team) (gix i : Nat) : Team :=
  match t.thread? gix i with
  | some th => if th.place = .overflow ∧ th.wait = none then t.arrive gix i else t
  | none => t

/-- readmit() of R258, in ascending thread index. -/
def Team.readmit (t : Team) : Team := t.all.foldl (fun a p => a.tryEnter p.1 p.2.1) t

/-- Free the entries whose waiting vector is empty; after a freeing, readmit (R258). -/
def Team.cleanup (t : Team) : Team :=
  let kept := t.frontier.filter (fun e => t.all.any (fun p => p.2.2.place == .entry e.slot))
  if kept.length = t.frontier.length then t else Team.readmit { t with frontier := kept }

/-- A thread leaves the block for a target PC (R112). -/
def Team.transfer (t : Team) (gix i : Nat) (pc : DWord) : Team :=
  (t.modThread gix i (fun th => { th with pc := pc })).enterMeet gix i

/-! ### Loop-back and fall-through (R81, R124) -/

/-- R124 at the end of clause `e`: where a finished entry pops, and whether the top entry loops back. -/
def loopBack (e : Nat) : List LoopEntry → Option Nat × List LoopEntry
  | [] => (none, [])
  | x :: l =>
    if x.endc.toNat = e then
      (if 1 < x.count.toNat then (some x.start.toNat, { x with count := x.count - 1 } :: l) else loopBack e l)
    else (none, x :: l)

/-- Where a thread stands after it falls through the instruction at its PC: the PC, the loop stack, and
whether the block ends for it (R81, R124). -/
structure Cont where
  pc : DWord
  loops : List LoopEntry
  ends : Bool
  deriving DecidableEq, Repr

/-- The continuation of a fall-through; past the last address of the code space it goes on at address 0 (R112).
DESIGN CHOICE (log entry 63; unsafe). -/
def State.contOf (s : State) (ctx : Nat) (pc : DWord) (loops : List LoopEntry) : Cont :=
  let a := pcAddr pc
  let cnt := hdrCnt (s.codeAt ctx a)
  if pcIdx pc < cnt then ⟨mkPc a (pcIdx pc + 1), loops, false⟩
  else
    match loopBack a loops with
    | (some start, l) => ⟨mkPc start 0, l, true⟩
    | (none, l) =>
      let n := (a + 8 * (cnt + 2)) % 2 ^ 48
      let h := s.codeAt ctx n
      ⟨mkPc n 0, l, hdrOk h && hdrEntry h⟩

/-- A thread falls through. -/
def State.fallThrough (s : State) (id gix i : Nat) : State :=
  match s.team? id with
  | none => s
  | some t =>
    match t.thread? gix i with
    | none => s
    | some th =>
      let c := s.contOf t.ctx th.pc th.loops
      s.modTeam id (fun t =>
        let t1 := t.modThread gix i (fun th => { th with pc := c.pc, loops := c.loops })
        if c.ends then t1.enterMeet gix i else t1)

/-! ### Convergence sets and the issue of a tile step (R37, R225) -/

/-- A convergence register after reset (R37). -/
def CvReg.blank : CvReg :=
  { declared := 0, signed := 0, issued := false, done := false, params := false, acc := 0, xidx := 0, fmt := 0,
    reuse := false, acode := 0, begun := false, step := none, snap := [] }

/-- Rank order of a declared set: the declared threads in ascending thread index in team (R219). -/
def declaredThreads (v : BitVec 1024) : List Nat := (List.range 1024).filter (fun n => v.getLsbD n)
/-- Add a thread to a 1,024-bit set. -/
def setAdd (v : BitVec 1024) (n : Nat) : BitVec 1024 := v ||| BitVec.ofNat 1024 (2 ^ n)
/-- Remove a thread from a 1,024-bit set. -/
def setDel (v : BitVec 1024) (n : Nat) : BitVec 1024 := v &&& ~~~ (BitVec.ofNat 1024 (2 ^ n))

/-- Every declared thread has signed or exited, and the set is not empty. -/
def Team.cvComplete (t : Team) (c : CvReg) : Bool :=
  let d := declaredThreads c.declared
  d != [] && d.all (fun n => c.signed.getLsbD n || (match t.byTit n with | some th => th.exited | none => true))

/-- The matrix context a team is bound to. -/
def State.matctxOf (s : State) (t : Team) : Option MatCtx :=
  match t.matctx with
  | none => none
  | some n => s.matctx.find? (fun m => m.die == t.die && m.core == t.core && m.idx == n)
/-- Change a bound matrix context. -/
def State.modMat (s : State) (die core idx : Nat) (f : MatCtx → MatCtx) : State :=
  { s with matctx := replaceIf (fun m => m.die == die && m.core == core && m.idx == idx) f s.matctx }

/-- An issued step joins the pending list: behind those issued in earlier cycles, and among those of its cycle in ascending
CV index (R225). -/
def insertStep (st : MStep) : List MStep → List MStep
  | [] => [st]
  | x :: l => if st.cycle < x.cycle ∨ (st.cycle = x.cycle ∧ st.cv < x.cv) then st :: x :: l else x :: insertStep st l

/-- Issue the step of CVn if its set is complete and not yet issued (R37, R225). A set that completes without
a signature sets the issued flag and issues no step. -/
def State.cvCheck (s : State) (id n : Nat) : State :=
  match s.team? id with
  | none => s
  | some t =>
    match t.cv[n]? with
    | none => s
    | some c =>
      if c.issued || !t.cvComplete c then s
      else if c.params then
        let st : MStep :=
          { id := s.nextId, cycle := s.clock, cv := n, acc := c.acc, xidx := c.xidx, fmt := c.fmt, reuse := c.reuse, acode := c.acode,
            rows := declaredThreads c.declared, signers := declaredThreads c.signed, snap := c.snap }
        let s1 := s.modTeam id (fun t =>
          { t with cv := modifyAt (fun c => { c with issued := true, step := some s.nextId }) n t.cv })
        let s2 := match t.matctx with
          | some m => s1.modMat t.die t.core m (fun x => { x with pending := insertStep st x.pending })
          | none => s1
        s2.bumpId
      else s.modTeam id (fun t => { t with cv := modifyAt (fun c => { c with issued := true }) n t.cv })

/-- Check every convergence register, in ascending index (R225). -/
def State.cvCheckAll (s : State) (id : Nat) : State := (List.range 8).foldl (fun a n => a.cvCheck id n) s

/-! ### Parking (R56, R196, R200, R256) -/

/-- A wait-parked thread as it stands at its wait, where a restore or a fault finds it (R56). -/
def Thread.atWait (th : Thread) : Thread :=
  match th.wait with | some w => { th with pc := w.pc, loops := w.loops, tdef := w.tdef, wait := none } | none => th

/-! ### Exit (R117) -/

/-- The state of a thread that has exited. -/
def Thread.asExited (th : Thread) : Thread :=
  { th with exited := true, place := .gone, mr := mrNone, loops := [], wait := none, deferred := false,
            faults := [], tdef := 0 }

/-- A thread exits: it leaves every entry and pending meeting, and every declared set stops waiting for it. -/
def State.exitThread (s : State) (id gix i : Nat) : State :=
  match s.thread? id gix i with
  | none => s
  | some th =>
    let s1 := s.modTeam id (fun t => ((t.modThread gix i Thread.asExited).cleanup).meetCheck gix th.mr)
    s1.cvCheckAll id

/-! ### The kill of a team (R265) -/

/-- A team after its kill: every thread has exited, frontier and CURVEC are empty, token windows are closed
without retiring, steps that have not issued are discarded. -/
def Team.asKilled (c : Cause) (t : Team) : Team :=
  let t1 := t.mapThreads Thread.asExited
  { t1 with
    frontier := [], curaddr := 0, windows := [], shut := t.shut ++ t.windows,
    killed := some (t.killed.getD c), halted := false,
    groups := t1.groups.map (fun g => { g with claim := none, tokWait := none, held := false, clauseAt := none }),
    cv := t1.cv.map (fun c => if c.issued then c else { c with declared := 0, signed := 0, params := false, snap := [] }) }

/-- An event of this cycle calls for a placement round (R359). -/
def State.askRound (s : State) : State :=
  { s with placeSince := if s.placeDue then s.placeSince else s.clock, placeLast := s.clock, placeDue := true }

/-- A node's record of a kill: the first in time counts, and among those of one cycle the lowest TEAMID's (R356). -/
def NodeRun.kill (n : NodeRun) (c : Cause) (clock teamid : Nat) : NodeRun :=
  if n.cause = none ∨ (n.causeAt.1 = clock ∧ teamid < n.causeAt.2) then { n with cause := some c, causeAt := (clock, teamid) } else n
/-- Change a node of a launched graph. -/
def State.modNode (s : State) (run idx : Nat) (f : NodeRun → NodeRun) : State :=
  let onRun (r : GraphRun) : GraphRun := { r with nodes := modifyAt f idx r.nodes }
  { s with runs := replaceIf (fun r => r.id == run) onRun s.runs }
/-- The first kill of a launch node records its cause (R265, R356). -/
def State.recordCause (s : State) (t : Team) (c : Cause) : State :=
  match t.origin with
  | .dispatch _ _ => s
  | .node run idx => s.modNode run idx (fun n => n.kill c s.clock t.teamid.toNat)

/-- Kill a team (R265). Threads of other teams that wait on a barrier word of its carve-out are released by
`State.settle` of Machine/Issue.lean, in the same step (R175). -/
def State.killTeam (s : State) (id : Nat) (c : Cause) : State :=
  match s.team? id with
  | none => s
  | some t =>
    if t.killed.isSome then s
    else
      let s1 := (s.modTeam id (Team.asKilled c)).recordCause t c
      { s1 with claims := s1.claims.filter (fun q => q.team != id), pushes := s1.pushes.filter (fun p => !(p.by_.isSome && p.team == id)) }

/-! ### Taking a trap (R127, R128, R365 to R368) -/

/-- TRAPCAUSE.CODE of a cause (R363) and the code of a kill (R364). -/
def Cause.code : Cause → BitVec 8
  | .illop => 0x01 | .vrange => 0x02 | .stallshort => 0x03 | .badclause => 0x04 | .badtarget => 0x05
  | .loopdepth => 0x06 | .loopcount => 0x07 | .trap => 0x08 | .bkpt => 0x09 | .misalign => 0x10 | .spaddr => 0x11
  | .shrange => 0x12 | .stackrange => 0x13 | .cluaddr => 0x14 | .spowner => 0x15 | .sptype => 0x16
  | .barahead => 0x17 | .barinit => 0x18 | .copyfault => 0x19 | .estregion => 0x20 | .estdesc => 0x21
  | .estarg => 0x22 | .eststage => 0x23 | .cvstate => 0x28 | .xinvalid => 0x29 | .xformat => 0x2A | .xrecord => 0x2B
  | .xspace => 0x2C | .xbusy => 0x2D | .xrange => 0x2E | .badscale => 0x2F | .nomatctx => 0x30 | .copydesc => 0x38
  | .badcall => 0x39 | .tokwin => 0x3A | .callfault => 0x3B | .taskq => 0x3C | .taskcnt => 0x3D | .claimlimit => 0x3E
  | .regdeadlock => 0x3F | .timeout => 0x80 | .frameovf => 0x81 | .badsave => 0x82 | .uncorr => 0x83 | .cancel => 0x84
  | .nofit => 0x85 | .ctxlost => 0x86

/-- No operand is concerned. DEDUCED (log entry 10; unsafe). -/
def opndNone : BitVec 11 := 0x7FF
/-- TRAPINFO (R41): OPND in [42:32], VALUE in [31:0]. -/
def mkTrapInfo (opnd : BitVec 11) (value : Word) : DWord := (0 : BitVec 21) ++ opnd ++ value

/-- The T registers of a thread as they are stored in a frame or save area: a register that is not defined
holds an unspecified value (R30). -/
def tImage (nonce key : Nat) (th : Thread) : List Byte :=
  (List.range 16).flatMap (fun n =>
    wordBytes (if th.tdef.getLsbD n then th.t.read n else Config.freeWord (wideKey nonce 40 (16 * key + n))))

/-- The four loop entries as stored (R51): entry 0 is the bottom of the stack. -/
def loopImage (l : List LoopEntry) : List Byte :=
  (padTo 4 ⟨0, 0, 0⟩ l.reverse).flatMap (fun e => leBytes 8 e.start.toNat ++ leBytes 8 e.endc.toNat ++ leBytes 8 e.count.toNat)

/-- A trap frame (R365). -/
def frameImage (nonce key : Nat) (th : Thread) (pc info : DWord) (code : BitVec 8) (loops : List LoopEntry) : List Byte :=
  dwordBytes pc ++ dwordBytes info ++ leBytes 4 code.toNat ++ leBytes 4 (2 ^ 31 + loops.length) ++ leBytes 8 0 ++
    loopImage loops ++ tImage nonce key th

/-- Stack offset of thread `i`'s frame in a stack of `size` bytes (R365). -/
def frameOff (size i : Nat) : Nat := size - Config.frameArea + 192 * i

/-- Trap entry, the same for every cause (R127): the frame, the trap registers, INTRAP, and the transfer to
the handler; or the kill of the team (R127 step 4, R128, R366, R368), also where trap or bkpt stands in a handler. `pc` is
TRAPPC and `loops` the loop stack the frame holds. DESIGN CHOICE (log entry 62; unsafe). -/
def State.trapEnter (s : State) (id gix i : Nat) (f : PendFault) (pc : DWord) (loops : List LoopEntry) : State :=
  match s.team? id with
  | none => s
  | some t =>
    match t.thread? gix i with
    | none => s
    | some th =>
      if t.killed.isSome || th.exited then s
      else if t.handler = 0 then s.killTeam id f.cause
      else if th.intrap then s.killTeam id f.cause
      else if t.stackSize < Config.frameArea then s.killTeam id .frameovf
      else
        let info := mkTrapInfo f.opnd f.value
        let img := frameImage s.nonce ((id * 32 + gix) * 32 + i) th pc info f.cause.code loops
        let s1 := s.modTeam id (fun t =>
          (t.modGroup gix (fun g => { g with stack := g.stack.writeN (frameOff t.stackSize i) img })).modThread gix i
            (fun th => { th with cause := f.cause.code, trappc := pc, trapinfo := info, intrap := true, loops := [],
                                 tdef := 0, pc := t.handler, wait := none, deferred := false }))
        if s.entryOk t.ctx t.handler.toNat then s1.modTeam id (fun t => (t.enterMeet gix i).cleanup)
        else s1.killTeam id .badtarget

/-- A fault at the thread's own PC. -/
def State.trapAt (s : State) (id gix i : Nat) (f : PendFault) : State :=
  match s.thread? id gix i with
  | none => s
  | some th => s.trapEnter id gix i f th.pc th.loops

/-! ### Returning from a trap (R131, R367) -/

/-- A loop entry as it stands in a frame or a save area. -/
def loopEntryAt (bs : List Byte) (o : Nat) : LoopEntry :=
  ⟨(dwordAt bs o).setWidth 48, (dwordAt bs (o + 8)).setWidth 48, (dwordAt bs (o + 16)).setWidth 24⟩
/-- A loop stack of `n` entries, top first, from four stored entries. -/
def loopsAt (bs : List Byte) (o n : Nat) : List LoopEntry :=
  ((List.range n).map (fun k => loopEntryAt bs (o + 24 * k))).reverse
/-- T registers from 64 stored bytes. -/
def tAt (bs : List Byte) (o : Nat) : RegMap := (List.range 16).foldl (fun m n => m.write n (wordAt bs (o + 4 * n))) []

/-- rfe of a thread whose INTRAP is set, with the value `v` that it reads of TRAPPC: the loop stack and T0 to T15 come
from the frame as it stands in memory (R131, R367). -/
def State.rfe (s : State) (id gix i : Nat) (v : DWord) : State :=
  match s.team? id, s.group? id gix with
  | some t, some g =>
    let h := s.codeAt t.ctx (pcAddr v)
    let bad := bitsOf v.toNat 52 12 ≠ 0 ∨ bitsOf v.toNat 0 3 ≠ 0 ∨ (hdrOk h = true ∧ hdrCnt h < pcIdx v)
    if bad then s.trapAt id gix i ⟨.badtarget, opndNone, loWord v⟩
    else
      let o := frameOff t.stackSize i
      let fr := g.stack.readN o 192
      let fst := (wordAt fr 0x14).toNat
      if bitOf fst 31 = false ∨ 4 < bitsOf fst 0 3 then s.killTeam id .badsave
      else
        s.modTeam id (fun t =>
          let t1 := t.modGroup gix (fun g => { g with stack := g.stack.writeN (o + 0x14) (leBytes 4 (fst % 2 ^ 31)) })
          let t2 := t1.modThread gix i (fun th =>
            { th with loops := loopsAt fr 0x20 (bitsOf fst 0 3), intrap := false, pc := v })
          (t2.enterMeet gix i).modThread gix i (fun th => { th with t := tAt fr 0x80, tdef := 0xFFFF }))
  | _, _ => s

/-! ### Time (R44, R91) -/

/-- The device clock stands at least at cycle `c`. -/
def State.clockTo (s : State) (c : Nat) : State := { s with clock := if s.clock < c then c else s.clock }
/-- A change that takes place in cycle `c`, that of a later pass of the instruction (R91). -/
def State.atCycle (s : State) (c : Nat) (f : State → State) : State := { f { s with clock := c } with clock := s.clock }

end Sys2Proof.Machine
end

