-- ==== Sys2Proof/Machine/Scope.lean ====
section
/-!
DEFINITION. Scopes, what an agent has acquired, and which releases it has met (R286, R287, R289, R296).
-/

namespace Sys2Proof.Machine

/-! ### Scopes and sights (R287) -/

/-- Scopes in ascending order (R287). -/
def scopeRank : Scope → Nat | .team => 0 | .clu => 1 | .dev => 2
/-- A group as the author of its accesses. -/
def Team.author (t : Team) (gix : Nat) : Author := ⟨t.ctx, t.clusterNo, t.id, gix⟩
/-- The narrowest scope that holds both. -/
def Author.shared (a b : Author) : Scope :=
  if a.ctx = b.ctx ∧ a.team = b.team then .team else if a.ctx = b.ctx ∧ a.cluster = b.cluster then .clu else .dev
/-- How far an acquire of a scope lets an agent read. -/
def Sight.at_ (x : Sight) : Scope → Nat | .team => x.team | .clu => x.clu | .dev => x.dev
/-- The farther of two. -/
def Sight.join (x y : Sight) : Sight := ⟨max x.seen y.seen, max x.team y.team, max x.clu y.clu, max x.dev y.dev⟩
/-- An acquire of a scope at a point: of that scope and of those within it. -/
def Sight.acquire (x : Sight) (sc : Scope) (p : Nat) : Sight :=
  { x with team := max x.team p, clu := if 1 ≤ scopeRank sc then max x.clu p else x.clu,
           dev := if 2 ≤ scopeRank sc then max x.dev p else x.dev }
/-- How far an agent has come. -/
def State.sight (s : State) (a : Agent) : Sight := ((s.sights.find? (fun p => p.1 == a)).map Prod.snd).getD ⟨0, 0, 0, 0⟩
/-- An agent has come farther. -/
def State.setSight (s : State) (a : Agent) (x : Sight) : State := { s with sights := (a, x) :: s.sights.filter (fun p => p.1 != a) }
/-- How far a thread has come, by its own reads and acquires and since its team's start. -/
def State.sightOf (s : State) (team tit : Nat) : Sight := (s.sight (.thread team tit)).join (s.sight (.team team))
/-- The narrowest scope that holds the writer and an author; the device's for a write that has none. -/
def Old.shared (w : Old) (a : Author) : Scope := match w.by_ with | some b => b.shared a | none => .dev
/-- The number of the newest write of the history that passes a test; 0 where there is none. -/
def State.lastNo (s : State) (p : Old → Bool) : Nat := (s.olds.filter p).foldl (fun k w => max k w.no) 0
/-- The number of a write that the history may have dropped at its far end. -/
def State.forgotten (s : State) : Nat :=
  if s.olds.length < Config.oldStores then 0 else match s.olds.getLast? with | some w => w.no | none => 0
/-- How far the makers of a write have acquired: the agents that know it, or, where an engine makes it for a group, the threads
of the group. -/
def State.carryOf (s : State) (by_ : Option Author) (agents : List Agent) : Sight :=
  match by_ with
  | none => ⟨0, 0, 0, 0⟩
  | some a =>
    let maker (g : Agent) : Bool :=
      g == .team a.team || (if agents.isEmpty then (match g with | .thread t n => t == a.team && n / 32 == a.gix | _ => false) else agents.contains g)
    { ((s.sights.filter (fun p => maker p.1)).map Prod.snd).foldl Sight.join ⟨0, 0, 0, 0⟩ with seen := 0 }

/-! ### Releases that an acquire meets (R289) -/

/-- Two writes have bytes in one unit (R274). -/
def Old.sameUnit (v w : Old) : Bool := v.mem == w.mem && v.cells.any (fun c => w.cells.any (fun d => c.1 / 64 == d.1 / 64))
/-- The write is in the unit of the store that releases, or the release is a fence's. -/
def Release.names (r : Release) (v : Old) : Bool :=
  match r.place with | none => true | some (m, u) => v.mem == m && v.cells.any (fun c => c.1 / 64 == u)
/-- A write that passes a test is one that the release is followed by, or later in the order of its unit (R289); a release
older than the history counts as met. -/
def State.hears (s : State) (r : Release) (test : Old → Bool) : Bool :=
  decide (r.at_ < s.forgotten) ||
    s.olds.any (fun w => test w && s.olds.any (fun v =>
      v.by_ == some r.by_ && decide (r.at_ < v.no) && decide (v.no ≤ w.no) && v.sameUnit w && r.names v))
/-- The release and an acquire of a scope by a group lie within each other's scope. -/
def Release.covers (r : Release) (a : Author) (sc : Scope) : Bool :=
  decide (scopeRank (r.by_.shared a) ≤ min (scopeRank r.scope) (scopeRank sc))
/-- An agent of a group, which acquires at a scope, has met one of the releases; with a full fence on both sides it is enough
that it comes no earlier (R191). -/
def State.meets (s : State) (rels : List Release) (a : Author) (g : Agent) (sc : Scope) (full : Bool) : Bool :=
  rels.any (fun r => r.covers a sc && ((full && r.full) || s.hears r (fun w => w.known.contains g)))
/-- The point of an acquire: the given one, or that of the newest write that a release which the agent has met orders before
itself, where that write was performed later. -/
def State.acquirePoint (s : State) (a : Author) (g : Agent) (sc : Scope) (p : Nat) (full : Bool) : Nat :=
  max p (s.lastNo (fun w => s.meets w.rels a g sc full))
/-- What the makers of writes had acquired that an acquire of a scope reaches at a point: they hand it on (R296). -/
def State.brought (s : State) (a : Author) (sc : Scope) (p : Nat) : Sight :=
  ((s.olds.filter (fun w => decide (w.no ≤ p) && decide (scopeRank (w.shared a) ≤ scopeRank sc))).map Old.carry).foldl Sight.join ⟨0, 0, 0, 0⟩
/-- How far an agent of a group has come once it has acquired at a scope at a point. -/
def State.acquired (s : State) (a : Author) (g : Agent) (x : Sight) (sc : Scope) (p : Nat) (full : Bool) : Sight :=
  let q := s.acquirePoint a g sc p full
  (x.acquire sc q).join (s.brought a sc q)
/-- An acquire meets a release after which a store is still to be performed; a full fence does not await what its own thread
has issued. -/
def State.metLate (s : State) (x : LateStore) (a : Author) (g : Agent) (sc : Scope) (full : Bool) : Bool :=
  s.meets x.rels a g sc (full && x.parts.any (fun p => Agent.thread x.by_.team (32 * x.by_.gix + p.1) != g))

end Sys2Proof.Machine
end

