-- ==== Sys2Proof/Machine/Operands.lean ====
section
/-!
DEFINITION. What an instruction of a group sees (R47, R85 to R90, R95): the group and its streamed threads,
the operand forms, predicates and guards, early reads, and the faults VRANGE and STALLSHORT.
-/

namespace Sys2Proof.Machine

/-- The surroundings of one instruction of a group. -/
structure Env where
  s : State
  team : Team
  g : Group
  /-- The streamed threads, ascending. -/
  act : List Nat
  /-- PC of the instruction. -/
  pc : DWord
  /-- Cycle of the first pass (R91). -/
  fp : Nat
  /-- Threads of later passes of the instruction do not take part yet (R370). -/
  more : Bool := false

/-- The streamed threads of a group: those in CURVEC at the earliest PC (R56, R259). -/
def streamedOf (g : Group) : Option (DWord × List Nat) :=
  let cur := (g.threads.zipIdx.filter (fun p => p.1.current)).map (fun p => (p.1.pc, p.2))
  match cur with
  | [] => none
  | c :: l =>
    let pc := l.foldl (fun a p => if pcKey p.1 < pcKey a then p.1 else a) c.1
    some (pc, (cur.filter (fun p => p.1 == pc)).map Prod.snd)

/-- The surroundings of the next instruction of a group. -/
def envOf (s : State) (id gix : Nat) : Option Env :=
  match s.team? id with
  | none => none
  | some t =>
    match t.group? gix with
    | none => none
    | some g =>
      match streamedOf g with
      | none => none
      | some p => some { s := s, team := t, g := g, act := p.2, pc := p.1, fp := if s.clock < g.nextIssue then g.nextIssue else s.clock }

/-- The surroundings of the instruction in execution. -/
def env? (s : State) : Option Env :=
  match s.cur with
  | .group id gix => envOf s id gix
  | .part id gix n => (envOf s id gix).map (fun e =>
      { e with act := e.act.take (4 * (n + 1)), more := decide (4 * (n + 1) < e.act.length) })
  | _ => none

/-- The address of the header of the clause that holds the instruction. -/
def Env.hdrAddr (e : Env) : Nat := pcAddr e.pc
/-- Its header. -/
def Env.hdr (e : Env) : DWord := e.s.codeAt e.team.ctx e.hdrAddr
/-- The thread's index in team (code 1818). -/
def Env.tit (e : Env) (t : Nat) : Nat := 32 * e.g.gix + t
/-- A thread of the group. -/
def Env.thread (e : Env) (t : Nat) : Option Thread := e.g.threads[t]?
/-- HELPER of a thread. -/
def Env.helper (e : Env) (t : Nat) : Bool := match e.thread t with | some th => th.helper | none => false
/-- EXITED of a thread. -/
def Env.exited (e : Env) (t : Nat) : Bool := match e.thread t with | some th => th.exited | none => true

/-! ### System values under R92 and R135 -/

/-- A system register's value as an instruction with first pass `fp` finds it in force (R135): the value before
the earliest mts not yet in effect. -/
def sysInForce (g : Group) (fp n : Nat) (v : Word) : Word :=
  match g.windows.find? (fun w => w.res == .sys n && decide (fp < w.from_)) with
  | some w => w.old
  | none => v
/-- MODE.FTZ in force. -/
def Env.ftz (e : Env) : Bool := bitOf (sysInForce e.g e.fp 1 (if e.g.ftz then 1 else 0)).toNat 0
/-- CHKSB.EN in force. -/
def Env.chksb (e : Env) : Bool := bitOf (sysInForce e.g e.fp 3 (if e.g.chksb then 1 else 0)).toNat 0

/-! ### Early reads (R95) -/

/-- Code under which a predicate stands in a pending operation's destinations. -/
def predCode (p : Nat) : Nat := 4096 + p
/-- A fixed-latency result of the resource is not yet visible. -/
def Env.inWindow (e : Env) (r : Res) : Bool := e.g.windows.any (fun w => w.res == r && decide (e.fp < w.from_))
/-- The register or predicate of a code is the pending destination of a busy slot, in whichever threads
(R95, R168). DEDUCED (log entry 64; unsafe). -/
def Env.pendingDst (e : Env) (code : Nat) : Bool := e.g.ops.any (fun o => o.regs.any (fun r => r.2 == code))
/-- Thread index that owns a register code: K registers belong to the group. -/
def ownerOf (code t : Nat) : Nat := if 1536 ≤ code ∧ code < 1792 then 32 else t
/-- A read of a register code is early (R95). -/
def Env.earlyRead (e : Env) (code : Nat) : Bool := e.inWindow (.reg code) || e.pendingDst code

/-! ### Operand values (R47, R88, R168) -/

/-- The value of a constant code, numbered from 1808, for a thread. -/
def constVal (g : Group) (t : Nat) (n : Nat) : Word :=
  match n with
  | 0 => 0 | 1 => 1 | 2 => 0xFFFFFFFF | 3 => 0x3F800000 | 4 => 0xBF800000 | 5 => 0x3F000000 | 6 => 0x40000000
  | 7 => BitVec.ofNat 32 t | 8 => BitVec.ofNat 32 g.gix | 9 => BitVec.ofNat 32 (t / 4)
  | 10 => BitVec.ofNat 32 (32 * g.gix + t) | 11 => BitVec.ofNat 32 (t % 4)
  | 12 => 0x7F800000 | 13 => 0x7FC00000 | 14 => 0x80000000 | _ => 0xFFFFFFFF

/-- reg(t, op): register `j` of an operand as thread `t` supplies it (R27, R47, R168); `pos` numbers the operand.
A pair named by code 1808 reads as 0 (R88). An early read gives an unspecified value (R95), and so does a T
register without a defined value or of a thread that is not streamed (R30, R168).
DESIGN CHOICE (log entry 1; safe). DESIGN CHOICE (log entry 4; safe). DEDUCED (log entry 41; unsafe). -/
def Env.reg (e : Env) (t pos : Nat) (o : Opnd) (j : Nat) : Word :=
  let key (code : Nat) := freeKey e.s.nonce pos t code
  match o with
  | .k n =>
    let code := 1536 + n.val + j
    if e.earlyRead code then Config.freeWord (key code) else e.g.k.read (n.val + j)
  | .c n => if j = 0 then constVal e.g t n.val else 0
  | .v n =>
    let code := n.val + j
    match e.thread t with
    | none => 0
    | some th =>
      if th.exited then 0 else if e.earlyRead code then Config.freeWord (key code) else th.v.read code
  | .t n =>
    let code := 1792 + n.val + j
    match e.thread t with
    | none => 0
    | some th =>
      if th.exited then 0
      else if e.earlyRead code || !(th.tdef.getLsbD (n.val + j)) || !(e.act.contains t) then Config.freeWord (key code)
      else th.t.read (n.val + j)

/-- Operand A, B, C or D as a word. -/
def Env.w (e : Env) (t pos : Nat) (o : Opnd) : Word := e.reg t pos o 0
/-- An operand as a 64-bit value (R57, R140). -/
def Env.pair (e : Env) (t pos : Nat) (o : Opnd) : DWord := pairOf (e.reg t pos o 0) (e.reg t pos o 1)
/-- A run of `n` registers. -/
def Env.run (e : Env) (t pos : Nat) (o : Opnd) (n : Nat) : List Word := (List.range n).map (e.reg t pos o)

/-! ### Predicates and guards (R31, R85, R87) -/

/-- A predicate as thread `t` holds it; P0 is true (R31). DESIGN CHOICE (log entry 1; safe). -/
def Env.pred (e : Env) (t p : Nat) : Bool :=
  if p = 0 then true
  else if e.inWindow (.pred p) || e.pendingDst (predCode p) then Config.freeBool (freeKey e.s.nonce 30 t p)
  else match e.thread t with | some th => th.p.getLsbD p | none => false
/-- A predicate source (R87). -/
def Env.psrc (e : Env) (t : Nat) (p : PSrc) : Bool := e.pred t p.p.val != p.neg
/-- The guard of an instruction for a thread (R85). -/
def Env.guard (e : Env) (h : Hdr) (t : Nat) : Bool := e.pred t h.p.val != h.neg

/-! ### VRANGE and STALLSHORT (R29, R88, R90, R95) -/

/-- An operand names a register above the group's top. -/
def aboveTop (g : Group) (u : OpUse) : Bool :=
  match u.o with
  | .v n => decide (8 * g.vblk < n.val + u.n)
  | .k n => decide (32 * g.kblk < n.val + u.n)
  | _ => false
/-- The operand code of the first operand above the group's top (R29). DESIGN CHOICE (log entry 44; unsafe). -/
def vrange? (g : Group) (i : Instr) : Option (BitVec 11) :=
  match (uses i).find? (aboveTop g) with
  | some u => some u.o.code
  | none => none

/-- The codes an operand names. -/
def codesOf (u : OpUse) : List Nat :=
  match u.o with
  | .c _ => []
  | _ => (List.range u.n).map (fun j => u.o.code.toNat + j)
/-- A use of an operand is early (R95): a read of a result not yet visible, or a read or write of the pending
destination of a busy slot. -/
def Env.earlyUse (e : Env) (u : OpUse) : Bool :=
  (codesOf u).any (fun c => (u.rd && e.inWindow (.reg c)) || ((u.rd || u.wr) && e.pendingDst c))
/-- The predicates an instruction reads, its guard among them, or writes, are early. -/
def Env.earlyPred (e : Env) (h : Hdr) (i : Instr) : Bool :=
  ((h.p :: predReads i).any (fun p => p ≠ 0 && (e.inWindow (.pred p.val) || e.pendingDst (predCode p.val)))) ||
    (predWrites i).any (fun p => p ≠ 0 && e.pendingDst (predCode p.val))
/-- A write of TRAPPC by mts is not yet visible (R135). -/
def Env.pcWindow (e : Env) : Bool := e.inWindow (.sys SysReg.trappcLo.num) || e.inWindow (.sys SysReg.trappcHi.num)
/-- TRAPPC as rfe reads it: an early read gives an unspecified value (R95). DESIGN CHOICE (log entry 1; safe). -/
def Env.trapPc (e : Env) (t : Nat) (th : Thread) : DWord :=
  if e.pcWindow then
    pairOf (Config.freeWord (freeKey e.s.nonce 32 t SysReg.trappcLo.num)) (Config.freeWord (freeKey e.s.nonce 32 t SysReg.trappcHi.num))
  else th.trappc
/-- A system register the instruction reads is not yet visible (R92). -/
def Env.earlySys (e : Env) (i : Instr) : Bool :=
  match i with
  | .mfs _ _ sr => e.inWindow (.sys sr.num)
  | .rfe _ => e.pcWindow
  | _ => false

/-- The source threads of a lane or quad exchange (R168 to R173) for thread `t`. -/
def Env.laneSources (e : Env) (i : Instr) (t : Nat) : List Nat :=
  match i with
  | .lsh _ dn _ _ b _ =>
    let n := (e.w t 1 b).toNat
    if dn then (if t + n ≤ 31 then [t + n] else []) else (if n ≤ t then [t - n] else [])
  | .lxor _ _ _ b => [t ^^^ ((e.w t 1 b).toNat % 32)]
  | .lbc _ _ _ b => [(e.w t 1 b).toNat % 32]
  | .lrot _ _ _ b => [(t + (e.w t 1 b).toNat) % 32]
  | .qswp _ dir _ _ => [t / 4 * 4 + ((t % 4) ^^^ (match dir with | .h => 1 | .v => 2 | .d => 3))]
  | .qbc _ _ _ b => [t / 4 * 4 + (e.w t 1 b).toNat % 4]
  | .lscan h _ excl _ _ =>
    (List.range (t + 1)).filter (fun u => e.act.contains u && e.guard h u && !(e.helper u) && !(excl && u == t))
  | _ => []
/-- Operand A of a lane or quad exchange. -/
def laneOpnd : Instr → Option Opnd
  | .lsh _ _ _ a _ _ => some a
  | .lxor _ _ a _ => some a
  | .lbc _ _ a _ => some a
  | .lrot _ _ a _ => some a
  | .qswp _ _ _ a => some a
  | .qbc _ _ a _ => some a
  | .lscan _ _ _ _ a => some a
  | _ => none
/-- Operand A of a lane or quad exchange is early for thread `t`, which reads it of its source threads (R168); what it
takes of a thread that has exited is no read of a register. -/
def Env.earlyLane (e : Env) (t : Nat) (i : Instr) (u : OpUse) : Bool :=
  (u.o.isK || (e.laneSources i t).any (fun n => !(e.exited n))) && e.earlyUse u

/-- The operands that R95 concerns: mma reads no register when it issues. -/
def earlyOperands : Instr → List OpUse
  | .mma .. => []
  | i => uses i

/-- The operand code of the first early operand of thread `t` (R95); none when nothing is early. A predicate or
system register has no operand code. DESIGN CHOICE (log entry 44; unsafe). -/
def Env.early? (e : Env) (t : Nat) (h : Hdr) (i : Instr) : Option (BitVec 11) :=
  match (earlyOperands i).zipIdx.find? (fun p =>
      if p.2 = 1 ∧ laneOpnd i = some p.1.o then e.earlyLane t i p.1 else e.earlyUse p.1) with
  | some p => some p.1.o.code
  | none => if e.earlyPred h i || e.earlySys i then some opndNone else none

/-! ### The accesses of instructions to on-die memory (R175 to R178) -/

/-- The four address spaces (R175). -/
inductive Space where | s | h | k | c
  deriving DecidableEq, Repr
/-- The range type an access needs (R177). -/
inductive Want where | any | plain | est
  deriving DecidableEq, Repr
/-- What an access needs: its space, the operand that holds the address, the offset and its scale, the size and
the alignment, and the range type. -/
structure Acc where
  sp : Space
  a : Opnd
  off : BitVec 12
  scale : Nat
  size : Nat
  align : Nat
  want : Want
  deriving DecidableEq, Repr

/-- An access to plain memory of a size that is also its scale and alignment. -/
def Acc.plain (sp : Space) (a : Opnd) (off : BitVec 12) (size : Nat) : Acc := ⟨sp, a, off, size, size, size, .plain⟩
/-- A load of the die scratchpad, which reads lines of either type (R177). -/
def Acc.raw (a : Opnd) (off : BitVec 12) (size : Nat) : Acc := { Acc.plain .s a off size with want := .any }
/-- Element width of ldt. -/
def ldtWidth (w : Fin 4) : Nat := 4 * 2 ^ w.val
/-- The access of ldt: one row of sixteen elements, with OFF12 × 16 (R183). -/
def ldtAcc (w : Fin 4) (a : Opnd) (off : BitVec 12) : Acc := ⟨.s, a, off, 16, 2 * ldtWidth w, 2 * ldtWidth w, .any⟩
/-- The access of a 32- or 64-bit atomic. -/
def atAcc (sp : Space) (a : Opnd) (off : BitVec 12) (wide : Bool) : Acc := Acc.plain sp a off (4 * wideRegs wide)
/-- The space of an atom.cas. -/
def casSpace : ASpace → Space | .s => .s | .h => .h | .c => .c
/-- The access of a barrier instruction (R175, R196). -/
def barAcc (a : Opnd) (off : BitVec 12) : Acc := Acc.plain .c a off 8
/-- The access of an arrival-word instruction (R199). -/
def arrAcc (a : Opnd) (off : BitVec 12) : Acc := Acc.plain .s a off 16
/-- The access of an estimator word. -/
def estAcc (a : Opnd) (off : BitVec 12) : Acc := ⟨.s, a, off, 16, 16, 16, .est⟩
/-- The access of xld (R223). -/
def xldAcc (sh : Bool) (a : Opnd) : Acc := ⟨if sh then .h else .s, a, 0, 1, 32, 32, .any⟩
/-- The extent of acc.ld and acc.st (R229). -/
def accMoveAcc (sh : Bool) (a : Opnd) (w : Want) : Acc := ⟨if sh then .h else .s, a, 0, 1, 4096, 64, w⟩

/-! ### What an instruction waits for before it issues (R184, R185, R191, R286, R287, R299, R300) -/

/-- The address of R176. -/
def Env.addr (e : Env) (t : Nat) (a : Opnd) (off : BitVec 12) (scale : Nat) : Nat :=
  (wrap32 (uw (e.w t 1 a) + off.toInt * scale)).toNat

/-- An instruction that is performed after earlier operations of its thread: after all of them with release semantics
and for a full fence, after its reads alone (`false`) for an acquire fence (R191, R286). -/
def ordersAfter : Instr → Option Bool
  | .fence _ .acq _ => some false
  | .fence .. => some true
  | .stS _ _ (some _) _ _ _ => some true
  | .stH _ _ (some _) _ _ _ => some true
  | .stC _ _ (some _) _ _ _ => some true
  | .barArrive .. => some true
  | .arrAdd .. => some true
  | .cpcLat .. => some true
  | .cpcGlz .. => some true
  | .cpcCut .. => some true
  | .cpcIcg .. => some true
  | .spawn .. => some true
  | .tdone .. => some true
  | _ => none
/-- The release waits until the thread's earlier stores are performed, as one of device scope does; one of narrower scope
comes after them for the agents of its scope alone, which wait for them when they acquire (R287, R292). -/
def storesFirst : Instr → Bool
  | .fence _ _ sc => sc == .dev
  | .stS _ _ ord _ _ _ => ord == some .dev
  | .stH _ _ ord _ _ _ => ord == some .dev
  | .stC _ _ ord _ _ _ => ord == some .dev
  | .barArrive .. => false
  | _ => true
/-- The access to on-die memory that an instruction makes at an address operand (R175 to R178). -/
def accOf : Instr → Option Acc
  | .ldS _ sz _ _ _ a off _ => some (Acc.raw a off sz.bytes)
  | .ldH _ sz _ _ _ a off _ => some (Acc.plain .h a off sz.bytes)
  | .ldC _ sz _ _ _ a off _ => some (Acc.plain .c a off sz.bytes)
  | .ldu _ sz _ _ a off _ => some (Acc.raw a off sz.bytes)
  | .ldt _ w _ a off _ => some (ldtAcc w a off)
  | .stS _ sz _ a off _ => some (Acc.plain .s a off sz.bytes)
  | .stH _ sz _ a off _ => some (Acc.plain .h a off sz.bytes)
  | .stC _ sz _ a off _ => some (Acc.plain .c a off sz.bytes)
  | .atomS _ _ wide _ a off _ _ => some (atAcc .s a off wide)
  | .atomH _ _ wide _ a off _ _ => some (atAcc .h a off wide)
  | .atomC _ _ wide _ a off _ _ => some (atAcc .c a off wide)
  | .redS _ _ wide _ a off _ => some (atAcc .s a off wide)
  | .redH _ _ wide _ a off _ => some (atAcc .h a off wide)
  | .redC _ _ wide _ a off _ => some (atAcc .c a off wide)
  | .cas _ sp wide _ a off _ _ => some (atAcc (casSpace sp) a off wide)
  | .barInit _ a off _ => some (barAcc a off)
  | .barArrive _ _ a off _ => some (barAcc a off)
  | .barWait _ a off _ => some (barAcc a off)
  | .arrInit _ a off _ => some (arrAcc a off)
  | .arrAdd _ a off _ => some (arrAcc a off)
  | .arrWait _ a off _ => some (arrAcc a off)
  | .arrRead _ _ a off _ => some (arrAcc a off)
  | .esamp _ a off _ => some (estAcc a off)
  | .esampW _ a off _ => some (estAcc a off)
  | .esampB _ a off _ => some (estAcc a off)
  | .eld _ _ a off _ _ => some (estAcc a off)
  | .xld _ sh _ a _ _ => some (xldAcc sh a)
  | .accLd _ sh _ a _ => some (accMoveAcc sh a .any)
  | .accSt _ sh a _ _ => some (accMoveAcc sh a .plain)
  | _ => none
/-- A copy command. -/
def isCopy : Instr → Bool
  | .copyG2s .. => true
  | .copyS2g .. => true
  | .copyS2s .. => true
  | .copyDie .. => true
  | .copyNet .. => true
  | _ => false
/-- The scope at which a copy acquires (R235). -/
def copyAcquires : Instr → Option Scope
  | .copyG2s _ acq _ sc .. => if acq then some sc else none
  | .copyS2g _ acq _ sc .. => if acq then some sc else none
  | .copyS2s _ acq _ sc .. => if acq then some sc else none
  | .copyDie _ acq _ sc .. => if acq then some sc else none
  | .copyNet _ acq _ sc .. => if acq then some sc else none
  | _ => none

/-- A move between an accumulator and memory that waits for a step (R229): team-shared or not, its first address, and
whether it writes memory. -/
structure AccMove where
  sh : Bool
  addr : Nat
  store : Bool
  deriving DecidableEq, Repr
/-- The move of an accumulator operation that has yet to act. -/
def AccAct.move : AccAct → Option AccMove
  | .ld _ sh a _ => some ⟨sh, a, false⟩
  | .st _ sh a => some ⟨sh, a, true⟩
  | _ => .none
/-- The accumulator moves of a group that have yet to be made. -/
def Group.accMoves (g : Group) : List AccMove := g.ops.filterMap (fun o => o.acc.move)
/-- Those of the group of an instruction. -/
def Env.accMoves (e : Env) : List AccMove := e.g.accMoves
/-- An access of `n` bytes at an address of a space meets `len` bytes at a place. -/
def Env.meets (e : Env) (sp : Space) (addr n : Nat) (l : Loc) (len : Nat) : Bool :=
  let at_ (x a : Nat) : Bool := decide (x < a + len) && decide (a < x + n)
  match sp, l with
  | .s, .die d a => d == e.team.die && at_ addr a
  | .h, .sh t o => t == e.team.id && at_ addr o
  | .c, .sh t o =>
    (match e.s.team? t with | some u => u.clusterNo == e.team.clusterNo && u.tic == bitsOf addr 29 3 | none => false) &&
      at_ (bitsOf addr 0 29) o
  | _, _ => false
/-- The place of an accumulator move of the group. -/
def Env.movePlace (e : Env) (m : AccMove) : Loc := if m.sh then .sh e.team.id m.addr else .die e.team.die m.addr
/-- The parts of the group's stores that have issued and are not performed yet: thread, place and bytes. -/
def Env.lateStores (e : Env) : List (Nat × Loc × List Byte) :=
  (e.s.late.filter (fun l => l.by_.team == e.team.id && l.by_.gix == e.g.gix)).flatMap (fun l => l.parts)
/-- The group's reads that have yet to be performed. -/
def Env.lateReads (e : Env) : List LateRead := e.g.ops.flatMap (fun o => o.reads)
/-- A request of a thread that stands in an input buffer (R279). -/
def Env.ownRequest (e : Env) (t : Nat) : EstReq → Bool
  | .contrib c => c.die == e.team.die && c.core == e.team.core && c.ctx == e.team.ctx && c.teamid == e.team.teamid && c.tid == e.tit t
  | .read team gix _ tid _ _ _ => team == e.team.id && gix == e.g.gix && tid == t
/-- A contribution, rather than a read. -/
def EstReq.isContrib : EstReq → Bool | .contrib _ => true | .read .. => false
/-- A contribution to a word that an access of `n` bytes at an address touches. -/
def EstReq.touches (a n : Nat) : EstReq → Bool
  | .contrib c => decide (c.addr < a + n) && decide (a < c.addr + 16)
  | .read .. => false
/-- A request of the thread that passes a test stands in an input buffer (R279). -/
def Env.ownAny (e : Env) (t : Nat) (p : EstReq → Bool) : Bool :=
  e.s.est.any (fun u => u.inbuf.any (fun r => e.ownRequest t r && p r))
/-- What thread `n` has issued counts for thread `t` of the instruction: it is the same thread, or an access of the group. -/
def sameIssuer (i : Instr) (t n : Nat) : Bool := n == t || n == 32 || isUniform i || isPerGroup i
/-- Earlier operations of the thread that the instruction orders before itself are not all performed: a contribution or an
eld of its own stands in an input buffer, an accumulator move is still to be made, or a store or a read of its own is
(R191, R286, R287). -/
def Env.ordersHold (e : Env) (i : Instr) (t : Nat) : Bool :=
  match ordersAfter i with
  | some all =>
    e.ownAny t (fun r => all || !r.isContrib) || e.accMoves.any (fun m => all || !m.store) ||
      (all && storesFirst i && e.lateStores.any (fun c => sameIssuer i t c.1)) || e.lateReads.any (fun r => sameIssuer i t r.tid)
  | none => false
/-- The instruction accesses bytes that an accumulator move of its group, or a store or a read of its thread, has yet to
read or write, or reads the raw bits of an estimator word to which a contribution of its thread is on its way (R185); a copy
waits for the accumulator moves that its group has yet to write out (R235). -/
def Env.bytesHold (e : Env) (i : Instr) (t : Nat) : Bool :=
  match accOf i with
  | some x =>
    let a := e.addr (if isUniform i || isPerGroup i then 32 else t) x.a x.off x.scale
    e.accMoves.any (fun m => e.meets x.sp a x.size (e.movePlace m) 4096) ||
      e.lateStores.any (fun c => sameIssuer i t c.1 && e.meets x.sp a x.size c.2.1 c.2.2.length) ||
      e.lateReads.any (fun r => sameIssuer i t r.tid && e.meets x.sp a x.size r.loc r.size) ||
      (x.want == .any && e.ownAny t (EstReq.touches a x.size))
  | none => isCopy i && e.accMoves.any AccMove.store
/-- A command on an estimator region. -/
def isRegion : Instr → Bool
  | .ereg .. => true
  | .edecay .. => true
  | .eflush .. => true
  | .eclr .. => true
  | _ => false
/-- The instruction is, or causes, an operation on memory that other agents share (R191, R282, R400). -/
def accesses (i : Instr) : Bool :=
  (accOf i).isSome || (ordersAfter i).isSome || isCopy i || isRegion i || (match i with | .tget .. => true | _ => false)
/-- The thread has acquired what a release orders after a store that is still to be performed: it goes on to further
operations on memory when it is (R287, R289); so does a copy that acquires it (R235). -/
def Env.awaitHold (e : Env) (i : Instr) (t : Nat) : Bool :=
  let g : Agent := .thread e.team.id (e.tit t)
  (accesses i && e.s.late.any (fun x => x.awaits.any (fun q => q.1 == g))) ||
    (match copyAcquires i with
     | some sc => e.s.late.any (fun x => e.s.metLate x (e.team.author e.g.gix) g sc false)
     | none => false)
/-- What a thread has issued before the instruction and is not performed yet keeps the instruction from issuing. -/
def Env.holdsFor (e : Env) (i : Instr) (t : Nat) : Bool := e.ordersHold i t || e.bytesHold i t || e.awaitHold i t
/-- The instruction waits, for a guard-true thread, before it issues. -/
def Env.holds (e : Env) (i : Instr) : Bool :=
  match hdrOf i with
  | some h => e.act.any (fun t => e.guard h t && e.holdsFor i t)
  | none => false

end Sys2Proof.Machine
end

