-- ==== Sys2Proof/Machine/Issue.lean ====
section
/-!
DEFINITION. How an instruction of a group is performed (R81, R90 to R92, R111, R112, R138): the results of
its threads, how they are written, where each thread goes next, and the group's timing. Every meaning of an
Igfin instruction is one call of `perform`, `performU` or `performG` over its own effect.
-/

namespace Sys2Proof.Machine

/-- A step's answer. -/
abbrev Out := Host.Outcome State Fault Refusal

/-- Where a thread goes after an instruction (R81, R112). -/
inductive Leave where
  /-- It falls through. -/
  | fall
  /-- It transfers to a PC value. -/
  | goto (pc : DWord)
  /-- It faults, with TRAPPC its own PC. -/
  | trap (f : PendFault)
  /-- It traps with the PC and loop stack of its fall-through (trap and bkpt, R127). -/
  | trapNext (f : PendFault)
  /-- It exits (R117). -/
  | exit
  /-- It returns from the handler, having read TRAPPC (R131). -/
  | rfe (v : DWord)
  /-- Back-pressure keeps it at the instruction (R217). -/
  | stay
  /-- It waits at the next block (R196, R200). -/
  | park (w : WaitOn) (opnd : BitVec 11)
  /-- A block-ending wait that was already satisfied: it continues into the next clause, an ENTRY clause (R80). -/
  | waited
  /-- It falls through and is deferred (R132). -/
  | yield
  /-- It falls through after its MR, which held `old`, has been replaced (R119, R120). -/
  | met (old : DWord)
  deriving DecidableEq, Repr

/-- What an instruction does to one thread: register codes and predicates written, flags, a change of the
thread's loop stack and MR, and where it goes. -/
structure TRes where
  writes : List (Nat × Word) := []
  preds : List (Nat × Bool) := []
  flags : FlagBits := 0
  loops : Option (List LoopEntry) := none
  mr : Option DWord := none
  leave : Leave := .fall
  deriving DecidableEq, Repr

/-- Write one word to an operand. -/
def wr (o : Opnd) (v : Word) : List (Nat × Word) := [(o.code.toNat, v)]
/-- Write a 64-bit value to the pair an operand names. -/
def wr64 (o : Opnd) (v : DWord) : List (Nat × Word) := [(o.code.toNat, loWord v), (o.code.toNat + 1, hiWord v)]
/-- Write consecutive registers. -/
def wrRun (o : Opnd) (vs : List Word) : List (Nat × Word) := vs.zipIdx.map (fun p => (o.code.toNat + p.2, p.1))
/-- A fault without a value. DEDUCED (log entry 10; unsafe). -/
def faultRes (c : Cause) (opnd : BitVec 11) (v : Word) : TRes := { leave := .trap ⟨c, opnd, v⟩ }

/-! ### Writing results -/

/-- Write a V or T register of a thread (R28, R30). -/
def Thread.writeReg (th : Thread) (code : Nat) (v : Word) : Thread :=
  if code < 1536 then { th with v := th.v.write code v }
  else if 1792 ≤ code then
    { th with t := th.t.write (code - 1792) v, tdef := th.tdef ||| BitVec.ofNat 16 (2 ^ (code - 1792)) }
  else th
/-- Write a predicate; a write to P0 is discarded (R31). -/
def Thread.writePred (th : Thread) (n : Nat) (b : Bool) : Thread :=
  if n = 0 ∨ 8 ≤ n then th
  else { th with p := if b then th.p ||| BitVec.ofNat 8 (2 ^ n) else th.p &&& ~~~ (BitVec.ofNat 8 (2 ^ n)) }
/-- Write a K register of a group. -/
def Group.writeK (g : Group) (code : Nat) (v : Word) : Group := { g with k := g.k.write (code - 1536) v }
/-- Write a register of a thread, or of the group for a K code. -/
def Group.writeCode (g : Group) (t code : Nat) (v : Word) : Group :=
  if 1536 ≤ code ∧ code < 1792 then g.writeK code v else g.modThread t (fun th => th.writeReg code v)

/-- An early write leaves the register with either value (R95): either the pending result is still to come, or
it is dropped. DEDUCED (log entry 41; unsafe). -/
def Group.dropPending (key : Nat) (g : Group) (t code : Nat) : Group :=
  if g.ops.any (fun o => o.regs.contains (ownerOf code t, code)) && Config.freeBool (freeKey key 31 t code) then
    { g with ops := g.ops.map (fun o => { o with regs := o.regs.filter (fun r => r ≠ (ownerOf code t, code)) }) }
  else g

/-- Apply the register results and flags of one thread. -/
def Group.applyRes (key : Nat) (helper : Bool) (g : Group) (t : Nat) (r : TRes) : Group :=
  let g1 := r.writes.foldl (fun g w => (g.dropPending key t w.1).writeCode t w.1 w.2) g
  let g2 := r.preds.foldl (fun g w => (g.dropPending key t (predCode w.1)).modThread t (fun th => th.writePred w.1 w.2)) g1
  let g3 := g2.modThread t (fun th => { th with loops := r.loops.getD th.loops, mr := r.mr.getD th.mr })
  g3.setFlags helper r.flags

/-! ### Leaving (R81, R112) -/

/-- A thread arrives at the clause after a block-ending wait: that clause must be an ENTRY clause (R80). -/
def State.afterWait (s : State) (id gix i : Nat) (w : Option (WaitOn × BitVec 11)) : State :=
  match s.team? id, s.thread? id gix i with
  | some t, some th =>
    let c := s.contOf t.ctx th.pc th.loops
    let h := s.codeAt t.ctx (pcAddr c.pc)
    match w with
    | some (on, o) =>
      let wait : Wait := ⟨th.pc, o, on, th.loops, th.tdef⟩
      s.modTeam id (fun t =>
        (t.modThread gix i (fun th => { th with pc := c.pc, loops := c.loops, wait := some wait })).enterMeet gix i)
    | none =>
      if hdrOk h && hdrEntry h then
        s.modTeam id (fun t => (t.modThread gix i (fun th => { th with pc := c.pc, loops := c.loops })).enterMeet gix i)
      else s.trapAt id gix i ⟨.badtarget, opndNone, BitVec.ofNat 32 (pcAddr c.pc)⟩
  | _, _ => s

/-- yield (R132): the thread falls through into an ENTRY clause and is deferred. -/
def State.doYield (s : State) (id gix i : Nat) : State :=
  match s.team? id, s.thread? id gix i with
  | some t, some th =>
    let c := s.contOf t.ctx th.pc th.loops
    if c.ends then
      s.modTeam id (fun t =>
        (t.modThread gix i (fun th => { th with pc := c.pc, loops := c.loops, deferred := true })).enterMeet gix i)
    else s.trapAt id gix i ⟨.badtarget, opndNone, BitVec.ofNat 32 (pcAddr c.pc)⟩
  | _, _ => s

/-- Where one thread that has not exited goes. -/
def State.leaveLive (s : State) (id gix i : Nat) : Leave → State
  | .fall => s.fallThrough id gix i
  | .goto pc => s.modTeam id (fun t => t.transfer gix i pc)
  | .trap f => s.trapAt id gix i f
  | .trapNext f =>
    match s.team? id, s.thread? id gix i with
    | some t, some th => let c := s.contOf t.ctx th.pc th.loops; s.trapEnter id gix i f c.pc c.loops
    | _, _ => s
  | .exit => s.exitThread id gix i
  | .rfe v => s.rfe id gix i v
  | .stay => s
  | .park w o => s.afterWait id gix i (some (w, o))
  | .waited => s.afterWait id gix i none
  | .yield => s.doYield id gix i
  | .met old => (s.modTeam id (fun t => t.meetCheck gix old)).fallThrough id gix i

/-- Where one thread goes; a thread that has exited, as when its team has been killed, goes nowhere. -/
def State.leave (s : State) (id gix i : Nat) (l : Leave) : State :=
  match s.thread? id gix i with
  | none => s
  | some th => if th.exited then s else s.leaveLive id gix i l

/-! ### Threads whose wait ends (R175, R196, R200, R256) -/

/-- A barrier wait whose target carve-out is gone: its team has been killed, or is neither placed nor saved.
DEDUCED (log entry 27; unsafe). -/
def State.waitGone (s : State) (th : Thread) : Bool :=
  match th.wait with
  | some ⟨_, _, .bar team _ _ _, _, _⟩ =>
    (match s.team? team with | some t => t.killed.isSome | none => !(s.saved.any (fun x => x.id == team)))
  | _ => false

/-- Every thread parked on a barrier word of a carve-out that is gone is released and raises CLUADDR at its
wait (R175); one of a halted team when its wait runs again (R56). A trap here can kill its own team, so the pass is repeated, at most once for each team. -/
def State.wakeGone : Nat → State → State
  | 0, s => s
  | n + 1, s =>
    let l := (s.teams.filter (fun t => !t.halted)).flatMap (fun t => (t.all.filter (fun p => s.waitGone p.2.2)).map (fun p => (t.id, p)))
    if l.isEmpty then s
    else
      State.wakeGone n (l.foldl (fun a q =>
        match q.2.2.2.wait with
        | some ⟨_, o, .bar _ _ _ addr, _, _⟩ =>
          (a.modThread q.1 q.2.1 q.2.2.1 Thread.atWait).trapAt q.1 q.2.1 q.2.2.1 ⟨.cluaddr, o, addr⟩
        | _ => a) s)

/-- Consequences of a kill that fall in the same cycle. -/
def State.settle (s : State) : State := State.wakeGone (s.teams.length + 1) s

/-! ### Retiring an instruction -/

/-- Passes of an instruction over `n` streamed threads (R91, R252). -/
def passes (i : Instr) (n : Nat) : Nat :=
  let j := match i with
    | .illop w _ => (match parseWord w with | .ok j => j | .error _ => i)
    | _ => i
  if isUniform j || isPerGroup j then 1 else ceilDiv n 4

/-- The cycle in which a streamed thread's own pass issues, four threads to a pass (R44, R91, R252). -/
def Env.passCycle (e : Env) (t : Nat) : Nat := e.fp + e.act.idxOf t / 4
/-- The cycle in which a streamed thread performs an instruction (R91). -/
def Env.cycleOf (e : Env) (i : Instr) (t : Nat) : Nat := if passes i 32 = 1 then e.fp else e.passCycle t

/-- The windows an instruction opens (R92): its destination registers and predicates, for a fixed latency. -/
def newWindows (i : Instr) (last : Nat) : List Window :=
  match latency i with
  | none => []
  | some l =>
    ((uses i).filter (fun u => u.wr)).flatMap (fun u => (codesOf u).map (fun c => ⟨.reg c, last + l + 1, 0⟩)) ++
      ((predWrites i).filter (fun p => p ≠ 0)).map (fun p => ⟨.pred p.val, last + l + 1, 0⟩)

/-- Timing of the group after an instruction (R81, R91, R92): the next first pass, the windows, which its last pass opens,
whatever it wrote, and the clause. DESIGN CHOICE (log entry 3; unsafe). DEDUCED (log entry 45; unsafe). -/
def Group.retime (g : Group) (e : Env) (i : Instr) (h : Hdr) (held : Bool) (extra : List Window) : Group :=
  let last := e.fp + passes i e.act.length - 1
  { g with
    nextIssue := last + 1 + h.stall.val, lastPass := last,
    windows := g.windows.filter (fun w => decide (e.fp < w.from_)) ++ (if e.more then [] else newWindows i last) ++ extra,
    clauseAt := if held || decide (pcIdx e.pc < hdrCnt e.hdr) then some (BitVec.ofNat 48 e.hdrAddr) else none,
    held := held }

/-- Retire an instruction: each thread's results and departure in ascending thread index, each departure in the cycle of
its pass, then the timing. -/
def retire (e : Env) (i : Instr) (h : Hdr) (rs : List (Nat × TRes)) (s : State) : State :=
  let id := e.team.id
  let gix := e.g.gix
  let s1 := rs.foldl (fun a r => a.modGroup id gix (fun g => g.applyRes s.nonce (e.helper r.1) r.1 r.2)) (s.clockTo e.fp)
  let s2 := rs.foldl (fun a r => a.atCycle (e.cycleOf i r.1) (fun a => a.leave id gix r.1 r.2.leave)) s1
  let held := e.more || rs.any (fun r => r.2.leave == .stay)
  let s3 := s2.modGroup id gix (fun g => g.retime e i h held [])
  let s4 := if e.g.held then s3 else s3.modTeam id (fun t => { t with budget := if t.budgeted then t.budget - 1 else t.budget })
  s4.settle.bumpNonce

/-- The threads that perform the instruction: guard true and no STALLSHORT. -/
def Env.live (e : Env) (i : Instr) (h : Hdr) : List Nat :=
  e.act.filter (fun t => e.guard h t && !(e.chksb && (e.early? t h i).isSome))
/-- The result of a streamed thread that does not perform the instruction: it stays where the instruction holds the
group (R217). -/
def Env.idleRes (e : Env) (i : Instr) (h : Hdr) (held : Bool) (t : Nat) : TRes :=
  if e.guard h t then faultRes .stallshort ((e.early? t h i).getD opndNone) 0
  else if held then { leave := .stay } else {}

/-- The results of all streamed threads, from those that perform the instruction. -/
def Env.results (e : Env) (i : Instr) (h : Hdr) (f : Nat → TRes) : List (Nat × TRes) :=
  let held := (e.live i h).any (fun t => (f t).leave == .stay)
  e.act.map (fun t => (t, if (e.live i h).contains t then f t else e.idleRes i h held t))

/-- An instruction with VRANGE: every streamed thread faults (R90). -/
def Env.allFault (e : Env) (i : Instr) (h : Hdr) (c : Cause) (o : BitVec 11) (v : Word) (s : State) : State :=
  retire e i h (e.act.map (fun t => (t, faultRes c o v))) s

/-- The slot of a group is busy (R33). -/
def Group.busy (g : Group) (sb : Nat) : Bool := g.ops.any (fun o => o.slot == sb)

/-- An instruction that fills its scoreboard slot request by request while it is held part-way (R279). -/
def joinsSlot : Instr → Bool
  | .eld .. => true
  | _ => false
/-- A variable-latency instruction that names a busy slot stalls the group (R33), unless the slot is busy with what it has
itself issued so far. -/
def slotStall (g : Group) (i : Instr) : Bool :=
  match slotOf i with | some sb => g.busy sb.val && !(g.held && joinsSlot i) | none => false

/-- The team's budget is spent, and the instruction has not begun before (R264). -/
def Env.spent (e : Env) : Bool := e.team.budgeted && e.team.budget == 0 && !e.g.held

/-- The team is killed for TIMEOUT (R264). -/
def State.timeoutKill (s : State) (id : Nat) : State := (s.killTeam id .timeout).settle.bumpNonce

/-- Perform an instruction whose effect is a change of the state followed by a result for each live thread. A
group that stalls stays as it is; an instruction that would begin with the budget spent kills the team; the ILLOP `chk`
of every streamed thread and VRANGE come, in that order, before the instruction's own effect (R90). -/
def performChecked (i : Instr) (h : Hdr) (s : State) (stall : Env → Bool) (chk : Env → Option PendFault)
    (body : Env → List Nat → State → State × (Nat → TRes)) : Out :=
  match env? s with
  | none => .next s
  | some e =>
    if slotStall e.g i || e.holds i || stall e then .next s
    else if e.spent then .next ((s.clockTo e.fp).timeoutKill e.team.id)
    else
      match chk e with
      | some f => .next (e.allFault i h f.cause f.opnd f.value s)
      | none =>
        match vrange? e.g i with
        | some o => .next (e.allFault i h .vrange o 0 s)
        | none =>
          let r := body e (e.live i h) s
          .next (retire e i h (e.results i h r.2) r.1)

/-- The same without faults of every streamed thread. -/
def performStall (i : Instr) (h : Hdr) (s : State) (stall : Env → Bool)
    (body : Env → List Nat → State → State × (Nat → TRes)) : Out :=
  performChecked i h s stall (fun _ => none) body

/-- The same for an instruction with no stall of its own. -/
def performWith (i : Instr) (h : Hdr) (s : State) (body : Env → List Nat → State → State × (Nat → TRes)) : Out :=
  performStall i h s (fun _ => false) body

/-- Perform an instruction that acts on registers alone, thread by thread (R138). -/
def perform (i : Instr) (h : Hdr) (s : State) (f : Env → Nat → TRes) : Out :=
  performWith i h s (fun e _ s => (s, f e))

/-- Perform an instruction that has a uniform form (R139): with a K destination it runs once for the group, as
thread 32, and every streamed thread falls through. -/
def performU (i : Instr) (h : Hdr) (s : State) (f : Env → Nat → TRes) : Out :=
  if isUniform i then
    performWith i h s (fun e ts s =>
      if ts.isEmpty then (s, fun _ => {})
      else (s.modGroup e.team.id e.g.gix (fun g => g.applyRes s.nonce false 32 (f e 32)), fun _ => {}))
  else perform i h s f

/-- A thread that is no helper performs the instruction (R204, R216). -/
def Env.anyReal (e : Env) (i : Instr) (h : Hdr) : Bool := (e.live i h).any (fun t => !e.helper t)

/-- Perform a region command or an instruction of the per-group mode (R204, R216): once, when a guard-true thread
that is no helper is streamed; its result or fault goes to every live thread. A stall holds the group. -/
def performG (i : Instr) (h : Hdr) (s : State) (stall : Env → Bool) (body : Env → State → State × TRes) : Out :=
  performStall i h s (fun e => e.anyReal i h && stall e) fun e _ s =>
    if e.anyReal i h then let r := body e s; (r.1, fun _ => r.2) else (s, fun _ => {})

/-- One pass over threads in ascending order, in which a thread that back-pressure holds keeps back every later
one (R217, R237, R242, R279): the state and each thread's result. -/
def entering (f : State → Nat → State × TRes) (s : State) (ts : List Nat) : State × List (Nat × TRes) :=
  let r := ts.foldl (fun (a : State × List (Nat × TRes) × Bool) t =>
    if a.2.2 then (a.1, a.2.1 ++ [(t, { leave := .stay })], true)
    else
      let x := f a.1 t
      (x.1, a.2.1 ++ [(t, x.2)], x.2.leave == .stay)) (s, [], false)
  (r.1, r.2.1)
/-- One pass over threads in ascending order, each of which acts: the state and each thread's result. -/
def eachThread (f : State → Nat → State × TRes) (s : State) (ts : List Nat) : State × List (Nat × TRes) :=
  ts.foldl (fun a t => let x := f a.1 t; (x.1, a.2 ++ [(t, x.2)])) (s, [])
/-- A thread's result in a list of results. -/
def resultOf (l : List (Nat × TRes)) (t : Nat) : TRes :=
  match l.find? (fun p => p.1 == t) with | some p => p.2 | none => {}

/-- Encoding faults raised by the step (R79, R89): every streamed thread raises ILLOP. STALL of the word holds for the
group's next instruction all the same (R91). -/
def execIllop (w : DWord) (opnd : BitVec 11) (s : State) : Out :=
  match env? s with
  | none => .next s
  | some e =>
    if e.spent then .next ((s.clockTo e.fp).timeoutKill e.team.id)
    else .next (e.allFault (.illop w opnd) (RawInstr.unpack w).hdr .illop opnd (loWord w) s)

/-- A bad clause header (R78): every thread that would be streamed raises BADCLAUSE with TRAPPC the header, and
no instruction issues. -/
def execBadclause (hdr : DWord) (s : State) : Out :=
  match env? s with
  | none => .next s
  | some e =>
    let f : PendFault := ⟨.badclause, opndNone, hdrFaultValue hdr⟩
    let s1 := e.act.foldl (fun a t =>
      match a.thread? e.team.id e.g.gix t with
      | some th => a.trapEnter e.team.id e.g.gix t f (mkPc e.hdrAddr 0) th.loops
      | none => a) (s.clockTo e.fp)
    .next s1.settle.bumpNonce

end Sys2Proof.Machine
end

