-- ==== Sys2Proof/Machine/Integer.lean ====
section
/-!
DEFINITION. The integer and address instructions, MAJOR 0x20 to 0x37 (R142 to R151).
-/

namespace Sys2Proof.Machine

/-! ### Results -/

/-- A saturating 32-bit result (R69, R142): SAT when the clamp changes the value. -/
def sat32 (sgn : Bool) (x : Int) : Word × FlagBits :=
  let c := if sgn then satI 32 x else satN 32 x
  (wrap32 c, flagIf (c != x) fSAT)

/-- add (R142) on 32-bit operands. -/
def addRes (f : SumForm) (a b c : Word) : Word × FlagBits :=
  match f with
  | .i32sat => sat32 true (sw a + sw b + sw c)
  | .n32sat => sat32 false (uw a + uw b + uw c)
  | _ => (a + b + c, 0)
/-- sub (R142) on 32-bit operands. -/
def subRes (f : SumForm) (a b : Word) : Word × FlagBits :=
  match f with
  | .i32sat => sat32 true (sw a - sw b)
  | .n32sat => sat32 false (uw a - uw b)
  | _ => (a - b, 0)
/-- neg (R142) on a 32-bit operand. -/
def negRes (f : NegForm) (a : Word) : Word × FlagBits :=
  match f with | .i32sat => sat32 true (-(sw a)) | _ => (0 - a, 0)
/-- abs (R142) on a 32-bit operand. -/
def absRes (f : NegForm) (a : Word) : Word × FlagBits :=
  match f with | .i32sat => sat32 true (sw a).natAbs | _ => (wrap32 (sw a).natAbs, 0)
/-- addc (R143). -/
def addcRes (co : Bool) (a b c : Word) : Word :=
  let x := a.toNat + b.toNat + c.toNat % 2
  if co then BitVec.ofNat 32 (x / 2 ^ 32) else BitVec.ofNat 32 x
/-- subb (R143). -/
def subbRes (bo : Bool) (a b c : Word) : Word :=
  if bo then (if a.toNat < b.toNat + c.toNat % 2 then 1 else 0) else wrap32 (uw a - uw b - uw c % 2)
/-- The high half of an exact product, rounded toward −Inf (R144). -/
def mulHi (uns : Bool) (a b : Word) : Int := (if uns then uw a * uw b else sw a * sw b) / 2 ^ 32
/-- mul (R144), forms with a 32-bit result. -/
def mulRes (f : MulForm) (a b : Word) : Word × FlagBits :=
  match f with
  | .i32sat => sat32 true (sw a * sw b)
  | .n32sat => sat32 false (uw a * uw b)
  | _ => (a * b, 0)
/-- mul.wide and mad.wide (R144). -/
def mulWide (uns : Bool) (a b : Word) : DWord := wrap64 (if uns then uw a * uw b else sw a * sw b)
/-- Whether the first source is the lesser (R145). -/
def lessRes (uns : Bool) (a b : Int) (ua ub : Int) : Bool := if uns then decide (ua < ub) else decide (a < b)
/-- min and max (R145) of 32-bit operands: the chosen source's bits. -/
def minmax32 (uns isMax : Bool) (a b : Word) : Word :=
  if lessRes uns (sw a) (sw b) (uw a) (uw b) != isMax then a else b
/-- min and max (R145) of pairs. -/
def minmax64 (uns isMax : Bool) (a b : DWord) : DWord :=
  if lessRes uns a.toInt b.toInt a.toNat b.toNat != isMax then a else b
/-- shl, shr, sar, rot (R146). -/
def shlRes (a b : Word) : Word := if 32 ≤ b.toNat then 0 else a <<< b.toNat
/-- shr. -/
def shrRes (a b : Word) : Word := if 32 ≤ b.toNat then 0 else a >>> b.toNat
/-- sar. -/
def sarRes (a b : Word) : Word := a.sshiftRight (if b.toNat < 31 then b.toNat else 31)
/-- rot. -/
def rotRes (a b : Word) : Word := a.rotateLeft (b.toNat % 32)
/-- clz (R146). -/
def clzRes (a : Word) : Word := BitVec.ofNat 32 (32 - bitLen a.toNat)
/-- popc (R146). -/
def popcRes (a : Word) : Word := BitVec.ofNat 32 (popNat 32 a.toNat)
/-- brev (R146). -/
def brevRes (a : Word) : Word := BitVec.ofNat 32 (bitsMask ((List.range 32).filter (fun i => a.getLsbD (31 - i))))
/-- bfe (R147). -/
def bfeRes (sgn : Bool) (a b c : Word) : Word :=
  let pos := if b.toNat < 32 then b.toNat else 32
  let w := if c.toNat < 32 - pos then c.toNat else 32 - pos
  let f := a.toNat / 2 ^ pos % 2 ^ w
  if sgn then wrap32 (sextNat w f) else BitVec.ofNat 32 f
/-- bfi (R147). -/
def bfiRes (a b c : Word) : Word :=
  let p0 := bitsOf c.toNat 0 8
  let w0 := bitsOf c.toNat 8 8
  let pos := if p0 < 32 then p0 else 32
  let w := if w0 < 32 - pos then w0 else 32 - pos
  let mask : Word := BitVec.ofNat 32 ((2 ^ w - 1) * 2 ^ pos)
  (b &&& ~~~mask) ||| (BitVec.ofNat 32 (a.toNat * 2 ^ pos) &&& mask)
/-- lea (R148). -/
def leaRes (sh : Nat) (a b c : Word) : Word := BitVec.ofNat 32 (a.toNat + b.toNat * 2 ^ sh + c.toNat)
/-- addmin and addmax (R149). -/
def addminRes (uns isMax : Bool) (a b c : Word) : Word × FlagBits :=
  let e := if uns then uw a + uw b else sw a + sw b
  let y := if uns then uw c else sw c
  sat32 (!uns) (if decide (e < y) != isMax then e else y)
/-- div (R150). -/
def divRes (uns : Bool) (a b : Word) : Word :=
  if b = 0 then 0xFFFFFFFF else if uns then a / b else wrap32 ((sw a).tdiv (sw b))
/-- rem (R150). -/
def remRes (uns : Bool) (a b : Word) : Word :=
  if b = 0 then a else if uns then a % b else wrap32 ((sw a).tmod (sw b))

/-! ### Meanings -/

/-- A result of one word with flags. -/
def res1 (d : Opnd) (r : Word × FlagBits) : TRes := { writes := wr d r.1, flags := r.2 }

/-- add (R142). -/
def execAdd (h : Hdr) (f : SumForm) (d a b c : Opnd) (s : State) : Out :=
  performU (.add h f d a b c) h s fun e t =>
    match f with
    | .i64 => { writes := wr64 d (e.pair t 1 a + e.pair t 2 b + e.pair t 3 c) }
    | _ => res1 d (addRes f (e.w t 1 a) (e.w t 2 b) (e.w t 3 c))
/-- addc (R143). -/
def execAddc (h : Hdr) (co : Bool) (d a b c : Opnd) (s : State) : Out :=
  performU (.addc h co d a b c) h s fun e t => { writes := wr d (addcRes co (e.w t 1 a) (e.w t 2 b) (e.w t 3 c)) }
/-- sub (R142). -/
def execSub (h : Hdr) (f : SumForm) (d a b : Opnd) (s : State) : Out :=
  performU (.sub h f d a b) h s fun e t =>
    match f with
    | .i64 => { writes := wr64 d (e.pair t 1 a - e.pair t 2 b) }
    | _ => res1 d (subRes f (e.w t 1 a) (e.w t 2 b))
/-- subb (R143). -/
def execSubb (h : Hdr) (bo : Bool) (d a b c : Opnd) (s : State) : Out :=
  performU (.subb h bo d a b c) h s fun e t => { writes := wr d (subbRes bo (e.w t 1 a) (e.w t 2 b) (e.w t 3 c)) }
/-- neg (R142). -/
def execNeg (h : Hdr) (f : NegForm) (d a : Opnd) (s : State) : Out :=
  performU (.neg h f d a) h s fun e t =>
    match f with
    | .i64 => { writes := wr64 d (0 - e.pair t 1 a) }
    | _ => res1 d (negRes f (e.w t 1 a))
/-- abs (R142). -/
def execAbs (h : Hdr) (f : NegForm) (d a : Opnd) (s : State) : Out :=
  performU (.abs h f d a) h s fun e t =>
    match f with
    | .i64 => { writes := wr64 d (wrap64 (e.pair t 1 a).toInt.natAbs) }
    | _ => res1 d (absRes f (e.w t 1 a))
/-- mul (R144). -/
def execMul (h : Hdr) (f : MulForm) (d a b : Opnd) (s : State) : Out :=
  performU (.mul h f d a b) h s fun e t =>
    match f with
    | .i64 => { writes := wr64 d (e.pair t 1 a * e.pair t 2 b) }
    | .wideI => { writes := wr64 d (mulWide false (e.w t 1 a) (e.w t 2 b)) }
    | .wideN => { writes := wr64 d (mulWide true (e.w t 1 a) (e.w t 2 b)) }
    | _ => res1 d (mulRes f (e.w t 1 a) (e.w t 2 b))
/-- mulhi (R144). -/
def execMulhi (h : Hdr) (uns : Bool) (d a b : Opnd) (s : State) : Out :=
  performU (.mulhi h uns d a b) h s fun e t => { writes := wr d (wrap32 (mulHi uns (e.w t 1 a) (e.w t 2 b))) }
/-- mad (R144). -/
def execMad (h : Hdr) (f : MadForm) (d a b c : Opnd) (s : State) : Out :=
  performU (.mad h f d a b c) h s fun e t =>
    match f with
    | .i32 => { writes := wr d (e.w t 1 a * e.w t 2 b + e.w t 3 c) }
    | .wideI => { writes := wr64 d (mulWide false (e.w t 1 a) (e.w t 2 b) + e.pair t 3 c) }
    | .wideN => { writes := wr64 d (mulWide true (e.w t 1 a) (e.w t 2 b) + e.pair t 3 c) }
/-- madhi (R144). -/
def execMadhi (h : Hdr) (uns : Bool) (d a b c : Opnd) (s : State) : Out :=
  performU (.madhi h uns d a b c) h s fun e t =>
    { writes := wr d (wrap32 (mulHi uns (e.w t 1 a) (e.w t 2 b) + uw (e.w t 3 c))) }
/-- min (R145). -/
def execMin (h : Hdr) (f : CmpForm) (d a b : Opnd) (s : State) : Out :=
  performU (.min h f d a b) h s fun e t =>
    match f with
    | .i32 => { writes := wr d (minmax32 false false (e.w t 1 a) (e.w t 2 b)) }
    | .n32 => { writes := wr d (minmax32 true false (e.w t 1 a) (e.w t 2 b)) }
    | .i64 => { writes := wr64 d (minmax64 false false (e.pair t 1 a) (e.pair t 2 b)) }
    | .n64 => { writes := wr64 d (minmax64 true false (e.pair t 1 a) (e.pair t 2 b)) }
/-- max (R145). -/
def execMax (h : Hdr) (f : CmpForm) (d a b : Opnd) (s : State) : Out :=
  performU (.max h f d a b) h s fun e t =>
    match f with
    | .i32 => { writes := wr d (minmax32 false true (e.w t 1 a) (e.w t 2 b)) }
    | .n32 => { writes := wr d (minmax32 true true (e.w t 1 a) (e.w t 2 b)) }
    | .i64 => { writes := wr64 d (minmax64 false true (e.pair t 1 a) (e.pair t 2 b)) }
    | .n64 => { writes := wr64 d (minmax64 true true (e.pair t 1 a) (e.pair t 2 b)) }
/-- and (R146). -/
def execAnd (h : Hdr) (d a b : Opnd) (s : State) : Out :=
  performU (.and h d a b) h s fun e t => { writes := wr d (e.w t 1 a &&& e.w t 2 b) }
/-- or (R146). -/
def execOr (h : Hdr) (d a b : Opnd) (s : State) : Out :=
  performU (.or h d a b) h s fun e t => { writes := wr d (e.w t 1 a ||| e.w t 2 b) }
/-- xor (R146). -/
def execXor (h : Hdr) (d a b : Opnd) (s : State) : Out :=
  performU (.xor h d a b) h s fun e t => { writes := wr d (e.w t 1 a ^^^ e.w t 2 b) }
/-- andn (R146). -/
def execAndn (h : Hdr) (d a b : Opnd) (s : State) : Out :=
  performU (.andn h d a b) h s fun e t => { writes := wr d (e.w t 1 a &&& ~~~(e.w t 2 b)) }
/-- not (R146). -/
def execNot (h : Hdr) (d a : Opnd) (s : State) : Out :=
  performU (.not h d a) h s fun e t => { writes := wr d (~~~(e.w t 1 a)) }
/-- shl (R146). -/
def execShl (h : Hdr) (d a b : Opnd) (s : State) : Out :=
  performU (.shl h d a b) h s fun e t => { writes := wr d (shlRes (e.w t 1 a) (e.w t 2 b)) }
/-- shr (R146). -/
def execShr (h : Hdr) (d a b : Opnd) (s : State) : Out :=
  performU (.shr h d a b) h s fun e t => { writes := wr d (shrRes (e.w t 1 a) (e.w t 2 b)) }
/-- sar (R146). -/
def execSar (h : Hdr) (d a b : Opnd) (s : State) : Out :=
  performU (.sar h d a b) h s fun e t => { writes := wr d (sarRes (e.w t 1 a) (e.w t 2 b)) }
/-- rot (R146). -/
def execRot (h : Hdr) (d a b : Opnd) (s : State) : Out :=
  performU (.rot h d a b) h s fun e t => { writes := wr d (rotRes (e.w t 1 a) (e.w t 2 b)) }
/-- clz (R146). -/
def execClz (h : Hdr) (d a : Opnd) (s : State) : Out :=
  performU (.clz h d a) h s fun e t => { writes := wr d (clzRes (e.w t 1 a)) }
/-- popc (R146). -/
def execPopc (h : Hdr) (d a : Opnd) (s : State) : Out :=
  performU (.popc h d a) h s fun e t => { writes := wr d (popcRes (e.w t 1 a)) }
/-- brev (R146). -/
def execBrev (h : Hdr) (d a : Opnd) (s : State) : Out :=
  performU (.brev h d a) h s fun e t => { writes := wr d (brevRes (e.w t 1 a)) }
/-- bfe (R147). -/
def execBfe (h : Hdr) (sgn : Bool) (d a b c : Opnd) (s : State) : Out :=
  performU (.bfe h sgn d a b c) h s fun e t => { writes := wr d (bfeRes sgn (e.w t 1 a) (e.w t 2 b) (e.w t 3 c)) }
/-- bfi (R147). -/
def execBfi (h : Hdr) (d a b c : Opnd) (s : State) : Out :=
  performU (.bfi h d a b c) h s fun e t => { writes := wr d (bfiRes (e.w t 1 a) (e.w t 2 b) (e.w t 3 c)) }
/-- lea (R148). -/
def execLea (h : Hdr) (sh : Fin 8) (d a b c : Opnd) (s : State) : Out :=
  performU (.lea h sh d a b c) h s fun e t => { writes := wr d (leaRes sh.val (e.w t 1 a) (e.w t 2 b) (e.w t 3 c)) }
/-- addmin (R149). -/
def execAddmin (h : Hdr) (uns : Bool) (d a b c : Opnd) (s : State) : Out :=
  performU (.addmin h uns d a b c) h s fun e t => res1 d (addminRes uns false (e.w t 1 a) (e.w t 2 b) (e.w t 3 c))
/-- addmax (R149). -/
def execAddmax (h : Hdr) (uns : Bool) (d a b c : Opnd) (s : State) : Out :=
  performU (.addmax h uns d a b c) h s fun e t => res1 d (addminRes uns true (e.w t 1 a) (e.w t 2 b) (e.w t 3 c))
/-- mov (R151). -/
def execMov (h : Hdr) (wide : Bool) (d a : Opnd) (s : State) : Out :=
  performU (.mov h wide d a) h s fun e t =>
    { writes := if wide then wr64 d (e.pair t 1 a) else wr d (e.w t 1 a) }
/-- movi (R151). -/
def execMovi (h : Hdr) (d : Opnd) (imm : Word) (s : State) : Out :=
  performU (.movi h d imm) h s fun _ _ => { writes := wr d imm }

/-! ### Variable-latency results (R33, R94, R141) -/

/-- A variable-latency operation of a group claims its slot (R33). -/
def State.claimSlot (s : State) (id gix : Nat) (op : PendOp) : State :=
  s.modGroup id gix (fun g => { g with ops := g.ops ++ [op] })

/-- An operation with nothing but its slot and kind. -/
def PendOp.blank (slot : Nat) (k : OpKind) : PendOp :=
  { slot := slot, kind := k, writes := [], preds := [], flags := 0, regs := [], hmask := none, need := 0,
    acc := .none, waits := [], xrec := 0, xbytes := [], reads := [], ended := [] }

/-- The destination registers of an operation. -/
def dstRegs (ws : List (Nat × Nat × Word)) : List (Nat × Nat) := ws.map (fun w => (ownerOf w.2.1 w.1, w.2.1))

/-- Perform a sequence-unit instruction (R141): the results are computed from the operands read at issue and
written when the slot's operation completes, with their flags (R43). While the slot is busy the group stalls
(R33). -/
def performSeq (i : Instr) (h : Hdr) (sb : Fin 16) (s : State) (f : Env → Nat → Opnd × Word × FlagBits) : Out :=
  performWith i h s (fun e ts s =>
    let rs := ts.map (fun t => (t, f e t))
    let ws := rs.map (fun r => (r.1, r.2.1.code.toNat, r.2.2.1))
    let fl := rs.foldl (fun a r => if e.helper r.1 then a else a ||| r.2.2.2) 0
    (s.claimSlot e.team.id e.g.gix { PendOp.blank sb.val .seq with writes := ws, regs := dstRegs ws, flags := fl },
      fun _ => {}))

/-- div (R150). -/
def execDiv (h : Hdr) (uns : Bool) (d a b : Opnd) (sb : Fin 16) (s : State) : Out :=
  performSeq (.div h uns d a b sb) h sb s fun e t => (d, divRes uns (e.w t 1 a) (e.w t 2 b), 0)
/-- rem (R150). -/
def execRem (h : Hdr) (uns : Bool) (d a b : Opnd) (sb : Fin 16) (s : State) : Out :=
  performSeq (.rem h uns d a b sb) h sb s fun e t => (d, remRes uns (e.w t 1 a) (e.w t 2 b), 0)

end Sys2Proof.Machine
end

