-- ==== Sys2Proof/Machine/Float.lean ====
section
/-!
DEFINITION. The floating-point instructions, MAJOR 0x40 to 0x55 (R152 to R160).
-/

namespace Sys2Proof.Machine

/-- A 32-bit encoding with flags as a result. -/
def fres (r : Nat × FlagBits) : Word × FlagBits := (BitVec.ofNat 32 r.1, r.2)
/-- An F32 operand under R60. -/
def f32In (ftz : Bool) (a : Word) : FV := ffF32.input ftz a.toNat

/-- fadd (R152). -/
def faddRes (ftz : Bool) (rm : Round) (a b : Word) : Word × FlagBits :=
  fres (finishFV ffF32 ftz rm (addFV rm (f32In ftz a) (f32In ftz b)))
/-- fsub (R152). -/
def fsubRes (ftz : Bool) (rm : Round) (a b : Word) : Word × FlagBits :=
  fres (finishFV ffF32 ftz rm (addFV rm (f32In ftz a) (f32In ftz b).negate))
/-- fmul (R152). -/
def fmulRes (ftz : Bool) (rm : Round) (a b : Word) : Word × FlagBits :=
  fres (finishFV ffF32 ftz rm (mulFV (f32In ftz a) (f32In ftz b)))
/-- ffma (R152). -/
def ffmaRes (ftz : Bool) (rm : Round) (a b c : Word) : Word × FlagBits :=
  fres (finishFV ffF32 ftz rm (fmaFV rm (f32In ftz a) (f32In ftz b) (f32In ftz c)))

/-- fadd (R152). -/
def execFadd (h : Hdr) (rm : Round) (d a b : Opnd) (s : State) : Out :=
  performU (.fadd h rm d a b) h s fun e t => res1 d (faddRes e.ftz rm (e.w t 1 a) (e.w t 2 b))
/-- fsub (R152). -/
def execFsub (h : Hdr) (rm : Round) (d a b : Opnd) (s : State) : Out :=
  performU (.fsub h rm d a b) h s fun e t => res1 d (fsubRes e.ftz rm (e.w t 1 a) (e.w t 2 b))
/-- fmul (R152). -/
def execFmul (h : Hdr) (rm : Round) (d a b : Opnd) (s : State) : Out :=
  performU (.fmul h rm d a b) h s fun e t => res1 d (fmulRes e.ftz rm (e.w t 1 a) (e.w t 2 b))
/-- ffma (R152). -/
def execFfma (h : Hdr) (rm : Round) (d a b c : Opnd) (s : State) : Out :=
  performU (.ffma h rm d a b c) h s fun e t => res1 d (ffmaRes e.ftz rm (e.w t 1 a) (e.w t 2 b) (e.w t 3 c))
/-- fmin (R153). -/
def execFmin (h : Hdr) (d a b : Opnd) (s : State) : Out :=
  performU (.fmin h d a b) h s fun e t =>
    res1 d (fres (minmaxFV ffF32 e.ftz false (e.w t 1 a).toNat (e.w t 2 b).toNat))
/-- fmax (R153). -/
def execFmax (h : Hdr) (d a b : Opnd) (s : State) : Out :=
  performU (.fmax h d a b) h s fun e t =>
    res1 d (fres (minmaxFV ffF32 e.ftz true (e.w t 1 a).toNat (e.w t 2 b).toNat))
/-- fabs (R154). -/
def execFabs (h : Hdr) (d a : Opnd) (s : State) : Out :=
  performU (.fabs h d a) h s fun e t => { writes := wr d (e.w t 1 a &&& 0x7FFFFFFF) }
/-- fneg (R154). -/
def execFneg (h : Hdr) (d a : Opnd) (s : State) : Out :=
  performU (.fneg h d a) h s fun e t => { writes := wr d (e.w t 1 a ^^^ 0x80000000) }

/-- A sequence-unit floating-point result (R155, R156). -/
def seqRes (d : Opnd) (r : Nat × FlagBits) : Opnd × Word × FlagBits := (d, BitVec.ofNat 32 r.1, r.2)

/-- frcp (R155). -/
def execFrcp (h : Hdr) (rm : Round) (d a : Opnd) (sb : Fin 16) (s : State) : Out :=
  performSeq (.frcp h rm d a sb) h sb s fun e t =>
    seqRes d (finishFV ffF32 e.ftz rm (divFV (.fin false 1 0) (f32In e.ftz (e.w t 1 a))))
/-- frsq (R155). -/
def execFrsq (h : Hdr) (rm : Round) (d a : Opnd) (sb : Fin 16) (s : State) : Out :=
  performSeq (.frsq h rm d a sb) h sb s fun e t =>
    seqRes d (finishFV ffF32 e.ftz rm (rsqFV (f32In e.ftz (e.w t 1 a))))
/-- fsqrt (R155). -/
def execFsqrt (h : Hdr) (rm : Round) (d a : Opnd) (sb : Fin 16) (s : State) : Out :=
  performSeq (.fsqrt h rm d a sb) h sb s fun e t =>
    seqRes d (finishFV ffF32 e.ftz rm (sqrtFV (f32In e.ftz (e.w t 1 a))))
/-- fdiv (R155). -/
def execFdiv (h : Hdr) (rm : Round) (d a b : Opnd) (sb : Fin 16) (s : State) : Out :=
  performSeq (.fdiv h rm d a b sb) h sb s fun e t =>
    seqRes d (finishFV ffF32 e.ftz rm (divFV (f32In e.ftz (e.w t 1 a)) (f32In e.ftz (e.w t 2 b))))
/-- fexp2 (R156). -/
def execFexp2 (h : Hdr) (d a : Opnd) (sb : Fin 16) (s : State) : Out :=
  performSeq (.fexp2 h d a sb) h sb s fun e t => seqRes d (exp2F32 e.ftz (e.w t 1 a))
/-- flog2 (R156). -/
def execFlog2 (h : Hdr) (d a : Opnd) (sb : Fin 16) (s : State) : Out :=
  performSeq (.flog2 h d a sb) h sb s fun e t => seqRes d (log2F32 e.ftz (e.w t 1 a))
/-- fsin (R156). -/
def execFsin (h : Hdr) (d a : Opnd) (sb : Fin 16) (s : State) : Out :=
  performSeq (.fsin h d a sb) h sb s fun e t => seqRes d (trigF32 false e.ftz (e.w t 1 a))
/-- fcos (R156). -/
def execFcos (h : Hdr) (d a : Opnd) (sb : Fin 16) (s : State) : Out :=
  performSeq (.fcos h d a sb) h sb s fun e t => seqRes d (trigF32 true e.ftz (e.w t 1 a))

/-- frint (R157). -/
def execFrint (h : Hdr) (d a : Opnd) (s : State) : Out :=
  performU (.frint h d a) h s fun e t => res1 d (fres (rintF32 e.ftz .rne (e.w t 1 a).toNat))
/-- ftrunc (R157). -/
def execFtrunc (h : Hdr) (d a : Opnd) (s : State) : Out :=
  performU (.ftrunc h d a) h s fun e t => res1 d (fres (rintF32 e.ftz .rz (e.w t 1 a).toNat))
/-- ffloor (R157). -/
def execFfloor (h : Hdr) (d a : Opnd) (s : State) : Out :=
  performU (.ffloor h d a) h s fun e t => res1 d (fres (rintF32 e.ftz .rdn (e.w t 1 a).toNat))
/-- fceil (R157). -/
def execFceil (h : Hdr) (d a : Opnd) (s : State) : Out :=
  performU (.fceil h d a) h s fun e t => res1 d (fres (rintF32 e.ftz .rup (e.w t 1 a).toNat))
/-- fclass (R158). -/
def execFclass (h : Hdr) (d a : Opnd) (s : State) : Out :=
  performU (.fclass h d a) h s fun e t => { writes := wr d (BitVec.ofNat 32 (fclassF32 (e.w t 1 a).toNat)) }

/-- The source element of cvt as an integer or a floating-point value (R159). -/
inductive CvtVal where
  | int (x : Int)
  | flt (v : FV)
  deriving DecidableEq, Repr

/-- Read the source of cvt. -/
def cvtSrc (src : ElTy) (ftz : Bool) (x : Nat) : CvtVal :=
  if src.isInt then .int (elInt src x)
  else .flt ((elFmt src).input (ftz && (elFmt src).ieee) x)

/-- The result of cvt (R159): bits of the destination type, and flags, UF and NX also where a widened value is flushed.
DEDUCED (log entry 55; unsafe). -/
def cvtRes (dst src : ElTy) (ftz : Bool) (rm : Round) (x : Nat) : Nat × FlagBits :=
  if dst.isInt then
    let r : Int × FlagBits := match cvtSrc src ftz x with
      | .flt v => toIntFV dst rm v
      | .int v => let c := clampInt (elRange dst).1 (elRange dst).2 v; (c, flagIf (c != v) fSAT)
    ((BitVec.ofInt dst.bits r.1).toNat, r.2)
  else
    let v := match cvtSrc src ftz x with | .flt v => v | .int v => intFV v
    roundElem dst ftz rm v

/-- cvt (R159). -/
def execCvt (h : Hdr) (d a : Opnd) (dst src : ElTy) (rm : Round) (elem : Fin 8) (s : State) : Out :=
  performU (.cvt h d a dst src rm elem) h s fun e t =>
    let x := if src.bits = 64 then (e.pair t 1 a).toNat
      else element src.bits (elem.val % (32 / src.bits)) (e.w t 1 a)
    let r := cvtRes dst src e.ftz rm x
    { writes := if dst.bits = 64 then wr64 d (BitVec.ofNat 64 r.1) else wr d (BitVec.ofNat 32 r.1), flags := r.2 }

/-- The format of a 16-bit form. -/
def halfFmtOf : HalfFmt → FFmt | .f16 => ffF16 | .bf16 => ffBF16
/-- An operation on both 16-bit elements (R160): the packed result and the OR of the flags. -/
def half2 (f : FFmt) (ftz : Bool) (rm : Round) (op : Nat → FV × FlagBits) : Word × FlagBits :=
  let r0 := finishFV f ftz rm (op 0)
  let r1 := finishFV f ftz rm (op 1)
  (BitVec.ofNat 32 (r0.1 + r1.1 * 2 ^ 16), r0.2 ||| r1.2)
/-- Element `j` of a packed 16-bit operand under R60. -/
def halfIn (f : FFmt) (ftz : Bool) (a : Word) (j : Nat) : FV := f.input ftz (element 16 j a)

/-- hadd2 (R160). -/
def execHadd2 (h : Hdr) (hf : HalfFmt) (rm : Round) (d a b : Opnd) (s : State) : Out :=
  performU (.hadd2 h hf rm d a b) h s fun e t =>
    let f := halfFmtOf hf
    res1 d (half2 f e.ftz rm (fun j => addFV rm (halfIn f e.ftz (e.w t 1 a) j) (halfIn f e.ftz (e.w t 2 b) j)))
/-- hmul2 (R160). -/
def execHmul2 (h : Hdr) (hf : HalfFmt) (rm : Round) (d a b : Opnd) (s : State) : Out :=
  performU (.hmul2 h hf rm d a b) h s fun e t =>
    let f := halfFmtOf hf
    res1 d (half2 f e.ftz rm (fun j => mulFV (halfIn f e.ftz (e.w t 1 a) j) (halfIn f e.ftz (e.w t 2 b) j)))
/-- hfma2 (R160). -/
def execHfma2 (h : Hdr) (hf : HalfFmt) (rm : Round) (d a b c : Opnd) (s : State) : Out :=
  performU (.hfma2 h hf rm d a b c) h s fun e t =>
    let f := halfFmtOf hf
    res1 d (half2 f e.ftz rm (fun j =>
      fmaFV rm (halfIn f e.ftz (e.w t 1 a) j) (halfIn f e.ftz (e.w t 2 b) j) (halfIn f e.ftz (e.w t 3 c) j)))

end Sys2Proof.Machine
end

