-- ==== Sys2Proof/Machine/Packed.lean ====
section
/-!
DEFINITION. The packed dot products, narrow packing, predicates and select, MAJOR 0x60 to 0x74 (R161 to R167).
-/

namespace Sys2Proof.Machine

/-- The element type of a 16-bit float form. -/
def halfElTy : HalfFmt → ElTy | .f16 => .f16 | .bf16 => .bf16

/-- dot2 (R71, R161). D is addend and destination. -/
def execDot2 (h : Hdr) (hf : HalfFmt) (rm : Round) (d a b c : Opnd) (s : State) : Out :=
  perform (.dot2 h hf rm d a b c) h s fun e t =>
    res1 d (fres (dotFloat (halfElTy hf) 2 e.ftz rm (e.w t 1 a) (e.w t 2 b) (e.w t 3 c) (e.w t 0 d)))
/-- dot4 of FN8 or FW8 (R71, R161). -/
def execDot4f (h : Hdr) (fw8 : Bool) (rm : Round) (d a b c : Opnd) (s : State) : Out :=
  perform (.dot4f h fw8 rm d a b c) h s fun e t =>
    res1 d (fres (dotFloat (if fw8 then .fw8 else .fn8) 4 e.ftz rm (e.w t 1 a) (e.w t 2 b) (e.w t 3 c) (e.w t 0 d)))
/-- dot4 of I8 or N8 (R72, R161). -/
def execDot4i (h : Hdr) (uns : Bool) (d a b : Opnd) (s : State) : Out :=
  perform (.dot4i h uns d a b) h s fun e t =>
    { writes := wr d (dotInt (if uns then .n8 else .i8) 4 (e.w t 1 a) (e.w t 2 b) (e.w t 0 d)) }
/-- dot8 of FN4 (R71, R161). -/
def execDot8f (h : Hdr) (rm : Round) (d a b c : Opnd) (s : State) : Out :=
  perform (.dot8f h rm d a b c) h s fun e t =>
    res1 d (fres (dotFloat .fn4 8 e.ftz rm (e.w t 1 a) (e.w t 2 b) (e.w t 3 c) (e.w t 0 d)))
/-- dot8 of I4 or N4 (R72, R161). -/
def execDot8i (h : Hdr) (uns : Bool) (d a b : Opnd) (s : State) : Out :=
  perform (.dot8i h uns d a b) h s fun e t =>
    { writes := wr d (dotInt (if uns then .n4 else .i4) 8 (e.w t 1 a) (e.w t 2 b) (e.w t 0 d)) }

/-- conv of pk (R162): one source value as an element of the type, with flags. -/
def pkConv (ty : ElTy) (ftz : Bool) (x : Word) : Nat × FlagBits :=
  if ty.isInt then
    let v : Int := if elSigned ty then sw x else uw x
    let c := clampInt (elRange ty).1 (elRange ty).2 v
    ((BitVec.ofInt ty.bits c).toNat, flagIf (c != v) fSAT)
  else roundElem ty ftz .rne (f32In ftz x)

/-- pk (R162). -/
def pkRes (ty : ElTy) (ftz : Bool) (old a b c : Word) : Word × FlagBits :=
  let p := 32 / ty.bits / 2
  let j := c.toNat % p
  let e0 := pkConv ty ftz a
  let e1 := pkConv ty ftz b
  (setElement ty.bits (2 * j + 1) e1.1 (setElement ty.bits (2 * j) e0.1 old), e0.2 ||| e1.2)
/-- upk (R163). -/
def upkRes (ty : ElTy) (ftz : Bool) (a b : Word) : Word × FlagBits :=
  let j := b.toNat % (32 / ty.bits)
  let x := element ty.bits j a
  if ty.isInt then (wrap32 (elInt ty x), 0)
  else
    let v := (elFmt ty).input (ftz && (elFmt ty).ieee) x
    match v with
    | .nan sig => (BitVec.ofNat 32 ffF32.nan, flagIf sig fNV)
    | v => (BitVec.ofNat 32 (ffF32.encode v), 0)

/-- pk (R162). -/
def execPk (h : Hdr) (ty : ElTy) (d a b c : Opnd) (s : State) : Out :=
  perform (.pk h ty d a b c) h s fun e t => res1 d (pkRes ty e.ftz (e.w t 0 d) (e.w t 1 a) (e.w t 2 b) (e.w t 3 c))
/-- upk (R163). -/
def execUpk (h : Hdr) (ty : ElTy) (d a b : Opnd) (s : State) : Out :=
  perform (.upk h ty d a b) h s fun e t => res1 d (upkRes ty e.ftz (e.w t 1 a) (e.w t 2 b))

/-- The scale half scl reads (R164). -/
def sclHalf (hi : Bool) (b : Word) : Nat := element 16 (if hi then 1 else 0) b
/-- scl (R164). -/
def execScl (h : Hdr) (hi : Bool) (rm : Round) (d a b : Opnd) (s : State) : Out :=
  perform (.scl h hi rm d a b) h s fun e t =>
    let sc := sclHalf hi (e.w t 2 b)
    match scClass sc with
    | .bad => faultRes .badscale b.code (BitVec.ofNat 32 sc)
    | .zero => { writes := wr d 0 }
    | .good v => res1 d (fres (finishFV ffF32 e.ftz rm (mulFV (f32In e.ftz (e.w t 1 a)) v)))

/-! ### Predicates (R165, R166) -/

/-- An integer comparison (R165); num and nan have no integer form. -/
def ccInt (cc : Cc) (a b : Int) : Bool :=
  match cc with
  | .eq => a == b | .ne => a != b | .lt => decide (a < b) | .le => decide (a ≤ b)
  | .gt => decide (b < a) | .ge => decide (b ≤ a) | .num => false | .nan => false
/-- An F32 comparison with its NV flag (R165). -/
def ccFloat (cc : Cc) (x y : FV) : Bool × FlagBits :=
  let anyNan := x.isNan || y.isNan
  let sig := x.sigNV ||| y.sigNV
  let c := cmpFV x y
  match cc with
  | .eq => (!anyNan && c == 0, sig)
  | .ne => (anyNan || c != 0, sig)
  | .lt => (!anyNan && decide (c < 0), flagIf anyNan fNV)
  | .le => (!anyNan && decide (c ≤ 0), flagIf anyNan fNV)
  | .gt => (!anyNan && decide (0 < c), flagIf anyNan fNV)
  | .ge => (!anyNan && decide (0 ≤ c), flagIf anyNan fNV)
  | .num => (!anyNan, sig)
  | .nan => (anyNan, sig)

/-- setp.i32 (R165). -/
def execSetpI (h : Hdr) (cc : Cc) (pd : Fin 8) (a b : Opnd) (pc : PSrc) (s : State) : Out :=
  perform (.setpI h cc pd a b pc) h s fun e t =>
    { preds := [(pd.val, ccInt cc (sw (e.w t 1 a)) (sw (e.w t 2 b)) && e.psrc t pc)] }
/-- setp.n32 (R165). -/
def execSetpN (h : Hdr) (cc : Cc) (pd : Fin 8) (a b : Opnd) (pc : PSrc) (s : State) : Out :=
  perform (.setpN h cc pd a b pc) h s fun e t =>
    { preds := [(pd.val, ccInt cc (uw (e.w t 1 a)) (uw (e.w t 2 b)) && e.psrc t pc)] }
/-- setp.f32 (R165). -/
def execSetpF (h : Hdr) (cc : Cc) (pd : Fin 8) (a b : Opnd) (pc : PSrc) (s : State) : Out :=
  perform (.setpF h cc pd a b pc) h s fun e t =>
    let r := ccFloat cc (f32In e.ftz (e.w t 1 a)) (f32In e.ftz (e.w t 2 b))
    { preds := [(pd.val, r.1 && e.psrc t pc)], flags := r.2 }
/-- pand (R166). -/
def execPand (h : Hdr) (pd : Fin 8) (pa pb : PSrc) (s : State) : Out :=
  perform (.pand h pd pa pb) h s fun e t => { preds := [(pd.val, e.psrc t pa && e.psrc t pb)] }
/-- por (R166). -/
def execPor (h : Hdr) (pd : Fin 8) (pa pb : PSrc) (s : State) : Out :=
  perform (.por h pd pa pb) h s fun e t => { preds := [(pd.val, e.psrc t pa || e.psrc t pb)] }
/-- pxor (R166). -/
def execPxor (h : Hdr) (pd : Fin 8) (pa pb : PSrc) (s : State) : Out :=
  perform (.pxor h pd pa pb) h s fun e t => { preds := [(pd.val, e.psrc t pa != e.psrc t pb)] }
/-- pnot (R166). -/
def execPnot (h : Hdr) (pd : Fin 8) (pa : PSrc) (s : State) : Out :=
  perform (.pnot h pd pa) h s fun e t => { preds := [(pd.val, !(e.psrc t pa))] }
/-- sel (R167). -/
def execSel (h : Hdr) (wide : Bool) (d a b : Opnd) (pc : PSrc) (s : State) : Out :=
  perform (.sel h wide d a b pc) h s fun e t =>
    { writes := if wide then wr64 d (if e.psrc t pc then e.pair t 1 a else e.pair t 2 b)
                else wr d (if e.psrc t pc then e.w t 1 a else e.w t 2 b) }

end Sys2Proof.Machine
end

