-- ==== Sys2Proof/Machine/Lane.lean ====
section
/-!
DEFINITION. Lane and quad exchange, vote and scan, MAJOR 0x75 to 0x7C (R168 to R173).
-/

namespace Sys2Proof.Machine

/-- lsh (R169): up reads below, down reads above, and the edge reads C. -/
def execLsh (h : Hdr) (dn : Bool) (d a b c : Opnd) (s : State) : Out :=
  perform (.lsh h dn d a b c) h s fun e t =>
    match e.laneSources (.lsh h dn d a b c) t with
    | u :: _ => { writes := wr d (e.w u 1 a) }
    | [] => { writes := wr d (e.w t 3 c) }
/-- An exchange with exactly one source thread. -/
def laneRes (i : Instr) (d a : Opnd) (e : Env) (t : Nat) : TRes :=
  { writes := wr d (e.w ((e.laneSources i t).headD t) 1 a) }
/-- lxor (R169). -/
def execLxor (h : Hdr) (d a b : Opnd) (s : State) : Out := perform (.lxor h d a b) h s (laneRes (.lxor h d a b) d a)
/-- lbc (R169). -/
def execLbc (h : Hdr) (d a b : Opnd) (s : State) : Out := perform (.lbc h d a b) h s (laneRes (.lbc h d a b) d a)
/-- lrot (R169). -/
def execLrot (h : Hdr) (d a b : Opnd) (s : State) : Out := perform (.lrot h d a b) h s (laneRes (.lrot h d a b) d a)
/-- qswp (R170). -/
def execQswp (h : Hdr) (dir : QDir) (d a : Opnd) (s : State) : Out :=
  perform (.qswp h dir d a) h s (laneRes (.qswp h dir d a) d a)
/-- qbc (R170). -/
def execQbc (h : Hdr) (d a b : Opnd) (s : State) : Out := perform (.qbc h d a b) h s (laneRes (.qbc h d a b) d a)

/-- The participating set of vote and lscan (R171): streamed, guard true, not a helper. -/
def Env.votes (e : Env) (h : Hdr) : List Nat := e.act.filter (fun t => e.guard h t && !(e.helper t))

/-- vote (R172). -/
def execVote (h : Hdr) (k : VoteDst) (pa : PSrc) (s : State) : Out :=
  perform (.vote h k pa) h s fun e _ =>
    let yes := (e.votes h).filter (fun u => e.psrc u pa)
    match k with
    | .any pd => { preds := [(pd.val, !yes.isEmpty)] }
    | .all pd => { preds := [(pd.val, yes.length == (e.votes h).length)] }
    | .bal d => { writes := wr d (BitVec.ofNat 32 (bitsMask yes)) }

/-- The identity of a scan operation (R173). -/
def scanId : ScanOp → Word
  | .add => 0 | .minI => 0x7FFFFFFF | .maxI => 0x80000000 | .minN => 0xFFFFFFFF | .maxN => 0
  | .and => 0xFFFFFFFF | .or => 0 | .xor => 0
/-- A scan operation (R173). -/
def scanOp (o : ScanOp) (a b : Word) : Word :=
  match o with
  | .add => a + b | .minI => minmax32 false false a b | .maxI => minmax32 false true a b
  | .minN => minmax32 true false a b | .maxN => minmax32 true true a b
  | .and => a &&& b | .or => a ||| b | .xor => a ^^^ b

/-- lscan (R173). -/
def execLscan (h : Hdr) (op : ScanOp) (excl : Bool) (d a : Opnd) (s : State) : Out :=
  perform (.lscan h op excl d a) h s fun e t =>
    let below := (e.votes h).filter (fun u => decide (u < t) || (!excl && u == t))
    { writes := wr d (below.foldl (fun acc u => scanOp op acc (e.w u 1 a)) (scanId op)) }

end Sys2Proof.Machine
end

