-- ==== Sys2Proof/Machine/Control.lean ====
section
/-!
DEFINITION. Control flow, loops, traps and system moves, MAJOR 0x00 to 0x1E (R111 to R136).
-/

namespace Sys2Proof.Machine

/-- A branch target: the header of the clause that holds the instruction plus a count of 8-byte words (R82). -/
def Env.target (e : Env) (words : Int) : Int := (e.hdrAddr : Int) + 8 * words
/-- The header that follows the clause (NEXT of R113, START of R121). -/
def Env.nextHdr (e : Env) : Nat := e.hdrAddr + 8 * (hdrCnt e.hdr + 2)
/-- The 32-bit word of the instruction, for TRAPINFO.VALUE of an ILLOP (R90). -/
def Env.insWord (e : Env) : Word := loWord (e.s.codeAt e.team.ctx (e.hdrAddr + 8 + 8 * pcIdx e.pc))
/-- BADTARGET with bits [31:0] of the target (R82). DEDUCED (log entry 10; unsafe). -/
def badTarget (tgt : Int) : TRes := faultRes .badtarget opndNone (wrap32 tgt)
/-- The loop stack of a thread. -/
def Env.loops (e : Env) (t : Nat) : List LoopEntry := match e.thread t with | some th => th.loops | none => []

/-- unwind of R125: entries whose range holds the branch but not its target are popped. -/
def unwind (h : Nat) (tgt : Int) : List LoopEntry → List LoopEntry
  | [] => []
  | x :: l =>
    let inr (a : Int) : Bool := decide ((x.start.toNat : Int) ≤ a) && decide (a ≤ (x.endc.toNat : Int))
    if inr h && !(inr tgt) then unwind h tgt l else x :: l

/-- br and brx to a target (R113). -/
def Env.branch (e : Env) (t : Nat) (tgt : Int) : TRes :=
  if e.s.entryOk e.team.ctx tgt then
    { loops := some (unwind e.hdrAddr tgt (e.loops t)), leave := .goto (mkPc tgt.toNat 0) }
  else badTarget tgt
/-- call and callx to a target, with the link in pair D (R113), which is taken modulo 2^48.
DESIGN CHOICE (log entry 63; unsafe). -/
def Env.linkTo (e : Env) (d : Opnd) (tgt : Int) : TRes :=
  if e.s.entryOk e.team.ctx tgt then { writes := wr64 d (mkPc e.nextHdr 0), leave := .goto (mkPc tgt.toNat 0) }
  else badTarget tgt

/-- br (R113). -/
def execBr (h : Hdr) (off : BitVec 32) (s : State) : Out :=
  perform (.br h off) h s fun e t => e.branch t (e.target off.toInt)
/-- brx (R113). -/
def execBrx (h : Hdr) (a : Opnd) (off : BitVec 32) (s : State) : Out :=
  perform (.brx h a off) h s fun e t => e.branch t (e.target (off.toInt + sw (e.w t 1 a)))
/-- call (R113). -/
def execCall (h : Hdr) (d : Opnd) (off : BitVec 32) (s : State) : Out :=
  perform (.call h d off) h s fun e _ => e.linkTo d (e.target off.toInt)
/-- callx (R113). -/
def execCallx (h : Hdr) (d a : Opnd) (s : State) : Out :=
  perform (.callx h d a) h s fun e t => e.linkTo d (e.target (sw (e.w t 1 a)))
/-- ret (R113, R115). -/
def execRet (h : Hdr) (a : Opnd) (s : State) : Out :=
  perform (.ret h a) h s fun e t =>
    let tgt := (e.pair t 1 a).toNat
    if e.s.entryOk e.team.ctx tgt then { leave := .goto (mkPc tgt 0) } else badTarget tgt
/-- exit (R117). -/
def execExit (h : Hdr) (s : State) : Out := perform (.exit h) h s fun _ _ => { leave := .exit }
/-- meet (R119). -/
def execMeet (h : Hdr) (off : BitVec 32) (s : State) : Out :=
  perform (.meet h off) h s fun e t =>
    let tgt := e.target off.toInt
    if e.s.entryOk e.team.ctx tgt then
      { mr := some (mkPc tgt.toNat 0),
        leave := .met (match e.thread t with | some th => th.mr | none => mrNone) }
    else badTarget tgt

/-- The effect of loop and loopv for a count (R121); CNT is taken of whatever word stands at END, and END is kept modulo
2^48. DEDUCED (log entry 10; unsafe). DEDUCED (log entry 59; unsafe). DESIGN CHOICE (log entry 63; unsafe). -/
def Env.loopPush (e : Env) (t : Nat) (off : BitVec 32) (c : Word) : TRes :=
  let start : Int := e.nextHdr
  let en := e.target off.toInt
  if !(e.s.entryOk e.team.ctx start) then badTarget start
  else if en < start then badTarget en
  else if 0xFFFFFF < c.toNat then faultRes .loopcount opndNone c
  else if c = 0 then
    let tgt := en + 8 * ((hdrCnt (e.s.codeAt e.team.ctx en.toNat) : Int) + 2)
    if e.s.entryOk e.team.ctx tgt then { leave := .goto (mkPc tgt.toNat 0) } else badTarget tgt
  else if 4 ≤ (e.loops t).length then faultRes .loopdepth opndNone c
  else { loops := some (⟨BitVec.ofInt 48 start, BitVec.ofInt 48 en, c.setWidth 24⟩ :: e.loops t) }

/-- loop with a register or constant count (R121, R122). -/
def execLoop (h : Hdr) (a : Opnd) (off : BitVec 32) (s : State) : Out :=
  perform (.loop h a off) h s fun e t => e.loopPush t off (e.w t 1 a)
/-- loop with a literal count (R121, R122). -/
def execLoopImm (h : Hdr) (n : BitVec 11) (off : BitVec 32) (s : State) : Out :=
  perform (.loopImm h n off) h s fun e t => e.loopPush t off (n.setWidth 32)
/-- loopv (R121, R122). -/
def execLoopv (h : Hdr) (a : Opnd) (off : BitVec 32) (s : State) : Out :=
  perform (.loopv h a off) h s fun e t => e.loopPush t off (e.w t 1 a)
/-- lpop (R123). -/
def execLpop (h : Hdr) (s : State) : Out :=
  perform (.lpop h) h s fun e t => { loops := some (e.loops t).tail }

/-- trap (R129). -/
def execTrap (h : Hdr) (imm : Word) (s : State) : Out :=
  perform (.trap h imm) h s fun _ _ => { leave := .trapNext ⟨.trap, opndNone, imm⟩ }
/-- bkpt (R130): without a handler it falls through. -/
def execBkpt (h : Hdr) (imm : Word) (s : State) : Out :=
  perform (.bkpt h imm) h s fun e _ =>
    if e.team.handler = 0 then {} else { leave := .trapNext ⟨.bkpt, opndNone, imm⟩ }
/-- rfe (R131): ILLOP for a thread that is not in its handler. -/
def execRfe (h : Hdr) (s : State) : Out :=
  perform (.rfe h) h s fun e t =>
    match e.thread t with
    | some th => if th.intrap then { leave := .rfe (e.trapPc t th) } else faultRes .illop opndNone e.insWord
    | none => {}
/-- yield (R132). -/
def execYield (h : Hdr) (s : State) : Out := perform (.yield h) h s fun _ _ => { leave := .yield }
/-- nop (R133). -/
def execNop (h : Hdr) (s : State) : Out := perform (.nop h) h s fun _ _ => {}

/-! ### System registers (R41 to R46, R134 to R136) -/

/-- STATUS of a thread (R41). -/
def statusWord (t : Team) (th : Thread) : Word :=
  BitVec.ofNat 32 ((match t.matctx with | some n => n | none => 3) * 2 ^ 8 + (if th.intrap then 16 else 0) +
    (if th.helper then 8 else 0) + th.loops.length)
/-- GROUPID (R41). -/
def groupIdWord (g : Group) : Word :=
  BitVec.ofNat 32 (g.kblk * 2 ^ 24 + g.vblk * 2 ^ 16 + g.slot * 2 ^ 7 + g.slice * 2 ^ 5 + g.gix)
/-- CLUSTERID (R41, R45): REGION is the 8-core region of the logical core. -/
def clusterIdWord (t : Team) : Word :=
  BitVec.ofNat 32 (t.core / Config.regionCores * 2 ^ 6 + t.csize * 2 ^ 3 + t.tic)
/-- The physical core of a logical core (R46): its own number until a spare takes its place.
DESIGN CHOICE (log entry 48; unsafe). -/
def State.physCore (s : State) (die core : Nat) : Nat := (SMap.get? s.cores.phys (die * 128 + core)).getD core
/-- CAPS (R41). -/
def capsWord : Word := 0x00123356
/-- ACCSTAT of a context (R41). -/
def accstatWord (m : MatCtx) : Word :=
  BitVec.ofNat 32 ((if m.resv then 2 ^ 31 else 0) + m.accf % 16 * 2 ^ 24 + m.resk % 2 ^ 16 * 2 ^ 8 + m.flags.toNat)

/-- The device cycle count as 64 bits. -/
def clockWord (c : Nat) : DWord := BitVec.ofNat 64 c
/-- The count that a core reads in the cycle of a thread's pass: it differs by at most 4 from the device's, by an amount
that is not fixed (R44). DEDUCED (log entry 6; safe). -/
def Env.countAt (e : Env) (t : Nat) : Nat := e.passCycle t + (Config.freeWord (freeKey e.s.nonce 57 0 0)).toNat % 9 - 4

/-- The view of a system register that thread `t` reads (R136). DEDUCED (log entry 6; safe). -/
def Env.sysVal (e : Env) (t : Nat) (sr : SysReg) : Word :=
  match e.thread t with
  | none => 0
  | some th =>
    if e.inWindow (.sys sr.num) then Config.freeWord (freeKey e.s.nonce 32 t sr.num)
    else
      match sr with
      | .status => statusWord e.team th
      | .mode => if e.g.ftz then 1 else 0
      | .nflags => e.g.nflags.setWidth 32
      | .chksb => if e.g.chksb then 1 else 0
      | .trapcause => th.cause.setWidth 32
      | .trappcLo => loWord th.trappc
      | .trappcHi => hiWord th.trappc
      | .trapinfoLo => loWord th.trapinfo
      | .trapinfoHi => hiWord th.trapinfo
      | .role => e.g.role.setWidth 32
      | .groupid => groupIdWord e.g
      | .teamid => e.team.teamid
      | .clusterid => clusterIdWord e.team
      | .coreid => BitVec.ofNat 32 (e.s.physCore e.team.die e.team.core * 2 ^ 8 + e.team.core)
      | .dieid => BitVec.ofNat 32 e.team.die
      | .ctxid => BitVec.ofNat 32 e.team.ctx
      | .clockLo => loWord (clockWord (e.countAt t))
      | .clockHi => th.clkHi
      | .caps => capsWord
      | .accstat => match e.s.matctxOf e.team with | some m => accstatWord m | none => 0

/-- mfs (R134): a read of CLOCK.LO copies the high word into the thread's shadow (R44), where the next mfs finds it.
DEDUCED (log entry 6; safe). DEDUCED (log entry 54; unsafe). -/
def execMfs (h : Hdr) (d : Opnd) (sr : SysReg) (s : State) : Out :=
  performWith (.mfs h d sr) h s fun e ts s =>
    let s1 := if sr = .clockLo then
        ts.foldl (fun a t => a.modThread e.team.id e.g.gix t (fun th => { th with clkHi := hiWord (clockWord (e.countAt t)) })) s
      else s
    (s1, fun t => { writes := wr d (e.sysVal t sr) })

/-- mts of a per-group register (R42), a per-thread one in its handler, or ACCSTAT's flags (R136), in cycle `c`. -/
def State.sysWrite (s : State) (id gix t c : Nat) (sr : SysReg) (v : Word) : State :=
  match sr with
  | .mode => s.modGroup id gix (fun g => { g with ftz := v.getLsbD 0 })
  | .nflags => s.modGroup id gix (fun g => { g with nflags := v.setWidth 6 ||| g.lateFlags c })
  | .chksb => s.modGroup id gix (fun g => { g with chksb := v.getLsbD 0 })
  | .role => s.modGroup id gix (fun g => { g with role := v.setWidth 3 })
  | .trappcLo => s.modThread id gix t (fun th => { th with trappc := pairOf v (hiWord th.trappc) })
  | .trappcHi => s.modThread id gix t (fun th => { th with trappc := pairOf (loWord th.trappc) v })
  | .trapinfoLo => s.modThread id gix t (fun th => { th with trapinfo := pairOf v (hiWord th.trapinfo) })
  | .trapinfoHi => s.modThread id gix t (fun th => { th with trapinfo := pairOf (loWord th.trapinfo) (v &&& 0x7FF) })
  | .accstat =>
    match s.team? id with
    | some tm =>
      (match tm.matctx with
       | some n => s.modMat tm.die tm.core n (fun m => { m with flags := v.setWidth 3 ||| m.lateFlags c })
       | none => s)
    | none => s
  | _ => s

/-- A per-thread register that mts may write in a handler only (R41). -/
def handlerOnly : SysReg → Bool
  | .trappcLo => true | .trappcHi => true | .trapinfoLo => true | .trapinfoHi => true | _ => false

/-- mts (R135): writes of the guard-true threads that are not helpers, ascending (R42); ILLOP for TRAPPC and
TRAPINFO outside the handler, of helpers too (R41). A per-group register takes effect at its visibility point (R135).
DEDUCED (log entry 50; unsafe). -/
def execMts (h : Hdr) (sr : SysReg) (a : Opnd) (s : State) : Out :=
  performWith (.mts h sr a) h s fun e ts s =>
    let bad (t : Nat) : Bool := handlerOnly sr && (match e.thread t with | some th => !th.intrap | none => false)
    let ws := ts.filter (fun t => !(e.helper t) && !(bad t))
    let last := e.fp + passes (.mts h sr a) e.act.length - 1
    let old : Word := match sr with
      | .mode => if e.g.ftz then 1 else 0
      | .chksb => if e.g.chksb then 1 else 0
      | _ => 0
    let s1 := ws.foldl (fun x t => x.sysWrite e.team.id e.g.gix t (e.passCycle t) sr (e.w t 1 a)) s
    let s2 := if ws.isEmpty then s1 else
      s1.modGroup e.team.id e.g.gix (fun g => { g with windows := g.windows ++ [⟨.sys sr.num, last + 5, old⟩] })
    (s2, fun t => if bad t then faultRes .illop opndNone e.insWord else {})

end Sys2Proof.Machine
end

