-- ==== Sys2Proof/Machine/Order.lean ====
section
/-!
DEFINITION. On-die memory as bytes, and the history of what the dies' views have held (R282 to R292): each write is noted with
the bytes that stood before it, a read is made at a point of that history, and acquires and releases say how old a point may be.
-/

namespace Sys2Proof.Machine

/-! ### Bytes of places -/

/-- Key of a byte of a die's scratchpad. -/
def dieKey (d addr : Nat) : Nat := d * 2 ^ 29 + addr
/-- A byte of a carve-out; one that nothing has written is unspecified (R24). DESIGN CHOICE (log entry 1; safe). -/
def Team.sharedByte (t : Team) (off : Nat) : Byte :=
  match SMap.get? t.shared off with
  | some b => b
  | none => Config.freeShared t.sharedKey off
/-- Write a byte of a carve-out. -/
def Team.setShared (t : Team) (off : Nat) (b : Byte) : Team := { t with shared := SMap.set t.shared off b }
/-- Read a byte. -/
def State.readByte (s : State) : Loc → Nat → Byte
  | .die d a, i => s.scratch.read (dieKey d (a + i))
  | .sh id o, i => match s.team? id with | some t => t.sharedByte (o + i) | none => 0
  | .st id gix o, i => match s.group? id gix with | some g => g.stack.read (o + i) | none => 0
/-- Read `n` bytes. -/
def State.readLoc (s : State) (l : Loc) (n : Nat) : List Byte := (List.range n).map (s.readByte l)
/-- A place some bytes further on. -/
def Loc.plus : Loc → Nat → Loc
  | .die d a, n => .die d (a + n)
  | .sh t o, n => .sh t (o + n)
  | .st t g o, n => .st t g (o + n)
/-- The shared memory of a place, and its address there; none for a spill stack. -/
def Loc.mem : Loc → Option (Mem × Nat)
  | .die d a => some (.die d, a)
  | .sh t o => some (.sh t, o)
  | .st .. => none

/-! ### The history of the views (R283, R285) -/

/-- A write is noted as the newest of the history, with the releases that came since its issue. -/
def State.note (s : State) (by_ : Option Author) (agents : List Agent) (rels : List Release) (m : Mem) (cells : List (Nat × Byte)) : State :=
  { s with writes := s.writes + 1,
           olds := (⟨by_, m, cells, s.writes + 1, agents, s.carryOf by_ agents, rels⟩ :: s.olds).take Config.oldStores }
/-- The write has bytes in a span. -/
def Old.touches (w : Old) (m : Mem) (a n : Nat) : Bool :=
  w.mem == m && w.cells.any (fun c => decide (a ≤ c.1) && decide (c.1 < a + n))
/-- The byte that stood at an address before the write, if the write covers it. -/
def Old.byte (w : Old) (m : Mem) (a : Nat) : Option Byte :=
  if w.mem = m then (w.cells.find? (fun c => c.1 == a)).map Prod.snd else none
/-- The history of a span is gone: its lines have a new owner, or a frame new contents. -/
def State.forget (s : State) (m : Mem) (a n : Nat) : State := { s with olds := s.olds.filter (fun w => !(w.touches m a n)) }
/-- The byte that stood at an address after the write of a number, `now` being the one that stands there. -/
def State.stoodAt (s : State) (m : Mem) (p a : Nat) (now : Byte) : Byte :=
  s.olds.foldl (fun b w => if p < w.no then (w.byte m a).getD b else b) now
/-- The bytes of a place as they stood after the write of a number. -/
def State.readAt (s : State) (p : Nat) (l : Loc) (n : Nat) : List Byte :=
  match l.mem with
  | none => s.readLoc l n
  | some (m, a) => (List.range n).map (fun j => s.stoodAt m p (a + j) (s.readByte l j))
/-- The number of the newest write to a span that the history holds. -/
def State.newest (s : State) (m : Mem) (a n : Nat) : Nat := s.lastNo (fun w => w.touches m a n)

/-! ### Writes -/

/-- Lay bytes in a place. -/
def State.put (s : State) (l : Loc) (bs : List Byte) : State :=
  match l with
  | .die d a => { s with scratch := s.scratch.writeN (dieKey d a) bs }
  | .sh id o => s.modTeam id (fun t => bs.zipIdx.foldl (fun t p => t.setShared (o + p.2) p.1) t)
  | .st id gix o => s.modGroup id gix (fun g => { g with stack := g.stack.writeN o bs })
/-- The bytes of a place by their addresses. -/
def State.cellsAt (s : State) (l : Loc) (n : Nat) : List (Nat × Byte) :=
  match l.mem with | some (_, a) => (List.range n).map (fun j => (a + j, s.readByte l j)) | none => []
/-- Write bytes on behalf of a group, or none, as agents that know it. -/
def State.writeAs (s : State) (by_ : Option Author) (agents : List Agent) (l : Loc) (bs : List Byte) : State :=
  match l.mem with
  | some (m, _) => (s.note by_ agents [] m (s.cellsAt l bs.length)).put l bs
  | none => s.put l bs
/-- Write bytes by an engine, a unit or the hub. -/
def State.writeLoc (s : State) (l : Loc) (bs : List Byte) : State := s.writeAs none [] l bs
/-- Stores of threads of a group, by their index in it, that are performed as one action; other agents know them too. -/
def State.writeParts (s : State) (by_ : Author) (parts : List (Nat × Loc × List Byte)) (others : List Agent) (rels : List Release) : State :=
  let s1 := match parts.head?.bind (fun p => p.2.1.mem) with
    | some (m, _) => s.note (some by_) (parts.map (fun p => .thread by_.team (32 * by_.gix + p.1)) ++ others) rels m
        (parts.flatMap (fun p => s.cellsAt p.2.1 p.2.2.length))
    | none => s
  parts.foldl (fun a p => a.put p.2.1 p.2.2) s1
/-- Bytes of a die's scratchpad are written, by address, as one action. -/
def State.writeDie (s : State) (by_ : Option Author) (die : Nat) (cells : List Host.Cell) : State :=
  let s1 := s.note by_ [] [] (.die die) (cells.map (fun c => (c.1, s.scratch.read (dieKey die c.1))))
  { s1 with scratch := s.scratch.writeCells (cells.map (fun c => (dieKey die c.1, c.2))) }
/-- Whole lines of a die are rewritten with zero for a new owner: what stood there before is gone, and an error that they had
(R268, R382). -/
def State.zeroLines (s : State) (die addr len : Nat) : State :=
  let k := dieKey die addr
  { s.forget (.die die) addr len with
    scratch := s.scratch.clear k len
    poisoned := s.poisoned.filter (fun l => !(decide (k ≤ 64 * l) && decide (64 * l < k + len))) }
/-- A little-endian word of on-die memory. -/
def State.locWord (s : State) (l : Loc) : Word := BitVec.ofNat 32 (leNat (s.readLoc l 4))

/-! ### Poisoned lines (R382) -/

/-- The line of an address is marked poisoned. -/
def State.poison (s : State) (die addr : Nat) : State := { s with poisoned := dieKey die addr / 64 :: s.poisoned }
/-- The line of an address is poisoned. -/
def State.isPoisoned (s : State) (die addr : Nat) : Bool := s.poisoned.contains (dieKey die addr / 64)
/-- The line of a place is poisoned; that of a carve-out stands in the granules of its team. -/
def State.badPlace (s : State) : Loc → Bool
  | .die d a => s.isPoisoned d a
  | .sh id o =>
    match s.team? id with
    | some t => (match t.localGran[o / 4096]? with | some g => s.isPoisoned t.die (t.core * 2 ^ 22 + 4096 * g + o % 4096) | none => false)
    | none => false
  | .st .. => false

/-! ### Who may read what (R285 to R292) -/

/-- A group of a team that is placed, as the author of what engines do for it. -/
def State.author? (s : State) (team gix : Nat) : Option Author := (s.team? team).map (fun t => t.author gix)
/-- Threads of a group, by their index in it, as one reader. -/
def State.reader (s : State) (a : Author) (ts : List Nat) : Reader :=
  let tits := ts.map (fun t => 32 * a.gix + t)
  ⟨a, tits.map (Agent.thread a.team), (tits.map (s.sightOf a.team)).foldl Sight.join ⟨0, 0, 0, 0⟩, 0⟩
/-- A read must find the write made: an agent that reads knows it, an acquire has brought it, or the group itself has made it
before (R185, R235, R285, R290). -/
def Old.must (w : Old) (r : Reader) : Bool :=
  r.agents.any w.known.contains ||
    decide (w.no ≤ r.sight.at_ (w.shared r.by_)) ||
    (w.by_ == some r.by_ && decide (w.no ≤ r.own))
/-- The point of the history that a read of a span is no older than. -/
def State.floor (s : State) (r : Reader) (m : Mem) (a n : Nat) : Nat := s.lastNo (fun w => w.touches m a n && w.must r)
/-- The point at which a read is made that stays `age` writes behind the newest, as far as it may. -/
def State.point (s : State) (floor age : Nat) : Nat := max floor (s.writes - age)
/-- Agents have read a span at a point: they know the writes that they found there, so that no later read of theirs finds
them not made (R285). -/
def State.learn (s : State) (agents : List Agent) (m : Mem) (a n p : Nat) : State :=
  let know (w : Old) : Old := if w.touches m a n && decide (w.no ≤ p) then { w with known := agents ++ w.known } else w
  agents.foldl (fun s x => s.setSight x { s.sight x with seen := max (s.sight x).seen p }) { s with olds := s.olds.map know }
/-- The same for a place. -/
def State.learnLoc (s : State) (agents : List Agent) (l : Loc) (n p : Nat) : State :=
  match l.mem with | some (m, a) => s.learn agents m a n p | none => s
/-- Agents have read a place at its home, where its newest bytes stand (R186, R275); the point of the read. -/
def State.learnNewest (s : State) (agents : List Agent) (l : Loc) (n : Nat) : State × Nat :=
  match l.mem with
  | some (m, a) => let p := s.newest m a n; (s.learn agents m a n p, p)
  | none => (s, 0)

/-! ### Releases and acquires (R286, R287, R289) -/

/-- Agents of a group acquire at a scope at a point of the history: they read no older writes of that scope from now on, nor
what the makers of those had acquired (R296), and go on only when the stores are performed which a release that they have met
orders before itself. -/
def State.acquire (s : State) (a : Author) (agents : List Agent) (sc : Scope) (p : Nat) (full : Bool) : State :=
  let await (x : LateStore) : List (Agent × Scope) := (agents.filter (fun g => s.metLate x a g sc full)).map (fun g => (g, sc))
  let s1 := agents.foldl (fun b g => b.setSight g (s.acquired a g (b.sight g) sc p full)) s
  { s1 with late := s.late.map (fun x => { x with awaits := await x ++ x.awaits }) }
/-- Stores that have waited are performed; the agents that awaited them have acquired them. -/
def State.perform (s : State) (l : LateStore) : State :=
  let s1 := s.writeParts l.by_ l.parts (l.awaits.map Prod.fst) l.rels
  l.awaits.foldl (fun b q => b.setSight q.1 ((b.sight q.1).acquire q.2 s1.writes)) s1
/-- Threads of a group release at a scope, with the units of the stores that release, if stores do: what they have issued and
is not performed yet, and what stores that they have overwritten since order before them, comes before the release. -/
def State.releaseBy (s : State) (a : Author) (ts : List Nat) (sc : Scope) (full : Bool) (places : List (Option (Mem × Nat))) : State :=
  let mine (x : LateStore) : Bool := x.by_ == a && x.parts.any (fun p => ts.contains p.1)
  let met (x : LateStore) : Bool := x.rels.any (fun r => r.covers a sc && s.hears r (fun w => w.by_ == some a))
  { s with late := s.late.map (fun x =>
      if mine x || met x then { x with rels := places.map (fun q => ⟨a, sc, s.writes, q, full⟩) ++ x.rels } else x) }
/-- A team starts: its threads find every earlier write of its die's view (R408). -/
def State.startKnowing (s : State) (t : Team) : State := s.setSight (.team t.id) ⟨s.writes, s.writes, s.writes, s.writes⟩
/-- A team has ended: nothing is kept of what its threads have seen, which a save leaves as it is (R303). -/
def State.dropSights (s : State) (team : Nat) : State :=
  { s with sights := s.sights.filter (fun p => match p.1 with | .thread t _ => t != team | .team t => t != team | .copy _ _ => true) }

end Sys2Proof.Machine
end

