-- ==== Sys2Proof/Machine/Sieve.lean ====
section
/-!
DEFINITION. The Sieve's selection (R257, R258), the release of parked threads (R80, R256), the stall it breaks
(R260), and the faults a thread raises at a clause boundary (R226, R239).
-/

namespace Sys2Proof.Machine

/-! ### Selection (R257) -/

/-- Eligible in a selection that also takes deferred threads when `d` holds (R132). -/
def Team.eligibleIn (t : Team) (d : Bool) (th : Thread) : Bool :=
  (t.entryOf th).isSome && !t.isHeld th && th.wait.isNone && (d || !th.deferred)
/-- The valid entries that hold an eligible thread: the set E. -/
def Team.candidates (t : Team) (d : Bool) : List FEntry :=
  t.frontier.filter (fun e => t.all.any (fun p => p.2.2.place == .entry e.slot && t.eligibleIn d p.2.2))
/-- A thread waits held in an entry (R256). -/
def Team.anyHeld (t : Team) : Bool := t.all.any (fun p => t.isHeld p.2.2)
/-- Some thread is deferred (R132). -/
def Team.anyDeferred (t : Team) : Bool := t.all.any (fun p => p.2.2.deferred)
/-- The deadlock rule: every held thread's MR is cleared. -/
def Team.unhold (t : Team) : Team := t.mapThreads (fun th => if t.isHeld th then { th with mr := mrNone } else th)
/-- The entry of lowest address (R257). -/
def lowest : List FEntry → Option FEntry
  | [] => none
  | e :: l => some (l.foldl (fun a b => if pcKey b.addr < pcKey a.addr then b else a) e)

/-- The team, the rule for deferred threads and the candidates after the two fallbacks of R257. -/
def Team.beforeSelect (t : Team) : Team × Bool × List FEntry :=
  let d := (t.candidates false).isEmpty && t.anyDeferred
  let e1 := t.candidates d
  if e1.isEmpty && t.anyHeld then
    let u := t.unhold
    (u, d, u.candidates d)
  else (t, d, e1)

/-- The entry that a selection takes: the lowest of AGE 63, or else the lowest. -/
def selected (es : List FEntry) : Option FEntry :=
  let old := es.filter (fun e => e.age == 63)
  if old.isEmpty then lowest es else lowest old

/-- select() of R257: the team after it; a team with no candidate is idle. -/
def Team.select (t0 : Team) : Team :=
  let (t, d, es) := t0.beforeSelect
  match selected es with
  | none => t
  | some sel =>
    let age (e : FEntry) : FEntry :=
      if e.slot = sel.slot then { e with age := 0 }
      else if es.any (fun x => x.slot == e.slot) then { e with age := if e.age < 63 then e.age + 1 else 63 }
      else e
    let take (th : Thread) : Thread :=
      if th.place = .entry sel.slot ∧ t.eligibleIn d th = true then { th with place := .cur, deferred := false }
      else { th with deferred := false }
    Team.cleanup { t.mapThreads take with frontier := t.frontier.map age, curaddr := sel.addr }

/-- The team runs: neither killed nor halted for pre-emption. -/
def Team.runs (t : Team) : Bool := t.killed.isNone && !t.halted
/-- CURVEC is empty (R52). -/
def Team.curEmpty (t : Team) : Bool := !(t.all.any (fun p => p.2.2.current))
/-- A selection would take an entry, or clear the MR of held threads, those that are wait-parked included: an idle team
has none held (R257, R261). -/
def Team.selects (t : Team) : Bool :=
  (selected t.beforeSelect.2.2).isSome || t.anyHeld

/-- The cycle by which the team's last passes have issued, in which CURVEC became empty if it is so by then. -/
def Team.lastPass (t : Team) (clock : Nat) : Nat := t.groups.foldl (fun k g => max k g.lastPass) clock
/-- SELECT (R257): made while CURVEC is empty, in the cycle after its last thread left or a thread became eligible. The
selected block begins no earlier than two cycles later. -/
def execSelect (team : Nat) (s : State) : Out :=
  match s.team? team with
  | none => .next s
  | some t =>
    if t.runs && t.curEmpty then
      let ready (g : Group) : Group :=
        if g.threads.any Thread.current then { g with nextIssue := max g.nextIssue (t.lastPass s.clock + 3), clauseAt := none }
        else g
      .next (s.modTeam team (fun t => let u := t.select; { u with groups := u.groups.map ready }))
    else .next s

/-! ### Release of a wait-parked thread (R80, R196, R200, R256) -/

/-- The scope at which a completed wait acquires (R286). -/
def WaitOn.scope : WaitOn → Scope | .bar .. => .clu | .arr .. => .dev
/-- The word that a wait is on. -/
def WaitOn.place (w : WaitOn) (die : Nat) : Loc := match w with | .bar team off _ _ => .sh team off | .arr addr _ => .die die addr
/-- The bytes of that word. -/
def WaitOn.size : WaitOn → Nat | .bar .. => 8 | .arr .. => 16
/-- A wait that completes has read its word at the word's home, and acquires at that point (R200, R275, R286). -/
def State.acquireWait (s : State) (a : Author) (g : Agent) (l : Loc) (n : Nat) (sc : Scope) : State :=
  let r := s.learnNewest [g] l n
  r.1.acquire a [g] sc r.2 false
/-- A thread's wait ends: its PARKVEC bit clears, an overflow-parked thread enters an entry when it can, and a
thread whose next clause is no ENTRY clause raises BADTARGET at its wait. A wait that completes acquires (R286). -/
def State.releaseWait (s : State) (id gix i : Nat) : State :=
  match s.team? id, s.thread? id gix i with
  | some t, some th =>
    match th.wait with
    | none => s
    | some w =>
      let h := s.codeAt t.ctx (pcAddr th.pc)
      if hdrOk h && hdrEntry h then
        (s.acquireWait (t.author gix) (.thread id (32 * gix + i)) (w.on.place t.die) w.on.size w.on.scope).modTeam id (fun t => (t.modThread gix i (fun th => { th with wait := none })).tryEnter gix i)
      else (s.modThread id gix i Thread.atWait).trapAt id gix i ⟨.badtarget, opndNone, BitVec.ofNat 32 (pcAddr th.pc)⟩
  | _, _ => s

/-! ### Clause boundaries (R78, R83, R226, R239, R260) -/

/-- The group's next instruction would be the first it issues of its clause. -/
def Env.clauseBegin (e : Env) : Bool := e.g.clauseAt != some (BitVec.ofNat 48 e.hdrAddr)
/-- A CVWAIT bit of the header names a register whose issued flag is clear (R37, R83). -/
def Env.cvWaits (e : Env) : List Nat :=
  (oneBits 8 (hdrCv e.hdr)).filter (fun n => match e.team.cv[n]? with | some c => !c.issued | none => false)
/-- An SBWAIT bit of the header names a busy slot (R83). -/
def Env.sbWaits (e : Env) : Bool := (oneBits 16 (hdrSb e.hdr)).any e.g.busy
/-- Every declared, unsigned, non-exited thread of CVn is outside CURVEC (R260). DEDUCED (log entry 17; unsafe). -/
def Team.cvStuck (t : Team) (n : Nat) : Bool :=
  match t.cv[n]? with
  | none => false
  | some c =>
    !c.issued && (declaredThreads c.declared).all (fun k =>
      c.signed.getLsbD k || (match t.byTit k with | some th => th.exited || !th.current | none => true))

/-- CVSTATE_STALL (R260): every thread of the group stalled at the clause raises CVSTATE, for the lowest register that can
never be signed. DEDUCED (log entry 17; unsafe). -/
def execCvstateStall (team gix : Nat) (s : State) : Out :=
  match envOf s team gix with
  | none => .next s
  | some e =>
    if e.team.runs && e.clauseBegin && hdrOk e.hdr && !e.sbWaits then
      match e.cvWaits.find? e.team.cvStuck with
      | none => .next s
      | some n =>
        let f : PendFault := ⟨.cvstate, opndNone, BitVec.ofNat 32 n⟩
        .next (e.act.foldl (fun a t => a.trapAt team gix t f) (s.clockTo e.fp)).settle.bumpNonce
    else .next s

/-- A streamed thread at the start of a clause raises the first of its faults that has the cause given; the
others stay to be raised (R226, R239). -/
def raisePending (c : Cause) (team gix tid : Nat) (s : State) : Out :=
  match envOf s team gix with
  | none => .next s
  | some e =>
    match e.thread tid with
    | none => .next s
    | some th =>
      match th.faults.find? (fun f => f.cause == c) with
      | none => .next s
      | some f =>
        if e.team.runs && e.clauseBegin && pcIdx e.pc == 0 && e.act.contains tid then
          let s1 := (s.clockTo e.fp).modThread team gix tid (fun th => { th with faults := th.faults.erase f })
          .next (s1.trapAt team gix tid f).settle.bumpNonce
        else .next s

/-- BADSCALE (R226). -/
def execBadscale (team gix tid : Nat) (s : State) : Out := raisePending .badscale team gix tid s
/-- CALLFAULT (R239). -/
def execCallfault (team gix tid : Nat) (s : State) : Out := raisePending .callfault team gix tid s

end Sys2Proof.Machine
end

