-- ==== Sys2Proof/Machine/Memory.lean ====
section
/-!
DEFINITION. On-die memory as instructions and engines reach it (R175 to R178, R266 to R271): places, checks,
arrival words; the wake-up of parked threads (R196, R200); the landing of pending results (R33, R179, R190).
-/

namespace Sys2Proof.Machine

/-- A call to Lattice or Glaze. -/
def CallKind.stateless : CallKind → Bool | .lat => true | .glz => true | _ => false

/-! ### Region tables and owner tags (R268 to R270) -/

/-- The logical core of a die scratchpad address. -/
def spCore (addr : Nat) : Nat := bitsOf addr 22 7
/-- The offset of a die scratchpad address. -/
def spOff (addr : Nat) : Nat := bitsOf addr 0 22
/-- The address passes the layout check of R175. -/
def spValid (addr : Nat) : Bool := decide (addr < 2 ^ 29) && decide (spCore addr < Config.cores) && decide (spOff addr ≤ Config.spLast)
/-- The region table entry that covers an offset of a core. DESIGN CHOICE (log entry 21; unsafe). -/
def State.entryAt (s : State) (die core off : Nat) : Option RegionEnt :=
  s.regionTab.find? (fun r => r.die == die && r.core == core && decide (r.base ≤ off / 4096) && decide (off / 4096 ≤ r.limit))
/-- Owner tag and LOCAL bit of the line at an offset of a core. -/
def State.tagAt (s : State) (die core off : Nat) : Nat × Bool :=
  match s.tags.find? (fun t => t.die == die && t.core == core && decide (t.line ≤ off / 64) && decide (off / 64 < t.line + t.count)) with
  | some t => (t.owner, t.loc)
  | none => (0, false)
/-- The owner check of R270. -/
def State.ownerOk (s : State) (ctx die addr : Nat) : Bool :=
  match s.entryAt die (spCore addr) (spOff addr) with
  | none => false
  | some r => r.owner == ctx && s.tagAt die (spCore addr) (spOff addr) == (ctx, false)
/-- The line lies in an estimator range. -/
def State.isEst (s : State) (die addr : Nat) : Bool :=
  match s.entryAt die (spCore addr) (spOff addr) with | some r => r.est | none => false
/-- The faults of R175 and R177 for a die scratchpad access, in the order of R178. -/
def State.dieFault (s : State) (ctx die addr : Nat) (w : Want) : Option Cause :=
  if !spValid addr then some .spaddr
  else if !s.ownerOk ctx die addr then some .spowner
  else match w with
    | .any => none
    | .plain => if s.isEst die addr then some .sptype else none
    | .est => if s.isEst die addr then none else some .sptype

/-! ### Locating an access (R175 to R178) -/

/-- The team of a cluster with a TIC, unless it is gone. -/
def State.peer? (s : State) (t : Team) (tic : Nat) : Option Team :=
  s.teams.find? (fun u => u.clusterNo == t.clusterNo && u.tic == tic && u.ctx == t.ctx && u.killed.isNone)

/-- The place an address names for a group, or the fault of R175 or R177. -/
def State.locate (s : State) (t : Team) (gix : Nat) (sp : Space) (addr size : Nat) (w : Want) : Except Cause Loc :=
  match sp with
  | .s => match s.dieFault t.ctx t.die addr w with | some c => .error c | none => .ok (.die t.die addr)
  | .h => if addr + size ≤ t.shsize then .ok (.sh t.id addr) else .error .shrange
  | .k => if addr + size ≤ t.stackSize then .ok (.st t.id gix addr) else .error .stackrange
  | .c =>
    let tic := bitsOf addr 29 3
    let off := bitsOf addr 0 29
    if t.csize < tic then .error .cluaddr
    else
      match s.peer? t tic with
      | none => .error .cluaddr
      | some u => if off + size ≤ u.shsize then .ok (.sh u.id off) else .error .shrange

/-- A fault of an access: VALUE is the address and OPND A's code (R178). -/
def Acc.fault (x : Acc) (c : Cause) (addr : Nat) : PendFault := ⟨c, x.a.code, BitVec.ofNat 32 addr⟩
/-- The place a thread's access names, or its memory fault (R178). -/
def Env.access (e : Env) (s : State) (x : Acc) (t : Nat) : Except PendFault Loc :=
  let addr := e.addr t x.a x.off x.scale
  if addr % x.align ≠ 0 then .error (x.fault .misalign addr)
  else
    match s.locate e.team e.g.gix x.sp addr x.size x.want with
    | .error c => .error (x.fault c addr)
    | .ok l => .ok l
/-- The result of a thread that only faults or goes on. -/
def accessRes (r : Except PendFault Loc) : TRes :=
  match r with | .error f => { leave := .trap f } | .ok _ => {}

/-! ### Threads released by a write (R196, R200) -/

/-- PHASE of a barrier word (R192). -/
def barPhase (w : DWord) : Nat := bitsOf w.toNat 32 16
/-- A phase token's wait is over (R196). -/
def barPassed (phase tok : Nat) : Bool := decide (1 ≤ (phase + 65536 - tok) % 65536) && decide ((phase + 65536 - tok) % 65536 ≤ 0x7FFF)
/-- GEN has passed a recorded generation (R200). -/
def genPassed (gen g : Nat) : Bool :=
  decide (1 ≤ (gen + 2 ^ 32 - g) % 2 ^ 32) && decide ((gen + 2 ^ 32 - g) % 2 ^ 32 ≤ 2 ^ 31 - 1)
/-- The 16 bytes of an arrival word: TARGET, COUNT, GEN and the word that holds FAULT (R197). -/
structure Arr where
  target : Word
  count : Word
  gen : Word
  top : Word
  deriving DecidableEq, Repr
/-- FAULT. -/
def Arr.fault (a : Arr) : Bool := a.top.getLsbD 0
/-- Read an arrival word. -/
def State.arrAt (s : State) (die addr : Nat) : Arr :=
  let bs := s.readLoc (.die die addr) 16
  ⟨wordAt bs 0, wordAt bs 4, wordAt bs 8, wordAt bs 12⟩
/-- Write an arrival word, on behalf of a group or none, as agents that know it. -/
def State.setArrBy (s : State) (by_ : Option Author) (agents : List Agent) (die addr : Nat) (a : Arr) : State :=
  s.writeAs by_ agents (.die die addr) (wordBytes a.target ++ wordBytes a.count ++ wordBytes a.gen ++ wordBytes a.top)

/-- What becomes of a wait as memory stands: nothing, release, or release with COPYFAULT. -/
inductive WaitEnd where | keep | release | copyfault
  deriving DecidableEq, Repr
/-- A thread's wait on the die of its team. -/
def State.waitEnd (s : State) (die : Nat) (w : Wait) : WaitEnd :=
  match w.on with
  | .bar team off phase _ =>
    if barPassed (barPhase (BitVec.ofNat 64 (leNat (s.readLoc (.sh team off) 8)))) phase.toNat then .release else .keep
  | .arr addr gen =>
    let a := s.arrAt die addr
    if a.fault then .copyfault else if genPassed a.gen.toNat gen.toNat then .release else .keep

/-- One parked thread after a change of memory. A thread of a team that stands halted stays parked: its wait runs again
after the restore (R56, R375). -/
def State.wakeOne (s : State) (id gix i : Nat) : State :=
  match s.team? id, s.thread? id gix i with
  | some t, some th =>
    match (if t.halted then none else th.wait) with
    | none => s
    | some w =>
      match s.waitEnd t.die w with
      | .keep => s
      | .release => s.releaseWait id gix i
      | .copyfault =>
        let addr : Word := match w.on with | .arr a _ => BitVec.ofNat 32 a | .bar _ _ _ a => a
        (s.modThread id gix i Thread.atWait).trapAt id gix i ⟨.copyfault, opndNone, addr⟩
  | _, _ => s

/-- The wait-parked threads, ascending in team order. -/
def State.parked (s : State) : List (Nat × Nat × Nat) :=
  s.teams.flatMap (fun t => (t.all.filter (fun p => p.2.2.wait.isSome)).map (fun p => (t.id, p.1, p.2.1)))
/-- Release the parked threads whose condition a change of memory has met. -/
def State.wake (s : State) : State := s.parked.foldl (fun a p => a.wakeOne p.1 p.2.1 p.2.2) s

/-- R198: raise an arrival word by `x`. -/
def Arr.raise (a : Arr) (x : Nat) : Arr :=
  let c := a.count.toNat + x
  if a.target = 0 then { a with count := BitVec.ofNat 32 c }
  else { a with count := BitVec.ofNat 32 (c % a.target.toNat), gen := a.gen + BitVec.ofNat 32 (c / a.target.toNat) }
/-- Raise the arrival word at an address, on behalf of a group or none. -/
def State.raiseArr (s : State) (by_ : Option Author) (die addr x : Nat) : State :=
  s.setArrBy by_ [] die addr ((s.arrAt die addr).raise x)
/-- Set FAULT of the arrival word at an address (R234). -/
def State.faultArr (s : State) (by_ : Option Author) (die addr : Nat) : State :=
  let a := s.arrAt die addr
  s.setArrBy by_ [] die addr { a with top := a.top ||| 1 }

/-! ### Pending results (R33, R95, R117, R179, R190) -/

/-- The results of an operation are written: to threads that have not exited, and not to a register that a later
write has taken over; the flags of the operation, those of threads that have exited since included, join NFLAGS in cycle `c`
(R43), and the slot goes idle. DEDUCED (log entry 55; unsafe). -/
def Group.land (c : Nat) (g : Group) (o : PendOp) : Group :=
  let alive (t : Nat) : Bool := t == 32 || (match g.threads[t]? with | some th => !th.exited | none => false)
  let ws := o.writes.filter (fun w => alive w.1 && o.regs.contains (ownerOf w.2.1 w.1, w.2.1))
  let ps := o.preds.filter (fun w => alive w.1 && (w.2.1 == 0 || o.regs.contains (w.1, predCode w.2.1)))
  let g1 := ws.foldl (fun g w => g.writeCode w.1 w.2.1 w.2.2) g
  let g2 := ps.foldl (fun g w => g.modThread w.1 (fun th => th.writePred w.2.1 w.2.2)) g1
  { g2.complete c o.flags with ops := g2.ops.filter (fun x => x.slot != o.slot) }

/-- The pending operation of a slot. -/
def State.opAt (s : State) (id gix slot : Nat) : Option PendOp :=
  match s.group? id gix with
  | none => none
  | some g => g.ops.find? (fun o => o.slot == slot)

/-- A return event of operations of one kind. -/
def returnOp (k : OpKind) (id gix slot : Nat) (s : State) : Out :=
  match s.opAt id gix slot with
  | none => .next s
  | some o => if o.kind = k then .next (s.modGroup id gix (fun g => g.land s.clock o)) else .next s

/-- LOAD_DATA_RETURN (R179). -/
def execLoadDataReturn (team gix slot : Nat) (s : State) : Out := returnOp .load team gix slot s
/-- ATOMIC_RETURN (R190). -/
def execAtomicReturn (team gix slot : Nat) (s : State) : Out := returnOp .atomic team gix slot s
/-- SEQUENCE_UNIT_RESULT (R141). -/
def execSequenceUnitResult (team gix slot : Nat) (s : State) : Out := returnOp .seq team gix slot s

end Sys2Proof.Machine
end

