-- ==== Sys2Proof/Machine/Load.lean ====
section
/-!
DEFINITION. Loads and stores, MAJOR 0x80 to 0x89 (R179 to R185).
-/

namespace Sys2Proof.Machine

/-- The words a load of a size delivers (R179). -/
def loadWords (sz : MSize) (sx : Bool) (bs : List Byte) : List Word :=
  match sz with
  | .b8 => [if sx then wrap32 (sextNat 8 (leNat bs)) else BitVec.ofNat 32 (leNat bs)]
  | .b16 => [if sx then wrap32 (sextNat 16 (leNat bs)) else BitVec.ofNat 32 (leNat bs)]
  | _ => wordsOf sz.regs bs
/-- The bytes a store of a size writes (R179). -/
def storeBytes (sz : MSize) (ws : List Word) : List Byte := (ws.flatMap wordBytes).take sz.bytes
/-- Results of one thread for consecutive registers. -/
def runWrites (t : Nat) (d : Opnd) (ws : List Word) : List (Nat × Nat × Word) :=
  ws.zipIdx.map (fun p => (t, d.code.toNat + p.2, p.1))

/-- What a load whose read may be made late delivers: its destination, and its words from the bytes read. -/
def loadOf : Instr → Option (Opnd × (List Byte → List Word))
  | .ldS _ sz sx _ d _ _ _ => some (d, loadWords sz sx)
  | .ldH _ sz sx _ d _ _ _ => some (d, loadWords sz sx)
  | .ldC _ sz sx _ d _ _ _ => some (d, loadWords sz sx)
  | .ldu _ sz _ d _ _ _ => some (d, loadWords sz false)
  | .arrRead _ d _ _ _ => some (d, fun bs => [wordAt bs 8, wordAt bs 4])
  | _ => none
/-- The scope at which a load acquires, if it does (R184, R286). -/
def acquireOf : Instr → Option Scope
  | .ldS _ _ _ ord .. => ord
  | .ldH _ _ _ ord .. => ord
  | .ldC _ _ _ ord .. => ord
  | .ldu _ _ ord .. => ord
  | _ => none
/-- The scope at which a store releases, if it does (R184, R286). -/
def releaseOf : Instr → Option Scope
  | .stS _ _ ord .. => ord
  | .stH _ _ ord .. => ord
  | .stC _ _ ord .. => ord
  | _ => none
/-- An access that its thread may perform later than it issues (R185, R292, R295): a read without acquire, what an xld reads,
and a store. -/
def mayBeLate : Instr → Bool
  | .ldt .. => true
  | .arrRead .. => true
  | .xld .. => true
  | .stS .. => true
  | .stH .. => true
  | .stC .. => true
  | i => (loadOf i).isSome && (acquireOf i).isNone
/-- A read that may find writes of others not yet made (R290); an arr.read is made at the word's home (R275). -/
def mayBeOld : Instr → Bool
  | .arrRead .. => false
  | .ldt .. => true
  | .xld .. => true
  | i => (loadOf i).isSome
/-- The pass of a streamed thread, and the word of a bank that its access touches, by address: one bank access serves the
threads of a pass that touch it (R272). -/
def Env.wordOf (e : Env) (x : Acc) (t : Nat) : Nat := e.addr t x.a x.off x.scale / max 8 x.size
def Env.accessKey (e : Env) (x : Acc) (t : Nat) : Nat := e.act.idxOf t / 4 * 2 ^ 32 + e.wordOf x t
/-- The cycles by which a read, and a store, is performed after it issues, which nothing fixes; those of a word's stores are
alike, so that of two threads that store there the higher prevails (R180). DESIGN CHOICE (log entry 11; safe). -/
def Env.delay (e : Env) (i : Instr) (x : Acc) (t : Nat) : Nat :=
  if mayBeLate i then (Config.freeWord (wideKey e.s.nonce 60 (e.accessKey x t))).toNat else 0
def Env.storeDelay (e : Env) (i : Instr) (x : Acc) (t : Nat) : Nat :=
  if mayBeLate i then (Config.freeWord (wideKey e.s.nonce 61 (e.wordOf x t))).toNat else 0
/-- How many writes a read stays behind the newest, as far as it may, which nothing fixes. DESIGN CHOICE (log entry 11; safe). -/
def Env.age (e : Env) (i : Instr) (x : Acc) (t : Nat) : Nat :=
  if mayBeOld i then (Config.freeWord (wideKey e.s.nonce 62 (e.accessKey x t))).toNat else 0
/-- The address or offset of a place in its memory. -/
def Loc.at_ : Loc → Nat
  | .die _ a => a
  | .sh _ o => o
  | .st _ _ o => o
/-- The group of the instruction as an author, and a thread of it as an agent. -/
def Env.author (e : Env) : Author := e.team.author e.g.gix
def Env.agent (e : Env) (t : Nat) : Agent := .thread e.team.id (e.tit t)
/-- The threads that a read of a thread is of; a read for the group is of every streamed one. -/
def Env.readers (e : Env) (t : Nat) : List Nat := if t = 32 then e.act else [t]
/-- The agents that a read of a thread is of. -/
def Env.agents (e : Env) (t : Nat) : List Agent := (e.readers t).map e.agent
/-- The point of the history that a read of a place is no older than. -/
def State.floorLoc (s : State) (r : Reader) (l : Loc) (n : Nat) : Nat :=
  match l.mem with | some (m, a) => s.floor r m a n | none => 0
/-- The point that the read of a thread, one of those that perform the instruction, is no older than: nor is that of any
thread which the same bank access serves (R272). -/
def Env.floor (e : Env) (s : State) (x : Acc) (ts : List Nat) (t : Nat) : Nat :=
  (ts.filter (fun u => e.accessKey x u == e.accessKey x t)).foldl (fun k u =>
    match e.access s x u with | .ok l => max k (s.floorLoc (s.reader e.author (e.readers u)) l x.size) | .error _ => k) 0
/-- The point at which a thread reads when the instruction issues. -/
def Env.point (e : Env) (i : Instr) (s : State) (x : Acc) (ts : List Nat) (t : Nat) : Nat :=
  s.point (e.floor s x ts t) (e.age i x t)
/-- The reads of a load or an xld that are performed later than it issues; `off` is where an xld puts a thread's bytes. -/
def Env.readsOf (e : Env) (i : Instr) (x : Acc) (off : Nat → Nat) (s : State) (ts : List Nat) : List LateRead :=
  ts.filterMap (fun t =>
    match e.access s x t with
    | .ok l => if e.delay i x t = 0 then none
        else some ⟨t, l, x.size, i, off t, e.fp, e.fp + e.delay i x t, e.floor s x ts t, e.age i x t⟩
    | .error _ => none)
/-- What each thread whose access is legal reads. -/
def Env.reading (e : Env) (i : Instr) (x : Acc) (s : State) (ts : List Nat) : List (Nat × List Byte) :=
  ts.filterMap (fun t =>
    match e.access s x t with | .ok l => some (t, s.readAt (e.point i s x ts t) l x.size) | .error _ => none)
/-- The threads have read: they know what they found (R285), and those of a load that acquires do so where they read (R286). -/
def Env.haveRead (e : Env) (i : Instr) (x : Acc) (ts : List Nat) (s : State) : State :=
  ts.foldl (fun a t =>
    match e.access s x t with
    | .ok l =>
      let p := e.point i s x ts t
      let b := a.learnLoc (e.agents t) l x.size p
      (match acquireOf i with | some k => b.acquire e.author (e.agents t) k p false | none => b)
    | .error _ => a) s
/-- The threads acquire at a scope, each at the latest point at which it has read (R191, R286). -/
def Env.acquires (e : Env) (sc : Option Scope) (ts : List Nat) (s : State) : State :=
  match sc with
  | none => s
  | some k => ts.foldl (fun a t => a.acquire e.author [e.agent t] k (s.sightOf e.team.id (e.tit t)).seen false) s
/-- The threads release at a scope (R286). -/
def Env.releases (e : Env) (sc : Option Scope) (ts : List Nat) (s : State) : State :=
  match sc with | some k => s.releaseBy e.author ts k false [none] | none => s
/-- The threads release by a store or an arrival to places of their own (R286). -/
def Env.releasesAt (e : Env) (sc : Option Scope) (ps : List (Nat × Loc)) (s : State) : State :=
  match sc with
  | none => s
  | some k => ps.foldl (fun a p => a.releaseBy e.author [p.1] k false [p.2.mem.map (fun q => (q.1, q.2 / 64))]) s

/-- A load: each live thread reads its bytes as one action, when the instruction issues or up to its delay later;
LOAD_DATA_RETURN writes them. A thread that faults leaves its destination unchanged (R178).
DESIGN CHOICE (log entry 11; unsafe). -/
def performLoad (i : Instr) (h : Hdr) (sb : Fin 16) (d : Opnd) (x : Acc) (f : List Byte → List Word) (s : State) : Out :=
  performWith i h s fun e ts s =>
    let ws := (e.reading i x s ts).flatMap (fun p => runWrites p.1 d (f p.2))
    ((e.haveRead i x ts s).claimSlot e.team.id e.g.gix
        { PendOp.blank sb.val .load with writes := ws, regs := dstRegs ws, reads := e.readsOf i x (fun _ => 0) s ts },
      fun t => accessRes (e.access s x t))

/-- The parts of a store by the bank accesses that make them (R272), in the order of their first threads. -/
def Env.storeGroups (e : Env) (x : Acc) (parts : List (Nat × Loc × List Byte)) : List (List (Nat × Loc × List Byte)) :=
  (parts.map (fun p => e.accessKey x p.1)).eraseDups.map (fun k => parts.filter (fun p => e.accessKey x p.1 == k))
/-- The delay of a group of parts. -/
def Env.groupDelay (e : Env) (i : Instr) (x : Acc) (g : List (Nat × Loc × List Byte)) : Nat :=
  match g with | p :: _ => e.storeDelay i x p.1 | [] => 0
/-- A store: the live threads that are not helpers write, in ascending thread index where they meet (R180, R181), in the step that issues it
or when the delay is over; a release is ordered after what they have issued before. DESIGN CHOICE (log entry 11; unsafe). -/
def performStore (i : Instr) (h : Hdr) (sz : MSize) (d : Opnd) (x : Acc) (s : State) : Out :=
  performWith i h s fun e ts s =>
    let parts := ts.filterMap (fun t =>
      match e.access s x t with
      | .ok l => if e.helper t then none else some (t, l, storeBytes sz (e.run t 0 d sz.regs))
      | .error _ => none)
    let gs := e.storeGroups x parts
    let s1 := e.releasesAt (releaseOf i) (parts.map (fun p => (p.1, p.2.1))) s
    let s2 := (gs.filter (fun g => e.groupDelay i x g == 0)).foldl (fun a g => a.writeParts e.author g [] []) s1
    let late := (gs.filter (fun g => e.groupDelay i x g != 0)).map (fun g => ⟨e.author, g, e.fp, e.fp + e.groupDelay i x g, [], []⟩)
    (State.wake { s2 with late := s2.late ++ late }, fun t => accessRes (e.access s x t))

/-- Element `i` of a row of packed bytes (R57). -/
def rowElement (w i : Nat) (bs : List Byte) : Nat := bitsOf (leNat bs) (w * i) w
/-- A run of registers from sixteen packed elements. -/
def packRun (w : Nat) (els : List Nat) : List Word :=
  let n := els.foldr (fun x a => x + 2 ^ w * a) 0
  (List.range (w * els.length / 32)).map (fun k => BitVec.ofNat 32 (bitsOf n (32 * k) 32))
/-- The number that a run of words packs. -/
def runNat (ws : List Word) : Nat := ws.foldr (fun x a => x.toNat + 2 ^ 32 * a) 0
/-- What a thread of an ldt receives once the row of a thread of its quad is read anew (R183). -/
def ldtAgain (w : Nat) (from_ t : Nat) (bs : List Byte) (ws : List Word) : List Word :=
  packRun w ((List.range 16).map (fun k =>
    if k % 4 = from_ % 4 then rowElement w (4 * (t % 4) + k / 4) bs else bitsOf (runNat ws) (w * k) w))

/-- Results of an operation take the place of those of the same thread and register. -/
def PendOp.rewrite (o : PendOp) (new : List (Nat × Nat × Word)) : PendOp :=
  { o with writes := o.writes.map (fun w => (new.find? (fun v => v.1 == w.1 && v.2.1 == w.2.1)).getD w) }
/-- A read that is due has been made: its words or bytes take the place of what an earlier read would have given. -/
def PendOp.reread (o : PendOp) (r : LateRead) (bs : List Byte) : PendOp :=
  match r.i, loadOf r.i with
  | .ldt _ w d _ _ _, _ =>
    let words (t : Nat) : List Word := (o.writes.filter (fun v => v.1 == t)).map (fun v => v.2.2)
    o.rewrite ((List.range 4).flatMap (fun k =>
      let t := r.tid / 4 * 4 + k
      runWrites t d (ldtAgain (ldtWidth w) r.tid t bs (words t))))
  | _, some (d, f) => o.rewrite (runWrites r.tid d (f bs))
  | _, none => { o with xbytes := o.xbytes.map (fun p =>
      if r.off ≤ p.1 ∧ p.1 < r.off + r.size then (p.1, (bs[p.1 - r.off]?).getD p.2) else p) }
/-- The point at which a read that is due is made. -/
def State.duePoint (s : State) (r : LateRead) : Nat := s.point r.floor r.age
/-- The read is due. -/
def LateRead.ripe (s : State) (r : LateRead) : Bool := decide (r.due ≤ s.clock)
/-- The reads of an operation that are due are made; what stands in a poisoned line is never delivered (R382). -/
def PendOp.readLate (s : State) (o : PendOp) : PendOp :=
  { (o.reads.filter (LateRead.ripe s)).foldl (fun o r => if s.badPlace r.loc then o else o.reread r (s.readAt (s.duePoint r) r.loc r.size)) o with
    reads := o.reads.filter (fun r => !(r.ripe s)) }
/-- The reads of a team that are due are made. -/
def Team.readLate (s : State) (t : Team) : Team :=
  { t with groups := t.groups.map (fun g => { g with ops := g.ops.map (PendOp.readLate s) }) }
/-- The threads of the reads of a team that are due come to know the writes that they find. -/
def State.knowLate (s : State) (t : Team) : State :=
  t.groups.foldl (fun a g => (g.ops.flatMap (fun o => o.reads.filter (LateRead.ripe s))).foldl (fun a r =>
    let ts := if r.tid = 32 then List.range 32 else [r.tid]
    a.learnLoc (ts.map (fun n => .thread t.id (32 * g.gix + n))) r.loc r.size (s.duePoint r)) a) s
/-- The accesses that are due are performed: the stores in the order of issue, then the reads (R185, R292).
DESIGN CHOICE (log entry 11; unsafe). -/
def State.performLate (s : State) : State :=
  let due := s.late.filter (fun l => decide (l.due ≤ s.clock))
  let s1 := { s with late := s.late.filter (fun l => decide (s.clock < l.due)) }
  let s2 := if due.isEmpty then s1 else (due.foldl State.perform s1).wake
  { s2.teams.foldl State.knowLate s2 with teams := s2.teams.map (Team.readLate s2) }

/-- ld.s (R179): a load reads lines of either type (R177). -/
def execLdS (h : Hdr) (sz : MSize) (sx : Bool) (ord : Option Scope) (d a : Opnd) (off : BitVec 12) (sb : Fin 16)
    (s : State) : Out :=
  performLoad (.ldS h sz sx ord d a off sb) h sb d (Acc.raw a off sz.bytes) (loadWords sz sx) s
/-- ld.h (R179). -/
def execLdH (h : Hdr) (sz : MSize) (sx : Bool) (ord : Option Scope) (d a : Opnd) (off : BitVec 12) (sb : Fin 16)
    (s : State) : Out :=
  performLoad (.ldH h sz sx ord d a off sb) h sb d (Acc.plain .h a off sz.bytes) (loadWords sz sx) s
/-- ld.k (R179). -/
def execLdK (h : Hdr) (sz : MSize) (sx : Bool) (d a : Opnd) (off : BitVec 12) (sb : Fin 16) (s : State) : Out :=
  performLoad (.ldK h sz sx d a off sb) h sb d (Acc.plain .k a off sz.bytes) (loadWords sz sx) s
/-- ld.c (R179). -/
def execLdC (h : Hdr) (sz : MSize) (sx : Bool) (ord : Option Scope) (d a : Opnd) (off : BitVec 12) (sb : Fin 16)
    (s : State) : Out :=
  performLoad (.ldC h sz sx ord d a off sb) h sb d (Acc.plain .c a off sz.bytes) (loadWords sz sx) s
/-- st.s (R179). -/
def execStS (h : Hdr) (sz : MSize) (ord : Option Scope) (a : Opnd) (off : BitVec 12) (d : Opnd) (s : State) : Out :=
  performStore (.stS h sz ord a off d) h sz d (Acc.plain .s a off sz.bytes) s
/-- st.h (R179). -/
def execStH (h : Hdr) (sz : MSize) (ord : Option Scope) (a : Opnd) (off : BitVec 12) (d : Opnd) (s : State) : Out :=
  performStore (.stH h sz ord a off d) h sz d (Acc.plain .h a off sz.bytes) s
/-- st.k (R179). -/
def execStK (h : Hdr) (sz : MSize) (a : Opnd) (off : BitVec 12) (d : Opnd) (s : State) : Out :=
  performStore (.stK h sz a off d) h sz d (Acc.plain .k a off sz.bytes) s
/-- st.c (R179). -/
def execStC (h : Hdr) (sz : MSize) (ord : Option Scope) (a : Opnd) (off : BitVec 12) (d : Opnd) (s : State) : Out :=
  performStore (.stC h sz ord a off d) h sz d (Acc.plain .c a off sz.bytes) s

/-- ldu (R182): one access for the group; a fault is raised for every streamed thread. -/
def execLdu (h : Hdr) (sz : MSize) (ord : Option Scope) (d a : Opnd) (off : BitVec 12) (sb : Fin 16) (s : State) : Out :=
  performWith (.ldu h sz ord d a off sb) h s fun e ts s =>
    let i := Instr.ldu h sz ord d a off sb
    let x := Acc.raw a off sz.bytes
    let one := if ts.isEmpty then [] else [32]
    let ws := (e.reading i x s one).flatMap (fun p => runWrites 32 d (loadWords sz false p.2))
    ((e.haveRead i x one s).claimSlot e.team.id e.g.gix
      { PendOp.blank sb.val .load with writes := ws, regs := dstRegs ws, reads := e.readsOf i x (fun _ => 0) s one },
      fun _ => accessRes (e.access s x 32))

/-- ldt (R183): each quad transposes a 4 × 16 matrix of elements. -/
def execLdt (h : Hdr) (w : Fin 4) (d a : Opnd) (off : BitVec 12) (sb : Fin 16) (s : State) : Out :=
  performWith (.ldt h w d a off sb) h s fun e ts s =>
    let i := Instr.ldt h w d a off sb
    let wd := ldtWidth w
    let x := ldtAcc w a off
    let r := e.reading i x s ts
    let row (t : Nat) : List Byte := ((r.find? (fun p => p.1 == t)).map Prod.snd).getD []
    let one (t : Nat) : List (Nat × Nat × Word) :=
      match e.access s x t with
      | .error _ => []
      | .ok _ =>
        let q := t / 4 * 4
        let els := (List.range 16).map (fun k => rowElement wd (4 * (t % 4) + k / 4) (row (q + k % 4)))
        runWrites t d (packRun wd els)
    let ws := ts.flatMap one
    ((e.haveRead i x ts s).claimSlot e.team.id e.g.gix
        { PendOp.blank sb.val .load with writes := ws, regs := dstRegs ws, reads := e.readsOf i x (fun _ => 0) s ts },
      fun t => accessRes (e.access s x t))

end Sys2Proof.Machine
end

