-- ==== Sys2Proof/Machine/Atomic.lean ====
section
/-!
DEFINITION. Atomics, MAJOR 0x98 to 0x9E (R186 to R190).
-/

namespace Sys2Proof.Machine

/-- A floating-point operation of an atomic: subnormals kept, rne, canonical NaN, no flag (R186). -/
def atF (f : FV → FV → FV × FlagBits) (x y : Nat) : Nat :=
  (finishFV ffF32 false .rne (f (ffF32.value x) (ffF32.value y))).1
/-- round_f32(f32(x) + f32(y), rne). -/
def atFadd (x y : Nat) : Nat := atF (addFV .rne) x y
/-- op(h, v) of R186 on values of `n` bits. -/
def atOp (n : Nat) (op : AtOp) (h v : Nat) : Nat :=
  let sh := sextNat n h
  let sv := sextNat n v
  match op with
  | .add => (h + v) % 2 ^ n
  | .minI => if sv < sh then v else h
  | .maxI => if sh < sv then v else h
  | .minN => if v < h then v else h
  | .maxN => if h < v then v else h
  | .and => h &&& v
  | .or => h ||| v
  | .xor => h ^^^ v
  | .xchg => v
  | .fadd => atFadd h v
  | .fmin => (minmaxFV ffF32 false false h v).1
  | .fmax => (minmaxFV ffF32 false true h v).1

/-- The number a list of words stands for. -/
def wordsNat (ws : List Word) : Nat := leNat (ws.flatMap wordBytes)
/-- The words of a number. -/
def natWords (n x : Nat) : List Word := (List.range n).map (fun k => BitVec.ofNat 32 (bitsOf x (32 * k) 32))
/-- The value at a place. -/
def State.locNat (s : State) (l : Loc) (n : Nat) : Nat := leNat (s.readLoc l n)
/-- Threads of a group write a value at a place. -/
def State.setNatBy (s : State) (a : Author) (ts : List Nat) (l : Loc) (n x : Nat) : State :=
  s.writeAs (some a) (ts.map (fun t => .thread a.team (32 * a.gix + t))) l (leBytes n x)
/-- Threads of a group have read what stands at a place at its home (R186, R285). -/
def State.sawNat (s : State) (a : Author) (ts : List Nat) (l : Loc) (n : Nat) : State :=
  (s.learnNewest (ts.map (fun t => .thread a.team (32 * a.gix + t))) l n).1

/-- The threads of an atomic that act, with their places, ascending: live, no fault, no helper (R187, R190). -/
def Env.actors (e : Env) (s : State) (x : Acc) (ts : List Nat) : List (Nat × Loc) :=
  ts.filterMap (fun t => match e.access s x t with | .ok l => if e.helper t then none else some (t, l) | .error _ => none)

/-- One action at a time in ascending thread index: the state after, and the old value for each thread. -/
def seqAtomic (a : Author) (n : Nat) (f : Nat → Nat → Nat) (s : State) (l : List (Nat × Loc)) : State × List (Nat × Nat) :=
  l.foldl (fun b p =>
    let h := b.1.locNat p.2 n
    ((b.1.sawNat a [p.1] p.2 n).setNatBy a [p.1] p.2 n (f p.1 h), b.2 ++ [(p.1, h)])) (s, [])

/-- fadd for one address (R187): what each thread receives, and the prefix over all of them. -/
def faddGroup (h : Nat) (v : Nat → Nat) (ts : List Nat) : List (Nat × Nat) × Option Nat :=
  ts.foldl (fun a t =>
    match a.2 with
    | none => (a.1 ++ [(t, h)], some (v t))
    | some p => (a.1 ++ [(t, atFadd h p)], some (atFadd p (v t)))) ([], none)
/-- The places of a list without repeats. -/
def places (l : List (Nat × Loc)) : List Loc := (l.map Prod.snd).eraseDups
/-- Combined fadd (R187): each set of equal addresses is one update. -/
def combFadd (a : Author) (v : Nat → Nat) (s : State) (l : List (Nat × Loc)) : State × List (Nat × Nat) :=
  (places l).foldl (fun b p =>
    let h := s.locNat p 4
    let ts := (l.filter (fun q => q.2 == p)).map Prod.fst
    let r := faddGroup h v ts
    (match r.2 with | some q => (b.1.sawNat a ts p 4).setNatBy a ts p 4 (atFadd h q) | none => b.1, b.2 ++ r.1)) (s, [])

/-- The read-modify-writes of one atomic instruction, and the value each thread receives. -/
def atomicRun (a : Author) (op : AtOp) (wide : Bool) (v : Nat → Nat) (s : State) (l : List (Nat × Loc)) : State × List (Nat × Nat) :=
  match op with
  | .fadd => combFadd a v s l
  | _ => seqAtomic a (4 * wideRegs wide) (fun t h => atOp (32 * wideRegs wide) op h (v t)) s l

/-- A returning atomic: the old values are written by ATOMIC_RETURN. -/
def performAtom (i : Instr) (h : Hdr) (sb : Fin 16) (op : AtOp) (wide : Bool) (d : Opnd) (x : Acc) (s : State) : Out :=
  performWith i h s fun e ts s =>
    let v (t : Nat) : Nat := wordsNat (e.run t 0 d (wideRegs wide))
    let l := e.actors s x ts
    let r := atomicRun e.author op wide v s l
    let ws := r.2.flatMap (fun p => runWrites p.1 d (natWords (wideRegs wide) p.2))
    ((r.1.claimSlot e.team.id e.g.gix { PendOp.blank sb.val .atomic with writes := ws, regs := dstRegs ws }).wake,
      fun t => accessRes (e.access s x t))
/-- An atomic that returns nothing. -/
def performRed (i : Instr) (h : Hdr) (op : AtOp) (wide : Bool) (d : Opnd) (x : Acc) (s : State) : Out :=
  performWith i h s fun e ts s =>
    let v (t : Nat) : Nat := wordsNat (e.run t 0 d (wideRegs wide))
    let l := e.actors s x ts
    ((atomicRun e.author op wide v s l).1.wake, fun t => accessRes (e.access s x t))

/-- atom.s (R186). -/
def execAtomS (h : Hdr) (op : AtOp) (wide ordf : Bool) (a : Opnd) (off : BitVec 12) (d : Opnd) (sb : Fin 16) (s : State) : Out :=
  performAtom (.atomS h op wide ordf a off d sb) h sb op wide d (atAcc .s a off wide) s
/-- atom.h (R186). -/
def execAtomH (h : Hdr) (op : AtOp) (wide ordf : Bool) (a : Opnd) (off : BitVec 12) (d : Opnd) (sb : Fin 16) (s : State) : Out :=
  performAtom (.atomH h op wide ordf a off d sb) h sb op wide d (atAcc .h a off wide) s
/-- atom.c (R186). -/
def execAtomC (h : Hdr) (op : AtOp) (wide ordf : Bool) (a : Opnd) (off : BitVec 12) (d : Opnd) (sb : Fin 16) (s : State) : Out :=
  performAtom (.atomC h op wide ordf a off d sb) h sb op wide d (atAcc .c a off wide) s
/-- red.s (R186). -/
def execRedS (h : Hdr) (op : AtOp) (wide ordf : Bool) (a : Opnd) (off : BitVec 12) (d : Opnd) (s : State) : Out :=
  performRed (.redS h op wide ordf a off d) h op wide d (atAcc .s a off wide) s
/-- red.h (R186). -/
def execRedH (h : Hdr) (op : AtOp) (wide ordf : Bool) (a : Opnd) (off : BitVec 12) (d : Opnd) (s : State) : Out :=
  performRed (.redH h op wide ordf a off d) h op wide d (atAcc .h a off wide) s
/-- red.c (R186). -/
def execRedC (h : Hdr) (op : AtOp) (wide ordf : Bool) (a : Opnd) (off : BitVec 12) (d : Opnd) (s : State) : Out :=
  performRed (.redC h op wide ordf a off d) h op wide d (atAcc .c a off wide) s

/-- atom.cas (R188): threads are performed one at a time, never combined. -/
def execCas (h : Hdr) (sp : ASpace) (wide ordf : Bool) (a : Opnd) (off : BitVec 12) (d : Opnd) (sb : Fin 16) (s : State) : Out :=
  performWith (.cas h sp wide ordf a off d sb) h s fun e ts s =>
    let n := wideRegs wide
    let x := atAcc (casSpace sp) a off wide
    let vs (t : Nat) : List Word := e.run t 0 d (2 * n)
    let l := e.actors s x ts
    let r := seqAtomic e.author (4 * n)
      (fun t old => if old = wordsNat ((vs t).take n) then wordsNat ((vs t).drop n) else old) s l
    let ws := r.2.flatMap (fun p => runWrites p.1 d (natWords n p.2))
    ((r.1.claimSlot e.team.id e.g.gix { PendOp.blank sb.val .atomic with writes := ws, regs := dstRegs ws }).wake,
      fun t => accessRes (e.access s x t))

end Sys2Proof.Machine
end

