-- ==== Sys2Proof/Machine/Run.lean ====
section
/-!
DEFINITION. What a group issues next (R77 to R83, R259): the checks at a clause's start, the fetch and the
decoding of an instruction, and the checks of its place in the clause (R79, R80).
-/

namespace Sys2Proof.Machine

/-- The number of a clause class in a header (R79). -/
def classNum : CClass → Nat | .valu => 0 | .uniform => 1 | .mem => 2 | .matrix => 3 | .engine => 4 | .control => 5

/-- The class and position checks of R79 and R80 for an instruction at index `idx` of a clause. -/
def placeOk (h : DWord) (idx : Nat) (i : Instr) : Bool :=
  let last := idx == hdrCnt h
  let cls := hdrClass h
  if isControl i then last
  else if isBlockEnding i then last && cls == 2
  else
    match clauseClass i with
    | none => true
    | some c => classNum c == cls

/-- The instruction that a word of a clause stands for at an index: the decoded one, or its ILLOP (R79, R80, R89). -/
def insOf (h : DWord) (idx : Nat) (w : DWord) : Instr :=
  match decode w with
  | .ok i => if placeOk h idx i then i else .illop w 0x7FF
  | .error r => .illop w r.opnd

/-- The word that stands at the PC of the surroundings. -/
def Env.word (e : Env) : DWord := e.s.codeAt e.team.ctx (e.hdrAddr + 8 + 8 * pcIdx e.pc)

/-- The first pending fault of a streamed thread, as the event that raises it (R226, R239). -/
def Env.pendingFault (e : Env) : Option Instr :=
  e.act.findSome? (fun t =>
    match e.thread t with
    | none => none
    | some th =>
      match th.faults with
      | [] => none
      | f :: _ => if f.cause = .badscale then some (.badscale e.team.id e.g.gix t) else some (.callfault e.team.id e.g.gix t))

/-- What a group does next at the start of a clause, before it issues: a fault, or a stall that R260 breaks.
`none`: nothing of that kind. -/
def Env.boundary (e : Env) : Option Instr :=
  match (if pcIdx e.pc = 0 then e.pendingFault else none) with
  | some i => some i
  | none =>
    if !hdrOk e.hdr then some (.badclause e.hdr)
    else if e.sbWaits then none
    else if e.cvWaits.any e.team.cvStuck then some (.cvstateStall e.team.id e.g.gix)
    else none

/-- The group stalls in a claim that has begun; one that a restore brings back begins again first (R264). -/
def Env.waitsClaim (e : Env) : Bool := e.g.claim.isSome && e.g.held
/-- A region command that the group has issued is still at work (R279, R400). -/
def Env.inRegion (e : Env) : Bool := e.s.regionOps.any (fun o => o.by_.team == e.team.id && o.by_.gix == e.g.gix)
/-- The group stalls (R83, R245, R259, R400) or its team does not run. -/
def Env.stalled (e : Env) : Bool :=
  !e.team.runs || e.waitsClaim || e.inRegion || (e.clauseBegin && (e.sbWaits || !e.cvWaits.isEmpty))

/-- What a group of a team executes next; none while it has nothing to issue. -/
def nextOf (s : State) (id gix : Nat) : Option Instr :=
  match envOf s id gix with
  | none => none
  | some e =>
    if !e.team.runs then none
    else
      match (if e.clauseBegin then e.boundary else none) with
      | some i => some i
      | none => if e.stalled then none else some (insOf e.hdr (pcIdx e.pc) e.word)

end Sys2Proof.Machine
end

