-- ==== Sys2Proof/Machine/Sync.lean ====
section
/-!
DEFINITION. Fences, barriers and arrival words, MAJOR 0xA8 to 0xAA (R191 to R200).
-/

namespace Sys2Proof.Machine

/-- The number of the newest write that an agent knows. -/
def State.newestOf (s : State) (g : Agent) : Nat := s.lastNo (fun w => w.known.contains g)
/-- The point from which a thread reads after a full fence: that of its own reads and writes before it, or, where stores of
its own are still to be performed, the present one (R191). -/
def Env.fullPoint (e : Env) (s : State) (t : Nat) : Nat :=
  if e.lateStores.any (fun c => c.1 == t) then s.writes else max (s.sightOf e.team.id (e.tit t)).seen (s.newestOf (e.agent t))
/-- fence (R191): it issues when what its kind orders of the thread's earlier accesses has been performed (`Env.holds`), so
it completes at once; it releases and then acquires. A full fence is ordered with every other one that shares its scope.
DESIGN CHOICE (log entry 11; unsafe). -/
def execFence (h : Hdr) (kind : FenceKind) (sc : Scope) (s : State) : Out :=
  performWith (.fence h kind sc) h s fun e ts s =>
    match kind with
    | .acq => (e.acquires (some sc) ts s, fun _ => {})
    | .rel => (e.releases (some sc) ts s, fun _ => {})
    | .full =>
      (ts.foldl (fun b t => b.acquire e.author [e.agent t] sc (e.fullPoint s t) true) (s.releaseBy e.author ts sc true [none]), fun _ => {})

/-! ### Barriers (R192 to R196) -/

/-- The fields of a barrier word (R192). -/
structure Bar where
  next : Nat
  phase : Nat
  count : Nat
  expect : Nat
  /-- The reserved bits, in place. -/
  rest : Nat
  deriving DecidableEq, Repr
/-- The reserved bits of a barrier word: [49:48], [31:30] and [15:14]. -/
abbrev barRsv : Nat := 3 * 2 ^ 48 + 3 * 2 ^ 30 + 3 * 2 ^ 14
/-- Unpack a barrier word. -/
def Bar.of (w : Nat) : Bar := ⟨bitsOf w 50 14, bitsOf w 32 16, bitsOf w 16 14, bitsOf w 0 14, w &&& barRsv⟩
/-- Pack a barrier word. -/
def Bar.word (b : Bar) : Nat :=
  b.next % 2 ^ 14 * 2 ^ 50 + b.phase % 2 ^ 16 * 2 ^ 32 + b.count % 2 ^ 14 * 2 ^ 16 + b.expect % 2 ^ 14 + b.rest
/-- A valid EXPECT. -/
def expectOk (n : Nat) : Bool := decide (1 ≤ n) && decide (n ≤ 8192)
/-- bar.init on a word (R194). -/
def Bar.init (b : Bar) (n : Nat) : Bar := ⟨0, (b.phase + 1) % 65536, 0, n, 0⟩
/-- A phase as a valid token (R193). -/
def tokenOf (phase : Nat) : Word := BitVec.ofNat 32 (2 ^ 31 + phase % 65536)
/-- One turn of the resolution loop of R195. -/
def Bar.turn (b : Bar) : Bar :=
  if b.count = b.expect then { b with phase := (b.phase + 1) % 65536, count := b.next, next := 0 } else b
/-- The resolution loop of R195: after two turns COUNT is 0 or below EXPECT. -/
def Bar.resolve (b : Bar) : Bar := b.turn.turn
/-- One arrival (R195): the word and token after it, or its fault. -/
def Bar.arrive (b : Bar) (tok : Word) : Except Cause (Bar × Word) :=
  if !expectOk b.expect then .error .barinit
  else
    let delta := if tok.getLsbD 31 then (bitsOf tok.toNat 0 16 + 65536 - b.phase) % 65536 else 0x8000
    if 0x8000 ≤ delta then .ok ({ b with count := (b.count + 1) % 2 ^ 14 }.resolve, tokenOf b.phase)
    else if delta = 0 then
      if b.next = b.expect then .error .barahead
      else .ok ({ b with next := (b.next + 1) % 2 ^ 14 }.resolve, tokenOf (b.phase + 1))
    else .error .barahead

/-- A fault of the instruction's own: VALUE the address, OPND D's code (R178). -/
def Env.ownFault (e : Env) (c : Cause) (t : Nat) (x : Acc) (d : Opnd) : TRes :=
  faultRes c d.code (BitVec.ofNat 32 (e.addr t x.a x.off x.scale))

/-- Every thread that waits on a barrier word is released (R194). -/
def State.releaseAt (s : State) (team off : Nat) : State :=
  s.parked.foldl (fun a p =>
    match (a.thread? p.1 p.2.1 p.2.2).bind Thread.wait with
    | some ⟨_, _, .bar tm o _ _, _, _⟩ => if tm = team ∧ o = off then a.releaseWait p.1 p.2.1 p.2.2 else a
    | _ => a) s
/-- bar.init (R194): it releases the threads that wait on each word it writes. DEDUCED (log entry 12; unsafe). -/
def execBarInit (h : Hdr) (a : Opnd) (off : BitVec 12) (d : Opnd) (s : State) : Out :=
  performWith (.barInit h a off d) h s fun e ts s =>
    let x := barAcc a off
    let n (t : Nat) : Nat := (e.w t 0 d).toNat
    let one (b : State) (t : Nat) : State :=
      match e.access s x t with
      | .error _ => b
      | .ok l => if e.helper t || !expectOk (n t) then b
                 else (b.sawNat e.author [t] l 8).setNatBy e.author [t] l 8 ((Bar.of (b.locNat l 8)).init (n t)).word
    let free (b : State) (t : Nat) : State :=
      match e.access s x t with
      | .ok (.sh team o) => if e.helper t || !expectOk (n t) then b else b.releaseAt team o
      | _ => b
    ((ts.foldl free (ts.foldl one s)).wake, fun t =>
      match e.access s x t with
      | .error f => { leave := .trap f }
      | .ok _ => if !expectOk (n t) then e.ownFault .barinit t x d else {})

/-- The arrivals of one bar.arrive: the state, the tokens and the faults (R195). -/
structure BarRun where
  s : State
  toks : List (Nat × Word)
  faults : List (Nat × Cause)

/-- The arrival of one thread; a helper's is not counted. DEDUCED (log entry 12; unsafe). -/
def BarRun.one (e : Env) (x : Acc) (d : Opnd) (r : BarRun) (t : Nat) : BarRun :=
  match e.access r.s x t with
  | .error _ => r
  | .ok l =>
    let b := Bar.of (r.s.locNat l 8)
    if e.helper t then
      if expectOk b.expect then { r with toks := r.toks ++ [(t, tokenOf b.phase)] }
      else { r with faults := r.faults ++ [(t, .barinit)] }
    else
      match b.arrive (e.w t 0 d) with
      | .error c => { r with faults := r.faults ++ [(t, c)] }
      | .ok p => { r with s := (r.s.sawNat e.author [t] l 8).setNatBy e.author [t] l 8 p.1.word, toks := r.toks ++ [(t, p.2)] }

/-- bar.arrive (R195): the arrivals of one instruction are performed in ascending thread index, after its release (R286). -/
def execBarArrive (h : Hdr) (d a : Opnd) (off : BitVec 12) (sb : Fin 16) (s : State) : Out :=
  performWith (.barArrive h d a off sb) h s fun e ts s =>
    let x := barAcc a off
    let r := ts.foldl (BarRun.one e x d) ⟨e.releasesAt (some .clu) (e.actors s x ts) s, [], []⟩
    let ws := r.toks.flatMap (fun p => runWrites p.1 d [p.2])
    ((r.s.claimSlot e.team.id e.g.gix { PendOp.blank sb.val .atomic with writes := ws, regs := dstRegs ws }).wake,
      fun t =>
        match e.access s x t with
        | .error f => { leave := .trap f }
        | .ok _ => match r.faults.find? (fun p => p.1 == t) with | some p => e.ownFault p.2 t x d | none => {})

/-- A block-ending wait on a word: threads whose wait is over already acquire (R286). -/
def performWait (i : Instr) (h : Hdr) (x : Acc) (sc : Scope) (s : State) (f : Env → Nat → TRes) : Out :=
  performWith i h s fun e ts s =>
    ((ts.filter (fun t => (f e t).leave == .waited)).foldl (fun b t =>
      match e.access s x t with | .ok l => b.acquireWait e.author (e.agent t) l x.size sc | .error _ => b) s, f e)
/-- bar.wait (R196). -/
def execBarWait (h : Hdr) (a : Opnd) (off : BitVec 12) (d : Opnd) (s : State) : Out :=
  performWait (.barWait h a off d) h (barAcc a off) .clu s fun e t =>
    let x := barAcc a off
    match e.access e.s x t with
    | .error f => { leave := .trap f }
    | .ok l =>
      let tok := e.w t 0 d
      if !(tok.getLsbD 31) || barPassed (Bar.of (e.s.locNat l 8)).phase (bitsOf tok.toNat 0 16) then { leave := .waited }
      else
        match l with
        | .sh team o =>
          { leave := .park (.bar team o (tok.setWidth 16) (BitVec.ofNat 32 (e.addr t a off 8))) a.code }
        | _ => { leave := .waited }

/-! ### Arrival words (R197 to R200) -/

/-- Change the arrival words that the live threads that are not helpers name, ascending. DEDUCED (log entry 12; unsafe). -/
def Env.arrFold (e : Env) (x : Acc) (ts : List Nat) (f : Nat → Arr → Arr) (s : State) : State :=
  ts.foldl (fun b t =>
    match e.access s x t with
    | .ok (.die die addr) =>
      if e.helper t then b
      else (b.sawNat e.author [t] (.die die addr) 16).setArrBy (some e.author) [e.agent t] die addr (f t (b.arrAt die addr))
    | _ => b) s

/-- arr.init (R199). -/
def execArrInit (h : Hdr) (a : Opnd) (off : BitVec 12) (d : Opnd) (s : State) : Out :=
  performWith (.arrInit h a off d) h s fun e ts s =>
    let x := arrAcc a off
    ((e.arrFold x ts (fun t w => ⟨e.w t 0 d, 0, w.gen, 0⟩) s).wake, fun t => accessRes (e.access s x t))
/-- arr.add (R198, R199), after its release (R286). -/
def execArrAdd (h : Hdr) (a : Opnd) (off : BitVec 12) (d : Opnd) (s : State) : Out :=
  performWith (.arrAdd h a off d) h s fun e ts s =>
    let x := arrAcc a off
    ((e.arrFold x ts (fun t w => w.raise (e.w t 0 d).toNat) (e.releasesAt (some .dev) (e.actors s x ts) s)).wake, fun t => accessRes (e.access s x t))
/-- arr.wait (R200). -/
def execArrWait (h : Hdr) (a : Opnd) (off : BitVec 12) (d : Opnd) (s : State) : Out :=
  performWait (.arrWait h a off d) h (arrAcc a off) .dev s fun e t =>
    let x := arrAcc a off
    match e.access e.s x t with
    | .error f => { leave := .trap f }
    | .ok (.die die addr) =>
      let w := e.s.arrAt die addr
      let g := e.w t 0 d
      if w.fault then faultRes .copyfault opndNone (BitVec.ofNat 32 addr)
      else if genPassed w.gen.toNat g.toNat then { leave := .waited }
      else { leave := .park (.arr addr g) a.code }
    | .ok _ => {}
/-- arr.read (R199): GEN and COUNT in one action. -/
def execArrRead (h : Hdr) (d a : Opnd) (off : BitVec 12) (sb : Fin 16) (s : State) : Out :=
  performLoad (.arrRead h d a off sb) h sb d (arrAcc a off) (fun bs => [wordAt bs 8, wordAt bs 4]) s

end Sys2Proof.Machine
end

