-- ==== Sys2Proof/Machine/Queue.lean ====
section
/-!
DEFINITION. Task queues (R241, R242, R244, R360, R361): room, pushes, pops and pending pushes.
-/

namespace Sys2Proof.Machine

/-- A task queue of a context. -/
def State.taskq? (s : State) (ctx num : Nat) : Option TaskQ := s.taskqs.find? (fun q => q.ctx == ctx && q.num == num)
/-- A task queue of a context that lies on a die (R360). -/
def State.taskqOn (s : State) (die ctx num : Nat) : Option TaskQ :=
  match s.taskq? ctx num with | some q => if q.die = die then some q else none | none => none
/-- Change a task queue. -/
def State.modTaskq (s : State) (ctx num : Nat) (f : TaskQ → TaskQ) : State :=
  { s with taskqs := replaceIf (fun q => q.ctx == ctx && q.num == num) f s.taskqs }
/-- Records a queue holds. -/
def TaskQ.count (q : TaskQ) : Nat := q.tail - q.head
/-- Pending pushes for a queue, which go ahead of every later push (R242, R244). -/
def State.pendingFor (s : State) (q : TaskQ) : Nat :=
  (s.pushes.filter (fun p => p.ctx == q.ctx && p.queue == q.num)).length
/-- Records that a push may still add; none while a pending push goes ahead of it (R244). -/
def State.room (s : State) (q : TaskQ) : Nat := if s.pendingFor q = 0 then 2 ^ q.logn - q.count else 0
/-- The ring line of a position. -/
def TaskQ.line (q : TaskQ) (pos : Nat) : Nat := q.ring + 64 * (pos % 2 ^ q.logn)
/-- Place a record at the tail of a queue, on behalf of a group or none. -/
def State.pushRecord (s : State) (by_ : Option Author) (q : TaskQ) (bs : List Byte) : State :=
  (s.writeAs by_ [] (.die q.die (q.line q.tail)) (bs.take 64)).modTaskq q.ctx q.num (fun q => { q with tail := q.tail + 1 })
/-- Remove the record at the head of a queue, as the ring holds it (R360). -/
def State.popRecord (s : State) (q : TaskQ) : State × List Byte :=
  (s.modTaskq q.ctx q.num (fun q => { q with head := q.head + 1 }), s.readLoc (.die q.die (q.line q.head)) 64)
/-- A pending push goes ahead of a push to the queue, and there is space for it (R244). -/
def State.pushesFirst (s : State) (q : TaskQ) : Bool := s.pendingFor q != 0 && decide (q.count < 2 ^ q.logn)
/-- The engine's check of R270 on the line of an address, with the type check of R177 for plain memory; a poisoned line
fails it (R382). -/
def State.lineOk (s : State) (ctx die addr : Nat) : Bool := (s.dieFault ctx die addr .plain).isNone && !(s.isPoisoned die addr)

/-- Pending pushes of tdone that a die holds. -/
def State.pendingOn (s : State) (die : Nat) : Nat := (s.pushes.filter (fun p => p.die == die && p.by_.isNone)).length
/-- A push is taken that waits for space in its queue, behind those taken before it. -/
def State.takePush (s : State) (q : TaskQ) (team gix : Nat) (by_ : Option (Nat × Instr)) (bs : List Byte) : State :=
  State.bumpId { s with pushes := s.pushes ++ [⟨s.nextId, q.die, q.ctx, q.num, team, gix, bs, by_⟩] }
/-- Records of a plain spawn of a group wait for space. -/
def State.spawning (s : State) (team gix : Nat) : Bool := s.pushes.any (fun p => p.team == team && p.gix == gix && p.by_.isSome)
/-- A thread whose record of a stalled spawn has entered the queue goes on, and the others at the spawn stay. -/
def State.spawnOn (s : State) (p : PendPush) : State :=
  match p.by_, envOf s p.team p.gix with
  | some (t, i), some e =>
    (match hdrOf i with
     | some h => retire e i h (e.act.map (fun u => (u, if u = t then {} else { leave := .stay }))) s
     | none => s)
  | _, _ => s
/-- A pending push is placed. -/
def State.placePush (s : State) (q : TaskQ) (p : PendPush) : State :=
  (State.pushRecord { s with pushes := s.pushes.erase p } (s.author? p.team p.gix) q p.bytes).spawnOn p
/-- A pending push that can be placed: its queue exists and has a free record. -/
def State.placeable (s : State) (p : PendPush) : Bool :=
  match s.taskq? p.ctx p.queue with | some q => decide (q.count < 2 ^ q.logn) | none => true
/-- Place the pending pushes of a queue, in the order taken, as far as there is space. -/
def State.placePending (s : State) (q : TaskQ) : State :=
  s.pushes.foldl (fun a p =>
    if p.ctx = q.ctx ∧ p.queue = q.num ∧ a.placeable p = true then
      (match a.taskq? q.ctx q.num with
       | some x => a.placePush x p
       | none => a)
    else a) s
/-- PENDING_PUSH (R242, R244): the oldest pending push of a die whose queue has space is placed. -/
def execPendingPush (die : Nat) (s : State) : Out :=
  match s.pushes.find? (fun p => p.die == die && s.placeable p) with
  | none => .next s
  | some p =>
    match s.taskq? p.ctx p.queue with
    | some q => .next (s.placePush q p)
    | none => .next { s with pushes := s.pushes.erase p }

end Sys2Proof.Machine
end

