-- ==== Sys2Proof/Machine/Estimator.lean ====
section
/-!
DEFINITION. Estimator memory, MAJOR 0xB0 to 0xB6 (R201 to R214, R278 to R281, R400, R401).
-/

namespace Sys2Proof.Machine

/-! ### Arithmetic of a word (R205, R206, R209) -/

/-- One step rounded with round_f32 in .rne, subnormals kept (R205). -/
def estF (f : FV → FV → FV × FlagBits) (x y : Word) : Word := BitVec.ofNat 32 (atF f x.toNat y.toNat)
/-- x + y. -/
def estAdd (x y : Word) : Word := estF (addFV .rne) x y
/-- x − y. -/
def estSub (x y : Word) : Word := estF (fun a b => addFV .rne a b.negate) x y
/-- x × y. -/
def estMul (x y : Word) : Word := estF mulFV x y
/-- x / y. -/
def estDiv (x y : Word) : Word := estF divFV x y
/-- The value of an FP32 word. -/
def f32V (x : Word) : FV := ffF32.value x.toNat
/-- A finite value. -/
def isFin (x : Word) : Bool := match f32V x with | .fin _ _ _ => true | _ => false
/-- A value that is zero. -/
def isZero (x : Word) : Bool := (f32V x).isZero
/-- Positive and finite. -/
def isPosFin (x : Word) : Bool := match f32V x with | .fin n m _ => !n && m != 0 | _ => false
/-- Finite and not negative. -/
def isNonneg (x : Word) : Bool := match f32V x with | .fin n m _ => !n || m == 0 | _ => false
/-- x > y; a NaN exceeds nothing and nothing exceeds a NaN. -/
def f32Gt (x y : Word) : Bool := !(f32V x).isNan && !(f32V y).isNan && decide (0 < cmpFV (f32V x) (f32V y))
/-- x ≥ y. -/
def f32Ge (x y : Word) : Bool := !(f32V x).isNan && !(f32V y).isNan && decide (0 ≤ cmpFV (f32V x) (f32V y))
/-- 1.0. -/
abbrev f32One : Word := 0x3F800000
/-- stderr(W, S) of R209. -/
def stderr (w sv : Word) : Word :=
  if f32Gt w f32One then
    let a := estSub w f32One
    let b := estMul w a
    let c := estDiv sv b
    BitVec.ofNat 32 (finishFV ffF32 false .rne (sqrtFV (f32V c))).1
  else 0x7F800000

/-- An estimator word (R201). -/
structure EWord where
  w : Word
  m : Word
  s : Word
  n : Nat
  g : Nat
  sat : Bool
  lag : Bool
  deriving DecidableEq, Repr
/-- Unpack an estimator word. -/
def EWord.of (bs : List Byte) : EWord :=
  let c := (wordAt bs 12).toNat
  ⟨wordAt bs 0, wordAt bs 4, wordAt bs 8, bitsOf c 0 20, bitsOf c 20 8, bitOf c 28, bitOf c 29⟩
/-- Pack an estimator word. -/
def EWord.bytes (x : EWord) : List Byte :=
  wordBytes x.w ++ wordBytes x.m ++ wordBytes x.s ++
    leBytes 4 (x.n % 2 ^ 20 + x.g % 256 * 2 ^ 20 + (if x.sat then 2 ^ 28 else 0) + (if x.lag then 2 ^ 29 else 0))
/-- N after a number of samples more. -/
def EWord.count (x : EWord) (n : Nat) : EWord :=
  if 0xFFFFF < x.n + n then { x with n := 0xFFFFF, sat := true } else { x with n := x.n + n }
/-- The merge of a sample (R205). -/
def EWord.sample (e : EWord) (w x : Word) : EWord :=
  if isZero e.w then { e with w := w, m := x, s := 0 }.count 1
  else
    let wn := estAdd e.w w
    let dl := estSub x e.m
    let m1 := estAdd e.m (estDiv (estMul dl w) wn)
    let r := estSub x m1
    let u := estMul (estMul w dl) r
    { e with m := m1, s := estAdd e.s u, w := wn }.count 1
/-- The merge of a batch (R206). -/
def EWord.batch (e : EWord) (n mb sb : Word) : EWord :=
  let wb : Word := BitVec.ofNat 32 (ffF32.encode (intFV n.toNat))
  if isZero e.w then { e with w := wb, m := mb, s := sb }.count n.toNat
  else
    let wn := estAdd e.w wb
    let dl := estSub mb e.m
    let mn := estAdd e.m (estDiv (estMul dl wb) wn)
    let c := estDiv (estMul (estMul (estMul dl dl) e.w) wb) wn
    { e with s := estAdd (estAdd e.s sb) c, w := wn, m := mn }.count n.toNat
/-- The condition of the lag check (R208). -/
def EWord.lags (e : EWord) (r : Region) : Bool :=
  f32Ge e.w r.wmin && !e.lag && f32Gt (stderr e.w e.s) (estMul r.eps (e.m &&& 0x7FFFFFFF))
/-- A decay (R210). -/
def EWord.decay (e : EWord) (f : Word) : EWord :=
  { e with w := estMul e.w f, s := estMul e.s f, g := (e.g + 1) % 256, lag := false }
/-- What eld reads (R209): the mean, the standard error and whether the word is empty. -/
def EWord.read (e : EWord) : Word × Word × Bool :=
  (if isZero e.w then 0 else e.m, stderr e.w e.s, isZero e.w)

/-! ### Regions and words -/

/-- The word at a die scratchpad address. -/
def State.eword (s : State) (die addr : Nat) : EWord := EWord.of (s.readLoc (.die die addr) 16)
/-- Write a word as one action, on behalf of a group or none, as agents that know it. -/
def State.setEword (s : State) (by_ : Option Author) (agents : List Agent) (die addr : Nat) (e : EWord) : State :=
  s.writeAs by_ agents (.die die addr) e.bytes
/-- A registered region (R203). -/
def State.region? (s : State) (die num : Nat) : Option Region := s.regions.find? (fun r => r.die == die && r.num == num)
/-- The registered region of a context that covers a word (R213). -/
def State.covering (s : State) (ctx die addr : Nat) : Option Region :=
  s.regions.find? (fun r => r.die == die && r.ctx == ctx && decide (r.base ≤ addr) && decide (addr < r.base + 16 * r.count))
/-- Count one lost lag request and write the count back (R203, R208). -/
def State.dropLag (s : State) (r : Region) : State :=
  let d : Word := if r.dropped = 0xFFFFFFFF then r.dropped else r.dropped + 1
  ({ s with regions := replaceIf (fun x => x.die == r.die && x.num == r.num) (fun x => { x with dropped := d }) s.regions }).writeLoc
    (.die r.die (r.desc + 0x1C)) (wordBytes d)
/-- A lag record (R208, R241, R401). -/
def lagRecord (r : Region) (addr g : Nat) : List Byte :=
  dwordBytes r.entry ++ leBytes 8 addr ++ leBytes 4 r.num ++ leBytes 4 ((addr - r.base) / 16) ++ leBytes 4 g ++
    leBytes 4 0 ++ leBytes 4 1 ++ List.replicate 28 0
/-- The team of a contribution, while it is placed. -/
def State.contribTeam (s : State) (c : Contrib) : Option Team := s.teams.find? (fun t => t.ctx == c.ctx && t.teamid == c.teamid)
/-- A lag record of a word is pushed, or counted as lost (R208, R281): it stands behind the pending pushes of its queue (R244).
DEDUCED (log entry 60; unsafe). -/
def State.pushLag (s : State) (by_ : Option Author) (r : Region) (addr g : Nat) : State :=
  match s.taskqOn r.die r.ctx r.queue with
  | some q0 =>
    let s1 := s.placePending q0
    let q := (s1.taskq? q0.ctx q0.num).getD q0
    if 0 < s1.room q && s1.lineOk r.ctx q.die (q.line q.tail) then s1.pushRecord by_ q (lagRecord r addr g) else s1.dropLag r
  | none => s.dropLag r
/-- A contribution reaches its word (R205, R206): the home merges it and makes the lag check as one action on the word (R208,
R274), which its thread knows (R185), as do other agents. A poisoned word is neither read nor written (R382). The lag check is
that of the region which has its number now. DEDUCED (log entry 60; unsafe). -/
def State.mergeContrib (s : State) (agents : List Agent) (c : Contrib) : State :=
  if s.isPoisoned c.die c.addr then s else
  let w := s.eword c.die c.addr
  let e := if c.batch then w.batch c.w c.x c.sb else w.sample c.w c.x
  let t := s.contribTeam c
  let by_ := t.map (fun t => t.author (c.tid / 32))
  let set (lag : Bool) : State :=
    s.setEword by_ ((t.map (fun t => Agent.thread t.id c.tid)).toList ++ agents) c.die c.addr { e with lag := lag }
  match s.region? c.die c.region with
  | some r => if r.ctx == c.ctx && e.lags r then (set true).pushLag by_ r c.addr e.g else set e.lag
  | none => set e.lag

/-! ### Units (R211, R279) -/

/-- The unit of a core. -/
def State.estUnit (s : State) (die core : Nat) : EstUnit :=
  (s.est.find? (fun u => u.die == die && u.core == core)).getD ⟨die, core, [], []⟩
/-- Set the unit of a core; one that holds nothing is not listed. -/
def State.setUnit (s : State) (u : EstUnit) : State :=
  let l := s.est.filter (fun x => !(x.die == u.die && x.core == u.core))
  { s with est := if u.inbuf.isEmpty && u.staged.isEmpty then l else l ++ [u] }
/-- The input buffer of a core's unit is full. -/
def State.inFull (s : State) (die core : Nat) : Bool := decide (Config.estBuf ≤ (s.estUnit die core).inbuf.length)
/-- A request enters an input buffer. -/
def State.enqueueEst (s : State) (die core : Nat) (r : EstReq) : State :=
  let u := s.estUnit die core
  s.setUnit { u with inbuf := u.inbuf ++ [r] }
/-- Contributions to DET regions that a unit has staged or is about to stage. DEDUCED (log entry 60; unsafe). -/
def State.stagedCount (s : State) (die core : Nat) : Nat :=
  let u := s.estUnit die core
  let coming (q : EstReq) : Bool :=
    match q with
    | .contrib c => c.core == core && (match s.region? die c.region with | some r => r.det | none => false)
    | .read .. => false
  u.staged.length + (u.inbuf.filter coming).length

/-- The order of R211: source core, TEAMID, thread index in team. -/
def Contrib.key (c : Contrib) : Nat := (c.srcCore * 2 ^ 32 + c.teamid.toNat) * 1024 + c.tid
/-- A contribution goes before another in the order of R211: by source core, TEAMID, thread and issue order.
DEDUCED (log entry 60; unsafe). -/
def Contrib.before (c d : Contrib) : Bool := decide (c.key < d.key) || (c.key == d.key && decide (c.no < d.no))
/-- Insert before the first element that comes later. -/
def insertContrib (c : Contrib) : List Contrib → List Contrib
  | [] => [c]
  | d :: l => if c.before d then c :: d :: l else d :: insertContrib c l
/-- Contributions in the order of R211, wherever they have been staged. -/
def sortContribs (l : List Contrib) : List Contrib := l.foldl (fun a c => insertContrib c a) []
/-- A staged contribution of a region. -/
def Contrib.inRegion (c : Contrib) (r : Region) : Bool := c.die == r.die && c.region == r.num && c.ctx == r.ctx
/-- Discard the staged contributions of a region. -/
def State.unstage (s : State) (r : Region) : State :=
  let l := s.est.map (fun u => { u with staged := u.staged.filter (fun c => !(c.inRegion r)) })
  { s with est := l.filter (fun u => !(u.inbuf.isEmpty && u.staged.isEmpty)) }
/-- The staging of a context is saved with it, in the order of R211 (R280, R372): the units hold none of it until the context
is resumed. -/
def State.unstageCtx (s : State) (ctx : Nat) : State :=
  let cs := (s.est.flatMap (fun u => u.staged)).filter (fun c => c.ctx == ctx)
  let l := s.est.map (fun u => { u with staged := u.staged.filter (fun c => c.ctx != ctx) })
  { s with est := l.filter (fun u => !(u.inbuf.isEmpty && u.staged.isEmpty)) }.modCtx ctx (fun c => { c with staged := sortContribs cs })
/-- Put a contribution behind those to the same word and before the first to a later one. -/
def insertWord (c : Contrib) : List Contrib → List Contrib
  | [] => [c]
  | d :: l => if c.addr < d.addr then c :: d :: l else d :: insertWord c l
/-- What an eflush merges (R211): all that is staged for a region on any core of the die, by ascending word (R279), and for
each word in the order of R211. -/
def State.toMerge (s : State) (r : Region) : List Contrib :=
  (sortContribs ((s.est.flatMap (fun u => u.staged)).filter (fun c => c.inRegion r))).foldl (fun a c => insertWord c a) []

/-- An eld request is performed: its results join its operation (R209), no T register after its code block (R30); a poisoned
word gives none (R382). -/
def State.performEld (s : State) (die : Nat) (team gix slot t addr d p : Nat) : State :=
  let r := (s.eword die addr).read
  let ws (o : PendOp) : List (Nat × Nat × Word) := if isTCode d && o.ended.contains t then [] else [(t, d, r.1), (t, d + 1, r.2.1)]
  let add (o : PendOp) : PendOp :=
    if o.slot = slot ∧ o.kind = .eld then
      if s.isPoisoned die addr then { o with need := o.need - 1 }
      else { o with writes := o.writes ++ ws o, preds := o.preds ++ [(t, p, r.2.2)], need := o.need - 1 }
    else o
  (s.learnNewest [.thread team (32 * gix + t)] (.die die addr) 16).1.modGroup team gix (fun g => { g with ops := g.ops.map add })

/-- ESTIMATOR_MERGE (R205, R211, R279): the unit of a core takes the oldest request of its input buffer. -/
def execEstimatorMerge (die core : Nat) (s : State) : Out :=
  let u := s.estUnit die core
  match u.inbuf with
  | [] => .next s
  | .read team gix slot t addr d p :: l => .next ((s.setUnit { u with inbuf := l }).performEld die team gix slot t addr d p)
  | .contrib c :: l =>
    let det := c.core == core && (match s.region? die c.region with | some r => r.det && r.ctx == c.ctx | none => false)
    if det then .next (s.setUnit { u with inbuf := l, staged := u.staged ++ [c] })
    else .next (((s.setUnit { u with inbuf := l }).mergeContrib [] c).wake)

/-- ELD_RETURN (R209): every request of the instruction has been performed. -/
def execEldReturn (team gix slot : Nat) (s : State) : Out :=
  match s.opAt team gix slot, s.group? team gix with
  | some o, some g => if o.need = 0 ∧ g.held = false then returnOp .eld team gix slot s else .next s
  | _, _ => .next s

/-! ### Contributions and eld (R205 to R209) -/

/-- The word and region a thread's estimator access names, or its fault (R178, R213). -/
def Env.estWord (e : Env) (s : State) (x : Acc) (t : Nat) : Except PendFault (Nat × Region) :=
  match e.access s x t with
  | .error f => .error f
  | .ok l =>
    let addr := match l with | .die _ a => a | _ => 0
    match s.covering e.team.ctx e.team.die addr with
    | some r => .ok (addr, r)
    | none => .error (x.fault .estregion addr)

/-- A contribution instruction: `v t` is the weight or count, the sample or mean, and the sum of deviations, and
`good` says that they pass R207. -/
def performContrib (i : Instr) (h : Hdr) (x : Acc) (batch : Bool) (v : Env → Nat → Word × Word × Word)
    (good : Word × Word × Word → Bool) (s : State) : Out :=
  performWith i h s fun e ts s =>
    let one (a : State) (t : Nat) : State × TRes :=
      match e.estWord a x t with
      | .error f => (a, { leave := .trap f })
      | .ok (addr, r) =>
        let p := v e t
        if e.helper t then (a, {})
        else if !good p then (a, { flags := fNV })
        else
          let core := if r.det then e.team.core else spCore addr
          let c : Contrib := ⟨a.nextId, e.team.ctx, e.team.die, e.team.core, e.team.firstCore, e.team.teamid, e.tit t, addr, r.num, batch, p.1, p.2.1, p.2.2⟩
          if a.inFull e.team.die core then (a, { leave := .stay })
          else if r.det && decide (Config.estStage ≤ a.stagedCount e.team.die core) then
            (a, { leave := .trap (x.fault .eststage addr) })
          else ((a.enqueueEst e.team.die core (.contrib c)).bumpId, {})
    let r := entering one s ts
    (r.1, resultOf r.2)

/-- R207 for a sample and its weight. -/
def sampleOk (p : Word × Word × Word) : Bool := isPosFin p.1 && isFin p.2.1
/-- R207 for a batch. -/
def batchOk (p : Word × Word × Word) : Bool := p.1 != 0 && isFin p.2.1 && isNonneg p.2.2

/-- esamp (R205). -/
def execEsamp (h : Hdr) (a : Opnd) (off : BitVec 12) (d : Opnd) (s : State) : Out :=
  performContrib (.esamp h a off d) h (estAcc a off) false (fun e t => (f32One, e.w t 0 d, 0)) sampleOk s
/-- esamp.w (R205). -/
def execEsampW (h : Hdr) (a : Opnd) (off : BitVec 12) (d : Opnd) (s : State) : Out :=
  performContrib (.esampW h a off d) h (estAcc a off) false (fun e t => (e.reg t 0 d 1, e.w t 0 d, 0)) sampleOk s
/-- esampb (R206). -/
def execEsampB (h : Hdr) (a : Opnd) (off : BitVec 12) (d : Opnd) (s : State) : Out :=
  performContrib (.esampB h a off d) h (estAcc a off) true (fun e t => (e.w t 0 d, e.reg t 0 d 1, e.reg t 0 d 2)) batchOk s

/-- Add a thread's request to the operation of an eld. -/
def State.joinEld (s : State) (id gix slot t d p : Nat) : State :=
  let add (o : PendOp) : PendOp :=
    if o.slot = slot ∧ o.kind = .eld then
      { o with need := o.need + 1,
               regs := o.regs ++ [(t, d), (t, d + 1)] ++ (if p = 0 then [] else [(t, predCode p)]) }
    else o
  s.modGroup id gix (fun g => { g with ops := g.ops.map add })
/-- eld (R209): helpers perform it; a full input buffer holds the group (R279). -/
def execEld (h : Hdr) (d a : Opnd) (off : BitVec 12) (p : Fin 8) (sb : Fin 16) (s : State) : Out :=
  performWith (.eld h d a off p sb) h s fun e ts s =>
    let x := estAcc a off
    let s0 := if e.g.held then s else s.claimSlot e.team.id e.g.gix (PendOp.blank sb.val .eld)
    let one (b : State) (t : Nat) : State × TRes :=
      match e.estWord b x t with
      | .error f => (b, { leave := .trap f })
      | .ok (addr, _) =>
        if b.inFull e.team.die (spCore addr) then (b, { leave := .stay })
        else
          ((b.joinEld e.team.id e.g.gix sb.val t d.code.toNat p.val).enqueueEst e.team.die (spCore addr)
            (.read e.team.id e.g.gix sb.val t addr d.code.toNat p.val), {})
    let r := entering one s0 ts
    (r.1, resultOf r.2)

/-! ### Region commands (R203, R204, R210 to R214, R400) -/

/-- The group's own contributions have yet to be merged or staged, or its own reads, stores and accumulator moves to be
performed (R185, R214, R400). DEDUCED (log entry 13; unsafe). -/
def Env.ownContribs (e : Env) : Bool :=
  !e.accMoves.isEmpty || !e.lateStores.isEmpty || !e.lateReads.isEmpty || e.s.est.any (fun u => u.inbuf.any (fun r => (List.range 32).any (fun t => e.ownRequest t r)))

/-- The descriptor's own fields pass R202. -/
def descOk (bs : List Byte) : Bool :=
  (wordAt bs 0).toNat % 16 == 0 && decide (1 ≤ (wordAt bs 4).toNat) && decide ((wordAt bs 4).toNat ≤ 196608) &&
    isPosFin (wordAt bs 8) && isNonneg (wordAt bs 12) && bitsOf (dwordAt bs 16).toNat 48 16 == 0 &&
    bitsOf (dwordAt bs 16).toNat 0 3 == 0 && halfAt bs 26 / 2 == 0
/-- The bytes lie within one core's estimator range that the context owns (R203). -/
def State.rangeOwned (s : State) (ctx die base len : Nat) : Bool :=
  let last := base + len - 1
  spValid base && spValid last && spCore base == spCore last &&
    (match s.entryAt die (spCore base) (spOff base) with
     | none => false
     | some r => r.est && r.owner == ctx && decide (spOff last / 4096 ≤ r.limit)) &&
    (List.range (spOff last / 64 + 1 - spOff base / 64)).all (fun k => s.tagAt die (spCore base) (64 * (spOff base / 64 + k)) == (ctx, false))
/-- The region a descriptor gives. -/
def regionOf (die num ctx desc : Nat) (bs : List Byte) : Region :=
  { die := die, num := num, ctx := ctx, desc := desc, base := (wordAt bs 0).toNat, count := (wordAt bs 4).toNat,
    eps := wordAt bs 8, wmin := wordAt bs 12, entry := dwordAt bs 16, queue := halfAt bs 24, det := bitOf (halfAt bs 26) 0,
    dropped := wordAt bs 28 }
/-- The region that a command at work registers at its end. -/
def RegionJob.reg? : RegionJob → Option Region | .merge _ reg => reg | .scale .. => none
/-- The range of a region overlaps another one that is registered, or about to be. -/
def State.overlaps (s : State) (r : Region) : Bool :=
  (s.regions ++ s.regionOps.filterMap (fun o => o.job.reg?)).any (fun x => x.die == r.die && x.num != r.num &&
    decide (r.base < x.base + 16 * x.count) && decide (x.base < r.base + 16 * r.count))

/-- What edecay (by a factor) or eclr does to a word (R210, R212). -/
def EWord.command (w : EWord) : Option Word → EWord
  | some f => w.decay f
  | none => ⟨0, 0, 0, 0, 0, false, false⟩
/-- A region command acts on one word, as one action (R279); a poisoned word is left (R382). -/
def State.actWord (s : State) (by_ : Author) (agents : List Agent) (die addr : Nat) (factor : Option Word) : State :=
  if s.isPoisoned die addr then s else s.setEword (some by_) agents die addr ((s.eword die addr).command factor)
/-- A region is registered (R203). -/
def State.register (s : State) (r : Region) : State :=
  { s with regions := s.regions.filter (fun (x : Region) => !(x.die == r.die && x.num == r.num)) ++ [r] }
/-- Cycles that a region command takes for a word, and for a merge (R279). -/
abbrev wordCycles : Nat := 2
/-- A command acts on its next word, as one action, and what it has to do from then on: an edecay or eclr on one word after
another, an eflush on the words with contributions, each with all of its own (R214, R279). -/
def RegionOp.act (o : RegionOp) (s : State) : State × Option RegionOp :=
  match o.job with
  | .scale f base count next =>
    (s.actWord o.by_ o.agents o.die (base + 16 * next) f,
      if next + 1 < count then some { o with job := .scale f base count (next + 1), due := o.due + wordCycles } else none)
  | .merge [] reg => (match reg with | some r => s.register r | none => s, none)
  | .merge (c :: cs) reg =>
    let now := c :: cs.filter (fun x => x.addr == c.addr)
    let s1 := (now.foldl (fun s c => s.mergeContrib o.agents c) s).wake
    match cs.filter (fun x => x.addr != c.addr) with
    | [] => (match reg with | some r => s1.register r | none => s1, none)
    | rest => (s1, some { o with job := .merge rest reg, due := o.due + wordCycles * now.length })
/-- The words that a command has still to act on, at most. -/
def RegionOp.left (o : RegionOp) : Nat :=
  match o.job with | .scale _ _ count next => count - next | .merge cs _ => cs.length + 1
/-- A command acts on every word that is due, and what it has to do from then on. -/
def State.runRegion : Nat → RegionOp → State → State × Option RegionOp
  | 0, o, s => (s, some o)
  | n + 1, o, s =>
    if s.clock < o.due then (s, some o)
    else
      let r := o.act s
      match r.2 with
      | none => (r.1, none)
      | some p => State.runRegion n p r.1
/-- The region commands at work act on the words that are due (R279). -/
def State.performRegions (s : State) : State :=
  s.regionOps.foldl (fun a o =>
    let r := State.runRegion o.left o a
    { r.1 with regionOps := r.1.regionOps ++ r.2.toList }) { s with regionOps := [] }
/-- A command of a group's threads begins: it acts on its first word, and on the others one after another. -/
def State.command (s : State) (e : Env) (ts : List Nat) (job : RegionJob) : State :=
  let r := RegionOp.act ⟨e.author, ts.map e.agent, e.team.die, job, e.fp⟩ s
  { r.1 with regionOps := r.1.regionOps ++ r.2.toList }

/-- The bytes of a descriptor, as the threads that issue the ereg read them (R400), and the state once they have.
DESIGN CHOICE (log entry 11; unsafe). -/
def Env.readDesc (e : Env) (s : State) (ts : List Nat) (desc : Nat) : List Byte × State :=
  let m : Mem := .die e.team.die
  let p := s.point (s.floor (s.reader e.author ts) m desc 32) (Config.freeWord (wideKey s.nonce 62 0)).toNat
  (s.readAt p (.die e.team.die desc) 32, s.learn (ts.map e.agent) m desc 32 p)
/-- The guard-true threads that are no helpers. -/
def Env.issuers (e : Env) (i : Instr) (h : Hdr) : List Nat := (e.live i h).filter (fun t => !(e.helper t))
/-- ereg (R203): DROPPED is taken with the rest of the descriptor, before an old region is flushed.
DEDUCED (log entry 13; unsafe). DEDUCED (log entry 47; unsafe). -/
def execEreg (h : Hdr) (a d : Opnd) (s : State) : Out :=
  performG (.ereg h a d) h s Env.ownContribs fun e s =>
    let desc := (e.w 32 1 a).toNat
    let num := (e.w 32 0 d).toNat
    let flt (c : Cause) (v : Nat) : TRes := faultRes c a.code (BitVec.ofNat 32 v)
    if desc % 32 ≠ 0 then (s, flt .misalign desc)
    else
      match s.dieFault e.team.ctx e.team.die desc .any with
      | some c => (s, flt c desc)
      | none =>
        let old := s.region? e.team.die num
        let taken := match old with | some r => r.ctx != e.team.ctx | none => false
        if 63 < num || taken then (s, flt .estregion num)
        else
          let ts := e.issuers (.ereg h a d) h
          let b := e.readDesc s ts desc
          let r := regionOf e.team.die num e.team.ctx desc b.1
          if !descOk b.1 || !s.rangeOwned e.team.ctx e.team.die r.base (16 * r.count) || s.overlaps r then (b.2, flt .estdesc desc)
          else
            let cs := match old with | some o => s.toMerge o | none => []
            let s1 := match old with | some o => b.2.unstage o | none => b.2
            ((s1.command e ts (.merge cs (some r))), {})

/-- A command on a registered region (R213). DEDUCED (log entry 13; unsafe). -/
def performRegion (i : Instr) (h : Hdr) (a : Opnd) (s : State) (f : Env → List Nat → Region → State → State × TRes) : Out :=
  performG i h s Env.ownContribs fun e s =>
    let num := (e.w 32 1 a).toNat
    let bad := faultRes .estregion a.code (BitVec.ofNat 32 num)
    match s.region? e.team.die num with
    | none => (s, bad)
    | some r => if r.ctx = e.team.ctx then f e (e.issuers i h) r s else (s, bad)

/-- A factor of edecay: from −0 to 1 and no NaN (R210). -/
def decayOk (f : Word) : Bool := f32Ge f 0 && f32Ge f32One f
/-- edecay (R210), which names a bad region before a bad factor. The group's next instruction waits until every word is decayed
(`Env.stalled`). DEDUCED (log entry 13; unsafe). -/
def execEdecay (h : Hdr) (a d : Opnd) (s : State) : Out :=
  performRegion (.edecay h a d) h a s fun e ts r s =>
    let f := e.w 32 0 d
    if decayOk f then (s.command e ts (.scale (some f) r.base r.count 0), {}) else (s, faultRes .estarg d.code f)
/-- eflush (R211): what is staged as it begins is merged word by word, and the group's next instruction waits until it is.
DEDUCED (log entry 46; unsafe). -/
def execEflush (h : Hdr) (a : Opnd) (s : State) : Out :=
  performRegion (.eflush h a) h a s fun e ts r s => if r.det then ((s.unstage r).command e ts (.merge (s.toMerge r) none), {}) else (s, {})
/-- eclr (R212): the staged contributions are discarded as it begins. -/
def execEclr (h : Hdr) (a : Opnd) (s : State) : Out :=
  performRegion (.eclr h a) h a s fun e ts r s => ((s.unstage r).command e ts (.scale none r.base r.count 0), {})

end Sys2Proof.Machine
end

