-- ==== Sys2Proof/Machine/Matrix.lean ====
section
/-!
DEFINITION. The matrix engine, MAJOR 0xB8 to 0xC2 (R34 to R37, R68, R73 to R75, R218 to R230, R405): records,
convergence registers, tile steps and accumulator instructions.
-/

namespace Sys2Proof.Machine

/-! ### X records (R34, R221) -/

/-- An X record, unpacked. -/
structure XRec where
  valid : Bool
  blen : Nat
  fmt : Nat
  size : Nat
  base : Nat
  scoff : Nat
  padk : Nat
  padn : Nat
  /-- A reserved bit is set. -/
  rsv : Bool
  deriving DecidableEq, Repr
/-- Unpack a record. -/
def XRec.of (w : BitVec 128) : XRec :=
  let n := w.toNat
  { valid := bitOf n 31, blen := bitsOf n 24 3, fmt := bitsOf n 20 4, size := bitsOf n 10 10, base := bitsOf n 0 10,
    scoff := bitsOf n 32 32, padk := bitsOf n 80 8, padn := bitsOf n 72 8,
    rsv := bitsOf n 96 32 != 0 || bitsOf n 88 8 != 0 || bitsOf n 64 8 != 0 || bitsOf n 27 4 != 0 }
/-- Pack a record. -/
def XRec.word (r : XRec) : BitVec 128 :=
  BitVec.ofNat 128 (r.base + r.size * 2 ^ 10 + r.fmt * 2 ^ 20 + r.blen * 2 ^ 24 + (if r.valid then 2 ^ 31 else 0) +
    r.scoff * 2 ^ 32 + r.padn * 2 ^ 72 + r.padk * 2 ^ 80)
/-- A record of a team. -/
def Team.xrec (t : Team) (x : Nat) : XRec := XRec.of (t.x.getD x 0)
/-- Set a record of a team. -/
def Team.setX (t : Team) (x : Nat) (r : XRec) : Team := { t with x := modifyAt (fun _ => r.word) x t.x }
/-- The element type of a matrix format code (R35). -/
def mfmtTy : Nat → ElTy
  | 0 => .bf16 | 1 => .f16 | 2 => .fn8 | 3 => .fw8 | 4 => .i8 | 5 => .fn4 | _ => .i4
/-- The code of a format (R35). -/
def mfmtCode : MFmt → Nat | .bf16 => 0 | .f16 => 1 | .fn8 => 2 | .fw8 => 3 | .i8 => 4 | .fn4 => 5 | .i4 => 6
/-- k of one tile step (R35). -/
def stepK (fmt : Nat) : Nat := 256 / (mfmtTy fmt).bits
/-- The block length of a BLEN code (R34). -/
def blockLen (b : Nat) : Nat := 4 * 2 ^ b
/-- Scales of a row or column in one step (R219); one segment when unscaled. -/
def XRec.nb (r : XRec) : Nat := if r.blen = 0 then 1 else if stepK r.fmt / blockLen r.blen = 0 then 1 else stepK r.fmt / blockLen r.blen
/-- Registers of the scale run (R219, R225). -/
def XRec.scaleRegs (r : XRec) : Nat := if r.blen = 0 then 0 else (r.nb + 1) / 2
/-- The record fails a check of R221. -/
def XRec.bad (r : XRec) : Bool :=
  r.rsv || decide (6 < r.fmt) || r.blen == 7 || r.size == 0 || (r.blen == 0 && r.scoff != 0) ||
    (r.blen != 0 && (r.scoff % 2 == 1 || decide (r.scoff < 1024) || decide (r.size * 1024 < r.scoff + 64 * r.nb))) ||
    decide (stepK r.fmt < r.padk) || decide (31 < r.padn)
/-- Two ranges of KiB share one. -/
def rangesMeet (b1 n1 b2 n2 : Nat) : Bool := decide (b1 < b2 + n2) && decide (b2 < b1 + n1)
/-- The first KiB of the lowest range of `n` KiB in the team's budget that no record but `x` holds (R221). -/
def Team.findRange (t : Team) (x n : Nat) : Option Nat :=
  let taken (b : Nat) : Bool :=
    (t.x.zipIdx).any (fun p => p.2 != x && (XRec.of p.1).valid && rangesMeet b n (XRec.of p.1).base (XRec.of p.1).size)
  ((List.range (t.opSize + 1 - n)).map (fun k => t.opBase + k)).find? (fun b => decide (n ≤ t.opSize) && !(taken b))

/-! ### What a step still needs (R222, R229) -/

/-- The issued steps of a team's context that have not completed. -/
def State.openSteps (s : State) (t : Team) : List MStep :=
  match s.matctxOf t with
  | none => []
  | some m => (match m.running with | some r => [r.step] | none => []) ++ m.pending
/-- An issued step that has not completed names the record. -/
def Env.recordInUse (e : Env) (x : Nat) : Bool := (e.s.openSteps e.team).any (fun st => st.xidx == x)
/-- A first signature names the record and its step has not issued. -/
def Team.recordNamed (t : Team) (x : Nat) : Bool := t.cv.any (fun c => c.params && !c.issued && c.xidx == x)
/-- The team of an environment as the state holds it. -/
def Env.teamIn (e : Env) (s : State) : Team := (s.team? e.team.id).getD e.team

/-- xres (R221, R222): it waits for an issued step that uses the record before it tests for one that has not issued.
DEDUCED (log entry 51; unsafe). -/
def execXres (h : Hdr) (x : Fin 16) (a : Opnd) (s : State) : Out :=
  performG (.xres h x a) h s (fun e => e.recordInUse x.val) fun e s =>
    let flt (c : Cause) : TRes := faultRes c a.code (BitVec.ofNat 32 x.val)
    let img := XRec.of (BitVec.ofNat 128 (wordsNat (e.run 32 1 a 4)))
    if e.team.recordNamed x.val then (s, flt .xbusy)
    else if img.bad then (s, flt .xrecord)
    else
      match e.team.findRange x.val img.size with
      | none => (s, flt .xspace)
      | some b =>
        (s.modTeam e.team.id (fun t =>
          { t.setX x.val { img with base := b, valid := true } with opbuf := t.opbuf.clear (1024 * b) (1024 * img.size) }), {})
/-- xrel (R221, R222): OPND of XBUSY is 0x7FF, as xrel has no A operand.
DEDUCED (log entry 10; unsafe). DEDUCED (log entry 13; unsafe). -/
def execXrel (h : Hdr) (x : Fin 16) (s : State) : Out :=
  performG (.xrel h x) h s (fun e => (e.team.xrec x.val).valid && e.recordInUse x.val) fun e s =>
    let r := e.team.xrec x.val
    if !r.valid then (s, {})
    else if e.team.recordNamed x.val then (s, faultRes .xbusy opndNone (BitVec.ofNat 32 x.val))
    else (s.modTeam e.team.id (fun t => t.setX x.val { r with valid := false }), {})
/-- xsc (R221, R222). DEDUCED (log entry 13; unsafe). -/
def execXsc (h : Hdr) (x : Fin 16) (a b : Opnd) (s : State) : Out :=
  performG (.xsc h x a b) h s (fun e => (e.team.xrec x.val).valid && e.recordInUse x.val) fun e s =>
    let r := e.team.xrec x.val
    let bw := (e.w 32 2 b).toNat
    let n := { r with scoff := (e.w 32 1 a).toNat, padk := bitsOf bw 8 8, padn := bitsOf bw 0 8 }
    if !r.valid then (s, faultRes .xinvalid opndNone (BitVec.ofNat 32 x.val))
    else if e.team.recordNamed x.val then (s, faultRes .xbusy a.code (BitVec.ofNat 32 x.val))
    else if bitsOf bw 16 16 ≠ 0 ∨ n.bad = true then (s, faultRes .xrecord a.code (BitVec.ofNat 32 x.val))
    else (s.modTeam e.team.id (fun t => t.setX x.val n), {})

/-! ### xld (R223) -/

/-- What one thread's xld copies: the buffer offset and the place, or its fault. -/
def Env.xldMove (e : Env) (s : State) (sh : Bool) (x : Nat) (a b : Opnd) (t : Nat) : Except PendFault (Nat × Loc) :=
  let r := e.team.xrec x
  let off := (e.w t 2 b).toNat
  if !r.valid then .error ⟨.xinvalid, opndNone, BitVec.ofNat 32 x⟩
  else
    match e.access s (xldAcc sh a) t with
    | .error f => .error f
    | .ok l =>
      if off % 32 ≠ 0 ∨ r.size * 1024 < off + 32 then .error ⟨.xrange, b.code, BitVec.ofNat 32 off⟩
      else .ok (r.base * 1024 + off, l)
/-- xld (R223): a helper's is discarded; the bytes are in the buffer when the slot goes idle, where two threads meet those of
the higher. A thread's bytes are read when it issues or up to a free delay later (R295). DESIGN CHOICE (log entry 11; unsafe). -/
def execXld (h : Hdr) (sh : Bool) (x : Fin 16) (a b : Opnd) (sb : Fin 16) (s : State) : Out :=
  performWith (.xld h sh x a b sb) h s fun e ts s =>
    let i := Instr.xld h sh x a b sb
    let xa := xldAcc sh a
    let real := ts.filter (fun t => !e.helper t)
    let off (t : Nat) : Nat := match e.xldMove s sh x.val a b t with | .ok p => p.1 | .error _ => 0
    let good := real.filter (fun t => (e.xldMove s sh x.val a b t).isOk)
    let seen := good.filter (fun t => good.all (fun u => decide (u ≤ t) || off u != off t))
    let bytes := real.flatMap (fun t =>
      match e.xldMove s sh x.val a b t with
      | .ok p => (s.readAt (e.point i s xa good t) p.2 32).zipIdx.map (fun q => (p.1 + q.2, q.1))
      | .error _ => [])
    let reads := (e.readsOf i xa off s good).filter (fun r => seen.contains r.tid)
    ((e.haveRead i xa good s).claimSlot e.team.id e.g.gix { PendOp.blank sb.val .xld with
        xrec := x.val, xbytes := bytes, reads := reads }, fun t =>
      if e.helper t then {} else match e.xldMove s sh x.val a b t with | .ok _ => {} | .error f => { leave := .trap f })
/-- The buffer with the bytes of an xld (R223). Where the reservation has been given up since, whether the bytes
still land is unspecified. DESIGN CHOICE (log entry 16; safe). -/
def Team.placeXld (t : Team) (key : Nat) (o : PendOp) : Team :=
  let r := t.xrec o.xrec
  let held (off : Nat) : Bool := r.valid && decide (1024 * r.base ≤ off) && decide (off < 1024 * (r.base + r.size))
  if o.xbytes.all (fun p => held p.1) || Config.freeBool (freeKey key 35 0 o.slot) then
    { t with opbuf := t.opbuf.writeCells o.xbytes }
  else t
/-- XLD_COMPLETE (R223). -/
def execXldComplete (team gix slot : Nat) (s : State) : Out :=
  match s.opAt team gix slot with
  | none => .next s
  | some o =>
    if o.kind = .xld then
      .next ((s.modTeam team (fun t => (t.placeXld s.nonce o).modGroup gix (fun g => g.land s.clock o))).bumpNonce)
    else .next s

/-! ### Convergence registers and mma (R224, R225) -/

/-- The bits of a group in a set. -/
def groupMask (gix : Nat) : BitVec 1024 := BitVec.ofNat 1024 ((2 ^ 32 - 1) * 2 ^ (32 * gix))
/-- The issued step of a register has not begun (R224). -/
def CvReg.waitsToBegin (c : CvReg) : Bool := c.issued && c.step.isSome && !c.begun
/-- A cvdecl waits for the issued step of its register to begin (R224). -/
def Env.declWaits (e : Env) (i : Instr) (h : Hdr) (n : Fin 8) : Bool :=
  !(e.live i h).isEmpty && (match e.team.cv[n.val]? with | some c => c.waitsToBegin | none => false)
/-- cvdecl (R224). A set that is left with exited threads only sets the issued flag at the next exit of a thread of the team.
DEDUCED (log entry 57; unsafe). -/
def performCvdecl (i : Instr) (h : Hdr) (add : Bool) (n : Fin 8) (pa : PSrc) (s : State) : Out :=
  performStall i h s (fun e => e.declWaits i h n)
    fun e ts s =>
      let bad := faultRes .cvstate opndNone (BitVec.ofNat 32 n.val)
      let c := e.team.cv.getD n.val CvReg.blank
      if ts.isEmpty then (s, fun _ => {})
      else if c.params && !c.issued then (s, fun _ => bad)
      else
        let q := (ts.filter (fun t => e.psrc t pa)).foldl (fun v t => setAdd v (e.tit t)) 0
        let keep := if add then c.declared else c.declared &&& ~~~(groupMask e.g.gix)
        let d := keep ||| q
        if 32 < (declaredThreads d).length then (s, fun _ => bad)
        else
          (s.modTeam e.team.id (fun t => { t with cv := modifyAt (fun _ => { CvReg.blank with declared := d }) n.val t.cv }),
            fun _ => {})
/-- cvdecl.set (R224). -/
def execCvdeclSet (h : Hdr) (cv : Fin 8) (pa : PSrc) (s : State) : Out := performCvdecl (.cvdeclSet h cv pa) h false cv pa s
/-- cvdecl.add (R224). -/
def execCvdeclAdd (h : Hdr) (cv : Fin 8) (pa : PSrc) (s : State) : Out := performCvdecl (.cvdeclAdd h cv pa) h true cv pa s

/-- A matrix context of a core that is bound. -/
def State.bound (s : State) (die core idx : Nat) : Bool := s.matctx.any (fun m => m.die == die && m.core == core && m.idx == idx)
/-- The lower free matrix context of a core (R218). -/
def State.freeMat (s : State) (die core : Nat) : Option Nat := [0, 1].find? (fun n => !(s.bound die core n))
/-- A context as it is bound: accumulators zero (R28, R36). -/
def MatCtx.fresh (die core idx team : Nat) : MatCtx :=
  { die := die, core := core, idx := idx, team := team, acc := [], flags := 0, flagsAt := 0, flagsSet := 0, resv := false, accf := 0, resk := 0,
    seq := List.replicate 16 0, pending := [], running := none }
/-- Bind a team to a context if it has none; none when no context is free (R218). -/
def State.bind (s : State) (t : Team) : Option State :=
  if t.matctx.isSome then some s
  else
    match s.freeMat t.die t.core with
    | none => none
    | some n =>
      some ({ s with matctx := s.matctx ++ [MatCtx.fresh t.die t.core n t.id] }.modTeam t.id (fun t => { t with matctx := some n }))

/-- Registers of the A run and the scale run of an mma. -/
def Team.runLen (t : Team) (x : Nat) : Nat := 8 + (if (t.xrec x).valid then (t.xrec x).scaleRegs else 0)
/-- The scale run reaches past V1535 or the group's top (R225). -/
def Env.scaleFault (e : Env) (a : Opnd) (x : Nat) : Option PendFault :=
  let top := a.code.toNat + e.team.runLen x
  if 1536 < top then some ⟨.illop, a.code, e.insWord⟩
  else if 8 * e.g.vblk < top then some ⟨.vrange, a.code, 0⟩
  else none
/-- A register of a thread as the matrix engine finds it: zero above the group's top (R226). -/
def engineReg (g : Group) (th : Thread) (code : Nat) : Word := if code < 8 * g.vblk then th.v.read code else 0

/-- One thread's signature (R225). -/
def Env.sign (e : Env) (fmt acc a x n : Nat) (reuse : Bool) (s : State) (t : Nat) : State × TRes :=
  let tm := e.teamIn s
  let c := tm.cv.getD n CvReg.blank
  let k := e.tit t
  let cvf := faultRes .cvstate opndNone (BitVec.ofNat 32 n)
  let xf (f : Cause) : TRes := faultRes f (BitVec.ofNat 11 x) (BitVec.ofNat 32 x)
  let r := tm.xrec x
  if !(c.declared.getLsbD k) || c.signed.getLsbD k || c.issued then (s, cvf)
  else if !r.valid then (s, xf .xinvalid)
  else if fmt ≠ r.fmt then (s, xf .xformat)
  else
    match s.bind tm with
    | none => (s, { leave := .stay })
    | some s1 =>
      if c.params && !(c.acc == acc && c.xidx == x && c.fmt == fmt && c.reuse == reuse && c.acode == a) then (s1, cvf)
      else
        let snap := match e.thread t with
          | some th => (List.range (tm.runLen x)).foldl (fun m j => m.write (16 * k + j) (engineReg e.g th (a + j))) c.snap
          | none => c.snap
        let sg (c : CvReg) : CvReg :=
          { c with signed := setAdd c.signed k, params := true, acc := acc, xidx := x, fmt := fmt, reuse := reuse, acode := a, snap := snap }
        ((s1.modTeam e.team.id (fun t => { t with cv := modifyAt sg n t.cv })).atCycle (e.passCycle t) (fun s => s.cvCheck e.team.id n), {})
/-- mma (R225). -/
def execMma (h : Hdr) (fmt : MFmt) (acc : Fin 16) (a : Opnd) (x : Fin 16) (cv : Fin 8) (reuse : Bool) (s : State) : Out :=
  performChecked (.mma h fmt acc a x cv reuse) h s (fun _ => false) (fun e => e.scaleFault a x.val) fun e ts s =>
    let r := entering (e.sign (mfmtCode fmt) acc.val a.code.toNat x.val cv.val reuse) s ts
    (r.1, resultOf r.2)

/-! ### The arithmetic of a tile step (R73 to R75) -/

/-- The value of an element of a packed row of bits. -/
def cellFV (ty : ElTy) (row : Nat) (k : Nat) : FV :=
  let x := bitsOf row (ty.bits * k) ty.bits
  if ty.isInt then intFV (elInt ty x) else (elFmt ty).value x
/-- p of one segment (R73): its encoding, whether it is NaN, whether forming it overflowed; a sum of zero is +0.
DEDUCED (log entry 49; unsafe). -/
def segmentP (as bs : List FV) (sa sb : ScClass) : Word × Bool × Bool :=
  match sa, sb with
  | .good va, .good vb =>
    let ps := as.zipWith mulFV bs
    let inval := ps.any (fun p => p.2 != 0) || (ps.any (fun p => p.1 == .inf true) && ps.any (fun p => p.1 == .inf false))
    if as.any FV.isNan || bs.any FV.isNan || inval then (0x7FC00000, true, false)
    else
      match sumFV (ps.map Prod.fst) with
      | .inf n => (if n then 0xFF800000 else 0x7F800000, false, false)
      | v =>
        if v.isZero then (0, false, false)
        else
          let r := finishFV ffF32 false .rne (mulFV (mulFV v va).1 vb)
          (BitVec.ofNat 32 r.1, false, r.2 &&& fOF != 0)
  | _, _ => (0, false, false)
/-- C := C + p with the flush of a subnormal result, and its flags (R73, R74). -/
def accStep (c p : Word) (pNan : Bool) : Word × AccFlags :=
  let r := finishFV ffF32 false .rne (addFV .rne (f32V c) (f32V p))
  let isNan := (ffF32.value r.1).isNan
  let sub := ffF32.isSub r.1
  let f1 : AccFlags := if pNan || isNan || (f32V c).isNan then aIV else 0
  let f2 : AccFlags := if r.2 &&& fOF != 0 then aOF else 0
  let f3 : AccFlags := if sub then aUF else 0
  (BitVec.ofNat 32 (ffF32.flush r.1), f1 ||| f2 ||| f3)

/-- A row of A as the engine has read it: none for a zero row (R75). -/
structure ARow where
  bits : Nat
  scales : List Nat
  /-- A helper supplies it: it sets no flag (R76). -/
  helper : Bool
/-- A column of B: its bits and scales. -/
structure BCol where
  bits : Nat
  scales : List Nat
/-- The shape of a step. -/
structure StepShape where
  ty : ElTy
  k : Nat
  nb : Nat
  scaled : Bool
  padk : Nat
/-- The class of a scale; an unscaled step's is exactly 1 (R219). -/
def StepShape.scale (p : StepShape) (l : List Nat) (g : Nat) : ScClass :=
  if p.scaled then scClass (l.getD g 0) else .good (.fin false 1 0)
/-- The k-elements of segment `g` that are not padding. -/
def StepShape.segment (p : StepShape) (g : Nat) : List Nat :=
  let n := p.k / p.nb
  ((List.range n).map (fun i => g * n + i)).filter (fun k => decide (k < p.k - p.padk))
/-- C[i][j] after the step, and its flags (R73). -/
def StepShape.element (p : StepShape) (c : Word) (r : Option ARow) (b : BCol) : Word × AccFlags :=
  (List.range p.nb).foldl (fun (a : Word × AccFlags) g =>
    let ks := p.segment g
    match r with
    | none => ((accStep a.1 0 false).1, a.2)
    | some row =>
      let s := if ks.isEmpty then (0, false, false)
        else segmentP (ks.map (cellFV p.ty row.bits)) (ks.map (cellFV p.ty b.bits)) (p.scale row.scales g) (p.scale b.scales g)
      let x := accStep a.1 s.1 s.2.1
      (x.1, if row.helper then a.2 else a.2 ||| x.2 ||| (if s.2.2 then aOF else 0))) (c, 0)

/-! ### The start of a step (R218, R226, R227, R230, R405) -/

/-- A byte of the reservation as the step finds it: one that an xld has yet to bring may be either (R226).
DESIGN CHOICE (log entry 16; safe). -/
def Team.stepByte (t : Team) (nonce off : Nat) : Byte :=
  let now := t.opbuf.read off
  let coming := t.groups.flatMap (fun g => (g.ops.filter (fun o => o.kind == .xld)).flatMap (fun o =>
    (o.xbytes.filter (fun p => p.1 == off)).map Prod.snd))
  coming.foldl (fun b c => if Config.freeBool (wideKey nonce 33 off) then c else b) now
/-- Bytes of the reservation as a number. -/
def Team.stepBits (t : Team) (nonce off n : Nat) : Nat := leNat ((List.range n).map (fun i => t.stepByte nonce (off + i)))

/-- A register of a signer's runs: where a write has landed since it signed, either value (R226).
DESIGN CHOICE (log entry 16; safe). -/
def signerReg (nonce : Nat) (st : MStep) (g : Group) (th : Thread) (k j : Nat) : Word :=
  let now := engineReg g th (st.acode + j)
  let old := st.snap.read (16 * k + j)
  if st.signers.contains k && now != old && st.acode + j < 8 * g.vblk then
    (if Config.freeBool (freeKey nonce 36 (k % 32) (64 * (k / 32) + j)) then now else old)
  else now
/-- The eight row words of a thread: from its group's latch, or from its registers (R226, R227). -/
def rowWords (nonce : Nat) (st : MStep) (g : Group) (th : Thread) (k : Nat) : List Word :=
  (List.range 8).map (fun j =>
    if g.latch.valid && g.latch.code == st.acode && g.latch.held.contains (k % 32) then g.latch.rows.read (8 * (k % 32) + j)
    else signerReg nonce st g th k j)
/-- Row `k` (thread index in team) of a step; none for a thread that has exited. -/
def Team.stepRow (t : Team) (nonce : Nat) (st : MStep) (r : XRec) (k : Nat) : Option (ARow × List Word) :=
  match t.group? (k / 32) with
  | none => none
  | some g =>
    match g.threads[k % 32]? with
    | none => none
    | some th =>
      if th.exited then none
      else
        let ws := rowWords nonce st g th k
        let sc := (List.range r.nb).map (fun b =>
          let w := (signerReg nonce st g th k (8 + b / 2)).toNat
          bitsOf w (16 * (b % 2)) 16)
        some (⟨wordsNat ws, if r.blen = 0 then [] else sc, th.helper⟩, ws)
/-- The latch of a group after a step read it (R227). -/
def latchAfter (st : MStep) (rows : List (Nat × List Word)) (g : Group) : Group :=
  let mine := rows.filter (fun p => p.1 / 32 == g.gix)
  if mine.isEmpty then g
  else if st.reuse then
    { g with latch :=
        { valid := true, code := st.acode, held := mine.map (fun p => p.1 % 32),
          rows := mine.foldl (fun m p => p.2.zipIdx.foldl (fun m q => m.write (8 * (p.1 % 32) + q.2) q.1) m) [] } }
  else { g with latch := ⟨false, 0, [], []⟩ }

/-- The scales of a step that are bad, each with its operand code: row scales, then column scales, where every row is a zero
row too (R68, R226). DEDUCED (log entry 58; unsafe). -/
def badScales (p : StepShape) (acode : Nat) (rows : List (Option ARow)) (cols : List BCol) : List (BitVec 11 × Nat) :=
  if !p.scaled then []
  else
    let live := (List.range p.nb).filter (fun g => !(p.segment g).isEmpty)
    let of (o : BitVec 11) (l : List Nat) : List (BitVec 11 × Nat) :=
      (live.map (fun g => (o, l.getD g 0))).filter (fun q => scClass q.2 == .bad)
    (rows.flatMap (fun r => match r with | some r => of (BitVec.ofNat 11 acode) r.scales | none => [])) ++
      cols.flatMap (fun c => of opndNone c.scales)

/-- What a step computes from a team at its start: the elements it will write, its flags and a bad scale. Which of
several bad scales is reported is unspecified. DESIGN CHOICE (log entry 16; safe). -/
def Team.runStep (t : Team) (m : MatCtx) (nonce : Nat) (st : MStep) : MRun :=
  let r := t.xrec st.xidx
  let p : StepShape := ⟨mfmtTy r.fmt, stepK r.fmt, r.nb, r.blen != 0, r.padk⟩
  let rows := padTo 32 none ((st.rows.map (fun k => t.stepRow nonce st r k)).map (fun o => o.map Prod.fst))
  let n := 32 - r.padn
  let cols := (List.range n).map (fun j =>
    let b := 1024 * r.base
    (⟨t.stepBits nonce (b + 32 * j) 32,
      if r.blen = 0 then [] else (List.range r.nb).map (fun g => t.stepBits nonce (b + r.scoff + 2 * (r.nb * j + g)) 2)⟩ : BCol))
  let bads := badScales p st.acode rows cols
  match bads[(Config.freeWord (freeKey nonce 37 0 0)).toNat % bads.length]? with
  | some b => { step := st, result := [], flags := 0, bad := some (BitVec.ofNat 32 b.2, b.1) }
  | none =>
    let els := (rows.zipIdx).flatMap (fun q => (cols.zipIdx).map (fun c =>
      let key := 1024 * st.acc + 32 * q.2 + c.2
      (key, p.element (m.acc.read key) q.1 c.1)))
    { step := st, result := els.map (fun e => (e.1, e.2.1)), flags := els.foldl (fun f e => f ||| e.2.2) 0, bad := none }

/-- The accumulator instructions of a team that still wait for a step. -/
def Team.accWaits (t : Team) : List Nat := t.groups.flatMap (fun g => (g.ops.filter (fun o => o.kind == .acc)).flatMap (fun o => o.waits))
/-- The context may begin its first pending step: the cycle in which it issued is over, so that every step of that cycle has
joined, and the team is not halted, or a busy slot waits for a pending step (R225, R230, R405). -/
def State.mayBegin (s : State) (m : MatCtx) : Bool :=
  let due := match m.pending with | st :: _ => decide (st.cycle < s.clock) | [] => false
  match s.team? m.team with
  | none => due
  | some t => due && (!t.halted || m.pending.any (fun st => t.accWaits.contains st.id))
/-- The engine of a core runs no step. -/
def State.engineIdle (s : State) (die core : Nat) : Bool :=
  !(s.matctx.any (fun m => m.die == die && m.core == core && m.running.isSome))
/-- It is the context's turn (R218): the other has nothing to begin, or began last.
DESIGN CHOICE (log entry 52; unsafe). -/
def State.hasTurn (s : State) (m : MatCtx) : Bool :=
  !(s.matctx.any (fun o => o.die == m.die && o.core == m.core && o.idx != m.idx && s.mayBegin o)) ||
    SMap.get? s.turns (m.die * 128 + m.core) != some m.idx

/-- A bad scale: each signer that has not exited is to raise BADSCALE (R226). -/
def Team.faultSigners (t : Team) (st : MStep) (f : PendFault) : Team :=
  st.signers.foldl (fun t k => t.modThread (k / 32) (k % 32) (fun th =>
    if th.exited then th else { th with faults := th.faults ++ [f] })) t

/-- RESV clears, and with it ACC and RESK, so that ACCSTAT reads as without the interruption (R56, R230). -/
def MatCtx.unreserved (m : MatCtx) : MatCtx := { m with resv := false, accf := 0, resk := 0 }
/-- STEP_START (R218, R226): the first pending step of a context begins and reads its operands. -/
def execStepStart (die core mctx : Nat) (s : State) : Out :=
  match s.matctx.find? (fun m => m.die == die && m.core == core && m.idx == mctx) with
  | none => .next s
  | some m =>
    match m.pending, s.team? m.team with
    | st :: rest, some t =>
      if s.engineIdle die core && s.mayBegin m && s.hasTurn m then
        let run := t.runStep m s.nonce st
        let rows := st.rows.filterMap (fun k => (t.stepRow s.nonce st (t.xrec st.xidx) k).map (fun q => (k, q.2)))
        let s1 := s.modMat die core mctx (fun m => { m with pending := rest, running := some run }.unreserved)
        let begun (c : CvReg) : CvReg := if c.step = some st.id then { c with begun := true } else c
        let s2 := s1.modTeam t.id (fun t =>
          { t with groups := t.groups.map (latchAfter st rows), cv := t.cv.map begun })
        let s3 := match run.bad with
          | some b => s2.modTeam t.id (fun t => t.faultSigners st ⟨.badscale, b.2, b.1⟩)
          | none => s2
        .next (State.bumpNonce { s3 with turns := SMap.set s3.turns (die * 128 + core) mctx })
      else .next s
    | _, _ => .next s

/-! ### Accumulator instructions (R229) -/

/-- round_bf16 of an accumulator element in .rne; NaN gives 0x7FC0 (R229). -/
def toBf16 (w : Word) : Nat := (finishFV ffBF16 false .rne (f32V w, 0)).1
/-- The words acc.mv gives to row `i`. -/
def accRow (m : MatCtx) (bf : Bool) (acc i : Nat) : List Word :=
  let c (j : Nat) : Word := m.acc.read (1024 * acc + 32 * i + j)
  if bf then (List.range 16).map (fun j => BitVec.ofNat 32 (toBf16 (c (2 * j)) + toBf16 (c (2 * j + 1)) * 2 ^ 16))
  else (List.range 32).map c
/-- Set an accumulator from 1,024 words. -/
def MatCtx.setAcc (m : MatCtx) (acc : Nat) (ws : List Word) : MatCtx :=
  { m with acc := ws.zipIdx.foldl (fun r p => r.write (1024 * acc + p.2) p.1) m.acc, seq := modifyAt (fun _ => 0) acc m.seq }
/-- The place of an accumulator image. -/
def accLoc (t : Team) (sh : Bool) (addr : Nat) : Loc := if sh then .sh t.id addr else .die t.die addr
/-- A 4 KiB extent holds a poisoned line (R382). -/
def State.extentPoisoned (s : State) (l : Loc) : Bool := (List.range 64).any (fun k => s.badPlace (l.plus (64 * k)))
/-- The point at which an acc.ld reads one unit of its extent, which nothing fixes but what it must find (R285, R290).
DESIGN CHOICE (log entry 11; unsafe). -/
def State.accPoint (s : State) (r : Reader) (slot : Nat) (l : Loc) (k : Nat) : Nat :=
  s.point (s.floorLoc r (l.plus (64 * k)) 64) (Config.freeWord (wideKey s.nonce 57 ((r.by_.gix * 16 + slot) * 64 + k))).toNat
/-- The bytes of an extent as an acc.ld reads them. -/
def State.accBytes (s : State) (r : Reader) (slot : Nat) (l : Loc) : List Byte :=
  (List.range 64).flatMap (fun k => s.readAt (s.accPoint r slot l k) (l.plus (64 * k)) 64)
/-- An acc.ld has read its extent. -/
def State.accRead (s : State) (r : Reader) (slot : Nat) (l : Loc) : State :=
  (List.range 64).foldl (fun a k => a.learnLoc r.agents (l.plus (64 * k)) 64 (s.accPoint r slot l k)) s
/-- An accumulator operation acts (R229): what it will write to registers is fixed, or the move is made; one that meets a
poisoned line is not (R382). -/
def State.actAcc (s : State) (id gix : Nat) (o : PendOp) : State :=
  match s.team? id with
  | none => s
  | some t =>
    match s.matctxOf t with
    | none => s
    | some m =>
      let done (ws : List (Nat × Nat × Word)) (s : State) : State :=
        s.modGroup id gix (fun g => { g with ops := g.ops.map (fun x => if x.slot = o.slot then { x with acc := .none, writes := ws } else x) })
      let lost (sh : Bool) (addr : Nat) : Bool := s.extentPoisoned (accLoc t sh addr)
      match o.acc with
      | .none => s
      | .mv bf acc d ths => done (ths.flatMap (fun i => ((accRow m bf acc i).zipIdx).map (fun p => (i, d + p.2, p.1)))) s
      | .stat d ths => done (ths.map (fun i => (i, d, accstatWord m))) s
      | .ld acc sh addr r =>
        if lost sh addr then done [] s
        else
          let l := accLoc t sh addr
          done [] ((s.accRead r o.slot l).modMat m.die m.core m.idx (fun m => m.setAcc acc (wordsOf 1024 (s.accBytes r o.slot l))))
      | .st acc sh addr =>
        if lost sh addr then done [] s
        else done [] (s.writeAs (some (t.author gix)) [] (accLoc t sh addr) ((List.range 1024).flatMap (fun j => wordBytes (m.acc.read (1024 * acc + j))))).wake
/-- Every accumulator operation of a team that waits for no step acts. -/
def State.actReady (s : State) (id : Nat) : State :=
  match s.team? id with
  | none => s
  | some t =>
    t.groups.foldl (fun a g => (g.ops.filter (fun o => o.kind == .acc && o.waits.isEmpty && o.acc != .none)).foldl
      (fun a o => a.actAcc id g.gix o) a) s

/-- STEP_COMPLETE (R226): the accumulator takes the result, ACCSTAT the flags, CVSTATE.DONE is set, and what
waited for the step acts. -/
def execStepComplete (die core mctx : Nat) (s : State) : Out :=
  match s.matctx.find? (fun m => m.die == die && m.core == core && m.idx == mctx) with
  | none => .next s
  | some m =>
    match m.running with
    | none => .next s
    | some r =>
      let k := stepK r.step.fmt
      let s1 := s.modMat die core mctx (fun m =>
        { m.complete s.clock r.flags with
                 acc := r.result.foldl (fun a p => a.write p.1 p.2) m.acc, running := none,
                 seq := if r.bad.isSome then m.seq else modifyAt (fun n => (n + k) % 65536) r.step.acc m.seq })
      let cleared (o : PendOp) : PendOp := { o with waits := o.waits.filter (fun n => n != r.step.id) }
      let fin (c : CvReg) : CvReg := if c.step = some r.step.id then { c with done := true } else c
      let s2 := s1.modTeam m.team (fun t =>
        { t with cv := t.cv.map fin, groups := t.groups.map (fun g => { g with ops := g.ops.map cleared }) })
      .next (s2.actReady m.team).bumpNonce

/-- The open steps that the team issued before the instruction's first pass (R229). -/
def Env.stepsBefore (e : Env) : List MStep := (e.s.openSteps e.team).filter (fun st => decide (st.cycle < e.fp))
/-- Those of them that write an accumulator. -/
def Env.stepsOn (e : Env) (acc : Nat) : List Nat := (e.stepsBefore.filter (fun st => st.acc == acc)).map (fun st => st.id)
/-- Claim the slot of an accumulator instruction; it acts at once when it waits for no step. -/
def State.claimAcc (s : State) (e : Env) (sb : Nat) (waits : List Nat) (act : AccAct) (regs : List (Nat × Nat)) : State :=
  (s.claimSlot e.team.id e.g.gix { PendOp.blank sb .acc with waits := waits, acc := act, regs := regs }).actReady e.team.id
/-- NOMATCTX (R229). -/
def noMat : TRes := faultRes .nomatctx opndNone 0

/-- acc.clr (R229): the group waits at it until the steps before it have written the accumulator. -/
def execAccClr (h : Hdr) (acc : Fin 16) (s : State) : Out :=
  performG (.accClr h acc) h s (fun e => !(e.stepsOn acc.val).isEmpty) fun e s =>
    match s.matctxOf e.team with
    | none => (s, noMat)
    | some m => (s.modMat m.die m.core m.idx (fun m => m.setAcc acc.val (List.replicate 1024 0)), {})
/-- acc.mv (R229). -/
def execAccMv (h : Hdr) (bf : Bool) (d : Opnd) (acc : Fin 16) (sb : Fin 16) (s : State) : Out :=
  performWith (.accMv h bf d acc sb) h s fun e ts s =>
    match s.matctxOf e.team with
    | none => (s.claimSlot e.team.id e.g.gix (PendOp.blank sb.val .acc), fun _ => noMat)
    | some _ =>
      let regs := ts.flatMap (fun t => (List.range (accMvRegs bf)).map (fun j => (t, d.code.toNat + j)))
      (s.claimAcc e sb.val (e.stepsOn acc.val) (.mv bf acc.val d.code.toNat ts) regs, fun _ => {})
/-- The first line of a 4 KiB extent that fails R175 or R177: its cause and address (R229). -/
def Env.extentFault (e : Env) (s : State) (sh : Bool) (w : Want) (addr : Nat) : Option (Cause × Nat) :=
  if addr % 64 ≠ 0 then some (.misalign, addr)
  else if sh then
    (if addr + 4096 ≤ e.team.shsize then none else some (.shrange, if addr < e.team.shsize then e.team.shsize else addr))
  else (List.range 64).findSome? (fun k =>
    match s.dieFault e.team.ctx e.team.die (addr + 64 * k) w with | some c => some (c, addr + 64 * k) | none => none)
/-- acc.ld and acc.st (R229): NOMATCTX before the faults of the extent. DEDUCED (log entry 51; unsafe). -/
def performAccMove (i : Instr) (h : Hdr) (sh : Bool) (a : Opnd) (acc : Nat) (sb : Fin 16) (w : Want)
    (act : Reader → Nat → AccAct) (s : State) : Out :=
  performG i h s (fun _ => false) fun e s =>
    let addr := (e.w 32 1 a).toNat
    let idle := s.claimSlot e.team.id e.g.gix (PendOp.blank sb.val .acc)
    match s.matctxOf e.team with
    | none => (idle, noMat)
    | some _ =>
      match e.extentFault s sh w addr with
      | some f => (idle, faultRes f.1 a.code (BitVec.ofNat 32 f.2))
      | none => (s.claimAcc e sb.val (e.stepsOn acc) (act (s.reader e.author (e.issuers i h)) addr) [], {})
/-- acc.ld (R229): it may read estimator words as raw bits. -/
def execAccLd (h : Hdr) (sh : Bool) (acc : Fin 16) (a : Opnd) (sb : Fin 16) (s : State) : Out :=
  performAccMove (.accLd h sh acc a sb) h sh a acc.val sb .any (fun r addr => .ld acc.val sh addr r) s
/-- acc.st (R229). -/
def execAccSt (h : Hdr) (sh : Bool) (a : Opnd) (acc : Fin 16) (sb : Fin 16) (s : State) : Out :=
  performAccMove (.accSt h sh a acc sb) h sh a acc.val sb .plain (fun _ addr => .st acc.val sh addr) s
/-- mstat (R229): 0 at once when no context is bound. -/
def execMstat (h : Hdr) (d : Opnd) (sb : Fin 16) (s : State) : Out :=
  performWith (.mstat h d sb) h s fun e ts s =>
    if e.anyReal (.mstat h d sb) h then
      let regs := ts.map (fun t => (t, d.code.toNat))
      match s.matctxOf e.team with
      | none =>
        (s.claimSlot e.team.id e.g.gix
          { PendOp.blank sb.val .acc with writes := ts.map (fun t => (t, d.code.toNat, 0)), regs := regs }, fun _ => {})
      | some _ =>
        (s.claimAcc e sb.val (e.stepsBefore.map (fun st => st.id)) (.stat d.code.toNat ts) regs, fun _ => {})
    else (s, fun _ => {})

/-- ACC_MOVE_COMPLETE (R229): an accumulator operation that has acted writes its registers; its slot goes idle. -/
def execAccMoveComplete (team gix slot : Nat) (s : State) : Out :=
  match s.opAt team gix slot with
  | none => .next s
  | some o => if o.waits = [] ∧ o.acc = .none then returnOp .acc team gix slot s else .next s

end Sys2Proof.Machine
end

