-- ==== Sys2Proof/Machine/Main.lean ====
section
/-!
DEFINITION. Main memory: its five views (R283 to R285), pages (R376, R377), and the journal's device events
(R393, R394).
-/

namespace Sys2Proof.Machine

/-! ### The journal (R393, R394) -/

/-- Append a journal entry; the ring keeps the last 65,536. -/
def State.journal (s : State) (cmd : BitVec 16) (source : Nat) (st : Status) (seq ctx detail : Word) (dg : List Byte) : State :=
  let e : JEntry := { jseq := s.hub.jseq, time := s.clock, cmd := cmd, source := source, status := st, seq := seq, ctx := ctx,
                      detail := detail, digest := dg }
  let l := s.hub.journal ++ [e]
  { s with hub := { s.hub with jseq := s.hub.jseq + 1, journal := l.drop (l.length - Config.journalLen) } }
/-- A device event (R394). -/
def State.event (s : State) (code : BitVec 16) (ctx detail : Nat) : State :=
  s.journal code 2 .ok 0 (BitVec.ofNat 32 ctx) (BitVec.ofNat 32 detail) (List.replicate 16 0)

/-! ### Views (R283 to R285) -/

/-- A view of main memory. -/
def State.view (s : State) (v : Nat) : View := s.views.getD v View.reset
/-- Bytes of main memory as a view holds them. -/
def State.viewRead (s : State) (v pa n : Nat) : List Byte := (s.view v).mem.readN pa n
/-- A write reaches a view: each byte that no later write of the write order has covered is written (R285). -/
def View.put (v : View) (order : Nat) (cells : List Host.Cell) : View :=
  cells.foldl (fun v c =>
    if (SMap.get? v.order c.1).getD 0 < order then
      { v with mem := v.mem.write c.1 c.2, order := SMap.set v.order c.1 order }
    else v) v
/-- The count of a clock. -/
def clockAt (c : List Nat) (k : Nat) : Nat := c.getD k 0
/-- Every count of the first clock is reached by the second. -/
def clockLe (a b : List Nat) : Bool := (List.range 5).all (fun k => decide (clockAt a k ≤ clockAt b k))
/-- The cells of bytes from an address. -/
def cellsOf (a : Nat) (bs : List Byte) : List Host.Cell := bs.zipIdx.map (fun p => (a + p.2, p.1))
/-- On whose behalf main memory is written: the team and copy that are waited for, the author, and whether the write fills a
frame (R298). -/
structure Writer where
  team : Option Nat := none
  copy : Option Nat := none
  by_ : Option Author := none
  fills : Bool := false
  deriving DecidableEq, Repr
/-- Cells are about to be written in a view: a die's view keeps what stands there now, unless they fill a frame, of which
nothing earlier may be read (R290, R298). The hub's agents read the newest bytes of view 4 alone. -/
def State.noteMain (s : State) (v : Nat) (by_ : Option Author) (fills : Bool) (cells : List Host.Cell) : State :=
  if 4 ≤ v ∨ cells = [] then s
  else if fills then { s with olds := s.olds.filter (fun w => !(w.mem == .main v && w.cells.any (fun c => cells.any (fun d => d.1 == c.1)))) }
  else s.note by_ [] [] (.main v) (cells.map (fun c => (c.1, (s.view v).mem.read c.1)))
/-- stamp of R284: a write of view `o` takes effect there and is carried to the other four. -/
def State.stamp (s : State) (o : Nat) (cells : List Host.Cell) (sp : Option SpWrite) (by_ : Writer) : State :=
  let s := s.noteMain o by_.by_ by_.fills cells
  let v := s.view o
  let v1 := { v.put s.writeNo cells with clock := modifyAt (· + 1) o v.clock }
  let w : Carried := { origin := o, clock := v1.clock, order := s.writeNo, cells := cells,
                       dests := (List.range 5).filter (fun k => k != o), sp := sp, team := by_.team, copy := by_.copy,
                       by_ := by_.by_, fills := by_.fills }
  { s with views := modifyAt (fun _ => v1) o s.views, carried := s.carried ++ [w], writeNo := s.writeNo + 1 }
/-- A write to main memory by an agent of a view. DESIGN CHOICE (log entry 11; unsafe). -/
def State.writeMain (s : State) (o : Nat) (cells : List Host.Cell) (by_ : Writer) : State :=
  if cells.isEmpty then s else s.stamp o cells none by_
/-- The condition of apply in R284. -/
def Carried.ready (w : Carried) (v : View) : Bool :=
  clockAt v.clock w.origin + 1 == clockAt w.clock w.origin &&
    (List.range 5).all (fun k => k == w.origin || decide (clockAt w.clock k ≤ clockAt v.clock k))

/-! ### Copies that a unit completes (R234, R276) -/

/-- A copy in flight. -/
def State.copy? (s : State) (id : Nat) : Option Copy := s.copies.find? (fun c => c.id == id)
/-- Change a copy. -/
def State.modCopy (s : State) (id : Nat) (f : Copy → Copy) : State := { s with copies := replaceIf (fun c => c.id == id) f s.copies }
/-- A copy ends: its slot is free. -/
def State.endCopy (s : State) (id : Nat) : State := { s with copies := s.copies.filter (fun c => c.id != id) }
/-- The extents of the box (R231). -/
def Copy.e (c : Copy) (k : Nat) : Nat :=
  match k with
  | 0 => bitsOf (c.desc.getD 3 0).toNat 0 16
  | 1 => bitsOf (c.desc.getD 3 0).toNat 16 16
  | 2 => bitsOf (c.desc.getD 4 0).toNat 0 12
  | _ => bitsOf (c.desc.getD 4 0).toNat 12 12
/-- Bytes of the box. -/
def Copy.total (c : Copy) : Nat := c.e 0 * c.e 1 * c.e 2 * c.e 3
/-- The die of the destination and of the arrival word. -/
def Copy.dstDie (c : Copy) : Nat := match c.kind with | .die => bitsOf (c.desc.getD 4 0).toNat 24 2 | _ => c.die

/-- A copy stops on an unresolvable fault (R234, R276, R377): its arrival word is raised by the units completed and takes
FAULT, or its team is killed. -/
def State.copyFault (s : State) (c : Copy) : State :=
  let s1 := (s.endCopy c.id).event 0x8002 c.ctx (c.die * 128 + c.core)
  match c.arrive with
  | some a =>
    if s1.lineOk c.ctx c.dstDie a then
      let s2 := if c.told < c.raised then s1.raiseArr (some c.reader.by_) c.dstDie a (c.raised - c.told) else s1
      (s2.faultArr (some c.reader.by_) c.dstDie a).wake
    else (s1.killTeam c.team .copyfault).settle
  | none => (s1.killTeam c.team .copyfault).settle
/-- Raise a copy's arrival word by `n`; a word that can no longer be raised kills the team (R234). -/
def State.copyRaise (s : State) (c : Copy) (n : Nat) : State :=
  match c.arrive with
  | none => s
  | some a =>
    if s.lineOk c.ctx c.dstDie a then (s.raiseArr (some c.reader.by_) c.dstDie a n).wake
    else ((s.endCopy c.id).killTeam c.team .copyfault).settle
/-- A request in an estimator buffer is of a group of a team. -/
def EstReq.ofGroup (t : Team) (gix : Nat) : EstReq → Bool
  | .contrib c => c.die == t.die && c.core == t.core && c.ctx == t.ctx && c.teamid == t.teamid && c.tid / 32 == gix
  | .read id g _ _ _ _ _ => id == t.id && g == gix
/-- Operations of a group that are issued and not yet performed: estimator requests and accumulator moves. -/
def State.groupOpen (s : State) (id gix : Nat) : Bool :=
  match s.team? id with
  | none => false
  | some t => s.est.any (fun u => u.inbuf.any (fun r => r.ofGroup t gix)) ||
      (match t.group? gix with | some g => !g.accMoves.isEmpty | none => false)
/-- A copy, call or pending push, by id, is still to be completed. -/
def State.openId (s : State) (k : Nat) : Bool :=
  s.copies.any (fun c => c.id == k) || s.calls.any (fun c => c.id == k) || s.pushes.any (fun p => p.id == k)
/-- Writes of a copy to main memory have yet to reach some view. -/
def State.copyCarried (s : State) (id : Nat) : Bool := s.carried.any (fun w => w.copy == some id)
/-- Stores of the group that it has issued before a copy and that are not performed yet. -/
def State.storesBefore (s : State) (c : Copy) : List LateStore :=
  s.late.filter (fun x => x.by_ == c.reader.by_ && decide (x.since < c.issued))
/-- Reads of the group that it has issued before a copy and whose values are not fixed yet (R287). -/
def State.readsBefore (s : State) (c : Copy) : List LateRead :=
  match s.group? c.team c.gix with
  | some g => (g.ops.flatMap (fun o => o.reads)).filter (fun r => decide (r.since < c.issued))
  | none => []
/-- The release of a copy may be performed (R235, R287, R293): the earlier copies, calls and task operations of its group are
done, its estimator requests and accumulator moves are performed, and so are the reads issued before it; at device scope its
earlier stores are performed too, and every view has applied what the copy's own view has. -/
def State.mayRelease (s : State) (c : Copy) : Bool :=
  c.after.all (fun k => !(s.openId k)) && !(s.groupOpen c.team c.gix) && (s.readsBefore c).isEmpty &&
    (c.scope != .dev || ((s.storesBefore c).isEmpty && s.views.all (fun v => clockLe (s.view c.die).clock v.clock)))
/-- A copy releases on behalf of its group: of a narrower scope than the device's, after the group's earlier stores for the
agents of that scope (R235, R287). -/
def State.copyRelease (s : State) (c : Copy) : State :=
  let r : Release := ⟨c.reader.by_, c.scope, s.writes, none, false⟩
  { s with late := s.late.map (fun x => if (s.storesBefore c).contains x then { x with rels := r :: x.rels } else x) }
/-- A copy that does not release raises its word by the bytes written since its last raise (R276). An advance of GEN is
a release at device scope (R286): it waits until those bytes have reached every view (R287). -/
def State.tellCopy (s : State) (c : Copy) : State :=
  let n := c.raised - c.told
  let told := s.modCopy c.id (fun c => { c with told := c.raised })
  match c.arrive with
  | none => told
  | some a =>
    let w := s.arrAt c.dstDie a
    if n = 0 ∨ ((w.raise n).gen ≠ w.gen ∧ s.copyCarried c.id = true) then s else told.copyRaise c n
/-- A copy whose bytes are all written, and its raises made, ends. One that releases raises its word only then (R276, R293);
on another die the raise is carried there after the writes that it releases (R284). -/
def State.finishCopy (s : State) (id : Nat) : State :=
  match s.copy? id with
  | none => s
  | some c =>
    if c.rel then
      let p := s.copyRelease c
      if c.raised < c.total ∨ s.mayRelease c = false ∨ (c.arrive.isSome && s.copyCarried id) = true then s
      else if c.arrive.isSome && c.dstDie != c.die then
        if c.sent then s
        else (p.modCopy id (fun c => { c with sent := true })).stamp c.die [] (some ⟨c.dstDie, id, [], c.total⟩) { team := some c.team }
      else (p.copyRaise c c.total).endCopy id
    else
      let s1 := s.tellCopy c
      match s1.copy? id with
      | some d => if d.told < d.total then s1 else s1.endCopy id
      | none => s1
/-- A destination unit of a copy has been written (R276). -/
def State.unitDone (s : State) (id n : Nat) : State := (s.modCopy id (fun c => { c with raised := c.raised + n })).finishCopy id

/-- A unit of a copy.die is written on its destination die, if its line passes the check (R177, R234, R270); the raise of
one that releases arrives. -/
def State.applySp (s : State) (w : SpWrite) : State :=
  match s.copy? w.copy with
  | none => s
  | some c =>
    if w.cells.isEmpty then (s.copyRaise c w.bytes).endCopy c.id
    else if w.cells.all (fun p => s.lineOk c.ctx w.die p.1) then
      ((s.writeDie (some c.reader.by_) w.die w.cells).unitDone w.copy w.bytes).wake
    else s.copyFault c
/-- apply of R284: a carried write arrives at a view. -/
def State.applyTo (s : State) (w : Carried) (v : Nat) : State :=
  let vw := s.view v
  let s := s.noteMain v w.by_ w.fills (w.cells.filter (fun c => decide ((SMap.get? vw.order c.1).getD 0 < w.order)))
  let v1 := { vw.put w.order w.cells with clock := modifyAt (fun _ => clockAt w.clock w.origin) w.origin vw.clock }
  let keep (x : Carried) : Carried := if x.order = w.order then { x with dests := x.dests.filter (fun k => k != v) } else x
  let s1 := { s with views := modifyAt (fun _ => v1) v s.views,
                     carried := (s.carried.map keep).filter (fun x => !x.dests.isEmpty) }
  let s2 := match w.sp with
    | some p => if p.die = v then s1.applySp p else s1
    | none => s1
  match w.copy with
  | some id => if s2.copyCarried id then s2 else s2.finishCopy id
  | none => s2
/-- WRITE_APPLY (R284). DESIGN CHOICE (log entry 11; unsafe). -/
def execWriteApply (idx view : Nat) (s : State) : Out :=
  match s.carried[idx]? with
  | none => .next s
  | some w => if w.dests.contains view && w.ready (s.view view) then .next (s.applyTo w view) else .next s
/-- A view catches up with a clock: the carried writes that the clock counts are applied, in order. -/
def State.catchUp (s : State) (v : Nat) (clock : List Nat) : State :=
  s.carried.foldl (fun a w =>
    if w.dests.contains v && decide (clockAt w.clock w.origin ≤ clockAt clock w.origin) && w.ready (a.view v) then a.applyTo w v
    else a) s

/-! ### Pages (R376, R377) -/

/-- The page that holds a virtual address. -/
def Context.page? (c : Context) (va : Nat) : Option Page := c.pages.find? (fun p => decide (p.va ≤ va) && decide (va < p.va + p.size))
/-- A virtual address lies in the save region, which no copy may touch (R373). -/
def Context.inSave (c : Context) (va : Nat) : Bool := decide (c.saveVa ≤ va) && decide (va < c.saveVa + c.saveSize)
/-- What an access to a page meets (R377). -/
inductive Access where
  | at (pa : Nat)
  /-- The page must be made resident. -/
  | pageIn (va : Nat)
  /-- The page must be copied. -/
  | cow (va : Nat)
  | unresolvable
  deriving DecidableEq, Repr
/-- The physical page has been retired (R384). -/
def State.isRetired (s : State) (pa : Nat) : Bool := s.retiredPages.contains (pa / 65536)
/-- Some of a range has been retired. -/
def State.retiredIn (s : State) (pa n : Nat) : Bool :=
  s.retiredPages.any (fun k => decide (65536 * k < pa + n) && decide (pa < 65536 * k + 65536))
/-- Translate an access to a byte (R377, R384): a page that is not resident is made so first, whatever the access. -/
def State.translate (s : State) (ctx va : Nat) (wr : Bool) : Access :=
  match s.ctx? ctx with
  | none => .unresolvable
  | some c =>
    if c.inSave va then .unresolvable
    else
      match c.page? va with
      | none => .unresolvable
      | some p =>
        match p.place with
        | .resident pa =>
          if s.isRetired (pa + (va - p.va)) then .unresolvable
          else if wr then (if p.write then .at (pa + (va - p.va)) else if p.cow then .cow p.va else .unresolvable)
          else if p.read then .at (pa + (va - p.va)) else .unresolvable
        | _ => .pageIn p.va
/-- Bytes of the atomic unit of main memory at a physical address (R274). -/
def unitAt (pa : Nat) : Nat := if pa < Config.cxlBase then 32 else 8
/-- Bytes that view 4's agents read at a virtual address; none where a page cannot be read as it stands. -/
def State.readVirt (s : State) (ctx va n : Nat) : Option (List Byte) :=
  (List.range n).foldr (fun i acc =>
    match acc, s.translate ctx (va + i) false with
    | some l, .at pa => some ((s.view 4).mem.read pa :: l)
    | _, _ => none) (some [])
/-- The cells of a write by view 4 at a virtual address; none where a page cannot be written as it stands. -/
def State.virtCells (s : State) (ctx va : Nat) (bs : List Byte) : Option (List Host.Cell) :=
  bs.zipIdx.foldr (fun p acc =>
    match acc, s.translate ctx (va + p.2) true with
    | some l, .at pa => some ((pa, p.1) :: l)
    | _, _ => none) (some [])

end Sys2Proof.Machine
end

