-- ==== Sys2Proof/Machine/Copy.lean ====
section
/-!
DEFINITION. The copy engine, MAJOR 0xC8 to 0xCC (R231 to R235, R273, R274, R276, R298, R302).
-/

namespace Sys2Proof.Machine

/-! ### The box and its addresses (R231, R232, R273) -/

/-- Word `j` of a command. -/
def Copy.word (c : Copy) (j : Nat) : Nat := (c.desc.getD j 0).toNat
/-- The bank permutation (R273). -/
def permute (o m : Nat) : Nat :=
  if m = 0 then o else o - bitsOf o 3 5 * 8 + (bitsOf o 3 5 ^^^ bitsOf o (7 + m) 5) * 8
/-- A byte's place in the box by its number. -/
def Copy.pos (c : Copy) (n : Nat) : Nat × Nat × Nat × Nat :=
  (n % c.e 0, n / c.e 0 % c.e 1, n / (c.e 0 * c.e 1) % c.e 2, n / (c.e 0 * c.e 1 * c.e 2))
/-- A scratchpad-side address before permutation, for the layout word at A + `j`. -/
def Copy.spRaw (c : Copy) (j : Nat) (p : Nat × Nat × Nat × Nat) : Nat :=
  (c.word j + p.1 + p.2.1 * bitsOf (c.word (j + 1)) 0 16 + p.2.2.1 * bitsOf (c.word (j + 1)) 16 16 +
    p.2.2.2 * bitsOf (c.word (j + 2)) 0 28) % 2 ^ 32
/-- A scratchpad-side address (R232, R273). -/
def Copy.spAddr (c : Copy) (j : Nat) (p : Nat × Nat × Nat × Nat) : Nat :=
  let a := c.spRaw j p
  a - spOff a + permute (spOff a) (bitsOf (c.word (j + 2)) 28 4)
/-- The row number of a byte. -/
def Copy.row (c : Copy) (p : Nat × Nat × Nat × Nat) : Nat := p.2.1 + c.e 1 * (p.2.2.1 + c.e 2 * p.2.2.2)
/-- The main-memory base: A + 5 and A + 6. -/
def Copy.va (c : Copy) : Nat := c.word 5 + bitsOf (c.word 6) 0 16 * 2 ^ 32
/-- A main-memory address, exact (R232). -/
def Copy.mainAddr (c : Copy) (p : Nat × Nat × Nat × Nat) : Nat := c.va + p.1 + c.word 7 * c.row p
/-- A remote address (R232), modulo 2^64. DESIGN CHOICE (log entry 65; unsafe). -/
def Copy.netAddr (c : Copy) (p : Nat × Nat × Nat × Nat) : Nat := (c.word 5 + c.word 6 * 2 ^ 32 + p.1 + c.e 0 * c.row p) % 2 ^ 64
/-- GET of a copy.net. -/
def Copy.get (c : Copy) : Bool := bitOf (c.word 7) 31
/-- The sides of a copy. -/
inductive Side where
  | sp (die : Nat) (j : Nat)
  | main
  | net
  deriving DecidableEq, Repr
/-- Where a copy reads. -/
def Copy.src (c : Copy) : Side :=
  match c.kind with
  | .g2s => .main
  | .net => if c.get then .net else .sp c.die 0
  | _ => .sp c.die 0
/-- Where a copy writes. -/
def Copy.dst (c : Copy) : Side :=
  match c.kind with
  | .g2s => .sp c.die 0
  | .s2g => .main
  | .s2s => .sp c.die 5
  | .die => .sp c.dstDie 5
  | .net => if c.get then .sp c.die 0 else .net
/-- The address of a byte on a side. -/
def Copy.addr (c : Copy) (x : Side) (n : Nat) : Nat :=
  match x with
  | .sp _ j => c.spAddr j (c.pos n)
  | .main => c.mainAddr (c.pos n)
  | .net => c.netAddr (c.pos n)

/-! ### Issue (R233) -/

/-- A row of the scratchpad side leaves the space of R175. The permutation of R273 keeps each byte in its row of
256 bytes, and so changes nothing here. -/
def Copy.badSide (c : Copy) (j : Nat) : Bool :=
  (List.range (c.e 1 * c.e 2 * c.e 3)).any (fun r =>
    let a := c.spRaw j (c.pos (c.e 0 * r))
    !(spValid a && spValid (a + c.e 0 - 1) && spCore a == spCore (a + c.e 0 - 1)))
/-- The layout words of a copy: its scratchpad sides. -/
def Copy.layouts (c : Copy) : List Nat := match c.kind with | .s2s => [0, 5] | .die => [0, 5] | _ => [0]
/-- A main-memory side. -/
def Copy.onMain (c : Copy) : Bool := c.kind == .g2s || c.kind == .s2g
/-- The register that holds the first offending field of R233; none when the command passes. -/
def State.copyDesc (s : State) (c : Copy) : Option Nat :=
  if bitsOf (c.word 4) 26 6 ≠ 0 ∨ (c.kind ≠ .die ∧ bitsOf (c.word 4) 24 2 ≠ 0) then some 4
  else if c.onMain = true ∧ bitsOf (c.word 6) 16 16 ≠ 0 then some 6
  else if c.kind = .net ∧ bitsOf (c.word 7) 16 15 ≠ 0 then some 7
  else
    match c.layouts.find? (fun j => decide (8 ≤ bitsOf (c.word (j + 2)) 28 4)) with
    | some j => some (j + 2)
    | none =>
      if c.e 0 = 0 ∨ c.e 1 = 0 then some 3
      else if c.e 2 = 0 ∨ c.e 3 = 0 then some 4
      else
        match c.layouts.find? c.badSide with
        | some j => some j
        | none =>
          if c.onMain = true ∧ 2 ^ 48 ≤ c.mainAddr (c.e 0 - 1, c.e 1 - 1, c.e 2 - 1, c.e 3 - 1) then some 5
          else if c.kind = .net ∧ (s.hub.peers.any (fun p => p.ctx == c.ctx && p.handle == bitsOf (c.word 7) 0 16)) = false then some 7
          else none
/-- The fault of B (R233). -/
def State.arriveFault (s : State) (c : Copy) : Option Cause :=
  match c.arrive with
  | none => none
  | some a => if a % 16 ≠ 0 then some .misalign else s.dieFault c.ctx c.dstDie a .plain

/-- The copies, calls and pending pushes of a group that are not yet completed (R235, R293). -/
def State.earlier (s : State) (id gix : Nat) : List Nat :=
  (s.copies.filter (fun c => c.team == id && c.gix == gix)).map (fun c => c.id) ++
    (s.calls.filter (fun c => c.team == id && c.gix == gix)).map (fun c => c.id) ++
    (s.pushes.filter (fun p => p.team == id && p.gix == gix)).map (fun p => p.id)
/-- For whom a copy reads (R235): its engine, which finds what its group has written before the issue, and what acquires of the
streamed threads have brought; one that acquires, also what they have read so far. -/
def Env.copyReader (e : Env) (s : State) (acq : Bool) (sc : Scope) : Reader :=
  let r := s.reader e.author e.act
  { r with agents := [.copy e.team.die e.team.core], own := s.writes,
           sight := if acq then e.act.foldl (fun x t => s.acquired e.author (e.agent t) x sc (e.fullPoint s t) false) r.sight else r.sight }
/-- The command that the environment holds. DEDUCED (log entry 9; safe). -/
def Env.copyOf (e : Env) (s : State) (k : CopyKind) (acq rel : Bool) (sc : Scope) (a b : Opnd) : Copy :=
  { id := s.nextId, kind := k, die := e.team.die, core := e.team.core, ctx := e.team.ctx, team := e.team.id, gix := e.g.gix,
    desc := e.run 32 1 a 8, arrive := if b = .c 0 then none else some (e.w 32 2 b).toNat, acq := acq, rel := rel, scope := sc,
    done := [], buf := [], raised := 0, told := 0, sent := false, after := s.earlier e.team.id e.g.gix,
    issued := e.fp, reader := e.copyReader s acq sc, stalled := none }
/-- Every copy slot of a core is busy (R233). -/
def State.copyFull (s : State) (die core : Nat) : Bool :=
  decide (Config.copySlots ≤ (s.copies.filter (fun c => c.die == die && c.core == core)).length)
/-- The predicate result of a .try form. -/
def tryRes (tr : Option (Fin 8)) (b : Bool) : TRes := match tr with | some p => { preds := [(p.val, b)] } | none => {}
/-- copy.* (R231, R233). -/
def performCopy (i : Instr) (h : Hdr) (k : CopyKind) (acq rel : Bool) (sc : Scope) (tr : Option (Fin 8)) (a b : Opnd)
    (s : State) : Out :=
  performG i h s (fun e => tr.isNone && e.s.copyFull e.team.die e.team.core) fun e s =>
    if s.copyFull e.team.die e.team.core then (s, tryRes tr false)
    else
      let c := e.copyOf s k acq rel sc a b
      match s.copyDesc c with
      | some j => (s, faultRes .copydesc a.code (BitVec.ofNat 32 j))
      | none =>
        match s.arriveFault c with
        | some f => (s, faultRes f b.code (BitVec.ofNat 32 (c.arrive.getD 0)))
        | none => (State.bumpId { s with copies := s.copies ++ [c] }, tryRes tr true)
/-- copy.g2s. -/
def execCopyG2s (h : Hdr) (acq rel : Bool) (sc : Scope) (tr : Option (Fin 8)) (a b : Opnd) (s : State) : Out :=
  performCopy (.copyG2s h acq rel sc tr a b) h .g2s acq rel sc tr a b s
/-- copy.s2g. -/
def execCopyS2g (h : Hdr) (acq rel : Bool) (sc : Scope) (tr : Option (Fin 8)) (a b : Opnd) (s : State) : Out :=
  performCopy (.copyS2g h acq rel sc tr a b) h .s2g acq rel sc tr a b s
/-- copy.s2s. -/
def execCopyS2s (h : Hdr) (acq rel : Bool) (sc : Scope) (tr : Option (Fin 8)) (a b : Opnd) (s : State) : Out :=
  performCopy (.copyS2s h acq rel sc tr a b) h .s2s acq rel sc tr a b s
/-- copy.die. -/
def execCopyDie (h : Hdr) (acq rel : Bool) (sc : Scope) (tr : Option (Fin 8)) (a b : Opnd) (s : State) : Out :=
  performCopy (.copyDie h acq rel sc tr a b) h .die acq rel sc tr a b s
/-- copy.net. -/
def execCopyNet (h : Hdr) (acq rel : Bool) (sc : Scope) (tr : Option (Fin 8)) (a b : Opnd) (s : State) : Out :=
  performCopy (.copyNet h acq rel sc tr a b) h .net acq rel sc tr a b s

/-! ### The writing of a unit (R232, R234, R274, R276) -/

/-- Size of the unit that holds an address on a side (R274). -/
def State.unitSize (s : State) (c : Copy) (x : Side) (wr : Bool) (addr : Nat) : Nat :=
  match x with
  | .sp _ _ => 64
  | .net => 8
  | .main => match s.translate c.ctx addr wr with | .at pa => unitAt pa | _ => 8
/-- The address of the destination unit that holds a byte of the box. -/
def State.unitOf (s : State) (c : Copy) (n : Nat) : Nat :=
  let a := c.addr c.dst n
  a - a % s.unitSize c c.dst true a
/-- The address of the source unit that holds a byte of the box. -/
def State.srcUnit (s : State) (c : Copy) (n : Nat) : Nat :=
  let a := c.addr c.src n
  a - a % s.unitSize c c.src false a
/-- The unit of the first byte of the box that is not written. DESIGN CHOICE (log entry 15; safe). -/
def State.nextUnit (s : State) (c : Copy) : Option Nat :=
  ((List.range c.total).find? (fun n => !(c.done.contains n))).map (s.unitOf c)
/-- The bytes of the box that lie in a unit and are not written. -/
def State.unitBytes (s : State) (c : Copy) (unit : Nat) : List Nat :=
  (List.range c.total).filter (fun n => !(c.done.contains n) && s.unitOf c n == unit)
/-- A byte of the box has not been read. -/
def Copy.unread (c : Copy) (n : Nat) : Bool := !(c.done.contains n) && (SMap.get? c.buf n).isNone
/-- The bytes that must be read before some are written: every unread byte of the box in the source units that hold them,
each unit being read as one action (R274). -/
def State.toRead (s : State) (c : Copy) (ns : List Nat) : List Nat :=
  let us := (ns.filter c.unread).map (s.srcUnit c)
  if us.isEmpty then [] else (List.range c.total).filter (fun n => c.unread n && us.contains (s.srcUnit c n))

/-- What stops the access to a byte on one side: nothing, a page that must be made ready, or a fault. -/
inductive Hold where | go | page (va : Nat) | bad
  deriving DecidableEq, Repr
/-- The hold of a byte on a side; a poisoned line is an unresolvable fault of the copy (R382). -/
def State.sideHold (s : State) (c : Copy) (x : Side) (wr : Bool) (n : Nat) : Hold :=
  match x with
  | .sp d _ =>
    if (s.dieFault c.ctx d (c.addr x n) (if wr then .plain else .any)).isSome || s.isPoisoned d (c.addr x n) then .bad else .go
  | .main =>
    (match s.translate c.ctx (c.addr x n) wr with
     | .at _ => .go | .pageIn va => .page va | .cow va => .page va | .unresolvable => .bad)
  | .net => .go
/-- The worst hold of a list: a fault first, then a page. -/
def worstHold (hs : List Hold) : Hold := if hs.contains .bad then .bad else (hs.find? (fun h => h != .go)).getD .go
/-- What holds the bytes of a unit, and those to be read with them. A destination on another die is checked where it is
written. -/
def State.unitHold (s : State) (c : Copy) (ns : List Nat) : Hold :=
  worstHold ((s.toRead c ns).map (s.sideHold c c.src false) ++ (if c.kind = .die ∧ c.dstDie ≠ c.die then [] else ns.map (s.sideHold c c.dst true)))

/-- Where a byte that a copy reads stands: its memory and address. -/
def State.srcPlace (s : State) (c : Copy) (n : Nat) : Option (Mem × Nat) :=
  match c.src with
  | .sp d _ => some (.die d, c.addr c.src n)
  | .main => (match s.translate c.ctx (c.addr c.src n) false with | .at pa => some (.main c.die, pa) | _ => none)
  | .net => none
/-- The source unit of a byte where it stands: its memory, address and size (R274). -/
def State.srcSpan (s : State) (c : Copy) (n : Nat) : Option (Mem × Nat × Nat) :=
  (s.srcPlace c n).map (fun p => let k := s.unitSize c c.src false (c.addr c.src n); (p.1, p.2 - p.2 % k, k))
/-- The point at which a copy reads a unit, which nothing fixes but what it must find (R235, R285, R290).
DESIGN CHOICE (log entry 11; unsafe). -/
def State.srcPoint (s : State) (c : Copy) (u : Mem × Nat × Nat) : Nat :=
  s.point (s.floor c.reader u.1 u.2.1 u.2.2) (Config.freeWord (wideKey s.nonce 47 u.2.1)).toNat
/-- A byte the copy reads in its die's view. -/
def State.srcByte (s : State) (c : Copy) (n : Nat) : Byte :=
  match s.srcPlace c n, s.srcSpan c n with
  | some (m, a), some u =>
    s.stoodAt m (s.srcPoint c u) a (match m with | .die d => s.scratch.read (dieKey d a) | _ => (s.view c.die).mem.read a)
  | _, _ => 0
/-- The engine has read the source units of bytes. -/
def State.readSrc (s : State) (c : Copy) (ns : List Nat) : State :=
  ((ns.filterMap (s.srcSpan c)).eraseDups).foldl (fun a u => a.learn c.reader.agents u.1 u.2.1 u.2.2 (s.srcPoint c u)) s
/-- The bytes that a copy holds once those of a list are read. -/
def Copy.readIn (c : Copy) (ns : List Nat) (bytes : Nat → Byte) : SMap Byte := ns.foldl (fun m n => SMap.set m n (bytes n)) c.buf
/-- The copy writes over its own source at an address (R232). DESIGN CHOICE (log entry 15; safe). -/
def Copy.overlaps (c : Copy) (a : Nat) : Bool :=
  match c.src, c.dst with
  | .sp d1 j1, .sp d2 _ => d1 == d2 && (List.range c.total).any (fun n => c.spAddr j1 (c.pos n) == a)
  | _, _ => false
/-- The cells a unit writes, by destination address: where the copy overlaps its own source an unspecified byte, and
where several bytes of the box fall on one address the byte of an unspecified one of them.
DESIGN CHOICE (log entry 15; safe). -/
def State.unitCells (s : State) (c : Copy) (ns : List Nat) (bytes : Nat → Byte) : List Host.Cell :=
  let as := (ns.map (c.addr c.dst)).eraseDups
  as.map (fun a =>
    let l := ns.filter (fun n => c.addr c.dst n == a)
    let k := (Config.freeWord (wideKey s.nonce 38 a)).toNat % l.length
    (a, if c.overlaps a then Config.freeByte (wideKey s.nonce 39 a)
        else bytes ((if l.length = 1 then l.head? else l[k]?).getD 0)))
/-- A destination address of main memory as a physical one. -/
def State.physCell (s : State) (ctx : Nat) (p : Host.Cell) : Host.Cell :=
  match s.translate ctx p.1 true with | .at pa => (pa, p.2) | _ => p

/-- The unit is written (R232, R276): on the copy's own die at once, in main memory in its die's view, on another
die when the write arrives there, at a peer when it has acknowledged. -/
def State.writeUnit (s : State) (c : Copy) (ns : List Nat) (bytes : Nat → Byte) : State :=
  let rs := s.toRead c ns
  let buf := c.readIn rs bytes
  let cells := s.unitCells c ns (fun n => (SMap.get? buf n).getD 0)
  let s1 := (s.readSrc c rs).modCopy c.id (fun c => { c with done := ns ++ c.done, buf := buf.filter (fun p => !(ns.contains p.1)) })
  match c.dst with
  | .sp d _ =>
    if d = c.die then
      ((s1.writeDie (some c.reader.by_) d cells).unitDone c.id ns.length).wake
    else s1.stamp c.die [] (some ⟨d, c.id, cells, ns.length⟩) { team := some c.team }
  | .main =>
    (s1.writeMain c.die (cells.map (s.physCell c.ctx)) { team := some c.team, copy := some c.id, by_ := some c.reader.by_ }).unitDone
      c.id ns.length
  | .net =>
    let out : OutMsg := .netWrite (bitsOf (c.word 7) 0 16) ((cells.head?.map Prod.fst).getD 0) (cells.map Prod.snd)
    State.unitDone { s1 with hub := { s1.hub with outbox := s1.hub.outbox ++ [out] } } c.id ns.length

/-- A store that the copy's group issued before it, and that is not performed yet, meets bytes that the copy is to read or
write: it is performed first (R185, R235). -/
def State.storesMeet (s : State) (c : Copy) (ns : List Nat) : Bool :=
  let spans : List (Nat × Nat) :=
    (match c.src with | .sp d _ => (s.toRead c ns).map (fun n => (d, c.addr c.src n)) | _ => []) ++
      (match c.dst with | .sp d _ => ns.map (fun n => (d, c.addr c.dst n)) | _ => [])
  (s.storesBefore c).any (fun x => x.parts.any (fun p => spans.any (fun q =>
    match p.2.1 with | .die d a => d == q.1 && decide (a ≤ q.2) && decide (q.2 < a + p.2.2.length) | _ => false)))
/-- COPY_UNIT_WRITE (R276): a destination unit of a copy is written, the source units that it still needs being read; `peer`
is what the peer answers in a copy.net, to a read with the bytes to be read. A copy whose units are all written performs its
release when it may. DESIGN CHOICE (log entry 15; safe). -/
def execCopyUnitWrite (copy unit : Nat) (peer : PeerReply) (s : State) : Out :=
  match s.copy? copy with
  | none => .next s
  | some c =>
    if c.stalled.isSome then .next s
    else if (s.nextUnit c).isNone then .next (s.finishCopy copy)
    else
      let ns := s.unitBytes c unit
      if ns.isEmpty || s.storesMeet c ns then .next s
      else
        match s.unitHold c ns with
        | .bad => .next ((s.copyFault c).bumpNonce)
        | .page va => .next (s.modCopy copy (fun c => { c with stalled := some va }))
        | .go =>
          match c.kind, peer with
          | .net, .refuse => .next ((s.copyFault c).bumpNonce)
          | .net, .ack => if c.get then .next s else .next ((s.writeUnit c ns (s.srcByte c)).bumpNonce)
          | .net, .data bs =>
            if c.get then .next ((s.writeUnit c ns (fun n => bs.getD ((s.toRead c ns).idxOf n) 0)).bumpNonce) else .next s
          | _, _ => .next ((s.writeUnit c ns (s.srcByte c)).bumpNonce)

end Sys2Proof.Machine
end

