-- ==== Sys2Proof/Machine/Calls.lean ====
section
/-!
DEFINITION. Coprocessor calls, MAJOR 0xD0 to 0xD3, their acceptance and return records (R236 to R239), and
order tokens, MAJOR 0xD4 and 0xD5 (R240).
-/

namespace Sys2Proof.Machine

/-! ### The record (R236) -/

/-- Word `j` of a call record. -/
def Call.word (c : Call) (j : Nat) : Nat := (c.words.getD j 0).toNat
/-- OP. -/
def Call.op (c : Call) : Nat := bitsOf (c.word 0) 0 8
/-- TRAP. -/
def Call.trap (c : Call) : Bool := bitOf (c.word 0) 31
/-- MAYKILL. -/
def Call.mayKill (c : Call) : Bool := bitOf (c.word 0) 30
/-- ORDERED. -/
def Call.ordered (c : Call) : Bool := bitOf (c.word 0) 29
/-- LAST. -/
def Call.last (c : Call) : Bool := bitOf (c.word 0) 28
/-- Word 3: the order token or tag. -/
def Call.token (c : Call) : Word := c.words.getD 3 0
/-- RET. -/
def Call.ret (c : Call) : Nat := c.word 1
/-- ARRIVE. -/
def Call.arrive (c : Call) : Nat := c.word 2

/-- The index of the first offending word of R236; none when the record passes. -/
def State.badCall (s : State) (c : Call) : Option Nat :=
  if bitsOf (c.word 0) 8 20 ≠ 0 then some 0
  else if c.kind.stateless && (c.mayKill || c.ordered || c.last) then some 0
  else if c.last && !c.ordered then some 0
  else if c.ret % 32 ≠ 0 ∨ (s.dieFault c.ctx c.die c.ret .plain).isSome = true then some 1
  else if c.arrive ≠ 0 ∧ (c.arrive % 16 ≠ 0 ∨ (s.dieFault c.ctx c.die c.arrive .plain).isSome = true) then some 2
  else none

/-! ### Token windows (R240) -/

/-- A token lies in a window. -/
def TokWin.has (w : TokWin) (tok : Word) : Bool := decide ((tok - w.base).toNat < w.len)
/-- A token lies in an open window of the team. -/
def Team.inWindow (t : Team) (tok : Word) : Bool := t.windows.any (fun w => w.has tok)
/-- A token lies in an open window that has not seen it retired. -/
def Team.openToken (t : Team) (tok : Word) : Bool :=
  t.windows.any (fun w => w.has tok && !w.retired.contains (tok - w.base).toNat)
/-- A window notes that a token has been retired. -/
def TokWin.note (w : TokWin) (tok : Word) : TokWin :=
  let k := (tok - w.base).toNat
  if w.has tok && !w.retired.contains k then { w with retired := k :: w.retired } else w
/-- Every token of the window from its base through a token of it is retired (R323). -/
def TokWin.through (w : TokWin) (tok : Word) : Bool :=
  w.has tok && (List.range ((tok - w.base).toNat + 1)).all (fun k => w.retired.contains k)
/-- How a token is retired: by tskip, by a TRI, or by a fragment of the stream path (R240, R308, R323). -/
inductive Retire where
  | tskip
  | tri
  | frag
  deriving DecidableEq, Repr
/-- A token is retired: every open window that holds it notes it, and a window whose tokens are all retired closes. For a
pass only the first two ways of R308 count. DEDUCED (log entry 14; unsafe). -/
def Team.retireToken (t : Team) (tok : Word) (how : Retire) : Team :=
  { t with windows := (t.windows.map (fun w => w.note tok)).filter (fun w => decide (w.retired.length < w.len)),
           shut := t.shut.map (fun w => w.note tok),
           retired := if how = .frag then t.retired else (tok, how == .tskip) :: t.retired.filter (fun p => p.1 ≠ tok) }
/-- A window opens: its tokens are to be retired anew. DEDUCED (log entry 14; unsafe). -/
def Team.openWindow (t : Team) (id : Nat) (base : Word) (len : Nat) : Team :=
  let w : TokWin := ⟨id, base, len, []⟩
  { t with windows := t.windows ++ [w], retired := t.retired.filter (fun p => !w.has p.1) }

/-! ### What a pass takes from the tokens of its team (R308 to R310, R323, R324) -/

/-- The tokens that a team has retired, whether it is placed or saved. -/
def State.retiredOf (s : State) (team : Nat) : List (Word × Bool) :=
  match s.team? team with
  | some t => t.retired
  | none => (match s.saved.find? (fun x => x.id == team) with | some x => x.retired | none => [])
/-- The owning team has retired a token. -/
def State.tokenRetired (s : State) (p : Pass) (tok : Word) : Bool := (s.retiredOf p.team).any (fun q => q.1 == tok)
/-- END has been accepted, and every token of its range is retired or was so at one time since. -/
def State.rangeRetired (s : State) (p : Pass) : Bool :=
  match p.ended with
  | none => false
  | some (_, base, count) => p.due.isSome || (List.range count).all (fun k => s.tokenRetired p (BitVec.ofNat 32 (base + k)))
/-- Tokens of the range of END that tskip retired (R324). -/
def State.skippedIn (s : State) (p : Pass) : Nat :=
  match p.due, p.ended with
  | some n, _ => n
  | none, some (_, base, count) =>
    ((s.retiredOf p.team).filter (fun q => q.2 && decide (base ≤ q.1.toNat) && decide (q.1.toNat < base + count))).length
  | none, none => 0
/-- The passes of a team that now meet both conditions of R310 resolve from now on, whatever the team opens later. -/
def State.latchPasses (s : State) (team : Nat) : State :=
  { s with passes := s.passes.map (fun p =>
      if p.team = team ∧ s.rangeRetired p = true then { p with due := some (s.skippedIn p) } else p) }
/-- The fragments of a team's passes whose windows, as listed, have been retired far enough are due (R323). -/
def State.markStream (s : State) (team : Nat) (ws : List TokWin) : State :=
  let mark (f : StreamFrag) : StreamFrag := { f with ready := f.ready || ws.any (fun w => w.id == f.win && w.through f.token) }
  { s with passes := s.passes.map (fun p => if p.team = team then { p with stream := p.stream.map mark } else p) }
/-- A team's token is retired (R240, R308): its windows, fragments and passes follow. -/
def State.retireToken (s : State) (team : Nat) (tok : Word) (how : Retire) : State :=
  match s.team? team with
  | none => s
  | some t =>
    let s1 := s.modTeam team (fun t => t.retireToken tok how)
    (s1.markStream team ((t.windows ++ t.shut).map (fun w => w.note tok))).latchPasses team

/-- The oldest window for whose close a stalled token waits is still open. -/
def Env.tokenHeld (e : Env) : Bool :=
  match e.g.tokWait with | some id => e.team.windows.any (fun w => w.id == id) | none => false
/-- token (R240): a third token stalls until the window that is the oldest when it comes to stall has closed. -/
def execToken (h : Hdr) (a b : Opnd) (s : State) : Out :=
  performG (.token h a b) h s (fun e => e.tokenHeld) fun e s =>
    let n := e.w 32 2 b
    if n.toNat < 1 ∨ 65536 < n.toNat then (s, faultRes .tokwin b.code n)
    else if 2 ≤ e.team.windows.length then
      (s.modGroup e.team.id e.g.gix (fun g => { g with tokWait := e.team.windows.head?.map TokWin.id }), { leave := .stay })
    else
      let s1 := s.modGroup e.team.id e.g.gix (fun g => { g with tokWait := none })
      (State.bumpId (s1.modTeam e.team.id (fun t => t.openWindow s.nextId (e.w 32 1 a) n.toNat)), {})

/-- tskip (R240): in ascending thread index, each live thread that is no helper retires its token. -/
def execTskip (h : Hdr) (a : Opnd) (s : State) : Out :=
  performWith (.tskip h a) h s fun e ts s =>
    let one (st : State) (t : Nat) : State × TRes :=
      let tok := e.w t 1 a
      if e.helper t then (st, {})
      else
        match st.team? e.team.id with
        | none => (st, {})
        | some tm =>
          if tm.openToken tok then (st.retireToken e.team.id tok .tskip, {})
          else (st, faultRes .tokwin a.code tok)
    let r := entering one s ts
    (r.1, resultOf r.2)

/-! ### Issue (R236, R237) -/

/-- Calls of one type that a core's buffer holds. -/
def State.callCount (s : State) (die core : Nat) (k : CallKind) : Nat :=
  (s.calls.filter (fun c => c.die == die && c.core == core && c.kind == k && !c.accepted)).length
/-- The open window that holds a token; 0 when none does. -/
def Env.windowOf (e : Env) (tok : Word) : Nat := match e.team.windows.find? (fun w => w.has tok) with | some w => w.id | none => 0
/-- The call a thread sends. -/
def Env.callOf (e : Env) (s : State) (k : CallKind) (t : Nat) (a : Opnd) : Call :=
  { id := s.nextId, kind := k, die := e.team.die, core := e.team.core, ctx := e.team.ctx, team := e.team.id, gix := e.g.gix,
    tid := t, words := e.run t 1 a 16, accepted := false, waiting := false, sentAt := s.writes, win := e.windowOf (e.reg t 1 a 3) }

/-- cpc.* (R236, R237): the calls enter the core's buffer in ascending thread index. -/
def performCall (i : Instr) (h : Hdr) (k : CallKind) (tr : Option (Fin 8)) (a : Opnd) (s : State) : Out :=
  performWith i h s fun e ts s =>
    let one (st : State) (t : Nat) : State × TRes :=
      let c := e.callOf st k t a
      if e.helper t then (st, tryRes tr false)
      else
        match st.badCall c with
        | some j => (st, faultRes .badcall a.code (BitVec.ofNat 32 j))
        | none =>
          if c.ordered && !e.team.inWindow c.token then (st, faultRes .tokwin a.code c.token)
          else if Config.callBuf ≤ st.callCount c.die c.core k then
            (st, if tr.isNone then { leave := .stay } else tryRes tr false)
          else (State.bumpId { st with calls := st.calls ++ [c] }, tryRes tr true)
    let r := entering one (e.releases (some .dev) ts s) ts
    (r.1, resultOf r.2)
/-- cpc.lat. -/
def execCpcLat (h : Hdr) (tr : Option (Fin 8)) (a : Opnd) (s : State) : Out := performCall (.cpcLat h tr a) h .lat tr a s
/-- cpc.glz. -/
def execCpcGlz (h : Hdr) (tr : Option (Fin 8)) (a : Opnd) (s : State) : Out := performCall (.cpcGlz h tr a) h .glz tr a s
/-- cpc.cut. -/
def execCpcCut (h : Hdr) (tr : Option (Fin 8)) (a : Opnd) (s : State) : Out := performCall (.cpcCut h tr a) h .cut tr a s
/-- cpc.icg. -/
def execCpcIcg (h : Hdr) (tr : Option (Fin 8)) (a : Opnd) (s : State) : Out := performCall (.cpcIcg h tr a) h .icg tr a s

/-! ### Return records (R238, R239) -/

/-- What a unit answers: status code, instance, detail and RESULT words. -/
structure Answer where
  status : Nat
  inst : Nat
  detail : Nat := 0
  result : List Word := []
  deriving DecidableEq, Repr
/-- A call in flight. -/
def State.call? (s : State) (id : Nat) : Option Call := s.calls.find? (fun c => c.id == id)
/-- Change a call. -/
def State.modCall (s : State) (id : Nat) (f : Call → Call) : State := { s with calls := replaceIf (fun c => c.id == id) f s.calls }
/-- A call is over. -/
def State.dropCall (s : State) (id : Nat) : State := { s with calls := s.calls.filter (fun c => c.id != id) }
/-- The 32 bytes of a return record. -/
def Call.record (c : Call) (r : Answer) : List Byte :=
  let detail := if r.detail < 0xFFFF then r.detail else 0xFFFF
  wordBytes (BitVec.ofNat 32 (r.status + r.inst * 2 ^ 8 + detail * 2 ^ 16)) ++ wordBytes c.token ++
    (padTo 6 0 r.result).flatMap wordBytes
/-- The thread of a call has CALLFAULT to raise; it may stand in a team that is saved. -/
def State.callFault (s : State) (c : Call) : State :=
  let f : PendFault := ⟨.callfault, opndNone, c.words.getD 1 0⟩
  let keep (g : SavedGroup) : SavedGroup := { g with threads := modifyAt (fun p => (p.1, p.2 ++ [f])) c.tid g.threads }
  let s1 := s.modThread c.team c.gix c.tid (fun th => if th.exited then th else { th with faults := th.faults ++ [f] })
  { s1 with saved := replaceIf (fun x => x.id == c.team) (fun x => { x with groups := modifyAt keep c.gix x.groups }) s1.saved }
/-- A saved team is killed (R238): it ends with that cause at the next placement round. -/
def State.doomSaved (s : State) (id : Nat) (c : Cause) : State :=
  let doom (x : SavedTeam) : SavedTeam := { x with doomed := some (x.doomed.getD c) }
  let s1 := { s with saved := replaceIf (fun x => x.id == id) doom s.saved }
  if s.saved.any (fun x => x.id == id) then s1.askRound else s1
/-- The record is written and ARRIVE raised; a line that now fails is neither, and kills the team; with TRAP a
nonzero status is a fault that the thread raises at its next clause. -/
def State.returnCall (s : State) (c : Call) (r : Answer) : State :=
  let okRet := s.lineOk c.ctx c.die c.ret
  let okArr := c.arrive == 0 || s.lineOk c.ctx c.die c.arrive
  let s1 := s.dropCall c.id
  let s2 := if okRet then s1.writeAs (s.author? c.team c.gix) [] (.die c.die c.ret) (c.record r) else s1
  let s3 := if c.arrive ≠ 0 ∧ okArr = true then s2.raiseArr (s.author? c.team c.gix) c.die c.arrive 32 else s2
  let s4 := s3.wake
  if !(okRet && okArr) then ((s4.killTeam c.team .callfault).doomSaved c.team .callfault).settle
  else if c.trap && r.status != 0 then s4.callFault c
  else s4
/-- A call is answered by its unit. -/
def State.answer (s : State) (id : Nat) (r : Answer) : State :=
  match s.call? id with | some c => s.returnCall c r | none => s

/-! ### Acceptance (R118, R237, R305, R329) -/

/-- OP is defined for the type. -/
def Call.opOk (c : Call) : Bool :=
  match c.kind with
  | .cut => decide (1 ≤ c.op) && decide (c.op ≤ 4)
  | _ => decide (1 ≤ c.op) && decide (c.op ≤ 2)
/-- The bin coordinates an Icing call names (R304). -/
def Call.icgBin (c : Call) : Nat × Nat :=
  let x := bitsOf (c.word 4) 0 16
  let y := bitsOf (c.word 4) 16 16
  if c.op = 1 then (x / 32, y / 32) else (x, y)
/-- The instance of a call whose unit is not PASS.BEGIN's choice (R304, R329); for a Cutter or Icing call of an
undefined OP no instance is given, nor is one where the handle names no open pass. DEDUCED (log entry 20; unsafe). -/
def State.instance_ (s : State) (c : Call) : Nat :=
  let free (n : Nat) : Nat := (Config.freeWord (freeKey s.nonce 41 0 0)).toNat % n
  match c.kind with
  | .lat => c.core % 20
  | .glz => c.core % 10
  | .cut => if c.opOk then bitsOf (c.word 14) 8 1 else free 2
  | .icg => if c.opOk then (c.icgBin.1 + c.icgBin.2) % 4 else free 4
/-- RESULT of a call that is turned away: zero for FRAG and BINDONE, zero but for word 0 for TRI (R404); no other value is
given. -/
def State.noResult (s : State) (c : Call) : List Word :=
  let free (k : Nat) : Word := Config.freeWord (wideKey s.nonce 48 (8 * c.id + k))
  match c.kind, c.op with
  | .icg, 1 => []
  | .icg, 2 => []
  | .cut, 2 => [free 0]
  | _, _ => (List.range 6).map free
/-- A call is turned away with a status. -/
def State.turnAway (s : State) (c : Call) (st inst detail : Nat) : State :=
  (s.returnCall c { status := st, inst := inst, detail := detail, result := s.noResult c }).bumpNonce
/-- Calls of one thread and type. -/
def Call.sameThread (c d : Call) : Bool := c.team == d.team && c.gix == d.gix && c.tid == d.tid && c.kind == d.kind
/-- The calls that stand before a call, oldest first. -/
def State.callsBefore (s : State) (c : Call) : List Call := s.calls.takeWhile (fun d => d.id != c.id)

/-- CALL_ACCEPT (R237): the unit takes a call from the core's buffer, one thread's calls of a type in issue order. An
OP that the type does not define is answered with BADOP. -/
def execCallAccept (call : Nat) (s : State) : Out :=
  match s.call? call with
  | none => .next s
  | some c =>
    if c.accepted || (s.callsBefore c).any (fun d => d.sameThread c && !d.accepted) then .next s
    else if c.opOk then .next (s.modCall call (fun c => { c with accepted := true }))
    else .next (s.turnAway c 1 (s.instance_ c) 0)

/-- The accepted call that a unit performs next, if it is of the type and OP given. A Cutter or Icing unit serves one
thread's calls in the order in which they arrived. -/
def State.serve (s : State) (id : Nat) (k : CallKind) (op : Nat) : Option Call :=
  match s.call? id with
  | none => none
  | some c =>
    if c.accepted && !c.waiting && c.kind == k && c.op == op &&
        (k.stateless || !((s.callsBefore c).any (fun d => d.sameThread c && d.accepted && !d.waiting)))
    then some c else none

end Sys2Proof.Machine
end

