-- ==== Sys2Proof/Machine/Tasks.lean ====
section
/-!
DEFINITION. Task records, MAJOR 0xD8 to 0xDA (R241 to R244): spawn, tget and tdone, and TGET_RETURN.
-/

namespace Sys2Proof.Machine

/-- The 64 bytes of the record in a run of registers (R241). -/
def Env.record (e : Env) (t : Nat) (a : Opnd) : List Byte := (e.run t 1 a 16).flatMap wordBytes
/-- SUCC of a record. -/
def succOf (bs : List Byte) : Nat := (wordAt bs 28).toNat

/-- A pending push of a queue is to be placed, as its queue has gained space, before the queue serves a spawn or a tget
(R244). -/
def Env.behindPending (e : Env) (qn : Word) : Bool :=
  match e.s.taskqOn e.team.die e.team.ctx qn.toNat with | some q => e.s.pushesFirst q | none => false
/-- One thread's record is offered: it enters the queue, or, where the queue is short of space, is refused (.try) or takes
its place behind those before it, and its thread stays until it has entered (R242, R361). -/
def Env.offer (e : Env) (i : Instr) (tr : Option (Fin 8)) (a b : Opnd) (st : State) (t : Nat) : State × TRes :=
  let qn := e.w 32 2 b
  if e.helper t then (st, if st.spawning e.team.id e.g.gix then { leave := .stay } else tryRes tr false)
  else
    match st.taskqOn e.team.die e.team.ctx qn.toNat with
    | none => (st, faultRes .taskq b.code qn)
    | some q =>
      if st.room q ≠ 0 then (st.pushRecord (some e.author) q (e.record t a), tryRes tr true)
      else if tr.isSome then (st, tryRes tr false)
      else (st.takePush q e.team.id e.g.gix (some (t, i)) (e.record t a), { leave := .stay })
/-- spawn (R242): the offered records enter the queue in ascending thread index, one behind another; none passes one before
it; the release of the spawn comes first (R286). DEDUCED (log entry 9; safe). DEDUCED (log entry 56; unsafe). -/
def execSpawn (h : Hdr) (tr : Option (Fin 8)) (a b : Opnd) (s : State) : Out :=
  performStall (.spawn h tr a b) h s (fun e => e.s.spawning e.team.id e.g.gix || e.behindPending (e.w 32 2 b)) fun e ts s =>
    let r := eachThread (e.offer (.spawn h tr a b) tr a b) (e.releases (some .dev) ts s) ts
    (r.1.wake, resultOf r.2)

/-- The queue has taken, in this cycle, a tget of a higher core, or of a higher group slot of this core: this one does not
arrive in the same cycle (R361). -/
def Env.lateGet (e : Env) (a : Opnd) : Bool :=
  match e.s.taskqOn e.team.die e.team.ctx (e.w 32 1 a).toNat with
  | none => false
  | some q => q.lastGet.1 == e.fp &&
      (decide (e.team.core < q.lastGet.2.1) || (e.team.core == q.lastGet.2.1 && decide (e.g.slot < q.lastGet.2.2)))
/-- Threads have taken the record at the head of a queue, and acquire at the point of its line's last write (R243, R286). -/
def Env.gotRecord (e : Env) (q : TaskQ) (ts : List Nat) (s : State) : State :=
  ts.foldl (fun b t => b.acquireWait e.author (e.agent t) (.die q.die (q.line q.head)) 64 .dev) s
/-- tget (R243): the record at the head, or 64 zero bytes, on its way to every live thread, which acquires. -/
def execTget (h : Hdr) (d a : Opnd) (sb : Fin 16) (s : State) : Out :=
  performG (.tget h d a sb) h s (fun e => e.lateGet a || e.behindPending (e.w 32 1 a)) fun e s =>
    let qn := e.w 32 1 a
    match s.taskqOn e.team.die e.team.ctx qn.toNat with
    | none => (s, faultRes .taskq a.code qn)
    | some q =>
      let s := s.modTaskq q.ctx q.num (fun q => { q with lastGet := (e.fp, e.team.core, e.g.slot) })
      let r := if q.count = 0 then (s, List.replicate 64 0) else s.popRecord q
      let ws := wordsOf 16 r.2
      let writes := (e.live (.tget h d a sb) h).flatMap (fun t => runWrites t d ws)
      let hm := if bitOf (wordAt r.2 32).toNat 1 then some (wordAt r.2 60) else none
      ((e.gotRecord q (e.live (.tget h d a sb) h) r.1).claimSlot e.team.id e.g.gix { PendOp.blank sb.val .tget with writes := writes, regs := dstRegs writes, hmask := hm }, {})

/-- HELPER of every thread of a group is set from a mask (R40). -/
def Group.setHelpers (g : Group) (m : Word) : Group :=
  { g with threads := g.threads.zipIdx.map (fun p => { p.1 with helper := m.getLsbD p.2 }) }

/-- TGET_RETURN (R243): the registers are written, HELPER is set from HMASK, and the slot goes idle. -/
def execTgetReturn (team gix slot : Nat) (s : State) : Out :=
  match s.opAt team gix slot with
  | none => .next s
  | some o =>
    if o.kind = .tget then
      .next (s.modGroup team gix (fun g =>
        let g1 := g.land s.clock o
        match o.hmask with | some m => g1.setHelpers m | none => g1))
    else .next s

/-- Where a thread's tdone acts (R244): nothing to do, a fault, a stall, or a decrement with the queue and record of
the push that it makes. -/
inductive DoneAct where
  | none
  | fault (c : Cause)
  | stall
  | dec (push : Option (TaskQ × List Byte))
  deriving DecidableEq, Repr
/-- What tdone does with a successor block. -/
def State.doneAct (s : State) (t : Team) (succ : Nat) : DoneAct :=
  if succ = 0 then .none
  else if succ % 128 ≠ 0 then .fault .misalign
  else
    match (s.dieFault t.ctx t.die succ .plain).or (s.dieFault t.ctx t.die (succ + 64) .plain) with
    | some c => .fault c
    | none =>
      let counter := (s.locWord (.die t.die succ)).toNat
      if counter = 0 then .fault .taskcnt
      else if counter ≠ 1 then .dec none
      else
        match s.taskqOn t.die t.ctx (leNat (s.readLoc (.die t.die (succ + 4)) 2)) with
        | none => .fault .taskq
        | some q =>
          if Config.pendPush ≤ s.pendingOn t.die then .stall
          else .dec (some (q, s.readLoc (.die t.die (succ + 64)) 64))
/-- The decrement, and the push of the successor record: at once, or as a pending push when the queue is full. -/
def State.decrement (s : State) (t : Team) (gix succ : Nat) (push : Option (TaskQ × List Byte)) : State :=
  let s1 := s.writeAs (some (t.author gix)) [] (.die t.die succ) (wordBytes (s.locWord (.die t.die succ) - 1))
  match push with
  | none => s1
  | some (q, bs) =>
    if s1.room q = 0 then s1.takePush q t.id gix none bs else s1.pushRecord (some (t.author gix)) q bs

/-- tdone (R244). -/
def execTdone (h : Hdr) (a : Opnd) (s : State) : Out :=
  performWith (.tdone h a) h s fun e ts s =>
    let one (st : State) (t : Nat) : State × TRes :=
      let succ := succOf (e.record t a)
      if e.helper t then (st, {})
      else
        match st.doneAct e.team succ with
        | .none => (st, {})
        | .fault c => (st, faultRes c a.code (BitVec.ofNat 32 succ))
        | .stall => (st, { leave := .stay })
        | .dec p => (st.decrement e.team e.g.gix succ p, {})
    let r := entering one (e.releases (some .dev) ts s) ts
    (r.1.wake, resultOf r.2)

end Sys2Proof.Machine
end

