-- ==== Sys2Proof/Machine/Claim.lean ====
section
/-!
DEFINITION. Register claims, MAJOR 0xDB and 0xDC (R245 to R247): claim, claim.try, surr, CLAIM_GRANT and
REGDEADLOCK.
-/

namespace Sys2Proof.Machine

/-- V blocks of a slice that no group holds (R251). -/
def State.freeBlocks (s : State) (die core slice : Nat) : Nat :=
  let held := (s.teams.filter (fun t => t.die == die && t.core == core)).flatMap (fun t =>
    (t.groups.filter (fun g => g.slice == slice)).map (fun g => g.vblk))
  Config.vPool - held.sum
/-- The head of a slice's claim queue. -/
def State.claimHead (s : State) (die core slice : Nat) : Option ClaimReq :=
  s.claims.find? (fun q => q.die == die && q.core == core && q.slice == slice)
/-- V blocks that placement may take: those that are free and that the head claim does not go before (R246).
DEDUCED (log entry 17; unsafe). -/
def State.placeBlocks (s : State) (die core slice : Nat) : Nat :=
  s.freeBlocks die core slice - (match s.claimHead die core slice with | some q => q.n | none => 0)
/-- The pool blocks of a core that groups hold: slice and block. -/
def State.heldBlocks (s : State) (die core : Nat) : List (Nat × Nat) :=
  (s.teams.filter (fun t => t.die == die && t.core == core)).flatMap (fun t => t.groups.flatMap (fun g => g.blocks.map (fun b => (g.slice, b))))
/-- Blocks for groups of given slices and sizes, one after another: the lowest that are free.
DESIGN CHOICE (log entry 43; unsafe). -/
def takeBlocks : List (Nat × Nat) → List (Nat × Nat) → List (List Nat)
  | _, [] => []
  | held, (slice, n) :: l =>
    let bs := ((List.range Config.vPool).filter (fun b => !(held.contains (slice, b)))).take n
    bs :: takeBlocks (bs.map (fun b => (slice, b)) ++ held) l
/-- The group gains blocks; their registers read zero, as nothing is listed for them (R29, R245). -/
def Group.grow (n : Nat) (blks : List Nat) (g : Group) : Group := { g with vblk := g.vblk + n, blocks := g.blocks ++ blks, claim := none }
/-- `n` free blocks of a slice. DESIGN CHOICE (log entry 43; unsafe). -/
def State.newBlocks (s : State) (die core slice n : Nat) : List Nat := (takeBlocks (s.heldBlocks die core) [(slice, n)]).headD []
/-- The group gives up its highest blocks: what their registers held is gone, and results still to come for them are
lost (R246). DEDUCED (log entry 41; unsafe). -/
def Group.shrink (n : Nat) (g : Group) : Group :=
  let top := 8 * (g.vblk - n)
  let kept (r : Nat × Nat) : Bool := decide (r.2 < top) || decide (1536 ≤ r.2)
  { g with
    vblk := g.vblk - n,
    blocks := g.blocks.take (g.vblk - n),
    threads := g.threads.map (fun th => { th with v := th.v.filter (fun r => decide (r.1 < top)) }),
    ops := g.ops.map (fun o => { o with regs := o.regs.filter kept }) }

/-- Key of a slice. -/
def sliceKey (die core slice : Nat) : Nat := (die * 128 + core) * 4 + slice
/-- The slice has taken, in this cycle, a claim of a higher group slot: this one does not arrive in the same cycle (R245). -/
def Env.lateClaim (e : Env) : Bool :=
  match SMap.get? e.s.claimAt (sliceKey e.team.die e.team.core e.g.slice) with
  | some p => p.1 == e.fp && decide (e.g.slot < p.2)
  | none => false
/-- The slice takes a claim of the group. -/
def Env.arriveClaim (e : Env) (s : State) : State :=
  { s with claimAt := SMap.set s.claimAt (sliceKey e.team.die e.team.core e.g.slice) (e.fp, e.g.slot) }
/-- claim (R245): granted when no claim waits in the slice and the blocks are free; otherwise the group stalls. One that a
restore has brought back stands in the queue already, and begins again (R56, R264). -/
def execClaim (h : Hdr) (n : Fin 192) (s : State) : Out :=
  performG (.claim h n) h s (fun e => e.waitsClaim || (e.g.claim.isNone && e.lateClaim)) fun e s0 =>
    let t := e.team
    let s := e.arriveClaim s0
    if e.g.claim.isSome then (s0, { leave := .stay })
    else if Config.vPool < e.g.vblk + n.val then (s0, faultRes .claimlimit opndNone (BitVec.ofNat 32 n.val))
    else if (s.claimHead t.die t.core e.g.slice).isNone && decide (n.val ≤ s.freeBlocks t.die t.core e.g.slice) then
      (s.modGroup t.id e.g.gix (Group.grow n.val (s.newBlocks t.die t.core e.g.slice n.val)), {})
    else
      let q : ClaimReq := ⟨t.die, t.core, e.g.slice, t.id, e.g.gix, n.val⟩
      let s1 := s.modGroup t.id e.g.gix (fun g => { g with claim := some n.val })
      ({ s1 with claims := s1.claims ++ [q] }, { leave := .stay })

/-- claim.try (R245). DEDUCED (log entry 17; unsafe). -/
def execClaimTry (h : Hdr) (pd : Fin 8) (n : Fin 192) (s : State) : Out :=
  performG (.claimTry h pd n) h s (fun e => e.lateClaim) fun e s0 =>
    let t := e.team
    let s := e.arriveClaim s0
    if (s.claimHead t.die t.core e.g.slice).isNone && decide (n.val ≤ s.freeBlocks t.die t.core e.g.slice) then
      (s.modGroup t.id e.g.gix (Group.grow n.val (s.newBlocks t.die t.core e.g.slice n.val)), { preds := [(pd.val, true)] })
    else (s, { preds := [(pd.val, false)] })

/-- surr (R246). -/
def execSurr (h : Hdr) (n : Fin 192) (s : State) : Out :=
  performG (.surr h n) h s (fun _ => false) fun e s =>
    if e.g.vblk ≤ n.val then (s, faultRes .claimlimit opndNone (BitVec.ofNat 32 n.val))
    else ((s.modGroup e.team.id e.g.gix (Group.shrink n.val)).askRound, {})

/-- The claim that a group stalls in is over: its instruction is retired with the result given. -/
def State.endClaim (s : State) (team gix : Nat) (r : TRes) : State :=
  match envOf s team gix with
  | none => s
  | some e =>
    let i := insOf e.hdr (pcIdx e.pc) e.word
    match hdrOf i with
    | some h => retire e i h (e.results i h (fun _ => r)) s
    | none => s

/-- A claim that a restore has brought back, and that has not begun again, can not: the budget is spent (R264). -/
def State.claimSpent (s : State) (q : ClaimReq) : Bool := match envOf s q.team q.gix with | some e => e.spent | none => false
/-- CLAIM_GRANT (R245, R246): the head request of a slice is met, and its instruction completes. -/
def execClaimGrant (die core slice : Nat) (s : State) : Out :=
  match s.claimHead die core slice with
  | none => .next s
  | some q =>
    if s.claimSpent q then .next (s.timeoutKill q.team)
    else if q.n ≤ s.freeBlocks die core slice then
      let s1 := ({ s with claims := s.claims.erase q }).modGroup q.team q.gix (Group.grow q.n (s.newBlocks die core slice q.n))
      .next (s1.endClaim q.team q.gix {})
    else .next s

/-- Every group of a team that holds blocks is stalled in claim, or cannot run before the current block ends (R247,
R260). DEDUCED (log entry 17; unsafe). -/
def Team.allClaim (t : Team) : Bool :=
  t.groups.all (fun g => g.vblk == 0 || g.claim.isSome || !(g.threads.any Thread.current))

/-- REGDEADLOCK (R247): the head request of a slice can never be met; it is withdrawn and faults.
DEDUCED (log entry 17; unsafe). -/
def execRegdeadlock (die core slice : Nat) (s : State) : Out :=
  match s.claimHead die core slice with
  | none => .next s
  | some q =>
    match s.team? q.team with
    | none => .next s
    | some t =>
      if s.claimSpent q then .next (s.timeoutKill q.team)
      else if s.freeBlocks die core slice < q.n ∧ t.allClaim = true then
        let s1 := (State.askRound { s with claims := s.claims.erase q }).modGroup q.team q.gix (fun g => { g with claim := none })
        .next (s1.endClaim q.team q.gix (faultRes .regdeadlock opndNone (BitVec.ofNat 32 q.n)))
      else .next s

end Sys2Proof.Machine
end

