-- ==== Sys2Proof/Machine/Budget.lean ====
section
/-!
DEFINITION. The instruction budget (R264): which instruction would begin next, and TIMEOUT.
-/

namespace Sys2Proof.Machine

/-- An engine command of the group's, when some thread performs it, stalls: it has not begun, and costs no budget, until it
is accepted, but for those that `Group.held` shows part-way. DEDUCED (log entry 66; unsafe). -/
def Env.commandStalls (e : Env) : Instr → Bool
  | .claim _ _ => e.waitsClaim || (e.g.claim.isNone && e.lateClaim)
  | .claimTry _ _ _ => e.lateClaim
  | .tget _ _ a _ => e.lateGet a || e.behindPending (e.w 32 1 a)
  | .token _ _ _ => e.tokenHeld
  | .copyG2s _ _ _ _ tr _ _ => tr.isNone && e.s.copyFull e.team.die e.team.core
  | .copyS2g _ _ _ _ tr _ _ => tr.isNone && e.s.copyFull e.team.die e.team.core
  | .copyS2s _ _ _ _ tr _ _ => tr.isNone && e.s.copyFull e.team.die e.team.core
  | .copyDie _ _ _ _ tr _ _ => tr.isNone && e.s.copyFull e.team.die e.team.core
  | .copyNet _ _ _ _ tr _ _ => tr.isNone && e.s.copyFull e.team.die e.team.core
  | .ereg .. => e.ownContribs
  | .edecay .. => e.ownContribs
  | .eflush .. => e.ownContribs
  | .eclr .. => e.ownContribs
  | .xres _ x _ => e.recordInUse x.val
  | .xrel _ x => (e.team.xrec x.val).valid && e.recordInUse x.val
  | .xsc _ x _ _ => (e.team.xrec x.val).valid && e.recordInUse x.val
  | .accClr _ acc => !(e.stepsOn acc.val).isEmpty
  | _ => false
/-- The instruction has a stall of its own (R222, R224, R229, R233, R240, R242, R244, R245, R361, R400). -/
def Env.ownStall (e : Env) (i : Instr) : Bool :=
  match i with
  | .spawn _ _ _ b => e.s.spawning e.team.id e.g.gix || e.behindPending (e.w 32 2 b)
  | .cvdeclSet h n _ => e.declWaits i h n
  | .cvdeclAdd h n _ => e.declWaits i h n
  | _ => match hdrOf i with | some h => e.anyReal i h && e.commandStalls i | none => false
/-- The group's instruction would begin, were there budget for it: no slot, no earlier operation and no unit holds it. -/
def Env.begins (e : Env) (i : Instr) : Bool :=
  match i with
  | .illop _ _ => true
  | _ => (hdrOf i).isSome && !(slotStall e.g i) && !(e.holds i) && !(e.ownStall i)
/-- A group of a team whose next instruction would begin with the budget spent (R264). -/
def State.outOfBudget (s : State) (t : Team) : Option Env :=
  t.groups.findSome? (fun g =>
    match nextOf s t.id g.gix, envOf s t.id g.gix with
    | some i, some e => if e.spent && e.begins i then some e else none
    | _, _ => none)
/-- TIMEOUT (R264): a team whose budget is spent and of which a group has an instruction that would begin is killed. A group
that stalls, that a fault at a clause's start awaits, or whose team is halted begins none. -/
def execTimeout (team : Nat) (s : State) : Out :=
  match (s.team? team).bind s.outOfBudget with
  | none => .next s
  | some e => .next ((s.clockTo e.fp).timeoutKill team)

end Sys2Proof.Machine
end

