-- ==== Sys2Proof/Machine/Crypto.lean ====
section
/-!
DEFINITION. The digests and signatures of the hub (R386, R396 to R398): SHAKE256 of FIPS 202 and Ed448 of
RFC 8032, with an empty context string.
-/

namespace Sys2Proof.Machine

/-! ### SHAKE256 -/

/-- A 64-bit lane with every bit moved up by `n` places, the top ones coming back at the bottom. -/
def turn (w n : Nat) : Nat := w * 2 ^ n % 2 ^ 64 + w * 2 ^ n / 2 ^ 64
/-- The lane in column `x` and plane `y` of a state of 25 lanes. -/
def lane (st : List Nat) (x y : Nat) : Nat := st.getD (5 * (y % 5) + x % 5) 0
/-- A state from the value of each lane. -/
def ofLanes (f : Nat → Nat → Nat) : List Nat := (List.range 25).map (fun i => f (i % 5) (i / 5))
/-- The step θ: each lane takes the parities of the two columns beside it, one of them turned. -/
def thetaStep (st : List Nat) : List Nat :=
  let par := (List.range 5).map (fun x => (List.range 5).foldl (fun w y => w ^^^ lane st x y) 0)
  ofLanes fun x y => (par.getD ((x + 4) % 5) 0 ^^^ turn (par.getD ((x + 1) % 5) 0) 1) ^^^ lane st x y
/-- Where ρ and π take the lanes, in the order of their walk from column 1 of plane 0: the lane left, the lane entered, the
turn on the way. -/
def laneWalk : List (Nat × Nat × Nat) :=
  ((List.range 24).foldl (fun (w : (Nat × Nat) × List (Nat × Nat × Nat)) t =>
    let q := (w.1.2, (2 * w.1.1 + 3 * w.1.2) % 5)
    (q, (5 * w.1.2 + w.1.1, 5 * q.2 + q.1, (t + 1) * (t + 2) / 2 % 64) :: w.2)) ((1, 0), [])).2
/-- The steps ρ and π. -/
def walkStep (st : List Nat) : List Nat := laneWalk.foldl (fun out m => out.set m.2.1 (turn (st.getD m.1 0) m.2.2)) st
/-- The step χ: a lane takes the bits of the second lane after it that the first after it lacks. -/
def chiStep (st : List Nat) : List Nat :=
  ofLanes fun x y => let far := lane st (x + 2) y; lane st x y ^^^ (far ^^^ (far &&& lane st (x + 1) y))
/-- The bits of ι as its shift register of eight bits gives them, one for each of the seven places of each round. -/
def iotaBits : List Nat :=
  ((List.range 168).foldl (fun (r : Nat × List Nat) _ =>
    (if r.1 < 128 then 2 * r.1 else (2 * r.1) ^^^ 0x171, r.2 ++ [r.1 % 2])) (1, [])).2
/-- What ι adds to lane 0 in a round: place j is bit 2^j − 1. -/
def iotaWord (round : Nat) : Nat := ((List.range 7).map (fun j => iotaBits.getD (j + 7 * round) 0 * 2 ^ (2 ^ j - 1))).sum
/-- What ι adds in the 24 rounds. -/
def iotaWords : List Nat := (List.range 24).map iotaWord
/-- The permutation Keccak-f[1600]: θ, ρ and π, χ, ι in each round. -/
def keccak (st : List Nat) : List Nat :=
  iotaWords.foldl (fun a w => let b := chiStep (walkStep (thetaStep a)); b.set 0 (b.getD 0 0 ^^^ w)) st
/-- Bytes of one block of SHAKE256. -/
abbrev shakeRate : Nat := 136
/-- Absorb whole blocks of bytes. -/
def absorb : Nat → List Nat → List Byte → List Nat
  | 0, a, _ => a
  | n + 1, a, bs =>
    let lanes := (List.range 17).map (fun i => leNat ((bs.drop (8 * i)).take 8))
    absorb n (keccak (a.zipIdx.map (fun p => p.1 ^^^ lanes.getD p.2 0))) (bs.drop shakeRate)
/-- Squeeze blocks of bytes. -/
def squeeze : Nat → List Nat → List Byte
  | 0, _ => []
  | n + 1, a => (a.take 17).flatMap (leBytes 8) ++ squeeze n (keccak a)
/-- SHAKE256 of a list of bytes, with `n` bytes of output. PRESUMED (log entry 39; unsafe). -/
def shake256 (bs : List Byte) (n : Nat) : List Byte :=
  let blocks := bs.length / shakeRate + 1
  let pad := List.replicate (blocks * shakeRate - bs.length - 1) (0 : Byte)
  let body := bs ++ (match pad with | [] => [0x9F] | _ :: l => 0x1F :: l ++ [0x80])
  (squeeze (n / shakeRate + 1) (absorb blocks (List.replicate 25 0) body)).take n

/-! ### Ed448 -/

/-- The prime of the field. -/
abbrev edP : Nat := 2 ^ 448 - 2 ^ 224 - 1
/-- The order of the base point. -/
abbrev edL : Nat := 2 ^ 446 - 13818066809895115352007386748515426880336692474882178609894547503885
/-- The constant d of the curve, which is −39081. -/
abbrev edD : Nat := edP - 39081
/-- Bits of a number, the highest of `n` first. -/
def bitsDown (n x : Nat) : List Bool := (List.range n).reverse.map (fun i => x.testBit i)
/-- A power in the field, by the bits of the exponent. -/
def powBits (x : Nat) (bs : List Bool) : Nat := bs.foldl (fun r b => if b then r * r % edP * x % edP else r * r % edP) 1
/-- A point in projective coordinates. -/
structure EdPoint where
  x : Nat
  y : Nat
  z : Nat
  deriving DecidableEq, Repr
/-- The neutral point. -/
def EdPoint.neutral : EdPoint := ⟨0, 1, 1⟩
/-- The sum of two points. -/
def EdPoint.add (p q : EdPoint) : EdPoint :=
  let a := p.z * q.z % edP
  let b := a * a % edP
  let c := p.x * q.x % edP
  let d := p.y * q.y % edP
  let e := edD * c % edP * d % edP
  let f := (b + edP - e) % edP
  let g := (b + e) % edP
  let h := (p.x + p.y) * (q.x + q.y) % edP
  ⟨a * f % edP * ((h + 2 * edP - c - d) % edP) % edP, a * g % edP * ((d + edP - c) % edP) % edP, f * g % edP⟩
/-- A multiple of a point, by the bits of the factor. -/
def EdPoint.mul (p : EdPoint) (bs : List Bool) : EdPoint :=
  bs.foldl (fun r b => if b then (r.add r).add p else r.add r) EdPoint.neutral
/-- Two points are one. -/
def EdPoint.same (p q : EdPoint) : Bool := p.x * q.z % edP == q.x * p.z % edP && p.y * q.z % edP == q.y * p.z % edP
/-- The base point. -/
def EdPoint.base : EdPoint :=
  ⟨224580040295924300187604334099896036246789641632564134246125461686950415467406032909029192869357953282578032075146446173674602635247710,
   298819210078481492676017930443930673437544040154080242095928241372331506189835876003536878655418784733982303233503462500531545062832660, 1⟩
/-- A point from its 57 bytes; none when they encode no point. -/
def edDecode (bs : List Byte) : Option EdPoint :=
  let n := leNat bs
  let sign := n / 2 ^ 455 % 2
  let y := n % 2 ^ 455
  if bs.length ≠ 57 ∨ edP ≤ y then none
  else
    let u := (y * y + edP - 1) % edP
    let v := (edD * (y * y % edP) + edP - 1) % edP
    let u3v := u * u % edP * u % edP * v % edP
    let u5v3 := u3v * (u * u % edP) % edP * (v * v % edP) % edP
    let x := u3v * powBits u5v3 (bitsDown 446 ((edP - 3) / 4)) % edP
    if v * (x * x % edP) % edP ≠ u then none
    else if x = 0 then (if sign = 1 then none else some ⟨0, y, 1⟩)
    else some ⟨if x % 2 = sign then x else edP - x, y, 1⟩
/-- The prefix of RFC 8032 for Ed448 with an empty context. -/
def edDom : List Byte := [0x53, 0x69, 0x67, 0x45, 0x64, 0x34, 0x34, 0x38, 0, 0]
/-- The 57 bytes of a point. -/
def EdPoint.encode (p : EdPoint) : List Byte :=
  let inv := powBits p.z (bitsDown 448 (edP - 2))
  leBytes 57 (p.y * inv % edP + p.x * inv % edP % 2 * 2 ^ 455)
/-- The public key and the signature that a 57-byte secret gives for a message. PRESUMED (log entry 39; unsafe). -/
def ed448Sign (secret msg : List Byte) : List Byte × List Byte :=
  let h := shake256 secret 114
  let low := leNat (h.take 56)
  let a := low - low % 4 - low / 2 ^ 447 * 2 ^ 447 + 2 ^ 447
  let point (n : Nat) : List Byte := (EdPoint.base.mul (bitsDown 448 n)).encode
  let key := point a
  let r := leNat (shake256 (edDom ++ h.drop 57 ++ msg) 114) % edL
  let k := leNat (shake256 (edDom ++ point r ++ key ++ msg) 114) % edL
  (key, point r ++ leBytes 57 ((r + k * a) % edL))
/-- The signature verifies: key, message, signature. PRESUMED (log entry 39; unsafe). -/
def ed448Verify (key msg sig : List Byte) : Bool :=
  let s := leNat (sig.drop 57)
  match edDecode key, edDecode (sig.take 57) with
  | some a, some r =>
    let k := leNat (shake256 (edDom ++ sig.take 57 ++ key ++ msg) 114) % edL
    let four (p : EdPoint) : EdPoint := (p.add p).add (p.add p)
    sig.length == 114 && decide (s < edL) &&
      (four (EdPoint.base.mul (bitsDown 446 s))).same ((four r).add (four (a.mul (bitsDown 446 k))))
  | _, _ => false

end Sys2Proof.Machine
end

