-- ==== Sys2Proof/Machine/Units.lean ====
section
/-!
DEFINITION. What the coprocessor units share (12, 13): binary32 steps in .rne with subnormals kept, exact sums,
free orders, checked spans of die scratchpad, and their reads and writes of it.
-/

namespace Sys2Proof.Machine

/-! ### Steps that round once (R314, R322, R333, R334, R339, R340) -/

/-- The value of a binary32 encoding. -/
def val32 (w : Word) : FV := ffF32.value w.toNat
/-- round_f32(x, rne) (R27). -/
def rnd32 (v : FV) : Word := BitVec.ofNat 32 (roundFV ffF32 false .rne v).1
/-- a + b. -/
def add32 (a b : Word) : Word := rnd32 (addFV .rne (val32 a) (val32 b)).1
/-- a − b. -/
def sub32 (a b : Word) : Word := rnd32 (addFV .rne (val32 a) (val32 b).negate).1
/-- a × b. -/
def mul32 (a b : Word) : Word := rnd32 (mulFV (val32 a) (val32 b)).1
/-- a / b. -/
def div32 (a b : Word) : Word := rnd32 (divFV (val32 a) (val32 b)).1
/-- A finite encoding. -/
def finite32 (w : Word) : Bool := match val32 w with | .fin .. => true | _ => false
/-- A NaN encoding. -/
def nan32 (w : Word) : Bool := (val32 w).isNan
/-- The order of two encodings that are not NaN, −0 equal to +0. -/
def cmp32 (a b : Word) : Int := cmpFV (val32 a) (val32 b)
/-- An exact sum of values, with the special cases of R71: NaN for a NaN term or infinities of both signs. -/
def exactSum (l : List FV) : FV :=
  if l.any FV.isNan || (l.any (fun v => v == .inf true) && l.any (fun v => v == .inf false)) then .qnan else sumFV l
/-- An exact sum of products. -/
def exactDot (l : List (FV × FV)) : FV := exactSum (l.map (fun p => (mulFV p.1 p.2).1))

/-! ### Orders that are not fixed -/

/-- Insert at an index. -/
def insertAt {α : Type} (n : Nat) (x : α) (l : List α) : List α := l.take n ++ x :: l.drop n
/-- A list in an order that is not fixed: element `k` goes to a free place among those before it. -/
def freeOrder {α : Type} (key : Nat → Nat) (l : List α) : List α :=
  l.zipIdx.foldl (fun a p => insertAt ((Config.freeWord (key p.2)).toNat % (a.length + 1)) p.1 a) []

/-! ### Die scratchpad on behalf of a context (R307, R329) -/

/-- Every line of a span passes R175, R270 and R177 for a context, and none is poisoned (R382). -/
def State.spanOk (s : State) (ctx die addr len : Nat) (w : Want) : Bool :=
  let last := addr + len - 1
  spValid addr && spValid last && spCore addr == spCore last &&
    (List.range (last / 64 - addr / 64 + 1)).all (fun k =>
      (s.dieFault ctx die (addr / 64 * 64 + 64 * k) w).isNone && !(s.isPoisoned die (addr / 64 * 64 + 64 * k)))
/-- The point at which a Lattice or Glaze unit reads a 64-byte unit for a call: some time between the sending of the call and
the writing of its record, which is not fixed (R341). -/
def State.unitPoint (s : State) (c : Call) (u : Nat) : Nat :=
  c.sentAt + (Config.freeWord (wideKey s.nonce 58 u)).toNat % (s.writes - c.sentAt + 1)
/-- What a Lattice or Glaze unit reads for a call (R341): each 64-byte unit of its die as one action, at its point. -/
def State.unitReads (s : State) (c : Call) : State :=
  { s with scratch := (s.olds.filter (fun w => w.mem == .die c.die && decide (c.sentAt < w.no))).foldl (fun m w =>
      w.cells.foldl (fun m q => if s.unitPoint c (q.1 / 64) < w.no then m.write (dieKey c.die q.1) q.2 else m) m) s.scratch }
/-- Read bytes of a die's scratchpad. -/
def State.dieBytes (s : State) (die addr n : Nat) : List Byte := s.readLoc (.die die addr) n
/-- Read a word of a die's scratchpad. -/
def State.dieWord (s : State) (die addr : Nat) : Word := s.locWord (.die die addr)
/-- Write bytes of a die's scratchpad. -/
def State.putDie (s : State) (die addr : Nat) (bs : List Byte) : State := s.writeLoc (.die die addr) bs
/-- A span takes unspecified contents: what a unit keeps there for itself (R311, R318). DEDUCED (log entry 20; unsafe). -/
def State.scramble (s : State) (die addr len : Nat) : State :=
  s.writeDie none die ((List.range len).map (fun j => (addr + j, Config.freeByte (wideKey s.nonce 42 (dieKey die addr + j)))))
/-- Add to a 64-bit counter in die scratchpad, modulo 2^64 (R324). -/
def State.addCount (s : State) (die addr n : Nat) : State :=
  if n = 0 then s else s.putDie die addr (leBytes 8 (leNat (s.dieBytes die addr 8) + n))

end Sys2Proof.Machine
end

