-- ==== Sys2Proof/Machine/Cutter.lean ====
section
/-!
DEFINITION. The Cutter (R304 to R319, R324 to R328): passes, primitives, coverage and depth, the resolver, slots
and shading tasks, the completion of passes.
-/

namespace Sys2Proof.Machine

/-! ### Pass descriptors (R311) -/

/-- Word `j` of the descriptor. -/
def Pass.w (p : Pass) (j : Nat) : Nat := (p.desc.getD j 0).toNat
/-- WIDTH. -/
def Pass.width (p : Pass) : Nat := bitsOf (p.w 0) 0 16
/-- HEIGHT. -/
def Pass.height (p : Pass) : Nat := bitsOf (p.w 0) 16 16
/-- ZFUNC is GREATER. -/
def Pass.greater (p : Pass) : Bool := bitOf (p.w 1) 0
/-- ZCLEAR. -/
def Pass.zclear (p : Pass) : Word := p.desc.getD 2 0
/-- COLOR. -/
def Pass.color (p : Pass) : Nat := p.w 3
/-- DEPTH; 0 for none. -/
def Pass.depth (p : Pass) : Nat := p.w 4
/-- VISBASE. -/
def Pass.visBase (p : Pass) : Nat := p.w 5
/-- VISSLOTS. -/
def Pass.visSlots (p : Pass) : Nat := bitsOf (p.w 6) 0 8
/-- PRIMBUF. -/
def Pass.primBuf (p : Pass) : Nat := p.w 7
/-- PRIMCAP. -/
def Pass.primCap (p : Pass) : Nat := p.w 8
/-- Bytes of PRIMBUF. -/
def Pass.primLen (p : Pass) : Nat := 64 * (p.primCap + 1)
/-- STATS. -/
def Pass.stats (p : Pass) : Nat := p.w 9
/-- SHADEQ. -/
def Pass.shadeQ (p : Pass) : Nat := bitsOf (p.w 10) 0 16
/-- The handle (R304). -/
def Pass.handle (p : Pass) : Nat := p.cutter * 256 + p.slot
/-- Bins in a row. -/
def Pass.nbx (p : Pass) : Nat := ceilDiv p.width 32
/-- Bins in a column. -/
def Pass.nby (p : Pass) : Nat := ceilDiv p.height 32
/-- Address of slot `i`. -/
def Pass.slotAt (p : Pass) (i : Nat) : Nat := p.visBase + 0x20000 * i

/-- The descriptor keeps its layout (R311). -/
def Pass.layoutOk (p : Pass) : Bool :=
  let ranges : List (Nat × Nat × Nat) :=
    [(1, 8192, p.width), (1, 8192, p.height), (0, 1, p.w 1), (1, 64, p.w 6), (1, 1048576, p.primCap)]
  let aligned : List (Nat × Nat) := [(16, p.color), (4, p.depth), (64, p.visBase), (64, p.primBuf), (64, p.stats)]
  ranges.all (fun r => decide (r.1 ≤ r.2.2) && decide (r.2.2 ≤ r.2.1)) && finite32 p.zclear &&
    aligned.all (fun r => r.2 % r.1 == 0) && bitsOf (p.w 10) 16 16 == 0 && bitsOf (p.w 13) 16 16 == 0 && p.w 12 % 8 == 0
/-- The ranges that the units write. -/
def Pass.spans (p : Pass) : List (Nat × Nat) :=
  [(p.color, 16 * p.width * p.height), (p.stats, 128), (p.primBuf, p.primLen)] ++
    (if p.depth = 0 then [] else [(p.depth, 4 * p.width * p.height)]) ++
    (List.range p.visSlots).map (fun i => (p.slotAt i, 0x20000))

/-! ### Finding passes -/

/-- A pass by id. -/
def State.pass? (s : State) (id : Nat) : Option Pass := s.passes.find? (fun p => p.id == id)
/-- Change a pass. -/
def State.modPass (s : State) (id : Nat) (f : Pass → Pass) : State := { s with passes := replaceIf (fun p => p.id == id) f s.passes }
/-- A pass is freed. -/
def State.freePass (s : State) (id : Nat) : State := { s with passes := s.passes.filter (fun p => p.id != id) }
/-- The open pass of a handle on a die. -/
def State.passOf (s : State) (die handle : Nat) : Option Pass := s.passes.find? (fun p => p.die == die && p.handle == handle)
/-- The bin of a pass that is touched and not complete. -/
def Pass.bin? (p : Pass) (b : Nat) : Option Bin := p.bins.find? (fun x => x.idx == b)
/-- A bin is resolved and not complete. -/
def Bin.resolved (b : Bin) : Bool := b.slot.isSome
/-- Change a bin. -/
def Pass.modBin (p : Pass) (b : Nat) (f : Bin → Bin) : Pass := { p with bins := replaceIf (fun x => x.idx == b) f p.bins }
/-- A bin of the pass with nothing in it yet. -/
def Bin.blank (b : Nat) : Bin := { idx := b, slot := none, late := [], frags := [], done := none, touched := 0, resolvedN := 0 }
/-- Change a bin, which is listed first if it is not. -/
def Pass.touchBin (p : Pass) (b : Nat) (f : Bin → Bin) : Pass :=
  if (p.bin? b).isSome then p.modBin b f else { p with bins := p.bins ++ [f (Bin.blank b)] }
/-- A bin is complete. -/
def Pass.dropBin (p : Pass) (b : Nat) : Pass := { p with bins := p.bins.filter (fun x => x.idx != b) }
/-- The owning team and the context of a pass are not stopped by pre-emption (R326). -/
def State.passRuns (s : State) (p : Pass) : Bool :=
  (match s.ctx? p.ctx with | some c => c.run == .running | none => false) &&
    (match s.team? p.team with | some t => !t.halted | none => true) && !(s.saved.any (fun x => x.id == p.team))

/-! ### Primitives (R313, R314) -/

/-- A snapped primitive, its vertices exchanged when it faces back: coordinates, depths, area. -/
structure Tri where
  sx : List Int
  sy : List Int
  z : List FV
  area : Int
  back : Bool
  culled : Bool
  deriving DecidableEq, Repr

/-- round_even(256 × X). -/
def snap (w : Word) : Int :=
  match val32 w with
  | .fin n m e =>
    let k : Int := ((roundAt .rne n m (e + 8) 0).1 : Nat)
    if n then -k else k
  | _ => 0
/-- Element of a list of three. -/
def nth3 (l : List Int) (k : Nat) : Int := l.getD k 0
/-- E(a, b, px, py). -/
def edgeFn (sx sy : List Int) (a b : Nat) (px py : Int) : Int :=
  (nth3 sx b - nth3 sx a) * (py - nth3 sy a) - (nth3 sy b - nth3 sy a) * (px - nth3 sx a)
/-- Exchange elements 1 and 2. -/
def swap12 {α : Type} : List α → List α
  | [a, b, c] => [a, c, b]
  | l => l
/-- The set-up of R314 for a primitive's words 4 to 12. -/
def Tri.of (verts : List Word) (cull : Nat) : Tri :=
  let sx := [0, 3, 6].map (fun k => snap (verts.getD k 0))
  let sy := [1, 4, 7].map (fun k => snap (verts.getD k 0))
  let z := [2, 5, 8].map (fun k => val32 (verts.getD k 0))
  let a := edgeFn sx sy 0 1 (nth3 sx 2) (nth3 sy 2)
  let back := decide (a < 0)
  let culled := a == 0 || (cull == 1 && back) || (cull == 2 && !back)
  if back then ⟨swap12 sx, swap12 sy, swap12 z, -a, back, culled⟩ else ⟨sx, sy, z, a, back, culled⟩
/-- The three edges, opposite vertices 0, 1 and 2. -/
def triEdges : List (Nat × Nat) := [(1, 2), (2, 0), (0, 1)]
/-- A top or a left edge, with Y growing downward. -/
def Tri.topLeft (t : Tri) (a b : Nat) : Bool :=
  let dx := nth3 t.sx b - nth3 t.sx a
  let dy := nth3 t.sy b - nth3 t.sy a
  decide (dy < 0) || (dy == 0 && decide (0 < dx))
/-- The depth of a pixel that the primitive covers; none outside it. DEDUCED (log entry 49; unsafe). -/
def Tri.depthAt (t : Tri) (x y : Nat) : Option Word :=
  let px : Int := 256 * x + 128
  let py : Int := 256 * y + 128
  let es := triEdges.map (fun e => (edgeFn t.sx t.sy e.1 e.2 px py, t.topLeft e.1 e.2))
  if es.all (fun e => decide (0 < e.1) || (e.1 == 0 && e.2)) then
    match sumFV (List.zipWith (fun e z => (mulFV (intFV e.1) z).1) es t.z) with
    | .fin n m e => some (rnd32 (divFV (.fin n m e) (intFV t.area)).1)
    | _ => none
  else none
/-- The least of three. -/
def min3 (l : List Int) : Int := l.foldl (fun a b => if b < a then b else a) (nth3 l 0)
/-- The greatest of three. -/
def max3 (l : List Int) : Int := l.foldl (fun a b => if a < b then b else a) (nth3 l 0)
/-- The box shares interior with the strip of bins at index `k` (R314). -/
def overlapsAt (l : List Int) (k : Nat) : Bool :=
  decide (min3 l < 8192 * ((k : Int) + 1)) && decide (8192 * (k : Int) < max3 l)
/-- The bins that a primitive overlaps, ascending. -/
def Pass.overlapped (p : Pass) (t : Tri) : List Nat :=
  if t.culled then []
  else
    let xs := (List.range p.nbx).filter (overlapsAt t.sx)
    ((List.range p.nby).filter (overlapsAt t.sy)).flatMap (fun by_ => xs.map (fun bx => by_ * p.nbx + bx))

/-! ### Depth order (R316) -/

/-- A depth is nearer than another under ZFUNC. -/
def Pass.nearerZ (p : Pass) (a b : Word) : Bool := if p.greater then decide (cmp32 b a < 0) else decide (cmp32 a b < 0)
/-- A key (z, token, PRIMID) is nearer than another. -/
def Pass.nearerKey (p : Pass) (a b : Word × Word × Word) : Bool :=
  p.nearerZ a.1 b.1 || (cmp32 a.1 b.1 == 0 &&
    (decide (a.2.1.toNat < b.2.1.toNat) || (a.2.1 == b.2.1 && decide (a.2.2.toNat < b.2.2.toNat))))

/-- The pixels of a bin inside the surface, with their index in the bin (R318). -/
def Pass.pixels (p : Pass) (b : Nat) : List (Nat × Nat × Nat) :=
  (List.range 1024).filterMap (fun i =>
    let x := 32 * (b % p.nbx) + i % 32
    let y := 32 * (b / p.nbx) + i / 32
    if x < p.width ∧ y < p.height then some (i, x, y) else none)
/-- The fragments of a primitive in a bin: pixel index and depth (R314). -/
def Pass.fragments (p : Pass) (t : Tri) (b : Nat) : List (Nat × Word) :=
  if t.culled then []
  else (p.pixels b).filterMap (fun q =>
    match t.depthAt q.2.1 q.2.2 with
    | some z => if p.nearerZ z p.zclear then some (q.1, z) else none
    | none => none)
/-- The fragments that enter the resolver in a bin: pixel index and key. -/
def Pass.candidates (p : Pass) (b : Nat) : List (Nat × Word × Word × Word) :=
  (p.prims.filter (fun q => !q.mayKill && !q.culled)).flatMap (fun q =>
    (p.fragments (Tri.of q.verts q.cull) b).map (fun f => (f.1, f.2, q.token, q.primid)))
/-- The visibility of a pixel: the nearest key, either one of those that are equal. DEDUCED (log entry 20; unsafe). -/
def Pass.winner (p : Pass) (nonce b : Nat) (cs : List (Nat × Word × Word × Word)) (i : Nat) : Option (Word × Word × Word) :=
  let l := (cs.filter (fun c => c.1 == i)).map Prod.snd
  let best := l.filter (fun k => !(l.any (fun m => p.nearerKey m k)))
  best[(Config.freeWord (wideKey nonce 44 (1024 * b + i))).toNat % best.length]?

/-! ### Return of Cutter calls (R305 to R307, R407) -/

/-- Status codes of R238 and R306. -/
abbrev stBadop : Nat := 0x01
abbrev stBadrec : Nat := 0x02
abbrev stAddr : Nat := 0x03
abbrev stUniterr : Nat := 0x04
abbrev stToklate : Nat := 0x10
abbrev stPassfull : Nat := 0x11
abbrev stLatefull : Nat := 0x12
abbrev stPrimfull : Nat := 0x13
abbrev stNobin : Nat := 0x14
abbrev stFragfull : Nat := 0x15
abbrev stBadpass : Nat := 0x17
abbrev stPassabort : Nat := 0x18

/-- Words `lo` to `hi` are zero. -/
def Call.zeros (c : Call) (lo hi : Nat) : Bool := (List.range (hi + 1 - lo)).all (fun k => c.word (lo + k) == 0)
/-- The word 0 flags of a call are among those allowed: MAYKILL, ORDERED, LAST. -/
def Call.flagsOk (c : Call) (mk od la : Bool) : Bool := (!c.mayKill || mk) && (!c.ordered || od) && (!c.last || la)
/-- The handle in word 14. -/
def Call.handle14 (c : Call) : Nat := bitsOf (c.word 14) 0 16
/-- The pass of a handle that the calling team owns and that is not abandoned (R307, R327). -/
def State.ownPass (s : State) (c : Call) (handle : Nat) : Option Pass :=
  match s.passOf c.die handle with
  | some p => if p.team == c.team && !p.abandoned then some p else none
  | none => none
/-- A status without detail. DEDUCED (log entry 20; unsafe). -/
def State.reject (s : State) (c : Call) (st : Nat) : State := s.turnAway c st (s.instance_ c) 0
/-- BADPASS, with the handle as detail. -/
def State.badPass (s : State) (c : Call) (handle : Nat) : State := s.turnAway c stBadpass (s.instance_ c) handle

/-! ### PASS.BEGIN (R304, R311) -/

/-- A free pass slot: Cutter and slot, the lowest of that Cutter. DEDUCED (log entry 20; unsafe). -/
def State.freePassSlot (s : State) (die : Nat) : Option (Nat × Nat) :=
  ([0, 1].flatMap (fun k => (List.range 4).map (fun n => (k, n)))).find? (fun q =>
    !(s.passes.any (fun p => p.die == die && p.cutter == q.1 && p.slot == q.2)))
/-- The Cutter that a PASS.BEGIN goes to. -/
def State.beginCutter (s : State) (die : Nat) : Nat := match s.freePassSlot die with | some q => q.1 | none => 1
/-- The instance that serves a call (R304). -/
def State.serves (s : State) (c : Call) : Nat := if c.kind = .cut ∧ c.op = 1 then s.beginCutter c.die else s.instance_ c
/-- The pass that a descriptor opens. -/
def Pass.open_ (id : Nat) (c : Call) (at_ : Nat × Nat) (desc : List Word) : Pass :=
  { id := id, die := c.die, cutter := at_.1, slot := at_.2, team := c.team, ctx := c.ctx, desc := desc, prims := [], culledN := 0,
    ended := none, resolving := false, due := none, skipped := 0, nextBin := 0, nextSlot := 0, bins := [], stream := [],
    streamPassed := [0, 0, 0, 0, 0], abandoned := false }

/-- PASS_BEGIN (R311, R407). -/
def State.takeBegin (s : State) (call : Nat) : State :=
  match s.serve call .cut 1 with
  | none => s
  | some c =>
    let ans (st : Nat) : State := s.turnAway c st (s.beginCutter c.die) 0
    if !(c.flagsOk false false false && c.word 4 % 64 == 0 && c.zeros 5 15) then (ans stBadrec)
    else if !(s.spanOk c.ctx c.die (c.word 4) 64 .any) then (ans stAddr)
    else
      let p := Pass.open_ s.nextId c ((s.freePassSlot c.die).getD (0, 0)) (wordsOf 16 (s.dieBytes c.die (c.word 4) 64))
      if !(p.layoutOk && (s.taskqOn c.die c.ctx p.shadeQ).isSome) then (ans stBadrec)
      else if !(p.spans.all (fun r => s.spanOk c.ctx c.die r.1 r.2 .plain)) then (ans stAddr)
      else if (s.freePassSlot c.die).isNone then (ans stPassfull)
      else
        let s1 := State.bumpId { s with passes := s.passes ++ [p] }
        let r : Answer := { status := 0, inst := p.cutter, result := [BitVec.ofNat 32 p.handle] }
        (((s1.scramble c.die p.primBuf p.primLen).returnCall c r).bumpNonce)
/-- PASS_BEGIN (R311): the Cutter serves the call. -/
def execPassBegin (call : Nat) (s : State) : Out := .next (s.takeBegin call)

/-! ### Tokens of a pass (R308 to R310) -/

/-- The pass has begun resolving. -/
def State.resolves (s : State) (p : Pass) : Bool := p.resolving || s.rangeRetired p
/-- The pass begins resolving. -/
def State.beginResolve (s : State) (p : Pass) : State :=
  s.modPass p.id (fun q => { q with resolving := true, skipped := s.skippedIn p })

/-- RESOLUTION_BEGIN (R310). -/
def execResolutionBegin (pass : Nat) (s : State) : Out :=
  match s.pass? pass with
  | none => .next s
  | some p => if !p.resolving && !p.abandoned && s.rangeRetired p then .next (s.beginResolve p) else .next s

/-! ### TRI (R313 to R319) -/

/-- The payload keeps the layout of R313. DEDUCED (log entry 20; unsafe). -/
def Call.triOk (c : Call) : Bool :=
  let small (w : Word) : Bool := finite32 w && decide (cmp32 (w &&& 0x7FFFFFFF) 0x46800000 < 0)
  c.ordered && c.flagsOk true true true && (List.range 9).all (fun k =>
    let w := c.words.getD (4 + k) 0
    if k % 3 = 2 then finite32 w else small w) &&
    bitsOf (c.word 14) 18 14 == 0 && bitsOf (c.word 14) 16 2 != 3 && c.word 15 == 0
/-- The late entries of a primitive in a bin, in no fixed order. DEDUCED (log entry 20; unsafe). -/
def Pass.lateOf (p : Pass) (nonce : Nat) (q : Prim) (t : Tri) (b : Nat) : List Late :=
  freeOrder (fun k => wideKey nonce 43 (1024 * b + k))
    ((p.fragments t b).map (fun f => ⟨q.primid, q.token, f.2, f.1 % 32, f.1 / 32⟩))
/-- Most late entries of a bin. -/
abbrev lateMax : Nat := 1023
/-- A primitive joins a pass: the bins it overlaps are counted, the late entries of a MAYKILL primitive kept as far as
there is room. With it, the fragments dropped. -/
def Pass.take (p : Pass) (nonce : Nat) (q : Prim) (t : Tri) : Pass × Nat :=
  let p1 := { p with prims := p.prims ++ [q], culledN := p.culledN + (if t.culled then 1 else 0) }
  (p.overlapped t).foldl (fun a b =>
    let new := if q.mayKill then p.lateOf nonce q t b else []
    let had := match a.1.bin? b with | some x => x.late.length | none => 0
    let kept := new.take (lateMax - had)
    (a.1.touchBin b (fun x => { x with touched := x.touched + 1, late := x.late ++ kept }), a.2 + (new.length - kept.length)))
    (p1, 0)

/-- TRI (R313, R407). -/
def State.takeTri (s : State) (call : Nat) : State :=
  match s.serve call .cut 2 with
  | none => s
  | some c =>
    if !c.triOk then (s.reject c stBadrec)
    else
      match s.ownPass c c.handle14 with
      | none => (s.badPass c c.handle14)
      | some p =>
        if s.tokenRetired p c.token || s.resolves p then (s.reject c stToklate)
        else if p.primCap ≤ p.prims.length then (s.reject c stPrimfull)
        else
          let verts := (c.words.drop 4).take 9
          let cull := bitsOf (c.word 14) 16 2
          let t := Tri.of verts cull
          let q : Prim := { verts := verts, primid := c.words.getD 13 0, token := c.token, cull := cull, mayKill := c.mayKill, culled := t.culled }
          let r := p.take s.nonce q t
          let n := (p.overlapped t).length
          let flags := (if t.culled then 1 else 0) + (if t.back then 2 else 0) + (if n < 0xFFFF then n else 0xFFFF) * 2 ^ 16
          let s1 := (s.modPass p.id (fun _ => r.1)).scramble c.die p.primBuf p.primLen
          let s2 := if c.last then s1.retireToken c.team c.token .tri else s1
          ((s2.returnCall c { status := if r.2 = 0 then 0 else stLatefull, inst := p.cutter, detail := r.2,
                                    result := [BitVec.ofNat 32 flags] }).bumpNonce)
/-- TRI (R313): the Cutter serves the call. -/
def execTri (call : Nat) (s : State) : Out := .next (s.takeTri call)

/-! ### Completion and abandonment of passes (R325, R327, R328) -/

/-- A pass that has nothing left to do completes: its counters are added, the END record is written and the handle is
freed; an abandoned pass only frees its handle. -/
def State.finishPass (s : State) (id : Nat) : State :=
  match s.pass? id with
  | none => s
  | some p =>
    if p.abandoned then (if p.bins.isEmpty && p.stream.isEmpty then s.freePass id else s)
    else
      match p.ended with
      | none => s
      | some (call, _, _) =>
        if p.resolving && decide (p.nbx * p.nby ≤ p.nextBin) && p.bins.isEmpty && p.stream.isEmpty then
          let counts : List (Nat × Nat) :=
            [(0x00, p.prims.length), (0x08, p.culledN), (0x10, p.skipped)] ++
              p.streamPassed.zipIdx.map (fun q => (0x38 + 8 * q.2, q.1))
          let s1 := counts.foldl (fun a q => a.addCount p.die (p.stats + q.1) q.2) s
          (s1.answer call { status := 0, inst := p.cutter, result := [1] }).freePass id
        else s

/-- The record of a PASS.END is good (R312). -/
def Call.endOk (c : Call) : Bool :=
  let base := c.word 4
  let count := c.word 5
  c.flagsOk false false false && decide (1 ≤ count) && decide (count ≤ 65536) && decide (base + count ≤ 2 ^ 32) && c.zeros 6 13 &&
    bitsOf (c.word 14) 16 16 == 0 && c.word 15 == 0
/-- The PASS.END of a pass that the Cutter has accepted from a core's buffer and not yet taken up.
DEDUCED (log entry 20; unsafe). -/
def State.endWaits (s : State) (p : Pass) : Option Call := s.calls.find? (fun c =>
  c.accepted && !c.waiting && c.kind == .cut && c.op == 3 && c.die == p.die && c.team == p.team && c.handle14 == p.handle && c.endOk)
/-- A pass is abandoned: its unresolved bins are discarded, an accepted END returns PASSABORT, and stream fragments whose
commit is not due are lost with their calls. -/
def State.abandon (s : State) (p : Pass) : State :=
  if p.abandoned then s
  else
    let lost := p.stream.filter (fun f => !f.ready)
    let s1 := s.modPass p.id (fun q =>
      { q with abandoned := true, bins := q.bins.filter Bin.resolved, stream := q.stream.filter (fun f => f.ready) })
    let s2 := lost.foldl (fun a f => a.dropCall f.call) s1
    match p.ended with
    | some (call, _, _) => s2.answer call { status := stPassabort, inst := p.cutter }
    | none =>
      match s2.endWaits p with
      | some c => s2.answer c.id { status := stPassabort, inst := p.cutter }
      | none => s2

/-- A pass takes its PASS.END. -/
def State.takeEnd (s : State) (c : Call) (p : Pass) : State :=
  ((s.modCall c.id (fun c => { c with waiting := true })).modPass p.id
    (fun p => { p with ended := some (c.id, c.word 4, c.word 5) })).latchPasses p.team

/-- PASS_END (R312, R407): the record is written when the pass completes. -/
def State.takePassEnd (s : State) (call : Nat) : State :=
  match s.serve call .cut 3 with
  | none => s
  | some c =>
    if !c.endOk then (s.reject c stBadrec)
    else
      match s.ownPass c c.handle14 with
      | none => (s.badPass c c.handle14)
      | some p =>
        if p.ended.isSome then (s.badPass c c.handle14)
        else (s.takeEnd c p)
/-- PASS_END (R312): the Cutter serves the call. -/
def execPassEnd (call : Nat) (s : State) : Out := .next (s.takePassEnd call)

/-- PASS_ABORT (R328, R407): any team of the pass's context on the die may send it. Every slot is freed at once.
DEDUCED (log entry 20; unsafe). -/
def State.takeAbort (s : State) (call : Nat) : State :=
  match s.serve call .cut 4 with
  | none => s
  | some c =>
    if !(c.flagsOk false false false && c.zeros 4 13 && bitsOf (c.word 14) 16 16 == 0 && c.word 15 == 0) then
      (s.reject c stBadrec)
    else
      match s.passOf c.die c.handle14 with
      | none => (s.badPass c c.handle14)
      | some p =>
        if p.ctx ≠ c.ctx then (s.badPass c c.handle14)
        else
          let s1 := s.abandon p
          let waits := (p.bins.filterMap (fun b => b.done.map Prod.fst)) ++ p.stream.map (fun f => f.call)
          let s2 := waits.foldl (fun a k => a.dropCall k) s1
          ((s2.returnCall c { status := 0, inst := p.cutter }).freePass p.id)
/-- PASS_ABORT (R328): the Cutter serves the call. -/
def execPassAbort (call : Nat) (s : State) : Out := .next (s.takeAbort call)

/-- The passes of a context that ends are released, with no record written: the calls that wait for them are gone (R328). -/
def State.dropPasses (s : State) (ctx : Nat) : State :=
  { s with passes := s.passes.filter (fun p => p.ctx != ctx), calls := s.calls.filter (fun c => !(c.ctx == ctx && c.waiting)) }
/-- A team ends (R327): a pass of its own that can no longer resolve is abandoned; one that can keeps what it needs. The
Cutter has taken up every call of the team by then. A team of a context that has ended leaves no pass (R328). -/
def State.endPasses (s : State) (ctx team : Nat) : State :=
  if (match s.ctx? ctx with | some c => c.ended || c.dying | none => true) then s.dropPasses ctx
  else
    (s.passes.filter (fun p => p.team == team && !p.abandoned)).foldl (fun a p =>
      if p.resolving then a
      else if a.rangeRetired p then a.beginResolve p
      else (a.abandon p).finishPass p.id) s

/-! ### Resolution (R317, R318) -/

/-- The words of a visibility record. -/
def visRecord (v : Option (Word × Word × Word)) : List Word :=
  match v with | some k => [k.1, k.2.1, k.2.2, 1] | none => [0, 0, 0, 0]
/-- The words of a late entry. -/
def Late.words (l : Late) : List Word := [l.primid, l.token, l.z, BitVec.ofNat 32 (l.x + 32 * l.y)]
/-- The Cutter writes a slot. -/
def State.writeSlot (s : State) (p : Pass) (addr : Nat) (vis : List (Option (Word × Word × Word))) (late : List Late) : State :=
  let head : List Word := [BitVec.ofNat 32 late.length, 0, 0, 0]
  let s1 := s.putDie p.die addr ((vis.flatMap visRecord).flatMap wordBytes)
  let s2 := s1.putDie p.die (addr + 0x4000) ((head ++ late.flatMap Late.words).flatMap wordBytes)
  s2.scramble p.die (addr + 0x8000) 64
/-- The shading task of a bin (R317). -/
def Pass.task (p : Pass) (b slot : Nat) : List Byte :=
  let w (j : Nat) : Word := p.desc.getD j 0
  let ws : List Word := [w 12, w 13, BitVec.ofNat 32 (p.slotAt slot), 0, BitVec.ofNat 32 (b % p.nbx), BitVec.ofNat 32 (b / p.nbx),
    BitVec.ofNat 32 (p.handle + slot * 2 ^ 16), w 11, 0, w 14, w 15, 0, 0, 0, 0, 0]
  ws.flatMap wordBytes

/-- BIN_RESOLVE (R317): the next bin in order completes with nothing in it, or takes the next slot and is handed to
software; it waits while that slot is held or the queue is full. -/
def execBinResolve (pass : Nat) (s : State) : Out :=
  match s.pass? pass with
  | none => .next s
  | some p =>
    let b := p.nextBin
    if !(p.resolving && !p.abandoned && s.passRuns p && decide (b < p.nbx * p.nby)) then .next s
    else
      let bin := (p.bin? b).getD (Bin.blank b)
      let cs := p.candidates b
      let late := freeOrder (fun k => wideKey s.nonce 45 k) bin.late
      if cs.isEmpty && late.isEmpty then
        let s1 := s.addCount p.die (p.stats + 0x18) bin.touched
        .next (((s1.modPass pass (fun p => { p.dropBin b with nextBin := b + 1 })).finishPass pass).wake)
      else if p.bins.any (fun x => x.slot == some p.nextSlot) then .next s
      else
        match s.taskqOn p.die p.ctx p.shadeQ with
        | none => .next s
        | some q =>
          if s.room q = 0 then .next s
          else
            let vis := (List.range 1024).map (p.winner s.nonce b cs)
            let n := (vis.filter Option.isSome).length
            let s1 := s.writeSlot p (p.slotAt p.nextSlot) vis late
            let s2 := s1.modPass pass (fun p =>
              { p.touchBin b (fun x => { x with slot := some p.nextSlot, late := late, resolvedN := n }) with
                nextBin := b + 1, nextSlot := (p.nextSlot + 1) % p.visSlots })
            .next (((s2.pushRecord none q (p.task b p.nextSlot)).wake).bumpNonce)

end Sys2Proof.Machine
end

