-- ==== Sys2Proof/Machine/Fetch.lean ====
section
/-!
DEFINITION. What an engine executes next (R347, R349), and the loads from outside the machine that place one
instruction where the next step fetches it.
-/

namespace Sys2Proof.Machine

/-! ### The next bytecode of an engine (R347, R349) -/

/-- A command queue. -/
def State.cmdq? (s : State) (ctx num : Nat) : Option CmdQ := s.cmdqs.find? (fun q => q.ctx == ctx && q.num == num)
/-- Change a command queue. -/
def State.modCmdq (s : State) (ctx num : Nat) (f : CmdQ → CmdQ) : State :=
  { s with cmdqs := replaceIf (fun q => q.ctx == ctx && q.num == num) f s.cmdqs }
/-- The queue an engine runs. -/
def State.engineQueue (s : State) (n : Nat) : Option CmdQ :=
  match s.engines[n]? with
  | none => none
  | some e => match e.queue with | none => none | some p => s.cmdq? p.1 p.2
/-- Steps a packet may take (R349). -/
abbrev stepLimit : Nat := 512
/-- The bytecode that an engine executes next; the BUDGET event where that would be the packet's 513th step. -/
def engineNext (s : State) (n : Nat) : Option Instr :=
  match s.engineQueue n with
  | none => none
  | some q =>
    if q.waitl || q.faulted || q.stalled.isSome then none
    else
      match q.frames with
      | [] => none
      | f :: _ =>
        if stepLimit ≤ f.steps then some (.budget n)
        else
          match f.code[f.pc]? with
          | none => none
          | some w => match decodeByte w with | .ok i => some i | .error _ => none

/-! ### One instruction placed from outside -/

/-- A thread at the start of a kernel: every register 0 (R28, R38), TRAPINFO.OPND 0x7FF (R44).
DESIGN CHOICE (log entry 4; safe). DEDUCED (log entry 10; unsafe). -/
def Thread.blank (pc : DWord) : Thread :=
  { pc := pc, mr := mrNone, loops := [], v := [], t := [], tdef := 0, p := 1, helper := false, exited := false,
    intrap := false, cause := 0, trappc := 0, trapinfo := 0x7FF00000000, clkHi := 0, place := .cur, wait := none,
    deferred := false, faults := [] }
/-- A latch that holds nothing (R227). -/
def Latch.blank : Latch := ⟨false, 0, [], []⟩
/-- A group at the start of a kernel, in a slot (R251). -/
def Group.blank (gix slice slot vblk kblk : Nat) (role : BitVec 3) (ths : List Thread) : Group :=
  { gix := gix, slice := slice, slot := slot, vblk := vblk, kblk := kblk, blocks := List.range vblk, role := role, ftz := false, chksb := false,
    nflags := 0, flagsAt := 0, flagsSet := 0, k := [], threads := ths, ops := [], latch := Latch.blank, nextIssue := 0, lastPass := 0, windows := [],
    clauseAt := none, held := false, claim := none, tokWait := none, stack := [] }
/-- A team of one context with its groups, at the start of a kernel (R118, R255). -/
def Team.blank (id ctx : Nat) (o : Origin) (pc : DWord) (gs : List Group) : Team :=
  { id := id, ctx := ctx, origin := o, teamid := 0, clusterNo := id, csize := 0, tic := 0, die := 0, core := 0, firstCore := 0,
    handler := 0, budgeted := false, budget := 0, shsize := 0, stackSize := 0, shared := [], sharedKey := id,
    opBase := 0, opSize := 0, opbuf := [], localGran := [], saveOff := 0, saveLen := 0, frontier := [], curaddr := pc,
    x := List.replicate 16 0, cv := List.replicate 8 CvReg.blank, matctx := none, windows := [], shut := [], retired := [],
    groups := gs, killed := none, halted := false }
/-- A context with a code space (R38, R380). -/
def Context.blank (id : Nat) (code : Memory) : Context :=
  { id := id, saveVa := 0, saveSize := 0, saveMem := [], hbmQuota := 0, hbmUsed := 0, pages := [], code := code,
    kernels := [], staged := [], run := .running, again := [], ended := false, dying := false }
/-- A command queue that nothing has signalled (R343). -/
def CmdQ.blank (ctx num : Nat) : CmdQ :=
  { ctx := ctx, num := num, desc := 0, ring := 0, logn := 4, head := 0, tail := 0, prog := 0, tickets := 1, wbase := 0,
    wsize := 4096, idle := 0, fault := 0, faulted := false, pending := false, faultPc := 0, g := List.replicate 8 0,
    slot := none, lastSignal := 0, lastEnd := 0, pendSince := 0, pendNo := 0, frames := [], engine := none, waitl := false, stalled := none,
    lost := none, launches := [] }

/-- The header of a clause of one instruction (R77): its class, ENTRY, no wait. DESIGN CHOICE (log entry 5; unsafe). -/
def oneHeader (w : DWord) : DWord :=
  let cls := match decode w with
    | .ok i => (match clauseClass i with | some c => classNum c | none => 0)
    | .error _ => 0
  BitVec.ofNat 64 (0xC1A50000 * 2 ^ 32 + 2 ^ 7 + cls * 2 ^ 4)

/-- Where the placed clause stands in its context's code space. -/
abbrev placedAt : Nat := 0x1000

/-- A team whose one group streams one thread at a clause that holds the word. The other threads have exited.
DESIGN CHOICE (log entry 5; unsafe). -/
def State.placeIgfin (s : State) (w : DWord) : State :=
  let pc := mkPc placedAt 0
  let th := Thread.blank pc
  let g := Group.blank 0 0 0 Config.vPool 8 0 (th :: List.replicate 31 th.asExited)
  let code : Memory := Memory.writeN [] placedAt (dwordBytes (oneHeader w) ++ dwordBytes w)
  { s with contexts := Context.blank 0 code :: s.contexts,
           teams := Team.blank 0 0 (.dispatch 0 0) pc [g] :: s.teams,
           agenda := .group 0 0 :: s.agenda }

/-- A command queue whose packet engine 0 runs, at a program that holds the word. DESIGN CHOICE (log entry 5; unsafe). -/
def State.placeBytecode (s : State) (w : Word) : State :=
  let f : Frame := { addr := 0, left := 0, packet := List.replicate 64 0, code := [w], pc := 0, steps := 0, loops := [] }
  let q : CmdQ := { CmdQ.blank 0 0 with slot := some 0, frames := [f], engine := some 0 }
  { s with contexts := Context.blank 0 [] :: s.contexts,
           cmdqs := q :: s.cmdqs,
           engines := modifyAt (fun e => { e with queue := some (0, 0) }) 0 s.engines,
           agenda := .engine 0 :: s.agenda }

end Sys2Proof.Machine
end

