-- ==== Sys2Proof/Machine/Lattice.lean ====
section
/-!
DEFINITION. The Lattice unit (R329 to R336, R341): a ray against a triangle or a displaced patch.
-/

namespace Sys2Proof.Machine

/-- Component `c` of a list of words. -/
def comp (l : List Word) (c : Nat) : Word := l.getD c 0
/-- Three words at offset `o` of bytes. -/
def vec3At (bs : List Byte) (o : Nat) : List Word := (List.range 3).map (fun k => wordAt bs (o + 4 * k))

/-! ### The payload (R330) -/

/-- A call is turned away: BADREC, ADDRFAULT or a status of the unit, with detail 0. DEDUCED (log entry 22; unsafe). -/
def State.unitReject (s : State) (c : Call) (st : Nat) : State := s.turnAway c st (s.instance_ c) 0
/-- Words `lo` to `hi` of a call. -/
def Call.run (c : Call) (lo n : Nat) : List Word := (c.words.drop lo).take n
/-- The payload is within the limits of R330; a TMIN of −0 is. DEDUCED (log entry 22; unsafe). -/
def Call.rayOk (c : Call) : Bool :=
  let d := c.run 7 3
  let tmin := c.words.getD 10 0
  let tmax := c.words.getD 11 0
  (c.run 4 6).all finite32 && d.any (fun w => cmp32 w 0 != 0) && finite32 tmin && decide (0 ≤ cmp32 tmin 0) &&
    !(nan32 tmax) && decide (0 ≤ cmp32 tmax tmin) && c.word 12 % 64 == 0 && decide (c.word 14 < 3) && c.word 15 == 0

/-! ### The test of a triangle (R334) -/

/-- What a test finds. -/
structure Hit where
  t : Word
  u : Word
  v : Word
  leaf : Nat
  front : Bool
  deriving DecidableEq, Repr
/-- The sign tests of R334 on an exact value: a NaN is neither. -/
def FV.below0 (v : FV) : Bool := !v.isNan && decide (cmpFV v (.fin false 0 0) < 0)
/-- Above zero. -/
def FV.above0 (v : FV) : Bool := !v.isNan && decide (0 < cmpFV v (.fin false 0 0))
/-- The axis of the largest direction component, the lowest on a tie. -/
def mainAxis (d : List Word) : Nat :=
  let m (c : Nat) : Word := comp d c &&& 0x7FFFFFFF
  let a := if cmp32 (m 0) (m 1) < 0 then 1 else 0
  if cmp32 (m a) (m 2) < 0 then 2 else a
/-- The sheared vertex x, y, z of R334. -/
def shear (o d : List Word) (kx ky kz : Nat) (v : List Word) : Word × Word × Word :=
  let w (k : Nat) : Word := sub32 (comp v k) (comp o k)
  let sx := div32 (comp d kx) (comp d kz)
  let sy := div32 (comp d ky) (comp d kz)
  let sz := div32 0x3F800000 (comp d kz)
  (sub32 (w kx) (mul32 sx (w kz)), sub32 (w ky) (mul32 sy (w kz)), mul32 sz (w kz))
/-- An exact quotient whose zero is +0, rounded once. -/
def quot32 (x y : FV) : Word := if x.isZero && !y.isZero then rnd32 (.fin false 0 0) else rnd32 (divFV x y).1
/-- a < b on encodings, where a NaN is never below. -/
def below32 (a b : Word) : Bool := !(nan32 a) && !(nan32 b) && decide (cmp32 a b < 0)
/-- The test of R334. DEDUCED (log entry 49; unsafe). -/
def testTri (o d : List Word) (tmin tmax : Word) (cull leaf : Nat) (vs : List (List Word)) : Option Hit :=
  let kz := mainAxis d
  let k1 := (kz + 1) % 3
  let k2 := (kz + 2) % 3
  let sw := (val32 (comp d kz)).below0
  let kx := if sw then k2 else k1
  let ky := if sw then k1 else k2
  let p := vs.map (shear o d kx ky kz)
  let q (m : Nat) : Word × Word × Word := p.getD m (0, 0, 0)
  let x (m : Nat) : FV := val32 (q m).1
  let y (m : Nat) : FV := val32 (q m).2.1
  let z (m : Nat) : FV := val32 (q m).2.2
  let cross (a b : Nat) : FV := exactDot [(x a, y b), ((y a).negate, x b)]
  let eu := cross 2 1
  let ev := cross 0 2
  let ew := cross 1 0
  let es := [eu, ev, ew]
  if es.any FV.below0 && es.any FV.above0 then none
  else
    let ur := rnd32 eu
    let vr := rnd32 ev
    let wr_ := rnd32 ew
    let det := rnd32 (exactSum [val32 ur, val32 vr, val32 wr_])
    let dv := val32 det
    if dv.isZero then none
    else if (cull == 1 && dv.below0) || (cull == 2 && dv.above0) then none
    else
      let t := quot32 (exactDot [(val32 ur, z 0), (val32 vr, z 1), (val32 wr_, z 2)]) dv
      if nan32 t || below32 t tmin || below32 tmax t then none
      else some ⟨t, div32 vr det, div32 wr_ det, leaf, dv.above0⟩

/-- RESULT (R335). -/
def hitResult (primid : Word) (h : Option Hit) : List Word :=
  match h with
  | some x => [x.t, x.u, x.v, BitVec.ofNat 32 x.leaf, primid, BitVec.ofNat 32 (1 + (if x.front then 2 else 0))]
  | none => [0x7F800000, 0, 0, 0xFFFFFFFF, primid, 0]
/-- The test of a triangle for a call. -/
def Call.test (c : Call) (leaf : Nat) (vs : List (List Word)) : Option Hit :=
  testTri (c.run 4 3) (c.run 7 3) (c.words.getD 10 0) (c.words.getD 11 0) (c.word 14) leaf vs

/-- LATTICE_TRI (R331, R335). DEDUCED (log entry 22; unsafe). -/
def execLatticeTri (call : Nat) (s : State) : Out :=
  match s.serve call .lat 1 with
  | none => .next s
  | some c =>
    if !c.rayOk then .next (s.unitReject c 2)
    else if !(s.spanOk c.ctx c.die (c.word 12) 64 .any) then .next (s.unitReject c 3)
    else
      let bs := (s.unitReads c).dieBytes c.die (c.word 12) 64
      let vs := [vec3At bs 0, vec3At bs 12, vec3At bs 24]
      if !(vs.all (fun v => v.all finite32)) then .next (s.unitReject c 2)
      else .next (s.returnCall c { status := 0, inst := s.instance_ c, result := hitResult (c.words.getD 13 0) (c.test 0 vs) }).bumpNonce

/-! ### Patches (R331 to R336) -/

/-- A PATCH record. -/
structure Patch where
  p : List (List Word)
  n : List (List Word)
  depth : Nat
  offBase : Nat
  scale : Word
  bias : Word
  bounds : Nat
  deriving DecidableEq, Repr
/-- The record in 128 bytes. -/
def Patch.of (bs : List Byte) : Patch :=
  { p := [vec3At bs 0, vec3At bs 12, vec3At bs 24], n := [vec3At bs 0x24, vec3At bs 0x30, vec3At bs 0x3C],
    depth := (wordAt bs 0x48).toNat, offBase := (wordAt bs 0x4C).toNat, scale := wordAt bs 0x50, bias := wordAt bs 0x54,
    bounds := (wordAt bs 0x58).toNat }
/-- The record keeps its layout. -/
def Patch.ok (p : Patch) (bs : List Byte) : Bool :=
  p.p.all (fun v => v.all finite32) && p.n.all (fun v => v.all finite32) && finite32 p.scale && finite32 p.bias &&
    decide (p.depth ≤ 7) && p.offBase % 4 == 0 && p.bounds % 4 == 0 && (bs.drop 0x5C).all (fun b => b == 0)
/-- idx(i, j) of R332. -/
def gridIdx (n i j : Nat) : Nat := j * (n + 1) - j * (j - 1) / 2 + i
/-- Points of the grid. -/
def gridLen (n : Nat) : Nat := (n + 1) * (n + 2) / 2
/-- Nodes of the levels below L. -/
def nodeBase (l : Nat) : Nat := (4 ^ l - 1) / 3
/-- The raw offset of a lattice point. -/
def State.gridAt (s : State) (die : Nat) (p : Patch) (q : Nat × Nat) : Nat :=
  leNat (s.dieBytes die (p.offBase + 2 * gridIdx (2 ^ p.depth) q.1 q.2) 2)
/-- Midpoint of two lattice points. -/
def midPt (a b : Nat × Nat) : Nat × Nat := ((a.1 + b.1) / 2, (a.2 + b.2) / 2)
/-- The corners of child `k` of a triangle (R333). -/
def childOf (k : Nat) (t : (Nat × Nat) × (Nat × Nat) × (Nat × Nat)) : (Nat × Nat) × (Nat × Nat) × (Nat × Nat) :=
  let m01 := midPt t.1 t.2.1
  let m02 := midPt t.1 t.2.2
  let m12 := midPt t.2.1 t.2.2
  match k with
  | 0 => (t.1, m01, m02)
  | 1 => (m01, t.2.1, m12)
  | 2 => (m02, m12, t.2.2)
  | _ => (m12, m02, m01)
/-- The corners of leaf `k` of a patch of depth `d`. -/
def leafCorners (d k : Nat) : (Nat × Nat) × (Nat × Nat) × (Nat × Nat) :=
  (List.range d).foldl (fun t l => childOf (k / 4 ^ (d - 1 - l) % 4) t) ((0, 0), (2 ^ d, 0), (0, 2 ^ d))
/-- The corners as a list. -/
def cornerList (t : (Nat × Nat) × (Nat × Nat) × (Nat × Nat)) : List (Nat × Nat) := [t.1, t.2.1, t.2.2]

/-- The displaced vertex of a lattice point (R333). -/
def Patch.vertex (p : Patch) (q : Nat × Nat) (g : Nat) : List Word :=
  let part (k : Nat) (x : Word) : Word := rnd32 (mulFV (.fin false k (-(p.depth : Int))) (val32 x)).1
  let mix (l : List (List Word)) (c : Nat) : Word :=
    let x (m : Nat) : Word := comp (l.getD m []) c
    add32 (add32 (x 0) (part q.1 (sub32 (x 1) (x 0)))) (part q.2 (sub32 (x 2) (x 0)))
  let h := add32 p.bias (rnd32 (mulFV (val32 p.scale) (intFV g)).1)
  (List.range 3).map (fun c => add32 (mix p.p c) (mul32 h (mix p.n c)))
/-- The hit of leaf `k`. -/
def State.leafHit (s : State) (c : Call) (p : Patch) (k : Nat) : Option Hit :=
  c.test k ((cornerList (leafCorners p.depth k)).map (fun q => p.vertex q (s.gridAt c.die p q)))
/-- The nearer of two hits, the first on equal t. -/
def nearerHit (a b : Option Hit) : Option Hit :=
  match a, b with
  | some x, some y => if cmp32 y.t x.t < 0 then b else a
  | none, _ => b
  | _, none => a
/-- MIN and MAX of node `k` of level `l`. -/
def State.nodeAt (s : State) (die : Nat) (p : Patch) (l k : Nat) : Nat × Nat :=
  let w := (s.dieWord die (p.bounds + 4 * (nodeBase l + k))).toNat
  (bitsOf w 0 16, bitsOf w 16 16)
/-- A node encloses the offsets of every lattice point under it (R336). -/
def State.encloses (s : State) (die : Nat) (p : Patch) (l k : Nat) : Bool :=
  let m := s.nodeAt die p l k
  let per := 4 ^ (p.depth - l)
  (List.range per).all (fun j => (cornerList (leafCorners p.depth (k * per + j))).all (fun q =>
    let g := s.gridAt die p q
    decide (m.1 ≤ g) && decide (g ≤ m.2)))
/-- Every node: level and number. -/
def Patch.nodes (p : Patch) : List (Nat × Nat) := (List.range (p.depth + 1)).flatMap (fun l => (List.range (4 ^ l)).map (fun k => (l, k)))
/-- The nearest hit of some leaves. -/
def State.bestHit (s : State) (c : Call) (p : Patch) (leaves : List Nat) : Option Hit :=
  leaves.foldl (fun a k => nearerHit a (s.leafHit c p k)) none

/-- PATCH (R335, R336): where some node fails to enclose, which of the two results is returned is not fixed; nor is which
nodes the unit reads, and so whether it meets one with MIN above MAX. DEDUCED (log entry 22; unsafe). -/
def execPatch (call : Nat) (s : State) : Out :=
  match s.serve call .lat 2 with
  | none => .next s
  | some c =>
    let primid := c.words.getD 13 0
    if !c.rayOk then .next (s.unitReject c 2)
    else if !(s.spanOk c.ctx c.die (c.word 12) 128 .any) then .next (s.unitReject c 3)
    else
      let r := s.unitReads c
      let bs := r.dieBytes c.die (c.word 12) 128
      let p := Patch.of bs
      if !(p.ok bs) then .next (s.unitReject c 2)
      else if !(s.spanOk c.ctx c.die p.offBase (2 * gridLen (2 ^ p.depth)) .any &&
          s.spanOk c.ctx c.die p.bounds (4 * nodeBase (p.depth + 1)) .any) then .next (s.unitReject c 3)
      else
        let bad := p.nodes.filter (fun q => let m := r.nodeAt c.die p q.1 q.2; decide (m.2 < m.1))
        let inst := s.instance_ c
        if !bad.isEmpty && Config.freeBool (freeKey s.nonce 49 0 0) then
          let q := (bad[(Config.freeWord (freeKey s.nonce 49 0 1)).toNat % bad.length]?).getD (0, 0)
          .next ((s.returnCall c { status := 0x10, inst := inst, detail := q.1, result := hitResult primid none }).bumpNonce)
        else
          let fails := p.nodes.filter (fun q => !(r.encloses c.die p q.1 q.2))
          let all := List.range (4 ^ p.depth)
          let clean := all.filter (fun k => fails.all (fun q => k / 4 ^ (p.depth - q.1) != q.2))
          let pruned := !fails.isEmpty && Config.freeBool (freeKey s.nonce 49 0 2)
          let h := r.bestHit c p (if pruned then clean else all)
          .next ((s.returnCall c { status := 0, inst := inst, result := hitResult primid h }).bumpNonce)

end Sys2Proof.Machine
end

