-- ==== Sys2Proof/Machine/Glaze.lean ====
section
/-!
DEFINITION. The Glaze unit (R329, R337 to R341): filtered texture samples, and the network that decodes latent texels.
-/

namespace Sys2Proof.Machine

/-! ### Descriptors (R337, R338) -/

/-- A texture descriptor. -/
structure Tex where
  base : Nat
  w : Nat
  h : Nat
  clamp : Bool
  filter : Nat
  format : Nat
  levels : Nat
  net : Nat
  deriving DecidableEq, Repr
/-- The descriptor in 64 bytes. -/
def Tex.of (bs : List Byte) : Tex :=
  let c := (wordAt bs 8).toNat
  { base := (wordAt bs 0).toNat, w := halfAt bs 4, h := halfAt bs 6, clamp := bitOf c 10, filter := bitsOf c 8 2,
    format := bitsOf c 4 3, levels := bitsOf c 0 4, net := (wordAt bs 12).toNat }
/-- A latent format. -/
def Tex.latent (x : Tex) : Bool := x.format == 3 || x.format == 4
/-- The descriptor keeps its layout and suits DECODE or SAMPLE. -/
def Tex.ok (x : Tex) (bs : List Byte) (decode_ : Bool) : Bool :=
  let c := (wordAt bs 8).toNat
  let dim (n : Nat) : Bool := decide (1 ≤ n) && decide (n ≤ 8192)
  x.base % 16 == 0 && dim x.w && dim x.h && bitsOf c 11 21 == 0 && !(bitOf c 7) && x.filter != 3 &&
    decide (x.format ≤ 4) && x.latent == decode_ && decide (1 ≤ x.levels) && decide (x.levels ≤ 14) &&
    (if decode_ then x.net % 64 == 0 else x.net == 0) && (bs.drop 16).all (fun b => b == 0)
/-- Element type of a format. -/
def Tex.elTy (x : Tex) : ElTy := match x.format with | 0 => .f32 | 1 => .f16 | 2 => .fn8 | 3 => .bf16 | _ => .fn8
/-- Channels of a texel. -/
def Tex.channels (x : Tex) : Nat := if x.latent then 8 else 4
/-- Bytes of a texel: TB. -/
def Tex.bytes (x : Tex) : Nat := x.channels * x.elTy.bits / 8
/-- Width and height of a level. -/
def Tex.size (x : Tex) (l : Nat) : Nat × Nat :=
  let s (n : Nat) : Nat := if n / 2 ^ l = 0 then 1 else n / 2 ^ l
  (s x.w, s x.h)
/-- Texels of the levels below `l`. -/
def Tex.before (x : Tex) (l : Nat) : Nat := ((List.range l).map (fun m => (x.size m).1 * (x.size m).2)).sum
/-- Address of a texel. -/
def Tex.at_ (x : Tex) (l i j : Nat) : Nat := x.base + x.bytes * x.before l + x.bytes * (j * (x.size l).1 + i)
/-- A coordinate wrapped into `n` texels. -/
def Tex.wrap (x : Tex) (n : Nat) (k : Int) : Nat :=
  if x.clamp then (if k < 0 then 0 else if (n : Int) ≤ k then n - 1 else k.toNat) else (k % (n : Int)).toNat
/-- A channel of a texel, its coordinates wrapped. -/
def State.texel (s : State) (die : Nat) (x : Tex) (l : Nat) (i j : Int) (ch : Nat) : FV :=
  let a := x.at_ l (x.wrap (x.size l).1 i) (x.wrap (x.size l).2 j)
  let e := x.elTy.bits / 8
  (elFmt x.elTy).value (leNat (s.dieBytes die (a + e * ch) e))

/-! ### Filtering (R339) -/

/-- floor of an encoding, and its fraction taken exactly. -/
def floor32 (w : Word) : Int :=
  match val32 w with
  | .fin n m e =>
    if 0 ≤ e then scaled n m e 0
    else
      let q : Int := ((m / 2 ^ (-e).toNat : Nat) : Int)
      if n then (if m % 2 ^ (-e).toNat = 0 then -q else -q - 1) else q
  | _ => 0
/-- The encoding of an integer. -/
def int32w (k : Int) : Word := rnd32 (intFV k)
/-- One filtered channel of a level, by its nearest texel. -/
def State.nearest (s : State) (die : Nat) (x : Tex) (u v : Word) (l ch : Nat) : Word :=
  rnd32 (s.texel die x l (floor32 (mul32 u (int32w (x.size l).1))) (floor32 (mul32 v (int32w (x.size l).2))) ch)
/-- One filtered channel of a level, bilinear; the fractions are exact, every other step rounds once, and a sum of zero
is +0 (R339). DEDUCED (log entry 49; unsafe). -/
def State.bilinear (s : State) (die : Nat) (x : Tex) (u v : Word) (l ch : Nat) : Word :=
  let half : Word := 0x3F000000
  let sx := sub32 (mul32 u (int32w (x.size l).1)) half
  let sy := sub32 (mul32 v (int32w (x.size l).2)) half
  let x0 := floor32 sx
  let y0 := floor32 sy
  let frac (w : Word) : FV := (addFV .rne (val32 w) (intFV (floor32 w)).negate).1
  let fx := frac sx
  let fy := frac sy
  let left (f : FV) : FV := val32 (rnd32 (addFV .rne (.fin false 1 0) f.negate).1)
  let gx := left fx
  let gy := left fy
  let term (a b : FV) (i j : Int) : FV × FV := (val32 (rnd32 (mulFV a b).1), s.texel die x l i j ch)
  rnd32 (exactDot [term gx gy x0 y0, term fx gy (x0 + 1) y0, term gx fy x0 (y0 + 1), term fx fy (x0 + 1) (y0 + 1)])
/-- λ of R339: LOD limited to 0 … LEVELS − 1. -/
def Tex.lambda (x : Tex) (lod : Word) : Word :=
  let top := int32w ((x.levels : Int) - 1)
  if cmp32 lod 0 ≤ 0 then 0 else if cmp32 top lod < 0 then top else lod
/-- One filtered channel (R339). -/
def State.filtered (s : State) (die : Nat) (x : Tex) (u v lod : Word) (ch : Nat) : Word :=
  let lam := x.lambda lod
  let l0 := (floor32 lam).toNat
  match x.filter with
  | 0 => s.nearest die x u v l0 ch
  | 1 => s.bilinear die x u v l0 ch
  | _ =>
    let l1 := if l0 + 1 < x.levels then l0 + 1 else x.levels - 1
    let f := sub32 lam (int32w l0)
    let g := sub32 0x3F800000 f
    rnd32 (exactDot [(val32 g, val32 (s.bilinear die x u v l0 ch)), (val32 f, val32 (s.bilinear die x u v l1 ch))])

/-! ### The network (R340) -/

/-- A BF16 weight of the network block. -/
def State.weight (s : State) (die net off : Nat) : FV := ffBF16.value (leNat (s.dieBytes die (net + off) 2))
/-- The outputs o0 to o5 for the inputs x0 to x11 (R340); a sum of zero is +0. DEDUCED (log entry 49; unsafe). -/
def State.network (s : State) (die net : Nat) (xs : List Word) : List Word :=
  let xv := xs.map val32
  let hid (r : Nat) : Word :=
    let h := rnd32 (exactSum (s.weight die net (0x180 + 2 * r) ::
      xv.zipIdx.map (fun p => (mulFV (s.weight die net (2 * (12 * r + p.2))) p.1).1)))
    if !nan32 h && !(val32 h).above0 then 0 else h
  let hs := ((List.range 16).map hid).map val32
  (List.range 6).map (fun k => rnd32 (exactSum (s.weight die net (0x260 + 2 * k) ::
    hs.zipIdx.map (fun p => (mulFV (s.weight die net (0x1A0 + 2 * (16 * k + p.2))) p.1).1))))

/-! ### Calls (R329, R337) -/

/-- The payload keeps its layout: coordinates in range, DESC aligned, extra inputs finite, the rest zero. -/
def Call.texOk (c : Call) (decode_ : Bool) : Bool :=
  let coord (w : Word) : Bool := finite32 w && decide (cmp32 (w &&& 0x7FFFFFFF) 0x47800000 ≤ 0)
  (c.run 4 2).all coord && c.word 7 % 64 == 0 && (c.run 12 4).all (fun w => w == 0) &&
    (c.run 8 4).all (fun w => if decode_ then finite32 w else w == 0)
/-- A Glaze call: the checks, then RESULT from the descriptor. DEDUCED (log entry 22; unsafe). -/
def performGlaze (op : Nat) (decode_ : Bool) (call : Nat) (result : State → Call → Tex → List Word) (s : State) : Out :=
  match s.serve call .glz op with
  | none => .next s
  | some c =>
    if !c.texOk decode_ then .next (s.unitReject c 2)
    else if !(s.spanOk c.ctx c.die (c.word 7) 64 .any) then .next (s.unitReject c 3)
    else
      let r := s.unitReads c
      let bs := r.dieBytes c.die (c.word 7) 64
      let x := Tex.of bs
      if !(x.ok bs decode_) then .next (s.unitReject c 2)
      else if !(s.spanOk c.ctx c.die x.base (x.bytes * x.before x.levels) .any) ||
          (decode_ && !(s.spanOk c.ctx c.die x.net 640 .any)) then .next (s.unitReject c 3)
      else if nan32 (c.words.getD 6 0) then .next (s.unitReject c 0x11)
      else .next (s.returnCall c { status := 0, inst := s.instance_ c, result := result r c x }).bumpNonce
/-- The filtered channels that a call names. -/
def State.channelsOf (s : State) (c : Call) (x : Tex) : List Word :=
  (List.range x.channels).map (s.filtered c.die x (c.words.getD 4 0) (c.words.getD 5 0) (c.words.getD 6 0))
/-- SAMPLE (R339). -/
def execSample (call : Nat) (s : State) : Out := performGlaze 1 false call (fun s c x => s.channelsOf c x) s
/-- DECODE (R340). -/
def execDecodeCall (call : Nat) (s : State) : Out :=
  performGlaze 2 true call (fun s c x => s.network c.die x.net (s.channelsOf c x ++ c.run 8 4)) s

end Sys2Proof.Machine
end

