-- ==== Sys2Proof/Machine/Pages.lean ====
section
/-!
DEFINITION. Pages as the Proofer keeps them: HBM frames, PAGE_IN and COW_RESOLVE (R376 to R378, R298), the end of
accesses to a page (R379), and the Proofer's own reads and writes of main memory in view 4 (R352).
-/

namespace Sys2Proof.Machine

/-! ### HBM frames (R267, R378, R384, R390) -/

/-- Bytes of one HBM stack. -/
abbrev stackBytes : Nat := 64 * 2 ^ 30
/-- Ranges of HBM that a new frame may not take: pages that live there, retired pages, a stack in service. -/
def State.usedHbm (s : State) : List (Nat × Nat) :=
  s.contexts.flatMap (fun c => c.pages.filterMap (fun p => match p.place with | .resident pa => some (pa, p.size) | _ => none)) ++
    s.retiredPages.map (fun n => (65536 * n, 65536)) ++
    (match s.hub.svc with | some ⟨.stack n, _⟩ => [(stackBytes * n, stackBytes)] | _ => [])
/-- Two ranges have no byte in common. -/
def apart (a n b m : Nat) : Bool := decide (a + n ≤ b) || decide (b + m ≤ a)
/-- The lowest frame of HBM of a size that no listed range touches. DESIGN CHOICE (log entry 7; unsafe). -/
def lowestFrame (used : List (Nat × Nat)) (size : Nat) : Option Nat :=
  let ok (a : Nat) : Bool := decide (a + size ≤ Config.hbmBytes) && used.all (fun r => apart a size r.1 r.2)
  ((0 :: used.map (fun r => roundUp (r.1 + r.2) size)).filter ok).min?
/-- A frame for a context, if its quota and HBM have room (R390). DESIGN CHOICE (log entry 7; unsafe). -/
def State.frameFor (s : State) (ctx size : Nat) : Option Nat :=
  match s.ctx? ctx with
  | none => none
  | some c => if c.hbmUsed + size ≤ c.hbmQuota then lowestFrame s.usedHbm size else none

/-! ### The contents of a new frame (R298) -/

/-- The addresses of a range that a list of cells names. -/
def namedIn (a n : Nat) (cells : List Host.Cell) : List Nat :=
  (cells.filter (fun c => decide (a ≤ c.1) && decide (c.1 < a + n))).map Prod.fst
/-- The addresses of a range that hold, or are about to hold, a listed byte in some view. -/
def State.heldIn (s : State) (a n : Nat) : List Nat :=
  (s.views.flatMap (fun v => namedIn a n v.mem) ++ s.carried.flatMap (fun w => namedIn a n w.cells)).eraseDups
/-- The cells that fill a frame: the offsets listed take their bytes, every other byte is zero. -/
def State.fillCells (s : State) (dst size : Nat) (new : List (Nat × Byte)) : List Host.Cell :=
  let offs := (new.map Prod.fst ++ (s.heldIn dst size).map (fun a => a - dst)).eraseDups
  (offs.filter (fun o => decide (o < size))).map (fun o =>
    (dst + o, match new.find? (fun p => p.1 == o) with | some p => p.2 | none => 0))
/-- The bytes of a page as view 4 holds them, by offset. -/
def State.pageBytes (s : State) (src size : Nat) : List (Nat × Byte) :=
  ((s.view 4).mem.filter (fun c => decide (src ≤ c.1) && decide (c.1 < src + size))).map (fun c => (c.1 - src, c.2))
/-- Every die's view catches up with view 4. -/
def State.catchUpAll (s : State) : State := [0, 1, 2, 3].foldl (fun a v => a.catchUp v (a.view 4).clock) s
/-- View 4 catches up with every die's view, so that what the Proofer reads includes their earlier writes (R284). -/
def State.gather (s : State) : State := [0, 1, 2, 3].foldl (fun a v => a.catchUp 4 (a.view v).clock) s
/-- A frame is filled by view 4, and every die sees it before it is used (R298). DESIGN CHOICE (log entry 7; unsafe). -/
def State.fill (s : State) (dst size : Nat) (new : List (Nat × Byte)) : State :=
  (s.writeMain 4 (s.fillCells dst size new) { fills := true }).catchUpAll

/-! ### Changing pages -/

/-- Change the page of a context at a virtual address. -/
def State.modPage (s : State) (ctx va : Nat) (f : Page → Page) : State :=
  s.modCtx ctx (fun c => { c with pages := replaceIf (fun p => p.va == va) f c.pages })
/-- Bytes are charged to a context's quota. -/
def State.charge (s : State) (ctx n : Nat) : State := s.modCtx ctx (fun c => { c with hbmUsed := c.hbmUsed + n })
/-- Nothing waits any longer for pages of a range. -/
def State.unstall (s : State) (ctx va size : Nat) : State :=
  let hit (x : Option Nat) : Bool := match x with | some a => decide (va ≤ a) && decide (a < va + size) | none => false
  { s with copies := replaceIf (fun c => c.ctx == ctx && hit c.stalled) (fun c => { c with stalled := none }) s.copies,
           cmdqs := replaceIf (fun q => q.ctx == ctx && hit q.stalled) (fun q => { q with stalled := none }) s.cmdqs }
/-- A page cannot be made ready: copies that stall on it meet an unresolvable fault (R377), and a queue that stalls on
it goes on without it. -/
def State.pageLost (s : State) (ctx va : Nat) : State :=
  let l := s.copies.filter (fun c => c.ctx == ctx && c.stalled == some va)
  let s1 := l.foldl State.copyFault s
  { s1 with cmdqs := replaceIf (fun q => q.ctx == ctx && q.stalled == some va)
                       (fun q => { q with stalled := none, lost := some va }) s1.cmdqs }
/-- The page of a context that starts at a virtual address. -/
def State.pageAt (s : State) (ctx va : Nat) : Option Page :=
  match s.ctx? ctx with | some c => c.pages.find? (fun p => p.va == va) | none => none

/-- A COW page gets a private frame (R378); none when there is no frame or its contents are lost. -/
def State.resolveCow (s : State) (ctx va : Nat) : Option State :=
  match s.pageAt ctx va with
  | none => none
  | some p =>
    match p.place with
    | .resident pa =>
      if p.cow = false ∨ s.retiredIn pa p.size = true then none
      else
        match s.frameFor ctx p.size with
        | none => none
        | some f =>
          let s0 := s.gather
          let s1 := s0.fill f p.size (s0.pageBytes pa p.size)
          let put (x : Page) : Page := { x with place := .resident f, write := true, cow := false, owned := true }
          some (((s1.modPage ctx va put).charge ctx p.size).unstall ctx va p.size)
    | _ => none
/-- A page is made resident with the bytes given (R377). -/
def State.makeResident (s : State) (ctx : Nat) (p : Page) (new : List (Nat × Byte)) : Option State :=
  match s.frameFor ctx p.size with
  | none => none
  | some f =>
    let s1 := s.fill f p.size new
    some (((s1.modPage ctx p.va (fun x => { x with place := .resident f, owned := true })).charge ctx p.size).unstall ctx p.va p.size)

/-! ### Who waits for a page -/

/-- A copy, a queue or a dispatch table waits for a page. -/
def State.pageWanted (s : State) (ctx : Nat) (p : Page) : Bool :=
  s.copies.any (fun c => c.ctx == ctx && c.stalled == some p.va) || s.cmdqs.any (fun q => q.ctx == ctx && q.stalled == some p.va) ||
    s.taskqs.any (fun q => q.ctx == ctx && q.dtable != 0 && !q.stopped && decide (q.head < q.tail) &&
      !(apart (q.dtable + 256 * q.dnode) 256 p.va p.size))
/-- COW_RESOLVE (R378). -/
def execCowResolve (ctx va : Nat) (s : State) : Out :=
  match s.pageAt ctx va with
  | none => .next s
  | some p =>
    if !(s.copies.any (fun c => c.ctx == ctx && c.stalled == some va)) || !p.cow then .next s
    else
      match p.place with
      | .resident _ => match s.resolveCow ctx va with | some t => .next t | none => .next (s.pageLost ctx va).bumpNonce
      | _ => .next s
/-- What the backing of a page holds, by offset; none when it cannot be read. `data` is what a peer sends. -/
def State.backing (s : State) (p : Page) (data : List (Nat × Byte)) : Option (List (Nat × Byte)) :=
  match p.place with
  | .cxl pa => if s.retiredIn pa p.size then none else some (s.pageBytes pa p.size)
  | .remote _ _ => some data
  | .resident _ => none

/-! ### The Proofer's own accesses (R347, R351, R352) -/

/-- The addresses at which a span meets a page anew. -/
def pagePoints (va n : Nat) : List Nat :=
  va :: ((List.range (n / 65536 + 2)).map (fun k => (va / 65536 + 1 + k) * 65536)).filter (fun a => decide (a < va + n))
/-- What a span meets: every byte at hand, a page to make resident, or a page that cannot be. -/
inductive Span where | ready | pageIn (va : Nat) | bad
  deriving DecidableEq, Repr
/-- The Proofer's access to a span (R351): a COW page is resolved when it is written. `lost` is a page that could not
be made resident. DEDUCED (log entry 24; unsafe). -/
def State.span (s : State) (ctx va n : Nat) (wr : Bool) (lost : Option Nat) : Span :=
  let look (a : Nat) : Span :=
    match s.translate ctx a wr with
    | .at _ => .ready
    | .pageIn p => if lost = some p then .bad else .pageIn p
    | .cow p => if (s.resolveCow ctx p).isSome then .ready else .bad
    | .unresolvable => .bad
  let l := (pagePoints va n).map look
  if l.contains .bad then .bad else (l.find? (fun x => x != .ready)).getD .ready
/-- Every COW page of a span is resolved. DEDUCED (log entry 24; unsafe). -/
def State.resolveSpan (s : State) (ctx va n : Nat) : State :=
  (pagePoints va n).foldl (fun a x =>
    match a.translate ctx x true with
    | .cow p => (match a.resolveCow ctx p with | some t => t | none => a)
    | _ => a) s
/-- The pages of a span that lie in the CXL tier are made resident, where a frame and the backing allow it (R377, R390); one
that a peer backs waits for a PAGE_IN. DEDUCED (log entry 23; unsafe). -/
def State.touch (s : State) (ctx va n : Nat) : State :=
  (pagePoints va n).foldl (fun a x =>
    match (a.ctx? ctx).bind (fun c => c.page? x) with
    | none => a
    | some p =>
      let waits := a.translate ctx x false == .pageIn p.va || a.translate ctx x true == .pageIn p.va
      match p.place, waits with
      | .cxl _, true => let a0 := a.gather; ((a0.backing p []).bind (a0.makeResident ctx p)).getD a
      | _, _ => a) s
/-- A write by view 4 at a virtual address, if its pages can be written as they stand, once copied or once resident. -/
def State.writeVirt (s : State) (ctx va : Nat) (bs : List Byte) : State :=
  let s := s.touch ctx va bs.length
  match s.span ctx va bs.length true none with
  | .ready =>
    let s1 := s.resolveSpan ctx va bs.length
    (match s1.virtCells ctx va bs with | some cells => s1.writeMain 4 cells {} | none => s1)
  | _ => s

/-! ### The end of accesses to a page (R379) -/

/-- A byte of a copy lies in a range of virtual addresses. -/
def Copy.inPage (c : Copy) (va size n : Nat) : Bool := decide (va ≤ c.mainAddr (c.pos n)) && decide (c.mainAddr (c.pos n) < va + size)
/-- The bytes of a copy in a range, when some of them have been read from it or written to it: the copy has translated the
page. -/
def Copy.begunIn (c : Copy) (va size : Nat) : List Nat :=
  let ns := (List.range c.total).filter (c.inPage va size)
  if c.onMain && ns.any (fun n => if c.kind = .g2s then !(c.unread n) else c.done.contains n) then ns else []
/-- The bytes that a copy has yet to read from a page are read as the page stands. -/
def State.finishReads (s : State) (c : Copy) (ns : List Nat) : State :=
  let l := ns.filter c.unread
  if worstHold (l.map (s.sideHold c c.src false)) = .bad then s.copyFault c
  else (s.readSrc c l).modCopy c.id (fun c => { c with buf := c.readIn l (s.srcByte c) })
/-- The unit of a byte is written as its page stands. -/
def State.finishWrite (s : State) (id n : Nat) : State :=
  match s.copy? id with
  | none => s
  | some c =>
    let ns := s.unitBytes c (s.unitOf c n)
    if c.done.contains n then s
    else
      match s.unitHold c ns with
      | .go => (s.writeUnit c ns (s.srcByte c)).bumpNonce
      | .bad => (s.copyFault c).bumpNonce
      | .page _ => s
/-- A copy finishes its accesses to a page: of its two sides one at most lies in main memory, so that nothing else than a
fault stops them. -/
def State.finishCopyPage (s : State) (c : Copy) (va size : Nat) : State :=
  let ns := c.begunIn va size
  if c.kind = .g2s then s.finishReads c ns else ns.foldl (fun a n => a.finishWrite c.id n) s
/-- Every copy that has translated a page finishes its accesses to it with the old translation (R379).
DEDUCED (log entry 33; unsafe). -/
def State.finishPage (s : State) (ctx va size : Nat) : State :=
  (s.copies.filter (fun c => c.ctx == ctx)).foldl (fun a c => a.finishCopyPage c va size) s

end Sys2Proof.Machine
end

