-- ==== Sys2Proof/Machine/Save.lean ====
section
/-!
DEFINITION. Save areas (R48 to R56, R230, R369 to R373): the halt of teams, their images, SAVE, and the team that a
save area gives back.
-/

namespace Sys2Proof.Machine

/-! ### Layout (R49 to R55, R373) -/

/-- FORMAT of a kind of save area (R49). -/
def formatWord (kind : Nat) : Word := BitVec.ofNat 32 (kind * 2 ^ 16 + 1)
/-- Bytes of a team save area, its operand-buffer bytes included (R52). -/
def teamArea (shsize opKiB : Nat) : Nat := roundUp (0x2000 + roundUp shsize 64 + 1024 * opKiB) 64
/-- Bytes of a group save area (R50). -/
def groupArea (vblk : Nat) : Nat := 0x2900 + 1024 * vblk
/-- Bytes of a matrix save area (R55). -/
abbrev matrixArea : Nat := 0x10100
/-- The save need of a team (R373). -/
def saveNeed (shsize opKiB stack : Nat) (vblks : List Nat) : Nat :=
  teamArea shsize opKiB + (vblks.map (fun v => roundUp (groupArea v) 64 + roundUp stack 64)).sum + matrixArea
/-- Offset of a group's save area in the team's place. -/
def groupOff (shsize opKiB stack : Nat) (vblks : List Nat) (i : Nat) : Nat :=
  teamArea shsize opKiB + ((vblks.take i).map (fun v => roundUp (groupArea v) 64 + roundUp stack 64)).sum
/-- Offset of the matrix save area in the team's place. -/
def matrixOff (shsize opKiB stack : Nat) (vblks : List Nat) : Nat := groupOff shsize opKiB stack vblks vblks.length

/-! ### Images (R50 to R55) -/

/-- A number of zero bytes. -/
def zeros (n : Nat) : List Byte := List.replicate n 0
/-- A 1,024-bit vector of threads in team. -/
def vecBytes (l : List Nat) : List Byte := leBytes 128 (bitsMask l)
/-- TSTATE (R51). -/
def tstateOf (th : Thread) (depth : Nat) : Nat :=
  (th.p ||| 1).toNat + depth * 2 ^ 8 + (if th.helper then 2 ^ 11 else 0) + (if th.exited then 2 ^ 12 else 0) +
    (if th.intrap then 2 ^ 13 else 0)
/-- A thread block (R51) of a thread as it stands, a wait-parked one at its wait (R56). -/
def threadImage (nonce key : Nat) (x : Thread) : List Byte :=
  let th := x.atWait
  dwordBytes th.pc ++ dwordBytes th.mr ++ leBytes 8 (tstateOf th th.loops.length) ++ zeros 8 ++ loopImage th.loops ++
    tImage nonce key th ++ dwordBytes th.trappc ++ dwordBytes th.trapinfo ++ leBytes 4 th.cause.toNat ++
    wordBytes th.clkHi ++ zeros 40
/-- A group save area (R50). DEDUCED (log entry 27; unsafe). -/
def groupImage (nonce key : Nat) (g : Group) : List Byte :=
  wordBytes (formatWord 1) ++ wordBytes (groupIdWord g) ++ leBytes 4 (if g.ftz then 1 else 0) ++
    leBytes 4 (if g.chksb then 1 else 0) ++ leBytes 4 g.nflags.toNat ++ leBytes 4 g.role.toNat ++
    leBytes 4 (g.blocks.headD 0) ++
    leBytes 4 ((if g.latch.valid then 1 else 0) + g.latch.code * 2) ++ zeros 224 ++
    g.threads.zipIdx.flatMap (fun p => threadImage nonce (key * 32 + p.2) p.1) ++
    (List.range 256).flatMap (fun i => wordBytes (g.latch.rows.read i)) ++
    (List.range 256).flatMap (fun n => wordBytes (g.k.read n)) ++
    (List.range (8 * g.vblk)).flatMap (fun v => g.threads.flatMap (fun th => wordBytes (th.v.read v)))
/-- CVSTATE (R228). -/
def cvstateWord (steps : List MStep) (c : CvReg) : Word :=
  let qpos := match c.step with | some n => steps.findIdx (fun st => st.id == n) | none => 0
  BitVec.ofNat 32 ((if qpos < steps.length then qpos else 0) % 8 * 2 ^ 28 + c.acode % 2 ^ 11 * 2 ^ 16 +
    (if c.reuse then 2 ^ 15 else 0) + c.fmt % 8 * 2 ^ 12 + c.xidx % 16 * 2 ^ 8 + c.acc % 16 * 2 ^ 4 +
    (if c.params then 4 else 0) + (if c.done then 2 else 0) + (if c.issued then 1 else 0))
/-- A convergence block (R54). -/
def cvImage (steps : List MStep) (c : CvReg) : List Byte :=
  leBytes 128 c.declared.toNat ++ leBytes 128 c.signed.toNat ++ wordBytes (cvstateWord steps c) ++ zeros 28
/-- A frontier entry (R53); its waiting vector holds every thread that waits in it (R256). -/
def entryImage (t : Team) (slot : Nat) : List Byte :=
  match t.frontier.find? (fun e => e.slot == slot) with
  | none => zeros 0x90
  | some e =>
    let ths := (t.all.filter (fun p => p.2.2.place == .entry slot)).map (fun p => 32 * p.1 + p.2.1)
    dwordBytes e.addr ++ leBytes 1 e.age ++ leBytes 1 1 ++ zeros 6 ++ vecBytes ths
/-- The threads of a team that satisfy a test, by index in team. -/
def Team.those (t : Team) (p : Thread → Bool) : List Nat := (t.all.filter (fun x => p x.2.2)).map (fun x => 32 * x.1 + x.2.1)
/-- The operand-buffer bytes of the valid X records, in ascending X index (R52). -/
def Team.opImage (t : Team) : List Byte :=
  (List.range 16).flatMap (fun x => if (t.xrec x).valid then t.opbuf.readN (1024 * (t.xrec x).base) (1024 * (t.xrec x).size) else [])
/-- A team save area (R52). DEDUCED (log entry 27; unsafe). -/
def teamImage (steps : List MStep) (t : Team) : List Byte :=
  wordBytes (formatWord 2) ++ wordBytes t.teamid ++ wordBytes (clusterIdWord t) ++ leBytes 4 t.shsize ++ dwordBytes t.handler ++
    dwordBytes t.budget ++ wordBytes (match t.matctx with | some n => BitVec.ofNat 32 n | none => 0xFFFFFFFF) ++
    leBytes 4 t.groups.length ++ zeros 24 ++ dwordBytes (if t.curEmpty then 0 else t.curaddr) ++ zeros 56 ++ vecBytes (t.those Thread.current) ++
    vecBytes (t.those (fun th => th.wait.isSome || th.place == .overflow)) ++ vecBytes (t.those Thread.deferred) ++
    (List.range 32).flatMap (entryImage t) ++ (padTo 16 0 t.x).flatMap (fun x => leBytes 16 x.toNat) ++
    (padTo 8 CvReg.blank t.cv).flatMap (cvImage steps) ++ vecBytes (t.those (fun th => th.wait.isSome)) ++ zeros 384 ++
    (List.range (roundUp t.shsize 64)).map (fun i => if i < t.shsize then t.sharedByte i else 0) ++ t.opImage
/-- A matrix save area (R55). -/
def matrixImage (t : Team) (m : MatCtx) : List Byte :=
  wordBytes (formatWord 3) ++ wordBytes (accstatWord m) ++ wordBytes t.teamid ++ leBytes 4 t.ctx ++ zeros 0xF0 ++
    (List.range 16384).flatMap (fun k => wordBytes (m.acc.read k))

/-! ### The halt (R369, R370) -/

/-- A team stands halted: an instruction of it that back-pressure holds part-way stops where it is (R370). -/
def Team.halt (t : Team) : Team := { t with halted := t.killed.isNone, groups := t.groups.map (fun g => { g with held := false, tokWait := none }) }
/-- The core of these teams holds the pre-emption request: no instruction of theirs begins, no Sieve of theirs selects,
and their claims leave the slices' queues, as do records of stalled spawns (R370). -/
def State.haltTeams (s : State) (ids : List Nat) : State :=
  State.askRound { s with
    teams := replaceIf (fun t => ids.contains t.id) Team.halt s.teams, claims := s.claims.filter (fun q => !(ids.contains q.team)),
    pushes := s.pushes.filter (fun p => !(p.by_.isSome && ids.contains p.team)) }

/-! ### The drain (R118, R303, R371) -/

/-- A contribution or read of a team that an input buffer holds. -/
def EstReq.ofTeam (t : Team) : EstReq → Bool
  | .contrib c => c.ctx == t.ctx && c.die == t.die && c.core == t.core && c.teamid == t.teamid
  | .read id _ _ _ _ _ _ => id == t.id
/-- Every operation that a team has issued is performed: pending results, copies, calls, estimator requests, and the
carrying of its writes, late accesses and region commands. Its Cutter and Icing calls have left the core's buffers; their
records may yet be due (R118). -/
def State.quiet (s : State) (t : Team) : Bool :=
  t.groups.all (fun g => g.ops.isEmpty) && s.copies.all (fun c => c.team != t.id) &&
    s.calls.all (fun c => c.team != t.id || (c.accepted && !c.kind.stateless)) &&
    s.est.all (fun u => u.inbuf.all (fun r => !(r.ofTeam t))) && s.carried.all (fun w => w.team != some t.id) &&
    s.late.all (fun l => l.by_.team != t.id) && s.regionOps.all (fun o => o.by_.team != t.id)
/-- What is completed before any state of a pre-empted team is saved (R326, R342, R371): the Lattice and Glaze calls of every
team of its context that has come to a stop, and what its Cutter and Icing calls do at their units. -/
def State.callsSettled (s : State) (t : Team) : Bool :=
  let stopped (id : Nat) : Bool := match s.team? id with | some u => u.halted || u.killed.isSome | none => false
  s.calls.all (fun c => if c.kind.stateless then c.ctx != t.ctx || !(stopped c.team) else c.team != t.id || c.waiting)
/-- No step of the team is in execution. -/
def State.noStep (s : State) (t : Team) : Bool := match s.matctxOf t with | some m => m.running.isNone | none => true

/-! ### SAVE (R230, R371, R372) -/

/-- What a saved group keeps beside its area. -/
def Group.saved (g : Group) : SavedGroup :=
  { vblk := g.vblk, clause := g.clauseAt, claim := g.claim, latchHeld := g.latch.held,
    threads := g.threads.map (fun th => (th.atWait.tdef, th.faults)) }
/-- What a saved team keeps beside its areas. DEDUCED (log entry 27; unsafe). -/
def State.savedOf (s : State) (t : Team) (off len : Nat) : SavedTeam :=
  { ctx := t.ctx, id := t.id, origin := t.origin, teamid := t.teamid, clusterNo := t.clusterNo, tic := t.tic, die := t.die,
    firstCore := t.firstCore,
    off := off, len := len, shsize := t.shsize, stackSize := t.stackSize, opSize := t.opSize, opBase := t.opBase,
    budgeted := t.budgeted, matrix := t.matctx.isSome, groups := t.groups.map Group.saved, windows := t.windows,
    retired := t.retired, doomed := none, sharedKey := t.sharedKey, sharedSet := t.shared.map Prod.fst, cv := t.cv,
    steps := (match s.matctxOf t with | some m => m.pending | none => []),
    seq := (match s.matctxOf t with | some m => m.seq | none => []) }
/-- A matrix context frozen with its pending steps (R230). -/
def MatCtx.frozen (m : MatCtx) : MatCtx :=
  match m.pending with
  | [] => m.unreserved
  | st :: _ => { m with resv := true, accf := st.acc, resk := m.seq.getD st.acc 0 }
/-- Ranges of a context's save region in use (R373): placed teams and saved ones. -/
def State.savePlaces (s : State) (ctx : Nat) : List (Nat × Nat) :=
  (s.teams.filter (fun t => t.ctx == ctx)).map (fun t => (t.saveOff, t.saveLen)) ++
    (s.saved.filter (fun x => x.ctx == ctx)).map (fun x => (x.off, x.len))
/-- The lowest place of a length that no listed range touches. DEDUCED (log entry 26; unsafe). -/
def lowestPlace (used : List (Nat × Nat)) (len : Nat) : Nat :=
  ((0 :: used.map (fun r => r.1 + r.2)).filter (fun a => used.all (fun r => r.2 == 0 || apart a len r.1 r.2))).min?.getD 0
/-- The images of a team, with their offsets in its place. -/
def State.images (s : State) (t : Team) : List (Nat × List Byte) :=
  let vs := t.groups.map (fun g => g.vblk)
  let m := s.matctxOf t
  let steps := match m with | some m => m.pending | none => []
  [(0, teamImage steps t)] ++
    t.groups.zipIdx.flatMap (fun p =>
      let o := groupOff t.shsize t.opSize t.stackSize vs p.2
      [(o, groupImage s.nonce (t.id * 32 + p.2) p.1), (o + roundUp (groupArea p.1.vblk) 64, p.1.stack.readN 0 (roundUp t.stackSize 64))]) ++
    (match m with | some m => [(matrixOff t.shsize t.opSize t.stackSize vs, matrixImage t m.frozen)] | none => [])
/-- A team gives up what it holds on its core: its matrix context and the tags of its local lines. -/
def State.leaveCore (s : State) (t : Team) : State :=
  let own (x : TagRange) : Bool := x.die == t.die && x.core == t.core && x.loc && t.localGran.any (fun g => decide (x.line / 64 = g))
  { s with matctx := s.matctx.filter (fun m => !(m.die == t.die && m.core == t.core && t.matctx == some m.idx)),
           tags := s.tags.filter (fun x => !(own x)),
           teams := s.teams.filter (fun u => u.id != t.id),
           claims := s.claims.filter (fun q => q.team != t.id) }
/-- A team is saved (R371, R372): its images are written, and it leaves its core. The place that R373 reserved is used
where it is long enough. DEDUCED (log entry 26; unsafe). -/
def State.saveTeam (s : State) (t : Team) : State :=
  let need := saveNeed t.shsize t.opSize t.stackSize (t.groups.map (fun g => g.vblk))
  let used := (s.savePlaces t.ctx).filter (fun r => r != (t.saveOff, t.saveLen))
  let off := if need ≤ t.saveLen then t.saveOff else lowestPlace used need
  let s1 := s.modCtx t.ctx (fun c => { c with saveMem := (s.images t).foldl (fun m p => m.writeN (off + p.1) p.2) c.saveMem })
  let s2 := s1.leaveCore t
  State.askRound { s2 with saved := s2.saved ++ [s.savedOf t off need] }

/-! ### What a save area gives back (R49, R56) -/

/-- A thread from its block, its V registers, and what the model keeps of it. -/
def threadFrom (bs : List Byte) (v : RegMap) (x : BitVec 16 × List PendFault) (pl : Place) (defer : Bool) : Thread :=
  let ts := leNat ((bs.drop 0x10).take 8)
  { pc := dwordAt bs 0, mr := dwordAt bs 8, loops := loopsAt bs 0x20 (bitsOf ts 8 3), v := v, t := tAt bs 0x80, tdef := x.1,
    p := BitVec.ofNat 8 ts, helper := bitOf ts 11, exited := bitOf ts 12, intrap := bitOf ts 13,
    cause := BitVec.ofNat 8 (wordAt bs 0xD0).toNat, trappc := dwordAt bs 0xC0, trapinfo := dwordAt bs 0xC8,
    clkHi := wordAt bs 0xD4, place := if bitOf ts 12 then .gone else pl, wait := none, deferred := defer,
    faults := x.2 }
/-- A register file from `n` stored words, `step` bytes apart. -/
def regsFrom (bs : List Byte) (o step n : Nat) : RegMap :=
  (List.range n).foldl (fun m k => m.write k (wordAt bs (o + step * k))) []
/-- A group from its area: VBASE, with the pool blocks `blks`, and the slot take their new values (R56). -/
def groupFrom (bs : List Byte) (stack : List Byte) (x : SavedGroup) (blks : List Nat) (gix slice slot clock : Nat) (pl : Nat → Place)
    (defer : Nat → Bool) : Group :=
  let id := (wordAt bs 4).toNat
  let latch := (wordAt bs 0x1C).toNat
  { gix := gix, slice := slice, slot := slot, vblk := bitsOf id 16 8, kblk := bitsOf id 24 4,
    blocks := blks,
    role := BitVec.ofNat 3 (wordAt bs 0x14).toNat, ftz := bitOf (wordAt bs 8).toNat 0, chksb := bitOf (wordAt bs 0xC).toNat 0,
    nflags := BitVec.ofNat 6 (wordAt bs 0x10).toNat, flagsAt := 0, flagsSet := 0, k := regsFrom bs 0x2500 4 256,
    threads := (List.range 32).map (fun t =>
      threadFrom ((bs.drop (0x100 + 256 * t)).take 256) (regsFrom bs (0x2900 + 4 * t) 128 (8 * x.vblk))
        (x.threads.getD t (0, [])) (pl (32 * gix + t)) (defer (32 * gix + t))),
    ops := [], latch := ⟨bitOf latch 0, bitsOf latch 1 11, x.latchHeld, regsFrom bs 0x2100 4 256⟩, nextIssue := clock, lastPass := 0, windows := [],
    clauseAt := x.clause, held := false, claim := x.claim, tokWait := none, stack := Memory.writeN [] 0 stack }
/-- A member of a stored vector. -/
def vecHas (bs : List Byte) (o n : Nat) : Bool := bitOf (byteAt bs (o + n / 8)).toNat (n % 8)
/-- The frontier of a team save area (R53). -/
def frontierFrom (bs : List Byte) : List FEntry :=
  ((List.range 32).filter (fun k => byteAt bs (0x200 + 0x90 * k + 9) != 0)).map (fun k =>
    ⟨k, dwordAt bs (0x200 + 0x90 * k), (byteAt bs (0x200 + 0x90 * k + 8)).toNat⟩)
/-- Where a thread stands by the vectors of a team save area. -/
def placeFrom (bs : List Byte) (n : Nat) : Place :=
  if vecHas bs 0x80 n then .cur
  else
    match (List.range 32).find? (fun k => byteAt bs (0x200 + 0x90 * k + 9) != 0 && vecHas bs (0x200 + 0x90 * k + 0x10) n) with
    | some k => .entry k
    | none => .overflow
/-- A convergence register from its block. -/
def cvFrom (bs : List Byte) (o : Nat) (c : CvReg) : CvReg :=
  let w := (wordAt bs (o + 0x100)).toNat
  { c with declared := BitVec.ofNat 1024 (leNat ((bs.drop o).take 128)), signed := BitVec.ofNat 1024 (leNat ((bs.drop (o + 0x80)).take 128)),
           issued := bitOf w 0, done := bitOf w 1, params := bitOf w 2, acc := bitsOf w 4 4, xidx := bitsOf w 8 4, fmt := bitsOf w 12 3,
           reuse := bitOf w 15, acode := bitsOf w 16 11 }
/-- An X record at its new BASE (R56). -/
def rebaseX (x : BitVec 128) (old new : Nat) : BitVec 128 :=
  let n := x.toNat
  if bitOf n 31 then BitVec.ofNat 128 (n - bitsOf n 0 10 + (new + bitsOf n 0 10 - old) % 1024) else x
/-- The operand buffer from its stored bytes: the ranges of the valid records, one after another. -/
def opbufFrom (xs : List (BitVec 128)) (bs : List Byte) : Memory :=
  (xs.foldl (fun (a : Memory × List Byte) x =>
    let n := x.toNat
    if bitOf n 31 then (a.1.writeN (1024 * bitsOf n 0 10) (a.2.take (1024 * bitsOf n 10 10)), a.2.drop (1024 * bitsOf n 10 10)) else a)
    ([], bs)).1

/-- Where a restored team goes: its core, the slots of its groups, its operand-buffer range and local granules. -/
structure Fit where
  die : Nat
  core : Nat
  slots : List (Nat × Nat)
  opBase : Nat
  gran : List Nat
  deriving DecidableEq, Repr

/-- Bytes of a context's save region. -/
def State.saveRead (s : State) (ctx off n : Nat) : List Byte := match s.ctx? ctx with | some c => c.saveMem.readN off n | none => []
/-- Every area of a saved team has its FORMAT word (R49). -/
def State.formatOk (s : State) (x : SavedTeam) : Bool :=
  let vs := x.groups.map (fun g => g.vblk)
  let at_ (o kind : Nat) : Bool := wordAt (s.saveRead x.ctx (x.off + o) 4) 0 == formatWord kind
  at_ 0 2 && (List.range vs.length).all (fun i => at_ (groupOff x.shsize x.opSize x.stackSize vs i) 1) &&
    (!x.matrix || at_ (matrixOff x.shsize x.opSize x.stackSize vs) 3)
/-- The team that a save area gives back, at its new place (R56). `mat` is the matrix context it binds (R406).
DEDUCED (log entry 27; unsafe). -/
def State.teamFrom (s : State) (x : SavedTeam) (f : Fit) (mat : Option Nat) : Team :=
  let vs := x.groups.map (fun g => g.vblk)
  let bs := s.saveRead x.ctx x.off (teamArea x.shsize x.opSize)
  let blks := takeBlocks (s.heldBlocks f.die f.core) (x.groups.zipIdx.map (fun p => ((f.slots.getD p.2 (0, 0)).1, p.1.vblk)))
  let gs := x.groups.zipIdx.map (fun p =>
    let o := x.off + groupOff x.shsize x.opSize x.stackSize vs p.2
    let sl := f.slots.getD p.2 (0, 0)
    groupFrom (s.saveRead x.ctx o (groupArea p.1.vblk)) (s.saveRead x.ctx (o + roundUp (groupArea p.1.vblk) 64) x.stackSize) p.1
      (blks.getD p.2 []) p.2 sl.1 sl.2 s.clock (placeFrom bs) (vecHas bs 0x180))
  let xs := (List.range 16).map (fun k => rebaseX (BitVec.ofNat 128 (leNat ((bs.drop (0x1400 + 16 * k)).take 16))) x.opBase f.opBase)
  let cid := (wordAt bs 8).toNat
  let sh := x.sharedSet.foldl (fun m o => SMap.set m o (byteAt bs (0x2000 + o))) []
  { id := x.id, ctx := x.ctx, origin := x.origin, teamid := wordAt bs 4, clusterNo := x.clusterNo, csize := bitsOf cid 3 3,
    tic := bitsOf cid 0 3, die := f.die, core := f.core, firstCore := x.firstCore, handler := dwordAt bs 0x10, budgeted := x.budgeted, budget := dwordAt bs 0x18,
    shsize := (wordAt bs 0xC).toNat, stackSize := x.stackSize, shared := sh, sharedKey := x.sharedKey, opBase := f.opBase,
    opSize := x.opSize, opbuf := opbufFrom xs (bs.drop (0x2000 + roundUp x.shsize 64)), localGran := f.gran, saveOff := x.off,
    saveLen := x.len, frontier := frontierFrom bs, curaddr := dwordAt bs 0x40, x := xs,
    cv := x.cv.zipIdx.map (fun p => cvFrom bs (0x1500 + 0x120 * p.2) p.1), matctx := mat, windows := x.windows, shut := [], retired := x.retired,
    groups := gs, killed := none, halted := false }
/-- The wait-parked threads of a saved team leave the entries of the blocks that they waited for and enter the frontier
entry of their wait's PC; overflow-parked ones enter the entries that are free (R56). -/
def Team.reenter (t : Team) (bs : List Byte) : Team :=
  let waits := t.all.filter (fun p => vecHas bs 0x1E00 (32 * p.1 + p.2.1) && !p.2.2.exited)
  let t1 : Team := waits.foldl (fun a p => Team.modThread a p.1 p.2.1 (fun th => { th with place := .overflow })) t
  let t2 : Team := { t1 with frontier := t1.frontier.filter (fun e => t1.all.any (fun p => p.2.2.place == .entry e.slot)) }
  (waits.foldl (fun a p => Team.arrive a p.1 p.2.1) t2).readmit
/-- The matrix context of a saved team, bound anew (R406). -/
def State.matFrom (s : State) (x : SavedTeam) (f : Fit) (idx : Nat) : MatCtx :=
  let vs := x.groups.map (fun g => g.vblk)
  let bs := s.saveRead x.ctx (x.off + matrixOff x.shsize x.opSize x.stackSize vs) matrixArea
  let w := (wordAt bs 4).toNat
  { die := f.die, core := f.core, idx := idx, team := x.id, acc := regsFrom bs 0x100 4 16384, flags := BitVec.ofNat 3 w, flagsAt := 0, flagsSet := 0, resv := bitOf w 31,
    accf := bitsOf w 24 4, resk := bitsOf w 8 16, seq := x.seq, pending := x.steps, running := none }

end Sys2Proof.Machine
end

