-- ==== Sys2Proof/Machine/Ending.lean ====
section
/-!
DEFINITION. Queue faults (R351), the mapping of queues (R344 to R346), the account that a launch node keeps of its teams (R356, R362), and the end of a
context (R383, R390).
-/

namespace Sys2Proof.Machine

/-! ### Queue descriptors in memory (R343, R346, R351) -/

/-- STATUS of a queue. -/
def CmdQ.status (q : CmdQ) : Word :=
  BitVec.ofNat 32 (q.fault % 256 + (if q.slot.isSome then 2 ^ 8 else 0) + (if q.faulted then 2 ^ 9 else 0) + (if q.pending then 2 ^ 10 else 0))
/-- The Proofer writes a queue's STATUS and FAULTPC to its descriptor. DEDUCED (log entry 23; unsafe). -/
def State.putStatus (s : State) (ctx num : Nat) : State :=
  match s.cmdq? ctx num with
  | none => s
  | some q => s.writeVirt ctx (q.desc + 0x28) (wordBytes q.status ++ wordBytes q.faultPc)

/-! ### Queue faults (R351) -/

/-- No engine runs the queue. -/
def State.freeEngine (s : State) (ctx num : Nat) : State :=
  { s with engines := replaceIf (fun e => e.queue == some (ctx, num)) (fun e => { e with queue := none, freeFrom := s.clock + 1 }) s.engines }
/-- The queue stops: its packet is over, and it has the fault given. -/
def CmdQ.stop (code : Nat) (pc : Word) (q : CmdQ) : CmdQ :=
  { q with fault := code, faulted := true, faultPc := pc, frames := [], engine := none, waitl := false, stalled := none, lost := none }
/-- A queue fault (R351). -/
def State.faultQueue (s : State) (ctx num code : Nat) (pc : Word) : State :=
  let s1 := (s.modCmdq ctx num (CmdQ.stop code pc)).freeEngine ctx num
  (s1.putStatus ctx num).event 0x8001 ctx (num * 256 + code)

/-! ### Mapping (R344 to R346) -/

/-- The slot of a queue is free, or its queue may be replaced (R345): it has no packet executing. -/
def State.freeQueueSlot (s : State) : Option Nat :=
  (List.range Config.queueSlots).find? (fun k => !(s.cmdqs.any (fun q => q.slot == some k)))
/-- Two mapped queues in the order of replacement: the least recently signalled first, then the lower slot. -/
def CmdQ.before (a b : CmdQ) : Bool :=
  decide (a.lastSignal < b.lastSignal) || (a.lastSignal == b.lastSignal && decide (a.slot.getD 0 < b.slot.getD 0))
/-- The queue that a signal replaces when no slot is free. -/
def State.victim (s : State) : Option CmdQ :=
  match s.cmdqs.filter (fun q => q.slot.isSome && q.engine.isNone) with
  | [] => none
  | q :: l => some (l.foldl (fun a b => if b.before a then b else a) q)
/-- Unmapping (R346): g0 to g7, HEAD and TAIL go back to the descriptor. A queue that is replaced while packets wait
becomes PENDING. DEDUCED (log entry 23; unsafe). -/
def State.unmapQueue (s : State) (ctx num : Nat) (replaced : Bool) : State :=
  match s.cmdq? ctx num with
  | none => s
  | some q =>
    let s1 := s.modCmdq ctx num (fun q => { q with slot := none, pending := replaced && q.head != q.tail, pendSince := s.clock, pendNo := s.nextId })
    let s2 := (s1.bumpId.writeVirt ctx (q.desc + 0xC) (wordBytes q.head ++ wordBytes q.tail)).writeVirt ctx (q.desc + 0x40) (q.g.flatMap dwordBytes)
    s2.putStatus ctx num
/-- Bytes that view 4 reads; a byte that cannot be read is unspecified. DEDUCED (log entry 23; unsafe). -/
def State.readFree (s : State) (ctx va n : Nat) : List Byte :=
  (List.range n).map (fun i =>
    match s.translate ctx (va + i) false with | .at pa => (s.view 4).mem.read pa | _ => Config.freeByte (wideKey s.nonce 52 i))
/-- Mapping (R345): g0 to g7 come from the descriptor. DEDUCED (log entry 23; unsafe). -/
def State.mapQueue (s : State) (ctx num slot : Nat) : State :=
  match s.cmdq? ctx num with
  | none => s
  | some q =>
    let s := s.touch ctx (q.desc + 0x40) 64
    let bs := s.readFree ctx (q.desc + 0x40) 64
    let g := (List.range 8).map (fun k => dwordAt bs (8 * k))
    (s.modCmdq ctx num (fun q => { q with slot := some slot, pending := false, g := g })).putStatus ctx num
/-- A signal takes effect on a mapped queue (R344). RINGOVER has no faulting bytecode: FAULTPC takes an unspecified value
within its fields. -/
def State.takeSignal (s : State) (ctx num : Nat) (tail : Option Word) : State :=
  let s1 := s.modCmdq ctx num (fun q => { q with lastSignal := s.clock })
  match s1.cmdq? ctx num, tail with
  | some q, some t =>
    let d := (t - q.tail).toNat
    if d = 0 ∨ 2 ^ 31 ≤ d then s1
    else if 2 ^ q.logn < (t - q.head).toNat then
      s1.faultQueue ctx num 1 (BitVec.ofNat 32 ((Config.freeWord (wideKey s.nonce 53 0)).toNat % 2 ^ 19))
    else s1.modCmdq ctx num (fun q => { q with tail := t })
  | _, _ => s1
/-- A signal, mapping the queue if need be; none when every slot has a packet executing (R345). -/
def State.signalQueue (s : State) (w : SigWait) : Option State :=
  match s.cmdq? w.ctx w.num with
  | none => some s
  | some q =>
    if q.slot.isSome then some (s.takeSignal w.ctx w.num w.tail)
    else
      match s.freeQueueSlot with
      | some k => some ((s.mapQueue w.ctx w.num k).takeSignal w.ctx w.num w.tail)
      | none =>
        match s.victim with
        | none => none
        | some v =>
          some ((((s.unmapQueue v.ctx v.num true).mapQueue w.ctx w.num (v.slot.getD 0)).takeSignal w.ctx w.num w.tail))
/-- Signals that wait for a slot are tried once each, oldest first. -/
def State.tryWaits (s : State) : State :=
  s.mapWaits.foldl (fun a w =>
    match a.signalQueue w with
    | some t => { t with mapWaits := t.mapWaits.erase w }
    | none => a) s
/-- Signals that wait for a slot are tried again (R345), each once more for every other one that may have freed a slot. -/
def State.serveWaits (s : State) : State := s.mapWaits.foldl (fun a _ => a.tryWaits) s

/-! ### Teams of a node or of dispatch that are no more (R356, R362) -/

/-- Teams of a launch are no more, or will never be placed. -/
def State.lessTeams (s : State) (o : Origin) (n : Nat) : State :=
  match o with
  | .node run idx => s.modNode run idx (fun x => { x with left := x.left - n, dueFrom := s.clock + 1 })
  | .dispatch ctx q => s.modTaskq ctx q (fun q => { q with alive := q.alive - n })
/-- A launch records the cause of a failure that is no team's kill. -/
def State.failLaunch (s : State) (o : Origin) (c : Cause) (teamid : Nat) : State :=
  match o with
  | .node run idx => s.modNode run idx (fun x => x.kill c s.clock teamid)
  | .dispatch _ _ => s
/-- Teams that a placement unit stands for. -/
def PlaceUnit.count (u : PlaceUnit) : Nat := u.teams * (u.more + 1)
/-- Units leave the placement list, their launches recording a cause. -/
def State.dropUnits (s : State) (p : PlaceUnit → Bool) (c : Cause) : State :=
  let gone := s.units.filter p
  let s1 := { s with units := s.units.filter (fun u => !(p u)) }
  gone.foldl (fun a u => if u.restore.isEmpty then (a.failLaunch u.origin c u.firstTeam).lessTeams u.origin u.count else a) s1
/-- Saved teams are killed, and their passes settled (R327); a placement round follows (R359). -/
def State.dropSaved (s : State) (p : SavedTeam → Bool) (c : Cause) : State :=
  let gone := s.saved.filter p
  let s1 := gone.foldl (fun a x => a.endPasses x.ctx x.id) s
  let s2 := { s1 with saved := s1.saved.filter (fun x => !(p x)) }
  if gone.isEmpty then s2
  else (gone.foldl (fun a x => (a.failLaunch x.origin c x.teamid.toNat).lessTeams x.origin 1) s2).askRound

/-! ### The end of a context (R383) -/

/-- Every team of a context is killed, saved ones and those not yet placed included; its passes are released (R328). -/
def State.killAll (s : State) (ctx : Nat) (c : Cause) : State :=
  let ids := (s.teams.filter (fun t => t.ctx == ctx)).map (fun t => t.id)
  let s1 := ids.foldl (fun a id => a.killTeam id c) (s.dropPasses ctx)
  ((s1.dropSaved (fun x => x.ctx == ctx) c).dropUnits (fun u => u.ctx == ctx) c).settle
/-- Every command queue of a context that has no fault yet is faulted, and a signal may have its slot (R345, R351); R383
names no fault code. DEDUCED (log entry 28; unsafe). -/
def State.faultAll (s : State) (ctx : Nat) : State :=
  let free (k : Nat) : Nat := (Config.freeWord (wideKey s.nonce 51 k)).toNat
  ((s.cmdqs.filter (fun q => q.ctx == ctx && !q.faulted)).foldl (fun a q =>
    a.faultQueue ctx q.num (free (2 * q.num) % 256) (BitVec.ofNat 32 (free (2 * q.num + 1) % 2 ^ 19))) s).serveWaits
/-- A context ends (R383): the team at fault, if any, with the cause given, every other with CTXLOST.
DEDUCED (log entry 28; unsafe). -/
def State.endContext (s : State) (ctx : Nat) (team : Option Nat) (c : Cause) : State :=
  match s.ctx? ctx with
  | none => s
  | some x =>
    if x.ended then s
    else
      let s1 := match team with | some t => ((s.dropPasses ctx).killTeam t c).dropSaved (fun y => y.id == t) c | none => s
      (((s1.killAll ctx .ctxlost).faultAll ctx).modCtx ctx (fun y => { y with ended := true })).event 0x8006 ctx c.code.toNat

end Sys2Proof.Machine
end

