-- ==== Sys2Proof/Machine/Icing.lean ====
section
/-!
DEFINITION. Icing (R304 to R307, R320 to R325): fragments of the bin path and the stream path, the commit of bins,
blending and statistics.
-/

namespace Sys2Proof.Machine

/-! ### Fragments (R320) -/

/-- A fragment as its 16 words give it. -/
structure Frag where
  x : Nat
  y : Nat
  z : Word
  primid : Word
  ctl : Nat
  rgba : List Word
  key : Word
  deriving DecidableEq, Repr
/-- The fragment of a record's words. -/
def Frag.of (ws : List Word) : Frag :=
  let w (j : Nat) : Word := ws.getD j 0
  { x := bitsOf (w 4).toNat 0 16, y := bitsOf (w 4).toNat 16 16, z := w 5, primid := w 6, ctl := (w 7).toNat,
    rgba := (ws.drop 8).take 4, key := w 12 }
/-- ZTEST. -/
def Frag.ztest (f : Frag) : Bool := bitOf f.ctl 22
/-- BLEND. -/
def Frag.blend (f : Frag) : Nat := bitsOf f.ctl 20 2
/-- ZWRITE. -/
def Frag.zwrite (f : Frag) : Bool := bitOf f.ctl 19
/-- QUERY. -/
def Frag.query (f : Frag) : Bool := bitOf f.ctl 18
/-- QIDX. -/
def Frag.qidx (f : Frag) : Nat := bitsOf f.ctl 16 2
/-- The handle in word 7. -/
def Call.handle7 (c : Call) : Nat := bitsOf (c.word 7) 0 16

/-- One channel of the blend (R322). -/
def blend1 (mode : Nat) (alpha src dst : Word) : Word :=
  match mode with
  | 0 => rnd32 (val32 src)
  | 1 => add32 dst src
  | _ => add32 src (mul32 dst (sub32 0x3F800000 alpha))
/-- The blend of a fragment into the colour target (R322). -/
def State.blendAt (s : State) (p : Pass) (f : Frag) : State :=
  let a := p.color + 16 * (f.y * p.width + f.x)
  let old := wordsOf 4 (s.dieBytes p.die a 16)
  s.putDie p.die a ((List.zipWith (blend1 f.blend (f.rgba.getD 3 0)) f.rgba old).flatMap wordBytes)
/-- Counters FRAGS_PASSED and QUERY0 to QUERY3 with one more passed fragment. -/
def countPassed (f : Frag) (n : List Nat) : List Nat :=
  let n1 := modifyAt (· + 1) 0 n
  if f.query then modifyAt (· + 1) (1 + f.qidx) n1 else n1
/-- Address of a pixel of the depth target. -/
def Pass.depthAddr (p : Pass) (x y : Nat) : Nat := p.depth + 4 * (y * p.width + x)

/-! ### Bins (R320, R321) -/

/-- Places of a fragment area. -/
abbrev areaMax : Nat := 1535
/-- Address of place `k` of a slot's fragment area. -/
def Pass.areaAt (p : Pass) (slot k : Nat) : Nat := p.slotAt slot + 0x8040 + 64 * k
/-- NOBIN, with the bin index as detail. -/
def State.binFault (s : State) (c : Call) (st b : Nat) : State := s.turnAway c st (s.instance_ c) (b % 2 ^ 16)
/-- The pass of an Icing call of the bin path: any team of the context may send it; of an abandoned pass only the
resolved bins are still served (R307, R327). DEDUCED (log entry 20; unsafe). -/
def State.binPass (s : State) (c : Call) (bx by_ : Nat) : Option Pass :=
  match s.passOf c.die c.handle7 with
  | none => none
  | some p =>
    let served := decide (bx < p.nbx) && (match p.bin? (by_ * p.nbx + bx) with | some b => b.resolved | none => false)
    if p.ctx == c.ctx && (!p.abandoned || served) then some p else none

/-- A free place of the area, in no fixed order. -/
def State.freePlace (s : State) (b : Bin) : Nat :=
  let l := (List.range areaMax).filter (fun k => !b.frags.contains k)
  (l[(Config.freeWord (wideKey s.nonce 46 b.idx)).toNat % l.length]?).getD 0

/-- The payload of FRAG keeps the layout of R320. DEDUCED (log entry 20; unsafe). -/
def Call.fragOk (c : Call) : Bool :=
  finite32 (c.words.getD 5 0) && bitsOf (c.word 7) 23 9 == 0 && bitsOf (c.word 7) 20 2 != 3 && c.zeros 13 15 &&
    (!c.ordered || c.word 12 == 0)

/-- The area of a bin holds the FCOUNT records of its BINDONE: its commit has begun (R321). -/
def Bin.full (b : Bin) : Bool := match b.done with | some d => b.frags.length == d.2 | none => false
/-- A FRAG of the bin path (R320, R407). It waits while a commit is about to take its bin. -/
def State.binFrag (s : State) (c : Call) : State :=
  let f := Frag.of c.words
  match s.binPass c (f.x / 32) (f.y / 32) with
  | none => s.badPass c c.handle7
  | some p =>
    let b := f.y / 32 * p.nbx + f.x / 32
    if p.width ≤ f.x ∨ p.height ≤ f.y then s.reject c stBadrec
    else
      match p.bin? b with
      | none => s.binFault c stNobin b
      | some bin =>
        match bin.slot with
        | none => s.binFault c stNobin b
        | some slot =>
          if bin.full then s
          else if areaMax ≤ bin.frags.length then s.binFault c stFragfull b
          else
            let k := s.freePlace bin
            let s1 := (s.putDie p.die (p.areaAt slot k) (c.words.flatMap wordBytes)).scramble p.die (p.slotAt slot + 0x8000) 64
            let s2 := s1.modPass p.id (fun p => p.modBin b (fun x => { x with frags := k :: x.frags }))
            (s2.returnCall c { status := 0, inst := s.instance_ c }).bumpNonce

/-- BINDONE (R321, R407): the record is written when the bin has completed. -/
def State.takeBindone (s : State) (call : Nat) : State :=
  match s.serve call .icg 2 with
  | none => s
  | some c =>
    let bx := c.icgBin.1
    let by_ := c.icgBin.2
    let n := c.word 5
    if !(c.flagsOk true false false && decide (n ≤ areaMax) && c.word 6 == 0 && bitsOf (c.word 7) 16 16 == 0 && c.zeros 8 15) then
      (s.reject c stBadrec)
    else
      match s.binPass c bx by_ with
      | none => (s.badPass c c.handle7)
      | some p =>
        let b := by_ * p.nbx + bx
        match (if bx < p.nbx ∧ by_ < p.nby then p.bin? b else none) with
        | none => (s.binFault c stNobin b)
        | some bin =>
          match bin.slot with
          | none => (s.binFault c stNobin b)
          | some slot =>
            if bin.done.isSome || decide (n < bin.frags.length) then (s.reject c stBadrec)
            else
              let s1 := (s.modCall call (fun c => { c with waiting := true })).scramble p.die (p.slotAt slot + 0x8000) 64
              (s1.modPass p.id (fun p => p.modBin b (fun x => { x with done := some (call, n) }))).bumpNonce
/-- BINDONE (R321): Icing serves the call. -/
def execBindone (call : Nat) (s : State) : Out := .next (s.takeBindone call)

/-! ### The commit of a bin (R321) -/

/-- Ascending (KEY, PRIMID). -/
def Frag.before (f g : Frag) : Bool := decide (f.key.toNat < g.key.toNat) || (f.key == g.key && decide (f.primid.toNat < g.primid.toNat))
/-- Insert after every element that does not come later. -/
def insertFrag (f : Frag) : List Frag → List Frag
  | [] => [f]
  | g :: l => if f.before g then f :: g :: l else g :: insertFrag f l
/-- Fragments in ascending (KEY, PRIMID), ties in the order given. -/
def sortFrags (l : List Frag) : List Frag := l.foldl (fun a f => insertFrag f a) []
/-- The state of a pixel's commit: memory, st and the counters. -/
structure Commit where
  s : State
  st : Word × Word × Word
  n : List Nat
/-- One fragment of the commit. `near` says that its key is not farther than st. -/
def Commit.frag (k : Commit) (p : Pass) (f : Frag) (near : Bool) (st : Word × Word × Word) : Commit :=
  if !f.ztest || near then ⟨k.s.blendAt p f, if f.zwrite then st else k.st, countPassed f k.n⟩ else k
/-- One pixel of the commit: bin index, and coordinates. -/
def Commit.pixel (p : Pass) (slot : Nat) (frs : List Frag) (k : Commit) (q : Nat × Nat × Nat) : Commit :=
  let rec_ := wordsOf 4 (k.s.dieBytes p.die (p.slotAt slot + 16 * q.1) 16)
  let st : Word × Word × Word :=
    if (rec_.getD 3 0).getLsbD 0 then (rec_.getD 0 0, rec_.getD 1 0, rec_.getD 2 0) else (p.zclear, 0xFFFFFFFF, 0xFFFFFFFF)
  let here := sortFrags (frs.filter (fun f => f.x == q.2.1 && f.y == q.2.2))
  let k1 := here.foldl (fun a f =>
    let key : Word × Word × Word := (f.z, f.key, f.primid)
    a.frag p f (!(p.nearerKey a.st key)) key) { k with st := st }
  if p.depth = 0 then k1 else { k1 with s := k1.s.putDie p.die (p.depthAddr q.2.1 q.2.2) (wordBytes k1.st.1) }
/-- Ascending places. -/
def sortNats (l : List Nat) : List Nat := (List.range areaMax).filter (fun k => l.contains k)
/-- The commit of a resolved bin: targets and counters. -/
def State.commitBin (s : State) (p : Pass) (bin : Bin) (slot : Nat) : State :=
  let frs := (sortNats bin.frags).map (fun k => Frag.of (wordsOf 16 (s.dieBytes p.die (p.areaAt slot k) 64)))
  let k := (p.pixels bin.idx).foldl (fun a q => a.pixel p slot frs q) (⟨s, (0, 0, 0), [0, 0, 0, 0, 0]⟩ : Commit)
  let counts : List (Nat × Nat) := [(0x18, bin.touched), (0x20, bin.resolvedN), (0x28, bin.late.length), (0x30, 1)] ++
    k.n.zipIdx.map (fun q => (0x38 + 8 * q.2, q.1))
  counts.foldl (fun a q => a.addCount p.die (p.stats + q.1) q.2) k.s

/-- BIN_COMMIT (R321): the bin's area holds FCOUNT records. A pre-emption does not stop it (R326). -/
def execBinCommit (pass bin : Nat) (s : State) : Out :=
  match s.pass? pass with
  | none => .next s
  | some p =>
    match p.bin? bin with
    | none => .next s
    | some b =>
      match b.slot, b.done with
      | some slot, some (call, n) =>
        if b.frags.length = n then
          let s1 := ((s.commitBin p b slot).modPass pass (fun p => p.dropBin bin)).wake
          let inst := (bin % p.nbx + bin / p.nbx) % 4
          .next (((s1.answer call { status := 0, inst := inst }).finishPass pass).bumpNonce)
        else .next s
      | _, _ => .next s

/-! ### The stream path (R323) -/

/-- An ordered FRAG (R323, R407): its record is written at its commit. A window that stands no longer has been wholly
retired, and its fragments are due. -/
def State.streamFrag (s : State) (c : Call) : State :=
  let f := Frag.of c.words
  match s.ownPass c c.handle7 with
  | none => s.badPass c c.handle7
  | some p =>
    if p.width ≤ f.x ∨ p.height ≤ f.y then s.reject c stBadrec
    else if p.depth = 0 then s.reject c stBadrec
    else
      let ws : List TokWin := match s.team? c.team with | some t => t.windows ++ t.shut | none => []
      let due := match ws.find? (fun w => w.id == c.win) with | some w => w.through c.token | none => true
      let g : StreamFrag := { call := c.id, token := c.token, pixel := f.y * p.width + f.x, words := c.words, win := c.win, ready := due }
      let s1 := (s.modCall c.id (fun c => { c with waiting := true })).modPass p.id (fun p => { p with stream := p.stream ++ [g] })
      if c.last then s1.retireToken c.team c.token .frag else s1

/-- FRAG (R320, R323): with ORDERED the stream path, without it the bin path. -/
def State.takeFrag (s : State) (call : Nat) : State :=
  match s.serve call .icg 1 with
  | none => s
  | some c =>
    if !c.fragOk then (s.reject c stBadrec)
    else if c.ordered then (s.streamFrag c)
    else (s.binFrag c)
/-- FRAG (R320): Icing serves the call. -/
def execFrag (call : Nat) (s : State) : Out := .next (s.takeFrag call)

/-- The Cutter or Icing serves a call that it has accepted. -/
def State.takeCall (s : State) (c : Call) : State :=
  match c.kind, c.op with
  | .cut, 1 => s.takeBegin c.id
  | .cut, 2 => s.takeTri c.id
  | .cut, 3 => s.takePassEnd c.id
  | .cut, 4 => s.takeAbort c.id
  | .icg, 1 => s.takeFrag c.id
  | .icg, 2 => s.takeBindone c.id
  | _, _ => s
/-- The calls of a team that the Cutter and Icing have accepted are served, in the order in which they were sent (R118). -/
def State.takeCalls (s : State) (team : Nat) : State :=
  (s.calls.filter (fun c => c.team == team && c.accepted && !c.waiting)).foldl State.takeCall s

/-- Ascending (token, PRIMID), ties in arrival order: the fragment of a pixel that commits next. -/
def nextStream : List StreamFrag → Option StreamFrag
  | [] => none
  | f :: l => some (l.foldl (fun a g =>
      let x := ((Frag.of a.words).primid).toNat
      let y := ((Frag.of g.words).primid).toNat
      if g.token.toNat < a.token.toNat ∨ (g.token = a.token ∧ y < x) then g else a) f)

/-- The ZTEST of the stream path compares z alone; a depth target that holds a NaN gives no fixed answer.
DEDUCED (log entry 20; unsafe). -/
def State.streamNear (s : State) (p : Pass) (z depth : Word) : Bool :=
  if nan32 depth then Config.freeBool (freeKey s.nonce 47 0 0) else !(p.nearerZ depth z)

/-- STREAM_COMMIT (R323): the next fragment of a pixel. -/
def execStreamCommit (pass pixel : Nat) (s : State) : Out :=
  match s.pass? pass with
  | none => .next s
  | some p =>
    match nextStream (p.stream.filter (fun f => f.pixel == pixel)) with
    | none => .next s
    | some g =>
      if g.ready && s.passRuns p then
        let f := Frag.of g.words
        let a := p.depthAddr f.x f.y
        let d := s.dieWord p.die a
        let k := (⟨s, (d, 0, 0), p.streamPassed⟩ : Commit).frag p f (s.streamNear p f.z d) (f.z, 0, 0)
        let s1 := (k.s.putDie p.die a (wordBytes k.st.1)).modPass pass (fun p =>
          { p with stream := p.stream.erase g, streamPassed := k.n })
        .next ((((s1.wake).answer g.call { status := 0, inst := (f.x / 32 + f.y / 32) % 4 }).finishPass pass).bumpNonce)
      else .next s

end Sys2Proof.Machine
end

