-- ==== Sys2Proof/Machine/Place.lean ====
section
/-!
DEFINITION. Launch nodes (R354), what a team needs and where it fits (R357, R358, R373, R406), the start of a team
(R28, R250, R408), PLACEMENT_ROUND (R359, R374) and TEAM_COMPLETE (R118).
-/

namespace Sys2Proof.Machine

/-! ### Fields of a launch node (R354) -/

/-- ENTRY. -/
def nodeEntry (n : List Byte) : DWord := dwordAt n 0
/-- HANDLER. -/
def nodeHandler (n : List Byte) : DWord := dwordAt n 8
/-- TEAMS: 0 means 2^32. -/
def nodeTeams (n : List Byte) : Nat := let w := (wordAt n 0x10).toNat; if w = 0 then 2 ^ 32 else w
/-- Groups per team. -/
def nodeGroups (n : List Byte) : Nat := bitsOf (wordAt n 0x14).toNat 0 5 + 1
/-- CSIZE. -/
def nodeCsize (n : List Byte) : Nat := bitsOf (wordAt n 0x14).toNat 5 3
/-- SHARED. -/
def nodeShared (n : List Byte) : Nat := (wordAt n 0x18).toNat
/-- STACK. -/
def nodeStack (n : List Byte) : Nat := (wordAt n 0x1C).toNat
/-- OPBUF in KiB. -/
def nodeOpbuf (n : List Byte) : Nat := (wordAt n 0x20).toNat
/-- DIEMASK as a list of dies. -/
def nodeDies (n : List Byte) : List Nat := oneBits 4 (wordAt n 0x24).toNat
/-- Role of group `g` (R251). -/
def nodeRole (n : List Byte) (g : Nat) : Nat := bitsOf (leNat ((n.drop 0x30).take 16)) (3 * g) 3
/-- VBLK of a role. -/
def roleVblk (n : List Byte) (r : Nat) : Nat := bitsOf (wordAt n (0x40 + 4 * r)).toNat 0 8
/-- KBLK of a role. -/
def roleKblk (n : List Byte) (r : Nat) : Nat := bitsOf (wordAt n (0x40 + 4 * r)).toNat 8 4
/-- PRED. -/
def nodePred (n : List Byte) : Nat := halfAt n 0xA0
/-- NSUCC. -/
def nodeNsucc (n : List Byte) : Nat := halfAt n 0xA2
/-- SCRATCH. -/
def nodeScratch (n : List Byte) : Nat := (wordAt n 0xA4).toNat
/-- The successors, in SUCC order. -/
def nodeSucc (n : List Byte) : List Nat := (List.range (nodeNsucc n)).map (fun i => halfAt n (0xA8 + 2 * i))
/-- Every field of a node that dispatch reads lies in range (R354, R362); entries of roles that no group has are not
looked at. DEDUCED (log entry 25; unsafe). -/
def nodeFit (n : List Byte) : Bool :=
  let pcOk (x : DWord) : Bool := decide (x.toNat < 2 ^ 48) && decide (x.toNat % 8 = 0)
  pcOk (nodeEntry n) && pcOk (nodeHandler n) &&
    decide ((wordAt n 0x14).toNat < 2 ^ 8) && decide (nodeShared n ≤ 2 ^ 21) && decide (nodeStack n ≤ 65536) &&
    decide (nodeStack n % 64 = 0) && decide (nodeOpbuf n ≤ Config.opBufKiB) &&
    decide (nodeNsucc n ≤ 8) && (n.drop 0xC4).all (fun b => b == 0) &&
    (List.range (nodeGroups n)).all (fun g =>
      let r := nodeRole n g
      decide (1 ≤ roleVblk n r) && decide (roleVblk n r ≤ 192) && decide (roleKblk n r ≤ 8) &&
        decide ((wordAt n (0x40 + 4 * r)).toNat < 2 ^ 12))
/-- Every field of a node of a launch lies in range (R354, R355). -/
def nodeOk (n : List Byte) : Bool :=
  nodeFit n && decide (nodeTeams n % (nodeCsize n + 1) = 0) && decide ((wordAt n 0x24).toNat < 16)

/-! ### What a team needs (R357, R373) -/

/-- The needs of one team. -/
structure Need where
  vblks : List Nat
  gran : Nat
  opKiB : Nat
  /-- A free matrix context (R406). -/
  mat : Bool
  save : Nat
  deriving DecidableEq, Repr
/-- Local granules for a carve-out and `g` spill stacks (R271). -/
def localNeed (shared stack g : Nat) : Nat := ceilDiv shared 4096 + g * ceilDiv stack 4096
/-- The needs of a team of a node. -/
def nodeNeed (n : List Byte) : Need :=
  let vs := (List.range (nodeGroups n)).map (fun g => roleVblk n (nodeRole n g))
  { vblks := vs, gran := localNeed (nodeShared n) (nodeStack n) (nodeGroups n), opKiB := nodeOpbuf n, mat := false,
    save := saveNeed (nodeShared n) (nodeOpbuf n) (nodeStack n) vs }
/-- The needs of a saved team. -/
def SavedTeam.need (x : SavedTeam) : Need :=
  { vblks := x.groups.map (fun g => g.vblk), gran := localNeed x.shsize x.stackSize x.groups.length, opKiB := x.opSize, mat := x.matrix,
    save := x.len }

/-! ### Where a team fits (R357, R358) -/

/-- The teams on a core. -/
def State.onCore (s : State) (die core : Nat) : List Team := s.teams.filter (fun t => t.die == die && t.core == core)
/-- The free group slots of a slice, ascending. -/
def State.freeSlots (s : State) (die core slice : Nat) : List Nat :=
  let used := (s.onCore die core).flatMap (fun t => (t.groups.filter (fun g => g.slice == slice)).map (fun g => g.slot))
  (List.range Config.slots).filter (fun k => !(used.contains k))
/-- A granule of a core is covered by its region table. -/
def State.covered (s : State) (die core g : Nat) : Bool :=
  s.regionTab.any (fun r => r.die == die && r.core == core && decide (r.base ≤ g) && decide (g ≤ r.limit))
/-- The free local granules of a core (R271). -/
def State.freeGranules (s : State) (die core : Nat) : List Nat :=
  let used := (s.onCore die core).flatMap (fun t => t.localGran)
  (List.range Config.granules).filter (fun g => !(s.covered die core g) && !(used.contains g))
/-- Groups in ascending GIX take slices by R358: the most free slots among the slices whose pool holds the blocks, the
lower slice on a tie, the lowest slot there. -/
def fitGroups : List (List Nat) → List Nat → List Nat → Option (List (Nat × Nat))
  | _, _, [] => some []
  | free, pool, v :: vs =>
    let ok := (List.range 4).filter (fun k => !(free.getD k []).isEmpty && decide (v ≤ pool.getD k 0))
    match ok with
    | [] => none
    | k0 :: l =>
      let k := l.foldl (fun a b => if (free.getD a []).length < (free.getD b []).length then b else a) k0
      match fitGroups (modifyAt (fun f => f.drop 1) k free) (modifyAt (fun p => p - v) k pool) vs with
      | none => none
      | some r => some ((k, (free.getD k []).headD 0) :: r)
/-- A core takes no new team: out of placement, or being migrated (R399). DEDUCED (log entry 26; unsafe). -/
def State.closedCore (s : State) (die core : Nat) : Bool :=
  s.cores.out.contains (die * 128 + core) ||
    (match s.hub.svc with | some ⟨.core d c _, _⟩ => d == die && c == core | _ => false)
/-- Where a team fits on a core, if it does. -/
def State.fit (s : State) (n : Need) (die core : Nat) : Option Fit :=
  if s.closedCore die core then none
  else
    let gran := s.freeGranules die core
    let ob := lowestPlace ((s.onCore die core).map (fun t => (t.opBase, t.opSize))) n.opKiB
    if gran.length < n.gran ∨ Config.opBufKiB < ob + n.opKiB ∨ (n.mat = true ∧ (s.freeMat die core).isNone = true) then none
    else
      match fitGroups ((List.range 4).map (s.freeSlots die core)) ((List.range 4).map (s.placeBlocks die core)) n.vblks with
      | none => none
      | some sl => some ⟨die, core, sl, ob, gran.take n.gran⟩
/-- Free group slots of a core. -/
def State.slotCount (s : State) (die core : Nat) : Nat := ((List.range 4).map (fun k => (s.freeSlots die core k).length)).sum
/-- A team takes, of the cores where it fits, the one with the most free slots; ties go to the lower die, then core. -/
def State.chooseCore (s : State) (n : Need) (dies : List Nat) : Option Fit :=
  let fits := dies.flatMap (fun d => (List.range Config.cores).filterMap (s.fit n d))
  match fits with
  | [] => none
  | f :: l => some (l.foldl (fun a b => if s.slotCount a.die a.core < s.slotCount b.die b.core then b else a) f)
/-- The cores of a region where the teams of a cluster fit, the lowest that are needed. -/
def State.fitRegion (s : State) (ns : List Need) (die region : Nat) : Option (List Fit) :=
  let r := (List.range Config.regionCores).foldl (fun (a : List Need × List Fit) k =>
    match a.1 with
    | [] => a
    | n :: l => (match s.fit n die (Config.regionCores * region + k) with | some f => (l, a.2 ++ [f]) | none => a)) (ns, [])
  if r.1.isEmpty then some r.2 else none
/-- The places of a unit's teams (R358): all or nothing. -/
def State.chooseAll (s : State) (ns : List Need) (dies : List Nat) : Option (List Fit) :=
  match ns with
  | [n] => (match s.chooseCore n dies with | some f => some [f] | none => none)
  | _ => (dies.flatMap (fun d => (List.range Config.regionsPerDie).map (fun r => (d, r)))).findSome? (fun p => s.fitRegion ns p.1 p.2)
/-- A team would fit on a core if no team held anything of it. -/
def State.couldFit (s : State) (n : Need) (die core : Nat) : Bool :=
  let room := ((List.range Config.granules).filter (fun g => !(s.covered die core g))).length
  !(s.cores.out.contains (die * 128 + core)) && decide (n.gran ≤ room) && decide (n.opKiB ≤ Config.opBufKiB) &&
    (fitGroups (List.replicate 4 (List.range Config.slots)) (List.replicate 4 Config.vPool) n.vblks).isSome
/-- A unit of `k` teams could never be placed (R358, R373). DEDUCED (log entry 25; unsafe). DEDUCED (log entry 26; unsafe). -/
def State.noFit (s : State) (n : Need) (k : Nat) (dies : List Nat) (saveSize : Nat) : Bool :=
  let region (d r : Nat) : Bool :=
    decide (k ≤ ((List.range Config.regionCores).filter (fun c => s.couldFit n d (Config.regionCores * r + c))).length)
  decide (saveSize < k * n.save) || !(dies.any (fun d => (List.range Config.regionsPerDie).any (region d)))

/-! ### The start of a team (R28, R40, R250, R251, R402, R408) -/

/-- A kernel's data images, by its entry clause. -/
def State.kernel? (s : State) (ctx : Nat) (entry : DWord) : Option Kernel :=
  match s.ctx? ctx with | some c => c.kernels.find? (fun k => k.entry == entry.toNat) | none => none
/-- A group at the start of a team of a node: registers as R28 says, helpers from HMASK. -/
def startGroup (n : List Byte) (clock g slice slot : Nat) (blks : List Nat) : Group :=
  let r := nodeRole n g
  let kb := roleKblk n r
  let th (t : Nat) : Thread := { Thread.blank (nodeEntry n) with place := .entry 0, helper := bitOf (wordAt n 0xC0).toNat t }
  let base := Group.blank g slice slot (roleVblk n r) kb (BitVec.ofNat 3 r) ((List.range 32).map th)
  let k := (wordsOf 16 (n.drop 0x60)).zipIdx.foldl (fun (m : RegMap) p => if p.2 < 32 * kb then m.write p.2 p.1 else m) []
  { base with nextIssue := clock, k := k, blocks := blks }
/-- A team of a node as it starts. -/
def startTeam (s : State) (u : PlaceUnit) (id tic clusterNo : Nat) (f : Fit) (saveOff : Nat) (img : List Byte) : Team :=
  let n := u.image
  let slot (g : Nat) : Nat × Nat := f.slots.getD g (0, 0)
  let blks := takeBlocks (s.heldBlocks f.die f.core) ((List.range (nodeGroups n)).map (fun g => ((slot g).1, roleVblk n (nodeRole n g))))
  let gs := (List.range (nodeGroups n)).map (fun g => startGroup n s.clock g (slot g).1 (slot g).2 (blks.getD g []))
  let t := Team.blank id u.ctx u.origin 0 gs
  { t with
    teamid := BitVec.ofNat 32 (u.firstTeam + tic), clusterNo := clusterNo, csize := u.teams - 1, tic := tic, die := f.die, core := f.core,
    firstCore := f.core, handler := nodeHandler n, budgeted := dwordAt n 0x28 != 0, budget := dwordAt n 0x28, shsize := nodeShared n, stackSize := nodeStack n,
    shared := (img.take (nodeShared n)).zipIdx.map (fun p => (p.2, p.1)), opBase := f.opBase, opSize := nodeOpbuf n, localGran := f.gran,
    saveOff := saveOff, saveLen := (nodeNeed n).save, frontier := [⟨0, nodeEntry n, 0⟩] }
/-- The lines of a team's local granules carry the context's tag with LOCAL set (R271). -/
def localTags (ctx : Nat) (f : Fit) : List TagRange := f.gran.map (fun g => ⟨f.die, f.core, 64 * g, 64, ctx, true⟩)
/-- One more team starts on its core: its die's view acquires the launch (R408). -/
def State.startOne (s : State) (t : Team) (f : Fit) (clock : List Nat) : State :=
  State.catchUp { s.startKnowing t with teams := s.teams ++ [t], tags := localTags t.ctx f ++ s.tags } f.die clock
/-- Places in the save region for teams of one need, one after another; none when they do not all fit (R373).
DEDUCED (log entry 26; unsafe). -/
def saveRoom (size len : Nat) : Nat → List (Nat × Nat) → Option (List Nat)
  | 0, _ => some []
  | n + 1, used =>
    let o := lowestPlace used len
    if size < o + len then none
    else match saveRoom size len n ((o, len) :: used) with | some l => some (o :: l) | none => none

/-! ### Placing units (R357 to R359, R374) -/

/-- What became of a unit. -/
inductive Tried where
  | placed (s : State)
  | waits
  | nofit
/-- The dies that a unit may use: DIEMASK, or the queue's die for dispatch (R362). -/
def State.unitDies (s : State) (u : PlaceUnit) : List Nat :=
  match u.origin with
  | .node _ _ => nodeDies u.image
  | .dispatch ctx q => match s.taskq? ctx q with | some x => [x.die] | none => []
/-- Try to place the first unit of a launch. -/
def State.tryUnit (s : State) (u : PlaceUnit) : Tried :=
  match s.ctx? u.ctx with
  | none => .waits
  | some c =>
    let need := nodeNeed u.image
    let dies := s.unitDies u
    if s.noFit need u.teams dies c.saveSize then .nofit
    else
      match saveRoom c.saveSize need.save u.teams (s.savePlaces u.ctx), s.chooseAll (List.replicate u.teams need) dies with
      | some offs, some fits =>
        let img := match s.kernel? u.ctx (nodeEntry u.image) with | some k => k.shared | none => []
        let one (a : State) (p : (Fit × Nat) × Nat) : State :=
          a.bumpId.startOne (startTeam a u a.nextId p.2 s.nextId p.1.1 p.1.2 img) p.1.1 u.clock
        .placed ((fits.zip offs).zipIdx.foldl one s)
      | _, _ => .waits
/-- Place a launch's units one after another for as long as they fit: the state, what is left, and whether the rest can
never be placed. -/
def State.placeMany : Nat → State → PlaceUnit → State × Option PlaceUnit × Bool
  | 0, s, u => (s, some u, false)
  | n + 1, s, u =>
    match s.tryUnit u with
    | .nofit => (s, some u, true)
    | .waits => (s, some u, false)
    | .placed t =>
      if u.more = 0 then (t, none, false)
      else State.placeMany n t { u with more := u.more - 1, firstTeam := u.firstTeam + u.teams, fails := 0 }
/-- What is left of a launch fails with NOFIT (R358, R362). -/
def State.unitNofit (s : State) (u : PlaceUnit) : State :=
  let s1 := (s.failLaunch u.origin .nofit u.firstTeam).lessTeams u.origin u.count
  match u.origin with
  | .node _ _ => s1
  | .dispatch ctx q => (s1.modTaskq ctx q (fun x => { x with stopped := true })).event 0x800C ctx (q + Cause.nofit.code.toNat * 2 ^ 16)
/-- Restore the teams of a unit at their new places (R56, R374, R406). -/
def State.restoreAt (s : State) (p : SavedTeam × Fit) : State :=
  let x := p.1
  let f := p.2
  let mat := if x.matrix then s.freeMat f.die f.core else none
  let bs := s.saveRead x.ctx x.off (teamArea x.shsize x.opSize)
  let t := (s.teamFrom x f mat).reenter bs
  let s1 := { s with saved := s.saved.filter (fun y => y.id != x.id), teams := s.teams ++ [t], tags := localTags x.ctx f ++ s.tags }
  let s2 := match mat with | some n => { s1 with matctx := s1.matctx ++ [s.matFrom x f n] } | none => s1
  let claims := (x.groups.zipIdx.filterMap (fun g =>
    match g.1.claim with | some n => some (ClaimReq.mk f.die f.core (f.slots.getD g.2 (0, 0)).1 x.id g.2 n) | none => none))
  State.wake { s2 with claims := s2.claims ++ claims }
/-- Try to restore a unit. -/
def State.tryRestore (s : State) (u : PlaceUnit) : Tried :=
  let xs := u.restore.filterMap (fun id => s.saved.find? (fun x => x.id == id))
  match xs with
  | [] => .placed s
  | x :: _ =>
    match xs.find? (fun y => !(s.formatOk y)) with
    | some y => .placed (s.endContext u.ctx (some y.id) .badsave).bumpNonce
    | none =>
      match s.chooseAll (xs.map SavedTeam.need) [x.die] with
      | none => .waits
      | some fits => .placed ((xs.zip fits).foldl State.restoreAt s)
/-- Launched by one queue: the same command queue, or the same task queue (R359). -/
def PlaceUnit.sameQueue (u v : PlaceUnit) : Bool :=
  u.ctx == v.ctx &&
    (match u.queue, v.queue, u.origin, v.origin with
     | some a, some b, _, _ => a == b
     | none, none, .dispatch _ a, .dispatch _ b => a == b
     | _, _, _, _ => false)
/-- The context of a unit runs. -/
def State.ctxRuns (s : State) (ctx : Nat) : Bool := match s.ctx? ctx with | some c => c.run == .running && !c.ended && !c.dying | none => false
/-- The context of a unit is no more. -/
def State.ctxGone (s : State) (ctx : Nat) : Bool := match s.ctx? ctx with | some c => c.ended || c.dying | none => true
/-- One round over the list (R359): `kept` is what stays, `head` the unit that did not fit, `block` that a restored unit
waits, which nothing passes (R374). DEDUCED (log entry 26; unsafe). -/
def State.round : List PlaceUnit → List PlaceUnit → Option PlaceUnit → Bool → State → State
  | [], kept, _, _, s => { s with units := kept }
  | u :: l, kept, head, block, s =>
    if s.ctxGone u.ctx then State.round l kept head block s
    else if block || !(s.ctxRuns u.ctx) then State.round l (kept ++ [u]) head block s
    else if !u.restore.isEmpty then
      match State.tryRestore { s with units := kept ++ l } u with
      | .placed t => State.round l (kept.filter (fun k => !(t.ctxGone k.ctx))) head block t
      | _ => State.round l (kept ++ [u]) head true s
    else if (match head with | some h => decide (4 ≤ h.fails) || u.sameQueue h | none => false) then
      State.round l (kept ++ [u]) head block s
    else
      match s.placeMany (u.more + 1) u with
      | (t, none, _) => State.round l kept head block t
      | (t, some v, true) => State.round l kept head block (t.unitNofit v)
      | (t, some v, false) =>
        if head.isNone then State.round l (kept ++ [{ v with fails := v.fails + 1 }]) (some { v with fails := v.fails + 1 }) block t
        else State.round l (kept ++ [v]) head block t
/-- The saved teams that a kill has reached end (R238, R265). -/
def State.doomed (s : State) : State :=
  (s.saved.filter (fun x => x.doomed.isSome)).foldl (fun a x => a.dropSaved (fun y => y.id == x.id) (x.doomed.getD .callfault)) s
/-- A round is due: an event of an earlier cycle has asked for it. -/
def State.roundDue (s : State) : Bool := s.placeDue && decide (s.placeSince < s.clock)
/-- PLACEMENT_ROUND (R359): events of one cycle share the round, and what happens in the cycle of a round calls for the
next one. -/
def execPlacementRound (s : State) : Out :=
  if s.roundDue then
    let s1 := { s with placeDue := decide (s.clock ≤ s.placeLast), placeSince := s.placeLast }.doomed
    .next (State.round s1.units [] none false s1).bumpNonce
  else .next s

/-! ### TEAM_COMPLETE (R118, R265, R327, R356, R362) -/

/-- Every thread has exited and every issued operation has completed (R118). -/
def State.complete (s : State) (t : Team) : Bool :=
  t.all.all (fun p => p.2.2.exited) && s.quiet t &&
    (match s.matctxOf t with | some m => m.running.isNone && m.pending.isEmpty | none => true)
/-- The resources of a context that CTXDESTROY has named go once its last team has completed (R390).
DEDUCED (log entry 34; unsafe). -/
def State.reap (s : State) (ctx : Nat) : State :=
  match s.ctx? ctx with
  | none => s
  | some c =>
    if !c.dying || s.teams.any (fun t => t.ctx == ctx) then s
    else
      let s1 := (s.saved.filter (fun x => x.ctx == ctx)).foldl (fun a x => a.dropSights x.id) (s.dropPasses ctx)
      let mine (r : EstReq) : Bool := match r with | .contrib c => c.ctx == ctx | _ => false
      let clean (u : EstUnit) : EstUnit := ⟨u.die, u.core, u.inbuf.filter (fun r => !(mine r)), u.staged.filter (fun c => c.ctx != ctx)⟩
      let s2 := { s1 with
        contexts := s1.contexts.filter (fun x => x.id != ctx), saved := s1.saved.filter (fun x => x.ctx != ctx),
        regions := s1.regions.filter (fun r => r.ctx != ctx), regionOps := s1.regionOps.filter (fun o => o.by_.ctx != ctx), copies := s1.copies.filter (fun x => x.ctx != ctx),
        est := s1.est.map clean, calls := s1.calls.filter (fun x => x.ctx != ctx) }
      let s3 := { s2 with
        taskqs := s2.taskqs.filter (fun q => q.ctx != ctx), pushes := s2.pushes.filter (fun p => p.ctx != ctx),
        regionTab := s2.regionTab.filter (fun r => r.owner != ctx), tags := s2.tags.filter (fun t => t.owner != ctx),
        cmdqs := s2.cmdqs.filter (fun q => q.ctx != ctx), mapWaits := s2.mapWaits.filter (fun w => w.ctx != ctx) }
      let hub := { s3.hub with peers := s3.hub.peers.filter (fun p => p.ctx != ctx) }
      { s3 with
        runs := s3.runs.filter (fun r => r.ctx != ctx), units := s3.units.filter (fun u => u.ctx != ctx), hub := hub }.askRound
/-- A team's end: the calls that the Cutter and Icing have accepted take effect (R118, R308), what it held is released, its
passes are settled, and its launch has one team less. -/
def State.endTeam (s : State) (t : Team) : State :=
  let s1 := ((s.takeCalls t.id).endPasses t.ctx t.id).leaveCore t
  ((s1.dropSights t.id).lessTeams t.origin 1).askRound.settle

end Sys2Proof.Machine
end

