-- ==== Sys2Proof/Machine/Graph.lean ====
section
/-!
DEFINITION. Launch graphs (R354 to R356, R402): the checks of a table, the launch of a node, NODE_COMPLETE, the cancel
of a graph, and dispatch from task queues (R362).
-/

namespace Sys2Proof.Machine

/-! ### COUNTER and STATE (R354) -/

/-- The number of a node state. -/
def NodeState.num : NodeState → Nat | .waiting => 1 | .running => 2 | .done => 3 | .failed => 4 | .skipped => 5 | .cancelled => 6
/-- STATE of a node: the cause of the first kill stands in it when the node failed or was cancelled. -/
def NodeRun.word (n : NodeRun) : Word :=
  BitVec.ofNat 32 (n.state.num +
    (if n.state = .failed ∨ n.state = .cancelled then (match n.cause with | some c => c.code.toNat | none => 0) * 2 ^ 8 else 0))
/-- A launched graph. -/
def State.run? (s : State) (id : Nat) : Option GraphRun := s.runs.find? (fun r => r.id == id)
/-- The Proofer writes a node's COUNTER and STATE. -/
def State.putNode (s : State) (run idx : Nat) : State :=
  match s.run? run with
  | none => s
  | some r =>
    match r.nodes[idx]? with
    | none => s
    | some n => s.writeVirt r.ctx (r.table + 256 * idx + 0xB8) (leBytes 4 n.counter ++ wordBytes n.word)
/-- Change a node and write it. -/
def State.setNode (s : State) (run idx : Nat) (f : NodeRun → NodeRun) : State := (s.modNode run idx f).putNode run idx

/-! ### `.data scratch` (R268, R269, R402) -/

/-- An entry of the region table covers a granule of a task queue's ring; it stays as it is while the queue exists
(R360). -/
def State.ringEntry (s : State) (r : RegionEnt) : Bool :=
  s.taskqs.any (fun q => q.die == r.die && spCore q.ring == r.core && decide (spOff q.ring / 4096 ≤ r.limit) &&
    decide (r.base ≤ (spOff q.ring + 64 * 2 ^ q.logn - 1) / 4096))
/-- A granule of a core that no region entry covers and no team holds is given to a context: the entry beside it grows or
a free entry takes it, and its lines are zeroed and tagged. DESIGN CHOICE (log entry 21; unsafe). -/
def State.giveGranule (s : State) (ctx die core g : Nat) : State :=
  let held := (s.onCore die core).any (fun t => t.localGran.contains g)
  if s.covered die core g || held || decide (Config.granules ≤ g) then s
  else
    let mine (r : RegionEnt) : Bool := r.die == die && r.core == core
    let next (r : RegionEnt) : Bool := mine r && r.owner == ctx && !r.est && r.limit + 1 == g && !(s.ringEntry r)
    let idx := (List.range 16).find? (fun k => !(s.regionTab.any (fun r => mine r && r.idx == k)))
    let tab := if s.regionTab.any next then some (replaceIf next (fun r => { r with limit := g }) s.regionTab)
      else match idx with | some k => some (s.regionTab ++ [⟨die, core, k, ctx, false, g, g⟩]) | none => none
    match tab with
    | none => s
    | some l =>
      State.zeroLines { s with regionTab := l, tags := ⟨die, core, 64 * g, 64, ctx, false⟩ :: s.tags } die (core * 2 ^ 22 + 4096 * g) 4096
/-- The image of a launch is written at SCRATCH on a die: its granules are allocated where they are free, and every line
that is the context's takes its bytes. DEDUCED (log entry 25; unsafe). -/
def State.putScratch (s : State) (ctx die addr : Nat) (img : List Byte) : State :=
  let gs := (List.range (spOff addr / 4096 + img.length / 4096 + 2)).filter (fun g =>
    decide (spOff addr / 4096 ≤ g) && decide (4096 * g < spOff addr + img.length))
  let s1 := gs.foldl (fun a g => a.giveGranule ctx die (spCore addr) g) s
  let cells := img.zipIdx.filter (fun p => (s1.dieFault ctx die (addr + p.2) .any).isNone)
  (s1.writeDie none die (cells.map (fun p => (addr + p.2, p.1)))).wake
/-- The `.data scratch` image of a node on the dies given. DEDUCED (log entry 25; unsafe). -/
def State.launchScratch (s : State) (ctx : Nat) (n : List Byte) (dies : List Nat) : State :=
  match s.kernel? ctx (nodeEntry n) with
  | none => s
  | some k => if nodeScratch n = 0 ∨ k.scratch = [] then s else dies.foldl (fun a d => a.putScratch ctx d (nodeScratch n) k.scratch) s

/-! ### The launch of a node (R354, R357, R358) -/

/-- A unit enters the placement list, or fails at once when it could never be placed. -/
def State.enlist (s : State) (u : PlaceUnit) : State :=
  let size := match s.ctx? u.ctx with | some c => c.saveSize | none => 0
  let s1 := s.askRound
  if s1.noFit (nodeNeed u.image) u.teams (s1.unitDies u) size then s1.unitNofit u else { s1 with units := s1.units ++ [u] }
/-- A node is launched: STATE 2, its image, its units. A node of a context that has ended fails.
DEDUCED (log entry 28; unsafe). -/
def State.startNode (s : State) (run idx : Nat) : State :=
  match s.run? run with
  | none => s
  | some r =>
    let n := r.images.getD idx []
    let k := nodeCsize n + 1
    if s.ctxGone r.ctx then
      s.setNode run idx (fun x => ({ x with state := .running, left := 0, dueFrom := s.clock + 1 } : NodeRun).kill .ctxlost s.clock 0)
    else
      let s1 := s.setNode run idx (fun x => { x with state := .running, left := nodeTeams n })
      let s2 := s1.launchScratch r.ctx n (nodeDies n)
      s2.enlist { ctx := r.ctx, origin := .node run idx, clock := (s2.view 4).clock, queue := some r.queue, firstTeam := 0, teams := k,
                  more := nodeTeams n / k - 1, image := n, fails := 0, restore := [] }

/-! ### The checks of a table (R355) -/

/-- What is left of a set of nodes after those that no member names as successor are taken away, `n` times. -/
def peel (succ : Nat → List Nat) : Nat → List Nat → List Nat
  | 0, l => l
  | n + 1, l => peel succ n (l.filter (fun i => l.any (fun j => (succ j).contains i)))
/-- The table passes R355. DEDUCED (log entry 25; unsafe). -/
def tableOk (imgs : List (List Byte)) : Bool :=
  let n := imgs.length
  let succ (i : Nat) : List Nat := nodeSucc (imgs.getD i [])
  let idx := List.range n
  imgs.all nodeOk && idx.all (fun i => (succ i).all (fun x => decide (x < n)) && decide (succ i).Nodup) &&
    idx.all (fun i => nodePred (imgs.getD i []) == (idx.filter (fun j => (succ j).contains i)).length) &&
    (peel succ n idx).isEmpty
/-- What a launch comes to. -/
inductive LaunchRes where
  | ok (s : State)
  | fault (code : Nat)
  /-- A page must first be made resident. -/
  | stall (va : Nat)
/-- launch (R353 to R355) for a queue: table address and number of nodes. DEDUCED (log entry 25; unsafe). -/
def State.launch (s : State) (q : CmdQ) (va n : Nat) : LaunchRes :=
  if n = 0 ∨ 4096 < n ∨ va % 256 ≠ 0 then .fault 6
  else
    match s.span q.ctx va (256 * n) false q.lost, s.span q.ctx va (256 * n) true q.lost with
    | .bad, _ => .fault 8
    | _, .bad => .fault 8
    | .pageIn p, _ => .stall p
    | _, .pageIn p => .stall p
    | .ready, .ready =>
      match s.readVirt q.ctx va (256 * n) with
      | none => .fault 8
      | some bs =>
        let imgs := (List.range n).map (fun i => (bs.drop (256 * i)).take 256)
        if s.runs.any (fun r => r.ctx == q.ctx && r.table == va) then .fault 7
        else if !tableOk imgs then .fault 6
        else
          let s1 := s.resolveSpan q.ctx va (256 * n)
          if (pagePoints va (256 * n)).all (fun a => (match s1.translate q.ctx a true with | .at _ => true | _ => false)) then
            let id := s1.nextId
            let node (i : List Byte) : NodeRun :=
              { state := .waiting, counter := nodePred i, left := 0, dueFrom := 0, cause := none, causeAt := (0, 0), cancelled := false }
            let r : GraphRun := { id := id, ctx := q.ctx, table := va, queue := q.num, images := imgs, nodes := imgs.map node }
            let s2 := State.bumpId { s1 with runs := s1.runs ++ [r] }
            let s3 := (List.range n).foldl (fun a i => a.putNode id i) s2
            let s4 := s3.modCmdq q.ctx q.num (fun q => { q with launches := q.launches ++ [id] })
            .ok (((List.range n).filter (fun i => nodePred (imgs.getD i []) == 0)).foldl (fun a i => a.startNode id i) s4)
          else .fault 8

/-! ### The end of nodes and graphs (R349, R352, R356) -/

/-- A graph that has no waiting and no running node is complete; a queue whose launches are all complete may resume. -/
def State.endRun (s : State) (run : Nat) : State :=
  match s.run? run with
  | none => s
  | some r =>
    if r.nodes.any (fun n => n.state == .waiting || n.state == .running) then s
    else
      let s1 := { s with runs := s.runs.filter (fun x => x.id != run) }
      s1.modCmdq r.ctx r.queue (fun q =>
        let l := q.launches.filter (fun k => k != run)
        { q with launches := l, waitl := q.waitl && !l.isEmpty })
/-- A successor loses one predecessor, and is launched when none is left. -/
def State.release (s : State) (run idx : Nat) : State :=
  let s1 := s.setNode run idx (fun x => { x with counter := x.counter - 1 })
  match s1.run? run with
  | none => s1
  | some r =>
    match r.nodes[idx]? with
    | none => s1
    | some n => if n.state = .waiting ∧ n.counter = 0 then s1.startNode run idx else s1
/-- The waiting nodes reached from a node through successors, by `n` rounds. -/
def reach (succ : Nat → List Nat) : Nat → List Nat → List Nat
  | 0, l => l
  | n + 1, l => reach succ n ((l ++ l.flatMap succ).eraseDups)
/-- The nodes that follow from a failed node are skipped. -/
def State.skipAfter (s : State) (r : GraphRun) (idx : Nat) : State :=
  let succ (i : Nat) : List Nat := nodeSucc (r.images.getD i [])
  let l := (reach succ r.nodes.length (succ idx)).filter (fun i => (match r.nodes[i]? with | some n => n.state == .waiting | none => false))
  l.foldl (fun a i => a.setNode r.id i (fun x => { x with state := .skipped })) s
/-- A node whose teams had all ended by an earlier cycle. -/
def NodeRun.over (n : NodeRun) (clock : Nat) : Bool := n.state == .running && n.left == 0 && decide (n.dueFrom ≤ clock)
/-- The next node of a graph whose completion is handled: of those that ended first, the lowest index (R356). -/
def GraphRun.due (r : GraphRun) (clock : Nat) : Option Nat := (List.range r.nodes.length).find? (fun i =>
  match r.nodes[i]? with | some n => n.over clock && r.nodes.all (fun m => !(m.over clock) || decide (n.dueFrom ≤ m.dueFrom)) | none => false)
/-- NODE_COMPLETE (R356), after the cycle in which the node's last team ended, so that completions of one cycle are handled in
ascending index. -/
def execNodeComplete (run node : Nat) (s : State) : Out :=
  match s.run? run with
  | none => .next s
  | some r =>
    if r.due s.clock ≠ some node then .next s
    else
      match r.nodes[node]? with
      | none => .next s
      | some n =>
        if n.cancelled then .next ((s.setNode run node (fun x => { x with state := .cancelled })).endRun run).bumpNonce
        else if n.cause.isSome then
          .next (((s.setNode run node (fun x => { x with state := .failed })).skipAfter r node).endRun run).bumpNonce
        else
          let s1 := s.setNode run node (fun x => { x with state := .done })
          .next (((nodeSucc (r.images.getD node [])).foldl (fun a i => a.release run i) s1).endRun run).bumpNonce
/-- A graph is cancelled (R356). -/
def State.cancelGraph (s : State) (r : GraphRun) : State :=
  let ofRun (o : Origin) : Bool := match o with | .node k _ => k == r.id | _ => false
  let running := (List.range r.nodes.length).filter (fun i => (match r.nodes[i]? with | some n => n.state == .running | none => false))
  let waiting := (List.range r.nodes.length).filter (fun i => (match r.nodes[i]? with | some n => n.state == .waiting | none => false))
  let ids := (s.teams.filter (fun t => ofRun t.origin)).map (fun t => t.id)
  let s1 := ids.foldl (fun a id => a.killTeam id .cancel) s
  let s2 := (s1.dropSaved (fun x => ofRun x.origin) .cancel).dropUnits (fun u => ofRun u.origin && u.restore.isEmpty) .cancel
  let live (a : State) (u : PlaceUnit) : Bool := u.restore.isEmpty || u.restore.any (fun id => a.saved.any (fun x => x.id == id))
  let s3 := { s2 with units := s2.units.filter (live s2) }
  let s4 := running.foldl (fun a i => a.modNode r.id i (fun x => { x.kill .cancel a.clock (2 ^ 32) with cancelled := true })) s3
  let s5 := waiting.foldl (fun a i => a.setNode r.id i (fun x => { x.kill .cancel a.clock 0 with state := .cancelled })) s4
  (s5.settle).endRun r.id

/-! ### Dispatch (R362) -/

/-- DISPATCH (R362): a queue that holds a record and may have another team launches one. DEDUCED (log entry 25; unsafe). -/
def execDispatch (ctx q : Nat) (s : State) : Out :=
  match s.taskq? ctx q with
  | none => .next s
  | some x =>
    if x.dtable = 0 ∨ x.stopped = true ∨ x.head = x.tail ∨ x.maxteams ≤ x.alive ∨ s.ctxRuns ctx = false then .next s
    else
      let s := s.touch ctx (x.dtable + 256 * x.dnode) 256
      match s.readVirt ctx (x.dtable + 256 * x.dnode) 256 with
      | none => .next s
      | some n =>
        if !nodeFit n then .next s
        else
          let s1 := s.modTaskq ctx q (fun x => { x with nextTeam := x.nextTeam + 1, alive := x.alive + 1 })
          let s2 := s1.launchScratch ctx n [x.die]
          .next (s2.enlist { ctx := ctx, origin := .dispatch ctx q, clock := (s2.view 4).clock, queue := none, firstTeam := x.nextTeam,
                             teams := 1, more := 0, image := n, fails := 0, restore := [] }).bumpNonce

end Sys2Proof.Machine
end

