-- ==== Sys2Proof/Machine/Proofer.lean ====
section
/-!
DEFINITION. Command queues (R343 to R346), the lottery (R353), the bytecodes of the Proofer's engines (R347 to R352)
and PAGE_IN (R377).
-/

namespace Sys2Proof.Machine

/-! ### Signals and unmapping (R344 to R346) -/

/-- A session. -/
def State.session? (s : State) (sid : Nat) : Option Session := s.hub.sessions.find? (fun x => x.sid == sid)
/-- The master whose session it is. -/
def State.masterOf (s : State) (sid : Nat) : Option Nat :=
  match s.session? sid with | some ⟨_, _, .master m⟩ => some m | _ => none

/-- SIGNAL (R344, R345, R385): from a master's session only. DEDUCED (log entry 23; unsafe). -/
def execSignal (sid ctx : Nat) (q rsv : BitVec 16) (tail : Word) (s : State) : Out :=
  match s.masterOf sid with
  | none => .next s
  | some m =>
    if (s.cmdq? ctx q.toNat).isNone ∨ rsv ≠ 0 then
      .next (s.journal 0x800B m .badsignal 0 0 (q.setWidth 32) (List.replicate 16 0))
    else
      let w : SigWait := ⟨ctx, q.toNat, some tail⟩
      match s.signalQueue w with
      | some t => .next t.serveWaits.bumpNonce
      | none => .next { s with mapWaits := s.mapWaits ++ [w] }
/-- IDLE of a queue in cycles: 0 selects 200 µs (R343, R346). -/
def CmdQ.idleCycles (q : CmdQ) : Nat := (if q.idle = 0 then 200 else q.idle) * Config.cyclesPerUs
/-- QUEUE_IDLE_TIMEOUT (R346). -/
def execQueueIdleTimeout (slot : Nat) (s : State) : Out :=
  match s.cmdqs.find? (fun q => q.slot == some slot) with
  | none => .next s
  | some q =>
    let last := if q.lastSignal < q.lastEnd then q.lastEnd else q.lastSignal
    if q.head = q.tail ∧ q.frames = [] ∧ q.engine = none ∧ last + q.idleCycles ≤ s.clock then .next (s.unmapQueue q.ctx q.num false)
    else .next s
/-- A PENDING queue is due (R346). -/
def CmdQ.due (clock : Nat) (q : CmdQ) : Bool := q.pending && decide (q.pendSince + 200 * Config.cyclesPerUs ≤ clock)
/-- PENDING_REMAP (R346): of the queues that are due, the one that became PENDING first. -/
def execPendingRemap (ctx q : Nat) (s : State) : Out :=
  match s.cmdq? ctx q with
  | none => .next s
  | some x =>
    if x.due s.clock && s.cmdqs.all (fun y => !(y.due s.clock) || decide (x.pendNo ≤ y.pendNo)) then
      match s.signalQueue ⟨ctx, q, none⟩ with
      | some t => .next t.serveWaits.bumpNonce
      | none => .next s
    else .next s

/-! ### The lottery (R349, R353) -/

/-- One step of the generator. -/
def lotteryNext (x : Word) : Word :=
  let a := x ^^^ (x <<< 13)
  let b := a ^^^ (a >>> 17)
  b ^^^ (b <<< 5)
/-- A mapped queue that may be drawn (R353, R390). A program slot that nothing has loaded has no program to run.
DEDUCED (log entry 24; unsafe). -/
def State.ready (s : State) (q : CmdQ) : Bool :=
  q.slot.isSome && !q.faulted && !q.waitl && q.engine.isNone && q.stalled.isNone && s.ctxRuns q.ctx &&
    (!q.frames.isEmpty || (q.head != q.tail && (SMap.get? s.programs q.prog).isSome))
/-- The ready queues in ascending slot. -/
def State.readyQueues (s : State) : List CmdQ :=
  (List.range Config.queueSlots).filterMap (fun k => s.cmdqs.find? (fun q => q.slot == some k && s.ready q))
/-- The queue that a ticket names. -/
def pickTicket : Nat → List CmdQ → Option CmdQ
  | _, [] => none
  | w, q :: l => if w < q.tickets then some q else pickTicket (w - q.tickets) l
/-- A frame at the start of a packet: its bytes, and its program as loaded now (R347, R349). -/
def State.newFrame (s : State) (q : CmdQ) (addr left : Nat) : Frame :=
  { addr := addr, left := left, packet := s.readFree q.ctx addr 64, code := (SMap.get? s.programs q.prog).getD [], pc := 0, steps := 0,
    loops := [] }
/-- Address of the ring packet that runs next (R343). -/
def CmdQ.packetAt (q : CmdQ) : Nat := q.ring + 64 * (q.head.toNat % 2 ^ q.logn)
/-- The engine of a queue starts its next ring packet, once its page is at hand. -/
def State.startPacket (s : State) (ctx num : Nat) : State :=
  match s.cmdq? ctx num with
  | none => s
  | some q =>
    if q.engine.isNone || !q.frames.isEmpty then s
    else
      match s.span ctx q.packetAt 64 false q.lost with
      | .pageIn p => s.modCmdq ctx num (fun q => { q with stalled := some p })
      | _ => s.modCmdq ctx num (fun x => { x with frames := [s.newFrame q q.packetAt 0], lost := none })
/-- An engine whose queue has a packet to start: the page that it stalled on is at hand, or cannot be. -/
def State.toStart (s : State) (n : Nat) : Option CmdQ :=
  match s.engineQueue n with
  | none => none
  | some q => if q.frames.isEmpty && q.stalled.isNone && !q.waitl && !q.faulted then some q else none
/-- An engine that moves starts its packet, if it has yet to. -/
def State.startOn (s : State) (n : Nat) : State :=
  match s.toStart n with | some q => (s.startPacket q.ctx q.num).bumpNonce | none => s
/-- An engine that may draw: it was free by an earlier cycle and takes part in the lottery (R353, R399). -/
def Engine.draws (e : Engine) (clock : Nat) : Bool := e.queue.isNone && !e.service && decide (e.freeFrom ≤ clock)
/-- The engine that draws next: of those that have been free longest, the lowest, so that engines which free in one cycle draw
in ascending index. DEDUCED (log entry 24; unsafe). -/
def State.freeEngineNo (s : State) : Option Nat := (List.range s.engines.length).find? (fun n =>
  match s.engines[n]? with
  | some e => e.draws s.clock && s.engines.all (fun x => !(x.draws s.clock) || decide (e.freeFrom ≤ x.freeFrom))
  | none => false)
/-- LOTTERY_DRAW (R353). -/
def execLotteryDraw (s : State) : Out :=
  match s.freeEngineNo, s.readyQueues with
  | some n, q0 :: l =>
    let qs := q0 :: l
    let x := lotteryNext s.lottery
    let total := (qs.map (fun q => q.tickets)).sum
    (match pickTicket (x.toNat % total) qs with
     | none => .next { s with lottery := x }
     | some q =>
       let s1 := { s with lottery := x, engines := modifyAt (fun e => { e with queue := some (q.ctx, q.num) }) n s.engines }
       let s2 := s1.modCmdq q.ctx q.num (fun q => { q with engine := some n })
       .next (s2.startPacket q.ctx q.num).bumpNonce)
  | _, _ => .next s

/-! ### Bytecodes (R347 to R352) -/

/-- The engine in execution: its queue, the frame of the packet and the frames around it. -/
structure Eng where
  n : Nat
  q : CmdQ
  f : Frame
  rest : List Frame
  deriving DecidableEq, Repr
/-- The engine whose bytecode is in execution. -/
def eng? (s : State) : Option Eng :=
  match s.cur with
  | .engine n =>
    (match s.engineQueue n with
     | none => none
     | some q =>
       if q.waitl || q.faulted || q.stalled.isSome then none
       else match q.frames with | [] => none | f :: l => some ⟨n, q, f, l⟩)
  | _ => none
/-- A program register. -/
def Eng.g (e : Eng) (r : Fin 8) : DWord := e.q.g.getD r.val 0
/-- The frame after the word in execution, which is one step (R349). -/
def Frame.next (f : Frame) : Frame := { f with pc := f.pc + 1, steps := f.steps + 1 }
/-- The queue's frames after a bytecode. -/
def State.setFrames (s : State) (e : Eng) (fs : List Frame) : State :=
  s.modCmdq e.q.ctx e.q.num (fun q => { q with frames := fs, lost := none })
/-- The bytecode at hand faults the queue, which may let a signal have its slot (R345, R351). -/
def State.byteFault (s : State) (e : Eng) (code pc level : Nat) : State :=
  (s.faultQueue e.q.ctx e.q.num code (BitVec.ofNat 32 (pc % 2 ^ 16 + level * 2 ^ 16))).serveWaits
/-- A fault at the word in execution. -/
def State.faultHere (s : State) (e : Eng) (code : Nat) : State := s.byteFault e code e.f.pc e.rest.length
/-- The word waits until a page is resident. DEDUCED (log entry 24; unsafe). -/
def State.stallOn (s : State) (e : Eng) (va : Nat) : State := s.modCmdq e.q.ctx e.q.num (fun q => { q with stalled := some va })
/-- Perform a bytecode; with no engine in execution nothing happens. -/
def performByte (s : State) (f : Eng → State → State) : Out :=
  match eng? s with | none => .next s | some e => .next (f e s)
/-- A bytecode that writes one program register. -/
def performReg (s : State) (d : Fin 8) (v : Eng → DWord) : Out :=
  performByte s fun e s =>
    (s.setFrames e (e.f.next :: e.rest)).modCmdq e.q.ctx e.q.num (fun q => { q with g := q.g.set d.val (v e) })

/-- movi. -/
def execBMovi (d : Fin 8) (imm : BitVec 17) (s : State) : Out := performReg s d fun _ => imm.signExtend 64
/-- movh. -/
def execBMovh (d : Fin 8) (imm : BitVec 16) (s : State) : Out := performReg s d fun e => (e.g d <<< 16) + imm.setWidth 64
/-- add. -/
def execBAdd (d a b : Fin 8) (s : State) : Out := performReg s d fun e => e.g a + e.g b
/-- sub. -/
def execBSub (d a b : Fin 8) (s : State) : Out := performReg s d fun e => e.g a - e.g b
/-- and. -/
def execBAnd (d a b : Fin 8) (s : State) : Out := performReg s d fun e => e.g a &&& e.g b
/-- or. -/
def execBOr (d a b : Fin 8) (s : State) : Out := performReg s d fun e => e.g a ||| e.g b
/-- addi. -/
def execBAddi (d a : Fin 8) (imm : BitVec 17) (s : State) : Out := performReg s d fun e => e.g a + imm.signExtend 64
/-- shl. -/
def execBShl (d a : Fin 8) (n : Fin 64) (s : State) : Out := performReg s d fun e => e.g a <<< n.val
/-- shr. -/
def execBShr (d a : Fin 8) (n : Fin 64) (s : State) : Out := performReg s d fun e => e.g a >>> n.val
/-- ldp: eight bytes of the packet. -/
def execBLdp (d : Fin 8) (w : Fin 8) (s : State) : Out := performReg s d fun e => dwordAt e.f.packet (8 * w.val)

/-- win(x) of R347. -/
def CmdQ.win (q : CmdQ) (x : DWord) : Nat := q.wbase + (x.toNat % q.wsize / 8) * 8
/-- ldw (R347, R351). -/
def execBLdw (d a : Fin 8) (imm : BitVec 17) (s : State) : Out :=
  performByte s fun e s =>
    let va := e.q.win (e.g a + imm.signExtend 64)
    match s.span e.q.ctx va 8 false e.q.lost with
    | .bad => s.faultHere e 5
    | .pageIn p => s.stallOn e p
    | .ready =>
      let v := dwordAt (s.readFree e.q.ctx va 8) 0
      (s.setFrames e (e.f.next :: e.rest)).modCmdq e.q.ctx e.q.num (fun q => { q with g := q.g.set d.val v })
/-- stw (R347, R351, R352): a write of view 4. -/
def execBStw (a d : Fin 8) (imm : BitVec 17) (s : State) : Out :=
  performByte s fun e s =>
    let va := e.q.win (e.g a + imm.signExtend 64)
    match s.span e.q.ctx va 8 true e.q.lost with
    | .bad => s.faultHere e 5
    | .pageIn p => s.stallOn e p
    | .ready => (s.writeVirt e.q.ctx va (dwordBytes (e.g d))).setFrames e (e.f.next :: e.rest)

/-- The condition of a skip. -/
def skipHolds (cc : SkipCc) (x y : DWord) : Bool :=
  match cc with
  | .always => true
  | .eq => x == y
  | .ne => x != y
  | .ltu => decide (x.toNat < y.toNat)
  | .geu => decide (y.toNat ≤ x.toNat)
/-- skip: past the next IMM17 − 1 words. -/
def execBSkip (cc : SkipCc) (a b : Fin 8) (imm : BitVec 17) (s : State) : Out :=
  performByte s fun e s =>
    let f := if skipHolds cc (e.g a) (e.g b) then { e.f with pc := e.f.pc + imm.toNat, steps := e.f.steps + 1 } else e.f.next
    s.setFrames e (f :: e.rest)
/-- loop. -/
def execBLoop (n : Byte) (s : State) : Out :=
  performByte s fun e s => s.setFrames e ({ e.f.next with loops := (e.f.pc + 1, n.toNat) :: e.f.loops } :: e.rest)
/-- endl. -/
def execBEndl (s : State) : Out :=
  performByte s fun e s =>
    let f := match e.f.loops with
      | [] => e.f.next
      | (start, n) :: l =>
        if 1 < n then { e.f.next with pc := start, loops := (start, n - 1) :: l } else { e.f.next with loops := l }
    s.setFrames e (f :: e.rest)
/-- launch (R355): the table at gA with gB nodes. -/
def execBLaunch (a b : Fin 8) (s : State) : Out :=
  match eng? s with
  | none => .next s
  | some e =>
    match s.launch e.q (e.g a).toNat (e.g b).toNat with
    | .fault c => .next (s.faultHere e c)
    | .stall p => .next (s.stallOn e p)
    | .ok t => .next (t.setFrames e (e.f.next :: e.rest)).bumpNonce
/-- waitl (R349): the engine is freed; the queue may be drawn again once no launch of its own is left to complete. -/
def execBWaitl (s : State) : Out :=
  performByte s fun e s =>
    let s1 := s.setFrames e (e.f.next :: e.rest)
    let waits := !e.q.launches.isEmpty
    ((s1.modCmdq e.q.ctx e.q.num (fun q => { q with waitl := waits, engine := none })).freeEngine e.q.ctx e.q.num).serveWaits
/-- ib (R350): the packets of an indirect buffer. DEDUCED (log entry 24; unsafe). -/
def execBIb (a b : Fin 8) (s : State) : Out :=
  performByte s fun e s =>
    let va := (e.g a).toNat
    let n := (e.g b).toNat
    if 4 ≤ e.rest.length then s.faultHere e 3
    else if n = 0 ∨ 65536 < n ∨ va % 64 ≠ 0 then s.faultHere e 4
    else
      match s.span e.q.ctx va 64 false e.q.lost with
      | .bad => s.faultHere e 4
      | .pageIn p => s.stallOn e p
      | .ready => s.setFrames e (s.newFrame e.q va (n - 1) :: e.f.next :: e.rest)
/-- tkt. -/
def execBTkt (a : Fin 8) (s : State) : Out :=
  performByte s fun e s =>
    let v := (e.g a).toNat
    let n := if v < 1 then 1 else if 255 < v then 255 else v
    let s1 := (s.setFrames e (e.f.next :: e.rest)).modCmdq e.q.ctx e.q.num (fun q => { q with tickets := n })
    s1.writeVirt e.q.ctx (e.q.desc + 0x16) [BitVec.ofNat 8 n]
/-- endp (R349, R350): of a ring packet, HEAD advances and the engine is free; of a buffer packet, the buffer's next
packet or the packet that named the buffer goes on. DEDUCED (log entry 24; unsafe). -/
def execBEndp (s : State) : Out :=
  performByte s fun e s =>
    match e.rest with
    | [] =>
      let s1 := s.modCmdq e.q.ctx e.q.num (fun q =>
        { q with head := q.head + 1, frames := [], engine := none, lastEnd := s.clock, lost := none })
      (s1.freeEngine e.q.ctx e.q.num).serveWaits
    | p :: ps =>
      if e.f.left = 0 then s.setFrames e (p :: ps)
      else
        match s.span e.q.ctx (e.f.addr + 64) 64 false e.q.lost with
        | .bad => s.byteFault e 4 (p.pc - 1) ps.length
        | .pageIn v => s.stallOn e v
        | .ready => s.setFrames e (s.newFrame e.q (e.f.addr + 64) (e.f.left - 1) :: p :: ps)
/-- BUDGET (R349): a packet that would execute its 513th step. -/
def execBudget (n : Nat) (s : State) : Out :=
  match eng? { s with cur := .engine n } with
  | none => .next s
  | some e => if stepLimit ≤ e.f.steps then .next (s.faultHere e 2) else .next s

/-! ### PAGE_IN (R377, R390) -/

/-- PAGE_IN (R377): the Proofer makes a page resident that something waits for; without a frame, or with a backing that
cannot be read, the accesses are unresolvable. -/
def execPageIn (ctx va : Nat) (ok : Bool) (data : List (Nat × Byte)) (s : State) : Out :=
  match s.pageAt ctx va with
  | none => .next s
  | some p =>
    match p.place with
    | .resident _ => .next s
    | _ =>
      if !(s.pageWanted ctx p) then .next s
      else
        let s0 := s.gather
        let r := match (if ok then s0.backing p data else none) with
          | some bs => s0.makeResident ctx p bs
          | none => none
        .next (r.getD (s.pageLost ctx va)).bumpNonce

end Sys2Proof.Machine
end

