-- ==== Sys2Proof/Machine/Storage.lean ====
section
/-!
DEFINITION. Storage errors (R381 to R384): SCRUB, which also stands for an error that a read finds.
-/

namespace Sys2Proof.Machine

/-- DETAIL of an UNCORR entry (R394). -/
def uncorrDetail (cls die core word : Nat) : Nat := cls * 2 ^ 28 + die % 4 * 2 ^ 26 + core % 128 * 2 ^ 19 + word % 2 ^ 19
/-- A part of a location that is not fixed. DEDUCED (log entry 37; unsafe). -/
def State.freeWhere (s : State) (k : Nat) : Nat := (Config.freeWord (wideKey s.nonce 55 k)).toNat
/-- An UNCORR entry (R382). -/
def State.uncorr (s : State) (ctx cls die core word : Nat) : State := s.event 0x8004 ctx (uncorrDetail cls die core word)
/-- Cycles in one second. -/
abbrev second : Nat := 1000000 * Config.cyclesPerUs
/-- When a CORRECTED event was last journalled for an array. -/
def State.corrTime (s : State) (a : ArrayId) : Option Nat := (s.hub.corrTimes.find? (fun p => p.1 == a)).map Prod.snd
/-- A single-bit error of an array is corrected (R381). -/
def State.correct (s : State) (a : ArrayId) : State :=
  let n := s.hub.corrcount + 1
  let s1 := { s with hub := { s.hub with corrcount := n } }
  let quiet : Bool := match s.corrTime a with | some t => decide (s.clock < t + second) | none => false
  if quiet then s1
  else
    let s2 := { s1 with hub := { s1.hub with corrTimes := (a, s.clock) :: s1.hub.corrTimes.filter (fun p => p.1 != a) } }
    s2.event 0x8003 0 (loWord n).toNat
/-- An uncorrectable error in a scratchpad line (R382): a line of a context is marked poisoned, and no engine reads or writes
it from then on. DEDUCED (log entry 37; unsafe). -/
def State.badLine (s : State) (die core off : Nat) : State :=
  let owner := (s.tagAt die core off).1
  let s1 := s.uncorr owner 2 die core (off / 8)
  if owner = 0 then s1.zeroLines die (core * 2 ^ 22 + off / 64 * 64) 64
  else (s1.poison die (core * 2 ^ 22 + off)).endContext owner (((s.onCore die core).find? (fun t => t.localGran.contains (off / 4096))).map (fun t => t.id)) .uncorr
/-- The accumulator stores of a team that have yet to be made are dropped: their data are never delivered (R382). -/
def Team.dropStores (t : Team) : Team :=
  { t with groups := t.groups.map (fun g => { g with ops := g.ops.map (fun o =>
      match o.acc with | .st .. => { o with acc := .none, waits := [] } | _ => o) }) }
/-- An uncorrectable error in what a team holds (R382): where it is in an operand buffer or an accumulator, what would store
from there does not; all else that the team has issued completes (R265). DEDUCED (log entry 37; unsafe). -/
def State.badTeam (s : State) (team cls : Nat) : State :=
  match s.team? team with
  | none => s
  | some t => (((s.uncorr t.ctx cls t.die t.core (s.freeWhere 0)).modTeam team (if cls = 3 ∨ cls = 4 then Team.dropStores else id)).killTeam team .uncorr).settle

/-- An eld whose request is lost waits for it no longer. -/
def State.loseEld (s : State) (q : EstReq) : State :=
  match q with
  | .contrib _ => s
  | .read team gix slot _ _ _ _ =>
    let less (o : PendOp) : PendOp := if o.slot = slot ∧ o.kind = .eld then { o with need := o.need - 1 } else o
    s.modGroup team gix (fun g => { g with ops := g.ops.map less })
/-- The context of the team that an estimator request is of. -/
def State.reqCtx (s : State) (q : EstReq) : Option Nat :=
  match q with | .contrib c => some c.ctx | .read team .. => (s.team? team).map (fun t => t.ctx)
/-- A copy, estimator or call buffer entry: its context, the die and the core of the buffer, and the state without it. What
it carries is never delivered (R382). -/
def State.takeEntry (s : State) (b : BufEntry) : Option (Nat × Nat × Nat × State) :=
  match b with
  | .copy id => (s.copy? id).map (fun c => (c.ctx, c.die, c.core, s.endCopy id))
  | .call id => (s.call? id).bind (fun c => if c.accepted then none else some (c.ctx, c.die, c.core, s.dropCall id))
  | .request die core k =>
    let u := s.estUnit die core
    (u.inbuf[k]?).bind (fun q => (s.reqCtx q).map (fun ctx => (ctx, die, core, (s.setUnit { u with inbuf := u.inbuf.eraseIdx k }).loseEld q)))
  | .staged die core k =>
    let u := s.estUnit die core
    (u.staged[k]?).map (fun c => (c.ctx, die, core, s.setUnit { u with staged := u.staged.eraseIdx k }))

/-- The frame of HBM or of the CXL tier that a page lives in. -/
def Page.frame? (p : Page) : Option Nat :=
  match p.place with | .resident pa => some pa | .cxl pa => some pa | .remote _ _ => none
/-- The 64 KiB units of the physical page at an address, as every context that maps it has it, the unit of the address
first; with no page there, that unit (R384). -/
def State.framesAt (s : State) (pa : Nat) : List Nat :=
  pa / 65536 :: (s.contexts.flatMap (fun c => c.pages.flatMap (fun p =>
    match p.frame? with
    | some f => if f ≤ pa ∧ pa < f + p.size then (List.range (p.size / 65536)).map (fun k => f / 65536 + k) else []
    | none => []))).filter (fun n => n != pa / 65536)
/-- SCRUB (R381 to R384): the scrubber, or a read, finds nothing or an error. DEDUCED (log entry 37; unsafe). -/
def execScrub (found : Option ErrLoc) (s : State) : Out :=
  match found with
  | none => .next s
  | some (.single a) => .next (s.correct a)
  | some (.hub word) => .next (s.uncorr 0 7 0 0 word)
  | some (.scratch die core off) => .next (s.badLine die core off).bumpNonce
  | some (.regs team) => .next (s.badTeam team 1).bumpNonce
  | some (.teamState team cls) => .next (s.badTeam team cls).bumpNonce
  | some (.entry b) =>
    (match s.takeEntry b with
     | none => .next s
     | some (ctx, die, core, t) => .next ((t.uncorr ctx 6 die core (s.freeWhere 0)).endContext ctx none .uncorr).bumpNonce)
  | some (.unitCall call) =>
    (match s.call? call with
     | none => .next s
     | some c =>
       if c.accepted then .next ((s.uncorr c.ctx 8 c.die c.core (s.freeWhere 0)).turnAway c 4 (s.serves c) 0) else .next s)
  | some (.unitPass pass) =>
    (match s.pass? pass with
     | none => .next s
     | some p => .next (((s.uncorr p.ctx 8 p.die (s.freeWhere 2) (s.freeWhere 0)).abandon p).finishPass p.id).bumpNonce)
  | some (.page pa) =>
    if s.isRetired pa then .next s
    else .next (State.event { s with retiredPages := s.retiredPages ++ s.framesAt pa } 0x8005 0 (pa / 65536))

end Sys2Proof.Machine
end

