-- ==== Sys2Proof/Machine/Hub.lean ====
section
/-!
DEFINITION. The hub (R385 to R399): sessions and peers, the handling of a command record, HSEM, boot and power loss,
service operations, and the events TEAM_COMPLETE and SAVE, which may complete a command.
-/

namespace Sys2Proof.Machine

/-! ### Sessions and peers (R385, R408) -/

/-- SESSION_ESTABLISH (R385): a session is bound to a master's key or to that of a peer. -/
def execSessionEstablish (sid port : Nat) (key : List Byte) (s : State) : Out :=
  if (s.session? sid).isSome || decide (8 ≤ port) || s.hub.portsOut.contains port then .next s
  else
    let k : Option SessKey :=
      match [0, 1].find? (fun m => match s.hub.masters[m]? with | some x => x.key == key | none => false) with
      | some m => some (.master m)
      | none => if s.hub.peers.any (fun p => p.key == key) then some (.peer key) else none
    match k with
    | none => .next s
    | some k => .next { s with hub := { s.hub with sessions := s.hub.sessions ++ [⟨sid, port, k⟩] } }
/-- The hub sends a message. -/
def State.send (s : State) (m : OutMsg) : State := { s with hub := { s.hub with outbox := s.hub.outbox ++ [m] } }
/-- A peer handle of a context names the peer of a key (R389). -/
def State.handleIs (s : State) (ctx h : Nat) (key : List Byte) : Bool :=
  s.hub.peers.any (fun p => p.ctx == ctx && p.handle == h && p.key == key)
/-- Every page of a span is mapped for the peer whose key the session is bound to (R385, R390).
DEDUCED (log entry 36; unsafe). -/
def State.peerMay (s : State) (sid ctx va n : Nat) : Bool :=
  match s.session? sid with
  | some ⟨_, _, .peer key⟩ =>
    (pagePoints va n).all (fun a =>
      match s.ctx? ctx with
      | some x => (match x.page? a with | some p => s.handleIs ctx p.peer key | none => false)
      | none => false)
  | _ => false
/-- PEER_WRITE (R302, R408): a write of view 4, acknowledged once it is applied there. A write that its pages do not
admit is discarded. DEDUCED (log entry 36; unsafe). -/
def execPeerWrite (sid ctx va : Nat) (data : List Byte) (s : State) : Out :=
  let s1 := s.touch ctx va data.length
  if s.peerMay sid ctx va data.length && s1.span ctx va data.length true none == .ready then
    .next ((s1.writeVirt ctx va data).send (.ack sid))
  else .next s
/-- PEER_READ (R385): the bytes as view 4 holds them. DEDUCED (log entry 36; unsafe). -/
def execPeerRead (sid ctx va n : Nat) (s : State) : Out :=
  if s.peerMay sid ctx va n then
    let s1 := s.touch ctx va n
    match s1.readVirt ctx va n with
    | some bs => .next (s1.send (.read sid bs))
    | none => .next s
  else .next s

/-! ### Command records (R386 to R391) -/

/-- Bytes 0 to 0x10 + LEN − 1 of a record. -/
def recBytes (r : MRec) (cmd : BitVec 16) : List Byte :=
  wordBytes r.seq ++ leBytes 2 cmd.toNat ++ leBytes 2 r.body.length ++ wordBytes r.ctx ++ wordBytes r.rsv ++ r.body
/-- H of a record. -/
def recHash (r : MRec) (cmd : BitVec 16) : List Byte := shake256 (recBytes r cmd) 64
/-- The master whose key verifies the signature (R386). -/
def State.signer (s : State) (cmd : BitVec 16) (r : MRec) : Option Nat :=
  [0, 1].find? (fun m => match s.hub.masters[m]? with | some x => ed448Verify x.key (recHash r cmd) r.sig | none => false)
/-- A master port. -/
def State.master (s : State) (m : Nat) : Master := s.hub.masters.getD m ⟨[], 0, [], none, false⟩
/-- Change a master port. -/
def State.modMaster (s : State) (m : Nat) (f : Master → Master) : State :=
  { s with hub := { s.hub with masters := modifyAt f m s.hub.masters } }
/-- The holder of HSEM (R392). -/
def State.holder (s : State) : Option Nat := match s.hub.hsem with | some (m, e) => if s.clock < e then some m else none | none => none
/-- A violation freezes a master, and takes HSEM from it (R392). -/
def State.freeze (s : State) (m : Nat) : State :=
  let s1 := s.modMaster m (fun x => { x with frozen := true })
  if s.holder = some m then { s1 with hub := { s1.hub with hsem := none } } else s1
/-- The response record of 0x20 bytes and its body (R391). -/
def Response.bytes (r : Response) (code : Nat) : List Byte :=
  leBytes 8 r.jseq ++ leBytes 2 r.cmd.toNat ++ leBytes 1 code ++ leBytes 1 0 ++ wordBytes r.nextSeq ++ leBytes 4 r.body.length ++
    List.replicate 12 0 ++ r.body

/-- What executing a command comes to. -/
structure CmdRes where
  s : State
  status : Status
  body : List Byte := []
  /-- The response is sent when the command completes. -/
  later : Bool := false
  /-- The device is reset once the response is sent. -/
  reset : Bool := false
/-- A command that is not executed. -/
def CmdRes.no (s : State) (st : Status) : CmdRes := { s := s, status := st }
/-- A command that is executed. -/
def CmdRes.ok (s : State) : CmdRes := { s := s, status := .ok }

/-- A command is journalled and answered (R387, R391, R393). DEDUCED (log entry 29; unsafe). -/
def State.respond (s : State) (cmd : BitVec 16) (r : MRec) (m : Nat) (st : Status) (body : List Byte) (keep later : Bool) : State :=
  let x : Response :=
    { sid := r.sid, jseq := s.hub.jseq, cmd := cmd, status := st, nextSeq := (s.master m).last + 1, body := body }
  let s1 := s.journal cmd m st r.seq r.ctx 0 ((recHash r cmd).take 16)
  if later then s1
  else
    let s2 := s1.send (.response x)
    if keep then s2.modMaster m (fun y => { y with lastResp := some x }) else s2

/-- The device after a reset (R389, R392, R397): what its flash holds stays, and what it has sent is sent.
DESIGN CHOICE (log entry 31; unsafe). -/
def State.deviceReset (s : State) : State :=
  let key (m : Nat) : List Byte := if Config.freeBool (wideKey s.nonce 54 m) then (s.master m).key else Config.masterKey m
  let hub := { Hub.reset with
    masters := [⟨key 0, 0, [], none, false⟩, ⟨key 1, 0, [], none, false⟩], flash := s.hub.flash, markers := s.hub.markers,
    outbox := s.hub.outbox }
  { State.reset with agenda := s.agenda, nonce := s.nonce + 1, nextId := s.nextId, hub := hub }

/-- A record of master port 1 ends the cycle for the hub: one that reaches it in that cycle at port 0 has been taken before
it (R387). -/
def State.closeCycle (s : State) (port : Nat) : State := if port = 1 then s.clockTo (s.clock + 1) else s
/-- The session of a repeated CTXPREEMPT that is not answered yet is answered with it (R387, R391). -/
def State.askAgain (s : State) (m sid : Nat) (seq : Word) : State :=
  let pending (c : Context) : Bool := match c.run with | .preempting _ n _ k => n == m && k == seq | _ => false
  { s with contexts := replaceIf pending (fun c => { c with again := c.again ++ [sid] }) s.contexts }
/-- Handle a command record (R386, R387, R392, R396): `hsem` marks the commands that need HSEM, `loader` those that the
recovery loader accepts. DEDUCED (log entry 29; unsafe). -/
def performCommand (cmd : BitVec 16) (r : MRec) (hsem loader : Bool) (s : State) (body : Nat → State → CmdRes) : Out :=
  match s.masterOf r.sid with
  | none => .next s
  | some sm =>
    if s.hub.needBoot then .next s
    else
      match s.signer cmd r with
      | none => .next ((s.respond cmd r sm .badsig [] false false).closeCycle sm)
      | some m =>
        let x := s.master m
        let dg := (recHash r cmd).take 16
        if r.seq ≠ x.last + 1 then
          if r.seq = x.last ∧ dg = x.lastDigest then
            match x.lastResp with
            | some y => .next ((s.send (.response { y with sid := r.sid })).closeCycle sm)
            | none => .next ((s.askAgain m r.sid r.seq).closeCycle sm)
          else .next ((s.respond cmd r m .badseq [] false false).closeCycle sm)
        else
          let s1 := s.modMaster m (fun y => { y with last := r.seq, lastDigest := dg, lastResp := none })
          let res : CmdRes :=
            if x.frozen then .no s1 .frozen
            else if s.hub.recovery && !loader then .no s1 .badcmd
            else if hsem && s.holder != some m then .no (s1.freeze m) .hsemreq
            else body m s1
          let b := match res.status with | .ok => res.body | .gone => res.body | _ => []
          let t := res.s.respond cmd r m res.status b true res.later
          .next (if res.reset then t.deviceReset else (t.closeCycle sm).bumpNonce)

/-! ### HSEM (R392) -/

/-- HSEM_LEASE_EXPIRY (R392). -/
def execHsemLeaseExpiry (s : State) : Out :=
  match s.hub.hsem with
  | some (_, e) => if e ≤ s.clock then .next { s with hub := { s.hub with hsem := none } } else .next s
  | none => .next s

/-! ### Firmware (R396, R397) -/

/-- CHECK of a marker record. -/
def markerCheck (slot : Byte) (mseq : Word) (idig : List Byte) : List Byte := shake256 (slot :: wordBytes mseq ++ idig) 16
/-- A valid marker record. -/
def Marker.valid (k : Marker) : Bool := k.check == markerCheck k.slot k.mseq k.idig
/-- A marker record from the bytes of its sector. -/
def markerFrom (bs : List Byte) : Marker := ⟨byteAt bs 0, wordAt bs 1, (bs.drop 5).take 64, (bs.drop 69).take 16⟩
/-- The image of a slot verifies, apart from its digest. DESIGN CHOICE (log entry 19; unsafe). -/
def imageOk (img : List Byte) : Bool :=
  ed448Verify Config.rootKey (shake256 (Config.imageBody img) 64) (Config.imageSig img) && decide (Config.svnFloor ≤ Config.imageSvn img)
/-- The slot that a record names verifies under its IDIG. -/
def Hub.slotOk (h : Hub) (k : Marker) : Bool :=
  match h.flash[k.slot.toNat]? with
  | some img => imageOk img && shake256 img 64 == k.idig
  | none => false
/-- The records in descending MSEQ, K0 first on a tie. -/
def Hub.byMseq (h : Hub) : List Marker :=
  match h.markers with
  | [a, b] => if a.mseq.toNat < b.mseq.toNat then [b, a] else [a, b]
  | l => l
/-- BOOT (R396). -/
def execBoot (s : State) : Out :=
  if !s.hub.needBoot then .next s
  else
    match s.hub.byMseq.find? (fun k => k.valid && s.hub.slotOk k) with
    | some k =>
      .next (State.event { s with hub := { s.hub with needBoot := false, recovery := false, booted := some k } } 0x8009 0 (k.slot.toNat % 2))
    | none =>
      .next (State.event { s with hub := { s.hub with needBoot := false, recovery := true, booted := none } } 0x800A 0 0)
/-- The slot that FWWRITE writes (R397). -/
def Hub.target (h : Hub) : Nat :=
  match h.booted with
  | some k => 1 - k.slot.toNat
  | none => (match h.byMseq.find? Marker.valid with | some k => 1 - k.slot.toNat | none => 0)
/-- The index of the record that FWCOMMIT overwrites: an invalid one counts lowest, and K0 when both are invalid (R397). -/
def Hub.lower (h : Hub) : Nat :=
  match h.markers with
  | [a, b] => if !a.valid then 0 else if !b.valid then 1 else if b.mseq.toNat < a.mseq.toNat then 1 else 0
  | _ => 0
/-- A slot's image with bytes written at an offset; bytes before it that nothing has written are unspecified.
PRESUMED (log entry 32; unsafe). -/
def patchImage (nonce : Nat) (img : List Byte) (off : Nat) (bs : List Byte) : List Byte :=
  let pad := (List.range (off - img.length)).map (fun i => Config.freeByte (wideKey nonce 56 (img.length + i)))
  (img ++ pad).take off ++ bs ++ img.drop (off + bs.length)
/-- Bytes are written into the slot of FWWRITE. -/
def State.writeFlash (s : State) (off : Nat) (bs : List Byte) : State :=
  let h := s.hub
  { s with hub := { h with flash := modifyAt (fun img => patchImage s.nonce img off bs) h.target h.flash } }
/-- POWER_LOSS (R397): a flash write under way has reached the point given. DESIGN CHOICE (log entry 31; unsafe). -/
def execPowerLoss (part : Option FlashPart) (s : State) : Out :=
  match part with
  | none => .next s.deviceReset
  | some (.image off bs) => .next (s.writeFlash off bs).deviceReset
  | some (.marker bs) =>
    let h := s.hub
    .next (State.deviceReset { s with hub := { h with markers := modifyAt (fun _ => markerFrom bs) h.lower h.markers } })

/-! ### Saved teams and the placement list (R374, R390) -/

/-- A restored unit goes among the restored ones by TEAMID, ahead of every other. -/
def insertRestored (u : PlaceUnit) : List PlaceUnit → List PlaceUnit
  | [] => [u]
  | v :: l => if v.restore.isEmpty || decide (u.firstTeam < v.firstTeam) then u :: v :: l else v :: insertRestored u l
/-- The unit that restores a cluster of saved teams, TIC 0 first. -/
def restoreUnit (xs : List SavedTeam) (no : Nat) : Option PlaceUnit :=
  let l := (List.range 8).filterMap (fun k => xs.find? (fun x => x.clusterNo == no && x.tic == k))
  match l with
  | [] => none
  | x :: _ =>
    some { ctx := x.ctx, origin := x.origin, clock := [], queue := none, firstTeam := x.teamid.toNat, teams := l.length, more := 0,
           image := [], fails := 0, restore := l.map (fun y => y.id) }
/-- Saved teams enter the placement list. -/
def State.restoreAll (s : State) (xs : List SavedTeam) : State :=
  let us := (xs.map (fun x => x.clusterNo)).eraseDups.filterMap (restoreUnit xs)
  State.askRound { s with units := us.foldl (fun a u => insertRestored u a) s.units }

/-! ### TEAM_COMPLETE and SAVE (R118, R371, R390) -/

/-- A context whose pre-emption is complete answers its CTXPREEMPT (R390). -/
def State.preemptDone (s : State) (ctx : Nat) : State :=
  match s.ctx? ctx with
  | none => s
  | some c =>
    match c.run with
    | .preempting sid m jseq seq =>
      if s.teams.any (fun t => t.ctx == ctx) then s
      else
        let n := (s.saved.filter (fun x => x.ctx == ctx)).length
        let x : Response := { sid := sid, jseq := jseq, cmd := 0x1B, status := .ok, nextSeq := seq + 1, body := leBytes 4 n }
        let s0 := (s.unstageCtx ctx).modCtx ctx (fun c => { c with run := .saved, again := [] })
        let s1 := c.again.foldl (fun a k => a.send (.response { x with sid := k })) (s0.send (.response x))
        if (s1.master m).last = seq then s1.modMaster m (fun y => { y with lastResp := some x }) else s1
    | _ => s
/-- TEAM_COMPLETE (R118): every thread has exited and every issued operation has completed. -/
def execTeamComplete (team : Nat) (s : State) : Out :=
  match s.team? team with
  | none => .next s
  | some t => if s.complete t then .next (((s.endTeam t).preemptDone t.ctx).reap t.ctx).bumpNonce else .next s
/-- No commit of Icing that has begun is left to a context (R326, R371). -/
def State.noCommit (s : State) (ctx : Nat) : Bool := s.passes.all (fun p => p.ctx != ctx || p.bins.all (fun b => !b.full))
/-- SAVE (R371, R372): a halted team whose operations are all performed is saved, once the calls of its context have been
answered (R342). -/
def execSave (team : Nat) (s : State) : Out :=
  match s.team? team with
  | none => .next s
  | some t =>
    if t.halted && t.killed.isNone && t.all.any (fun p => !p.2.2.exited) && s.quiet t && s.callsSettled t && s.noStep t && s.noCommit t.ctx then
      .next ((s.saveTeam t).preemptDone t.ctx).bumpNonce
    else .next s

/-! ### Live service (R399) -/

/-- The teams on a core, with their clusters. -/
def State.migrants (s : State) (die core : Nat) : List Nat :=
  let nos := (s.onCore die core).map (fun t => t.clusterNo)
  (s.teams.filter (fun t => nos.contains t.clusterNo)).map (fun t => t.id)
/-- The migration of a core begins: a spare takes it, or it leaves placement when the die has none left. -/
def State.startCore (s : State) (die core : Nat) (spare : Bool) : State :=
  let ids := s.migrants die core
  State.haltTeams { s with hub := { s.hub with svc := some ⟨.core die core spare, ids⟩ } } ids
/-- A spare core is left on a die. -/
def State.hasSpare (s : State) (die : Nat) : Bool := decide (s.cores.sparesUsed.getD die 0 < Config.spares)
/-- A core fault is served (R399); one of a core that is out of placement has nothing more to do. -/
def State.serveFault (s : State) (die core : Nat) : State :=
  if s.cores.out.contains (die * 128 + core) then s
  else if s.hasSpare die then s.startCore die core true
  else (s.event 0x8008 0 (die * 128 + core)).startCore die core false
/-- CORE_FAULT (R399): one service operation runs at a time. DEDUCED (log entry 30; unsafe). -/
def execCoreFault (die core : Nat) (s : State) : Out :=
  if Config.dies ≤ die ∨ Config.cores ≤ core then .next s
  else if s.hub.svc.isSome then .next { s with hub := { s.hub with coreFaults := s.hub.coreFaults ++ [(die, core)] } }
  else .next (s.serveFault die core)
/-- Of the core faults that wait, the first of a core that is still in placement is served (R399). -/
def State.serveFaults : List (Nat × Nat) → State → State
  | [], s => { s with hub := { s.hub with coreFaults := [] } }
  | p :: l, s =>
    if s.cores.out.contains (p.1 * 128 + p.2) then State.serveFaults l s
    else State.serveFault { s with hub := { s.hub with coreFaults := l } } p.1 p.2
/-- The command code of a service operation. -/
def SvcOp.code : SvcOp → Nat | .engine _ => 0x30 | .stack _ => 0x31 | .core _ _ _ => 0x32 | .port _ => 0x33
/-- The operation may complete. DEDUCED (log entry 30; unsafe). -/
def State.svcReady (s : State) (v : Svc) : Bool :=
  match v.op with
  | .engine n => (match s.engines[n]? with | some e => e.queue.isNone | none => true)
  | .core _ _ _ => !(s.teams.any (fun t => v.teams.contains t.id))
  | _ => true
/-- What the completion of an operation does: a die's spares are taken in ascending order.
DESIGN CHOICE (log entry 48; unsafe). -/
def State.svcEnd (s : State) (v : Svc) : State :=
  match v.op with
  | .engine n => { s with engines := modifyAt (fun e => { e with service := false, freeFrom := s.clock + 1 }) n s.engines }
  | .stack _ => s
  | .port _ => { s with hub := { s.hub with portsOut := [] } }
  | .core die core spare =>
    let k := die * 128 + core
    let used := s.cores.sparesUsed.getD die 0
    let cm := s.cores
    let cores := if spare then { cm with phys := SMap.set cm.phys k (Config.cores + used), sparesUsed := modifyAt (· + 1) die cm.sparesUsed }
      else { cm with out := cm.out ++ [k] }
    let xs := s.saved.filter (fun x => v.teams.contains x.id && s.ctxRuns x.ctx)
    State.restoreAll { s with cores := cores } xs
/-- SVCDONE (R399): the operation completes and is journalled; a core fault that waited is served.
DEDUCED (log entry 30; unsafe). -/
def execSvcDone (s : State) : Out :=
  match s.hub.svc with
  | none => .next s
  | some v =>
    if !(s.svcReady v) then .next s
    else
      let s1 := State.svcEnd { s with hub := { s.hub with svc := none } } v
      let s2 := match v.op with | .core _ _ false => s1 | op => s1.event 0x8007 0 op.code
      .next (State.serveFaults s2.hub.coreFaults s2)

end Sys2Proof.Machine
end

