-- ==== Sys2Proof/Machine/Commands.lean ====
section
/-!
DEFINITION. The masters' commands (R386 to R390, R392, R397 to R399), one definition each over `performCommand`.
-/

namespace Sys2Proof.Machine

/-! ### Bodies (R390) -/

/-- The body's bytes from an offset are all zero. -/
def zeroAt (bs : List Byte) (o n : Nat) : Bool := ((bs.drop o).take n).all (fun b => b == 0)
/-- A device-wide command with a body of `n` bytes. -/
def devOk (r : MRec) (n : Nat) : Bool := r.ctx == 0 && r.rsv == 0 && r.body.length == n
/-- The context that a command acts on, when it exists and the body has `n` bytes. -/
def State.ctxArg (s : State) (r : MRec) (n : Nat) : Option Context :=
  if r.rsv = 0 ∧ r.body.length = n then
    match s.ctx? r.ctx.toNat with | some c => if c.dying then none else some c | none => none
  else none
/-- The 64-bit value at an offset of a body, as a number. -/
def numAt (bs : List Byte) (o : Nat) : Nat := (dwordAt bs o).toNat
/-- A device-wide command. -/
def devBody (r : MRec) (n : Nat) (good : Bool) (f : Nat → State → CmdRes) (m : Nat) (s : State) : CmdRes :=
  if devOk r n && good then f m s else .no s .badcmd
/-- A command on a context. -/
def ctxBody (r : MRec) (n : Nat) (f : Context → Nat → State → CmdRes) (m : Nat) (s : State) : CmdRes :=
  match s.ctxArg r n with | some c => f c m s | none => .no s .badcmd

/-! ### HSEM, THAW, JREAD, SEED, KEYSET, RESET (R389, R391 to R393) -/

/-- HSEMACQ (R392). -/
def execHsemacq (r : MRec) (s : State) : Out :=
  let lease := (wordAt r.body 0).toNat
  performCommand 0x01 r false true s (devBody r 4 (decide (1 ≤ lease) && decide (lease ≤ 60000)) fun m s =>
    match s.holder with
    | some k =>
      if k = m then .ok { s with hub := { s.hub with hsem := some (m, s.clock + lease * 1000 * Config.cyclesPerUs) } } else .no s .busy
    | none => .ok { s with hub := { s.hub with hsem := some (m, s.clock + lease * 1000 * Config.cyclesPerUs) } })
/-- HSEMREL (R392): from a master that does not hold HSEM it is a violation. -/
def execHsemrel (r : MRec) (s : State) : Out :=
  performCommand 0x02 r true true s (devBody r 0 true fun _ s => .ok { s with hub := { s.hub with hsem := none } })
/-- THAW (R389, R392). -/
def execThaw (r : MRec) (s : State) : Out :=
  let k := (byteAt r.body 0).toNat
  performCommand 0x03 r false true s (devBody r 4 (zeroAt r.body 1 3 && decide (k ≤ 1)) fun m s =>
    if k = m ∨ (s.master k).frozen = false then .no s .badcmd else .ok (s.modMaster k (fun x => { x with frozen := false })))

/-- The code of a status (R388). -/
def Status.code : Status → Nat
  | .ok => 0 | .badsig => 1 | .badseq => 2 | .frozen => 3 | .hsemreq => 4 | .busy => 5 | .badcmd => 6 | .noroom => 7 | .nospare => 8
  | .gone => 9 | .badimage => 10 | .badsignal => 11 | .loadcheck => 12
/-- The 48 bytes of a journal entry (R393). -/
def JEntry.bytes (e : JEntry) : List Byte :=
  leBytes 8 e.jseq ++ leBytes 8 e.time ++ leBytes 2 e.cmd.toNat ++ leBytes 1 e.source ++ leBytes 1 e.status.code ++ wordBytes e.seq ++
    wordBytes e.ctx ++ wordBytes e.detail ++ padTo 16 0 e.digest
/-- JREAD (R391, R393). DEDUCED (log entry 38; unsafe). -/
def execJread (r : MRec) (s : State) : Out :=
  let from_ := numAt r.body 0
  performCommand 0x04 r false true s (devBody r 8 true fun _ s =>
    let oldest := match s.hub.journal with | e :: _ => e.jseq | [] => s.hub.jseq
    let es := (s.hub.journal.filter (fun e => decide (from_ ≤ e.jseq))).take 64
    let head (n : Nat) : List Byte := leBytes 4 n ++ leBytes 4 0 ++ leBytes 8 oldest ++ dwordBytes s.hub.corrcount
    if from_ < oldest then { s := s, status := .gone, body := head 0 }
    else { s := s, status := .ok, body := head es.length ++ es.flatMap JEntry.bytes })
/-- SEED (R353). -/
def execSeed (r : MRec) (s : State) : Out :=
  performCommand 0x20 r true false s (devBody r 4 (wordAt r.body 0 != 0) fun _ s => .ok { s with lottery := wordAt r.body 0 })
/-- KEYSET (R389): the issuing master's own key, from the next command on. PRESUMED (log entry 32; unsafe). -/
def execKeyset (r : MRec) (s : State) : Out :=
  performCommand 0x24 r true false s (devBody r 64 (zeroAt r.body 57 7) fun m s =>
    .ok (s.modMaster m (fun x => { x with key := r.body.take 57 })))
/-- RESET (R389, R390): the response is sent before the reset. DESIGN CHOICE (log entry 31; unsafe). -/
def execReset (r : MRec) (s : State) : Out :=
  performCommand 0x23 r true true s (devBody r 0 true fun _ s => { s := s, status := .ok, reset := true })

/-! ### Contexts (R380, R390) -/

/-- The lowest CTXID that no context has (R45). DEDUCED (log entry 34; unsafe). -/
def State.freeCtx (s : State) : Option Nat := ((List.range 4096).drop 1).find? (fun k => (s.ctx? k).isNone)
/-- A run of free granules of a core. -/
def State.freeRun (s : State) (die core n : Nat) : Option Nat :=
  let free := s.freeGranules die core
  free.find? (fun g => (List.range n).all (fun k => free.contains (g + k)))
/-- A new context gets a range like one of its template, at the lowest free place of the same core, with lines that hold
zero; none when there is no room. DESIGN CHOICE (log entry 21; unsafe). DEDUCED (log entry 34; unsafe). -/
def State.cloneRange (s : State) (ctx : Nat) (e : RegionEnt) : Option (State × Nat) :=
  let n := e.limit - e.base + 1
  let idx := (List.range 16).find? (fun k => !(s.regionTab.any (fun r => r.die == e.die && r.core == e.core && r.idx == k)))
  match s.freeRun e.die e.core n, idx with
  | some g, some k =>
    some (State.zeroLines { s with regionTab := s.regionTab ++ [⟨e.die, e.core, k, ctx, e.est, g, g + n - 1⟩],
                                   tags := ⟨e.die, e.core, 64 * g, 64 * n, ctx, false⟩ :: s.tags }
            e.die (e.core * 2 ^ 22 + 4096 * g) (4096 * n), g)
  | _, _ => none
/-- The ranges of a template, with the place each one's copy has. -/
def State.cloneRanges (s : State) (ctx : Nat) : List RegionEnt → Option (State × List (RegionEnt × Nat))
  | [] => some (s, [])
  | e :: l =>
    match s.cloneRange ctx e with
    | none => none
    | some (t, g) => (match State.cloneRanges t ctx l with | some (u, r) => some (u, (e, g) :: r) | none => none)
/-- A ring address of the template in the copy. -/
def movedRing (moves : List (RegionEnt × Nat)) (die addr : Nat) : Nat :=
  match moves.find? (fun p => p.1.die == die && p.1.core == spCore addr && decide (p.1.base ≤ spOff addr / 4096) &&
      decide (spOff addr / 4096 ≤ p.1.limit)) with
  | some p => addr + 4096 * p.2 - 4096 * p.1.base
  | none => addr
/-- A page that two contexts share by copy on write (R380). -/
def Page.shared (p : Page) : Page := if p.write then { p with write := false, cow := true } else p
/-- A command queue of a template, unmapped and with an empty ring (R380). -/
def CmdQ.clone (ctx : Nat) (q : CmdQ) : CmdQ :=
  { q with ctx := ctx, head := q.tail, slot := none, pending := false, frames := [], engine := none, waitl := false, stalled := none,
           lost := none, launches := [] }
/-- A task queue of a template, with an empty ring (R380). -/
def TaskQ.clone (ctx : Nat) (moves : List (RegionEnt × Nat)) (q : TaskQ) : TaskQ :=
  { q with ctx := ctx, ring := movedRing moves q.die q.ring, head := 0, tail := 0, nextTeam := 0, alive := 0, stopped := false }
/-- The copies of a context that have translated a page to write it finish their accesses to it (R379) before the page is
shared by copy on write. -/
def State.finishShared (s : State) (t : Context) : State :=
  (t.pages.filter (fun p => p.write)).foldl (fun a p => a.finishPage t.id p.va p.size) s
/-- A context made from a template (R380). DEDUCED (log entry 34; unsafe). -/
def State.cloneCtx (s : State) (new : Context) (t : Context) : Option State :=
  match (s.finishShared t).cloneRanges new.id (s.regionTab.filter (fun r => r.owner == t.id)) with
  | none => none
  | some (s1, moves) =>
    let own (p : Page) : Page := { p.shared with owned := false }
    let c := { new with pages := t.pages.map own, code := t.code, kernels := t.kernels }
    let s2 := s1.modCtx t.id (fun x => { x with pages := x.pages.map Page.shared })
    some { s2 with contexts := s2.contexts ++ [c],
                   cmdqs := s2.cmdqs ++ (s2.cmdqs.filter (fun q => q.ctx == t.id)).map (CmdQ.clone new.id),
                   taskqs := s2.taskqs ++ (s2.taskqs.filter (fun q => q.ctx == t.id)).map (TaskQ.clone new.id moves) }
/-- There is memory for a new context's page tables, of which no size is given (R390). DESIGN CHOICE (log entry 34;
safe). -/
def State.tablesFit (s : State) : Bool := Config.freeBool (wideKey s.nonce 59 0)
/-- CTXCREATE (R380, R390). DEDUCED (log entry 34; unsafe). -/
def execCtxcreate (r : MRec) (s : State) : Out :=
  let b := r.body
  let tmpl := (wordAt b 0).toNat
  let va := numAt b 8
  let size := numAt b 16
  let good := zeroAt b 4 4 && decide (va % 2 ^ 21 = 0) && decide (size % 2 ^ 21 = 0) && decide (va + size ≤ 2 ^ 48)
  performCommand 0x10 r false false s (devBody r 32 good fun _ s =>
    let t : Option (Option Context) := if tmpl = 0 then some none
      else match s.ctx? tmpl with | some c => if c.dying then none else some (some c) | none => none
    match t, (if s.tablesFit then s.freeCtx else none) with
    | none, _ => .no s .badcmd
    | _, none => .no s .noroom
    | some none, some id =>
      let c := { Context.blank id [] with saveVa := va, saveSize := size, hbmQuota := numAt b 24 }
      { s := { s with contexts := s.contexts ++ [c] }, status := .ok, body := leBytes 4 id }
    | some (some c), some id =>
      match s.cloneCtx { Context.blank id [] with saveVa := va, saveSize := size, hbmQuota := numAt b 24 } c with
      | some u => { s := u, status := .ok, body := leBytes 4 id }
      | none => .no s .noroom)
/-- CTXDESTROY (R390): teams are killed, queues faulted, and the resources go when the last team has completed.
DEDUCED (log entry 34; unsafe). -/
def execCtxdestroy (r : MRec) (s : State) : Out :=
  performCommand 0x11 r false false s (ctxBody r 0 fun c _ s =>
    let s1 := (s.killAll c.id .cancel).faultAll c.id
    .ok ((s1.modCtx c.id (fun x => { x with ended := true, dying := true })).reap c.id))
/-- CTXPREEMPT (R369, R390): the response follows when every team is saved. -/
def execCtxpreempt (r : MRec) (s : State) : Out :=
  performCommand 0x1B r false false s (ctxBody r 0 fun c m s =>
    if c.run ≠ .running then .no s .busy
    else
      let ids := (s.teams.filter (fun t => t.ctx == c.id)).map (fun t => t.id)
      let s1 := { s with units := s.units.filter (fun u => u.ctx != c.id || u.restore.isEmpty) }
      if ids.isEmpty then
        let n := (s1.saved.filter (fun x => x.ctx == c.id)).length
        { s := (s1.unstageCtx c.id).modCtx c.id (fun x => { x with run := .saved }), status := .ok, body := leBytes 4 n }
      else
        let s2 := (s1.modCtx c.id (fun x => { x with run := .preempting r.sid m s.hub.jseq r.seq })).haltTeams ids
        { s := s2, status := .ok, later := true })
/-- The staging saved with a context goes back to its units (R280, R372). DEDUCED (log entry 27; unsafe). -/
def State.restage (s : State) (ctx : Nat) : State :=
  let l := match s.ctx? ctx with | some c => c.staged | none => []
  let put (a : State) (c : Contrib) : State :=
    let u := a.estUnit c.die c.core
    a.setUnit { u with staged := u.staged ++ [c] }
  (l.foldl put s).modCtx ctx (fun c => { c with staged := [] })
/-- CTXRESUME (R374, R390). -/
def execCtxresume (r : MRec) (s : State) : Out :=
  performCommand 0x1C r false false s (ctxBody r 0 fun c _ s =>
    if c.run ≠ .saved then .no s .busy
    else
      let s1 := (s.modCtx c.id (fun x => { x with run := .running })).restage c.id
      .ok (s1.restoreAll (s1.saved.filter (fun x => x.ctx == c.id))))

/-! ### Queues, programs and graphs (R343, R348, R351, R356, R360) -/

/-- A queue descriptor lies in range (R343). DEDUCED (log entry 23; unsafe). -/
def queueDescOk (d : List Byte) : Bool :=
  let logn := (wordAt d 8).toNat
  let size := (wordAt d 0x20).toNat
  let idle := (wordAt d 0x24).toNat
  decide (numAt d 0 % 64 = 0) && decide (4 ≤ logn) && decide (logn ≤ 16) && decide (halfAt d 0x14 ≤ 255) && byteAt d 0x16 != 0 &&
    byteAt d 0x17 == 0 && decide (numAt d 0x18 % 4096 = 0) && (List.range 19).any (fun k => size == 2 ^ (12 + k)) &&
    (decide (idle = 0) || (decide (10 ≤ idle) && decide (idle ≤ 10000))) && decide ((wordAt d 0x28).toNat < 2 ^ 11) &&
    decide ((wordAt d 0x2C).toNat < 2 ^ 19) && zeroAt d 0x30 16 && decide ((wordAt d 0x10 - wordAt d 0xC).toNat ≤ 2 ^ logn)
/-- A queue from its descriptor. -/
def queueFrom (ctx num desc clock : Nat) (d : List Byte) : CmdQ :=
  { ctx := ctx, num := num, desc := desc, ring := numAt d 0, logn := (wordAt d 8).toNat, head := wordAt d 0xC, tail := wordAt d 0x10,
    prog := halfAt d 0x14, tickets := (byteAt d 0x16).toNat, wbase := numAt d 0x18, wsize := (wordAt d 0x20).toNat,
    idle := (wordAt d 0x24).toNat, fault := (byteAt d 0x28).toNat, faulted := bitOf (wordAt d 0x28).toNat 9, pending := false,
    faultPc := wordAt d 0x2C, g := (List.range 8).map (fun k => dwordAt d (0x40 + 8 * k)), slot := none, lastSignal := clock,
    lastEnd := clock, pendSince := 0, pendNo := 0, frames := [], engine := none, waitl := false, stalled := none, lost := none, launches := [] }
/-- QCREATE (R343, R390). DEDUCED (log entry 23; unsafe). -/
def execQcreate (r : MRec) (s : State) : Out :=
  performCommand 0x12 r false false s (ctxBody r 16 fun c _ s =>
    let num := halfAt r.body 0
    let desc := numAt r.body 8
    if !(zeroAt r.body 2 6 && decide (desc % 128 = 0)) then .no s .badcmd
    else if (s.cmdq? c.id num).isSome then .no s .busy
    else
      let s1 := s.touch c.id desc 128
      match s1.readVirt c.id desc 128 with
      | none => .no s .badcmd
      | some d =>
        if queueDescOk d then .ok (State.putStatus { s1 with cmdqs := s1.cmdqs ++ [queueFrom c.id num desc s.clock d] } c.id num)
        else .no s .badcmd)
/-- QDESTROY (R390). DEDUCED (log entry 35; unsafe). -/
def execQdestroy (r : MRec) (s : State) : Out :=
  performCommand 0x13 r false false s (ctxBody r 4 fun c _ s =>
    let num := halfAt r.body 0
    match s.cmdq? c.id num with
    | none => .no s .badcmd
    | some q =>
      if !(zeroAt r.body 2 2) then .no s .badcmd
      else if q.engine.isSome then .no s .busy
      else
        let s1 := if q.slot.isSome then s.unmapQueue c.id num false else s
        .ok (State.serveWaits { s1 with cmdqs := s1.cmdqs.filter (fun x => !(x.ctx == c.id && x.num == num)) }))
/-- QCLEAR (R351, R390). -/
def execQclear (r : MRec) (s : State) : Out :=
  performCommand 0x14 r false false s (ctxBody r 4 fun c _ s =>
    let num := halfAt r.body 0
    if (s.cmdq? c.id num).isNone || !(zeroAt r.body 2 2) then .no s .badcmd
    else .ok ((s.modCmdq c.id num (fun q => { q with fault := 0, faulted := false })).putStatus c.id num))
/-- A task queue from its descriptor (R360). -/
def taskqFrom (ctx num : Nat) (d : List Byte) : TaskQ :=
  { ctx := ctx, num := num, die := bitsOf (wordAt d 4).toNat 8 2, ring := (wordAt d 0).toNat, logn := bitsOf (wordAt d 4).toNat 0 5,
    head := 0, tail := 0, dtable := numAt d 8, dnode := halfAt d 0x10, maxteams := halfAt d 0x12, nextTeam := 0, alive := 0,
    stopped := false, lastGet := (0, 0, 0) }
/-- A task queue descriptor lies in range, and its ring in a plain range of the context (R360). -/
def State.taskqOk (s : State) (ctx : Nat) (d : List Byte) : Bool :=
  let q := taskqFrom ctx 0 d
  let w := (wordAt d 4).toNat
  decide (q.ring % 64 = 0) && decide (2 ≤ q.logn) && decide (q.logn ≤ 16) && decide (bitsOf w 5 3 = 0) && decide (w < 2 ^ 10) &&
    decide (q.dtable % 256 = 0) && decide (1 ≤ q.maxteams) && decide (q.maxteams ≤ 4096) && zeroAt d 0x14 12 &&
    (List.range (2 ^ q.logn)).all (fun k => s.lineOk ctx q.die (q.ring + 64 * k))
/-- TQCREATE (R360, R390). -/
def execTqcreate (r : MRec) (s : State) : Out :=
  performCommand 0x15 r false false s (ctxBody r 36 fun c _ s =>
    let num := halfAt r.body 0
    let d := r.body.drop 4
    if !(zeroAt r.body 2 2) then .no s .badcmd
    else if (s.taskq? c.id num).isSome then .no s .busy
    else if s.taskqOk c.id d then .ok { s with taskqs := s.taskqs ++ [taskqFrom c.id num d] }
    else .no s .badcmd)

/-- The loops that hold each word of a program, innermost first; none when loop and endl do not pair or nest more than 4
deep (R348). -/
def loopStacks : List Instr → Nat → List Nat → Option (List (List Nat))
  | [], _, st => if st.isEmpty then some [] else none
  | i :: l, k, st =>
    let rest (st' : List Nat) : Option (List (List Nat)) :=
      match loopStacks l (k + 1) st' with | some r => some (st :: r) | none => none
    match i with
    | .bLoop _ => if st.length < 4 then rest (k :: st) else none
    | .bEndl => (match st with | [] => none | _ :: t => rest t)
    | _ => rest st
/-- The words of a program, decoded; none when one is no bytecode. -/
def decodeAll : List Word → Option (List Instr)
  | [] => some []
  | w :: l =>
    match decodeByte w, decodeAll l with
    | .ok i, some r => some (i :: r)
    | _, _ => none
/-- A program passes R348. DEDUCED (log entry 35; unsafe). -/
def loadOk (ws : List Word) : Bool :=
  match decodeAll ws with
  | none => false
  | some is =>
    match loopStacks is 0 [] with
    | none => false
    | some sts =>
      (match is.getLast? with | some .bEndp => true | _ => false) &&
        is.zipIdx.all (fun p =>
          match p.1 with
          | .bSkip _ _ _ imm => imm != 0 && decide (p.2 + imm.toNat < is.length) && sts[p.2]? == sts[p.2 + imm.toNat]?
          | _ => true)
/-- PROGLOAD (R347, R348). DEDUCED (log entry 35; unsafe). -/
def execProgload (r : MRec) (s : State) : Out :=
  performCommand 0x16 r false false s (ctxBody r 16 fun c _ s =>
    let slot := halfAt r.body 0
    let n := halfAt r.body 2
    let pva := numAt r.body 8
    if !(decide (slot ≤ 255) && decide (1 ≤ n) && decide (n ≤ 1024) && zeroAt r.body 4 4 && decide (pva % 4 = 0)) then .no s .badcmd
    else
      let s1 := s.touch c.id pva (4 * n)
      match s1.readVirt c.id pva (4 * n) with
      | none => .no s .badcmd
      | some bs =>
        let ws := wordsOf n bs
        if loadOk ws then .ok { s1 with programs := SMap.set s.programs slot ws } else .no s .loadcheck)
/-- GRAPHCANCEL (R356, R390). DEDUCED (log entry 35; unsafe). -/
def execGraphcancel (r : MRec) (s : State) : Out :=
  performCommand 0x1A r false false s (ctxBody r 8 fun c _ s =>
    match s.runs.find? (fun x => x.ctx == c.id && x.table == numAt r.body 0) with
    | none => .no s .badcmd
    | some x => .ok (s.cancelGraph x))

/-! ### Pages and peers (R376, R379, R389, R390) -/

/-- Bytes of a page by PSIZE. -/
def pageSize (n : Nat) : Option Nat := match n with | 0 => some (2 ^ 16) | 1 => some (2 ^ 21) | 2 => some (2 ^ 30) | _ => none
/-- A resident physical address lies in HBM or in the CXL tier (R267, R385). -/
def inCxl (pa size : Nat) : Bool := decide (Config.cxlBase ≤ pa) && decide (pa + size ≤ Config.cxlBase + Config.cxlBytes)
/-- A context has a peer handle. -/
def State.hasPeer (s : State) (ctx h : Nat) : Bool := s.hub.peers.any (fun p => p.ctx == ctx && p.handle == h)
/-- The page that a MAP body names; none when it breaks a rule (R390). DEDUCED (log entry 33; unsafe). -/
def State.mapPage (s : State) (ctx : Nat) (b : List Byte) : Option Page :=
  let va := numAt b 0
  let pa := numAt b 8
  let attr := (byteAt b 0x11).toNat
  let peer := halfAt b 0x12
  match pageSize (byteAt b 0x10).toNat with
  | none => none
  | some size =>
    let place : Option PagePlace :=
      match bitsOf attr 3 2 with
      | 0 => if pa % size = 0 ∧ (pa + size ≤ Config.hbmBytes ∨ inCxl pa size = true) then some (.resident pa) else none
      | 1 => if pa % size = 0 ∧ inCxl pa size = true then some (.cxl pa) else none
      | 2 => if s.hasPeer ctx peer then some (.remote peer pa) else none
      | _ => none
    let cowOk := !(bitOf attr 2) || (bitOf attr 0 && !(bitOf attr 1))
    match place with
    | none => none
    | some pl =>
      if va % size = 0 ∧ va + size ≤ 2 ^ 48 ∧ attr < 32 ∧ zeroAt b 0x14 4 = true ∧ cowOk = true then
        some { va := va, size := size, place := pl, read := bitOf attr 0, write := bitOf attr 1, cow := bitOf attr 2, peer := peer,
               owned := false }
      else none
/-- A page leaves the map of its context, once the copies that have translated it are done with it (R379).
DEDUCED (log entry 33; unsafe). -/
def State.dropPage (s : State) (ctx : Nat) (p : Page) : State :=
  let s1 := s.finishPage ctx p.va p.size
  (s1.modCtx ctx (fun c => { c with pages := c.pages.filter (fun x => x.va != p.va),
                                    hbmUsed := if p.owned then c.hbmUsed - p.size else c.hbmUsed })).unstall ctx p.va p.size
/-- MAP (R379, R390): a page that the context has at the same place is remapped; a range that meets another page, or the
save region, breaks the rules of MAP. DEDUCED (log entry 33; unsafe). -/
def execMap (r : MRec) (s : State) : Out :=
  performCommand 0x17 r false false s (ctxBody r 24 fun c _ s =>
    match s.mapPage c.id r.body with
    | none => .no s .badcmd
    | some p =>
      if c.pages.any (fun x => !(apart x.va x.size p.va p.size) && !(x.va == p.va && x.size == p.size)) ||
          !(apart c.saveVa c.saveSize p.va p.size) && decide (0 < c.saveSize) then .no s .badcmd
      else
        let s1 := match c.pages.find? (fun x => x.va == p.va) with | some x => s.dropPage c.id x | none => s
        let s2 := s1.modCtx c.id (fun x => { x with pages := x.pages ++ [p] })
        .ok (s2.unstall c.id p.va p.size))
/-- UNMAP (R379, R390). DEDUCED (log entry 33; unsafe). -/
def execUnmap (r : MRec) (s : State) : Out :=
  performCommand 0x18 r false false s (ctxBody r 16 fun c _ s =>
    let size := pageSize (byteAt r.body 8).toNat
    match c.pages.find? (fun x => x.va == numAt r.body 0 && some x.size == size) with
    | none => .no s .badcmd
    | some p => if zeroAt r.body 9 7 then .ok (s.dropPage c.id p) else .no s .badcmd)
/-- PEERMAP (R389, R390). PRESUMED (log entry 32; unsafe). -/
def execPeermap (r : MRec) (s : State) : Out :=
  performCommand 0x19 r false false s (ctxBody r 88 fun c _ s =>
    let h := halfAt r.body 0
    if !(zeroAt r.body 2 6 && zeroAt r.body 0x51 7) then .no s .badcmd
    else
      let p : Peer := ⟨c.id, h, (r.body.drop 8).take 16, (r.body.drop 0x18).take 57⟩
      let old := s.hub.peers.filter (fun x => !(x.ctx == c.id && x.handle == h))
      .ok { s with hub := { s.hub with peers := old ++ [p] } })

/-! ### Firmware and attestation (R397, R398) -/

/-- FWWRITE (R397). -/
def execFwwrite (r : MRec) (s : State) : Out :=
  let off := (wordAt r.body 0).toNat
  let n := (wordAt r.body 4).toNat
  let good := decide (off % 4 = 0) && decide (4 ≤ n) && decide (n ≤ 3992) && decide (n % 4 = 0)
  performCommand 0x21 r true true s (devBody r (8 + n) good fun _ s => .ok (s.writeFlash off (r.body.drop 8)))
/-- FWCOMMIT (R397): the written image is verified, then the lower marker record is overwritten.
PRESUMED (log entry 32; unsafe). -/
def execFwcommit (r : MRec) (s : State) : Out :=
  let total := (wordAt r.body 0).toNat
  performCommand 0x22 r true true s (devBody r 4 true fun _ s =>
    let h := s.hub
    let slot := h.target
    let img := (patchImage s.nonce (h.flash.getD slot []) total []).take total
    if imageOk img then
      let high := (h.byMseq.find? Marker.valid).map (fun k => k.mseq + 1)
      let mseq : Word := high.getD 1
      let idig := shake256 img 64
      let k : Marker := ⟨BitVec.ofNat 8 slot, mseq, idig, markerCheck (BitVec.ofNat 8 slot) mseq idig⟩
      let h1 := { h with flash := modifyAt (fun _ => img) slot h.flash, markers := modifyAt (fun _ => k) h.lower h.markers }
      .ok { s with hub := h1 }
    else .no s .badimage)
/-- The Ed448 signature of the device identity key over the SHAKE256 digest of a message (R2, R398). -/
def deviceSign (msg : List Byte) : List Byte := (ed448Sign Config.identitySecret (shake256 msg 64)).2
/-- ATTEST (R398). PRESUMED (log entry 32; unsafe). -/
def execAttest (r : MRec) (s : State) : Out :=
  performCommand 0x25 r false false s (devBody r 32 true fun _ s =>
    match s.hub.booted with
    | none => .no s .badcmd
    | some k =>
      let svn := leBytes 4 (Config.imageSvn (s.hub.flash.getD k.slot.toNat []))
      let sig := deviceSign (r.body ++ [k.slot] ++ wordBytes k.mseq ++ k.idig ++ svn)
      { s := s, status := .ok, body := [k.slot] ++ leBytes 3 0 ++ wordBytes k.mseq ++ k.idig ++ svn ++ leBytes 4 0 ++ sig })

/-! ### Live service (R399) -/

/-- Start a service operation, if none runs. DEDUCED (log entry 29; unsafe). -/
def State.startSvc (s : State) (op : SvcOp) : CmdRes :=
  if s.hub.svc.isSome then .no s .busy else .ok { s with hub := { s.hub with svc := some ⟨op, []⟩ } }
/-- SVC.ENGINE. -/
def execSvcEngine (r : MRec) (s : State) : Out :=
  let n := (byteAt r.body 0).toNat
  performCommand 0x30 r true false s (devBody r 4 (decide (n < Config.engines) && zeroAt r.body 1 3) fun _ s =>
    let x := s.startSvc (.engine n)
    if x.status = .ok then .ok { x.s with engines := modifyAt (fun e => { e with service := true }) n x.s.engines } else x)
/-- The entries of a map in a range move to another place; what stood there is gone. -/
def SMap.move {α : Type} (m : SMap α) (a size b : Nat) : SMap α :=
  let inside := m.filter (fun p => decide (a ≤ p.1) && decide (p.1 < a + size))
  let outside := m.filter (fun p => !(decide (a ≤ p.1) && decide (p.1 < a + size)) && !(decide (b ≤ p.1) && decide (p.1 < b + size)))
  inside.foldl (fun m p => SMap.set m (b + (p.1 - a)) p.2) outside
/-- An address of a range that moves. -/
def movedAddr (a size b x : Nat) : Nat := if a ≤ x ∧ x < a + size then b + (x - a) else x
/-- A frame of HBM moves: in every view, in every write that is being carried, and in every page that lies in it. -/
def State.moveFrame (s : State) (a size b : Nat) : State :=
  let view (v : View) : View := { v with mem := SMap.move v.mem a size b, order := SMap.move v.order a size b }
  let carry (w : Carried) : Carried := { w with cells := w.cells.map (fun c => (movedAddr a size b c.1, c.2)) }
  let page (p : Page) : Page := match p.place with | .resident pa => { p with place := .resident (movedAddr a size b pa) } | _ => p
  let retired := (s.retiredPages.filter (fun n => decide (a ≤ 65536 * n) && decide (65536 * n < a + size))).map (fun n => (b + 65536 * n - a) / 65536)
  { s with views := s.views.map view, carried := s.carried.map carry,
           contexts := s.contexts.map (fun c => { c with pages := c.pages.map page }), retiredPages := s.retiredPages ++ retired }
/-- The frames of a stack that pages hold, the largest first, none inside another. -/
def State.stackFrames (s : State) (n : Nat) : List (Nat × Nat) :=
  let all := s.contexts.flatMap (fun c => c.pages.filterMap (fun p =>
    match p.place with | .resident pa => if pa / stackBytes = n then some (pa, p.size) else none | _ => none))
  let bySize (k : Nat) : List (Nat × Nat) := (all.filter (fun r => r.2 == k)).eraseDups
  (bySize (2 ^ 30) ++ bySize (2 ^ 21) ++ bySize (2 ^ 16)).foldl (fun l r => if l.any (fun x => decide (x.1 ≤ r.1) && decide (r.1 < x.1 + x.2)) then l else l ++ [r]) []
/-- The lowest place of a size in the CXL tier that no listed range touches (R267). -/
def lowestCxl (used : List (Nat × Nat)) (size : Nat) : Option Nat :=
  let ok (a : Nat) : Bool := inCxl a size && used.all (fun r => apart a size r.1 r.2)
  ((Config.cxlBase :: used.map (fun r => roundUp (r.1 + r.2) size)).filter ok).min?
/-- Ranges of the CXL tier that back pages (R376). -/
def State.usedCxl (s : State) : List (Nat × Nat) :=
  s.contexts.flatMap (fun c => c.pages.filterMap (fun p => match p.place with | .cxl pa => some (pa, p.size) | _ => none))
/-- New places for frames, in other HBM or else in the CXL tier; none when they do not all fit. -/
def newPlaces (used : List (Nat × Nat)) : List (Nat × Nat) → Option (List (Nat × Nat × Nat))
  | [] => some []
  | r :: l =>
    match (match lowestFrame used r.2 with | some a => some a | none => lowestCxl used r.2) with
    | none => none
    | some b => (match newPlaces ((b, r.2) :: used) l with | some t => some ((r.1, r.2, b) :: t) | none => none)
/-- SVC.STACK: every page of the stack moves to other memory; NOROOM when they do not fit. DEDUCED (log entry 30; unsafe). -/
def execSvcStack (r : MRec) (s : State) : Out :=
  let n := (byteAt r.body 0).toNat
  performCommand 0x31 r true false s (devBody r 4 (decide (n < 8) && zeroAt r.body 1 3) fun _ s =>
    let x := s.startSvc (.stack n)
    if x.status ≠ .ok then x
    else
      match newPlaces (x.s.usedHbm ++ s.usedCxl) (s.stackFrames n) with
      | none => .no s .noroom
      | some l => .ok (l.foldl (fun a m => a.moveFrame m.1 m.2.1 m.2.2) x.s))
/-- SVC.CORE: the core's teams are pre-empted, and a spare takes the core. DEDUCED (log entry 30; unsafe). -/
def execSvcCore (r : MRec) (s : State) : Out :=
  let die := (byteAt r.body 0).toNat
  let core := (byteAt r.body 1).toNat
  performCommand 0x32 r true false s (devBody r 4 (decide (die < Config.dies) && decide (core < Config.cores) && zeroAt r.body 2 2) fun _ s =>
    if s.hub.svc.isSome then .no s .busy
    else if !(s.hasSpare die) then .no s .nospare
    else .ok (s.startCore die core true))
/-- SVC.PORT: the port's sessions move to another port. DEDUCED (log entry 30; unsafe). -/
def execSvcPort (r : MRec) (s : State) : Out :=
  let p := (byteAt r.body 0).toNat
  performCommand 0x33 r true false s (devBody r 4 (decide (p < 8) && zeroAt r.body 1 3) fun _ s =>
    if !s.hub.portsOut.isEmpty then .no s .busy
    else
      let x := s.startSvc (.port p)
      if x.status ≠ .ok then x
      else
        let h := x.s.hub
        .ok { x.s with hub := { h with portsOut := [p], sessions := replaceIf (fun y => y.port == p) (fun y => { y with port := (p + 1) % 8 }) h.sessions } })

/-! ### Records of no known command, and with no signature that verifies (R386 to R389) -/

/-- The command codes of R389. -/
def knownCodes : List Nat :=
  [0x01, 0x02, 0x03, 0x04, 0x10, 0x11, 0x12, 0x13, 0x14, 0x15, 0x16, 0x17, 0x18, 0x19, 0x1A, 0x1B, 0x1C, 0x20, 0x21, 0x22, 0x23, 0x24,
   0x25, 0x30, 0x31, 0x32, 0x33]
/-- UNKNOWN_COMMAND (R388): taken, journalled and answered with BADCMD. -/
def execUnknownCommand (cmd : BitVec 16) (r : MRec) (s : State) : Out :=
  if knownCodes.contains cmd.toNat then .next s else performCommand cmd r false false s fun _ s => .no s .badcmd
/-- BADSIG (R386): a record whose signature verifies under neither key. -/
def execBadsig (cmd : BitVec 16) (r : MRec) (s : State) : Out :=
  if (s.signer cmd r).isSome then .next s else performCommand cmd r false false s fun _ s => .no s .badcmd

end Sys2Proof.Machine
end

