-- ==== Sys2Proof/Machine/Dispatch.lean ====
section
/-!
DEFINITION. The dispatch: one arm for each row of the opcode table, calling its meaning.
-/

namespace Sys2Proof.Machine

/-- The meaning of an instruction, event or command at a state. -/
def exec (i : Instr) (s : State) : Host.Outcome State Fault Refusal :=
  match i with
  | .br h off => Sys2Proof.Machine.execBr h off s
  | .brx h a off => Sys2Proof.Machine.execBrx h a off s
  | .call h d off => Sys2Proof.Machine.execCall h d off s
  | .callx h d a => Sys2Proof.Machine.execCallx h d a s
  | .ret h a => Sys2Proof.Machine.execRet h a s
  | .exit h => Sys2Proof.Machine.execExit h s
  | .meet h off => Sys2Proof.Machine.execMeet h off s
  | .loop h a off => Sys2Proof.Machine.execLoop h a off s
  | .loopImm h n off => Sys2Proof.Machine.execLoopImm h n off s
  | .loopv h a off => Sys2Proof.Machine.execLoopv h a off s
  | .lpop h => Sys2Proof.Machine.execLpop h s
  | .trap h imm => Sys2Proof.Machine.execTrap h imm s
  | .rfe h => Sys2Proof.Machine.execRfe h s
  | .yield h => Sys2Proof.Machine.execYield h s
  | .bkpt h imm => Sys2Proof.Machine.execBkpt h imm s
  | .nop h => Sys2Proof.Machine.execNop h s
  | .mfs h d sr => Sys2Proof.Machine.execMfs h d sr s
  | .mts h sr a => Sys2Proof.Machine.execMts h sr a s
  | .add h f d a b c => Sys2Proof.Machine.execAdd h f d a b c s
  | .addc h co d a b c => Sys2Proof.Machine.execAddc h co d a b c s
  | .sub h f d a b => Sys2Proof.Machine.execSub h f d a b s
  | .subb h bo d a b c => Sys2Proof.Machine.execSubb h bo d a b c s
  | .neg h f d a => Sys2Proof.Machine.execNeg h f d a s
  | .abs h f d a => Sys2Proof.Machine.execAbs h f d a s
  | .mul h f d a b => Sys2Proof.Machine.execMul h f d a b s
  | .mulhi h uns d a b => Sys2Proof.Machine.execMulhi h uns d a b s
  | .mad h f d a b c => Sys2Proof.Machine.execMad h f d a b c s
  | .madhi h uns d a b c => Sys2Proof.Machine.execMadhi h uns d a b c s
  | .min h f d a b => Sys2Proof.Machine.execMin h f d a b s
  | .max h f d a b => Sys2Proof.Machine.execMax h f d a b s
  | .and h d a b => Sys2Proof.Machine.execAnd h d a b s
  | .or h d a b => Sys2Proof.Machine.execOr h d a b s
  | .xor h d a b => Sys2Proof.Machine.execXor h d a b s
  | .andn h d a b => Sys2Proof.Machine.execAndn h d a b s
  | .not h d a => Sys2Proof.Machine.execNot h d a s
  | .shl h d a b => Sys2Proof.Machine.execShl h d a b s
  | .shr h d a b => Sys2Proof.Machine.execShr h d a b s
  | .sar h d a b => Sys2Proof.Machine.execSar h d a b s
  | .rot h d a b => Sys2Proof.Machine.execRot h d a b s
  | .clz h d a => Sys2Proof.Machine.execClz h d a s
  | .popc h d a => Sys2Proof.Machine.execPopc h d a s
  | .brev h d a => Sys2Proof.Machine.execBrev h d a s
  | .bfe h sgn d a b c => Sys2Proof.Machine.execBfe h sgn d a b c s
  | .bfi h d a b c => Sys2Proof.Machine.execBfi h d a b c s
  | .lea h sh d a b c => Sys2Proof.Machine.execLea h sh d a b c s
  | .addmin h uns d a b c => Sys2Proof.Machine.execAddmin h uns d a b c s
  | .addmax h uns d a b c => Sys2Proof.Machine.execAddmax h uns d a b c s
  | .div h uns d a b sb => Sys2Proof.Machine.execDiv h uns d a b sb s
  | .rem h uns d a b sb => Sys2Proof.Machine.execRem h uns d a b sb s
  | .mov h wide d a => Sys2Proof.Machine.execMov h wide d a s
  | .movi h d imm => Sys2Proof.Machine.execMovi h d imm s
  | .fadd h rm d a b => Sys2Proof.Machine.execFadd h rm d a b s
  | .fsub h rm d a b => Sys2Proof.Machine.execFsub h rm d a b s
  | .fmul h rm d a b => Sys2Proof.Machine.execFmul h rm d a b s
  | .ffma h rm d a b c => Sys2Proof.Machine.execFfma h rm d a b c s
  | .fmin h d a b => Sys2Proof.Machine.execFmin h d a b s
  | .fmax h d a b => Sys2Proof.Machine.execFmax h d a b s
  | .fabs h d a => Sys2Proof.Machine.execFabs h d a s
  | .fneg h d a => Sys2Proof.Machine.execFneg h d a s
  | .frcp h rm d a sb => Sys2Proof.Machine.execFrcp h rm d a sb s
  | .frsq h rm d a sb => Sys2Proof.Machine.execFrsq h rm d a sb s
  | .fsqrt h rm d a sb => Sys2Proof.Machine.execFsqrt h rm d a sb s
  | .fdiv h rm d a b sb => Sys2Proof.Machine.execFdiv h rm d a b sb s
  | .fexp2 h d a sb => Sys2Proof.Machine.execFexp2 h d a sb s
  | .flog2 h d a sb => Sys2Proof.Machine.execFlog2 h d a sb s
  | .fsin h d a sb => Sys2Proof.Machine.execFsin h d a sb s
  | .fcos h d a sb => Sys2Proof.Machine.execFcos h d a sb s
  | .frint h d a => Sys2Proof.Machine.execFrint h d a s
  | .ftrunc h d a => Sys2Proof.Machine.execFtrunc h d a s
  | .ffloor h d a => Sys2Proof.Machine.execFfloor h d a s
  | .fceil h d a => Sys2Proof.Machine.execFceil h d a s
  | .fclass h d a => Sys2Proof.Machine.execFclass h d a s
  | .cvt h d a dst src rm elem => Sys2Proof.Machine.execCvt h d a dst src rm elem s
  | .hadd2 h hf rm d a b => Sys2Proof.Machine.execHadd2 h hf rm d a b s
  | .hmul2 h hf rm d a b => Sys2Proof.Machine.execHmul2 h hf rm d a b s
  | .hfma2 h hf rm d a b c => Sys2Proof.Machine.execHfma2 h hf rm d a b c s
  | .dot2 h hf rm d a b c => Sys2Proof.Machine.execDot2 h hf rm d a b c s
  | .dot4f h fw8 rm d a b c => Sys2Proof.Machine.execDot4f h fw8 rm d a b c s
  | .dot4i h uns d a b => Sys2Proof.Machine.execDot4i h uns d a b s
  | .dot8f h rm d a b c => Sys2Proof.Machine.execDot8f h rm d a b c s
  | .dot8i h uns d a b => Sys2Proof.Machine.execDot8i h uns d a b s
  | .pk h ty d a b c => Sys2Proof.Machine.execPk h ty d a b c s
  | .upk h ty d a b => Sys2Proof.Machine.execUpk h ty d a b s
  | .scl h hi rm d a b => Sys2Proof.Machine.execScl h hi rm d a b s
  | .setpI h cc pd a b pc => Sys2Proof.Machine.execSetpI h cc pd a b pc s
  | .setpN h cc pd a b pc => Sys2Proof.Machine.execSetpN h cc pd a b pc s
  | .setpF h cc pd a b pc => Sys2Proof.Machine.execSetpF h cc pd a b pc s
  | .pand h pd pa pb => Sys2Proof.Machine.execPand h pd pa pb s
  | .por h pd pa pb => Sys2Proof.Machine.execPor h pd pa pb s
  | .pxor h pd pa pb => Sys2Proof.Machine.execPxor h pd pa pb s
  | .pnot h pd pa => Sys2Proof.Machine.execPnot h pd pa s
  | .sel h wide d a b pc => Sys2Proof.Machine.execSel h wide d a b pc s
  | .lsh h dn d a b c => Sys2Proof.Machine.execLsh h dn d a b c s
  | .lxor h d a b => Sys2Proof.Machine.execLxor h d a b s
  | .lbc h d a b => Sys2Proof.Machine.execLbc h d a b s
  | .lrot h d a b => Sys2Proof.Machine.execLrot h d a b s
  | .qswp h dir d a => Sys2Proof.Machine.execQswp h dir d a s
  | .qbc h d a b => Sys2Proof.Machine.execQbc h d a b s
  | .vote h k pa => Sys2Proof.Machine.execVote h k pa s
  | .lscan h op excl d a => Sys2Proof.Machine.execLscan h op excl d a s
  | .ldS h sz sx ord d a off sb => Sys2Proof.Machine.execLdS h sz sx ord d a off sb s
  | .stS h sz ord a off d => Sys2Proof.Machine.execStS h sz ord a off d s
  | .ldH h sz sx ord d a off sb => Sys2Proof.Machine.execLdH h sz sx ord d a off sb s
  | .stH h sz ord a off d => Sys2Proof.Machine.execStH h sz ord a off d s
  | .ldK h sz sx d a off sb => Sys2Proof.Machine.execLdK h sz sx d a off sb s
  | .stK h sz a off d => Sys2Proof.Machine.execStK h sz a off d s
  | .ldC h sz sx ord d a off sb => Sys2Proof.Machine.execLdC h sz sx ord d a off sb s
  | .stC h sz ord a off d => Sys2Proof.Machine.execStC h sz ord a off d s
  | .ldu h sz ord d a off sb => Sys2Proof.Machine.execLdu h sz ord d a off sb s
  | .ldt h w d a off sb => Sys2Proof.Machine.execLdt h w d a off sb s
  | .atomS h op wide ordf a off d sb => Sys2Proof.Machine.execAtomS h op wide ordf a off d sb s
  | .atomH h op wide ordf a off d sb => Sys2Proof.Machine.execAtomH h op wide ordf a off d sb s
  | .atomC h op wide ordf a off d sb => Sys2Proof.Machine.execAtomC h op wide ordf a off d sb s
  | .redS h op wide ordf a off d => Sys2Proof.Machine.execRedS h op wide ordf a off d s
  | .redH h op wide ordf a off d => Sys2Proof.Machine.execRedH h op wide ordf a off d s
  | .redC h op wide ordf a off d => Sys2Proof.Machine.execRedC h op wide ordf a off d s
  | .cas h sp wide ordf a off d sb => Sys2Proof.Machine.execCas h sp wide ordf a off d sb s
  | .fence h kind sc => Sys2Proof.Machine.execFence h kind sc s
  | .barInit h a off d => Sys2Proof.Machine.execBarInit h a off d s
  | .barArrive h d a off sb => Sys2Proof.Machine.execBarArrive h d a off sb s
  | .barWait h a off d => Sys2Proof.Machine.execBarWait h a off d s
  | .arrInit h a off d => Sys2Proof.Machine.execArrInit h a off d s
  | .arrAdd h a off d => Sys2Proof.Machine.execArrAdd h a off d s
  | .arrWait h a off d => Sys2Proof.Machine.execArrWait h a off d s
  | .arrRead h d a off sb => Sys2Proof.Machine.execArrRead h d a off sb s
  | .ereg h a d => Sys2Proof.Machine.execEreg h a d s
  | .esamp h a off d => Sys2Proof.Machine.execEsamp h a off d s
  | .esampW h a off d => Sys2Proof.Machine.execEsampW h a off d s
  | .esampB h a off d => Sys2Proof.Machine.execEsampB h a off d s
  | .eld h d a off p sb => Sys2Proof.Machine.execEld h d a off p sb s
  | .edecay h a d => Sys2Proof.Machine.execEdecay h a d s
  | .eflush h a => Sys2Proof.Machine.execEflush h a s
  | .eclr h a => Sys2Proof.Machine.execEclr h a s
  | .mma h fmt acc a x cv reuse => Sys2Proof.Machine.execMma h fmt acc a x cv reuse s
  | .cvdeclSet h cv pa => Sys2Proof.Machine.execCvdeclSet h cv pa s
  | .cvdeclAdd h cv pa => Sys2Proof.Machine.execCvdeclAdd h cv pa s
  | .xres h x a => Sys2Proof.Machine.execXres h x a s
  | .xrel h x => Sys2Proof.Machine.execXrel h x s
  | .xld h sh x a b sb => Sys2Proof.Machine.execXld h sh x a b sb s
  | .xsc h x a b => Sys2Proof.Machine.execXsc h x a b s
  | .accClr h acc => Sys2Proof.Machine.execAccClr h acc s
  | .accMv h bf d acc sb => Sys2Proof.Machine.execAccMv h bf d acc sb s
  | .accLd h sh acc a sb => Sys2Proof.Machine.execAccLd h sh acc a sb s
  | .accSt h sh a acc sb => Sys2Proof.Machine.execAccSt h sh a acc sb s
  | .mstat h d sb => Sys2Proof.Machine.execMstat h d sb s
  | .copyG2s h acq rel sc tr a b => Sys2Proof.Machine.execCopyG2s h acq rel sc tr a b s
  | .copyS2g h acq rel sc tr a b => Sys2Proof.Machine.execCopyS2g h acq rel sc tr a b s
  | .copyS2s h acq rel sc tr a b => Sys2Proof.Machine.execCopyS2s h acq rel sc tr a b s
  | .copyDie h acq rel sc tr a b => Sys2Proof.Machine.execCopyDie h acq rel sc tr a b s
  | .copyNet h acq rel sc tr a b => Sys2Proof.Machine.execCopyNet h acq rel sc tr a b s
  | .cpcLat h tr a => Sys2Proof.Machine.execCpcLat h tr a s
  | .cpcGlz h tr a => Sys2Proof.Machine.execCpcGlz h tr a s
  | .cpcCut h tr a => Sys2Proof.Machine.execCpcCut h tr a s
  | .cpcIcg h tr a => Sys2Proof.Machine.execCpcIcg h tr a s
  | .token h a b => Sys2Proof.Machine.execToken h a b s
  | .tskip h a => Sys2Proof.Machine.execTskip h a s
  | .spawn h tr a b => Sys2Proof.Machine.execSpawn h tr a b s
  | .tget h d a sb => Sys2Proof.Machine.execTget h d a sb s
  | .tdone h a => Sys2Proof.Machine.execTdone h a s
  | .claim h n => Sys2Proof.Machine.execClaim h n s
  | .claimTry h pd n => Sys2Proof.Machine.execClaimTry h pd n s
  | .surr h n => Sys2Proof.Machine.execSurr h n s
  | .bMovi d imm => Sys2Proof.Machine.execBMovi d imm s
  | .bMovh d imm => Sys2Proof.Machine.execBMovh d imm s
  | .bAdd d a b => Sys2Proof.Machine.execBAdd d a b s
  | .bSub d a b => Sys2Proof.Machine.execBSub d a b s
  | .bAnd d a b => Sys2Proof.Machine.execBAnd d a b s
  | .bOr d a b => Sys2Proof.Machine.execBOr d a b s
  | .bAddi d a imm => Sys2Proof.Machine.execBAddi d a imm s
  | .bShl d a n => Sys2Proof.Machine.execBShl d a n s
  | .bShr d a n => Sys2Proof.Machine.execBShr d a n s
  | .bLdp d w => Sys2Proof.Machine.execBLdp d w s
  | .bLdw d a imm => Sys2Proof.Machine.execBLdw d a imm s
  | .bStw a d imm => Sys2Proof.Machine.execBStw a d imm s
  | .bSkip cc a b imm => Sys2Proof.Machine.execBSkip cc a b imm s
  | .bLoop n => Sys2Proof.Machine.execBLoop n s
  | .bEndl => Sys2Proof.Machine.execBEndl s
  | .bLaunch a b => Sys2Proof.Machine.execBLaunch a b s
  | .bWaitl => Sys2Proof.Machine.execBWaitl s
  | .bIb a b => Sys2Proof.Machine.execBIb a b s
  | .bTkt a => Sys2Proof.Machine.execBTkt a s
  | .bEndp => Sys2Proof.Machine.execBEndp s
  | .loadDataReturn team gix slot => Sys2Proof.Machine.execLoadDataReturn team gix slot s
  | .atomicReturn team gix slot => Sys2Proof.Machine.execAtomicReturn team gix slot s
  | .estimatorMerge die core => Sys2Proof.Machine.execEstimatorMerge die core s
  | .eldReturn team gix slot => Sys2Proof.Machine.execEldReturn team gix slot s
  | .stepStart die core mctx => Sys2Proof.Machine.execStepStart die core mctx s
  | .stepComplete die core mctx => Sys2Proof.Machine.execStepComplete die core mctx s
  | .badscale team gix tid => Sys2Proof.Machine.execBadscale team gix tid s
  | .xldComplete team gix slot => Sys2Proof.Machine.execXldComplete team gix slot s
  | .accMoveComplete team gix slot => Sys2Proof.Machine.execAccMoveComplete team gix slot s
  | .copyUnitWrite copy unit peer => Sys2Proof.Machine.execCopyUnitWrite copy unit peer s
  | .callAccept call => Sys2Proof.Machine.execCallAccept call s
  | .callfault team gix tid => Sys2Proof.Machine.execCallfault team gix tid s
  | .tgetReturn team gix slot => Sys2Proof.Machine.execTgetReturn team gix slot s
  | .pendingPush die => Sys2Proof.Machine.execPendingPush die s
  | .claimGrant die core slice => Sys2Proof.Machine.execClaimGrant die core slice s
  | .regdeadlock die core slice => Sys2Proof.Machine.execRegdeadlock die core slice s
  | .cvstateStall team gix => Sys2Proof.Machine.execCvstateStall team gix s
  | .select team => Sys2Proof.Machine.execSelect team s
  | .timeout team => Sys2Proof.Machine.execTimeout team s
  | .teamComplete team => Sys2Proof.Machine.execTeamComplete team s
  | .passBegin call => Sys2Proof.Machine.execPassBegin call s
  | .tri call => Sys2Proof.Machine.execTri call s
  | .passEnd call => Sys2Proof.Machine.execPassEnd call s
  | .passAbort call => Sys2Proof.Machine.execPassAbort call s
  | .resolutionBegin pass => Sys2Proof.Machine.execResolutionBegin pass s
  | .binResolve pass => Sys2Proof.Machine.execBinResolve pass s
  | .frag call => Sys2Proof.Machine.execFrag call s
  | .bindone call => Sys2Proof.Machine.execBindone call s
  | .binCommit pass bin => Sys2Proof.Machine.execBinCommit pass bin s
  | .streamCommit pass pixel => Sys2Proof.Machine.execStreamCommit pass pixel s
  | .latticeTri call => Sys2Proof.Machine.execLatticeTri call s
  | .patch call => Sys2Proof.Machine.execPatch call s
  | .sample call => Sys2Proof.Machine.execSample call s
  | .decodeCall call => Sys2Proof.Machine.execDecodeCall call s
  | .signal sid ctx q rsv tail => Sys2Proof.Machine.execSignal sid ctx q rsv tail s
  | .queueIdleTimeout slot => Sys2Proof.Machine.execQueueIdleTimeout slot s
  | .pendingRemap ctx q => Sys2Proof.Machine.execPendingRemap ctx q s
  | .lotteryDraw => Sys2Proof.Machine.execLotteryDraw s
  | .budget eng => Sys2Proof.Machine.execBudget eng s
  | .nodeComplete run node => Sys2Proof.Machine.execNodeComplete run node s
  | .placementRound => Sys2Proof.Machine.execPlacementRound s
  | .dispatch ctx q => Sys2Proof.Machine.execDispatch ctx q s
  | .save team => Sys2Proof.Machine.execSave team s
  | .pageIn ctx va ok data => Sys2Proof.Machine.execPageIn ctx va ok data s
  | .cowResolve ctx va => Sys2Proof.Machine.execCowResolve ctx va s
  | .scrub found => Sys2Proof.Machine.execScrub found s
  | .coreFault die core => Sys2Proof.Machine.execCoreFault die core s
  | .svcDone => Sys2Proof.Machine.execSvcDone s
  | .peerWrite sid ctx va data => Sys2Proof.Machine.execPeerWrite sid ctx va data s
  | .peerRead sid ctx va n => Sys2Proof.Machine.execPeerRead sid ctx va n s
  | .hsemLeaseExpiry => Sys2Proof.Machine.execHsemLeaseExpiry s
  | .boot => Sys2Proof.Machine.execBoot s
  | .illop w opnd => Sys2Proof.Machine.execIllop w opnd s
  | .badclause hdr => Sys2Proof.Machine.execBadclause hdr s
  | .sequenceUnitResult team gix slot => Sys2Proof.Machine.execSequenceUnitResult team gix slot s
  | .writeApply idx view => Sys2Proof.Machine.execWriteApply idx view s
  | .badsig cmd r => Sys2Proof.Machine.execBadsig cmd r s
  | .hsemacq r => Sys2Proof.Machine.execHsemacq r s
  | .hsemrel r => Sys2Proof.Machine.execHsemrel r s
  | .thaw r => Sys2Proof.Machine.execThaw r s
  | .jread r => Sys2Proof.Machine.execJread r s
  | .ctxcreate r => Sys2Proof.Machine.execCtxcreate r s
  | .ctxdestroy r => Sys2Proof.Machine.execCtxdestroy r s
  | .qcreate r => Sys2Proof.Machine.execQcreate r s
  | .qdestroy r => Sys2Proof.Machine.execQdestroy r s
  | .qclear r => Sys2Proof.Machine.execQclear r s
  | .tqcreate r => Sys2Proof.Machine.execTqcreate r s
  | .progload r => Sys2Proof.Machine.execProgload r s
  | .map r => Sys2Proof.Machine.execMap r s
  | .unmap r => Sys2Proof.Machine.execUnmap r s
  | .peermap r => Sys2Proof.Machine.execPeermap r s
  | .graphcancel r => Sys2Proof.Machine.execGraphcancel r s
  | .ctxpreempt r => Sys2Proof.Machine.execCtxpreempt r s
  | .ctxresume r => Sys2Proof.Machine.execCtxresume r s
  | .seed r => Sys2Proof.Machine.execSeed r s
  | .fwwrite r => Sys2Proof.Machine.execFwwrite r s
  | .fwcommit r => Sys2Proof.Machine.execFwcommit r s
  | .reset r => Sys2Proof.Machine.execReset r s
  | .keyset r => Sys2Proof.Machine.execKeyset r s
  | .attest r => Sys2Proof.Machine.execAttest r s
  | .svcEngine r => Sys2Proof.Machine.execSvcEngine r s
  | .svcStack r => Sys2Proof.Machine.execSvcStack r s
  | .svcCore r => Sys2Proof.Machine.execSvcCore r s
  | .svcPort r => Sys2Proof.Machine.execSvcPort r s
  | .sessionEstablish sid port key => Sys2Proof.Machine.execSessionEstablish sid port key s
  | .unknownCommand cmd r => Sys2Proof.Machine.execUnknownCommand cmd r s
  | .powerLoss part => Sys2Proof.Machine.execPowerLoss part s

end Sys2Proof.Machine
end

