-- ==== Sys2Proof/Machine/Sched.lean ====
section
/-!
DEFINITION. Who moves next: the head of the agenda, or, when the agenda is empty, the first act of a new round. A round
names every agent that may move once, so that none waits for ever, and ends with one cycle of time.
-/

namespace Sys2Proof.Machine

/-! ### The agents that may move -/

/-- The event that lands a pending operation. -/
def opEvent (team gix : Nat) (o : PendOp) : Instr :=
  match o.kind with
  | .load => .loadDataReturn team gix o.slot
  | .atomic => .atomicReturn team gix o.slot
  | .eld => .eldReturn team gix o.slot
  | .tget => .tgetReturn team gix o.slot
  | .seq => .sequenceUnitResult team gix o.slot
  | .xld => .xldComplete team gix o.slot
  | .acc => .accMoveComplete team gix o.slot
/-- The events of a team: results, selection, completion, the save. -/
def State.teamEvents (s : State) (t : Team) : List Instr :=
  t.groups.flatMap (fun g => g.ops.map (opEvent t.id g.gix)) ++
    (if t.runs && t.curEmpty && t.selects then [.select t.id] else []) ++ (if s.complete t then [.teamComplete t.id] else []) ++
    (if t.halted then [.save t.id] else [])
/-- The events of the matrix engines and the estimator units. -/
def State.engineEvents (s : State) : List Instr :=
  s.matctx.flatMap (fun m =>
    (if m.running.isSome then [.stepComplete m.die m.core m.idx] else []) ++
      (if m.pending.isEmpty then [] else [.stepStart m.die m.core m.idx])) ++
    (s.est.filter (fun u => !u.inbuf.isEmpty)).map (fun u => .estimatorMerge u.die u.core)
/-- The arrival of carried writes, the oldest that may be applied in each view. -/
def State.carryEvents (s : State) : List Instr :=
  (List.range 5).filterMap (fun v =>
    (s.carried.zipIdx.find? (fun p => p.1.dests.contains v && p.1.ready (s.view v))).map (fun p => .writeApply p.2 v))
/-- What a stalled access waits for, where no peer has to answer. -/
def State.pageEvent (s : State) (ctx va : Nat) : List Instr :=
  match s.pageAt ctx va with
  | none => []
  | some p =>
    match p.place with
    | .resident _ => [.cowResolve ctx va]
    | .cxl _ => [.pageIn ctx va true []]
    | .remote _ _ => []
/-- The next event of a copy; a copy.net waits for its peer. -/
def State.copyEvent (s : State) (c : Copy) : List Instr :=
  match c.stalled with
  | some va => s.pageEvent c.ctx va
  | none => if c.kind = .net ∧ (s.nextUnit c).isSome = true then [] else [.copyUnitWrite c.id ((s.nextUnit c).getD 0) .ack]
/-- The next event of a call. -/
def callEvent (c : Call) : List Instr :=
  if c.waiting then []
  else if !c.accepted then [.callAccept c.id]
  else
    match c.kind, c.op with
    | .lat, 1 => [.latticeTri c.id]
    | .lat, _ => [.patch c.id]
    | .glz, 1 => [.sample c.id]
    | .glz, _ => [.decodeCall c.id]
    | .cut, 1 => [.passBegin c.id]
    | .cut, 2 => [.tri c.id]
    | .cut, 3 => [.passEnd c.id]
    | .cut, _ => [.passAbort c.id]
    | .icg, 1 => [.frag c.id]
    | .icg, _ => [.bindone c.id]
/-- The events of a pass. -/
def passEvents (p : Pass) : List Instr :=
  [.resolutionBegin p.id, .binResolve p.id] ++ (p.bins.filter (fun b => b.done.isSome)).map (fun b => .binCommit p.id b.idx) ++
    ((p.stream.map (fun f => f.pixel)).eraseDups).map (fun x => .streamCommit p.id x)
/-- The events of claims and pending pushes. -/
def State.queueEvents (s : State) : List Instr :=
  ((s.claims.map (fun q => (q.die, q.core, q.slice))).eraseDups).flatMap (fun k => [.claimGrant k.1 k.2.1 k.2.2, .regdeadlock k.1 k.2.1 k.2.2]) ++
    ((s.pushes.map (fun p => p.die)).eraseDups).map (fun d => .pendingPush d)
/-- The events of the Proofer and the hub. -/
def State.hubEvents (s : State) : List Instr :=
  (if s.hub.needBoot then [.boot] else []) ++ (if s.hub.hsem.isSome then [.hsemLeaseExpiry] else []) ++
    (if s.hub.svc.isSome then [.svcDone] else []) ++ s.runs.filterMap (fun r => (r.due s.clock).map (fun n => .nodeComplete r.id n)) ++
    (if s.roundDue then [.placementRound] else []) ++
    (s.taskqs.filter (fun q => q.dtable != 0 && q.head != q.tail)).map (fun q => .dispatch q.ctx q.num) ++
    s.cmdqs.flatMap (fun q =>
      (match q.slot with | some k => [.queueIdleTimeout k] | none => []) ++ (if q.pending then [.pendingRemap q.ctx q.num] else []) ++
        (match q.stalled with | some va => s.pageEvent q.ctx va | none => [])) ++
    (if s.freeEngineNo.isSome && !s.readyQueues.isEmpty then [.lotteryDraw] else [])
/-- Every event that may happen now. -/
def State.events (s : State) : List Instr :=
  s.hubEvents ++ s.teams.flatMap s.teamEvents ++ s.engineEvents ++ s.carryEvents ++ s.copies.flatMap s.copyEvent ++
    s.calls.flatMap callEvent ++ s.passes.flatMap passEvents ++ s.queueEvents
/-- Put a group, by its core and slot, before the first of a higher core, or of a higher slot of its core. -/
def insertGroup (x : Nat × Nat × Act) : List (Nat × Nat × Act) → List (Nat × Nat × Act)
  | [] => [x]
  | y :: l => if x.1 < y.1 ∨ (x.1 = y.1 ∧ x.2.1 < y.2.1) then x :: y :: l else y :: insertGroup x l
/-- The groups that may issue in this cycle, in ascending core, then group slot. DESIGN CHOICE (log entry 3; unsafe). -/
def State.groupActs (s : State) : List Act :=
  let l : List (Nat × Nat × Act) := s.teams.flatMap (fun t => (t.groups.filter (fun g =>
    match envOf s t.id g.gix with
    | some e => decide (e.fp ≤ s.clock) && (nextOf s t.id g.gix).isSome
    | none => false)).map (fun g => (t.core, g.slot, Act.group t.id g.gix)))
  (l.foldl (fun a x => insertGroup x a) []).map (fun x => x.2.2)
/-- The engines that run a packet. -/
def State.engineActs (s : State) : List Act :=
  ((List.range s.engines.length).filter (fun n => (engineNext s n).isSome || (s.toStart n).isSome)).map Act.engine
/-- One round: every event, group and engine that may move, then one cycle. DESIGN CHOICE (log entry 2; unsafe). -/
def State.allActs (s : State) : List Act := s.events.map Act.ev ++ s.engineActs ++ s.groupActs ++ [.tick 1]

/-! ### The next act -/

/-- The act that comes next, and the state without it. DESIGN CHOICE (log entry 2; unsafe). -/
def State.nextAct (s : State) : Act × State :=
  match s.agenda with
  | a :: l => (a, { s with agenda := l })
  | [] =>
    match s.allActs with
    | [] => (.tick 1, s)
    | a :: l => (a, { s with agenda := l })

/-- Cycles pass, and what is due by then is performed: late accesses (R185, R292) and the words of region commands (R279). -/
def State.passTime (n : Nat) (s : State) : State := (State.performLate { s with clock := s.clock + n, cur := .none }).performRegions

/-- What the next step executes, if anything, and the state it executes it in.
DESIGN CHOICE (log entry 2; unsafe). DESIGN CHOICE (log entry 3; unsafe). -/
def State.todo (s : State) : Option Instr × State :=
  match s.nextAct with
  | (.ev i, t) => (some i, { t with cur := .none })
  | (.group id gix, t) => (nextOf t id gix, { t with cur := .group id gix })
  | (.part id gix n, t) =>
    let i := nextOf t id gix
    (i, { t with cur := if (match i with | some i => splits i | none => false) then .part id gix n else .group id gix })
  | (.engine n, t) => let u := t.startOn n; (engineNext u n, { u with cur := .engine n })
  | (.tick n, t) => (none, State.passTime n t)

end Sys2Proof.Machine
end

