-- ==== Sys2Proof/Machine/Step.lean ====
section
/-!
DEFINITION. One step of the device, and the placing of an instruction where a step fetches it.
-/

namespace Sys2Proof.Machine

/-- One step: what is to be done next is executed; a group or engine with nothing to execute, and the passing of
cycles, change nothing else. DESIGN CHOICE (log entry 2; unsafe). -/
def step (s : State) : Host.Outcome State Fault Refusal :=
  match s.todo with
  | (some i, t) => exec i t
  | (none, t) => .next t

/-- The state with one instruction of the opcode table placed where the next step fetches it.
DESIGN CHOICE (log entry 5; unsafe). -/
def State.withFetchWord (s : State) (nbits w : Nat) : State :=
  if nbits ≤ 32 then s.placeBytecode (BitVec.ofNat 32 (w % 2 ^ nbits))
  else s.placeIgfin (BitVec.ofNat 64 (w % 2 ^ nbits))

end Sys2Proof.Machine
end

