-- ==== Sys2Proof/Laws/Encoding.lean ====
section
/-!
SUPPORT. Encoding and decoding agree, field by field (R47, R84, R86, R97 to R109, R347): reading a field code
back, and taking a body and a word apart again.
-/

namespace Sys2Proof.Laws

/-- An 11-bit code keeps a number below 2,048. -/
theorem toNat_ofNat11 {n : Nat} (h : n < 2048) : (BitVec.ofNat 11 n).toNat = n := by
  simp [Nat.mod_eq_of_lt h]

/-- An operand is read back from its code (R47). -/
theorem opnd_ofCode_code (o : Opnd) : Opnd.ofCode o.code = some o := by
  cases o with
  | v n => have := n.2; simp [Opnd.ofCode, Opnd.code, toNat_ofNat11 (by omega : n.val < 2048)]
  | k n =>
    have := n.2
    rw [Opnd.ofCode, Opnd.code, dif_neg (by rw [toNat_ofNat11 (by omega)]; omega),
      dif_pos (by rw [toNat_ofNat11 (by omega)]; omega)]
    simp only [toNat_ofNat11 (by omega : 1536 + n.val < 2048), Nat.add_sub_cancel_left]
  | t n =>
    have := n.2
    rw [Opnd.ofCode, Opnd.code, dif_neg (by rw [toNat_ofNat11 (by omega)]; omega),
      dif_neg (by rw [toNat_ofNat11 (by omega)]; omega), dif_pos (by rw [toNat_ofNat11 (by omega)]; omega)]
    simp only [toNat_ofNat11 (by omega : 1792 + n.val < 2048), Nat.add_sub_cancel_left]
  | c n =>
    have := n.2
    rw [Opnd.ofCode, Opnd.code, dif_neg (by rw [toNat_ofNat11 (by omega)]; omega),
      dif_neg (by rw [toNat_ofNat11 (by omega)]; omega), dif_neg (by rw [toNat_ofNat11 (by omega)]; omega),
      dif_pos (by rw [toNat_ofNat11 (by omega)]; omega)]
    simp only [toNat_ofNat11 (by omega : 1808 + n.val < 2048), Nat.add_sub_cancel_left]

theorem rdOp_code (o : Opnd) : rdOp o.code = .ok o := by simp [rdOp, opnd_ofCode_code]
theorem rdIdx_bits (n : Fin 16) : rdIdx (idxBits n) = .ok n := by revert n; decide
theorem rdPd_bits (n : Fin 8) : rdPd (idxBits n) = .ok n := by revert n; decide
theorem rdPs_bits (p : PSrc) : rdPs p.bits = .ok p := by obtain ⟨a, b⟩ := p; revert a b; decide
theorem rdTry_bits (t : Option (Fin 8)) : rdTry (tryBits t) = .ok t := by
  cases t with
  | none => rfl
  | some p => revert p; decide
theorem rdZero_zero {n : Nat} : rdZero (0 : BitVec n) = .ok () := by simp [rdZero]
theorem rdNone_zero : rdNone 0 = .ok () := rfl
theorem rdCode_sum (f : SumForm) : rdCode (sumOf (sumFn f)) = .ok f := by cases f <;> rfl
theorem rdCode_neg (f : NegForm) : rdCode (negOf (negFn f)) = .ok f := by cases f <;> rfl
theorem rdCode_bool (f : Bool) : rdCode (boolOf (boolFn f)) = .ok f := by cases f <;> rfl
theorem rdCode_mul (f : MulForm) : rdCode (mulOf (mulFn f)) = .ok f := by cases f <;> rfl
theorem rdCode_mad (f : MadForm) : rdCode (madOf (madFn f)) = .ok f := by cases f <;> rfl
theorem rdCode_cmp (f : CmpForm) : rdCode (cmpOf (cmpFn f)) = .ok f := by cases f <;> rfl
theorem rdCode_fin8 (f : Fin 8) : rdCode (fin8Of (fin8Fn f)) = .ok f := by revert f; decide
theorem rdCode_fin4 (f : Fin 4) : rdCode (fin4Of (fin4Fn f)) = .ok f := by revert f; decide
theorem rdCode_rm (f : Round) : rdCode (rmOf (rmFn f)) = .ok f := by cases f <;> rfl
theorem rdCode_half (f : HalfFmt) (m : Round) : rdCode (halfOf (halfFn f m)) = .ok (f, m) := by cases f <;> cases m <;> rfl
theorem rdCode_dot2 (f : HalfFmt) (m : Round) : rdCode (dot2Of (dot2Fn f m)) = .ok (f, m) := by cases f <;> cases m <;> rfl
theorem rdCode_dot4 (f : Bool) (m : Round) : rdCode (dot4Of (dot4Fn f m)) = .ok (f, m) := by cases f <;> cases m <;> rfl
theorem rdCode_scl (f : Bool) (m : Round) : rdCode (sclOf (sclFn f m)) = .ok (f, m) := by cases f <;> cases m <;> rfl
theorem rdCode_ty (f : ElTy) : rdCode (tyOf (tyFn f)) = .ok f := by cases f <;> rfl
theorem rdCode_cc (f : Cc) : rdCode (ccOf (ccFn f)) = .ok f := by cases f <;> rfl
theorem rdCode_dir (f : QDir) : rdCode (dirOf (dirFn f)) = .ok f := by cases f <;> rfl
theorem rdCode_scan (f : ScanOp) (x : Bool) : rdCode (scanOf (scanFn f x)) = .ok (f, x) := by cases f <;> cases x <;> rfl
theorem rdCode_size (f : MSize) : rdCode (sizeOf (sizeBits f)) = .ok f := by cases f <;> rfl
theorem rdCode_acq (f : Option Scope) : rdCode (acqOf (acqBits f)) = .ok f := by rcases f with _ | f; rfl; cases f <;> rfl
theorem rdCode_rel (f : Option Scope) : rdCode (relOf (relBits f)) = .ok f := by rcases f with _ | f; rfl; cases f <;> rfl
theorem rdCode_at (f : AtOp) : rdCode (atOf (atFn f)) = .ok f := by cases f <;> rfl
theorem rdCode_atSize (w o : Bool) : rdCode (atSizeOf (atSize w o)) = .ok (w, o) := by cases w <;> cases o <;> rfl
theorem rdCode_sp (f : ASpace) : rdCode (spOf (spFn f)) = .ok f := by cases f <;> rfl
theorem rdCode_fence (f : FenceKind) : rdCode (fenceOf (fenceFn f)) = .ok f := by cases f <;> rfl
theorem rdCode_scope (f : Scope) : rdCode (scopeOf (scopeBits f)) = .ok f := by cases f <;> rfl
theorem rdCode_mfmt (f : MFmt) : rdCode (mfmtOf (mfmtBits f)) = .ok f := by cases f <;> rfl
theorem rdCode_bool1 (f : Bool) : rdCode (bool1Of (bool1 f)) = .ok f := by cases f <;> rfl
theorem rdCode_copy (a r : Bool) (s : Scope) : rdCode (copyOf (copyFn a r s)) = .ok (a, r, s) := by
  cases a <;> cases r <;> cases s <;> rfl
theorem rdCode_claim (n : Fin 192) : rdCode (claimOf (claimImm n)) = .ok n := by
  have := n.2
  have e : (BitVec.ofNat 16 n.val).toNat = n.val := by simp; omega
  simp [claimOf, claimImm, rdCode, e]
theorem rdCode_sreg (r : SysReg) : rdCode (sregOf (sregBits r)) = .ok r := by cases r <;> rfl
theorem rdVote_bits (k : VoteDst) : rdVote (voteFn k) (voteD k) = .ok k := by
  cases k with
  | any p => revert p; decide
  | all p => revert p; decide
  | bal d => show (rdOp d.code).map VoteDst.bal = _; rw [rdOp_code]; rfl

/-! ### Bodies and words -/

theorem low_append {m n : Nat} (x : BitVec m) (y : BitVec n) : (x ++ y).extractLsb' 0 n = y :=
  BitVec.extractLsb'_append_eq_right
theorem high_append {m n : Nat} (x : BitVec m) (y : BitVec n) {k l : Nat} (h : k = l + n) (j : Nat) :
    (x ++ y).extractLsb' k j = x.extractLsb' l j := by
  subst h; rw [BitVec.extractLsb'_append_eq_of_le (by omega)]; congr 1; omega
theorem whole {m : Nat} (x : BitVec m) : x.extractLsb' 0 m = x := by simp

/-- RawInstr taken apart again. -/
theorem RawInstr_unpack_pack (f : RawInstr) : RawInstr.unpack f.pack = f := by
  obtain ⟨x0, x1, x2, x3, x4⟩ := f
  simp only [RawInstr.unpack, RawInstr.pack, RawInstr.mk.injEq]
  refine ⟨?_, ?_, ?_, ?_, ?_⟩
  · exact ((high_append (x0 ++ x1 ++ x2 ++ x3) x4 rfl _).trans ((high_append (x0 ++ x1 ++ x2) x3 rfl _).trans ((high_append (x0 ++ x1) x2 rfl _).trans ((high_append (x0) x1 rfl _).trans (whole x0)))))
  · exact ((high_append (x0 ++ x1 ++ x2 ++ x3) x4 rfl _).trans ((high_append (x0 ++ x1 ++ x2) x3 rfl _).trans ((high_append (x0 ++ x1) x2 rfl _).trans (low_append (x0) x1))))
  · exact ((high_append (x0 ++ x1 ++ x2 ++ x3) x4 rfl _).trans ((high_append (x0 ++ x1 ++ x2) x3 rfl _).trans (low_append (x0 ++ x1) x2)))
  · exact ((high_append (x0 ++ x1 ++ x2 ++ x3) x4 rfl _).trans (low_append (x0 ++ x1 ++ x2) x3))
  · exact (low_append (x0 ++ x1 ++ x2 ++ x3) x4)

/-- BodyF3 taken apart again. -/
theorem BodyF3_unpack_pack (f : BodyF3) : BodyF3.unpack f.pack = f := by
  obtain ⟨x0, x1, x2, x3, x4⟩ := f
  simp only [BodyF3.unpack, BodyF3.pack, BodyF3.mk.injEq]
  refine ⟨?_, ?_, ?_, ?_, ?_⟩
  · exact ((high_append (x0 ++ x1 ++ x2 ++ x3) x4 rfl _).trans ((high_append (x0 ++ x1 ++ x2) x3 rfl _).trans ((high_append (x0 ++ x1) x2 rfl _).trans ((high_append (x0) x1 rfl _).trans (whole x0)))))
  · exact ((high_append (x0 ++ x1 ++ x2 ++ x3) x4 rfl _).trans ((high_append (x0 ++ x1 ++ x2) x3 rfl _).trans ((high_append (x0 ++ x1) x2 rfl _).trans (low_append (x0) x1))))
  · exact ((high_append (x0 ++ x1 ++ x2 ++ x3) x4 rfl _).trans ((high_append (x0 ++ x1 ++ x2) x3 rfl _).trans (low_append (x0 ++ x1) x2)))
  · exact ((high_append (x0 ++ x1 ++ x2 ++ x3) x4 rfl _).trans (low_append (x0 ++ x1 ++ x2) x3))
  · exact (low_append (x0 ++ x1 ++ x2 ++ x3) x4)

/-- BodyFI taken apart again. -/
theorem BodyFI_unpack_pack (f : BodyFI) : BodyFI.unpack f.pack = f := by
  obtain ⟨x0, x1, x2, x3, x4⟩ := f
  simp only [BodyFI.unpack, BodyFI.pack, BodyFI.mk.injEq]
  refine ⟨?_, ?_, ?_, ?_, ?_⟩
  · exact ((high_append (x0 ++ x1 ++ x2 ++ x3) x4 rfl _).trans ((high_append (x0 ++ x1 ++ x2) x3 rfl _).trans ((high_append (x0 ++ x1) x2 rfl _).trans ((high_append (x0) x1 rfl _).trans (whole x0)))))
  · exact ((high_append (x0 ++ x1 ++ x2 ++ x3) x4 rfl _).trans ((high_append (x0 ++ x1 ++ x2) x3 rfl _).trans ((high_append (x0 ++ x1) x2 rfl _).trans (low_append (x0) x1))))
  · exact ((high_append (x0 ++ x1 ++ x2 ++ x3) x4 rfl _).trans ((high_append (x0 ++ x1 ++ x2) x3 rfl _).trans (low_append (x0 ++ x1) x2)))
  · exact ((high_append (x0 ++ x1 ++ x2 ++ x3) x4 rfl _).trans (low_append (x0 ++ x1 ++ x2) x3))
  · exact (low_append (x0 ++ x1 ++ x2 ++ x3) x4)

/-- BodyFL taken apart again. -/
theorem BodyFL_unpack_pack (f : BodyFL) : BodyFL.unpack f.pack = f := by
  obtain ⟨x0, x1, x2⟩ := f
  simp only [BodyFL.unpack, BodyFL.pack, BodyFL.mk.injEq]
  refine ⟨?_, ?_, ?_⟩
  · exact ((high_append (x0 ++ x1) x2 rfl _).trans ((high_append (x0) x1 rfl _).trans (whole x0)))
  · exact ((high_append (x0 ++ x1) x2 rfl _).trans (low_append (x0) x1))
  · exact (low_append (x0 ++ x1) x2)

/-- BodyFM taken apart again. -/
theorem BodyFM_unpack_pack (f : BodyFM) : BodyFM.unpack f.pack = f := by
  obtain ⟨x0, x1, x2, x3, x4, x5, x6⟩ := f
  simp only [BodyFM.unpack, BodyFM.pack, BodyFM.mk.injEq]
  refine ⟨?_, ?_, ?_, ?_, ?_, ?_, ?_⟩
  · exact ((high_append (x0 ++ x1 ++ x2 ++ x3 ++ x4 ++ x5) x6 rfl _).trans ((high_append (x0 ++ x1 ++ x2 ++ x3 ++ x4) x5 rfl _).trans ((high_append (x0 ++ x1 ++ x2 ++ x3) x4 rfl _).trans ((high_append (x0 ++ x1 ++ x2) x3 rfl _).trans ((high_append (x0 ++ x1) x2 rfl _).trans ((high_append (x0) x1 rfl _).trans (whole x0)))))))
  · exact ((high_append (x0 ++ x1 ++ x2 ++ x3 ++ x4 ++ x5) x6 rfl _).trans ((high_append (x0 ++ x1 ++ x2 ++ x3 ++ x4) x5 rfl _).trans ((high_append (x0 ++ x1 ++ x2 ++ x3) x4 rfl _).trans ((high_append (x0 ++ x1 ++ x2) x3 rfl _).trans ((high_append (x0 ++ x1) x2 rfl _).trans (low_append (x0) x1))))))
  · exact ((high_append (x0 ++ x1 ++ x2 ++ x3 ++ x4 ++ x5) x6 rfl _).trans ((high_append (x0 ++ x1 ++ x2 ++ x3 ++ x4) x5 rfl _).trans ((high_append (x0 ++ x1 ++ x2 ++ x3) x4 rfl _).trans ((high_append (x0 ++ x1 ++ x2) x3 rfl _).trans (low_append (x0 ++ x1) x2)))))
  · exact ((high_append (x0 ++ x1 ++ x2 ++ x3 ++ x4 ++ x5) x6 rfl _).trans ((high_append (x0 ++ x1 ++ x2 ++ x3 ++ x4) x5 rfl _).trans ((high_append (x0 ++ x1 ++ x2 ++ x3) x4 rfl _).trans (low_append (x0 ++ x1 ++ x2) x3))))
  · exact ((high_append (x0 ++ x1 ++ x2 ++ x3 ++ x4 ++ x5) x6 rfl _).trans ((high_append (x0 ++ x1 ++ x2 ++ x3 ++ x4) x5 rfl _).trans (low_append (x0 ++ x1 ++ x2 ++ x3) x4)))
  · exact ((high_append (x0 ++ x1 ++ x2 ++ x3 ++ x4 ++ x5) x6 rfl _).trans (low_append (x0 ++ x1 ++ x2 ++ x3 ++ x4) x5))
  · exact (low_append (x0 ++ x1 ++ x2 ++ x3 ++ x4 ++ x5) x6)

/-- BodyFX taken apart again. -/
theorem BodyFX_unpack_pack (f : BodyFX) : BodyFX.unpack f.pack = f := by
  obtain ⟨x0, x1, x2, x3, x4, x5, x6, x7⟩ := f
  simp only [BodyFX.unpack, BodyFX.pack, BodyFX.mk.injEq]
  refine ⟨?_, ?_, ?_, ?_, ?_, ?_, ?_, ?_⟩
  · exact ((high_append (x0 ++ x1 ++ x2 ++ x3 ++ x4 ++ x5 ++ x6) x7 rfl _).trans ((high_append (x0 ++ x1 ++ x2 ++ x3 ++ x4 ++ x5) x6 rfl _).trans ((high_append (x0 ++ x1 ++ x2 ++ x3 ++ x4) x5 rfl _).trans ((high_append (x0 ++ x1 ++ x2 ++ x3) x4 rfl _).trans ((high_append (x0 ++ x1 ++ x2) x3 rfl _).trans ((high_append (x0 ++ x1) x2 rfl _).trans ((high_append (x0) x1 rfl _).trans (whole x0))))))))
  · exact ((high_append (x0 ++ x1 ++ x2 ++ x3 ++ x4 ++ x5 ++ x6) x7 rfl _).trans ((high_append (x0 ++ x1 ++ x2 ++ x3 ++ x4 ++ x5) x6 rfl _).trans ((high_append (x0 ++ x1 ++ x2 ++ x3 ++ x4) x5 rfl _).trans ((high_append (x0 ++ x1 ++ x2 ++ x3) x4 rfl _).trans ((high_append (x0 ++ x1 ++ x2) x3 rfl _).trans ((high_append (x0 ++ x1) x2 rfl _).trans (low_append (x0) x1)))))))
  · exact ((high_append (x0 ++ x1 ++ x2 ++ x3 ++ x4 ++ x5 ++ x6) x7 rfl _).trans ((high_append (x0 ++ x1 ++ x2 ++ x3 ++ x4 ++ x5) x6 rfl _).trans ((high_append (x0 ++ x1 ++ x2 ++ x3 ++ x4) x5 rfl _).trans ((high_append (x0 ++ x1 ++ x2 ++ x3) x4 rfl _).trans ((high_append (x0 ++ x1 ++ x2) x3 rfl _).trans (low_append (x0 ++ x1) x2))))))
  · exact ((high_append (x0 ++ x1 ++ x2 ++ x3 ++ x4 ++ x5 ++ x6) x7 rfl _).trans ((high_append (x0 ++ x1 ++ x2 ++ x3 ++ x4 ++ x5) x6 rfl _).trans ((high_append (x0 ++ x1 ++ x2 ++ x3 ++ x4) x5 rfl _).trans ((high_append (x0 ++ x1 ++ x2 ++ x3) x4 rfl _).trans (low_append (x0 ++ x1 ++ x2) x3)))))
  · exact ((high_append (x0 ++ x1 ++ x2 ++ x3 ++ x4 ++ x5 ++ x6) x7 rfl _).trans ((high_append (x0 ++ x1 ++ x2 ++ x3 ++ x4 ++ x5) x6 rfl _).trans ((high_append (x0 ++ x1 ++ x2 ++ x3 ++ x4) x5 rfl _).trans (low_append (x0 ++ x1 ++ x2 ++ x3) x4))))
  · exact ((high_append (x0 ++ x1 ++ x2 ++ x3 ++ x4 ++ x5 ++ x6) x7 rfl _).trans ((high_append (x0 ++ x1 ++ x2 ++ x3 ++ x4 ++ x5) x6 rfl _).trans (low_append (x0 ++ x1 ++ x2 ++ x3 ++ x4) x5)))
  · exact ((high_append (x0 ++ x1 ++ x2 ++ x3 ++ x4 ++ x5 ++ x6) x7 rfl _).trans (low_append (x0 ++ x1 ++ x2 ++ x3 ++ x4 ++ x5) x6))
  · exact (low_append (x0 ++ x1 ++ x2 ++ x3 ++ x4 ++ x5 ++ x6) x7)

/-- The common fields are read back. -/
theorem hdr_mk (h : Hdr) (m : BitVec 8) (b : BitVec 48) :
    RawInstr.hdr ⟨b, m, BitVec.ofBool h.neg, BitVec.ofFin h.p, BitVec.ofFin h.stall⟩ = h := by
  obtain ⟨n, p, s⟩ := h
  cases n <;> rfl

/-! ### cvt and bytecode fields -/

theorem round_bits (m : Round) : Round.ofBits m.bits = m := by cases m <;> rfl
theorem ty_bits (t : ElTy) : tyOf (tyFn t) = some t := by cases t <;> rfl
theorem cvt_fields (x0 : BitVec 1) (x1 : BitVec 3) (x2 : BitVec 2) (x3 : BitVec 1) (x4 : BitVec 4) (x5 : BitVec 1) (x6 : BitVec 4) :
    let w : BitVec 16 := x0 ++ x1 ++ x2 ++ x3 ++ x4 ++ x5 ++ x6
    w.extractLsb' 15 1 = x0 ∧ w.extractLsb' 12 3 = x1 ∧ w.extractLsb' 10 2 = x2 ∧ w.extractLsb' 9 1 = x3 ∧ w.extractLsb' 5 4 = x4 ∧ w.extractLsb' 4 1 = x5 ∧ w.extractLsb' 0 4 = x6 :=
  ⟨((high_append (x0 ++ x1 ++ x2 ++ x3 ++ x4 ++ x5) x6 rfl _).trans ((high_append (x0 ++ x1 ++ x2 ++ x3 ++ x4) x5 rfl _).trans ((high_append (x0 ++ x1 ++ x2 ++ x3) x4 rfl _).trans ((high_append (x0 ++ x1 ++ x2) x3 rfl _).trans ((high_append (x0 ++ x1) x2 rfl _).trans ((high_append (x0) x1 rfl _).trans (whole x0))))))),
    ((high_append (x0 ++ x1 ++ x2 ++ x3 ++ x4 ++ x5) x6 rfl _).trans ((high_append (x0 ++ x1 ++ x2 ++ x3 ++ x4) x5 rfl _).trans ((high_append (x0 ++ x1 ++ x2 ++ x3) x4 rfl _).trans ((high_append (x0 ++ x1 ++ x2) x3 rfl _).trans ((high_append (x0 ++ x1) x2 rfl _).trans (low_append (x0) x1)))))),
    ((high_append (x0 ++ x1 ++ x2 ++ x3 ++ x4 ++ x5) x6 rfl _).trans ((high_append (x0 ++ x1 ++ x2 ++ x3 ++ x4) x5 rfl _).trans ((high_append (x0 ++ x1 ++ x2 ++ x3) x4 rfl _).trans ((high_append (x0 ++ x1 ++ x2) x3 rfl _).trans (low_append (x0 ++ x1) x2))))),
    ((high_append (x0 ++ x1 ++ x2 ++ x3 ++ x4 ++ x5) x6 rfl _).trans ((high_append (x0 ++ x1 ++ x2 ++ x3 ++ x4) x5 rfl _).trans ((high_append (x0 ++ x1 ++ x2 ++ x3) x4 rfl _).trans (low_append (x0 ++ x1 ++ x2) x3)))),
    ((high_append (x0 ++ x1 ++ x2 ++ x3 ++ x4 ++ x5) x6 rfl _).trans ((high_append (x0 ++ x1 ++ x2 ++ x3 ++ x4) x5 rfl _).trans (low_append (x0 ++ x1 ++ x2 ++ x3) x4))),
    ((high_append (x0 ++ x1 ++ x2 ++ x3 ++ x4 ++ x5) x6 rfl _).trans (low_append (x0 ++ x1 ++ x2 ++ x3 ++ x4) x5)),
    (low_append (x0 ++ x1 ++ x2 ++ x3 ++ x4 ++ x5) x6)⟩
theorem rdCode_cvt (d s : ElTy) (m : Round) (e : Fin 8) : rdCode (cvtOf (cvtImm d s m e)) = .ok (d, s, m, e) := by
  obtain ⟨h0, h1, h2, h3, h4, h5, h6⟩ := cvt_fields 0 (BitVec.ofFin (w := 3) e) m.bits 0 (tyFn s) 0 (tyFn d)
  change _ = _ at h0 h1 h2 h3 h4 h5 h6
  rw [cvtOf, cvtImm, h0, h1, h2, h3, h4, h5, h6]
  simp [ty_bits, round_bits, rdCode]

/-- The fields of a bytecode word are read back (R347). -/
theorem byte_fields (x0 : BitVec 6) (x1 : BitVec 3) (x2 : BitVec 3) (x3 : BitVec 3) (x4 : BitVec 17) :
    (mkByte x0 x1 x2 x3 x4).extractLsb' 26 6 = x0 ∧ (mkByte x0 x1 x2 x3 x4).extractLsb' 23 3 = x1 ∧ (mkByte x0 x1 x2 x3 x4).extractLsb' 20 3 = x2 ∧ (mkByte x0 x1 x2 x3 x4).extractLsb' 17 3 = x3 ∧ (mkByte x0 x1 x2 x3 x4).extractLsb' 0 17 = x4 :=
  ⟨((high_append (x0 ++ x1 ++ x2 ++ x3) x4 rfl _).trans ((high_append (x0 ++ x1 ++ x2) x3 rfl _).trans ((high_append (x0 ++ x1) x2 rfl _).trans ((high_append (x0) x1 rfl _).trans (whole x0))))),
    ((high_append (x0 ++ x1 ++ x2 ++ x3) x4 rfl _).trans ((high_append (x0 ++ x1 ++ x2) x3 rfl _).trans ((high_append (x0 ++ x1) x2 rfl _).trans (low_append (x0) x1)))),
    ((high_append (x0 ++ x1 ++ x2 ++ x3) x4 rfl _).trans ((high_append (x0 ++ x1 ++ x2) x3 rfl _).trans (low_append (x0 ++ x1) x2))),
    ((high_append (x0 ++ x1 ++ x2 ++ x3) x4 rfl _).trans (low_append (x0 ++ x1 ++ x2) x3)),
    (low_append (x0 ++ x1 ++ x2 ++ x3) x4)⟩

end Sys2Proof.Laws
end

