-- ==== Sys2Proof/Laws/PerInstr.lean ====
section
/-!
SUPPORT. Encoding then decoding gives the instruction back, one lemma for each constructor of Instr.
-/

namespace Sys2Proof.Laws

set_option linter.unusedSimpArgs false
set_option Elab.async false

/-- Decoding the encoded instruction gives it back: a well-formed Igfin instruction from its 64-bit word, a well-formed
bytecode instruction from its 32-bit word. An event or hub command has no encoding. -/
def RoundTrip.Statement (i : Instr) : Prop :=
  match encode i with
  | .igfin w => WellFormed i → decode w = .ok i
  | .bytecode w => WellFormed i → decodeByte w = .ok i
  | .none => True

/-- A parsed word decodes if the operand checks pass. -/
theorem decode_of_parse {i : Instr} {w : DWord} (hp : parseWord w = .ok i) (hw : WellFormed i) : decode w = .ok i := by
  have : firstReject i = none := by simpa [WellFormed, wellFormed] using hw
  rw [decode, hp]; simp [this]

theorem of_f3 {i : Instr} {h : Hdr} {m : BitVec 8} {b : BodyF3} (n : Nat) (he : encode i = .igfin (mkWord h m b.pack))
    (hn : m.toNat = n) (hf : fmtOf n = some .f3) (hp : parseF3 n h b = .ok i) : RoundTrip.Statement i := by
  rw [RoundTrip.Statement, he]
  refine fun hw => decode_of_parse ?_ hw
  rw [parseWord, mkWord, RawInstr_unpack_pack]
  show (match fmtOf m.toNat with | some .f3 => _ | some .fi => _ | some .fl => _ | some .fb => _ | some .fm => _ | some .fx => _ | none => _) = _
  rw [hn, hf]
  show parseF3 n _ (BodyF3.unpack b.pack) = _
  rw [BodyF3_unpack_pack, hdr_mk, hp]

theorem of_fi {i : Instr} {h : Hdr} {m : BitVec 8} {b : BodyFI} (n : Nat) (he : encode i = .igfin (mkWord h m b.pack))
    (hn : m.toNat = n) (hf : fmtOf n = some .fi) (hp : parseFI n h b = .ok i) : RoundTrip.Statement i := by
  rw [RoundTrip.Statement, he]
  refine fun hw => decode_of_parse ?_ hw
  rw [parseWord, mkWord, RawInstr_unpack_pack]
  show (match fmtOf m.toNat with | some .f3 => _ | some .fi => _ | some .fl => _ | some .fb => _ | some .fm => _ | some .fx => _ | none => _) = _
  rw [hn, hf]
  show parseFI n _ (BodyFI.unpack b.pack) = _
  rw [BodyFI_unpack_pack, hdr_mk, hp]

theorem of_fl {i : Instr} {h : Hdr} {m : BitVec 8} {b : BodyFL} (n : Nat) (he : encode i = .igfin (mkWord h m b.pack))
    (hn : m.toNat = n) (hf : fmtOf n = some .fl) (hp : parseFL n h b = .ok i) : RoundTrip.Statement i := by
  rw [RoundTrip.Statement, he]
  refine fun hw => decode_of_parse ?_ hw
  rw [parseWord, mkWord, RawInstr_unpack_pack]
  show (match fmtOf m.toNat with | some .f3 => _ | some .fi => _ | some .fl => _ | some .fb => _ | some .fm => _ | some .fx => _ | none => _) = _
  rw [hn, hf]
  show parseFL n _ (BodyFL.unpack b.pack) = _
  rw [BodyFL_unpack_pack, hdr_mk, hp]

theorem of_fb {i : Instr} {h : Hdr} {m : BitVec 8} {b : BodyFL} (n : Nat) (he : encode i = .igfin (mkWord h m b.pack))
    (hn : m.toNat = n) (hf : fmtOf n = some .fb) (hp : parseFB n h b = .ok i) : RoundTrip.Statement i := by
  rw [RoundTrip.Statement, he]
  refine fun hw => decode_of_parse ?_ hw
  rw [parseWord, mkWord, RawInstr_unpack_pack]
  show (match fmtOf m.toNat with | some .f3 => _ | some .fi => _ | some .fl => _ | some .fb => _ | some .fm => _ | some .fx => _ | none => _) = _
  rw [hn, hf]
  show parseFB n _ (BodyFL.unpack b.pack) = _
  rw [BodyFL_unpack_pack, hdr_mk, hp]

theorem of_fm {i : Instr} {h : Hdr} {m : BitVec 8} {b : BodyFM} (n : Nat) (he : encode i = .igfin (mkWord h m b.pack))
    (hn : m.toNat = n) (hf : fmtOf n = some .fm) (hp : parseFM n h b = .ok i) : RoundTrip.Statement i := by
  rw [RoundTrip.Statement, he]
  refine fun hw => decode_of_parse ?_ hw
  rw [parseWord, mkWord, RawInstr_unpack_pack]
  show (match fmtOf m.toNat with | some .f3 => _ | some .fi => _ | some .fl => _ | some .fb => _ | some .fm => _ | some .fx => _ | none => _) = _
  rw [hn, hf]
  show parseFM n _ (BodyFM.unpack b.pack) = _
  rw [BodyFM_unpack_pack, hdr_mk, hp]

theorem of_fx {i : Instr} {h : Hdr} {m : BitVec 8} {b : BodyFX} (n : Nat) (he : encode i = .igfin (mkWord h m b.pack))
    (hn : m.toNat = n) (hf : fmtOf n = some .fx) (hp : parseFX n h b = .ok i) : RoundTrip.Statement i := by
  rw [RoundTrip.Statement, he]
  refine fun hw => decode_of_parse ?_ hw
  rw [parseWord, mkWord, RawInstr_unpack_pack]
  show (match fmtOf m.toNat with | some .f3 => _ | some .fi => _ | some .fl => _ | some .fb => _ | some .fm => _ | some .fx => _ | none => _) = _
  rw [hn, hf]
  show parseFX n _ (BodyFX.unpack b.pack) = _
  rw [BodyFX_unpack_pack, hdr_mk, hp]

theorem toNat_ofNat17 {n : Nat} (h : n < 2 ^ 17) : (BitVec.ofNat 17 n).toNat = n := by
  simp only [BitVec.toNat_ofNat, Nat.mod_eq_of_lt h]

theorem RoundTrip.br (x0 x1) : RoundTrip.Statement (.br x0 x1) :=
  of_fb 0 rfl rfl rfl (by unfold parseFB; simp only [rdNone_zero, rdZero_zero]; rfl)

theorem RoundTrip.brx (x0 x1 x2) : RoundTrip.Statement (.brx x0 x1 x2) :=
  of_fb 1 rfl rfl rfl (by unfold parseFB; simp only [rdNone_zero, rdOp_code, rdZero_zero]; rfl)

theorem RoundTrip.call (x0 x1 x2) : RoundTrip.Statement (.call x0 x1 x2) :=
  of_fb 2 rfl rfl rfl (by unfold parseFB; simp only [rdNone_zero, rdOp_code, rdZero_zero]; rfl)

theorem RoundTrip.callx (x0 x1 x2) : RoundTrip.Statement (.callx x0 x1 x2) :=
  of_f3 3 rfl rfl rfl (by unfold parseF3; simp only [rdNone_zero, rdOp_code, rdZero_zero]; rfl)

theorem RoundTrip.ret (x0 x1) : RoundTrip.Statement (.ret x0 x1) :=
  of_fb 4 rfl rfl rfl (by unfold parseFB; simp only [rdNone_zero, rdOp_code, rdZero_zero]; rfl)

theorem RoundTrip.exit (x0) : RoundTrip.Statement (.exit x0) :=
  of_fb 5 rfl rfl rfl (by unfold parseFB; simp only [rdNone_zero, rdZero_zero]; rfl)

theorem RoundTrip.meet (x0 x1) : RoundTrip.Statement (.meet x0 x1) :=
  of_fb 6 rfl rfl rfl (by unfold parseFB; simp only [rdNone_zero, rdZero_zero]; rfl)

theorem RoundTrip.loop (x0 x1 x2) : RoundTrip.Statement (.loop x0 x1 x2) :=
  of_fb 7 rfl rfl rfl (by unfold parseFB; simp only [rdNone_zero, rdOp_code, rdZero_zero]; rfl)

theorem RoundTrip.loopImm (x0 x1 x2) : RoundTrip.Statement (.loopImm x0 x1 x2) :=
  of_fb 7 rfl rfl rfl (by unfold parseFB; simp only [rdNone_zero, rdZero_zero]; rfl)

theorem RoundTrip.loopv (x0 x1 x2) : RoundTrip.Statement (.loopv x0 x1 x2) :=
  of_fb 8 rfl rfl rfl (by unfold parseFB; simp only [rdNone_zero, rdOp_code, rdZero_zero]; rfl)

theorem RoundTrip.lpop (x0) : RoundTrip.Statement (.lpop x0) :=
  of_fb 9 rfl rfl rfl (by unfold parseFB; simp only [rdNone_zero, rdZero_zero]; rfl)

theorem RoundTrip.trap (x0 x1) : RoundTrip.Statement (.trap x0 x1) :=
  of_fl 24 rfl rfl rfl (by unfold parseFL; simp only [rdNone_zero, rdZero_zero]; rfl)

theorem RoundTrip.rfe (x0) : RoundTrip.Statement (.rfe x0) :=
  of_fb 25 rfl rfl rfl (by unfold parseFB; simp only [rdNone_zero, rdZero_zero]; rfl)

theorem RoundTrip.yield (x0) : RoundTrip.Statement (.yield x0) :=
  of_fb 26 rfl rfl rfl (by unfold parseFB; simp only [rdNone_zero, rdZero_zero]; rfl)

theorem RoundTrip.bkpt (x0 x1) : RoundTrip.Statement (.bkpt x0 x1) :=
  of_fl 27 rfl rfl rfl (by unfold parseFL; simp only [rdNone_zero, rdZero_zero]; rfl)

theorem RoundTrip.nop (x0) : RoundTrip.Statement (.nop x0) :=
  of_fl 28 rfl rfl rfl (by unfold parseFL; simp only [rdNone_zero, rdZero_zero]; rfl)

theorem RoundTrip.mfs (x0 x1 x2) : RoundTrip.Statement (.mfs x0 x1 x2) :=
  of_fi 29 rfl rfl rfl (by unfold parseFI; simp only [rdCode_sreg, rdNone_zero, rdOp_code, rdZero_zero]; rfl)

theorem RoundTrip.mts (x0 x1 x2) : RoundTrip.Statement (.mts x0 x1 x2) :=
  of_fi 30 rfl rfl rfl (by unfold parseFI; simp only [rdCode_sreg, rdNone_zero, rdOp_code, rdZero_zero]; rfl)

theorem RoundTrip.add (x0 x1 x2 x3 x4 x5) : RoundTrip.Statement (.add x0 x1 x2 x3 x4 x5) :=
  of_f3 32 rfl rfl rfl (by unfold parseF3; simp only [rdCode_sum, rdNone_zero, rdOp_code, rdZero_zero]; rfl)

theorem RoundTrip.addc (x0 x1 x2 x3 x4 x5) : RoundTrip.Statement (.addc x0 x1 x2 x3 x4 x5) :=
  of_f3 33 rfl rfl rfl (by unfold parseF3; simp only [rdCode_bool, rdNone_zero, rdOp_code, rdZero_zero]; rfl)

theorem RoundTrip.sub (x0 x1 x2 x3 x4) : RoundTrip.Statement (.sub x0 x1 x2 x3 x4) :=
  of_f3 34 rfl rfl rfl (by unfold parseF3; simp only [rdCode_sum, rdNone_zero, rdOp_code, rdZero_zero]; rfl)

theorem RoundTrip.subb (x0 x1 x2 x3 x4 x5) : RoundTrip.Statement (.subb x0 x1 x2 x3 x4 x5) :=
  of_f3 35 rfl rfl rfl (by unfold parseF3; simp only [rdCode_bool, rdNone_zero, rdOp_code, rdZero_zero]; rfl)

theorem RoundTrip.neg (x0 x1 x2 x3) : RoundTrip.Statement (.neg x0 x1 x2 x3) :=
  of_f3 36 rfl rfl rfl (by unfold parseF3; simp only [rdCode_neg, rdNone_zero, rdOp_code, rdZero_zero]; rfl)

theorem RoundTrip.abs (x0 x1 x2 x3) : RoundTrip.Statement (.abs x0 x1 x2 x3) :=
  of_f3 37 rfl rfl rfl (by unfold parseF3; simp only [rdCode_neg, rdNone_zero, rdOp_code, rdZero_zero]; rfl)

theorem RoundTrip.mul (x0 x1 x2 x3 x4) : RoundTrip.Statement (.mul x0 x1 x2 x3 x4) :=
  of_f3 38 rfl rfl rfl (by unfold parseF3; simp only [rdCode_mul, rdNone_zero, rdOp_code, rdZero_zero]; rfl)

theorem RoundTrip.mulhi (x0 x1 x2 x3 x4) : RoundTrip.Statement (.mulhi x0 x1 x2 x3 x4) :=
  of_f3 39 rfl rfl rfl (by unfold parseF3; simp only [rdCode_bool, rdNone_zero, rdOp_code, rdZero_zero]; rfl)

theorem RoundTrip.mad (x0 x1 x2 x3 x4 x5) : RoundTrip.Statement (.mad x0 x1 x2 x3 x4 x5) :=
  of_f3 40 rfl rfl rfl (by unfold parseF3; simp only [rdCode_mad, rdNone_zero, rdOp_code, rdZero_zero]; rfl)

theorem RoundTrip.madhi (x0 x1 x2 x3 x4 x5) : RoundTrip.Statement (.madhi x0 x1 x2 x3 x4 x5) :=
  of_f3 41 rfl rfl rfl (by unfold parseF3; simp only [rdCode_bool, rdNone_zero, rdOp_code, rdZero_zero]; rfl)

theorem RoundTrip.min (x0 x1 x2 x3 x4) : RoundTrip.Statement (.min x0 x1 x2 x3 x4) :=
  of_f3 42 rfl rfl rfl (by unfold parseF3; simp only [rdCode_cmp, rdNone_zero, rdOp_code, rdZero_zero]; rfl)

theorem RoundTrip.max (x0 x1 x2 x3 x4) : RoundTrip.Statement (.max x0 x1 x2 x3 x4) :=
  of_f3 43 rfl rfl rfl (by unfold parseF3; simp only [rdCode_cmp, rdNone_zero, rdOp_code, rdZero_zero]; rfl)

theorem RoundTrip.and (x0 x1 x2 x3) : RoundTrip.Statement (.and x0 x1 x2 x3) :=
  of_f3 44 rfl rfl rfl (by unfold parseF3; simp only [rdNone_zero, rdOp_code, rdZero_zero]; rfl)

theorem RoundTrip.or (x0 x1 x2 x3) : RoundTrip.Statement (.or x0 x1 x2 x3) :=
  of_f3 44 rfl rfl rfl (by unfold parseF3; simp only [rdNone_zero, rdOp_code, rdZero_zero]; rfl)

theorem RoundTrip.xor (x0 x1 x2 x3) : RoundTrip.Statement (.xor x0 x1 x2 x3) :=
  of_f3 44 rfl rfl rfl (by unfold parseF3; simp only [rdNone_zero, rdOp_code, rdZero_zero]; rfl)

theorem RoundTrip.andn (x0 x1 x2 x3) : RoundTrip.Statement (.andn x0 x1 x2 x3) :=
  of_f3 44 rfl rfl rfl (by unfold parseF3; simp only [rdNone_zero, rdOp_code, rdZero_zero]; rfl)

theorem RoundTrip.not (x0 x1 x2) : RoundTrip.Statement (.not x0 x1 x2) :=
  of_f3 44 rfl rfl rfl (by unfold parseF3; simp only [rdNone_zero, rdOp_code, rdZero_zero]; rfl)

theorem RoundTrip.shl (x0 x1 x2 x3) : RoundTrip.Statement (.shl x0 x1 x2 x3) :=
  of_f3 45 rfl rfl rfl (by unfold parseF3; simp only [rdNone_zero, rdOp_code, rdZero_zero]; rfl)

theorem RoundTrip.shr (x0 x1 x2 x3) : RoundTrip.Statement (.shr x0 x1 x2 x3) :=
  of_f3 45 rfl rfl rfl (by unfold parseF3; simp only [rdNone_zero, rdOp_code, rdZero_zero]; rfl)

theorem RoundTrip.sar (x0 x1 x2 x3) : RoundTrip.Statement (.sar x0 x1 x2 x3) :=
  of_f3 45 rfl rfl rfl (by unfold parseF3; simp only [rdNone_zero, rdOp_code, rdZero_zero]; rfl)

theorem RoundTrip.rot (x0 x1 x2 x3) : RoundTrip.Statement (.rot x0 x1 x2 x3) :=
  of_f3 45 rfl rfl rfl (by unfold parseF3; simp only [rdNone_zero, rdOp_code, rdZero_zero]; rfl)

theorem RoundTrip.clz (x0 x1 x2) : RoundTrip.Statement (.clz x0 x1 x2) :=
  of_f3 46 rfl rfl rfl (by unfold parseF3; simp only [rdNone_zero, rdOp_code, rdZero_zero]; rfl)

theorem RoundTrip.popc (x0 x1 x2) : RoundTrip.Statement (.popc x0 x1 x2) :=
  of_f3 46 rfl rfl rfl (by unfold parseF3; simp only [rdNone_zero, rdOp_code, rdZero_zero]; rfl)

theorem RoundTrip.brev (x0 x1 x2) : RoundTrip.Statement (.brev x0 x1 x2) :=
  of_f3 46 rfl rfl rfl (by unfold parseF3; simp only [rdNone_zero, rdOp_code, rdZero_zero]; rfl)

theorem RoundTrip.bfe (x0 x1 x2 x3 x4 x5) : RoundTrip.Statement (.bfe x0 x1 x2 x3 x4 x5) :=
  of_f3 47 rfl rfl rfl (by unfold parseF3; simp only [rdCode_bool, rdNone_zero, rdOp_code, rdZero_zero]; rfl)

theorem RoundTrip.bfi (x0 x1 x2 x3 x4) : RoundTrip.Statement (.bfi x0 x1 x2 x3 x4) :=
  of_f3 48 rfl rfl rfl (by unfold parseF3; simp only [rdNone_zero, rdOp_code, rdZero_zero]; rfl)

theorem RoundTrip.lea (x0 x1 x2 x3 x4 x5) : RoundTrip.Statement (.lea x0 x1 x2 x3 x4 x5) :=
  of_f3 49 rfl rfl rfl (by unfold parseF3; simp only [rdCode_fin8, rdNone_zero, rdOp_code, rdZero_zero]; rfl)

theorem RoundTrip.addmin (x0 x1 x2 x3 x4 x5) : RoundTrip.Statement (.addmin x0 x1 x2 x3 x4 x5) :=
  of_f3 50 rfl rfl rfl (by unfold parseF3; simp only [rdCode_bool, rdNone_zero, rdOp_code, rdZero_zero]; rfl)

theorem RoundTrip.addmax (x0 x1 x2 x3 x4 x5) : RoundTrip.Statement (.addmax x0 x1 x2 x3 x4 x5) :=
  of_f3 51 rfl rfl rfl (by unfold parseF3; simp only [rdCode_bool, rdNone_zero, rdOp_code, rdZero_zero]; rfl)

theorem RoundTrip.div (x0 x1 x2 x3 x4 x5) : RoundTrip.Statement (.div x0 x1 x2 x3 x4 x5) :=
  of_f3 52 rfl rfl rfl (by unfold parseF3; simp only [rdCode_bool, rdIdx_bits, rdNone_zero, rdOp_code, rdZero_zero]; rfl)

theorem RoundTrip.rem (x0 x1 x2 x3 x4 x5) : RoundTrip.Statement (.rem x0 x1 x2 x3 x4 x5) :=
  of_f3 53 rfl rfl rfl (by unfold parseF3; simp only [rdCode_bool, rdIdx_bits, rdNone_zero, rdOp_code, rdZero_zero]; rfl)

theorem RoundTrip.mov (x0 x1 x2 x3) : RoundTrip.Statement (.mov x0 x1 x2 x3) :=
  of_f3 54 rfl rfl rfl (by unfold parseF3; simp only [rdCode_bool, rdNone_zero, rdOp_code, rdZero_zero]; rfl)

theorem RoundTrip.movi (x0 x1 x2) : RoundTrip.Statement (.movi x0 x1 x2) :=
  of_fl 55 rfl rfl rfl (by unfold parseFL; simp only [rdNone_zero, rdOp_code, rdZero_zero]; rfl)

theorem RoundTrip.fadd (x0 x1 x2 x3 x4) : RoundTrip.Statement (.fadd x0 x1 x2 x3 x4) :=
  of_f3 64 rfl rfl rfl (by unfold parseF3; simp only [rdCode_rm, rdNone_zero, rdOp_code, rdZero_zero]; rfl)

theorem RoundTrip.fsub (x0 x1 x2 x3 x4) : RoundTrip.Statement (.fsub x0 x1 x2 x3 x4) :=
  of_f3 65 rfl rfl rfl (by unfold parseF3; simp only [rdCode_rm, rdNone_zero, rdOp_code, rdZero_zero]; rfl)

theorem RoundTrip.fmul (x0 x1 x2 x3 x4) : RoundTrip.Statement (.fmul x0 x1 x2 x3 x4) :=
  of_f3 66 rfl rfl rfl (by unfold parseF3; simp only [rdCode_rm, rdNone_zero, rdOp_code, rdZero_zero]; rfl)

theorem RoundTrip.ffma (x0 x1 x2 x3 x4 x5) : RoundTrip.Statement (.ffma x0 x1 x2 x3 x4 x5) :=
  of_f3 67 rfl rfl rfl (by unfold parseF3; simp only [rdCode_rm, rdNone_zero, rdOp_code, rdZero_zero]; rfl)

theorem RoundTrip.fmin (x0 x1 x2 x3) : RoundTrip.Statement (.fmin x0 x1 x2 x3) :=
  of_f3 68 rfl rfl rfl (by unfold parseF3; simp only [rdNone_zero, rdOp_code, rdZero_zero]; rfl)

theorem RoundTrip.fmax (x0 x1 x2 x3) : RoundTrip.Statement (.fmax x0 x1 x2 x3) :=
  of_f3 69 rfl rfl rfl (by unfold parseF3; simp only [rdNone_zero, rdOp_code, rdZero_zero]; rfl)

theorem RoundTrip.fabs (x0 x1 x2) : RoundTrip.Statement (.fabs x0 x1 x2) :=
  of_f3 70 rfl rfl rfl (by unfold parseF3; simp only [rdNone_zero, rdOp_code, rdZero_zero]; rfl)

theorem RoundTrip.fneg (x0 x1 x2) : RoundTrip.Statement (.fneg x0 x1 x2) :=
  of_f3 71 rfl rfl rfl (by unfold parseF3; simp only [rdNone_zero, rdOp_code, rdZero_zero]; rfl)

theorem RoundTrip.frcp (x0 x1 x2 x3 x4) : RoundTrip.Statement (.frcp x0 x1 x2 x3 x4) :=
  of_f3 72 rfl rfl rfl (by unfold parseF3; simp only [rdCode_rm, rdIdx_bits, rdNone_zero, rdOp_code, rdZero_zero]; rfl)

theorem RoundTrip.frsq (x0 x1 x2 x3 x4) : RoundTrip.Statement (.frsq x0 x1 x2 x3 x4) :=
  of_f3 73 rfl rfl rfl (by unfold parseF3; simp only [rdCode_rm, rdIdx_bits, rdNone_zero, rdOp_code, rdZero_zero]; rfl)

theorem RoundTrip.fsqrt (x0 x1 x2 x3 x4) : RoundTrip.Statement (.fsqrt x0 x1 x2 x3 x4) :=
  of_f3 74 rfl rfl rfl (by unfold parseF3; simp only [rdCode_rm, rdIdx_bits, rdNone_zero, rdOp_code, rdZero_zero]; rfl)

theorem RoundTrip.fdiv (x0 x1 x2 x3 x4 x5) : RoundTrip.Statement (.fdiv x0 x1 x2 x3 x4 x5) :=
  of_f3 75 rfl rfl rfl (by unfold parseF3; simp only [rdCode_rm, rdIdx_bits, rdNone_zero, rdOp_code, rdZero_zero]; rfl)

theorem RoundTrip.fexp2 (x0 x1 x2 x3) : RoundTrip.Statement (.fexp2 x0 x1 x2 x3) :=
  of_f3 76 rfl rfl rfl (by unfold parseF3; simp only [rdIdx_bits, rdNone_zero, rdOp_code, rdZero_zero]; rfl)

theorem RoundTrip.flog2 (x0 x1 x2 x3) : RoundTrip.Statement (.flog2 x0 x1 x2 x3) :=
  of_f3 77 rfl rfl rfl (by unfold parseF3; simp only [rdIdx_bits, rdNone_zero, rdOp_code, rdZero_zero]; rfl)

theorem RoundTrip.fsin (x0 x1 x2 x3) : RoundTrip.Statement (.fsin x0 x1 x2 x3) :=
  of_f3 78 rfl rfl rfl (by unfold parseF3; simp only [rdIdx_bits, rdNone_zero, rdOp_code, rdZero_zero]; rfl)

theorem RoundTrip.fcos (x0 x1 x2 x3) : RoundTrip.Statement (.fcos x0 x1 x2 x3) :=
  of_f3 79 rfl rfl rfl (by unfold parseF3; simp only [rdIdx_bits, rdNone_zero, rdOp_code, rdZero_zero]; rfl)

theorem RoundTrip.frint (x0 x1 x2) : RoundTrip.Statement (.frint x0 x1 x2) :=
  of_f3 80 rfl rfl rfl (by unfold parseF3; simp only [rdNone_zero, rdOp_code, rdZero_zero]; rfl)

theorem RoundTrip.ftrunc (x0 x1 x2) : RoundTrip.Statement (.ftrunc x0 x1 x2) :=
  of_f3 80 rfl rfl rfl (by unfold parseF3; simp only [rdNone_zero, rdOp_code, rdZero_zero]; rfl)

theorem RoundTrip.ffloor (x0 x1 x2) : RoundTrip.Statement (.ffloor x0 x1 x2) :=
  of_f3 80 rfl rfl rfl (by unfold parseF3; simp only [rdNone_zero, rdOp_code, rdZero_zero]; rfl)

theorem RoundTrip.fceil (x0 x1 x2) : RoundTrip.Statement (.fceil x0 x1 x2) :=
  of_f3 80 rfl rfl rfl (by unfold parseF3; simp only [rdNone_zero, rdOp_code, rdZero_zero]; rfl)

theorem RoundTrip.fclass (x0 x1 x2) : RoundTrip.Statement (.fclass x0 x1 x2) :=
  of_f3 81 rfl rfl rfl (by unfold parseF3; simp only [rdNone_zero, rdOp_code, rdZero_zero]; rfl)

theorem RoundTrip.cvt (x0 x1 x2 x3 x4 x5 x6) : RoundTrip.Statement (.cvt x0 x1 x2 x3 x4 x5 x6) :=
  of_fi 82 rfl rfl rfl (by unfold parseFI; simp only [rdCode_cvt, rdNone_zero, rdOp_code, rdZero_zero]; rfl)

theorem RoundTrip.hadd2 (x0 x1 x2 x3 x4 x5) : RoundTrip.Statement (.hadd2 x0 x1 x2 x3 x4 x5) :=
  of_f3 83 rfl rfl rfl (by unfold parseF3; simp only [rdCode_half, rdNone_zero, rdOp_code, rdZero_zero]; rfl)

theorem RoundTrip.hmul2 (x0 x1 x2 x3 x4 x5) : RoundTrip.Statement (.hmul2 x0 x1 x2 x3 x4 x5) :=
  of_f3 84 rfl rfl rfl (by unfold parseF3; simp only [rdCode_half, rdNone_zero, rdOp_code, rdZero_zero]; rfl)

theorem RoundTrip.hfma2 (x0 x1 x2 x3 x4 x5 x6) : RoundTrip.Statement (.hfma2 x0 x1 x2 x3 x4 x5 x6) :=
  of_f3 85 rfl rfl rfl (by unfold parseF3; simp only [rdCode_half, rdNone_zero, rdOp_code, rdZero_zero]; rfl)

theorem RoundTrip.dot2 (x0 x1 x2 x3 x4 x5 x6) : RoundTrip.Statement (.dot2 x0 x1 x2 x3 x4 x5 x6) :=
  of_f3 96 rfl rfl rfl (by unfold parseF3; simp only [rdCode_dot2, rdNone_zero, rdOp_code, rdZero_zero]; rfl)

theorem RoundTrip.dot4f (x0 x1 x2 x3 x4 x5 x6) : RoundTrip.Statement (.dot4f x0 x1 x2 x3 x4 x5 x6) :=
  of_f3 97 rfl rfl rfl (by unfold parseF3; simp only [rdCode_dot4, rdNone_zero, rdOp_code, rdZero_zero]; rfl)

theorem RoundTrip.dot4i (x0 x1 x2 x3 x4) : RoundTrip.Statement (.dot4i x0 x1 x2 x3 x4) :=
  of_f3 98 rfl rfl rfl (by unfold parseF3; simp only [rdCode_bool, rdNone_zero, rdOp_code, rdZero_zero]; rfl)

theorem RoundTrip.dot8f (x0 x1 x2 x3 x4 x5) : RoundTrip.Statement (.dot8f x0 x1 x2 x3 x4 x5) :=
  of_f3 99 rfl rfl rfl (by unfold parseF3; simp only [rdCode_rm, rdNone_zero, rdOp_code, rdZero_zero]; rfl)

theorem RoundTrip.dot8i (x0 x1 x2 x3 x4) : RoundTrip.Statement (.dot8i x0 x1 x2 x3 x4) :=
  of_f3 100 rfl rfl rfl (by unfold parseF3; simp only [rdCode_bool, rdNone_zero, rdOp_code, rdZero_zero]; rfl)

theorem RoundTrip.pk (x0 x1 x2 x3 x4 x5) : RoundTrip.Statement (.pk x0 x1 x2 x3 x4 x5) :=
  of_f3 101 rfl rfl rfl (by unfold parseF3; simp only [rdCode_ty, rdNone_zero, rdOp_code, rdZero_zero]; rfl)

theorem RoundTrip.upk (x0 x1 x2 x3 x4) : RoundTrip.Statement (.upk x0 x1 x2 x3 x4) :=
  of_f3 102 rfl rfl rfl (by unfold parseF3; simp only [rdCode_ty, rdNone_zero, rdOp_code, rdZero_zero]; rfl)

theorem RoundTrip.scl (x0 x1 x2 x3 x4 x5) : RoundTrip.Statement (.scl x0 x1 x2 x3 x4 x5) :=
  of_f3 103 rfl rfl rfl (by unfold parseF3; simp only [rdCode_scl, rdNone_zero, rdOp_code, rdZero_zero]; rfl)

theorem RoundTrip.setpI (x0 x1 x2 x3 x4 x5) : RoundTrip.Statement (.setpI x0 x1 x2 x3 x4 x5) :=
  of_f3 112 rfl rfl rfl (by unfold parseF3; simp only [rdCode_cc, rdNone_zero, rdOp_code, rdPd_bits, rdPs_bits, rdZero_zero]; rfl)

theorem RoundTrip.setpN (x0 x1 x2 x3 x4 x5) : RoundTrip.Statement (.setpN x0 x1 x2 x3 x4 x5) :=
  of_f3 113 rfl rfl rfl (by unfold parseF3; simp only [rdCode_cc, rdNone_zero, rdOp_code, rdPd_bits, rdPs_bits, rdZero_zero]; rfl)

theorem RoundTrip.setpF (x0 x1 x2 x3 x4 x5) : RoundTrip.Statement (.setpF x0 x1 x2 x3 x4 x5) :=
  of_f3 114 rfl rfl rfl (by unfold parseF3; simp only [rdCode_cc, rdNone_zero, rdOp_code, rdPd_bits, rdPs_bits, rdZero_zero]; rfl)

theorem RoundTrip.pand (x0 x1 x2 x3) : RoundTrip.Statement (.pand x0 x1 x2 x3) :=
  of_f3 115 rfl rfl rfl (by unfold parseF3; simp only [rdNone_zero, rdPd_bits, rdPs_bits, rdZero_zero]; rfl)

theorem RoundTrip.por (x0 x1 x2 x3) : RoundTrip.Statement (.por x0 x1 x2 x3) :=
  of_f3 115 rfl rfl rfl (by unfold parseF3; simp only [rdNone_zero, rdPd_bits, rdPs_bits, rdZero_zero]; rfl)

theorem RoundTrip.pxor (x0 x1 x2 x3) : RoundTrip.Statement (.pxor x0 x1 x2 x3) :=
  of_f3 115 rfl rfl rfl (by unfold parseF3; simp only [rdNone_zero, rdPd_bits, rdPs_bits, rdZero_zero]; rfl)

theorem RoundTrip.pnot (x0 x1 x2) : RoundTrip.Statement (.pnot x0 x1 x2) :=
  of_f3 115 rfl rfl rfl (by unfold parseF3; simp only [rdNone_zero, rdPd_bits, rdPs_bits, rdZero_zero]; rfl)

theorem RoundTrip.sel (x0 x1 x2 x3 x4 x5) : RoundTrip.Statement (.sel x0 x1 x2 x3 x4 x5) :=
  of_f3 116 rfl rfl rfl (by unfold parseF3; simp only [rdCode_bool, rdNone_zero, rdOp_code, rdPs_bits, rdZero_zero]; rfl)

theorem RoundTrip.lsh (x0 x1 x2 x3 x4 x5) : RoundTrip.Statement (.lsh x0 x1 x2 x3 x4 x5) :=
  of_f3 117 rfl rfl rfl (by unfold parseF3; simp only [rdCode_bool, rdNone_zero, rdOp_code, rdZero_zero]; rfl)

theorem RoundTrip.lxor (x0 x1 x2 x3) : RoundTrip.Statement (.lxor x0 x1 x2 x3) :=
  of_f3 118 rfl rfl rfl (by unfold parseF3; simp only [rdNone_zero, rdOp_code, rdZero_zero]; rfl)

theorem RoundTrip.lbc (x0 x1 x2 x3) : RoundTrip.Statement (.lbc x0 x1 x2 x3) :=
  of_f3 119 rfl rfl rfl (by unfold parseF3; simp only [rdNone_zero, rdOp_code, rdZero_zero]; rfl)

theorem RoundTrip.lrot (x0 x1 x2 x3) : RoundTrip.Statement (.lrot x0 x1 x2 x3) :=
  of_f3 120 rfl rfl rfl (by unfold parseF3; simp only [rdNone_zero, rdOp_code, rdZero_zero]; rfl)

theorem RoundTrip.qswp (x0 x1 x2 x3) : RoundTrip.Statement (.qswp x0 x1 x2 x3) :=
  of_f3 121 rfl rfl rfl (by unfold parseF3; simp only [rdCode_dir, rdNone_zero, rdOp_code, rdZero_zero]; rfl)

theorem RoundTrip.qbc (x0 x1 x2 x3) : RoundTrip.Statement (.qbc x0 x1 x2 x3) :=
  of_f3 122 rfl rfl rfl (by unfold parseF3; simp only [rdNone_zero, rdOp_code, rdZero_zero]; rfl)

theorem RoundTrip.vote (x0 x1 x2) : RoundTrip.Statement (.vote x0 x1 x2) :=
  of_f3 123 rfl rfl rfl (by unfold parseF3; simp only [rdNone_zero, rdPs_bits, rdVote_bits, rdZero_zero]; rfl)

theorem RoundTrip.lscan (x0 x1 x2 x3 x4) : RoundTrip.Statement (.lscan x0 x1 x2 x3 x4) :=
  of_f3 124 rfl rfl rfl (by unfold parseF3; simp only [rdCode_scan, rdNone_zero, rdOp_code, rdZero_zero]; rfl)

theorem RoundTrip.ldS (x0 x1 x2 x3 x4 x5 x6 x7) : RoundTrip.Statement (.ldS x0 x1 x2 x3 x4 x5 x6 x7) :=
  of_fm 128 rfl rfl rfl (by unfold parseFM; simp only [rdCode_acq, rdCode_bool, rdCode_size, rdNone_zero, rdOp_code, rdZero_zero]; rfl)

theorem RoundTrip.stS (x0 x1 x2 x3 x4 x5) : RoundTrip.Statement (.stS x0 x1 x2 x3 x4 x5) :=
  of_fm 129 rfl rfl rfl (by unfold parseFM; simp only [rdCode_rel, rdCode_size, rdNone_zero, rdOp_code, rdZero_zero]; rfl)

theorem RoundTrip.ldH (x0 x1 x2 x3 x4 x5 x6 x7) : RoundTrip.Statement (.ldH x0 x1 x2 x3 x4 x5 x6 x7) :=
  of_fm 130 rfl rfl rfl (by unfold parseFM; simp only [rdCode_acq, rdCode_bool, rdCode_size, rdNone_zero, rdOp_code, rdZero_zero]; rfl)

theorem RoundTrip.stH (x0 x1 x2 x3 x4 x5) : RoundTrip.Statement (.stH x0 x1 x2 x3 x4 x5) :=
  of_fm 131 rfl rfl rfl (by unfold parseFM; simp only [rdCode_rel, rdCode_size, rdNone_zero, rdOp_code, rdZero_zero]; rfl)

theorem RoundTrip.ldK (x0 x1 x2 x3 x4 x5 x6) : RoundTrip.Statement (.ldK x0 x1 x2 x3 x4 x5 x6) :=
  of_fm 132 rfl rfl rfl (by unfold parseFM; simp only [rdCode_bool, rdCode_size, rdNone_zero, rdOp_code, rdZero_zero]; rfl)

theorem RoundTrip.stK (x0 x1 x2 x3 x4) : RoundTrip.Statement (.stK x0 x1 x2 x3 x4) :=
  of_fm 133 rfl rfl rfl (by unfold parseFM; simp only [rdCode_size, rdNone_zero, rdOp_code, rdZero_zero]; rfl)

theorem RoundTrip.ldC (x0 x1 x2 x3 x4 x5 x6 x7) : RoundTrip.Statement (.ldC x0 x1 x2 x3 x4 x5 x6 x7) :=
  of_fm 134 rfl rfl rfl (by unfold parseFM; simp only [rdCode_acq, rdCode_bool, rdCode_size, rdNone_zero, rdOp_code, rdZero_zero]; rfl)

theorem RoundTrip.stC (x0 x1 x2 x3 x4 x5) : RoundTrip.Statement (.stC x0 x1 x2 x3 x4 x5) :=
  of_fm 135 rfl rfl rfl (by unfold parseFM; simp only [rdCode_rel, rdCode_size, rdNone_zero, rdOp_code, rdZero_zero]; rfl)

theorem RoundTrip.ldu (x0 x1 x2 x3 x4 x5 x6) : RoundTrip.Statement (.ldu x0 x1 x2 x3 x4 x5 x6) :=
  of_fm 136 rfl rfl rfl (by unfold parseFM; simp only [rdCode_acq, rdCode_size, rdNone_zero, rdOp_code, rdZero_zero]; rfl)

theorem RoundTrip.ldt (x0 x1 x2 x3 x4 x5) : RoundTrip.Statement (.ldt x0 x1 x2 x3 x4 x5) :=
  of_fm 137 rfl rfl rfl (by unfold parseFM; simp only [rdCode_fin4, rdNone_zero, rdOp_code, rdZero_zero]; rfl)

theorem RoundTrip.atomS (x0 x1 x2 x3 x4 x5 x6 x7) : RoundTrip.Statement (.atomS x0 x1 x2 x3 x4 x5 x6 x7) :=
  of_fm 152 rfl rfl rfl (by unfold parseFM; simp only [rdCode_at, rdCode_atSize, rdNone_zero, rdOp_code, rdZero_zero]; rfl)

theorem RoundTrip.atomH (x0 x1 x2 x3 x4 x5 x6 x7) : RoundTrip.Statement (.atomH x0 x1 x2 x3 x4 x5 x6 x7) :=
  of_fm 153 rfl rfl rfl (by unfold parseFM; simp only [rdCode_at, rdCode_atSize, rdNone_zero, rdOp_code, rdZero_zero]; rfl)

theorem RoundTrip.atomC (x0 x1 x2 x3 x4 x5 x6 x7) : RoundTrip.Statement (.atomC x0 x1 x2 x3 x4 x5 x6 x7) :=
  of_fm 154 rfl rfl rfl (by unfold parseFM; simp only [rdCode_at, rdCode_atSize, rdNone_zero, rdOp_code, rdZero_zero]; rfl)

theorem RoundTrip.redS (x0 x1 x2 x3 x4 x5 x6) : RoundTrip.Statement (.redS x0 x1 x2 x3 x4 x5 x6) :=
  of_fm 155 rfl rfl rfl (by unfold parseFM; simp only [rdCode_at, rdCode_atSize, rdNone_zero, rdOp_code, rdZero_zero]; rfl)

theorem RoundTrip.redH (x0 x1 x2 x3 x4 x5 x6) : RoundTrip.Statement (.redH x0 x1 x2 x3 x4 x5 x6) :=
  of_fm 156 rfl rfl rfl (by unfold parseFM; simp only [rdCode_at, rdCode_atSize, rdNone_zero, rdOp_code, rdZero_zero]; rfl)

theorem RoundTrip.redC (x0 x1 x2 x3 x4 x5 x6) : RoundTrip.Statement (.redC x0 x1 x2 x3 x4 x5 x6) :=
  of_fm 157 rfl rfl rfl (by unfold parseFM; simp only [rdCode_at, rdCode_atSize, rdNone_zero, rdOp_code, rdZero_zero]; rfl)

theorem RoundTrip.cas (x0 x1 x2 x3 x4 x5 x6 x7) : RoundTrip.Statement (.cas x0 x1 x2 x3 x4 x5 x6 x7) :=
  of_fm 158 rfl rfl rfl (by unfold parseFM; simp only [rdCode_atSize, rdCode_sp, rdNone_zero, rdOp_code, rdZero_zero]; rfl)

theorem RoundTrip.fence (x0 x1 x2) : RoundTrip.Statement (.fence x0 x1 x2) :=
  of_fi 168 rfl rfl rfl (by unfold parseFI; simp only [rdCode_fence, rdCode_scope, rdNone_zero, rdZero_zero]; rfl)

theorem RoundTrip.barInit (x0 x1 x2 x3) : RoundTrip.Statement (.barInit x0 x1 x2 x3) :=
  of_fm 169 rfl rfl rfl (by unfold parseFM; simp only [rdNone_zero, rdOp_code, rdZero_zero]; rfl)

theorem RoundTrip.barArrive (x0 x1 x2 x3 x4) : RoundTrip.Statement (.barArrive x0 x1 x2 x3 x4) :=
  of_fm 169 rfl rfl rfl (by unfold parseFM; simp only [rdNone_zero, rdOp_code, rdZero_zero]; rfl)

theorem RoundTrip.barWait (x0 x1 x2 x3) : RoundTrip.Statement (.barWait x0 x1 x2 x3) :=
  of_fm 169 rfl rfl rfl (by unfold parseFM; simp only [rdNone_zero, rdOp_code, rdZero_zero]; rfl)

theorem RoundTrip.arrInit (x0 x1 x2 x3) : RoundTrip.Statement (.arrInit x0 x1 x2 x3) :=
  of_fm 170 rfl rfl rfl (by unfold parseFM; simp only [rdNone_zero, rdOp_code, rdZero_zero]; rfl)

theorem RoundTrip.arrAdd (x0 x1 x2 x3) : RoundTrip.Statement (.arrAdd x0 x1 x2 x3) :=
  of_fm 170 rfl rfl rfl (by unfold parseFM; simp only [rdNone_zero, rdOp_code, rdZero_zero]; rfl)

theorem RoundTrip.arrWait (x0 x1 x2 x3) : RoundTrip.Statement (.arrWait x0 x1 x2 x3) :=
  of_fm 170 rfl rfl rfl (by unfold parseFM; simp only [rdNone_zero, rdOp_code, rdZero_zero]; rfl)

theorem RoundTrip.arrRead (x0 x1 x2 x3 x4) : RoundTrip.Statement (.arrRead x0 x1 x2 x3 x4) :=
  of_fm 170 rfl rfl rfl (by unfold parseFM; simp only [rdNone_zero, rdOp_code, rdZero_zero]; rfl)

theorem RoundTrip.ereg (x0 x1 x2) : RoundTrip.Statement (.ereg x0 x1 x2) :=
  of_fm 176 rfl rfl rfl (by unfold parseFM; simp only [rdNone_zero, rdOp_code, rdZero_zero]; rfl)

theorem RoundTrip.esamp (x0 x1 x2 x3) : RoundTrip.Statement (.esamp x0 x1 x2 x3) :=
  of_fm 177 rfl rfl rfl (by unfold parseFM; simp only [rdNone_zero, rdOp_code, rdZero_zero]; rfl)

theorem RoundTrip.esampW (x0 x1 x2 x3) : RoundTrip.Statement (.esampW x0 x1 x2 x3) :=
  of_fm 177 rfl rfl rfl (by unfold parseFM; simp only [rdNone_zero, rdOp_code, rdZero_zero]; rfl)

theorem RoundTrip.esampB (x0 x1 x2 x3) : RoundTrip.Statement (.esampB x0 x1 x2 x3) :=
  of_fm 178 rfl rfl rfl (by unfold parseFM; simp only [rdNone_zero, rdOp_code, rdZero_zero]; rfl)

theorem RoundTrip.eld (x0 x1 x2 x3 x4 x5) : RoundTrip.Statement (.eld x0 x1 x2 x3 x4 x5) :=
  of_fm 179 rfl rfl rfl (by unfold parseFM; simp only [rdCode_fin8, rdNone_zero, rdOp_code, rdZero_zero]; rfl)

theorem RoundTrip.edecay (x0 x1 x2) : RoundTrip.Statement (.edecay x0 x1 x2) :=
  of_fm 180 rfl rfl rfl (by unfold parseFM; simp only [rdNone_zero, rdOp_code, rdZero_zero]; rfl)

theorem RoundTrip.eflush (x0 x1) : RoundTrip.Statement (.eflush x0 x1) :=
  of_fm 181 rfl rfl rfl (by unfold parseFM; simp only [rdNone_zero, rdOp_code, rdZero_zero]; rfl)

theorem RoundTrip.eclr (x0 x1) : RoundTrip.Statement (.eclr x0 x1) :=
  of_fm 182 rfl rfl rfl (by unfold parseFM; simp only [rdNone_zero, rdOp_code, rdZero_zero]; rfl)

theorem RoundTrip.mma (x0 x1 x2 x3 x4 x5 x6) : RoundTrip.Statement (.mma x0 x1 x2 x3 x4 x5 x6) :=
  of_fx 184 rfl rfl rfl (by unfold parseFX; simp only [rdCode_bool1, rdCode_mfmt, rdIdx_bits, rdNone_zero, rdOp_code, rdZero_zero]; rfl)

theorem RoundTrip.cvdeclSet (x0 x1 x2) : RoundTrip.Statement (.cvdeclSet x0 x1 x2) :=
  of_fx 185 rfl rfl rfl (by unfold parseFX; simp only [rdNone_zero, rdPs_bits, rdZero_zero]; rfl)

theorem RoundTrip.cvdeclAdd (x0 x1 x2) : RoundTrip.Statement (.cvdeclAdd x0 x1 x2) :=
  of_fx 185 rfl rfl rfl (by unfold parseFX; simp only [rdNone_zero, rdPs_bits, rdZero_zero]; rfl)

theorem RoundTrip.xres (x0 x1 x2) : RoundTrip.Statement (.xres x0 x1 x2) :=
  of_fx 186 rfl rfl rfl (by unfold parseFX; simp only [rdIdx_bits, rdNone_zero, rdOp_code, rdZero_zero]; rfl)

theorem RoundTrip.xrel (x0 x1) : RoundTrip.Statement (.xrel x0 x1) :=
  of_fx 187 rfl rfl rfl (by unfold parseFX; simp only [rdIdx_bits, rdNone_zero, rdZero_zero]; rfl)

theorem RoundTrip.xld (x0 x1 x2 x3 x4 x5) : RoundTrip.Statement (.xld x0 x1 x2 x3 x4 x5) :=
  of_fx 188 rfl rfl rfl (by unfold parseFX; simp only [rdCode_bool, rdIdx_bits, rdNone_zero, rdOp_code, rdZero_zero]; rfl)

theorem RoundTrip.xsc (x0 x1 x2 x3) : RoundTrip.Statement (.xsc x0 x1 x2 x3) :=
  of_fx 189 rfl rfl rfl (by unfold parseFX; simp only [rdIdx_bits, rdNone_zero, rdOp_code, rdZero_zero]; rfl)

theorem RoundTrip.accClr (x0 x1) : RoundTrip.Statement (.accClr x0 x1) :=
  of_fx 190 rfl rfl rfl (by unfold parseFX; simp only [rdIdx_bits, rdNone_zero, rdZero_zero]; rfl)

theorem RoundTrip.accMv (x0 x1 x2 x3 x4) : RoundTrip.Statement (.accMv x0 x1 x2 x3 x4) :=
  of_fx 191 rfl rfl rfl (by unfold parseFX; simp only [rdCode_bool, rdIdx_bits, rdNone_zero, rdOp_code, rdZero_zero]; rfl)

theorem RoundTrip.accLd (x0 x1 x2 x3 x4) : RoundTrip.Statement (.accLd x0 x1 x2 x3 x4) :=
  of_fx 192 rfl rfl rfl (by unfold parseFX; simp only [rdCode_bool, rdIdx_bits, rdNone_zero, rdOp_code, rdZero_zero]; rfl)

theorem RoundTrip.accSt (x0 x1 x2 x3 x4) : RoundTrip.Statement (.accSt x0 x1 x2 x3 x4) :=
  of_fx 193 rfl rfl rfl (by unfold parseFX; simp only [rdCode_bool, rdIdx_bits, rdNone_zero, rdOp_code, rdZero_zero]; rfl)

theorem RoundTrip.mstat (x0 x1 x2) : RoundTrip.Statement (.mstat x0 x1 x2) :=
  of_fx 194 rfl rfl rfl (by unfold parseFX; simp only [rdNone_zero, rdOp_code, rdZero_zero]; rfl)

theorem RoundTrip.copyG2s (x0 x1 x2 x3 x4 x5 x6) : RoundTrip.Statement (.copyG2s x0 x1 x2 x3 x4 x5 x6) :=
  of_f3 200 rfl rfl rfl (by unfold parseF3; simp only [rdCode_copy, rdNone_zero, rdOp_code, rdTry_bits, rdZero_zero]; rfl)

theorem RoundTrip.copyS2g (x0 x1 x2 x3 x4 x5 x6) : RoundTrip.Statement (.copyS2g x0 x1 x2 x3 x4 x5 x6) :=
  of_f3 201 rfl rfl rfl (by unfold parseF3; simp only [rdCode_copy, rdNone_zero, rdOp_code, rdTry_bits, rdZero_zero]; rfl)

theorem RoundTrip.copyS2s (x0 x1 x2 x3 x4 x5 x6) : RoundTrip.Statement (.copyS2s x0 x1 x2 x3 x4 x5 x6) :=
  of_f3 202 rfl rfl rfl (by unfold parseF3; simp only [rdCode_copy, rdNone_zero, rdOp_code, rdTry_bits, rdZero_zero]; rfl)

theorem RoundTrip.copyDie (x0 x1 x2 x3 x4 x5 x6) : RoundTrip.Statement (.copyDie x0 x1 x2 x3 x4 x5 x6) :=
  of_f3 203 rfl rfl rfl (by unfold parseF3; simp only [rdCode_copy, rdNone_zero, rdOp_code, rdTry_bits, rdZero_zero]; rfl)

theorem RoundTrip.copyNet (x0 x1 x2 x3 x4 x5 x6) : RoundTrip.Statement (.copyNet x0 x1 x2 x3 x4 x5 x6) :=
  of_f3 204 rfl rfl rfl (by unfold parseF3; simp only [rdCode_copy, rdNone_zero, rdOp_code, rdTry_bits, rdZero_zero]; rfl)

theorem RoundTrip.cpcLat (x0 x1 x2) : RoundTrip.Statement (.cpcLat x0 x1 x2) :=
  of_f3 208 rfl rfl rfl (by unfold parseF3; simp only [rdNone_zero, rdOp_code, rdTry_bits, rdZero_zero]; rfl)

theorem RoundTrip.cpcGlz (x0 x1 x2) : RoundTrip.Statement (.cpcGlz x0 x1 x2) :=
  of_f3 209 rfl rfl rfl (by unfold parseF3; simp only [rdNone_zero, rdOp_code, rdTry_bits, rdZero_zero]; rfl)

theorem RoundTrip.cpcCut (x0 x1 x2) : RoundTrip.Statement (.cpcCut x0 x1 x2) :=
  of_f3 210 rfl rfl rfl (by unfold parseF3; simp only [rdNone_zero, rdOp_code, rdTry_bits, rdZero_zero]; rfl)

theorem RoundTrip.cpcIcg (x0 x1 x2) : RoundTrip.Statement (.cpcIcg x0 x1 x2) :=
  of_f3 211 rfl rfl rfl (by unfold parseF3; simp only [rdNone_zero, rdOp_code, rdTry_bits, rdZero_zero]; rfl)

theorem RoundTrip.token (x0 x1 x2) : RoundTrip.Statement (.token x0 x1 x2) :=
  of_f3 212 rfl rfl rfl (by unfold parseF3; simp only [rdNone_zero, rdOp_code, rdZero_zero]; rfl)

theorem RoundTrip.tskip (x0 x1) : RoundTrip.Statement (.tskip x0 x1) :=
  of_f3 213 rfl rfl rfl (by unfold parseF3; simp only [rdNone_zero, rdOp_code, rdZero_zero]; rfl)

theorem RoundTrip.spawn (x0 x1 x2 x3) : RoundTrip.Statement (.spawn x0 x1 x2 x3) :=
  of_f3 216 rfl rfl rfl (by unfold parseF3; simp only [rdNone_zero, rdOp_code, rdTry_bits, rdZero_zero]; rfl)

theorem RoundTrip.tget (x0 x1 x2 x3) : RoundTrip.Statement (.tget x0 x1 x2 x3) :=
  of_fm 217 rfl rfl rfl (by unfold parseFM; simp only [rdNone_zero, rdOp_code, rdZero_zero]; rfl)

theorem RoundTrip.tdone (x0 x1) : RoundTrip.Statement (.tdone x0 x1) :=
  of_f3 218 rfl rfl rfl (by unfold parseF3; simp only [rdNone_zero, rdOp_code, rdZero_zero]; rfl)

theorem RoundTrip.claim (x0 x1) : RoundTrip.Statement (.claim x0 x1) :=
  of_fi 219 rfl rfl rfl (by unfold parseFI; simp only [rdCode_claim, rdNone_zero, rdZero_zero]; rfl)

theorem RoundTrip.claimTry (x0 x1 x2) : RoundTrip.Statement (.claimTry x0 x1 x2) :=
  of_fi 219 rfl rfl rfl (by unfold parseFI; simp only [rdCode_claim, rdNone_zero, rdPd_bits, rdZero_zero]; rfl)

theorem RoundTrip.surr (x0 x1) : RoundTrip.Statement (.surr x0 x1) :=
  of_fi 220 rfl rfl rfl (by unfold parseFI; simp only [rdCode_claim, rdNone_zero, rdZero_zero]; rfl)

theorem RoundTrip.bMovi (x0 x1) : RoundTrip.Statement (.bMovi x0 x1) := by
  intro _
  show decodeByte (mkByte 1 (BitVec.ofFin x0) 0 0 x1) = _
  obtain ⟨h0, h1, h2, h3, h4⟩ := byte_fields 1 (BitVec.ofFin x0) 0 0 x1
  rw [decodeByte, h0, h1, h2, h3, h4]
  rfl

theorem RoundTrip.bMovh (x0 x1) : RoundTrip.Statement (.bMovh x0 x1) := by
  intro _
  show decodeByte (mkByte 2 (BitVec.ofFin x0) 0 0 ((0 : BitVec 1) ++ x1)) = _
  obtain ⟨h0, h1, h2, h3, h4⟩ := byte_fields 2 (BitVec.ofFin x0) 0 0 ((0 : BitVec 1) ++ x1)
  rw [decodeByte, h0, h1, h2, h3, h4]
  show (if _ ∧ _ ∧ BitVec.extractLsb' 16 1 ((0 : BitVec 1) ++ x1) = 0 then
    Except.ok (Instr.bMovh _ (BitVec.extractLsb' 0 16 ((0 : BitVec 1) ++ x1))) else _) = _
  rw [low_append, high_append 0 x1 rfl, if_pos (by decide)]

theorem RoundTrip.bAdd (x0 x1 x2) : RoundTrip.Statement (.bAdd x0 x1 x2) := by
  intro _
  show decodeByte (mkByte 3 (BitVec.ofFin x0) (BitVec.ofFin x1) (BitVec.ofFin x2) 0) = _
  obtain ⟨h0, h1, h2, h3, h4⟩ := byte_fields 3 (BitVec.ofFin x0) (BitVec.ofFin x1) (BitVec.ofFin x2) 0
  rw [decodeByte, h0, h1, h2, h3, h4]
  rfl

theorem RoundTrip.bSub (x0 x1 x2) : RoundTrip.Statement (.bSub x0 x1 x2) := by
  intro _
  show decodeByte (mkByte 4 (BitVec.ofFin x0) (BitVec.ofFin x1) (BitVec.ofFin x2) 0) = _
  obtain ⟨h0, h1, h2, h3, h4⟩ := byte_fields 4 (BitVec.ofFin x0) (BitVec.ofFin x1) (BitVec.ofFin x2) 0
  rw [decodeByte, h0, h1, h2, h3, h4]
  rfl

theorem RoundTrip.bAnd (x0 x1 x2) : RoundTrip.Statement (.bAnd x0 x1 x2) := by
  intro _
  show decodeByte (mkByte 5 (BitVec.ofFin x0) (BitVec.ofFin x1) (BitVec.ofFin x2) 0) = _
  obtain ⟨h0, h1, h2, h3, h4⟩ := byte_fields 5 (BitVec.ofFin x0) (BitVec.ofFin x1) (BitVec.ofFin x2) 0
  rw [decodeByte, h0, h1, h2, h3, h4]
  rfl

theorem RoundTrip.bOr (x0 x1 x2) : RoundTrip.Statement (.bOr x0 x1 x2) := by
  intro _
  show decodeByte (mkByte 6 (BitVec.ofFin x0) (BitVec.ofFin x1) (BitVec.ofFin x2) 0) = _
  obtain ⟨h0, h1, h2, h3, h4⟩ := byte_fields 6 (BitVec.ofFin x0) (BitVec.ofFin x1) (BitVec.ofFin x2) 0
  rw [decodeByte, h0, h1, h2, h3, h4]
  rfl

theorem RoundTrip.bAddi (x0 x1 x2) : RoundTrip.Statement (.bAddi x0 x1 x2) := by
  intro _
  show decodeByte (mkByte 7 (BitVec.ofFin x0) (BitVec.ofFin x1) 0 x2) = _
  obtain ⟨h0, h1, h2, h3, h4⟩ := byte_fields 7 (BitVec.ofFin x0) (BitVec.ofFin x1) 0 x2
  rw [decodeByte, h0, h1, h2, h3, h4]
  rfl

theorem RoundTrip.bShl (x0 x1 x2) : RoundTrip.Statement (.bShl x0 x1 x2) := by
  intro _
  show decodeByte (mkByte 8 (BitVec.ofFin x0) (BitVec.ofFin x1) 0 (BitVec.ofNat 17 x2.val)) = _
  obtain ⟨h0, h1, h2, h3, h4⟩ := byte_fields 8 (BitVec.ofFin x0) (BitVec.ofFin x1) 0 (BitVec.ofNat 17 x2.val)
  rw [decodeByte, h0, h1, h2, h3, h4]
  have e := toNat_ofNat17 (by omega : x2.val < 2 ^ 17)
  show (if h : (BitVec.ofNat 17 x2.val).toNat < 64 then Except.ok (Instr.bShl _ _ ⟨(BitVec.ofNat 17 x2.val).toNat, h⟩) else _) = _
  rw [dif_pos (by omega)]
  simp only [e]

theorem RoundTrip.bShr (x0 x1 x2) : RoundTrip.Statement (.bShr x0 x1 x2) := by
  intro _
  show decodeByte (mkByte 9 (BitVec.ofFin x0) (BitVec.ofFin x1) 0 (BitVec.ofNat 17 x2.val)) = _
  obtain ⟨h0, h1, h2, h3, h4⟩ := byte_fields 9 (BitVec.ofFin x0) (BitVec.ofFin x1) 0 (BitVec.ofNat 17 x2.val)
  rw [decodeByte, h0, h1, h2, h3, h4]
  have e := toNat_ofNat17 (by omega : x2.val < 2 ^ 17)
  show (if h : (BitVec.ofNat 17 x2.val).toNat < 64 then Except.ok (Instr.bShr _ _ ⟨(BitVec.ofNat 17 x2.val).toNat, h⟩) else _) = _
  rw [dif_pos (by omega)]
  simp only [e]

theorem RoundTrip.bLdp (x0 x1) : RoundTrip.Statement (.bLdp x0 x1) := by
  intro _
  show decodeByte (mkByte 10 (BitVec.ofFin x0) 0 0 (BitVec.ofNat 17 (8 * x1.val))) = _
  obtain ⟨h0, h1, h2, h3, h4⟩ := byte_fields 10 (BitVec.ofFin x0) 0 0 (BitVec.ofNat 17 (8 * x1.val))
  rw [decodeByte, h0, h1, h2, h3, h4]
  revert x0 x1; decide

theorem RoundTrip.bLdw (x0 x1 x2) : RoundTrip.Statement (.bLdw x0 x1 x2) := by
  intro _
  show decodeByte (mkByte 11 (BitVec.ofFin x0) (BitVec.ofFin x1) 0 x2) = _
  obtain ⟨h0, h1, h2, h3, h4⟩ := byte_fields 11 (BitVec.ofFin x0) (BitVec.ofFin x1) 0 x2
  rw [decodeByte, h0, h1, h2, h3, h4]
  rfl

theorem RoundTrip.bStw (x0 x1 x2) : RoundTrip.Statement (.bStw x0 x1 x2) := by
  intro _
  show decodeByte (mkByte 12 (BitVec.ofFin x1) (BitVec.ofFin x0) 0 x2) = _
  obtain ⟨h0, h1, h2, h3, h4⟩ := byte_fields 12 (BitVec.ofFin x1) (BitVec.ofFin x0) 0 x2
  rw [decodeByte, h0, h1, h2, h3, h4]
  rfl

theorem RoundTrip.bSkip (x0 x1 x2 x3) : RoundTrip.Statement (.bSkip x0 x1 x2 x3) := by
  intro _
  show decodeByte (mkByte 13 (skipBits x0) (BitVec.ofFin x1) (BitVec.ofFin x2) x3) = _
  obtain ⟨h0, h1, h2, h3, h4⟩ := byte_fields 13 (skipBits x0) (BitVec.ofFin x1) (BitVec.ofFin x2) x3
  rw [decodeByte, h0, h1, h2, h3, h4]
  cases x0 <;> rfl

theorem RoundTrip.bLoop (x0) : RoundTrip.Statement (.bLoop x0) := by
  intro hw
  have hn : x0 ≠ 0 := by rintro rfl; revert hw; decide
  show decodeByte (mkByte 14 0 0 0 (BitVec.ofNat 17 x0.toNat)) = _
  obtain ⟨h0, h1, h2, h3, h4⟩ := byte_fields 14 0 0 0 (BitVec.ofNat 17 x0.toNat)
  rw [decodeByte, h0, h1, h2, h3, h4]
  have e := toNat_ofNat17 (by omega : x0.toNat < 2 ^ 17)
  have hz : BitVec.ofNat 17 x0.toNat ≠ 0 := by
    intro h
    have h5 : x0.toNat = 0 := by rw [← e, h]; rfl
    exact hn (BitVec.eq_of_toNat_eq h5)
  show (if _ ∧ _ ∧ _ ∧ _ ∧ (BitVec.ofNat 17 x0.toNat).toNat < 256 then
    Except.ok (Instr.bLoop (BitVec.ofNat 8 (BitVec.ofNat 17 x0.toNat).toNat)) else _) = _
  rw [e, if_pos ⟨rfl, rfl, rfl, hz, by omega⟩]; simp

theorem RoundTrip.bEndl : RoundTrip.Statement .bEndl := by
  intro _
  show decodeByte (mkByte 15 0 0 0 0) = _
  obtain ⟨h0, h1, h2, h3, h4⟩ := byte_fields 15 0 0 0 0
  rw [decodeByte, h0, h1, h2, h3, h4]
  rfl

theorem RoundTrip.bLaunch (x0 x1) : RoundTrip.Statement (.bLaunch x0 x1) := by
  intro _
  show decodeByte (mkByte 16 0 (BitVec.ofFin x0) (BitVec.ofFin x1) 0) = _
  obtain ⟨h0, h1, h2, h3, h4⟩ := byte_fields 16 0 (BitVec.ofFin x0) (BitVec.ofFin x1) 0
  rw [decodeByte, h0, h1, h2, h3, h4]
  rfl

theorem RoundTrip.bWaitl : RoundTrip.Statement .bWaitl := by
  intro _
  show decodeByte (mkByte 17 0 0 0 0) = _
  obtain ⟨h0, h1, h2, h3, h4⟩ := byte_fields 17 0 0 0 0
  rw [decodeByte, h0, h1, h2, h3, h4]
  rfl

theorem RoundTrip.bIb (x0 x1) : RoundTrip.Statement (.bIb x0 x1) := by
  intro _
  show decodeByte (mkByte 18 0 (BitVec.ofFin x0) (BitVec.ofFin x1) 0) = _
  obtain ⟨h0, h1, h2, h3, h4⟩ := byte_fields 18 0 (BitVec.ofFin x0) (BitVec.ofFin x1) 0
  rw [decodeByte, h0, h1, h2, h3, h4]
  rfl

theorem RoundTrip.bTkt (x0) : RoundTrip.Statement (.bTkt x0) := by
  intro _
  show decodeByte (mkByte 19 0 (BitVec.ofFin x0) 0 0) = _
  obtain ⟨h0, h1, h2, h3, h4⟩ := byte_fields 19 0 (BitVec.ofFin x0) 0 0
  rw [decodeByte, h0, h1, h2, h3, h4]
  rfl

theorem RoundTrip.bEndp : RoundTrip.Statement .bEndp := by
  intro _
  show decodeByte (mkByte 20 0 0 0 0) = _
  obtain ⟨h0, h1, h2, h3, h4⟩ := byte_fields 20 0 0 0 0
  rw [decodeByte, h0, h1, h2, h3, h4]
  rfl

theorem RoundTrip.loadDataReturn (x0 x1 x2) : RoundTrip.Statement (.loadDataReturn x0 x1 x2) := trivial

theorem RoundTrip.atomicReturn (x0 x1 x2) : RoundTrip.Statement (.atomicReturn x0 x1 x2) := trivial

theorem RoundTrip.estimatorMerge (x0 x1) : RoundTrip.Statement (.estimatorMerge x0 x1) := trivial

theorem RoundTrip.eldReturn (x0 x1 x2) : RoundTrip.Statement (.eldReturn x0 x1 x2) := trivial

theorem RoundTrip.stepStart (x0 x1 x2) : RoundTrip.Statement (.stepStart x0 x1 x2) := trivial

theorem RoundTrip.stepComplete (x0 x1 x2) : RoundTrip.Statement (.stepComplete x0 x1 x2) := trivial

theorem RoundTrip.badscale (x0 x1 x2) : RoundTrip.Statement (.badscale x0 x1 x2) := trivial

theorem RoundTrip.xldComplete (x0 x1 x2) : RoundTrip.Statement (.xldComplete x0 x1 x2) := trivial

theorem RoundTrip.accMoveComplete (x0 x1 x2) : RoundTrip.Statement (.accMoveComplete x0 x1 x2) := trivial

theorem RoundTrip.copyUnitWrite (x0 x1 x2) : RoundTrip.Statement (.copyUnitWrite x0 x1 x2) := trivial

theorem RoundTrip.callAccept (x0) : RoundTrip.Statement (.callAccept x0) := trivial

theorem RoundTrip.callfault (x0 x1 x2) : RoundTrip.Statement (.callfault x0 x1 x2) := trivial

theorem RoundTrip.tgetReturn (x0 x1 x2) : RoundTrip.Statement (.tgetReturn x0 x1 x2) := trivial

theorem RoundTrip.pendingPush (x0) : RoundTrip.Statement (.pendingPush x0) := trivial

theorem RoundTrip.claimGrant (x0 x1 x2) : RoundTrip.Statement (.claimGrant x0 x1 x2) := trivial

theorem RoundTrip.regdeadlock (x0 x1 x2) : RoundTrip.Statement (.regdeadlock x0 x1 x2) := trivial

theorem RoundTrip.cvstateStall (x0 x1) : RoundTrip.Statement (.cvstateStall x0 x1) := trivial

theorem RoundTrip.select (x0) : RoundTrip.Statement (.select x0) := trivial

theorem RoundTrip.timeout (x0) : RoundTrip.Statement (.timeout x0) := trivial

theorem RoundTrip.teamComplete (x0) : RoundTrip.Statement (.teamComplete x0) := trivial

theorem RoundTrip.passBegin (x0) : RoundTrip.Statement (.passBegin x0) := trivial

theorem RoundTrip.tri (x0) : RoundTrip.Statement (.tri x0) := trivial

theorem RoundTrip.passEnd (x0) : RoundTrip.Statement (.passEnd x0) := trivial

theorem RoundTrip.passAbort (x0) : RoundTrip.Statement (.passAbort x0) := trivial

theorem RoundTrip.resolutionBegin (x0) : RoundTrip.Statement (.resolutionBegin x0) := trivial

theorem RoundTrip.binResolve (x0) : RoundTrip.Statement (.binResolve x0) := trivial

theorem RoundTrip.frag (x0) : RoundTrip.Statement (.frag x0) := trivial

theorem RoundTrip.bindone (x0) : RoundTrip.Statement (.bindone x0) := trivial

theorem RoundTrip.binCommit (x0 x1) : RoundTrip.Statement (.binCommit x0 x1) := trivial

theorem RoundTrip.streamCommit (x0 x1) : RoundTrip.Statement (.streamCommit x0 x1) := trivial

theorem RoundTrip.latticeTri (x0) : RoundTrip.Statement (.latticeTri x0) := trivial

theorem RoundTrip.patch (x0) : RoundTrip.Statement (.patch x0) := trivial

theorem RoundTrip.sample (x0) : RoundTrip.Statement (.sample x0) := trivial

theorem RoundTrip.decodeCall (x0) : RoundTrip.Statement (.decodeCall x0) := trivial

theorem RoundTrip.signal (x0 x1 x2 x3 x4) : RoundTrip.Statement (.signal x0 x1 x2 x3 x4) := trivial

theorem RoundTrip.queueIdleTimeout (x0) : RoundTrip.Statement (.queueIdleTimeout x0) := trivial

theorem RoundTrip.pendingRemap (x0 x1) : RoundTrip.Statement (.pendingRemap x0 x1) := trivial

theorem RoundTrip.lotteryDraw : RoundTrip.Statement .lotteryDraw := trivial

theorem RoundTrip.budget (x0) : RoundTrip.Statement (.budget x0) := trivial

theorem RoundTrip.nodeComplete (x0 x1) : RoundTrip.Statement (.nodeComplete x0 x1) := trivial

theorem RoundTrip.placementRound : RoundTrip.Statement .placementRound := trivial

theorem RoundTrip.dispatch (x0 x1) : RoundTrip.Statement (.dispatch x0 x1) := trivial

theorem RoundTrip.save (x0) : RoundTrip.Statement (.save x0) := trivial

theorem RoundTrip.pageIn (x0 x1 x2 x3) : RoundTrip.Statement (.pageIn x0 x1 x2 x3) := trivial

theorem RoundTrip.cowResolve (x0 x1) : RoundTrip.Statement (.cowResolve x0 x1) := trivial

theorem RoundTrip.scrub (x0) : RoundTrip.Statement (.scrub x0) := trivial

theorem RoundTrip.coreFault (x0 x1) : RoundTrip.Statement (.coreFault x0 x1) := trivial

theorem RoundTrip.svcDone : RoundTrip.Statement .svcDone := trivial

theorem RoundTrip.peerWrite (x0 x1 x2 x3) : RoundTrip.Statement (.peerWrite x0 x1 x2 x3) := trivial

theorem RoundTrip.peerRead (x0 x1 x2 x3) : RoundTrip.Statement (.peerRead x0 x1 x2 x3) := trivial

theorem RoundTrip.hsemLeaseExpiry : RoundTrip.Statement .hsemLeaseExpiry := trivial

theorem RoundTrip.boot : RoundTrip.Statement .boot := trivial

theorem RoundTrip.illop (x0 x1) : RoundTrip.Statement (.illop x0 x1) := trivial

theorem RoundTrip.badclause (x0) : RoundTrip.Statement (.badclause x0) := trivial

theorem RoundTrip.sequenceUnitResult (x0 x1 x2) : RoundTrip.Statement (.sequenceUnitResult x0 x1 x2) := trivial

theorem RoundTrip.writeApply (x0 x1) : RoundTrip.Statement (.writeApply x0 x1) := trivial

theorem RoundTrip.badsig (x0 x1) : RoundTrip.Statement (.badsig x0 x1) := trivial

theorem RoundTrip.hsemacq (x0) : RoundTrip.Statement (.hsemacq x0) := trivial

theorem RoundTrip.hsemrel (x0) : RoundTrip.Statement (.hsemrel x0) := trivial

theorem RoundTrip.thaw (x0) : RoundTrip.Statement (.thaw x0) := trivial

theorem RoundTrip.jread (x0) : RoundTrip.Statement (.jread x0) := trivial

theorem RoundTrip.ctxcreate (x0) : RoundTrip.Statement (.ctxcreate x0) := trivial

theorem RoundTrip.ctxdestroy (x0) : RoundTrip.Statement (.ctxdestroy x0) := trivial

theorem RoundTrip.qcreate (x0) : RoundTrip.Statement (.qcreate x0) := trivial

theorem RoundTrip.qdestroy (x0) : RoundTrip.Statement (.qdestroy x0) := trivial

theorem RoundTrip.qclear (x0) : RoundTrip.Statement (.qclear x0) := trivial

theorem RoundTrip.tqcreate (x0) : RoundTrip.Statement (.tqcreate x0) := trivial

theorem RoundTrip.progload (x0) : RoundTrip.Statement (.progload x0) := trivial

theorem RoundTrip.map (x0) : RoundTrip.Statement (.map x0) := trivial

theorem RoundTrip.unmap (x0) : RoundTrip.Statement (.unmap x0) := trivial

theorem RoundTrip.peermap (x0) : RoundTrip.Statement (.peermap x0) := trivial

theorem RoundTrip.graphcancel (x0) : RoundTrip.Statement (.graphcancel x0) := trivial

theorem RoundTrip.ctxpreempt (x0) : RoundTrip.Statement (.ctxpreempt x0) := trivial

theorem RoundTrip.ctxresume (x0) : RoundTrip.Statement (.ctxresume x0) := trivial

theorem RoundTrip.seed (x0) : RoundTrip.Statement (.seed x0) := trivial

theorem RoundTrip.fwwrite (x0) : RoundTrip.Statement (.fwwrite x0) := trivial

theorem RoundTrip.fwcommit (x0) : RoundTrip.Statement (.fwcommit x0) := trivial

theorem RoundTrip.reset (x0) : RoundTrip.Statement (.reset x0) := trivial

theorem RoundTrip.keyset (x0) : RoundTrip.Statement (.keyset x0) := trivial

theorem RoundTrip.attest (x0) : RoundTrip.Statement (.attest x0) := trivial

theorem RoundTrip.svcEngine (x0) : RoundTrip.Statement (.svcEngine x0) := trivial

theorem RoundTrip.svcStack (x0) : RoundTrip.Statement (.svcStack x0) := trivial

theorem RoundTrip.svcCore (x0) : RoundTrip.Statement (.svcCore x0) := trivial

theorem RoundTrip.svcPort (x0) : RoundTrip.Statement (.svcPort x0) := trivial

theorem RoundTrip.sessionEstablish (x0 x1 x2) : RoundTrip.Statement (.sessionEstablish x0 x1 x2) := trivial

theorem RoundTrip.unknownCommand (x0 x1) : RoundTrip.Statement (.unknownCommand x0 x1) := trivial

theorem RoundTrip.powerLoss (x0) : RoundTrip.Statement (.powerLoss x0) := trivial

end Sys2Proof.Laws
end

