-- ==== Sys2Proof/Safety.lean ====
section
/-!
DEFINITION. The vocabulary of the claims: what counts as a safe run, when a group's instruction begins, what software
can read of a state, and the parts of a state that an instruction leaves alone.
-/

namespace Sys2Proof

/-- A step goes on. -/
def Safe (o : Host.Outcome Machine.State Machine.Fault Machine.Refusal) : Prop := ∃ t, o = .next t

/-- The record is for the device, with a body of so many bytes. -/
def MRec.dev (r : MRec) (n : Nat) : Prop := r.ctx = 0 ∧ r.body.length = n
/-- The record is for a context that stands, with a body of so many bytes. -/
def MRec.forCtx (r : MRec) (n : Nat) (s : Machine.State) (c : Machine.Context) : Prop :=
  s.ctx? r.ctx.toNat = some c ∧ c.dying = false ∧ r.body.length = n

namespace Machine

/-! ### When an instruction begins -/

/-- The instruction waits for its turn: a claim or a tget of a higher slot or core has been taken in this cycle (R245,
R361), the group's claim waits in its slice's queue, a pending push goes ahead of a spawn or a tget (R244), records of the group's
spawn wait for space (R242), or a token waits for the oldest window to close (R240). -/
def Env.late (e : Env) (i : Instr) : Bool :=
  match i with
  | .claim _ _ => e.waitsClaim || (e.g.claim.isNone && e.lateClaim)
  | .claimTry _ _ _ => e.lateClaim
  | .tget _ _ a _ => e.lateGet a || e.behindPending (e.w 32 1 a)
  | .spawn _ _ _ b => e.s.spawning e.team.id e.g.gix || e.behindPending (e.w 32 2 b)
  | .token _ _ _ => e.tokenHeld
  | _ => false
/-- The group's instruction performs: no busy slot holds it (R33), no earlier operation that it is ordered after is still
to be performed (R184, R185, R191), it has its turn, its team's budget is not spent (R264), and no operand stands above the
group's top (R90). -/
def Env.ready (e : Env) (i : Instr) : Bool :=
  !(slotStall e.g i) && !(e.holds i) && !(e.late i) && !e.spent && (vrange? e.g i).isNone
/-- No streamed thread raises STALLSHORT (R95). -/
def Env.calm (e : Env) (i : Instr) (h : Hdr) : Bool :=
  e.act.all (fun t => !(e.guard h t && e.chksb && (e.early? t h i).isSome))
/-- No thread of a running team waits on a barrier word of a carve-out that is gone (R175). -/
def State.settled (s : State) : Bool := s.teams.all (fun t => t.halted || t.all.all (fun p => !(s.waitGone p.2.2)))

/-! ### What software can read -/

/-- The register that a code names, as a thread of a group holds it (R28, R47): V, K or T. -/
def State.regOf (s : State) (id gix n code : Nat) : Option Word :=
  match s.group? id gix with
  | none => none
  | some g =>
    if 1536 ≤ code ∧ code < 1792 then some (g.k.read (code - 1536))
    else
      match g.threads[n]? with
      | none => none
      | some th => some (if code < 1536 then th.v.read code else th.t.read (code - 1792))
/-- A read of `n` bytes of a place must find made every write to them that the history holds: a thread that reads knows it, or
an acquire has brought it (R285, R289, R290). -/
def State.sees (s : State) (r : Reader) (l : Loc) (n : Nat) : Bool :=
  match l.mem with | none => true | some (m, a) => s.olds.all (fun w => !(w.touches m a n) || w.must r)
/-- A predicate of a thread; P0 is true (R31). -/
def State.predOf (s : State) (id gix n p : Nat) : Option Bool :=
  (s.thread? id gix n).map (fun th => p == 0 || th.p.getLsbD p)
/-- NFLAGS of a group (R41). -/
def State.flagsOf (s : State) (id gix : Nat) : Option FlagBits := (s.group? id gix).map Group.nflags

/-! ### What an instruction leaves alone -/

/-- A thread without what an instruction may change of it: PC, MR, the loop stack, its place, its registers and
predicates. -/
def Thread.rest (th : Thread) : Thread :=
  { th with pc := 0, mr := 0, loops := [], v := [], t := [], tdef := 0, p := 0, place := .cur }
/-- A group without its K registers, NFLAGS and what joined it last, pending results and timing. -/
def Group.rest (g : Group) : Group :=
  { g with threads := g.threads.map Thread.rest, k := [], nflags := 0, flagsAt := 0, flagsSet := 0, ops := [], nextIssue := 0, lastPass := 0,
           windows := [], clauseAt := none, held := false }
/-- A team without its frontier and what remains of its budget. -/
def Team.rest (t : Team) : Team := { t with groups := t.groups.map Group.rest, frontier := [], budget := 0 }
/-- A write of the history without who knows it. -/
def Old.rest (w : Old) : Old := { w with known := [] }
/-- A store that is still to be performed without the releases that it precedes and who awaits it. -/
def LateStore.rest (x : LateStore) : LateStore := { x with rels := [], awaits := [] }
/-- The device without those, the clock and the counter of the free values, and without what agents have come to know of
writes (R285, R286): all of memory, every special register and unit, the tables and the queues stay. -/
def State.rest (s : State) : State :=
  { s with teams := s.teams.map Team.rest, clock := 0, nonce := 0, olds := s.olds.map Old.rest, sights := [],
           late := s.late.map LateStore.rest }

/-! ### What leaving, traps, kills and wake-ups leave alone -/

/-- An action of an accumulator instruction without the threads that receive T registers. -/
def AccAct.kept : AccAct → AccAct
  | .mv bf a d ths => .mv bf a d (if isTCode d then [] else ths)
  | .stat d ths => .stat d (if isTCode d then [] else ths)
  | a => a
/-- A pending operation without its results for T registers, which the end of a code block takes back (R30). -/
def PendOp.kept (o : PendOp) : PendOp :=
  { o with writes := o.writes.filter (fun w => !(isTCode w.2.1)), acc := o.acc.kept, ended := [] }
/-- A thread's registers, predicates and HELPER; nothing of where it stands. -/
def Thread.kept (th : Thread) : Thread :=
  { th with pc := 0, mr := 0, loops := [], tdef := 0, exited := false, intrap := false, cause := 0, trappc := 0, trapinfo := 0,
            place := .cur, wait := none, deferred := false, faults := [] }
/-- A group without its stack, which holds trap frames, and its timing. -/
def Group.kept (g : Group) : Group :=
  { g with threads := g.threads.map Thread.kept, ops := g.ops.map PendOp.kept, nextIssue := 0, lastPass := 0, windows := [], clauseAt := none,
           held := false, claim := none, tokWait := none, stack := [] }
/-- A team without its Sieve, convergence sets, budget, kill and halt. -/
def Team.kept (t : Team) : Team :=
  { t with groups := t.groups.map Group.kept, frontier := [], budget := 0, curaddr := 0, cv := [], windows := [], shut := [], killed := none, halted := false }
/-- What no transfer, wait, trap, exit or kill changes: registers, predicates, flags, pending results, carve-outs, the
die scratchpads, main memory, units, queues, tables and the hub; what agents know of writes may change (R289). -/
def State.kept (s : State) : State :=
  { s with teams := s.teams.map Team.kept, clock := 0, nonce := 0, nextId := 0, matctx := [], claims := [], pushes := [], runs := [],
           olds := s.olds.map Old.rest, sights := [], late := s.late.map LateStore.rest }

/-! ### Results -/

/-- The instruction, when it begins, goes on to a state in which each live thread's results stand in the run of
registers that its destination names; with a K destination the group's results stand there (R139), if any thread is
live. -/
def Delivers (i : Instr) (h : Hdr) (d : Opnd) (val : Env → Nat → List Word) : Prop :=
  ∀ s e, env? s = some e → e.ready i = true → WellFormed i →
    ∃ t, exec i s = .next t ∧
      (d.isK = false → ∀ n ∈ e.live i h, ∀ j w, (val e n)[j]? = some w →
        t.regOf e.team.id e.g.gix n (d.code.toNat + j) = some w) ∧
      (d.isK = true → e.live i h ≠ [] → ∀ j w, (val e 32)[j]? = some w →
        t.regOf e.team.id e.g.gix 32 (d.code.toNat + j) = some w)

/-- The instruction, when it begins, goes on to a state in which the flags it raises have joined NFLAGS: those of each
live thread that is no helper (R76), or those of the group in the uniform form (R139). -/
def Raises (i : Instr) (h : Hdr) (fl : Env → Nat → FlagBits) : Prop :=
  ∀ s e, env? s = some e → e.ready i = true → WellFormed i →
    ∃ t, exec i s = .next t ∧
      t.flagsOf e.team.id e.g.gix = some (
        if isUniform i then (if (e.live i h).isEmpty then e.g.nflags else e.g.nflags ||| fl e 32)
        else ((e.live i h).filter (fun n => !(e.helper n))).foldl (fun a n => a ||| fl e n) e.g.nflags)

/-- Results of words, and the flags they raise. -/
def Computes (i : Instr) (h : Hdr) (d : Opnd) (val : Env → Nat → List Word) (fl : Env → Nat → FlagBits) : Prop :=
  Delivers i h d val ∧ Raises i h fl

/-- The instruction, when it begins, goes on to a state in which each live thread holds its result in the predicate
named, and its other predicates as before; a write to P0 is discarded (R31). -/
def DeliversP (i : Instr) (h : Hdr) (p : Fin 8) (val : Env → Nat → Bool) : Prop :=
  ∀ s e, env? s = some e → e.ready i = true → WellFormed i →
    ∃ t, exec i s = .next t ∧ ∀ n ∈ e.live i h, ∀ q : Fin 8,
      t.predOf e.team.id e.g.gix n q.val =
        if q = p ∧ p ≠ 0 then some (val e n) else s.predOf e.team.id e.g.gix n q.val

/-- The code block goes on for every streamed thread that falls through (R80, R81), and none waits. -/
def Env.inBlock (e : Env) : Bool :=
  e.act.all (fun n => match e.thread n with
    | some th => !(e.s.contOf e.team.ctx th.pc th.loops).ends && th.wait.isNone
    | none => true)

/-- The variable-latency instruction, when it begins, goes on to a state in which its slot holds an operation of the
kind given that will write each live thread's results to the run of registers that its destination names, and join its
flags to NFLAGS. A result for a T register is kept while the code block goes on (R30) and `ok` holds. -/
def Pends (i : Instr) (h : Hdr) (sb : Fin 16) (k : OpKind) (d : Opnd) (val : Env → Nat → List Word)
    (fl : Env → Nat → FlagBits) (ok : Env → Prop) : Prop :=
  ∀ s e, env? s = some e → e.ready i = true → e.calm i h = true → s.settled = true → WellFormed i →
    ∃ t g op, exec i s = .next t ∧ t.group? e.team.id e.g.gix = some g ∧ op ∈ g.ops ∧ op.slot = sb.val ∧ op.kind = k ∧
      op.flags = ((e.live i h).filter (fun n => !(e.helper n))).foldl (fun a n => a ||| fl e n) 0 ∧
      ∀ n ∈ e.live i h, ∀ j w, (val e n)[j]? = some w →
        (isTCode (d.code.toNat + j) = false ∨ (e.inBlock = true ∧ ok e)) → (n, d.code.toNat + j, w) ∈ op.writes

/-- The return event, when the slot holds an operation of its kind whose results go to different registers, makes the
slot idle, joins the operation's flags to NFLAGS and writes each result to its register or predicate, unless a later write
has taken it over or its thread has exited (R33, R43, R95, R117). -/
def Lands (i : Nat → Nat → Nat → Instr) (k : OpKind) (ok : Group → PendOp → Prop) : Prop :=
  ∀ s id gix slot g o, s.group? id gix = some g → s.opAt id gix slot = some o → o.kind = k → ok g o →
    (o.writes.map (fun w => (ownerOf w.2.1 w.1, w.2.1))).Nodup →
    ∃ t, exec (i id gix slot) s = .next t ∧ t.opAt id gix slot = none ∧
      t.flagsOf id gix = some (g.nflags ||| o.flags) ∧
      (∀ w ∈ o.writes, o.regs.contains (ownerOf w.2.1 w.1, w.2.1) = true →
        ((w.1 = 32 ∧ ownerOf w.2.1 32 = 32) ∨ ∃ th, g.threads[w.1]? = some th ∧ th.exited = false) →
        t.regOf id gix w.1 w.2.1 = some w.2.2) ∧
      ((o.preds.map (fun w => (w.1, w.2.1))).Nodup → ∀ w ∈ o.preds, 0 < w.2.1 → w.2.1 < 8 → o.regs.contains (w.1, predCode w.2.1) = true →
        (∃ th, g.threads[w.1]? = some th ∧ th.exited = false) → t.predOf id gix w.1 w.2.1 = some w.2.2)

/-- A trap of a thread of the team cannot write to the place: it is no byte of a spill stack, or the team has no
handler, or no room for trap frames, or the byte lies below them (R365). -/
def State.clearOfFrames (s : State) : Loc → Bool
  | .st id _ o =>
    match s.team? id with
    | some t => t.handler == 0 || decide (t.stackSize < Config.frameArea) || decide (o < t.stackSize - Config.frameArea)
    | none => true
  | _ => true

/-- Every register but those that `w` names, every predicate and flag, main memory, and every byte of a scratchpad, a
carve-out or a spill stack that no trap frame may take up, is as before. -/
def State.sameBut (s t : State) (w : Nat → Nat → Nat → Nat → Prop) : Prop :=
  (∀ id gix n c, ¬ w id gix n c → t.regOf id gix n c = s.regOf id gix n c) ∧
    (∀ id gix n q, t.predOf id gix n q = s.predOf id gix n q) ∧ (∀ id gix, t.flagsOf id gix = s.flagsOf id gix) ∧
    t.views = s.views ∧ ∀ l j, s.clearOfFrames (l.plus j) = true → t.readByte l j = s.readByte l j
/-- Every register, predicate, flag and byte of memory is as before, the room of trap frames apart. -/
def State.same (s t : State) : Prop := s.sameBut t (fun _ _ _ _ => False)
/-- The instruction, when it begins, goes on to a state in which every register but its link, every predicate and flag and
all of memory is as before; a trap that it takes writes its frame. -/
def Keeps (i : Instr) (h : Hdr) (link : List Nat) : Prop :=
  ∀ s e, env? s = some e → e.ready i = true → WellFormed i →
    ∃ t, exec i s = .next t ∧
      s.sameBut t (fun id gix n c => id = e.team.id ∧ gix = e.g.gix ∧ c ∈ link ∧ (n ∈ e.live i h ∨ ownerOf c n = 32))

/-! ### Where threads go -/

/-- No streamed thread has exited. -/
def Env.sound (e : Env) : Bool := e.act.all (fun n => !(e.exited n))
/-- The continuation of a fall-through from the instruction with a loop stack (R81, R124). -/
def Env.cont (e : Env) (loops : List LoopEntry) : Cont := e.s.contOf e.team.ctx e.pc loops
/-- A transfer to a header address (R112). -/
def Cont.target (tgt : Int) (loops : List LoopEntry) : Cont := ⟨mkPc tgt.toNat 0, loops, true⟩
/-- After the instruction a thread stands at a continuation: with its PC and loop stack, and, when the block has ended
for it, out of CURVEC in the frontier entry for that PC or overflow-parked (R255). -/
def Stands (e : Env) (t : State) (n : Nat) (c : Cont) : Prop :=
  ∃ tm th, t.team? e.team.id = some tm ∧ t.thread? e.team.id e.g.gix n = some th ∧ th.pc = c.pc ∧ th.loops = c.loops ∧
    (c.ends = false → th.place = .cur) ∧
    (c.ends = true → th.place = .overflow ∨ ∃ f ∈ tm.frontier, th.place = .entry f.slot ∧ f.addr = c.pc)
/-- The instruction, when it begins and no thread of it traps, goes on to a state in which each live thread stands at
its continuation and every other streamed thread falls through (R111, R112); nothing else changes. -/
def Goes (i : Instr) (h : Hdr) (dest : Env → Nat → Option Cont) : Prop :=
  ∀ s e, env? s = some e → e.ready i = true → e.calm i h = true → s.settled = true → e.sound = true → WellFormed i →
    (∀ n ∈ e.live i h, (dest e n).isSome = true) →
    ∃ t, exec i s = .next t ∧ t.rest = s.rest ∧ (∀ n ∈ e.live i h, ∀ c, dest e n = some c → Stands e t n c) ∧
      (∀ n ∈ e.act, n ∉ e.live i h → Stands e t n (e.cont (e.loops n)))

/-! ### Traps -/

/-- Every streamed thread of the group can take a trap: the team has a handler with an ENTRY header and room for trap
frames, and none of the threads is in its handler or has exited (R127, R128, R366, R368). -/
def Env.canTrap (e : Env) : Bool :=
  e.team.handler != 0 && e.team.killed.isNone && decide (Config.frameArea ≤ e.team.stackSize) &&
    e.s.entryOk e.team.ctx e.team.handler.toNat && e.s.settled &&
    e.act.all (fun n => match e.thread n with | some th => !th.exited && !th.intrap | none => false)
/-- A thread has taken a trap (R127): the trap registers hold cause, PC and information, INTRAP is set, its loop stack
is empty and it stands at the handler, out of CURVEC. -/
def Trapped (e : Env) (t : State) (n : Nat) (f : PendFault) (pc : DWord) : Prop :=
  ∃ th, t.thread? e.team.id e.g.gix n = some th ∧ th.cause = f.cause.code ∧ th.trappc = pc ∧
    th.trapinfo = mkTrapInfo f.opnd f.value ∧ th.intrap = true ∧ th.loops = [] ∧ th.pc = e.team.handler ∧ th.current = false
/-- Its trap frame stands in the spill stack (R365). -/
def Framed (e : Env) (t : State) (n : Nat) (f : PendFault) (pc : DWord) (loops : List LoopEntry) : Prop :=
  ∃ th, e.thread n = some th ∧
    t.readLoc (.st e.team.id e.g.gix (frameOff e.team.stackSize n)) 192 =
      frameImage e.s.nonce ((e.team.id * 32 + e.g.gix) * 32 + n) th pc (mkTrapInfo f.opnd f.value) f.cause.code loops
/-- The instruction, when it begins in a state that satisfies `P` in a group whose threads can trap, goes on to a state
in which each live thread for which `flt` names a fault has trapped at it. -/
def FaultsIf (P : State → Prop) (i : Instr) (h : Hdr) (flt : Env → Nat → Option PendFault) : Prop :=
  ∀ s e, env? s = some e → P s → e.ready i = true → e.calm i h = true → e.canTrap = true → WellFormed i →
    ∃ t, exec i s = .next t ∧ ∀ n ∈ e.live i h, ∀ f, flt e n = some f → Trapped e t n f e.pc
/-- The same in every state. -/
def Faults (i : Instr) (h : Hdr) (flt : Env → Nat → Option PendFault) : Prop := FaultsIf (fun _ => True) i h flt
/-- The same in a state in which no thread is parked, as a change of memory releases parked threads. -/
def FaultsQuiet (i : Instr) (h : Hdr) (flt : Env → Nat → Option PendFault) : Prop := FaultsIf (fun s => s.parked = []) i h flt

/-! ### Commands -/

/-- A command that a master issues in sequence, unfrozen, with HSEM where it needs it, under a condition: it goes on with a
status, takes LAST, is journalled, and is answered with a body. -/
def Sends (c : Nat) (hsem loader : Bool) (i : MRec → Instr) (st : Status) (pre : Nat → MRec → State → Prop)
    (post : Nat → MRec → State → State → List Byte → Prop) : Prop :=
  let cmd := BitVec.ofNat 16 c
  ∀ m r s sm, s.masterOf r.sid = some sm → s.hub.needBoot = false → s.signer cmd r = some m → r.seq = (s.master m).last + 1 →
    (s.master m).frozen = false → (loader = true ∨ s.hub.recovery = false) → (hsem = true → s.holder = some m) → r.rsv = 0 → pre m r s →
    ∃ t b e, exec (i r) s = .next t ∧ t.hub.journal.getLast? = some e ∧ e.cmd = cmd ∧ e.status = st ∧ e.source = m ∧ e.seq = r.seq ∧
      .response { sid := r.sid, jseq := e.jseq, cmd := cmd, status := st, nextSeq := r.seq + 1, body := b } ∈ t.hub.outbox ∧
      (t.master m).last = r.seq ∧ (st ≠ .ok → st ≠ .gone → b = []) ∧ post m r s t b

end Machine

end Sys2Proof
end

