-- ==== Sys2Proof/Certificates/Slice0/Obligations.lean ====
section
/-!
DEFINITION. The statements about the model. Each docstring names the rules of the manual that it formalises.
-/

open Sys2Proof Sys2Proof.Machine

/-! ### Registers: integer, floating-point, packed and lane results -/

/-- R142: add, sub, neg and abs, in every form, with SAT on a clamp. -/
def Obligations.SumResults : Prop :=
  (∀ h f d a b c, Computes (.add h f d a b c) h d
    (fun e n => match f with
      | .i32 => [BitVec.ofInt 32 (uw (e.w n 1 a) + uw (e.w n 2 b) + uw (e.w n 3 c))]
      | .i64 => let x := BitVec.ofInt 64 ((e.pair n 1 a).toNat + (e.pair n 2 b).toNat + (e.pair n 3 c).toNat); [loWord x, hiWord x]
      | .i32sat => [BitVec.ofInt 32 (satI 32 (sw (e.w n 1 a) + sw (e.w n 2 b) + sw (e.w n 3 c)))]
      | .n32sat => [BitVec.ofInt 32 (satN 32 (uw (e.w n 1 a) + uw (e.w n 2 b) + uw (e.w n 3 c)))])
    (fun e n => match f with
      | .i32sat => let x := sw (e.w n 1 a) + sw (e.w n 2 b) + sw (e.w n 3 c); if satI 32 x = x then 0 else fSAT
      | .n32sat => let x := uw (e.w n 1 a) + uw (e.w n 2 b) + uw (e.w n 3 c); if satN 32 x = x then 0 else fSAT
      | _ => 0)) ∧
  (∀ h f d a b, Computes (.sub h f d a b) h d
    (fun e n => match f with
      | .i32 => [BitVec.ofInt 32 (uw (e.w n 1 a) - uw (e.w n 2 b))]
      | .i64 => let x := BitVec.ofInt 64 ((e.pair n 1 a).toNat - (e.pair n 2 b).toNat : Int); [loWord x, hiWord x]
      | .i32sat => [BitVec.ofInt 32 (satI 32 (sw (e.w n 1 a) - sw (e.w n 2 b)))]
      | .n32sat => [BitVec.ofInt 32 (satN 32 (uw (e.w n 1 a) - uw (e.w n 2 b)))])
    (fun e n => match f with
      | .i32sat => let x := sw (e.w n 1 a) - sw (e.w n 2 b); if satI 32 x = x then 0 else fSAT
      | .n32sat => let x := uw (e.w n 1 a) - uw (e.w n 2 b); if satN 32 x = x then 0 else fSAT
      | _ => 0)) ∧
  (∀ h f d a, Computes (.neg h f d a) h d
    (fun e n => match f with
      | .i32 => [BitVec.ofInt 32 (-(uw (e.w n 1 a)))]
      | .i64 => let x := BitVec.ofInt 64 (-((e.pair n 1 a).toNat : Int)); [loWord x, hiWord x]
      | .i32sat => [BitVec.ofInt 32 (satI 32 (-(sw (e.w n 1 a))))])
    (fun e n => match f with
      | .i32sat => let x := -(sw (e.w n 1 a)); if satI 32 x = x then 0 else fSAT
      | _ => 0)) ∧
  (∀ h f d a, Computes (.abs h f d a) h d
    (fun e n => match f with
      | .i32 => [BitVec.ofInt 32 (sw (e.w n 1 a)).natAbs]
      | .i64 => let x := BitVec.ofInt 64 (e.pair n 1 a).toInt.natAbs; [loWord x, hiWord x]
      | .i32sat => [BitVec.ofInt 32 (satI 32 (sw (e.w n 1 a)).natAbs)])
    (fun e n => match f with
      | .i32sat => let x : Int := (sw (e.w n 1 a)).natAbs; if satI 32 x = x then 0 else fSAT
      | _ => 0))

/-- R143: addc and subb, MAJOR 0x21 and 0x23, carry one bit between words, FN 1 giving the carry or the borrow; only bit 0
of c is read. -/
def Obligations.CarryResults : Prop :=
  (∀ h co d a b c, Computes (.addc h co d a b c) h d
    (fun e n => let x := (e.w n 1 a).toNat + (e.w n 2 b).toNat + (e.w n 3 c).toNat % 2
      [BitVec.ofNat 32 (if co then x / 2 ^ 32 else x % 2 ^ 32)]) (fun _ _ => 0)) ∧
  (∀ h bo d a b c, Computes (.subb h bo d a b c) h d
    (fun e n =>
      if bo then [if (e.w n 1 a).toNat < (e.w n 2 b).toNat + (e.w n 3 c).toNat % 2 then 1 else 0]
      else [BitVec.ofInt 32 (((e.w n 1 a).toNat : Int) - (e.w n 2 b).toNat - ((e.w n 3 c).toNat % 2 : Nat))]) (fun _ _ => 0)) ∧
  ∀ h x d a b c,
    encode (.addc h x d a b c) = .igfin (mkWord h 0x21 (BodyF3.pack ⟨if x then 1 else 0, c.code, b.code, a.code, d.code⟩)) ∧
    encode (.subb h x d a b c) = .igfin (mkWord h 0x23 (BodyF3.pack ⟨if x then 1 else 0, c.code, b.code, a.code, d.code⟩))

/-- R144: mul, mulhi, mad and madhi take their part of the exact product; SAT on a clamp. -/
def Obligations.ProductResults : Prop :=
  (∀ h f d a b, Computes (.mul h f d a b) h d
    (fun e n => match f with
      | .i32 => [BitVec.ofInt 32 (uw (e.w n 1 a) * uw (e.w n 2 b))]
      | .i64 => let x := BitVec.ofNat 64 ((e.pair n 1 a).toNat * (e.pair n 2 b).toNat); [loWord x, hiWord x]
      | .i32sat => [BitVec.ofInt 32 (satI 32 (sw (e.w n 1 a) * sw (e.w n 2 b)))]
      | .n32sat => [BitVec.ofInt 32 (satN 32 (uw (e.w n 1 a) * uw (e.w n 2 b)))]
      | .wideI => let x := BitVec.ofInt 64 (sw (e.w n 1 a) * sw (e.w n 2 b)); [loWord x, hiWord x]
      | .wideN => let x := BitVec.ofInt 64 (uw (e.w n 1 a) * uw (e.w n 2 b)); [loWord x, hiWord x])
    (fun e n => match f with
      | .i32sat => let x := sw (e.w n 1 a) * sw (e.w n 2 b); if satI 32 x = x then 0 else fSAT
      | .n32sat => let x := uw (e.w n 1 a) * uw (e.w n 2 b); if satN 32 x = x then 0 else fSAT
      | _ => 0)) ∧
  (∀ h uns d a b, Computes (.mulhi h uns d a b) h d
    (fun e n => [BitVec.ofInt 32 ((if uns then uw (e.w n 1 a) * uw (e.w n 2 b) else sw (e.w n 1 a) * sw (e.w n 2 b)) / 2 ^ 32)]) (fun _ _ => 0)) ∧
  (∀ h f d a b c, Computes (.mad h f d a b c) h d
    (fun e n => match f with
      | .i32 => [BitVec.ofInt 32 (uw (e.w n 1 a) * uw (e.w n 2 b) + uw (e.w n 3 c))]
      | .wideI => let x := BitVec.ofInt 64 (sw (e.w n 1 a) * sw (e.w n 2 b) + (e.pair n 3 c).toInt); [loWord x, hiWord x]
      | .wideN => let x := BitVec.ofInt 64 (uw (e.w n 1 a) * uw (e.w n 2 b) + (e.pair n 3 c).toNat); [loWord x, hiWord x]) (fun _ _ => 0)) ∧
  (∀ h uns d a b c, Computes (.madhi h uns d a b c) h d
    (fun e n => [BitVec.ofInt 32 ((if uns then uw (e.w n 1 a) * uw (e.w n 2 b) else sw (e.w n 1 a) * sw (e.w n 2 b)) / 2 ^ 32 + uw (e.w n 3 c))])
    (fun _ _ => 0))

/-- R145, R146 and R151: the lesser or greater source's bits, logic, shifts, bit counts and moves; no flag. -/
def Obligations.BitResults : Prop :=
  (∀ h f d a b, Computes (.min h f d a b) h d
    (fun e n => match f with
      | .i32 => [if sw (e.w n 1 a) < sw (e.w n 2 b) then e.w n 1 a else e.w n 2 b]
      | .n32 => [if uw (e.w n 1 a) < uw (e.w n 2 b) then e.w n 1 a else e.w n 2 b]
      | .i64 => let x := if (e.pair n 1 a).toInt < (e.pair n 2 b).toInt then e.pair n 1 a else e.pair n 2 b; [loWord x, hiWord x]
      | .n64 => let x := if (e.pair n 1 a).toNat < (e.pair n 2 b).toNat then e.pair n 1 a else e.pair n 2 b; [loWord x, hiWord x]) (fun _ _ => 0)) ∧
  (∀ h f d a b, Computes (.max h f d a b) h d
    (fun e n => match f with
      | .i32 => [if sw (e.w n 1 a) < sw (e.w n 2 b) then e.w n 2 b else e.w n 1 a]
      | .n32 => [if uw (e.w n 1 a) < uw (e.w n 2 b) then e.w n 2 b else e.w n 1 a]
      | .i64 => let x := if (e.pair n 1 a).toInt < (e.pair n 2 b).toInt then e.pair n 2 b else e.pair n 1 a; [loWord x, hiWord x]
      | .n64 => let x := if (e.pair n 1 a).toNat < (e.pair n 2 b).toNat then e.pair n 2 b else e.pair n 1 a; [loWord x, hiWord x]) (fun _ _ => 0)) ∧
  (∀ h d a b, Computes (.and h d a b) h d (fun e n => [e.w n 1 a &&& e.w n 2 b]) (fun _ _ => 0)) ∧
  (∀ h d a b, Computes (.or h d a b) h d (fun e n => [e.w n 1 a ||| e.w n 2 b]) (fun _ _ => 0)) ∧
  (∀ h d a b, Computes (.xor h d a b) h d (fun e n => [e.w n 1 a ^^^ e.w n 2 b]) (fun _ _ => 0)) ∧
  (∀ h d a b, Computes (.andn h d a b) h d (fun e n => [e.w n 1 a &&& ~~~(e.w n 2 b)]) (fun _ _ => 0)) ∧
  (∀ h d a, Computes (.not h d a) h d (fun e n => [~~~(e.w n 1 a)]) (fun _ _ => 0)) ∧
  (∀ h d a b, Computes (.shl h d a b) h d
    (fun e n => let k := (e.w n 2 b).toNat; [if 32 ≤ k then 0 else BitVec.ofNat 32 ((e.w n 1 a).toNat * 2 ^ k)]) (fun _ _ => 0)) ∧
  (∀ h d a b, Computes (.shr h d a b) h d
    (fun e n => let k := (e.w n 2 b).toNat; [if 32 ≤ k then 0 else BitVec.ofNat 32 ((e.w n 1 a).toNat / 2 ^ k)]) (fun _ _ => 0)) ∧
  (∀ h d a b, Computes (.sar h d a b) h d
    (fun e n => [BitVec.ofInt 32 (sw (e.w n 1 a) / 2 ^ (min (e.w n 2 b).toNat 31))]) (fun _ _ => 0)) ∧
  (∀ h d a b, Computes (.rot h d a b) h d (fun e n => [(e.w n 1 a).rotateLeft ((e.w n 2 b).toNat % 32)]) (fun _ _ => 0)) ∧
  (∀ h d a, Computes (.clz h d a) h d
    (fun e n => [BitVec.ofNat 32 (((List.range 33).find? (fun k => decide ((e.w n 1 a).toNat < 2 ^ k))).elim 0 (fun k => 32 - k))]) (fun _ _ => 0)) ∧
  (∀ h d a, Computes (.popc h d a) h d
    (fun e n => [BitVec.ofNat 32 ((List.range 32).filter (fun k => (e.w n 1 a).getLsbD k)).length]) (fun _ _ => 0)) ∧
  (∀ h d a, ∃ val : Env → Nat → Word, Computes (.brev h d a) h d (fun e n => [val e n]) (fun _ _ => 0) ∧
    ∀ e n k, k < 32 → (val e n).getLsbD k = (e.w n 1 a).getLsbD (31 - k)) ∧
  (∀ h wide d a, Computes (.mov h wide d a) h d
    (fun e n => if wide then [e.reg n 1 a 0, e.reg n 1 a 1] else [e.reg n 1 a 0]) (fun _ _ => 0)) ∧
  (∀ h d imm, Computes (.movi h d imm) h d (fun _ _ => [imm]) (fun _ _ => 0))

/-- R147, R148 and R149: bit fields with clamped positions, scaled addresses, and a sum compared in one step. -/
def Obligations.FieldResults : Prop :=
  (∀ h sgn d a b c, Computes (.bfe h sgn d a b c) h d
    (fun e n =>
      let pos := min (e.w n 2 b).toNat 32
      let w := min (e.w n 3 c).toNat (32 - pos)
      let f := (e.w n 1 a).toNat / 2 ^ pos % 2 ^ w
      [if sgn = true ∧ w ≠ 0 ∧ 2 ^ (w - 1) ≤ f then BitVec.ofInt 32 ((f : Int) - 2 ^ w) else BitVec.ofNat 32 f]) (fun _ _ => 0)) ∧
  (∀ h d a b c, Computes (.bfi h d a b c) h d
    (fun e n =>
      let pos := min ((e.w n 3 c).toNat % 256) 32
      let w := min ((e.w n 3 c).toNat / 256 % 256) (32 - pos)
      let mask : Word := BitVec.ofNat 32 ((2 ^ w - 1) * 2 ^ pos)
      [(e.w n 2 b &&& ~~~mask) ||| (BitVec.ofNat 32 ((e.w n 1 a).toNat * 2 ^ pos) &&& mask)]) (fun _ _ => 0)) ∧
  (∀ h sh d a b c, Computes (.lea h sh d a b c) h d
    (fun e n => [BitVec.ofNat 32 ((e.w n 1 a).toNat + (e.w n 2 b).toNat * 2 ^ sh.val + (e.w n 3 c).toNat)]) (fun _ _ => 0)) ∧
  (∀ h uns d a b c, Computes (.addmin h uns d a b c) h d
    (fun e n =>
      if uns then [BitVec.ofInt 32 (satN 32 (min (uw (e.w n 1 a) + uw (e.w n 2 b)) (uw (e.w n 3 c))))]
      else [BitVec.ofInt 32 (satI 32 (min (sw (e.w n 1 a) + sw (e.w n 2 b)) (sw (e.w n 3 c))))])
    (fun e n =>
      if uns then (let r := min (uw (e.w n 1 a) + uw (e.w n 2 b)) (uw (e.w n 3 c)); if satN 32 r = r then 0 else fSAT)
      else (let r := min (sw (e.w n 1 a) + sw (e.w n 2 b)) (sw (e.w n 3 c)); if satI 32 r = r then 0 else fSAT))) ∧
  (∀ h uns d a b c, Computes (.addmax h uns d a b c) h d
    (fun e n =>
      if uns then [BitVec.ofInt 32 (satN 32 (max (uw (e.w n 1 a) + uw (e.w n 2 b)) (uw (e.w n 3 c))))]
      else [BitVec.ofInt 32 (satI 32 (max (sw (e.w n 1 a) + sw (e.w n 2 b)) (sw (e.w n 3 c))))])
    (fun e n =>
      if uns then (let r := max (uw (e.w n 1 a) + uw (e.w n 2 b)) (uw (e.w n 3 c)); if satN 32 r = r then 0 else fSAT)
      else (let r := max (sw (e.w n 1 a) + sw (e.w n 2 b)) (sw (e.w n 3 c)); if satI 32 r = r then 0 else fSAT)))

/-- R152 to R154, R157 and R158: binary32 results, rounded once, with their flags. -/
def Obligations.FloatResults : Prop :=
  let in1 (e : Env) (n : Nat) (a : Opnd) : FV := ffF32.input e.ftz (e.w n 1 a).toNat
  let in2 (e : Env) (n : Nat) (b : Opnd) : FV := ffF32.input e.ftz (e.w n 2 b).toNat
  let in3 (e : Env) (n : Nat) (c : Opnd) : FV := ffF32.input e.ftz (e.w n 3 c).toNat
  let one (i : Instr) (h : Hdr) (d : Opnd) (r : Env → Nat → Nat × FlagBits) : Prop :=
    Computes i h d (fun e n => [BitVec.ofNat 32 (r e n).1]) (fun e n => (r e n).2)
  (∀ h rm d a b, one (.fadd h rm d a b) h d (fun e n => finishFV ffF32 e.ftz rm (addFV rm (in1 e n a) (in2 e n b)))) ∧
  (∀ h rm d a b, one (.fsub h rm d a b) h d (fun e n => finishFV ffF32 e.ftz rm (addFV rm (in1 e n a) (in2 e n b).negate))) ∧
  (∀ h rm d a b, one (.fmul h rm d a b) h d (fun e n => finishFV ffF32 e.ftz rm (mulFV (in1 e n a) (in2 e n b)))) ∧
  (∀ h rm d a b c, one (.ffma h rm d a b c) h d (fun e n => finishFV ffF32 e.ftz rm (fmaFV rm (in1 e n a) (in2 e n b) (in3 e n c)))) ∧
  (∀ h d a b, one (.fmin h d a b) h d (fun e n => minmaxFV ffF32 e.ftz false (e.w n 1 a).toNat (e.w n 2 b).toNat)) ∧
  (∀ h d a b, one (.fmax h d a b) h d (fun e n => minmaxFV ffF32 e.ftz true (e.w n 1 a).toNat (e.w n 2 b).toNat)) ∧
  (∀ h d a, Computes (.fabs h d a) h d (fun e n => [e.w n 1 a &&& 0x7FFFFFFF]) (fun _ _ => 0)) ∧
  (∀ h d a, Computes (.fneg h d a) h d (fun e n => [e.w n 1 a ^^^ 0x80000000]) (fun _ _ => 0)) ∧
  (∀ h d a, one (.frint h d a) h d (fun e n => rintF32 e.ftz .rne (e.w n 1 a).toNat)) ∧
  (∀ h d a, one (.ftrunc h d a) h d (fun e n => rintF32 e.ftz .rz (e.w n 1 a).toNat)) ∧
  (∀ h d a, one (.ffloor h d a) h d (fun e n => rintF32 e.ftz .rdn (e.w n 1 a).toNat)) ∧
  (∀ h d a, one (.fceil h d a) h d (fun e n => rintF32 e.ftz .rup (e.w n 1 a).toNat)) ∧
  (∀ h d a, Computes (.fclass h d a) h d (fun e n => [BitVec.ofNat 32 (fclassF32 (e.w n 1 a).toNat)]) (fun _ _ => 0))

/-- R159 to R164 and R167: conversions, packed 16-bit and dot arithmetic, narrow packing, the block scale, select. The sign of a
zero in a floating dot sum (log entry 49) and the flags of a cvt from FW8 to F16 under FTZ (log entry 55) are the model's choice. -/
def Obligations.PackedResults : Prop :=
  (∀ h d a dst src rm elem, Computes (.cvt h d a dst src rm elem) h d
    (fun e n =>
      let x := if src.bits = 64 then (e.pair n 1 a).toNat else element src.bits (elem.val % (32 / src.bits)) (e.w n 1 a)
      let r := BitVec.ofNat 64 (cvtRes dst src e.ftz rm x).1
      if dst.bits = 64 then [loWord r, hiWord r] else [loWord r])
    (fun e n =>
      let x := if src.bits = 64 then (e.pair n 1 a).toNat else element src.bits (elem.val % (32 / src.bits)) (e.w n 1 a)
      (cvtRes dst src e.ftz rm x).2)) ∧
  (∀ h hf rm d a b,
    let r (e : Env) (n j : Nat) := let f := halfFmtOf hf
      finishFV f e.ftz rm (addFV rm (f.input e.ftz (element 16 j (e.w n 1 a))) (f.input e.ftz (element 16 j (e.w n 2 b))))
    Computes (.hadd2 h hf rm d a b) h d (fun e n => [BitVec.ofNat 32 ((r e n 0).1 + (r e n 1).1 * 2 ^ 16)]) (fun e n => (r e n 0).2 ||| (r e n 1).2)) ∧
  (∀ h hf rm d a b,
    let r (e : Env) (n j : Nat) := let f := halfFmtOf hf
      finishFV f e.ftz rm (mulFV (f.input e.ftz (element 16 j (e.w n 1 a))) (f.input e.ftz (element 16 j (e.w n 2 b))))
    Computes (.hmul2 h hf rm d a b) h d (fun e n => [BitVec.ofNat 32 ((r e n 0).1 + (r e n 1).1 * 2 ^ 16)]) (fun e n => (r e n 0).2 ||| (r e n 1).2)) ∧
  (∀ h hf rm d a b c,
    let r (e : Env) (n j : Nat) := let f := halfFmtOf hf
      finishFV f e.ftz rm (fmaFV rm (f.input e.ftz (element 16 j (e.w n 1 a))) (f.input e.ftz (element 16 j (e.w n 2 b)))
        (f.input e.ftz (element 16 j (e.w n 3 c))))
    Computes (.hfma2 h hf rm d a b c) h d (fun e n => [BitVec.ofNat 32 ((r e n 0).1 + (r e n 1).1 * 2 ^ 16)]) (fun e n => (r e n 0).2 ||| (r e n 1).2)) ∧
  (∀ h hf rm d a b c,
    let r (e : Env) (n : Nat) := dotFloat (halfElTy hf) 2 e.ftz rm (e.w n 1 a) (e.w n 2 b) (e.w n 3 c) (e.w n 0 d)
    Computes (.dot2 h hf rm d a b c) h d (fun e n => [BitVec.ofNat 32 (r e n).1]) (fun e n => (r e n).2)) ∧
  (∀ h fw8 rm d a b c,
    let r (e : Env) (n : Nat) := dotFloat (if fw8 then .fw8 else .fn8) 4 e.ftz rm (e.w n 1 a) (e.w n 2 b) (e.w n 3 c) (e.w n 0 d)
    Computes (.dot4f h fw8 rm d a b c) h d (fun e n => [BitVec.ofNat 32 (r e n).1]) (fun e n => (r e n).2)) ∧
  (∀ h rm d a b c,
    let r (e : Env) (n : Nat) := dotFloat .fn4 8 e.ftz rm (e.w n 1 a) (e.w n 2 b) (e.w n 3 c) (e.w n 0 d)
    Computes (.dot8f h rm d a b c) h d (fun e n => [BitVec.ofNat 32 (r e n).1]) (fun e n => (r e n).2)) ∧
  (∀ h uns d a b, Computes (.dot4i h uns d a b) h d
    (fun e n => [dotInt (if uns then .n8 else .i8) 4 (e.w n 1 a) (e.w n 2 b) (e.w n 0 d)]) (fun _ _ => 0)) ∧
  (∀ h uns d a b, Computes (.dot8i h uns d a b) h d
    (fun e n => [dotInt (if uns then .n4 else .i4) 8 (e.w n 1 a) (e.w n 2 b) (e.w n 0 d)]) (fun _ _ => 0)) ∧
  (∀ h ty d a b c,
    let lo (e : Env) (n : Nat) := pkConv ty e.ftz (e.w n 1 a)
    let hi (e : Env) (n : Nat) := pkConv ty e.ftz (e.w n 2 b)
    let j (e : Env) (n : Nat) := (e.w n 3 c).toNat % (32 / ty.bits / 2)
    Computes (.pk h ty d a b c) h d
      (fun e n => [setElement ty.bits (2 * j e n + 1) (hi e n).1 (setElement ty.bits (2 * j e n) (lo e n).1 (e.w n 0 d))])
      (fun e n => (lo e n).2 ||| (hi e n).2)) ∧
  (∀ h ty d a b,
    let r (e : Env) (n : Nat) := upkRes ty e.ftz (e.w n 1 a) (e.w n 2 b)
    Computes (.upk h ty d a b) h d (fun e n => [(r e n).1]) (fun e n => (r e n).2)) ∧
  (∀ h hi rm d a b,
    let sc (e : Env) (n : Nat) := element 16 (if hi then 1 else 0) (e.w n 2 b)
    Computes (.scl h hi rm d a b) h d
      (fun e n => match scClass (sc e n) with
        | .bad => []
        | .zero => [0]
        | .good v => [BitVec.ofNat 32 (finishFV ffF32 e.ftz rm (mulFV (ffF32.input e.ftz (e.w n 1 a).toNat) v)).1])
      (fun e n => match scClass (sc e n) with
        | .good v => (finishFV ffF32 e.ftz rm (mulFV (ffF32.input e.ftz (e.w n 1 a).toNat) v)).2
        | _ => 0)) ∧
  (∀ h wide d a b pc, Computes (.sel h wide d a b pc) h d
    (fun e n => (List.range (if wide then 2 else 1)).map (fun j => if e.psrc n pc then e.reg n 1 a j else e.reg n 2 b j)) (fun _ _ => 0))

/-- R169, R170, R172 and R173: each live thread receives the source that its lane or quad exchange names, the ballot,
or the scan; R134 and R136: mfs delivers the view named. -/
def Obligations.LaneResults : Prop :=
  (∀ h dn d a b c, Computes (.lsh h dn d a b c) h d
    (fun e n => let k := (e.w n 2 b).toNat
      [if dn then (if n + k ≤ 31 then e.w (n + k) 1 a else e.w n 3 c) else (if k ≤ n then e.w (n - k) 1 a else e.w n 3 c)]) (fun _ _ => 0)) ∧
  (∀ h d a b, Computes (.lxor h d a b) h d (fun e n => [e.w (n ^^^ ((e.w n 2 b).toNat % 32)) 1 a]) (fun _ _ => 0)) ∧
  (∀ h d a b, Computes (.lbc h d a b) h d (fun e n => [e.w ((e.w n 2 b).toNat % 32) 1 a]) (fun _ _ => 0)) ∧
  (∀ h d a b, Computes (.lrot h d a b) h d (fun e n => [e.w ((n + (e.w n 2 b).toNat) % 32) 1 a]) (fun _ _ => 0)) ∧
  (∀ h dir d a, Computes (.qswp h dir d a) h d
    (fun e n => [e.w (4 * (n / 4) + ((n % 4) ^^^ (match dir with | .h => 1 | .v => 2 | .d => 3))) 1 a]) (fun _ _ => 0)) ∧
  (∀ h d a b, Computes (.qbc h d a b) h d (fun e n => [e.w (4 * (n / 4) + (e.w n 2 b).toNat % 4) 1 a]) (fun _ _ => 0)) ∧
  (∀ h d pa, ∃ mask : Env → Word, Computes (.vote h (.bal d) pa) h d (fun e _ => [mask e]) (fun _ _ => 0) ∧
    ∀ e k, k < 32 → (∀ n ∈ e.act, n < 32) → e.act.Nodup → (mask e).getLsbD k = ((e.votes h).contains k && e.psrc k pa)) ∧
  (∀ h op excl d a, Computes (.lscan h op excl d a) h d
    (fun e n => [((e.votes h).filter (fun u => decide (u < n) || (!excl && decide (u = n)))).foldl (fun acc u => scanOp op acc (e.w u 1 a)) (scanId op)])
    (fun _ _ => 0)) ∧
  (∀ h d sr, Delivers (.mfs h d sr) h d (fun e n => [e.sysVal n sr]))

/-- R165, R166 and R172: comparisons and predicate logic write the predicate named; a write to P0 is discarded (R31). -/
def Obligations.PredicateResults : Prop :=
  (∀ h cc pd a b pc, DeliversP (.setpI h cc pd a b pc) h pd (fun e n => ccInt cc (sw (e.w n 1 a)) (sw (e.w n 2 b)) && e.psrc n pc)) ∧
  (∀ h cc pd a b pc, DeliversP (.setpN h cc pd a b pc) h pd (fun e n => ccInt cc (uw (e.w n 1 a)) (uw (e.w n 2 b)) && e.psrc n pc)) ∧
  (∀ h cc pd a b pc,
    let r (e : Env) (n : Nat) := ccFloat cc (ffF32.input e.ftz (e.w n 1 a).toNat) (ffF32.input e.ftz (e.w n 2 b).toNat)
    DeliversP (.setpF h cc pd a b pc) h pd (fun e n => (r e n).1 && e.psrc n pc) ∧ Raises (.setpF h cc pd a b pc) h (fun e n => (r e n).2)) ∧
  (∀ h pd pa pb, DeliversP (.pand h pd pa pb) h pd (fun e n => e.psrc n pa && e.psrc n pb)) ∧
  (∀ h pd pa pb, DeliversP (.por h pd pa pb) h pd (fun e n => e.psrc n pa || e.psrc n pb)) ∧
  (∀ h pd pa pb, DeliversP (.pxor h pd pa pb) h pd (fun e n => e.psrc n pa != e.psrc n pb)) ∧
  (∀ h pd pa, DeliversP (.pnot h pd pa) h pd (fun e n => !(e.psrc n pa))) ∧
  (∀ h pd pa, DeliversP (.vote h (.any pd) pa) h pd (fun e _ => (e.votes h).any (fun u => e.psrc u pa))) ∧
  (∀ h pd pa, DeliversP (.vote h (.all pd) pa) h pd (fun e _ => (e.votes h).all (fun u => e.psrc u pa)))

/-- R138, R139: an instruction of fixed latency other than mts, the read of CLOCK.LO and a scl with a bad scale changes
the registers and predicates that it names as destinations, of its live threads, and nothing else but NFLAGS and where
the group's threads stand: all of memory, every other register, special register and unit is as before. The premises
rule out the traps of R95 and waits that a kill has already ended. -/
def Obligations.RegisterFrame : Prop :=
  ∀ i h s e, hdrOf i = some h → (latency i).isSome = true → (∀ h sr a, i ≠ .mts h sr a) → (∀ h d, i ≠ .mfs h d .clockLo) →
    (∀ h hi rm d a b, i = .scl h hi rm d a b → ∀ n ∈ e.live i h, scClass (sclHalf hi (e.w n 2 b)) ≠ .bad) →
    env? s = some e → e.ready i = true → e.calm i h = true → s.settled = true → WellFormed i →
    ∃ t, exec i s = .next t ∧ t.rest = s.rest ∧
      (∀ id gix n c,
        ¬(id = e.team.id ∧ gix = e.g.gix ∧ c ∈ ((uses i).filter (fun u => u.wr)).flatMap codesOf ∧
          (n ∈ e.live i h ∨ ownerOf c n = 32)) →
        t.regOf id gix n c = s.regOf id gix n c) ∧
      (∀ id gix n (q : Fin 8), ¬(id = e.team.id ∧ gix = e.g.gix ∧ q ∈ predWrites i ∧ n ∈ e.live i h) →
        t.predOf id gix n q.val = s.predOf id gix n q.val)

/-! ### Variable-latency results and memory -/

/-- R33: an instruction whose scoreboard slot is busy, and that has not begun, stalls its group: nothing changes. So does one
that waits for what its threads have issued and is still to be performed: a fence, a release or an engine command for all of
it, an access for an earlier one to the same bytes, and any operation on memory for a store that a release which its thread has
acquired orders before itself (R184, R185, R191, R235, R287, R289). That such an instruction itself does not issue, and that nothing changes, while an
earlier operation is open, is the model's choice (log entry 11): the rules give an order of performing. -/
def Obligations.SlotStall : Prop :=
  (∀ i sb s e, slotOf i = some sb → env? s = some e → e.g.busy sb.val = true → e.g.held = false → exec i s = .next s) ∧
  (∀ i s e, env? s = some e → e.holds i = true → exec i s = .next s) ∧
  (∀ i h s e n, env? s = some e → hdrOf i = some h → n ∈ e.act → e.guard h n = true → ordersAfter i = some true → storesFirst i = true →
    (∃ x ∈ s.late, x.by_.team = e.team.id ∧ x.by_.gix = e.g.gix ∧ ∃ c ∈ x.parts, c.1 = n) → e.holds i = true) ∧
  (∀ i h s e n, env? s = some e → hdrOf i = some h → n ∈ e.act → e.guard h n = true → accesses i = true →
    (∃ x ∈ s.late, ∃ sc, (Agent.thread e.team.id (e.tit n), sc) ∈ x.awaits) → e.holds i = true) ∧
  (∀ i h s e n, env? s = some e → hdrOf i = some h → n ∈ e.act → e.guard h n = true → (ordersAfter i).isSome = true →
    (∃ o ∈ e.g.ops, ∃ r ∈ o.reads, r.tid = n) → e.holds i = true) ∧
  (∀ h sz sx ord d a off sb s e n, let i := Instr.ldS h sz sx ord d a off sb
    let at_ := (BitVec.ofInt 32 ((e.w n 1 a).toNat + off.toInt * sz.bytes)).toNat
    env? s = some e → n ∈ e.act → e.guard h n = true →
    (∃ x ∈ s.late, x.by_.team = e.team.id ∧ x.by_.gix = e.g.gix ∧
      ∃ c ∈ x.parts, c.1 = n ∧ ∃ p, c.2.1 = .die e.team.die p ∧ p < at_ + sz.bytes ∧ at_ < p + c.2.2.length) → e.holds i = true)

/-- R141, R150, R155, R156: each sequence-unit instruction claims its slot with the result of the operands read at
issue; the flags wait with it (R43). -/
def Obligations.SequenceUnitIssue : Prop :=
  let seq (i : Instr) (h : Hdr) (sb : Fin 16) (d : Opnd) (r : Env → Nat → Nat × FlagBits) : Prop :=
    Pends i h sb .seq d (fun e n => [BitVec.ofNat 32 (r e n).1]) (fun e n => (r e n).2) (fun _ => True)
  let in1 (e : Env) (n : Nat) (a : Opnd) : FV := ffF32.input e.ftz (e.w n 1 a).toNat
  (∀ h uns d a b sb, Pends (.div h uns d a b sb) h sb .seq d
    (fun e n => [if e.w n 2 b = 0 then 0xFFFFFFFF
      else if uns then BitVec.ofNat 32 ((e.w n 1 a).toNat / (e.w n 2 b).toNat) else BitVec.ofInt 32 ((sw (e.w n 1 a)).tdiv (sw (e.w n 2 b)))])
    (fun _ _ => 0) (fun _ => True)) ∧
  (∀ h uns d a b sb, Pends (.rem h uns d a b sb) h sb .seq d
    (fun e n => [if e.w n 2 b = 0 then e.w n 1 a
      else if uns then BitVec.ofNat 32 ((e.w n 1 a).toNat % (e.w n 2 b).toNat) else BitVec.ofInt 32 ((sw (e.w n 1 a)).tmod (sw (e.w n 2 b)))])
    (fun _ _ => 0) (fun _ => True)) ∧
  (∀ h rm d a sb, seq (.frcp h rm d a sb) h sb d (fun e n => finishFV ffF32 e.ftz rm (divFV (.fin false 1 0) (in1 e n a)))) ∧
  (∀ h rm d a sb, seq (.frsq h rm d a sb) h sb d (fun e n => finishFV ffF32 e.ftz rm (rsqFV (in1 e n a)))) ∧
  (∀ h rm d a sb, seq (.fsqrt h rm d a sb) h sb d (fun e n => finishFV ffF32 e.ftz rm (sqrtFV (in1 e n a)))) ∧
  (∀ h rm d a b sb, seq (.fdiv h rm d a b sb) h sb d
    (fun e n => finishFV ffF32 e.ftz rm (divFV (in1 e n a) (ffF32.input e.ftz (e.w n 2 b).toNat)))) ∧
  (∀ h d a sb, seq (.fexp2 h d a sb) h sb d (fun e n => exp2F32 e.ftz (e.w n 1 a))) ∧
  (∀ h d a sb, seq (.flog2 h d a sb) h sb d (fun e n => log2F32 e.ftz (e.w n 1 a))) ∧
  (∀ h d a sb, seq (.fsin h d a sb) h sb d (fun e n => trigF32 false e.ftz (e.w n 1 a))) ∧
  (∀ h d a sb, seq (.fcos h d a sb) h sb d (fun e n => trigF32 true e.ftz (e.w n 1 a)))

/-- R33, R43, R117, R141, R179, R190, R209, R229: the return of a load, an atomic, a sequence-unit result, an eld whose
requests have all been performed and an accumulator move that has acted writes its results, an eld's predicates among
them, and frees its slot. That the flags of threads which have exited meanwhile join NFLAGS too is the model's choice (log
entry 55). -/
def Obligations.PendingLands : Prop :=
  Lands .loadDataReturn .load (fun _ _ => True) ∧ Lands .atomicReturn .atomic (fun _ _ => True) ∧
  Lands .sequenceUnitResult .seq (fun _ _ => True) ∧
  Lands .eldReturn .eld (fun g o => o.need = 0 ∧ g.held = false) ∧
  Lands .accMoveComplete .acc (fun _ o => o.waits = [] ∧ o.acc = .none)

/-- R175 to R179, R182, R183, R185, R199, R272, R285, R289, R290: each live thread whose access is legal reads its bytes when
the load issues, as they stood at one point of the view's history, and the words, extended as the form says, wait in the slot.
The point is the same for the threads of a pass that touch one word of a bank, and no older than any write to the bytes that the
reader must find made: one that it knows, has acquired or has made itself. Where it must find all of them it reads what memory
holds. A load without acquire may make its read anew, once, up to a delay later, which nothing fixes. Which of the points a read
takes, that the history is bounded, and that the other loads are performed in the step that issues them, is the model's choice
(log entry 11). ldu reads once for the group, which index 32 stands for. ldt reads a row of sixteen elements for each thread of
a quad and delivers to thread 4q + c the column block of elements 4c + r of row i at place 4r + i, packed. -/
def Obligations.LoadsIssue : Prop :=
  (
    let loads (i : Instr) (h : Hdr) (sb : Fin 16) (d : Opnd) (x : Acc) (f : List Byte → List Word) : Prop :=
      Pends i h sb .load d (fun e n => match e.access e.s x n with
          | .ok l => if n ≠ 32 ∧ e.s.sees (e.s.reader e.author [n]) l x.size = true then f (e.s.readLoc l x.size) else []
          | .error _ => [])
        (fun _ _ => 0) (fun e => ∀ n ∈ e.live i h, ∃ l, e.access e.s x n = .ok l) ∧
      ∀ s e, env? s = some e → e.ready i = true → e.calm i h = true → s.settled = true → WellFormed i →
        ∃ t g op, ∃ p : Nat → Nat, exec i s = .next t ∧ t.group? e.team.id e.g.gix = some g ∧ op ∈ g.ops ∧ op.slot = sb.val ∧ op.kind = .load ∧
          ((acquireOf i).isSome = true → op.reads = []) ∧
          ∀ n ∈ e.live i h, n ≠ 32 → ∀ l, e.access s x n = .ok l → s.floorLoc (s.reader e.author [n]) l x.size ≤ p (e.accessKey x n) ∧
            ∀ j w, (f (s.readAt (p (e.accessKey x n)) l x.size))[j]? = some w → isTCode (d.code.toNat + j) = false →
              (n, d.code.toNat + j, w) ∈ op.writes
    let words (sz : MSize) (sx : Bool) (bs : List Byte) : List Word :=
      match sz with
      | .b8 => [BitVec.ofInt 32 (if sx = true ∧ 2 ^ 7 ≤ leNat bs then (leNat bs : Int) - 2 ^ 8 else leNat bs)]
      | .b16 => [BitVec.ofInt 32 (if sx = true ∧ 2 ^ 15 ≤ leNat bs then (leNat bs : Int) - 2 ^ 16 else leNat bs)]
      | .b32 => [wordAt bs 0]
      | .b64 => [wordAt bs 0, wordAt bs 4]
      | .b128 => [wordAt bs 0, wordAt bs 4, wordAt bs 8, wordAt bs 12]
    (∀ h sz sx ord d a off sb, loads (.ldS h sz sx ord d a off sb) h sb d ⟨.s, a, off, sz.bytes, sz.bytes, sz.bytes, .any⟩ (words sz sx)) ∧
    (∀ h sz sx ord d a off sb, loads (.ldH h sz sx ord d a off sb) h sb d ⟨.h, a, off, sz.bytes, sz.bytes, sz.bytes, .plain⟩ (words sz sx)) ∧
    (∀ h sz sx d a off sb, loads (.ldK h sz sx d a off sb) h sb d ⟨.k, a, off, sz.bytes, sz.bytes, sz.bytes, .plain⟩ (words sz sx)) ∧
    (∀ h sz sx ord d a off sb, loads (.ldC h sz sx ord d a off sb) h sb d ⟨.c, a, off, sz.bytes, sz.bytes, sz.bytes, .plain⟩ (words sz sx)) ∧
    (∀ h d a off sb, loads (.arrRead h d a off sb) h sb d ⟨.s, a, off, 16, 16, 16, .plain⟩ (fun bs => [wordAt bs 8, wordAt bs 4])) ∧
    (∀ h sz ord d a off sb s e l, env? s = some e → e.ready (.ldu h sz ord d a off sb) = true →
      e.live (.ldu h sz ord d a off sb) h ≠ [] → WellFormed (.ldu h sz ord d a off sb) →
      e.access s ⟨.s, a, off, sz.bytes, sz.bytes, sz.bytes, .any⟩ 32 = .ok l →
      ∃ t g op, exec (.ldu h sz ord d a off sb) s = .next t ∧ t.group? e.team.id e.g.gix = some g ∧ op ∈ g.ops ∧ op.slot = sb.val ∧
        op.kind = .load ∧ (ord.isSome = true → op.reads = []) ∧
        ∀ j w, s.sees (s.reader e.author e.act) l sz.bytes = true → (words sz false (s.readLoc l sz.bytes))[j]? = some w → (32, d.code.toNat + j, w) ∈ op.writes) ∧
    (∀ s n l tm g o r h sz sx d a off sb, s.agenda = .tick n :: l → s.late = [] → s.regionOps = [] → s.team? tm.id = some tm → tm.group? g.gix = some g → o ∈ g.ops →
      o.reads = [r] → r.i = .ldS h sz sx none d a off sb → s.badPlace r.loc = false → r.due ≤ s.clock + n →
      ∃ t g' o', step s = .next t ∧ t.group? tm.id g.gix = some g' ∧ o' ∈ g'.ops ∧ o'.slot = o.slot ∧ o'.reads = [] ∧
        ∀ j w, (words sz sx (s.readAt (max r.floor (s.writes - r.age)) r.loc r.size))[j]? = some w →
          (∃ v, (r.tid, d.code.toNat + j, v) ∈ o.writes) → (r.tid, d.code.toNat + j, w) ∈ o'.writes)) ∧ (
    ∀ h w d a off sb,
      let wd := 4 * 2 ^ w.val
      let x : Acc := ⟨.s, a, off, 16, 2 * wd, 2 * wd, .any⟩
      let i := Instr.ldt h w d a off sb
      let row (e : Env) (n : Nat) : List Byte :=
        if (e.live i h).contains n then (match e.access e.s x n with | .ok l => e.s.readLoc l (2 * wd) | .error _ => []) else []
      let el (e : Env) (n k : Nat) : Nat := leNat (row e (4 * (n / 4) + k % 4)) / 2 ^ (wd * (4 * (n % 4) + k / 4)) % 2 ^ wd
      Pends i h sb .load d
        (fun e n => match e.access e.s x n with
          | .ok _ => if (e.live i h).all (fun m => match e.access e.s x m with
                | .ok l => m != 32 && e.s.sees (e.s.reader e.author [m]) l (2 * wd)
                | .error _ => true) = false then [] else (List.range (wd / 2)).map (fun j => BitVec.ofNat 32 (((List.range 16).map (fun k => el e n k * 2 ^ (wd * k))).sum / 2 ^ (32 * j)))
          | .error _ => [])
        (fun _ _ => 0) (fun e => ∀ n ∈ e.live i h, ∃ l, e.access e.s x n = .ok l))

/-- R176, R179 to R181, R185, R285, R287, R289: a store goes on to a state in which every byte that a live thread that is no helper stores holds
its byte of D, unless a thread of higher index stores there too; or, for a store to the die scratchpad or a carve-out, to one in
which its part is still to be performed, when a delay is over, which is one for the threads that store to one word of a bank. As
it is performed it becomes the newest write of its view's history, which keeps what stood in its place, and an agent that has
acquired what comes after it must find it made. That the stores of one bank access are performed as one action, and those to spill
stacks in the step that issues them, is the model's choice (log entry 11). In a spill stack the byte must lie clear of the
trap frames, which a trap of this or another thread may write. -/
def Obligations.StoreWrites : Prop :=
  let stores (i : Instr) (h : Hdr) (sz : MSize) (a : Opnd) (off : BitVec 12) (d : Opnd) (x : Acc) (may : Bool) : Prop :=
    ∀ s e, env? s = some e → e.ready i = true → WellFormed i →
      ∃ t, exec i s = .next t ∧
        ∃ ys : List LateStore, t.late.map LateStore.rest = s.late.map LateStore.rest ++ ys.map LateStore.rest ∧
          (∀ y ∈ ys, y.by_ = e.author ∧ e.fp < y.due) ∧ (may = false → ys = []) ∧
          ∀ n ∈ e.live i h, e.helper n = false → ∀ l, e.access s x n = .ok l →
            (∃ y ∈ ys, (n, l, ((e.run n 0 d sz.regs).flatMap wordBytes).take sz.bytes) ∈ y.parts) ∨
            ∀ j, j < sz.bytes → s.clearOfFrames (l.plus j) = true →
              (∀ m ∈ e.live i h, (n < m ∨ e.addr m a off sz.bytes ≠ e.addr n a off sz.bytes) → e.helper m = false →
                ∀ l', e.access s x m = .ok l' → ∀ j', j' < sz.bytes → l'.plus j' ≠ l.plus j) →
              some (t.readByte l j) = ((e.run n 0 d sz.regs).flatMap wordBytes)[j]?
  (∀ (s : State) (n : Nat) (l : List Act) (y : LateStore) (c : Nat × Loc × List Byte), s.agenda = .tick n :: l → s.late = [y] →
    y.due ≤ s.clock + n → s.parked = [] → s.regionOps = [] → y.parts = [c] → c.2.1.mem.isSome = true →
    (∀ tm o, c.2.1 = .sh tm o → (s.team? tm).isSome = true) →
    ∃ t, step s = .next t ∧ t.late = [] ∧ t.readLoc c.2.1 c.2.2.length = c.2.2 ∧ t.writes = s.writes + 1 ∧
      ∃ w ∈ t.olds, w.no = s.writes + 1 ∧ w.by_ = some y.by_ ∧ Agent.thread y.by_.team (32 * y.by_.gix + c.1) ∈ w.known ∧
        (∀ q ∈ y.awaits, q.1 ∈ w.known) ∧
        ∀ m p, c.2.1.mem = some (m, p) → w.mem = m ∧ ∀ j, j < c.2.2.length → (p + j, s.readByte c.2.1 j) ∈ w.cells) ∧
  (∀ h sz ord a off d, stores (.stS h sz ord a off d) h sz a off d ⟨.s, a, off, sz.bytes, sz.bytes, sz.bytes, .plain⟩ true) ∧
  (∀ h sz ord a off d, stores (.stH h sz ord a off d) h sz a off d ⟨.h, a, off, sz.bytes, sz.bytes, sz.bytes, .plain⟩ true) ∧
  (∀ h sz a off d, stores (.stK h sz a off d) h sz a off d ⟨.k, a, off, sz.bytes, sz.bytes, sz.bytes, .plain⟩ false) ∧
  (∀ h sz ord a off d, stores (.stC h sz ord a off d) h sz a off d ⟨.c, a, off, sz.bytes, sz.bytes, sz.bytes, .plain⟩ true)

/-- The frame of the stores: every byte outside the bytes stored reads as before (a byte of a spill stack where trap
frames may be written excepted), and so does every register, predicate and flag; main memory, contexts, units, queues
and the hub are unchanged. -/
def Obligations.StoreFrame : Prop :=
  let stores (i : Instr) (h : Hdr) (sz : MSize) (x : Acc) : Prop :=
    ∀ s e, env? s = some e → e.ready i = true → WellFormed i →
      ∃ t, exec i s = .next t ∧
        (∀ l j, s.clearOfFrames (l.plus j) = true →
          (∀ m ∈ e.live i h, e.helper m = false → ∀ l', e.access s x m = .ok l' → ∀ j', j' < sz.bytes → l'.plus j' ≠ l.plus j) →
          (∀ d a, l.plus j = .die d a → a < 2 ^ 29) →
          t.readByte l j = s.readByte l j) ∧
        (∀ id gix n c, t.regOf id gix n c = s.regOf id gix n c) ∧ (∀ id gix n q, t.predOf id gix n q = s.predOf id gix n q) ∧
        (∀ id gix, t.flagsOf id gix = s.flagsOf id gix) ∧
        t.views = s.views ∧ t.contexts = s.contexts ∧ t.est = s.est ∧ t.copies = s.copies ∧ t.calls = s.calls ∧ t.taskqs = s.taskqs ∧
        t.cmdqs = s.cmdqs ∧ t.passes = s.passes ∧ t.regions = s.regions ∧ t.hub = s.hub
  (∀ h sz ord a off d, stores (.stS h sz ord a off d) h sz ⟨.s, a, off, sz.bytes, sz.bytes, sz.bytes, .plain⟩) ∧
  (∀ h sz ord a off d, stores (.stH h sz ord a off d) h sz ⟨.h, a, off, sz.bytes, sz.bytes, sz.bytes, .plain⟩) ∧
  (∀ h sz a off d, stores (.stK h sz a off d) h sz ⟨.k, a, off, sz.bytes, sz.bytes, sz.bytes, .plain⟩) ∧
  (∀ h sz ord a off d, stores (.stC h sz ord a off d) h sz ⟨.c, a, off, sz.bytes, sz.bytes, sz.bytes, .plain⟩)

/-- R175 to R178: where an access goes. A misaligned address comes first; then the layout, owner and type of a die
scratchpad line, the bounds of a carve-out or stack, or the peer of a cluster address. -/
def Obligations.AccessFaults : Prop :=
  ∀ (e : Env) (s : State) (x : Acc) (n : Nat),
    let addr := (BitVec.ofInt 32 ((e.w n 1 x.a).toNat + x.off.toInt * x.scale)).toNat
    let fault (c : Cause) : Except PendFault Loc := .error ⟨c, x.a.code, BitVec.ofNat 32 addr⟩
    let line := spOff addr / 64
    (addr % x.align ≠ 0 → e.access s x n = fault .misalign) ∧
    (addr % x.align = 0 → x.sp = .h → e.access s x n = if addr + x.size ≤ e.team.shsize then .ok (.sh e.team.id addr) else fault .shrange) ∧
    (addr % x.align = 0 → x.sp = .k →
      e.access s x n = if addr + x.size ≤ e.team.stackSize then .ok (.st e.team.id e.g.gix addr) else fault .stackrange) ∧
    (addr % x.align = 0 → x.sp = .s → spValid addr = false → e.access s x n = fault .spaddr) ∧
    (addr % x.align = 0 → x.sp = .s → spValid addr = true →
      (∀ r, s.entryAt e.team.die (spCore addr) (spOff addr) = some r → r.owner ≠ e.team.ctx ∨
        s.tagAt e.team.die (spCore addr) (64 * line) ≠ (e.team.ctx, false)) → e.access s x n = fault .spowner) ∧
    (addr % x.align = 0 → x.sp = .s → spValid addr = true → ∀ r, s.entryAt e.team.die (spCore addr) (spOff addr) = some r →
      r.owner = e.team.ctx → s.tagAt e.team.die (spCore addr) (64 * line) = (e.team.ctx, false) →
      e.access s x n =
        if (x.want = .plain ∧ r.est = true) ∨ (x.want = .est ∧ r.est = false) then fault .sptype else .ok (.die e.team.die addr)) ∧
    (addr % x.align = 0 → x.sp = .c → (e.team.csize < addr / 2 ^ 29 ∨ s.peer? e.team (addr / 2 ^ 29) = none) → e.access s x n = fault .cluaddr) ∧
    (addr % x.align = 0 → x.sp = .c → addr / 2 ^ 29 ≤ e.team.csize → ∀ u, s.peer? e.team (addr / 2 ^ 29) = some u →
      e.access s x n = if addr % 2 ^ 29 + x.size ≤ u.shsize then .ok (.sh u.id (addr % 2 ^ 29)) else fault .shrange)

/-- R186 to R188, R275, R285: a returning atomic performs each live, legal access that is no helper's, in the model at its home in the
step that issues it (the model's choice, log entry 11), and returns the old value; when
the places of two threads differ, each place holds op(old, value) of its own thread afterwards. In a combined fadd the
threads of one instruction that name one word add up among themselves, in ascending index, before the word: it becomes
f32(old + (…((v1 + v2) + v3)…)). Integer operations on one word act one after another. Each makes its threads know the newest
writes to the word, and its own write. -/
def Obligations.AtomicResults : Prop :=
  (
    let acc (sp : Space) (a : Opnd) (off : BitVec 12) (wide : Bool) : Acc :=
      ⟨sp, a, off, 4 * wideRegs wide, 4 * wideRegs wide, 4 * wideRegs wide, .plain⟩
    let alone (i : Instr) (h : Hdr) (e : Env) (x : Acc) : Prop :=
      ∀ n ∈ e.live i h, ∀ m ∈ e.live i h, n ≠ m → ∀ l l', e.access e.s x n = .ok l → e.access e.s x m = .ok l' → l ≠ l'
    let acts (i : Instr) (h : Hdr) (wide : Bool) (x : Acc) (new : Env → Nat → Nat → Nat) : Prop :=
      ∀ s e, env? s = some e → e.ready i = true → WellFormed i → alone i h e x →
        ∃ t, exec i s = .next t ∧ ∀ n ∈ e.live i h, e.helper n = false → ∀ l, e.access s x n = .ok l →
          t.locNat l (4 * wideRegs wide) = new e n (s.locNat l (4 * wideRegs wide)) % 2 ^ (32 * wideRegs wide)
    let returns (i : Instr) (h : Hdr) (sb : Fin 16) (wide : Bool) (d : Opnd) (x : Acc) : Prop :=
      ∀ s e, env? s = some e → e.ready i = true → e.calm i h = true → s.settled = true → WellFormed i → alone i h e x →
        ∃ t g op, exec i s = .next t ∧ t.group? e.team.id e.g.gix = some g ∧ op ∈ g.ops ∧ op.slot = sb.val ∧ op.kind = .atomic ∧
          ∀ n ∈ e.live i h, e.helper n = false → ∀ l, e.access s x n = .ok l → ∀ j, j < wideRegs wide →
            (isTCode (d.code.toNat + j) = false ∨ (e.inBlock = true ∧ s.parked = [] ∧ ∀ m ∈ e.live i h, ∃ l', e.access s x m = .ok l')) →
            (n, d.code.toNat + j, BitVec.ofNat 32 (s.locNat l (4 * wideRegs wide) / 2 ^ (32 * j))) ∈ op.writes
    let val (wide : Bool) (d : Opnd) (e : Env) (n : Nat) : Nat := if wide then (e.pair n 0 d).toNat else (e.w n 0 d).toNat
    (∀ h op wide ordf a off d sb,
      (acts (.atomS h op wide ordf a off d sb) h wide (acc .s a off wide) (fun e n old => atOp (32 * wideRegs wide) op old (val wide d e n)) ∧
        returns (.atomS h op wide ordf a off d sb) h sb wide d (acc .s a off wide)) ∧
      (acts (.atomH h op wide ordf a off d sb) h wide (acc .h a off wide) (fun e n old => atOp (32 * wideRegs wide) op old (val wide d e n)) ∧
        returns (.atomH h op wide ordf a off d sb) h sb wide d (acc .h a off wide)) ∧
      (acts (.atomC h op wide ordf a off d sb) h wide (acc .c a off wide) (fun e n old => atOp (32 * wideRegs wide) op old (val wide d e n)) ∧
        returns (.atomC h op wide ordf a off d sb) h sb wide d (acc .c a off wide))) ∧
    (∀ h op wide ordf a off d,
      acts (.redS h op wide ordf a off d) h wide (acc .s a off wide) (fun e n old => atOp (32 * wideRegs wide) op old (val wide d e n)) ∧
      acts (.redH h op wide ordf a off d) h wide (acc .h a off wide) (fun e n old => atOp (32 * wideRegs wide) op old (val wide d e n)) ∧
      acts (.redC h op wide ordf a off d) h wide (acc .c a off wide) (fun e n old => atOp (32 * wideRegs wide) op old (val wide d e n))) ∧
    (∀ h sp wide ordf a off d sb,
      let x := acc (match sp with | .s => .s | .h => .h | .c => .c) a off wide
      let cmp (e : Env) (n : Nat) : Nat := if wide then (e.pair n 0 d).toNat else (e.w n 0 d).toNat
      let new (e : Env) (n : Nat) : Nat := if wide then (pairOf (e.reg n 0 d 2) (e.reg n 0 d 3)).toNat else (e.reg n 0 d 1).toNat
      acts (.cas h sp wide ordf a off d sb) h wide x (fun e n old => if old = cmp e n then new e n else old) ∧
      returns (.cas h sp wide ordf a off d sb) h sb wide d x)) ∧ (
    (∀ (a : Author) (v : Nat → Nat) (s : State) (l : Loc) (n : Nat) (ns : List Nat),
      (atomicRun a .fadd false v s ((n :: ns).map (fun m => (m, l)))).1 =
        (s.sawNat a (n :: ns) l 4).setNatBy a (n :: ns) l 4 (atFadd (s.locNat l 4) (ns.foldl (fun a m => atFadd a (v m)) (v n)))) ∧
    (∀ (a : Author) (op : AtOp) (wide : Bool) (v : Nat → Nat) (s : State) (n : Nat) (l : Loc) (r : List (Nat × Loc)), op ≠ .fadd →
      let k := 4 * wideRegs wide
      let s1 := (s.sawNat a [n] l k).setNatBy a [n] l k (atOp (32 * wideRegs wide) op (s.locNat l k) (v n))
      atomicRun a op wide v s ((n, l) :: r) = ((atomicRun a op wide v s1 r).1, (n, s.locNat l k) :: (atomicRun a op wide v s1 r).2)))/-! ### Control flow, loops, traps and system registers -/

/-- R113, R125: br and brx transfer to H + 8 × the offset, unwinding the loops that hold the branch but not its target;
call and callx write the link; ret goes to the pair; every other register, every predicate and flag and all of memory
stays. A target that is no ENTRY header raises BADTARGET, with OPND 0x7FF (the model's choice, log entry 10). -/
def Obligations.Branches : Prop :=
  let ok (e : Env) (tgt : Int) : Bool := e.s.entryOk e.team.ctx tgt
  let brT (e : Env) (off : Int) : Int := (e.hdrAddr : Int) + 8 * off
  let bad (tgt : Int) : PendFault := ⟨.badtarget, 0x7FF, BitVec.ofInt 32 tgt⟩
  (∀ h off, Goes (.br h off) h
    (fun e n => let t := brT e off.toInt; if ok e t then some (.target t (unwind e.hdrAddr t (e.loops n))) else none)) ∧
  (∀ h a off, Goes (.brx h a off) h
    (fun e n => let t := brT e (off.toInt + sw (e.w n 1 a)); if ok e t then some (.target t (unwind e.hdrAddr t (e.loops n))) else none)) ∧
  (∀ h d off, Goes (.call h d off) h (fun e n => let t := brT e off.toInt; if ok e t then some (.target t (e.loops n)) else none)) ∧
  (∀ h d a, Goes (.callx h d a) h (fun e n => let t := brT e (sw (e.w n 1 a)); if ok e t then some (.target t (e.loops n)) else none)) ∧
  (∀ h a, Goes (.ret h a) h (fun e n => let t : Int := (e.pair n 1 a).toNat; if ok e t then some (.target t (e.loops n)) else none)) ∧
  (∀ h d off, Delivers (.call h d off) h d
    (fun e _ => if ok e (brT e off.toInt) then [loWord (mkPc e.nextHdr 0), hiWord (mkPc e.nextHdr 0)] else [])) ∧
  (∀ h d a, Delivers (.callx h d a) h d
    (fun e n => if ok e (brT e (sw (e.w n 1 a))) then [loWord (mkPc e.nextHdr 0), hiWord (mkPc e.nextHdr 0)] else [])) ∧
  (∀ h off, Faults (.br h off) h (fun e _ => let t := brT e off.toInt; if ok e t then none else some (bad t))) ∧
  (∀ h a off, Faults (.brx h a off) h (fun e n => let t := brT e (off.toInt + sw (e.w n 1 a)); if ok e t then none else some (bad t))) ∧
  (∀ h d off, Faults (.call h d off) h (fun e _ => let t := brT e off.toInt; if ok e t then none else some (bad t))) ∧
  (∀ h d a, Faults (.callx h d a) h (fun e n => let t := brT e (sw (e.w n 1 a)); if ok e t then none else some (bad t))) ∧
  (∀ h a, Faults (.ret h a) h (fun e n => let t : Int := (e.pair n 1 a).toNat; if ok e t then none else some (bad t))) ∧
  (∀ h off, Keeps (.br h off) h []) ∧ (∀ h a off, Keeps (.brx h a off) h []) ∧ (∀ h a, Keeps (.ret h a) h []) ∧
  (∀ h d off, Keeps (.call h d off) h [d.code.toNat, d.code.toNat + 1]) ∧
  (∀ h d a, Keeps (.callx h d a) h [d.code.toNat, d.code.toNat + 1])

/-- R121, R122, R124: loop and loopv push (START, END, count) and fall through; a count of 0 skips to the clause after
END, with the count of whatever word stands there as that clause's (the model's choice where no header does, log entry 59);
BADTARGET, LOOPCOUNT and LOOPDEPTH are raised in that order, with OPND 0x7FF (the model's choice, log entry 10), and a pushed END
is kept modulo 2^48 (the model's choice, log entry 63); registers, predicates, flags and memory stay. At the end of clause E a loop whose END is E and whose
COUNT is above 1 goes back to START with COUNT less 1; an entry of COUNT 1 is popped, and the entries below it are
tested next. -/
def Obligations.Loops : Prop :=
  (
    ∀ (e : Nat) (x : LoopEntry) (l : List LoopEntry),
      loopBack e [] = (none, []) ∧
      (x.endc.toNat ≠ e → loopBack e (x :: l) = (none, x :: l)) ∧
      (x.endc.toNat = e → 1 < x.count.toNat → loopBack e (x :: l) = (some x.start.toNat, { x with count := BitVec.ofNat 24 (x.count.toNat - 1) } :: l)) ∧
      (x.endc.toNat = e → x.count.toNat ≤ 1 → loopBack e (x :: l) = loopBack e l)) ∧ (
    let ok (e : Env) (tgt : Int) : Bool := e.s.entryOk e.team.ctx tgt
    let start (e : Env) : Int := e.nextHdr
    let fin (e : Env) (off : BitVec 32) : Int := (e.hdrAddr : Int) + 8 * off.toInt
    let after (e : Env) (off : BitVec 32) : Int := fin e off + 8 * ((hdrCnt (e.s.codeAt e.team.ctx (fin e off).toNat) : Int) + 2)
    let flt (e : Env) (off : BitVec 32) (n : Nat) (c : Word) : Option PendFault :=
      if ok e (start e) = false then some ⟨.badtarget, 0x7FF, BitVec.ofInt 32 (start e)⟩
      else if fin e off < start e then some ⟨.badtarget, 0x7FF, BitVec.ofInt 32 (fin e off)⟩
      else if 0xFFFFFF < c.toNat then some ⟨.loopcount, 0x7FF, c⟩
      else if c = 0 then (if ok e (after e off) then none else some ⟨.badtarget, 0x7FF, BitVec.ofInt 32 (after e off)⟩)
      else if 4 ≤ (e.loops n).length then some ⟨.loopdepth, 0x7FF, c⟩
      else none
    let dest (e : Env) (off : BitVec 32) (n : Nat) (c : Word) : Option Cont :=
      if (flt e off n c).isSome then none
      else if c = 0 then some (.target (after e off) (e.loops n))
      else some (e.cont (⟨BitVec.ofInt 48 (start e), BitVec.ofInt 48 (fin e off), c.setWidth 24⟩ :: e.loops n))
    (∀ h a off, Goes (.loop h a off) h (fun e n => dest e off n (e.w n 1 a)) ∧ Faults (.loop h a off) h (fun e n => flt e off n (e.w n 1 a))) ∧
    (∀ h k off, Goes (.loopImm h k off) h (fun e n => dest e off n (k.setWidth 32)) ∧ Faults (.loopImm h k off) h (fun e n => flt e off n (k.setWidth 32))) ∧
    (∀ h a off, Goes (.loopv h a off) h (fun e n => dest e off n (e.w n 1 a)) ∧ Faults (.loopv h a off) h (fun e n => flt e off n (e.w n 1 a))) ∧
    ∀ h a k off, Keeps (.loop h a off) h [] ∧ Keeps (.loopImm h k off) h [] ∧ Keeps (.loopv h a off) h [])

/-- R123: lpop, MAJOR 0x09 with every body field zero, removes the top entry, if there is one, and falls through;
registers, predicates, flags and memory stay. -/
def Obligations.LoopPop : Prop :=
  (∀ h, Goes (.lpop h) h (fun e n => some (e.cont (e.loops n).tail))) ∧ (∀ h, Keeps (.lpop h) h []) ∧
  ∀ h, encode (.lpop h) = .igfin (mkWord h 0x09 (BodyFL.pack ⟨0, 0, 0⟩))

/-- R133: nop, MAJOR 0x1C with every body field zero, has no effect but to fall through, whatever its guard: every
register, predicate and flag and all of memory is as before. Any class and place of a clause admits it. So falls through
bkpt in a team without a handler (R130). -/
def Obligations.NoEffect : Prop :=
  (∀ h, Goes (.nop h) h (fun e n => some (e.cont (e.loops n))) ∧ Keeps (.nop h) h []) ∧
  (∀ h, encode (.nop h) = .igfin (mkWord h 0x1C (BodyFL.pack ⟨0, 0, 0⟩))) ∧ (∀ hdr idx h, placeOk hdr idx (.nop h) = true) ∧
  (∀ h imm, Goes (.bkpt h imm) h (fun e n => if e.team.handler = 0 then some (e.cont (e.loops n)) else none) ∧ Keeps (.bkpt h imm) h [])

/-- R127, R129, R130: trap, and bkpt with a handler, enter the handler for each live thread, with cause TRAP or BKPT,
OPND 0x7FF, VALUE the immediate, and TRAPPC the PC of the fall-through; the frame holds the loop stack after R124.
Registers, predicates and flags stay. -/
def Obligations.TrapTaken : Prop :=
  let enters (i : Instr) (h : Hdr) (c : Cause) (imm : Word) : Prop :=
    ∀ s e, env? s = some e → e.ready i = true → e.calm i h = true → e.canTrap = true → WellFormed i →
      ∃ t, exec i s = .next t ∧ ∀ n ∈ e.live i h, Trapped e t n ⟨c, 0x7FF, imm⟩ (e.cont (e.loops n)).pc ∧
        Framed e t n ⟨c, 0x7FF, imm⟩ (e.cont (e.loops n)).pc (e.cont (e.loops n)).loops
  (∀ h imm, enters (.trap h imm) h .trap imm ∧ Keeps (.trap h imm) h []) ∧ (∀ h imm, enters (.bkpt h imm) h .bkpt imm)

/-- R78, R79, R89, R90, R95, R164: VRANGE is raised for every streamed thread by every instruction that begins, whatever its
guard, before any effect; with an mma the A run and the scale run count together, and a run past V1535 is ILLOP (R225); ILLOP is
raised so for a word that is no instruction. With CHKSB.EN in force, a thread whose guard is true and that would read or overwrite
a result still to come raises STALLSHORT in any instruction and performs nothing: its predicates and its registers, those that a surr gives up apart, stay. After VRANGE, ILLOP or BADCLAUSE every register, predicate, flag and byte of
memory outside the trap frames is as before. A bad clause header raises BADCLAUSE with TRAPPC the header's address; scl with a bad
scale raises BADSCALE. Which operand OPND names where several offend, and 0x7FF where a predicate or a system register alone is
early, is the model's choice (log entry 44), as is that an instruction opens its windows whatever it writes (log entry 45). -/
def Obligations.EncodingFaults : Prop :=
  let scaled (e : Env) (i : Instr) : Prop := ∀ h f acc a x cv r, i = .mma h f acc a x cv r → e.scaleFault a x.val = none
  (
    (∀ i h o s e, hdrOf i = some h → env? s = some e → e.begins i = true → e.spent = false → vrange? e.g i = some o → scaled e i → e.canTrap = true →
      ∃ t, exec i s = .next t ∧ s.same t ∧ ∀ n ∈ e.act, Trapped e t n ⟨.vrange, o, 0⟩ e.pc) ∧
    (∀ h f acc a x cv r s e, let i := Instr.mma h f acc a x cv r
      let top := a.code.toNat + e.team.runLen x.val
      env? s = some e → e.begins i = true → e.spent = false → (1536 < top ∨ 8 * e.g.vblk < top) → e.canTrap = true →
      ∃ t, exec i s = .next t ∧ s.same t ∧ ∀ n ∈ e.act,
        Trapped e t n (if 1536 < top then ⟨.illop, a.code, e.insWord⟩ else ⟨.vrange, a.code, 0⟩) e.pc) ∧
    (∀ w o s e, env? s = some e → e.spent = false → e.canTrap = true →
      ∃ t, exec (.illop w o) s = .next t ∧ s.same t ∧
        ∀ n ∈ e.act, Trapped e t n ⟨.illop, o, loWord w⟩ e.pc ∧ Framed e t n ⟨.illop, o, loWord w⟩ e.pc (e.loops n))) ∧ (
    (∀ i h s e, hdrOf i = some h → env? s = some e → e.begins i = true → e.spent = false → vrange? e.g i = none → scaled e i →
      ((latency i).isSome = true ∨ s.parked = []) → e.canTrap = true → e.chksb = true → WellFormed i →
      ∃ t, exec i s = .next t ∧ ∀ n ∈ e.act, e.guard h n = true → ∀ o, e.early? n h i = some o →
        Trapped e t n ⟨.stallshort, o, 0⟩ e.pc ∧
          ((∀ k m, i ≠ .surr k m) → ∀ c, ownerOf c n ≠ 32 → t.regOf e.team.id e.g.gix n c = s.regOf e.team.id e.g.gix n c) ∧
          ∀ q, t.predOf e.team.id e.g.gix n q = s.predOf e.team.id e.g.gix n q) ∧
    (∀ w s e, env? s = some e → e.canTrap = true →
      ∃ t, exec (.badclause w) s = .next t ∧ s.same t ∧ ∀ n ∈ e.act, Trapped e t n ⟨.badclause, 0x7FF, hdrFaultValue w⟩ (mkPc e.hdrAddr 0)) ∧
    (∀ h hi rm d a b, Faults (.scl h hi rm d a b) h (fun e n =>
      let sc := element 16 (if hi then 1 else 0) (e.w n 2 b)
      match scClass sc with | .bad => some ⟨.badscale, b.code, BitVec.ofNat 32 sc⟩ | _ => none)))

/-- R127 step 4, R128, R366, R368, R265: a trap kills the team, and records the cause, when the team has no handler, when
the thread is already in it, when the stack has no room for the frames, and when the handler is no ENTRY header. Every
thread of a killed team has exited and its frontier is empty. -/
def Obligations.TrapKills : Prop :=
  ∀ (s : State) (id gix n : Nat) (f : PendFault) (pc : DWord) (loops : List LoopEntry) (t : Team) (th : Thread), s.team? id = some t → t.thread? gix n = some th → t.killed = none → th.exited = false →
    let u := s.trapEnter id gix n f pc loops
    let killedFor (c : Cause) : Prop := ∃ t', u.team? id = some t' ∧ t'.killed = some c ∧ t'.frontier = [] ∧
      (∀ p ∈ t'.all, p.2.2.exited = true ∧ p.2.2.place = .gone)
    (t.handler = 0 → killedFor f.cause) ∧
    (t.handler ≠ 0 → th.intrap = true → killedFor f.cause) ∧
    (t.handler ≠ 0 → th.intrap = false → t.stackSize < Config.frameArea → killedFor .frameovf) ∧
    (t.handler ≠ 0 → th.intrap = false → Config.frameArea ≤ t.stackSize → s.entryOk t.ctx t.handler.toNat = false → killedFor .badtarget)

/-- R131, R367: rfe of a thread in its handler resumes it at TRAPPC with the loop stack and T registers of its frame,
and INTRAP clear; outside the handler it raises ILLOP. -/
def Obligations.RfeReturns : Prop :=
  (∀ h s e, env? s = some e → e.ready (.rfe h) = true → e.calm (.rfe h) h = true → s.settled = true → e.sound = true →
    (∀ n ∈ e.live (.rfe h) h, ∀ th, e.thread n = some th → th.intrap = true ∧
      th.trappc.toNat / 2 ^ 52 = 0 ∧ th.trappc.toNat % 8 = 0 ∧
      (hdrOk (s.codeAt e.team.ctx (pcAddr th.trappc)) = true → pcIdx th.trappc ≤ hdrCnt (s.codeAt e.team.ctx (pcAddr th.trappc))) ∧
      128 ≤ (e.g.stack.read (frameOff e.team.stackSize n + 0x17)).toNat ∧
      (e.g.stack.read (frameOff e.team.stackSize n + 0x14)).toNat % 8 ≤ 4) →
    ∃ t, exec (.rfe h) s = .next t ∧ ∀ n ∈ e.live (.rfe h) h, ∀ th0, e.thread n = some th0 →
      ∃ th, t.thread? e.team.id e.g.gix n = some th ∧ th.pc = th0.trappc ∧ th.intrap = false ∧ th.current = false ∧
        th.loops = loopsAt (e.g.stack.readN (frameOff e.team.stackSize n) 192) 0x20
          ((e.g.stack.read (frameOff e.team.stackSize n + 0x14)).toNat % 8) ∧
        (∀ k, k < 16 → th.t.read k = wordAt (e.g.stack.readN (frameOff e.team.stackSize n) 192) (0x80 + 4 * k)) ∧
        th.v = th0.v ∧ th.p = th0.p) ∧
  (∀ h, Faults (.rfe h) h (fun e n => match e.thread n with
    | some th => if th.intrap then none else some ⟨.illop, 0x7FF, e.insWord⟩
    | none => none))

/-- R27, R117, R132: exit takes each live thread out for good: EXITED, nowhere in the frontier, no loops, no meeting.
yield falls through into an ENTRY clause and defers the thread; another clause raises BADTARGET. Either leaves registers,
predicates, flags and memory as they are. -/
def Obligations.ExitAndYield : Prop :=
  (
    ∀ h s e, env? s = some e → e.ready (.exit h) = true → e.sound = true →
      ∃ t, exec (.exit h) s = .next t ∧ ∀ n ∈ e.live (.exit h) h, ∃ th, t.thread? e.team.id e.g.gix n = some th ∧
        th.exited = true ∧ th.place = .gone ∧ th.loops = [] ∧ th.mr = mrNone ∧ th.wait = none) ∧ (
    (∀ h s e, env? s = some e → e.ready (.yield h) = true → e.calm (.yield h) h = true → s.settled = true → e.sound = true →
      (∀ n ∈ e.live (.yield h) h, (e.cont (e.loops n)).ends = true) →
      ∃ t, exec (.yield h) s = .next t ∧ ∀ n ∈ e.live (.yield h) h, Stands e t n (e.cont (e.loops n)) ∧
        ∃ th, t.thread? e.team.id e.g.gix n = some th ∧ th.deferred = true) ∧
    (∀ h, Faults (.yield h) h (fun e n => if (e.cont (e.loops n)).ends then none
      else some ⟨.badtarget, 0x7FF, BitVec.ofNat 32 (pcAddr (e.cont (e.loops n)).pc)⟩)) ∧
    ∀ h, Keeps (.exit h) h [] ∧ Keeps (.yield h) h [])

/-- R119, R120: meet sets MR to the target and falls through, and a thread that has not arrived at its meeting point keeps
its MR; a target that is no ENTRY header raises BADTARGET. A meeting is released, and every member's MR becomes all ones,
exactly when all members that have not exited are held at the entry for it; that a member parked by a wait in that entry
counts as held is the model's choice (log entry 42). meet leaves registers, predicates, flags and memory as they are. -/
def Obligations.Meetings : Prop :=
  (
    (∀ h off, Goes (.meet h off) h
      (fun e n => if e.s.entryOk e.team.ctx ((e.hdrAddr : Int) + 8 * off.toInt) then some (e.cont (e.loops n)) else none)) ∧
    (∀ h off s e, let tgt := (e.hdrAddr : Int) + 8 * off.toInt
      env? s = some e → e.ready (.meet h off) = true → e.calm (.meet h off) h = true → s.settled = true → e.sound = true →
      s.entryOk e.team.ctx tgt = true →
      ∃ t, exec (.meet h off) s = .next t ∧ ∀ n ∈ e.live (.meet h off) h,
        ((e.cont (e.loops n)).ends = false ∨ (e.cont (e.loops n)).pc ≠ mkPc tgt.toNat 0) →
        ∃ th, t.thread? e.team.id e.g.gix n = some th ∧ th.mr = mkPc tgt.toNat 0) ∧
    (∀ h off, Faults (.meet h off) h
      (fun e _ => let t := (e.hdrAddr : Int) + 8 * off.toInt
        if e.s.entryOk e.team.ctx t then none else some ⟨.badtarget, 0x7FF, BitVec.ofInt 32 t⟩)) ∧
    (∀ h off, Keeps (.meet h off) h [])) ∧ (
    ∀ (t : Team) (gix : Nat) (v : DWord) (g : Group), t.group? gix = some g → v ≠ mrNone →
      let member (th : Thread) : Prop := th.mr = v ∧ th.exited = false
      ((∃ th ∈ g.threads, member th) → (∀ th ∈ g.threads, member th → t.isHeld th = true) →
        ∃ g' : Group, (t.meetCheck gix v).group? gix = some g' ∧ ∀ (n : Nat) (th : Thread), g.threads[n]? = some th →
          ∃ th', g'.threads[n]? = some th' ∧ (member th → th'.mr = mrNone) ∧ (¬member th → th' = th)) ∧
      ((∃ th ∈ g.threads, member th ∧ t.isHeld th = false) → t.meetCheck gix v = t))

/-- R42, R43, R135, R136: mts writes the view named from the highest live thread that is no helper (MODE, NFLAGS, CHKSB, ROLE,
ACCSTAT; a flag that a completing instruction set in the same cycle stays set) or from each of them (TRAPPC, TRAPINFO in a
handler); elsewhere TRAPPC and TRAPINFO raise ILLOP, for a helper too, which is the model's choice (log entry 50). A read of
CLOCK.LO gives the low half of a count within 4 of the cycle of the thread's pass, and leaves its high half in the thread's
shadow (R44). -/
def Obligations.SystemMoves : Prop :=
  (∀ h sr a s e n, env? s = some e → e.ready (.mts h sr a) = true → e.calm (.mts h sr a) h = true → s.settled = true → WellFormed (.mts h sr a) →
    n ∈ e.live (.mts h sr a) h → e.helper n = false → (∀ m ∈ e.live (.mts h sr a) h, e.helper m = false → m ≤ n) →
    ∃ t, exec (.mts h sr a) s = .next t ∧
      (sr = .mode → (t.group? e.team.id e.g.gix).map Group.ftz = some ((e.w n 1 a).getLsbD 0)) ∧
      (sr = .nflags → t.flagsOf e.team.id e.g.gix = some ((e.w n 1 a).setWidth 6 ||| e.g.lateFlags (e.passCycle n))) ∧
      (sr = .chksb → (t.group? e.team.id e.g.gix).map Group.chksb = some ((e.w n 1 a).getLsbD 0)) ∧
      (sr = .role → (t.group? e.team.id e.g.gix).map Group.role = some ((e.w n 1 a).setWidth 3)) ∧
      (sr = .accstat → ∀ m, s.matctxOf e.team = some m → (t.matctxOf e.team).map MatCtx.flags = some ((e.w n 1 a).setWidth 3 ||| m.lateFlags (e.passCycle n)))) ∧
  (∀ h sr a s e, env? s = some e → e.ready (.mts h sr a) = true → e.calm (.mts h sr a) h = true → s.settled = true → WellFormed (.mts h sr a) →
    (∀ n ∈ e.live (.mts h sr a) h, ∀ th, e.thread n = some th → th.intrap = true) →
    ∃ t, exec (.mts h sr a) s = .next t ∧ ∀ n ∈ e.live (.mts h sr a) h, e.helper n = false → ∀ th0, e.thread n = some th0 →
      ∃ th, t.thread? e.team.id e.g.gix n = some th ∧
        (sr = .trappcLo → loWord th.trappc = e.w n 1 a ∧ hiWord th.trappc = hiWord th0.trappc) ∧
        (sr = .trappcHi → hiWord th.trappc = e.w n 1 a ∧ loWord th.trappc = loWord th0.trappc) ∧
        (sr = .trapinfoLo → loWord th.trapinfo = e.w n 1 a ∧ hiWord th.trapinfo = hiWord th0.trapinfo) ∧
        (sr = .trapinfoHi → hiWord th.trapinfo = e.w n 1 a &&& 0x7FF ∧ loWord th.trapinfo = loWord th0.trapinfo)) ∧
  (∀ h sr a, Faults (.mts h sr a) h (fun e n => match e.thread n with
    | some th => if (sr = .trappcLo ∨ sr = .trappcHi ∨ sr = .trapinfoLo ∨ sr = .trapinfoHi) ∧ th.intrap = false
        then some ⟨.illop, 0x7FF, e.insWord⟩ else none
    | none => none)) ∧
  (∀ h d s e, env? s = some e → e.ready (.mfs h d .clockLo) = true → WellFormed (.mfs h d .clockLo) →
    ∃ t, exec (.mfs h d .clockLo) s = .next t ∧ ∀ n ∈ e.live (.mfs h d .clockLo) h,
      let cycle := e.fp + e.act.idxOf n / 4
      ∃ c, cycle ≤ c + 4 ∧ c ≤ cycle + 4 ∧ (t.thread? e.team.id e.g.gix n).map Thread.clkHi = some (hiWord (BitVec.ofNat 64 c)) ∧
        ∀ k, d = .v k → t.regOf e.team.id e.g.gix n k.val = some (loWord (BitVec.ofNat 64 c)))


/-! ### Synchronisation words -/

/-- R192 to R195, R198, R199: an arrival at a barrier word in which COUNT is below EXPECT and NEXT does not exceed it gives
the word after it and the token, or BARAHEAD; an EXPECT of 0 or above 8,192 is BARINIT. Where the live threads that are
no helpers name one place, bar.init, bar.arrive, arr.init and arr.add act on its word one thread at a time, in ascending
thread index; a bar.arrive that succeeds leaves its token to be written to D. R191, R285, R287, R289: a fence that has no
earlier operation of its threads to wait for falls through, and changes no register, predicate, flag or memory. After one that
acquires, the reads of each of its threads must find every write that is no later than what the thread has read before and whose
writer shares a scope with it that the fence covers. One that releases stands after the stores of its threads that are still to
be performed; an agent that knows a later write of the releasing group, or one after that in its unit, and acquires at a scope
that holds both awaits them, or must find them made if they have been performed since. An acquire also brings how far the makers
of the writes that it reaches had acquired (R296). A read of a span makes its agents know what they found there, so that no later read of theirs misses
it. That a fence acquires as far as its thread's latest read, and that a release of a scope below the device's leaves its stores
to be performed later, is the model's choice (log entry 11). -/
def Obligations.SyncWords : Prop :=
  (
    ∀ (b : Bar) (tok : Word),
      let token (p : Nat) : Word := BitVec.ofNat 32 (0x80000000 + p % 65536)
      let delta := if tok.getLsbD 31 then (tok.toNat % 65536 + 65536 - b.phase) % 65536 else 0x8000
      ((b.expect = 0 ∨ 8192 < b.expect) → b.arrive tok = .error .barinit) ∧
      (1 ≤ b.expect → b.expect ≤ 8192 → b.count < b.expect → b.next ≤ b.expect → b.phase < 65536 →
        (0x8000 ≤ delta → b.count + 1 < b.expect → b.arrive tok = .ok ({ b with count := b.count + 1 }, token b.phase)) ∧
        (0x8000 ≤ delta → b.count + 1 = b.expect → b.next < b.expect →
          b.arrive tok = .ok ({ b with phase := (b.phase + 1) % 65536, count := b.next, next := 0 }, token b.phase)) ∧
        (0x8000 ≤ delta → b.count + 1 = b.expect → b.next = b.expect →
          b.arrive tok = .ok ({ b with phase := (b.phase + 2) % 65536, count := 0, next := 0 }, token b.phase)) ∧
        (delta = 0 → b.next < b.expect → b.arrive tok = .ok ({ b with next := b.next + 1 }, token (b.phase + 1))) ∧
        (delta = 0 → b.next = b.expect → b.arrive tok = .error .barahead) ∧
        (0 < delta → delta < 0x8000 → b.arrive tok = .error .barahead))) ∧ (
    let one (i : Instr) (h : Hdr) (e : Env) (x : Acc) (l : Loc) : Prop := ∀ n ∈ e.live i h, e.helper n = false → e.access e.s x n = .ok l
    let act (i : Instr) (h : Hdr) (e : Env) : List Nat := (e.live i h).filter (fun n => !(e.helper n))
    (∀ h a off d s e l, let i := Instr.barInit h a off d
      env? s = some e → e.ready i = true → WellFormed i → one i h e ⟨.c, a, off, 8, 8, 8, .plain⟩ l →
      ∃ t, exec i s = .next t ∧ t.locNat l 8 = (act i h e).foldl (fun w n =>
        let v := (e.w n 0 d).toNat
        if 1 ≤ v ∧ v ≤ 8192 then (w / 2 ^ 32 % 2 ^ 16 + 1) % 2 ^ 16 * 2 ^ 32 + v else w) (s.locNat l 8)) ∧
    (∀ h d a off sb s e l, let i := Instr.barArrive h d a off sb
      let next (w n : Nat) : Nat := match (Bar.of w).arrive (e.w n 0 d) with | .ok p => p.1.word | .error _ => w
      env? s = some e → e.ready i = true → WellFormed i → one i h e ⟨.c, a, off, 8, 8, 8, .plain⟩ l →
      (∃ t, exec i s = .next t ∧ t.locNat l 8 = (act i h e).foldl next (s.locNat l 8)) ∧
      (e.calm i h = true → s.settled = true →
        ∃ t g op, exec i s = .next t ∧ t.group? e.team.id e.g.gix = some g ∧ op ∈ g.ops ∧ op.slot = sb.val ∧ op.kind = .atomic ∧
          ∀ n ∈ act i h e, isTCode d.code.toNat = false →
            ∀ p, (Bar.of (((act i h e).takeWhile (fun m => m != n)).foldl next (s.locNat l 8))).arrive (e.w n 0 d) = .ok p →
              (n, d.code.toNat, p.2) ∈ op.writes)) ∧
    (∀ h a off d s e dd x, let i := Instr.arrInit h a off d
      env? s = some e → e.ready i = true → WellFormed i → one i h e ⟨.s, a, off, 16, 16, 16, .plain⟩ (.die dd x) →
      ∃ t, exec i s = .next t ∧ t.arrAt dd x = (act i h e).foldl (fun w n => ⟨e.w n 0 d, 0, w.gen, 0⟩) (s.arrAt dd x)) ∧
    (∀ h a off d s e dd x, let i := Instr.arrAdd h a off d
      env? s = some e → e.ready i = true → WellFormed i → one i h e ⟨.s, a, off, 16, 16, 16, .plain⟩ (.die dd x) →
      ∃ t, exec i s = .next t ∧ t.arrAt dd x = (act i h e).foldl (fun w n =>
        let c := w.count.toNat + (e.w n 0 d).toNat
        if w.target = 0 then { w with count := BitVec.ofNat 32 c }
        else { w with count := BitVec.ofNat 32 (c % w.target.toNat), gen := BitVec.ofNat 32 (w.gen.toNat + c / w.target.toNat) }) (s.arrAt dd x))) ∧
  (∀ h k sc, Goes (.fence h k sc) h (fun e n => some (e.cont (e.loops n))) ∧ Keeps (.fence h k sc) h []) ∧
  (∀ h k sc s e, let i := Instr.fence h k sc
    env? s = some e → e.ready i = true → WellFormed i → e.live i h ≠ [] →
    ∃ t, exec i s = .next t ∧
      (k ≠ .acq → ∀ x ∈ t.late, x.by_ = e.author → (∃ c ∈ x.parts, c.1 ∈ e.live i h) →
        ⟨e.author, sc, s.writes, none, decide (k = .full)⟩ ∈ x.rels) ∧
      (k ≠ .rel → ∀ n ∈ e.live i h, ∀ w ∈ t.olds, w.no ≤ s.writes → w.no ≤ (s.sightOf e.team.id (e.tit n)).seen →
        scopeRank (match w.by_ with | some b => b.shared e.author | none => .dev) ≤ scopeRank sc →
        w.must (t.reader e.author [n]) = true)) ∧
  (let met (s : State) (b : Author) (g : Agent) (sc : Scope) (rels : List Release) : Prop :=
     ∃ r ∈ rels, scopeRank (r.by_.shared b) ≤ scopeRank r.scope ∧ scopeRank (r.by_.shared b) ≤ scopeRank sc ∧ r.place = none ∧
       ∃ v ∈ s.olds, ∃ w ∈ s.olds, v.by_ = some r.by_ ∧ r.at_ < v.no ∧ v.no ≤ w.no ∧ v.mem = w.mem ∧
         (∃ c ∈ v.cells, ∃ d ∈ w.cells, c.1 / 64 = d.1 / 64) ∧ g ∈ w.known
   (∀ (s : State) (b : Author) (g : Agent) (sc : Scope) (p : Nat) (x : LateStore), x ∈ s.late → met s b g sc x.rels →
     ∃ y ∈ (s.acquire b [g] sc p false).late, y.parts = x.parts ∧ (g, sc) ∈ y.awaits) ∧
   (∀ (s : State) (b : Author) (g : Agent) (sc : Scope) (p : Nat) (x : Old), x ∈ s.olds → met s b g sc x.rels →
     x.no ≤ ((s.acquire b [g] sc p false).sight g).at_ sc)) ∧
  (∀ (s : State) (b : Author) (g : Agent) (sc : Scope) (p : Nat) (w : Old), w ∈ s.olds → w.no ≤ p → scopeRank (w.shared b) ≤ scopeRank sc →
    let x := (s.acquire b [g] sc p false).sight g
    w.no ≤ x.at_ sc ∧ ∀ k, w.carry.at_ k ≤ x.at_ k) ∧
  (∀ (s : State) (ag : List Agent) (m : Mem) (a n p : Nat) (g : Agent) (r : Reader), g ∈ ag → g ∈ r.agents →
    ∀ w ∈ (s.learn ag m a n p).olds, w.touches m a n = true → w.no ≤ p → w.must r = true)

/-- R80, R196, R200: a wait whose condition holds goes on into the next clause, an ENTRY clause; otherwise the thread
stands there parked on the word, with the PC and loop stack of the wait kept. -/
def Obligations.Waits : Prop :=
  let entry (e : Env) (n : Nat) : Prop := e.s.entryOk e.team.ctx (pcAddr (e.cont (e.loops n)).pc) = true
  let parks (e : Env) (t : State) (n : Nat) (w : Wait) : Prop :=
    ∃ th, t.thread? e.team.id e.g.gix n = some th ∧ th.pc = (e.cont (e.loops n)).pc ∧ th.loops = (e.cont (e.loops n)).loops ∧
      th.current = false ∧ th.wait = some w
  (∀ h a off d s e, let i := Instr.barWait h a off d
    let x : Acc := ⟨.c, a, off, 8, 8, 8, .plain⟩
    env? s = some e → e.ready i = true → e.calm i h = true → s.settled = true → e.sound = true → WellFormed i →
    (∀ n ∈ e.live i h, entry e n ∧ ∃ tm o u, e.access s x n = .ok (.sh tm o) ∧ s.team? tm = some u ∧ u.killed = none) →
    ∃ t, exec i s = .next t ∧ ∀ n ∈ e.live i h, ∀ tm o, e.access s x n = .ok (.sh tm o) →
      let tok := e.w n 0 d
      let past := (s.locNat (.sh tm o) 8 / 2 ^ 32 % 2 ^ 16 + 2 ^ 16 - tok.toNat % 2 ^ 16) % 2 ^ 16
      if tok.getLsbD 31 = false ∨ (1 ≤ past ∧ past ≤ 0x7FFF) then Stands e t n { e.cont (e.loops n) with ends := true }
      else ∀ th, e.thread n = some th →
        parks e t n ⟨e.pc, a.code, .bar tm o (tok.setWidth 16) (BitVec.ofInt 32 ((e.w n 1 a).toNat + off.toInt * 8)), th.loops, th.tdef⟩) ∧
  (∀ h a off d s e, let i := Instr.arrWait h a off d
    let x : Acc := ⟨.s, a, off, 16, 16, 16, .plain⟩
    env? s = some e → e.ready i = true → e.calm i h = true → s.settled = true → e.sound = true → WellFormed i →
    (∀ n ∈ e.live i h, entry e n ∧ ∃ dd p, e.access s x n = .ok (.die dd p) ∧ (s.arrAt dd p).fault = false) →
    ∃ t, exec i s = .next t ∧ ∀ n ∈ e.live i h, ∀ dd p, e.access s x n = .ok (.die dd p) →
      let past := ((s.arrAt dd p).gen - e.w n 0 d).toNat
      if 1 ≤ past ∧ past ≤ 2 ^ 31 - 1 then Stands e t n { e.cont (e.loops n) with ends := true }
      else ∀ th, e.thread n = some th → parks e t n ⟨e.pc, a.code, .arr p (e.w n 0 d), th.loops, th.tdef⟩)

/-- R178, R181, R182, R190, R196, R199: an access that faults traps its thread at the instruction; so do a bar.init whose
count is out of range (BARINIT) and an arr.wait on a word with FAULT set (COPYFAULT). ldu faults for every live thread. -/
def Obligations.MemoryFaults : Prop :=
  let at_ (x : Acc) (e : Env) (n : Nat) : Option PendFault := match e.access e.s x n with | .error f => some f | .ok _ => none
  let pl (sp : Space) (a : Opnd) (off : BitVec 12) (k : Nat) (w : Want) : Acc := ⟨sp, a, off, k, k, k, w⟩
  (∀ h sz sx ord d a off sb,
    Faults (.ldS h sz sx ord d a off sb) h (at_ (pl .s a off sz.bytes .any)) ∧
    Faults (.ldH h sz sx ord d a off sb) h (at_ (pl .h a off sz.bytes .plain)) ∧
    Faults (.ldK h sz sx d a off sb) h (at_ (pl .k a off sz.bytes .plain)) ∧
    Faults (.ldC h sz sx ord d a off sb) h (at_ (pl .c a off sz.bytes .plain)) ∧
    Faults (.ldu h sz ord d a off sb) h (fun e _ => at_ (pl .s a off sz.bytes .any) e 32) ∧
    Faults (.arrRead h d a off sb) h (at_ (pl .s a off 16 .plain))) ∧
  (∀ h w d a off sb, Faults (.ldt h w d a off sb) h (at_ ⟨.s, a, off, 16, 8 * 2 ^ w.val, 8 * 2 ^ w.val, .any⟩)) ∧
  (∀ h sz ord a off d,
    FaultsQuiet (.stS h sz ord a off d) h (at_ (pl .s a off sz.bytes .plain)) ∧
    FaultsQuiet (.stH h sz ord a off d) h (at_ (pl .h a off sz.bytes .plain)) ∧
    FaultsQuiet (.stK h sz a off d) h (at_ (pl .k a off sz.bytes .plain)) ∧
    FaultsQuiet (.stC h sz ord a off d) h (at_ (pl .c a off sz.bytes .plain))) ∧
  (∀ h op wide ordf a off d sb,
    FaultsQuiet (.atomS h op wide ordf a off d sb) h (at_ (pl .s a off (4 * wideRegs wide) .plain)) ∧
    FaultsQuiet (.atomH h op wide ordf a off d sb) h (at_ (pl .h a off (4 * wideRegs wide) .plain)) ∧
    FaultsQuiet (.atomC h op wide ordf a off d sb) h (at_ (pl .c a off (4 * wideRegs wide) .plain)) ∧
    FaultsQuiet (.redS h op wide ordf a off d) h (at_ (pl .s a off (4 * wideRegs wide) .plain)) ∧
    FaultsQuiet (.redH h op wide ordf a off d) h (at_ (pl .h a off (4 * wideRegs wide) .plain)) ∧
    FaultsQuiet (.redC h op wide ordf a off d) h (at_ (pl .c a off (4 * wideRegs wide) .plain)) ∧
    ∀ sp, FaultsQuiet (.cas h sp wide ordf a off d sb) h
      (at_ (pl (match sp with | .s => .s | .h => .h | .c => .c) a off (4 * wideRegs wide) .plain))) ∧
  (∀ h a off d sb,
    FaultsQuiet (.barInit h a off d) h (fun e n =>
      match e.access e.s (pl .c a off 8 .plain) n with
      | .error f => some f
      | .ok _ => if e.helper n = false ∧ ((e.w n 0 d).toNat = 0 ∨ 8192 < (e.w n 0 d).toNat)
          then some ⟨.barinit, d.code, BitVec.ofInt 32 ((e.w n 1 a).toNat + off.toInt * 8)⟩ else none) ∧
    FaultsQuiet (.barArrive h d a off sb) h (at_ (pl .c a off 8 .plain)) ∧
    Faults (.barWait h a off d) h (at_ (pl .c a off 8 .plain)) ∧
    FaultsQuiet (.arrInit h a off d) h (at_ (pl .s a off 16 .plain)) ∧
    FaultsQuiet (.arrAdd h a off d) h (at_ (pl .s a off 16 .plain)) ∧
    Faults (.arrWait h a off d) h (fun e n =>
      match e.access e.s (pl .s a off 16 .plain) n with
      | .error f => some f
      | .ok (.die dd p) => if (e.s.arrAt dd p).fault then some ⟨.copyfault, 0x7FF, BitVec.ofNat 32 p⟩ else none
      | .ok _ => none))

/-! ### The Sieve and clause boundaries -/

/-- R257, R258, R132: while CURVEC is empty a selection takes, of the entries with an eligible thread, the lowest address
among those of AGE 63, or else the lowest of all; its eligible threads become CURVEC, CURADDR its address, and the other
candidates age. Deferred threads count only when no other thread is eligible. With no candidate the deadlock rule clears
the MR of every held thread. A selected group issues no earlier than two cycles after the selection, which falls after the last
pass of every group of the team. -/
def Obligations.Selection : Prop :=
  ∀ (s : State) (id : Nat) (t : Team), s.team? id = some t → t.runs = true → t.curEmpty = true →
    let d : Bool := (t.candidates false).isEmpty && t.anyDeferred
    let cand := t.candidates d
    ∃ s' t', exec (.select id) s = .next s' ∧ s'.team? id = some t' ∧
      (cand ≠ [] → ∃ sel ∈ cand, t'.curaddr = sel.addr ∧
        (if cand.any (fun f => f.age == 63) then sel.age = 63 ∧ ∀ f ∈ cand, f.age = 63 → pcKey sel.addr ≤ pcKey f.addr
          else ∀ f ∈ cand, pcKey sel.addr ≤ pcKey f.addr) ∧
        (∀ f ∈ cand, f.slot ≠ sel.slot → ∃ f' ∈ t'.frontier, f'.slot = f.slot ∧ f'.addr = f.addr ∧ f'.age = min (f.age + 1) 63) ∧
        (∀ gix n th, t.thread? gix n = some th → ∃ th', t'.thread? gix n = some th' ∧
          th'.current = (decide (th.place = .entry sel.slot) && t.eligibleIn d th) ∧ th'.deferred = false) ∧
        (∀ g ∈ t'.groups, g.threads.any Thread.current = true → s.clock + 3 ≤ g.nextIssue ∧ ∀ k ∈ t.groups, k.lastPass + 3 ≤ g.nextIssue)) ∧
      (cand = [] → ∀ gix n th, t.thread? gix n = some th → t.isHeld th = true → ∃ th', t'.thread? gix n = some th' ∧ th'.mr = mrNone)

/-- R226, R239, R260, R264: the faults that fall at a clause boundary trap their threads at the clause: BADSCALE and
CALLFAULT of a thread that has one to raise, CVSTATE of a group stalled on a set that none of its missing threads can
sign; a team whose budget is spent is killed with TIMEOUT when an instruction of it would begin, and not before. That CVSTATE
names the lowest of several such sets is the model's choice (log entry 17). -/
def Obligations.ClauseFaults : Prop :=
  (∀ (s : State) (id gix n : Nat) (e : Env), envOf s id gix = some e → e.team.runs = true → e.clauseBegin = true → hdrOk e.hdr = true → e.sbWaits = false →
    e.cvWaits.find? e.team.cvStuck = some n → e.canTrap = true →
    ∃ t, exec (.cvstateStall id gix) s = .next t ∧ ∀ k ∈ e.act, Trapped e t k ⟨.cvstate, 0x7FF, BitVec.ofNat 32 n⟩ e.pc) ∧
  (∀ (s : State) (id gix n : Nat) (e : Env) (th : Thread) (f : PendFault), envOf s id gix = some e → e.team.runs = true → e.clauseBegin = true →
    pcIdx e.pc = 0 → n ∈ e.act → e.thread n = some th → e.canTrap = true →
    (th.faults.find? (fun f => f.cause == .badscale) = some f → ∃ t, exec (.badscale id gix n) s = .next t ∧
      Trapped e t n f e.pc ∧ (t.thread? id gix n).map Thread.faults = some (th.faults.erase f)) ∧
    (th.faults.find? (fun f => f.cause == .callfault) = some f → ∃ t, exec (.callfault id gix n) s = .next t ∧
      Trapped e t n f e.pc ∧ (t.thread? id gix n).map Thread.faults = some (th.faults.erase f))) ∧
  (∀ (s : State) (id : Nat) (t : Team), s.team? id = some t →
    (∀ g ∈ t.groups, ∀ e i, envOf s id g.gix = some e → nextOf s id g.gix = some i → e.spent = false ∨ e.begins i = false) →
    exec (.timeout id) s = .next s) ∧
  (∀ (s : State) (id : Nat) (t : Team) (g : Group) (e : Env) (i : Instr), s.team? id = some t → g ∈ t.groups → envOf s id g.gix = some e →
    nextOf s id g.gix = some i → t.budgeted = true → t.budget = 0 → e.g.held = false → e.begins i = true →
    ∃ s' t', exec (.timeout id) s = .next s' ∧ s'.team? id = some t' ∧ t'.killed = some .timeout ∧ t'.frontier = [] ∧
      ∀ p ∈ t'.all, p.2.2.exited = true)

/-! ### Estimator memory -/

/-- R205 to R207, R211, R279: where every live thread's word is legal and lies in one core, or in a DET region, and the
unit has room, the contributions that pass R207 join its input buffer in ascending thread index, numbered in the order in
which they issue; a live thread that is no
helper and whose operands fail R207 raises NV. What counts as staged at that moment is the model's choice (log entry 60). -/
def Obligations.Contributions : Prop :=
  let est (i : Instr) (h : Hdr) (x : Acc) (batch : Bool) (v : Env → Nat → Word × Word × Word) (good : Word × Word × Word → Bool) : Prop :=
    ∀ s e det core, env? s = some e → e.ready i = true → WellFormed i →
      (∀ n ∈ e.live i h, ∃ addr r, e.estWord s x n = .ok (addr, r) ∧ r.det = det ∧ core = if det then e.team.core else spCore addr) →
      let own := (e.live i h).filterMap (fun n => match e.estWord s x n with
        | .ok (addr, r) => if e.helper n = false ∧ good (v e n) = true then some (n, addr, r.num) else none
        | .error _ => none)
      let cs := own.zipIdx.map (fun p => EstReq.contrib ⟨s.nextId + p.2, e.team.ctx, e.team.die, e.team.core, e.team.firstCore, e.team.teamid,
        32 * e.g.gix + p.1.1, p.1.2.1, p.1.2.2, batch, (v e p.1.1).1, (v e p.1.1).2.1, (v e p.1.1).2.2⟩)
      (s.estUnit e.team.die core).inbuf.length + cs.length ≤ Config.estBuf →
      (det = true → s.stagedCount e.team.die core + cs.length ≤ Config.estStage) →
      ∃ t f, exec i s = .next t ∧ (t.estUnit e.team.die core).inbuf = (s.estUnit e.team.die core).inbuf ++ cs ∧
        t.flagsOf e.team.id e.g.gix = some f ∧
        (∀ n ∈ e.live i h, e.helper n = false → good (v e n) = false → f &&& fNV = fNV)
  let sample (p : Word × Word × Word) : Bool := isPosFin p.1 && isFin p.2.1
  let count (p : Word × Word × Word) : Bool := p.1 != 0 && isFin p.2.1 && isNonneg p.2.2
  (∀ h a off d, est (.esamp h a off d) h ⟨.s, a, off, 16, 16, 16, .est⟩ false (fun e n => (0x3F800000, e.w n 0 d, 0)) sample) ∧
  (∀ h a off d, est (.esampW h a off d) h ⟨.s, a, off, 16, 16, 16, .est⟩ false (fun e n => (e.reg n 0 d 1, e.reg n 0 d 0, 0)) sample) ∧
  (∀ h a off d, est (.esampB h a off d) h ⟨.s, a, off, 16, 16, 16, .est⟩ true (fun e n => (e.reg n 0 d 0, e.reg n 0 d 1, e.reg n 0 d 2)) count)

/-- R30, R209, R279: eld claims its slot and enters one read for each live thread. R205, R206, R208, R211: the merge of the
oldest request of a unit: a sample or a batch reaches its word in the steps of the rule; one for a DET region of the
source core is staged; a read leaves the mean, the standard error and whether the word is empty with its operation; a
word that lags pushes a record to the region's task queue, once no pending push stands before it; a thread whose code block has
ended receives no T register. A poisoned word (R382) is
neither changed nor read. The region that a contribution is checked against, and that a queue of another die counts as full, is
the model's choice (log entry 60). -/
def Obligations.EstimatorMerges : Prop :=
  (∀ h d a off p sb s e core, let i := Instr.eld h d a off p sb
    let x : Acc := ⟨.s, a, off, 16, 16, 16, .est⟩
    env? s = some e → e.ready i = true → e.g.held = false → WellFormed i →
    (∀ n ∈ e.live i h, ∃ addr r, e.estWord s x n = .ok (addr, r) ∧ spCore addr = core) →
    (s.estUnit e.team.die core).inbuf.length + (e.live i h).length ≤ Config.estBuf →
    ∃ t g o, exec i s = .next t ∧ t.group? e.team.id e.g.gix = some g ∧ o ∈ g.ops ∧ o.slot = sb.val ∧ o.kind = .eld ∧
      o.need = (e.live i h).length ∧
      (t.estUnit e.team.die core).inbuf = (s.estUnit e.team.die core).inbuf ++ (e.live i h).filterMap (fun n =>
        match e.estWord s x n with
        | .ok (addr, _) => some (EstReq.read e.team.id e.g.gix sb.val n addr d.code.toNat p.val)
        | .error _ => none)) ∧
  (∀ (s : State) (die core : Nat) (c : Contrib) (l : List EstReq), (s.estUnit die core).inbuf = .contrib c :: l →
    let own : Bool := c.srcCore == core && (match s.region? die c.region with | some r => r.det && r.ctx == c.ctx | none => false)
    let w := s.eword c.die c.addr
    let full (n : Nat) : Nat := min (w.n + n) 0xFFFFF
    let sat (n : Nat) : Bool := w.sat || decide (0xFFFFF < w.n + n)
    let wb : Word := BitVec.ofNat 32 (finishFV ffF32 false .rne (intFV c.w.toNat, 0)).1
    let wn := estAdd w.w (if c.batch then wb else c.w)
    let dl := estSub c.x w.m
    let merged : EWord :=
      if c.batch then
        (if isZero w.w then ⟨wb, c.x, c.sb, full c.w.toNat, w.g, sat c.w.toNat, w.lag⟩
         else ⟨wn, estAdd w.m (estDiv (estMul dl wb) wn),
           estAdd (estAdd w.s c.sb) (estDiv (estMul (estMul (estMul dl dl) w.w) wb) wn), full c.w.toNat, w.g, sat c.w.toNat, w.lag⟩)
      else
        (if isZero w.w then ⟨c.w, c.x, 0, full 1, w.g, sat 1, w.lag⟩
         else
           let m := estAdd w.m (estDiv (estMul dl c.w) wn)
           ⟨wn, m, estAdd w.s (estMul (estMul c.w dl) (estSub c.x m)), full 1, w.g, sat 1, w.lag⟩)
    ∃ t, exec (.estimatorMerge die core) s = .next t ∧
      (own = true → t.estUnit die core = ⟨die, core, l, (s.estUnit die core).staged ++ [c]⟩ ∧ t.scratch = s.scratch) ∧
      (own = false → (t.estUnit die core).inbuf = l ∧ (s.isPoisoned c.die c.addr = true → t.scratch = s.scratch) ∧
        (s.isPoisoned c.die c.addr = false → (∀ r, s.region? c.die c.region = some r → r.ctx = c.ctx → merged.lags r = false) → t.eword c.die c.addr = merged) ∧
        (∀ r q, s.isPoisoned c.die c.addr = false → s.region? c.die c.region = some r → r.ctx = c.ctx → merged.lags r = true → s.taskqOn r.die r.ctx r.queue = some q →
          (∀ p ∈ s.pushes, ¬(p.ctx = q.ctx ∧ p.queue = q.num)) → 0 < s.room q → s.lineOk r.ctx q.die (q.line q.tail) = true →
          (t.taskq? r.ctx r.queue).map TaskQ.tail = some (q.tail + 1)))) ∧
  (∀ (s : State) (die core tm gix slot n addr d p : Nat) (l : List EstReq) (g : Group) (o : PendOp),
    (s.estUnit die core).inbuf = .read tm gix slot n addr d p :: l → s.group? tm gix = some g → o ∈ g.ops → o.slot = slot → o.kind = .eld →
    let w := s.eword die addr
    ∃ t g' o', exec (.estimatorMerge die core) s = .next t ∧ (t.estUnit die core).inbuf = l ∧ t.group? tm gix = some g' ∧ o' ∈ g'.ops ∧
      o'.slot = slot ∧ o'.need = o.need - 1 ∧ (s.isPoisoned die addr = true → o'.writes = o.writes ∧ o'.preds = o.preds) ∧
      (s.isPoisoned die addr = false → (n, p, isZero w.w) ∈ o'.preds ∧
        (isTCode d = true → n ∈ o.ended → o'.writes = o.writes) ∧
        ((isTCode d = false ∨ n ∉ o.ended) → (n, d, if isZero w.w then 0 else w.m) ∈ o'.writes ∧ (n, d + 1, stderr w.w w.s) ∈ o'.writes)))

/-- R203, R210 to R213, R279, R400: a region command that some live thread performs, once the group's own contributions have
been merged and its accumulator moves made: ereg registers the region its descriptor gives; edecay scales W and S of every word,
advances G and clears LAG; eclr clears every word and discards what is staged. Either acts on the first word as it begins and on
one word more, in ascending order, every two cycles, each in an action of its own that leaves every other word, and the threads
that issued it know what it wrote (R185, R400); its group issues nothing until it has acted on all. A poisoned word is left (R382). eflush leaves nothing of a DET region staged; it merges what
was staged for the first word as it begins and for each further word, in ascending order, in an action of its own. An ereg whose
number names a DET region flushes that one so and registers its own at the end. A number that is no region of the context raises
ESTREGION. That eflush takes what is staged as it begins is the model's choice (log entry 46), as are which of the group's
operations a command waits for (log entry 13) and that DROPPED is taken from before an old region's flush (log entry 47). -/
def Obligations.RegionCommands : Prop :=
  let begins (i : Instr) (h : Hdr) (s : State) (e : Env) : Prop :=
    env? s = some e ∧ e.ready i = true ∧ e.anyReal i h = true ∧ e.ownContribs = false ∧ WellFormed i
  let begun (t : State) (e : Env) (ts : List Nat) (r : Region) (f : Option Word) (act : EWord → EWord) : Prop :=
    (e.s.isPoisoned r.die r.base = false → t.eword r.die r.base = act (e.s.eword r.die r.base)) ∧
      (e.s.isPoisoned r.die r.base = false →
        ∃ w ∈ t.olds, w.touches (.die r.die) r.base 16 = true ∧ w.no = e.s.writes + 1 ∧ ∀ n ∈ ts, e.agent n ∈ w.known) ∧
      (∀ k, 0 < k → k < r.count → t.eword r.die (r.base + 16 * k) = e.s.eword r.die (r.base + 16 * k)) ∧
      (1 < r.count → ⟨e.author, ts.map e.agent, e.team.die, .scale f r.base r.count 1, e.fp + 2⟩ ∈ t.regionOps)
  let clear : EWord → EWord := fun _ => ⟨0, 0, 0, 0, 0, false, false⟩
  let decayed (f : Word) (w : EWord) : EWord := ⟨estMul w.w f, w.m, estMul w.s f, w.n, (w.g + 1) % 256, w.sat, false⟩
  let merged (s : State) (c : Contrib) : EWord := if c.batch then (s.eword c.die c.addr).batch c.w c.x c.sb else (s.eword c.die c.addr).sample c.w c.x
  let level (s : State) (c : Contrib) : Prop :=
    s.isPoisoned c.die c.addr = false ∧ ∀ r, s.region? c.die c.region = some r → r.ctx = c.ctx → (merged s c).lags r = false
  let gone (t : State) (r : Region) : Prop := ∀ u ∈ t.est, ∀ c ∈ u.staged, c.inRegion r = false
  let bad (i : Instr) (h : Hdr) (a : Opnd) : Prop := Faults i h (fun e _ =>
    if e.anyReal i h = true ∧ e.ownContribs = false ∧
        (∀ r, e.s.region? e.team.die (e.w 32 1 a).toNat = some r → r.ctx ≠ e.team.ctx)
      then some ⟨.estregion, a.code, e.w 32 1 a⟩ else none)
  (∀ h a d s e, let desc := (e.w 32 1 a).toNat
    let num := (e.w 32 0 d).toNat
    let bs := s.readLoc (.die e.team.die desc) 32
    let r : Region := ⟨e.team.die, num, e.team.ctx, desc, (wordAt bs 0).toNat, (wordAt bs 4).toNat, wordAt bs 8, wordAt bs 12,
      dwordAt bs 16, halfAt bs 24, (wordAt bs 24).getLsbD 16, wordAt bs 28⟩
    begins (.ereg h a d) h s e → desc % 32 = 0 → s.dieFault e.team.ctx e.team.die desc .any = none → num ≤ 63 →
    (∀ o, s.region? e.team.die num = some o → o.ctx = e.team.ctx) →
    s.sees (s.reader e.author (e.issuers (.ereg h a d) h)) (.die e.team.die desc) 32 = true →
    descOk bs = true → s.rangeOwned e.team.ctx e.team.die r.base (16 * r.count) = true → s.overlaps r = false →
    ∃ t, exec (.ereg h a d) s = .next t ∧
      ((∀ o, s.region? e.team.die num = some o → s.toMerge o = []) → t.region? e.team.die num = some r) ∧
      (∀ o c cs, s.region? e.team.die num = some o → s.toMerge o = c :: cs →
        let rest := cs.filter (fun x => x.addr != c.addr)
        (rest = [] → t.region? e.team.die num = some r) ∧
        (rest ≠ [] → ⟨e.author, (e.issuers (.ereg h a d) h).map e.agent, e.team.die, .merge rest (some r), e.fp + 2 * (cs.length + 1 - rest.length)⟩ ∈ t.regionOps))) ∧
  (∀ h a d s e r, let f := e.w 32 0 d
    begins (.edecay h a d) h s e → s.region? e.team.die (e.w 32 1 a).toNat = some r → r.ctx = e.team.ctx →
    f32Ge f 0 = true → f32Ge 0x3F800000 f = true →
    ∃ t, exec (.edecay h a d) s = .next t ∧ begun t e (e.issuers (.edecay h a d) h) r (some f) (decayed f)) ∧
  (∀ h a s e r, begins (.eflush h a) h s e → s.region? e.team.die (e.w 32 1 a).toNat = some r → r.ctx = e.team.ctx →
    ∃ t, exec (.eflush h a) s = .next t ∧ (r.det = false → t.scratch = s.scratch) ∧
      (r.det = true → gone t r ∧
        (∀ c, (s.est.flatMap (fun u => u.staged)).filter (fun c => c.inRegion r) = [c] → level s c → t.eword c.die c.addr = merged s c) ∧
        ∀ c cs, s.toMerge r = c :: cs →
          let rest := cs.filter (fun x => x.addr != c.addr)
          rest ≠ [] → ⟨e.author, (e.issuers (.eflush h a) h).map e.agent, e.team.die, .merge rest none, e.fp + 2 * (cs.length + 1 - rest.length)⟩ ∈ t.regionOps)) ∧
  (∀ h a s e r, begins (.eclr h a) h s e → s.region? e.team.die (e.w 32 1 a).toNat = some r → r.ctx = e.team.ctx →
    ∃ t, exec (.eclr h a) s = .next t ∧ gone t r ∧ begun t e (e.issuers (.eclr h a) h) r none clear) ∧
  (∀ s n l o f base count next, s.agenda = .tick n :: l → s.late = [] → s.regionOps = [o] → o.job = .scale f base count next → next < count →
    let k := if s.clock + n < o.due then 0 else min (count - next) ((s.clock + n - o.due) / 2 + 1)
    ∃ t, step s = .next t ∧
      (∀ j, j < k → s.isPoisoned o.die (base + 16 * (next + j)) = false →
        let w := s.eword o.die (base + 16 * (next + j))
        t.eword o.die (base + 16 * (next + j)) = match f with | some x => decayed x w | none => clear w) ∧
      (∀ a, (a < base + 16 * next ∨ base + 16 * (next + k) ≤ a) → t.scratch.read (dieKey o.die a) = s.scratch.read (dieKey o.die a)) ∧
      t.regionOps = if next + k = count then [] else [{ o with job := .scale f base count (next + k), due := o.due + 2 * k }]) ∧
  (∀ s n l o c reg, s.agenda = .tick n :: l → s.late = [] → s.regionOps = [o] → o.job = .merge [c] reg → o.due ≤ s.clock + n →
    ∃ t, step s = .next t ∧ t.regionOps = [] ∧ (level s c → t.eword c.die c.addr = merged s c) ∧
      ∀ r, reg = some r → t.region? r.die r.num = some r) ∧
  (∀ s n l o c c' reg, s.agenda = .tick n :: l → s.late = [] → s.regionOps = [o] → o.job = .merge [c, c'] reg → c'.addr ≠ c.addr →
    o.due ≤ s.clock + n → s.clock + n < o.due + 2 →
    ∃ t, step s = .next t ∧ t.regionOps = [{ o with job := .merge [c'] reg, due := o.due + 2 }] ∧
      (level s c → t.eword c.die c.addr = merged s c)) ∧
  (∀ s id gix e, envOf s id gix = some e → e.team.runs = true → e.clauseBegin = false → (∃ o ∈ s.regionOps, o.by_.team = id ∧ o.by_.gix = gix) →
    nextOf s id gix = none) ∧
  (∀ h a d, bad (.edecay h a d) h a ∧ bad (.eflush h a) h a ∧ bad (.eclr h a) h a)

/-! ### The matrix engine -/

/-- R221 to R223: xres gives the record its image, the lowest range of the team's budget that no other valid record meets,
and VALID, and fills the range with zero; xrel clears VALID; xsc writes SCOFF, PADK and PADN; xld leaves with its slot the
32 bytes of each live thread, as it reads them when it issues or, by R295, up to a delay later, which nothing fixes: those that
stand there, where the thread must find every write to them made, else those of a point of the view's history (the model's choice of
the delay and the point, log entry 11; nothing of a poisoned line, R382); XLD_COMPLETE places them. What fails a check of the rules raises
the fault named there; the order of an instruction's checks is the model's choice (log entry 13), as are 0x7FF as OPND of XBUSY for xrel (log entry 10)
and that a record which an issued step uses stalls the instruction before XBUSY (log entry 51). -/
def Obligations.Records : Prop :=
  let begins (i : Instr) (h : Hdr) (s : State) (e : Env) : Prop :=
    env? s = some e ∧ e.ready i = true ∧ e.anyReal i h = true ∧ WellFormed i ∧ e.team.x.length = 16
  let img (e : Env) (a : Opnd) : XRec := XRec.of (BitVec.ofNat 128 ((e.reg 32 1 a 0).toNat + (e.reg 32 1 a 1).toNat * 2 ^ 32 +
    (e.reg 32 1 a 2).toNat * 2 ^ 64 + (e.reg 32 1 a 3).toNat * 2 ^ 96))
  let xval (x : Fin 16) : Word := BitVec.ofNat 32 x.val
  let rescaled (e : Env) (x : Fin 16) (a b : Opnd) : XRec :=
    { e.team.xrec x.val with scoff := (e.w 32 1 a).toNat, padk := (e.w 32 2 b).toNat / 256, padn := (e.w 32 2 b).toNat % 256 }
  (∀ (t : Team) (x n b : Nat), t.findRange x n = some b →
    let meets (b : Nat) : Prop := ∃ k r, t.x[k]? = some r ∧ k ≠ x ∧ (XRec.of r).valid = true ∧ b < (XRec.of r).base + (XRec.of r).size ∧ (XRec.of r).base < b + n
    t.opBase ≤ b ∧ b + n ≤ t.opBase + t.opSize ∧ ¬meets b ∧ ∀ b', t.opBase ≤ b' → b' < b → meets b') ∧
  (∀ h x a s e b, begins (.xres h x a) h s e → e.recordInUse x.val = false → e.team.recordNamed x.val = false → (img e a).bad = false →
    e.team.findRange x.val (img e a).size = some b → b < 1024 →
    ∃ t tm, exec (.xres h x a) s = .next t ∧ t.team? e.team.id = some tm ∧ tm.xrec x.val = { img e a with base := b, valid := true } ∧
      ∀ j, j < 1024 * (img e a).size → tm.opbuf.read (1024 * b + j) = 0) ∧
  (∀ h x s e, begins (.xrel h x) h s e → e.recordInUse x.val = false → e.team.recordNamed x.val = false →
    ∃ t tm, exec (.xrel h x) s = .next t ∧ t.team? e.team.id = some tm ∧ (tm.xrec x.val).valid = false) ∧
  (∀ h x a b s e, begins (.xsc h x a b) h s e → e.recordInUse x.val = false → e.team.recordNamed x.val = false →
    (e.team.xrec x.val).valid = true → (e.w 32 2 b).toNat < 2 ^ 16 →
    (rescaled e x a b).bad = false →
    ∃ t tm, exec (.xsc h x a b) s = .next t ∧ t.team? e.team.id = some tm ∧ tm.xrec x.val = rescaled e x a b) ∧
  (∀ h sh x a b sb s e, let i := Instr.xld h sh x a b sb
    env? s = some e → e.ready i = true → WellFormed i →
    ∃ t g op, exec i s = .next t ∧ t.group? e.team.id e.g.gix = some g ∧ op ∈ g.ops ∧ op.slot = sb.val ∧ op.kind = .xld ∧ op.xrec = x.val ∧
      ∀ n ∈ e.live i h, e.helper n = false → ∀ l, (e.team.xrec x.val).valid = true →
        e.access s ⟨if sh then .h else .s, a, 0, 1, 32, 32, .any⟩ n = .ok l →
        (e.w n 2 b).toNat % 32 = 0 → (e.w n 2 b).toNat + 32 ≤ (e.team.xrec x.val).size * 1024 →
        n ≠ 32 → ∃ p, s.floorLoc (s.reader e.author [n]) l 32 ≤ p ∧
          ∀ j y, (s.readAt p l 32)[j]? = some y → ((e.team.xrec x.val).base * 1024 + (e.w n 2 b).toNat + j, y) ∈ op.xbytes) ∧
  (∀ (s : State) (r : Reader) (l : Loc) (k p : Nat), s.sees r l k = true → s.floorLoc r l k ≤ p → s.readAt p l k = s.readLoc l k) ∧
  (∀ s n l tm g o r h sh x a b sb, s.agenda = .tick n :: l → s.late = [] → s.regionOps = [] → s.team? tm.id = some tm → tm.group? g.gix = some g →
    o ∈ g.ops → o.reads = [r] → r.i = .xld h sh x a b sb → r.due ≤ s.clock + n →
    ∃ t g' o', step s = .next t ∧ t.group? tm.id g.gix = some g' ∧ o' ∈ g'.ops ∧ o'.slot = o.slot ∧ o'.reads = [] ∧
      o'.xbytes.map Prod.fst = o.xbytes.map Prod.fst ∧ (∀ p ∈ o.xbytes, (p.1 < r.off ∨ r.off + r.size ≤ p.1) → p ∈ o'.xbytes) ∧
      (s.badPlace r.loc = true → o'.xbytes = o.xbytes) ∧
      (s.badPlace r.loc = false → ∀ p ∈ o.xbytes, r.off ≤ p.1 → p.1 < r.off + r.size →
        ∀ y, (s.readAt (max r.floor (s.writes - r.age)) r.loc r.size)[p.1 - r.off]? = some y → (p.1, y) ∈ o'.xbytes)) ∧
  (∀ (s : State) (id gix slot : Nat) (tm : Team) (o : PendOp), s.team? id = some tm → s.opAt id gix slot = some o → o.kind = .xld →
    let r := tm.xrec o.xrec
    r.valid = true → (∀ p ∈ o.xbytes, 1024 * r.base ≤ p.1 ∧ p.1 < 1024 * (r.base + r.size)) → (o.xbytes.map Prod.fst).Nodup →
    ∃ t tm', exec (.xldComplete id gix slot) s = .next t ∧ t.team? id = some tm' ∧ t.opAt id gix slot = none ∧
      ∀ p ∈ o.xbytes, tm'.opbuf.read p.1 = p.2) ∧
  (∀ h x a, Faults (.xres h x a) h (fun e _ =>
    if e.anyReal (.xres h x a) h = false ∨ e.recordInUse x.val = true then none
    else if e.team.recordNamed x.val then some ⟨.xbusy, a.code, xval x⟩
    else if (img e a).bad then some ⟨.xrecord, a.code, xval x⟩
    else if e.team.findRange x.val (img e a).size = none then some ⟨.xspace, a.code, xval x⟩ else none)) ∧
  (∀ h x a b, Faults (.xsc h x a b) h (fun e _ =>
    if e.anyReal (.xsc h x a b) h = false then none
    else if (e.team.xrec x.val).valid = false then some ⟨.xinvalid, 0x7FF, xval x⟩
    else if e.recordInUse x.val then none
    else if e.team.recordNamed x.val then some ⟨.xbusy, a.code, xval x⟩
    else if 2 ^ 16 ≤ (e.w 32 2 b).toNat ∨ (rescaled e x a b).bad = true then some ⟨.xrecord, a.code, xval x⟩ else none)) ∧
  (∀ h x, Faults (.xrel h x) h (fun e _ =>
    if e.anyReal (.xrel h x) h = true ∧ (e.team.xrec x.val).valid = true ∧ e.recordInUse x.val = false ∧ e.team.recordNamed x.val = true
      then some ⟨.xbusy, 0x7FF, xval x⟩ else none)) ∧
  (∀ h sh x a b sb, Faults (.xld h sh x a b sb) h (fun e n =>
    if e.helper n = true then none
    else if (e.team.xrec x.val).valid = false then some ⟨.xinvalid, 0x7FF, xval x⟩
    else match e.access e.s ⟨if sh then .h else .s, a, 0, 1, 32, 32, .any⟩ n with
      | .error f => some f
      | .ok _ =>
        if (e.w n 2 b).toNat % 32 ≠ 0 ∨ (e.team.xrec x.val).size * 1024 < (e.w n 2 b).toNat + 32
          then some ⟨.xrange, b.code, BitVec.ofNat 32 (e.w n 2 b).toNat⟩ else none))

/-- R224, R225, R37: cvdecl writes the declared set from the live threads whose pa is true and clears the rest of the
register; a set of more than 32 threads, or a register whose first signature awaits its step, raises CVSTATE. mma signs
for each live thread; the step issues, and joins the pending list of the team's context, when every declared thread has
signed or exited; the list stays in the order of issue, steps of one cycle by ascending CV index. A thread outside the set, or that
has signed, or whose record is invalid or of another format, faults. That a cvdecl leaves the issued flag of every set clear, one of
exited threads alone among them, is the model's choice (log entry 57). -/
def Obligations.Convergence : Prop :=
  let decl (i : Instr) (h : Hdr) (add : Bool) (n : Fin 8) (pa : PSrc) : Prop :=
    let new (e : Env) (c : CvReg) (k : Nat) : Bool :=
      if k / 32 = e.g.gix then ((e.live i h).contains (k % 32) && e.psrc (k % 32) pa) || (add && c.declared.getLsbD k)
      else c.declared.getLsbD k
    (∀ s e c, env? s = some e → e.ready i = true → e.live i h ≠ [] → WellFormed i → e.g.gix < 32 → e.g.threads.length = 32 →
      e.team.cv[n.val]? = some c → c.waitsToBegin = false → (c.params && !c.issued) = false →
      ((List.range 1024).filter (new e c)).length ≤ 32 →
      ∃ t tm c', exec i s = .next t ∧ t.team? e.team.id = some tm ∧ tm.cv[n.val]? = some c' ∧ (∀ k, k < 1024 → c'.declared.getLsbD k = new e c k) ∧
        c'.signed = 0 ∧ c'.issued = false ∧ c'.done = false ∧ c'.params = false) ∧
    Faults i h (fun e _ => match e.team.cv[n.val]? with
      | some c =>
        if (c.params = true ∧ c.issued = false) ∨ (c.waitsToBegin = false ∧ e.g.gix < 32 ∧ e.g.threads.length = 32 ∧
            32 < ((List.range 1024).filter (new e c)).length) then some ⟨.cvstate, 0x7FF, BitVec.ofNat 32 n.val⟩ else none
      | none => none)
  let order (l : List MStep) : Prop := l.Pairwise (fun x y => x.cycle < y.cycle ∨ (x.cycle = y.cycle ∧ x.cv ≤ y.cv))
  let code (f : MFmt) : Nat := match f with | .bf16 => 0 | .f16 => 1 | .fn8 => 2 | .fw8 => 3 | .i8 => 4 | .fn4 => 5 | .i4 => 6
  (∀ h cv pa, decl (.cvdeclSet h cv pa) h false cv pa ∧ decl (.cvdeclAdd h cv pa) h true cv pa) ∧
  (∀ h fmt acc a x cv reuse s e c, let i := Instr.mma h fmt acc a x cv reuse
    env? s = some e → e.ready i = true → e.calm i h = true → s.settled = true → e.sound = true → WellFormed i → e.g.gix < 32 →
    e.g.threads.length = 32 → e.live i h ≠ [] → e.scaleFault a x.val = none →
    (e.team.xrec x.val).valid = true → (e.team.xrec x.val).fmt = code fmt →
    (if e.team.matctx = none then (s.freeMat e.team.die e.team.core).isSome else (s.matctxOf e.team).isSome) = true →
    e.team.cv[cv.val]? = some c → c.issued = false →
    (c.params = true → c.acc = acc.val ∧ c.xidx = x.val ∧ c.fmt = code fmt ∧ c.reuse = reuse ∧ c.acode = a.code.toNat) →
    (∀ k ∈ e.live i h, c.declared.getLsbD (32 * e.g.gix + k) = true ∧ c.signed.getLsbD (32 * e.g.gix + k) = false) →
    ∃ t tm c' m, exec i s = .next t ∧ t.team? e.team.id = some tm ∧ tm.cv[cv.val]? = some c' ∧ t.matctxOf tm = some m ∧
      (∀ k, k < 1024 → c'.signed.getLsbD k = (c.signed.getLsbD k || (k / 32 == e.g.gix && (e.live i h).contains (k % 32)))) ∧
      c'.declared = c.declared ∧ c'.params = true ∧ c'.acc = acc.val ∧ c'.xidx = x.val ∧ c'.fmt = code fmt ∧ c'.reuse = reuse ∧
      c'.acode = a.code.toNat ∧
      c'.issued = (declaredThreads c.declared).all (fun k => c'.signed.getLsbD k ||
        (match e.team.byTit k with | some th => th.exited | none => true)) ∧
      ((∀ o, s.matctxOf e.team = some o → order o.pending) → order m.pending) ∧
      (c'.issued = true → ∃ st ∈ m.pending, c'.step = some st.id ∧ st.cv = cv.val ∧ st.acc = acc.val ∧ st.xidx = x.val ∧ st.fmt = code fmt ∧
        st.reuse = reuse ∧ st.acode = a.code.toNat ∧ st.rows = declaredThreads c.declared)) ∧
  (∀ h fmt acc a x cv reuse, Faults (.mma h fmt acc a x cv reuse) h (fun e n =>
    match e.team.cv[cv.val]? with
    | none => none
    | some c =>
      if e.scaleFault a x.val ≠ none ∨ e.team.matctx = none then none
      else if c.declared.getLsbD (32 * e.g.gix + n) = false ∨ c.signed.getLsbD (32 * e.g.gix + n) = true ∨ c.issued = true
        then some ⟨.cvstate, 0x7FF, BitVec.ofNat 32 cv.val⟩
      else if (e.team.xrec x.val).valid = false then some ⟨.xinvalid, BitVec.ofNat 11 x.val, BitVec.ofNat 32 x.val⟩
      else if code fmt ≠ (e.team.xrec x.val).fmt then some ⟨.xformat, BitVec.ofNat 11 x.val, BitVec.ofNat 32 x.val⟩ else none))

/-- R218, R226, R230, R73: the first pending step of a context whose turn it is begins, and clears RESV
with ACC and RESK; it forms each
element of the accumulator from the signer's row, the column of the record's range and the element as it stands. On
completion the accumulator takes the result, ACCSTAT the flags, CVSTATE.DONE is set and the sequence index advances by k.
The turn where both contexts begin to wait together (log entry 52) is the model's choice, and that a segment whose exact sum is
zero is +0 (log entry 49). An element of
one segment, unscaled and with finite operands, is C + p with p the exact sum of products rounded once (zero: +0) and a
subnormal result flushed; a zero row adds +0. -/
def Obligations.TileSteps : Prop :=
  (∀ (s : State) (die core idx : Nat) (m : MatCtx) (st : MStep) (l : List MStep) (tm : Team),
    s.matctx.find? (fun m => m.die == die && m.core == core && m.idx == idx) = some m → m.pending = st :: l → s.team? m.team = some tm →
    s.engineIdle die core = true → s.mayBegin m = true → s.hasTurn m = true →
    let x := tm.xrec st.xidx
    let p : StepShape := ⟨mfmtTy x.fmt, stepK x.fmt, x.nb, x.blen != 0, x.padk⟩
    let row (i : Nat) : Option ARow := st.rows[i]?.bind (fun k => (tm.stepRow s.nonce st x k).map Prod.fst)
    let col (j : Nat) : BCol :=
      ⟨tm.stepBits s.nonce (1024 * x.base + 32 * j) 32,
        if x.blen = 0 then [] else (List.range x.nb).map (fun g => tm.stepBits s.nonce (1024 * x.base + x.scoff + 2 * (x.nb * j + g)) 2)⟩
    let key (i j : Nat) : Nat := 1024 * st.acc + 32 * i + j
    let el (i j : Nat) : Word × AccFlags := p.element (m.acc.read (key i j)) (row i) (col j)
    ∃ t m' r, exec (.stepStart die core idx) s = .next t ∧
      t.matctx.find? (fun m => m.die == die && m.core == core && m.idx == idx) = some m' ∧ m'.pending = l ∧ m'.running = some r ∧
      r.step = st ∧ m'.resv = false ∧ m'.accf = 0 ∧ m'.resk = 0 ∧ m'.acc = m.acc ∧ SMap.get? t.turns (die * 128 + core) = some idx ∧
      (∀ tm' : Team, t.team? m.team = some tm' → ∀ (n : Nat) (c' : CvReg), tm'.cv[n]? = some c' → c'.step = some st.id → c'.begun = true) ∧
      (r.bad = none → (∀ i j, i < 32 → j < 32 - x.padn → (key i j, (el i j).1) ∈ r.result) ∧
        (st.rows.length ≤ 32 → ∀ b, r.flags.getLsbD b = true ↔ ∃ i j, i < 32 ∧ j < 32 - x.padn ∧ (el i j).2.getLsbD b = true))) ∧
  (∀ (s : State) (die core idx : Nat) (m : MatCtx) (r : MRun),
    s.matctx.find? (fun m => m.die == die && m.core == core && m.idx == idx) = some m → m.running = some r → r.bad = none →
    (r.result.map Prod.fst).Nodup → (∀ tm, s.team? m.team = some tm → ∀ g ∈ tm.groups, ∀ o ∈ g.ops, o.kind ≠ .acc) →
    ∃ t m', exec (.stepComplete die core idx) s = .next t ∧
      t.matctx.find? (fun m => m.die == die && m.core == core && m.idx == idx) = some m' ∧ m'.running = none ∧
      (∀ p ∈ r.result, m'.acc.read p.1 = p.2) ∧ (∀ k, k ∉ r.result.map Prod.fst → m'.acc.read k = m.acc.read k) ∧
      m'.flags = m.flags ||| r.flags ∧
      (∀ q, m.seq[r.step.acc]? = some q → m'.seq[r.step.acc]? = some ((q + stepK r.step.fmt) % 65536)) ∧
      (∀ tm' : Team, t.team? m.team = some tm' → ∀ (n : Nat) (c' : CvReg), tm'.cv[n]? = some c' → c'.step = some r.step.id → c'.done = true)) ∧
  (∀ (p : StepShape) (c : Word) (row : ARow) (b : BCol), p.scaled = false → p.nb = 1 → p.padk = 0 → 0 < p.k →
    let as := (List.range p.k).map (cellFV p.ty row.bits)
    let bs := (List.range p.k).map (cellFV p.ty b.bits)
    let fin (v : FV) : Prop := ∃ n m x, v = .fin n m x
    (∀ v ∈ as, fin v) → (∀ v ∈ bs, fin v) →
    let sum := sumFV (as.zipWith (fun x y => (mulFV x y).1) bs)
    let seg : Word := if sum.isZero then 0 else BitVec.ofNat 32 (finishFV ffF32 false .rne (sum, 0)).1
    let r := (finishFV ffF32 false .rne (addFV .rne (ffF32.value c.toNat) (ffF32.value seg.toNat))).1
    (p.element c (some row) b).1 = BitVec.ofNat 32 (ffF32.flush r) ∧
    (p.element c none b).1 = BitVec.ofNat 32 (ffF32.flush (finishFV ffF32 false .rne (addFV .rne (ffF32.value c.toNat) (ffF32.value 0))).1))

/-- R229: once no step that the team issued before the instruction and that writes the accumulator is open, and no other
accumulator instruction of the team is about to act: acc.clr makes it +0; acc.mv leaves the row of each live thread with its slot, rounded to BF16 in the bf16 form;
acc.ld takes it from 4,096 legal bytes, each unit as it stood at a point of the view's history no older than what its threads must
find made (which point, is the model's choice, log entry 11), and acc.st stores it there; mstat leaves ACCSTAT. Until then the slot
waits for the steps. A move that meets a poisoned line is not made (R382). Without a context acc.* raise NOMATCTX and mstat gives 0; that acc.ld and acc.st
raise it whatever their address, before the faults of their extent, is the model's choice (log entry 51). -/
def Obligations.Accumulators : Prop :=
  let begins (i : Instr) (h : Hdr) (s : State) (e : Env) : Prop :=
    env? s = some e ∧ e.ready i = true ∧ e.calm i h = true ∧ s.settled = true ∧ WellFormed i ∧
      ∀ g ∈ e.team.groups, ∀ o ∈ g.ops, o.kind = .acc → o.waits ≠ [] ∨ o.acc = .none
  let open_ (s : State) (e : Env) : List MStep := (s.openSteps e.team).filter (fun st => decide (st.cycle < e.fp))
  let slot (t : State) (e : Env) (sb : Fin 16) (p : PendOp → Prop) : Prop :=
    ∃ g o, t.group? e.team.id e.g.gix = some g ∧ o ∈ g.ops ∧ o.slot = sb.val ∧ o.kind = .acc ∧ p o
  let bf (w : Word) : Nat := (finishFV ffBF16 false .rne (ffF32.value w.toNat, 0)).1
  let extent (e : Env) (s : State) (sh : Bool) (w : Want) (a : Nat) : Prop :=
    a % 64 = 0 ∧ (sh = true → a + 4096 ≤ e.team.shsize) ∧
      (sh = false → ∀ k, k < 64 → s.dieFault e.team.ctx e.team.die (a + 64 * k) w = none)
  let loc (e : Env) (sh : Bool) (a : Nat) : Loc := if sh then .sh e.team.id a else .die e.team.die a
  let sound (e : Env) (s : State) (sh : Bool) (a : Nat) : Prop := ∀ k, k < 64 → s.badPlace ((loc e sh a).plus (64 * k)) = false
  (∀ h acc s e m, begins (.accClr h acc) h s e → e.anyReal (.accClr h acc) h = true → s.matctxOf e.team = some m → e.stepsOn acc.val = [] →
    ∃ t tm m', exec (.accClr h acc) s = .next t ∧ t.team? e.team.id = some tm ∧ t.matctxOf tm = some m' ∧
      (∀ k, k < 1024 → m'.acc.read (1024 * acc.val + k) = 0) ∧
      (∀ k, k < 16384 → k / 1024 ≠ acc.val → m'.acc.read k = m.acc.read k) ∧ m'.flags = m.flags) ∧
  (∀ h b16 d acc sb s e m, let i := Instr.accMv h b16 d acc sb
    begins i h s e → s.matctxOf e.team = some m → ∃ t, exec i s = .next t ∧ slot t e sb (fun o =>
      (e.stepsOn acc.val ≠ [] → o.waits = e.stepsOn acc.val) ∧
      (e.stepsOn acc.val = [] → o.acc = .none ∧ ∀ n ∈ e.live i h,
        let c (j : Nat) : Word := m.acc.read (1024 * acc.val + 32 * n + j)
        (b16 = false → ∀ j, j < 32 → (n, d.code.toNat + j, c j) ∈ o.writes) ∧
        (b16 = true → isTCode d.code.toNat = false → ∀ j, j < 16 →
          (n, d.code.toNat + j, BitVec.ofNat 32 (bf (c (2 * j)) + bf (c (2 * j + 1)) * 2 ^ 16)) ∈ o.writes)))) ∧
  (∀ h sh acc a sb s e m, let i := Instr.accLd h sh acc a sb
    begins i h s e → e.anyReal i h = true → s.matctxOf e.team = some m → extent e s sh .any (e.w 32 1 a).toNat → sound e s sh (e.w 32 1 a).toNat →
    ∃ t tm m', exec i s = .next t ∧ t.team? e.team.id = some tm ∧ t.matctxOf tm = some m' ∧ slot t e sb (fun o =>
        (e.stepsOn acc.val ≠ [] → o.waits = e.stepsOn acc.val) ∧ (e.stepsOn acc.val = [] → o.acc = .none)) ∧
      (e.stepsOn acc.val ≠ [] → m'.acc = m.acc) ∧
      (e.stepsOn acc.val = [] → ∀ k, k < 64 → ∃ p, s.floorLoc (s.reader e.author (e.issuers i h)) ((loc e sh (e.w 32 1 a).toNat).plus (64 * k)) 64 ≤ p ∧
        ∀ j, j < 16 → m'.acc.read (1024 * acc.val + 16 * k + j) = wordAt (s.readAt p ((loc e sh (e.w 32 1 a).toNat).plus (64 * k)) 64) (4 * j))) ∧
  (∀ h sh a acc sb s e m, let i := Instr.accSt h sh a acc sb
    begins i h s e → e.anyReal i h = true → s.matctxOf e.team = some m → extent e s sh .plain (e.w 32 1 a).toNat → sound e s sh (e.w 32 1 a).toNat →
    ∃ t, exec i s = .next t ∧ (e.stepsOn acc.val ≠ [] → slot t e sb (fun o => o.waits = e.stepsOn acc.val)) ∧
      (e.stepsOn acc.val = [] → s.parked = [] → slot t e sb (fun o => o.acc = .none)) ∧
      (e.stepsOn acc.val = [] → ∀ k, k < 1024 → t.locWord ((loc e sh (e.w 32 1 a).toNat).plus (4 * k)) = m.acc.read (1024 * acc.val + k))) ∧
  (∀ (s : State) (id gix : Nat) (o : PendOp) (t : Team) (m : MatCtx) (acc a : Nat) (sh : Bool) (r : Reader), s.team? id = some t → s.matctxOf t = some m →
    (o.acc = .ld acc sh a r ∨ o.acc = .st acc sh a) → (∃ k, k < 64 ∧ s.badPlace ((accLoc t sh a).plus (64 * k)) = true) →
    (s.actAcc id gix o).matctx = s.matctx ∧ ∀ l j, (s.actAcc id gix o).readByte l j = s.readByte l j) ∧
  (∀ h d sb s e, let i := Instr.mstat h d sb
    begins i h s e → e.anyReal i h = true → isTCode d.code.toNat = false → ∃ t, exec i s = .next t ∧ slot t e sb (fun o =>
      (s.matctxOf e.team = none → ∀ n ∈ e.live i h, (n, d.code.toNat, 0) ∈ o.writes) ∧
      (∀ m, s.matctxOf e.team = some m → open_ s e ≠ [] → o.waits = (open_ s e).map MStep.id) ∧
      (∀ m, s.matctxOf e.team = some m → open_ s e = [] → ∀ n ∈ e.live i h,
        (n, d.code.toNat, BitVec.ofNat 32 ((if m.resv then 2 ^ 31 else 0) + m.accf % 16 * 2 ^ 24 + m.resk % 2 ^ 16 * 2 ^ 8 + m.flags.toNat)) ∈ o.writes))) ∧
  (∀ h sh b16 d a acc sb,
    let un (i : Instr) : Prop := Faults i h (fun e _ => if e.anyReal i h = true ∧ e.s.matctxOf e.team = none then some ⟨.nomatctx, 0x7FF, 0⟩ else none)
    un (.accMv h b16 d acc sb) ∧ un (.accLd h sh acc a sb) ∧ un (.accSt h sh a acc sb) ∧
    Faults (.accClr h acc) h (fun e _ => if e.anyReal (.accClr h acc) h = true ∧ e.stepsOn acc.val = [] ∧ e.s.matctxOf e.team = none
      then some ⟨.nomatctx, 0x7FF, 0⟩ else none))

/-! ### Copies, calls, tasks and claims -/

/-- R231 to R235, R276, R284, R285: a copy command that passes the checks joins the copies in flight, with its eight words,
arrival word and order, and a .try form says whether it did; with every slot busy a .try form gives false and nothing
starts. A written unit holds the bytes that the copy has read, or reads now, from the source, where its engine finds what stands
there if it must find every write to the source unit made: what its group has written before the issue, and what acquires have
brought. No unit is written while an earlier store of its group to its bytes is still to be performed. The unit stands on the copy's own die, in its die's
view of main memory (from where the same bytes are carried to the other four views), or in a message to a peer that names
the first address; its bytes raise the arrival word. A copy that releases raises it by all its bytes when it may, and ends. A
unit that meets a fault ends the copy and sets FAULT. A carried write that is next in causal order is applied to the view
that it has reached. That a unit takes the bytes the copy already holds, or those the source holds in this very step, and that
a releasing copy raises its word only once, by all its bytes, is the model's choice (log entry 15; for the release, and for how old
the source bytes may be otherwise, log entry 11). -/
def Obligations.Copies : Prop :=
  let begins (i : Instr) (h : Hdr) (s : State) (e : Env) : Prop := env? s = some e ∧ e.ready i = true ∧ e.anyReal i h = true ∧ WellFormed i
  let issue (i : Instr) (h : Hdr) (k : CopyKind) (acq rel : Bool) (sc : Scope) (tr : Option (Fin 8)) (a b : Opnd) : Prop :=
    (∀ s e, begins i h s e → s.copyFull e.team.die e.team.core = false →
      let c : Copy :=
       { id := s.nextId, kind := k, die := e.team.die, core := e.team.core, ctx := e.team.ctx, team := e.team.id, gix := e.g.gix,
         desc := e.run 32 1 a 8, arrive := if b = .c 0 then none else some (e.w 32 2 b).toNat, acq := acq, rel := rel, scope := sc,
         done := [], buf := [], raised := 0, told := 0, sent := false,
         after := (s.copies.filter (fun x => x.team == e.team.id && x.gix == e.g.gix)).map (fun x => x.id) ++
           (s.calls.filter (fun x => x.team == e.team.id && x.gix == e.g.gix)).map (fun x => x.id) ++
           (s.pushes.filter (fun x => x.team == e.team.id && x.gix == e.g.gix)).map (fun x => x.id),
         issued := e.fp,
         reader := ⟨e.author, [.copy e.team.die e.team.core],
           if acq then e.act.foldl (fun x t => s.acquired e.author (e.agent t) x sc (e.fullPoint s t) false) (s.reader e.author e.act).sight
           else (s.reader e.author e.act).sight, s.writes⟩,
         stalled := none }
      s.copyDesc c = none → s.arriveFault c = none →
      ∃ t, exec i s = .next t ∧ t.copies = s.copies ++ [c] ∧ t.scratch = s.scratch ∧ t.views = s.views ∧
        ∀ n ∈ e.live i h, ∀ p, tr = some p → p ≠ 0 → t.predOf e.team.id e.g.gix n p.val = some true) ∧
    (∀ s e p, begins i h s e → s.copyFull e.team.die e.team.core = true → tr = some p →
      ∃ t, exec i s = .next t ∧ t.copies = s.copies ∧ ∀ n ∈ e.live i h, p ≠ 0 → t.predOf e.team.id e.g.gix n p.val = some false) ∧
    Faults i h (fun e _ =>
      if e.anyReal i h = false ∨ e.s.copyFull e.team.die e.team.core = true then none
      else match e.s.copyDesc (e.copyOf e.s k acq rel sc a b) with
        | some j => some ⟨.copydesc, a.code, BitVec.ofNat 32 j⟩
        | none => none)
  let written (s : State) (id unit : Nat) (r : PeerReply) (c : Copy) : Prop :=
    s.copy? id = some c ∧ c.stalled = none ∧ (s.nextUnit c).isSome = true ∧ s.unitBytes c unit ≠ [] ∧
      s.unitHold c (s.unitBytes c unit) = .go ∧ s.storesMeet c (s.unitBytes c unit) = false ∧ (c.kind = .net → c.get = false ∧ r = .ack)
  let byte (s : State) (c : Copy) (n : Nat) : Byte := (SMap.get? c.buf n).getD (s.srcByte c n)
  (∀ h acq rel sc tr a b,
    issue (.copyG2s h acq rel sc tr a b) h .g2s acq rel sc tr a b ∧ issue (.copyS2g h acq rel sc tr a b) h .s2g acq rel sc tr a b ∧
    issue (.copyS2s h acq rel sc tr a b) h .s2s acq rel sc tr a b ∧ issue (.copyDie h acq rel sc tr a b) h .die acq rel sc tr a b ∧
    issue (.copyNet h acq rel sc tr a b) h .net acq rel sc tr a b) ∧
  (∀ (s : State) (c : Copy) (n : Nat) (m : Mem) (a b k : Nat), s.srcPlace c n = some (m, a) → s.srcSpan c n = some (m, b, k) → 0 < k →
    (∀ w ∈ s.olds, w.touches m b k = true → w.must c.reader = true) →
    s.srcByte c n = match m with | .die d => s.scratch.read (dieKey d a) | _ => (s.view c.die).mem.read a) ∧
  (∀ (s : State) (id unit : Nat) (r : PeerReply) (c : Copy), s.copy? id = some c → c.stalled = none → (s.nextUnit c).isSome = true →
    s.storesMeet c (s.unitBytes c unit) = true → exec (.copyUnitWrite id unit r) s = .next s) ∧
  (∀ s id unit r c j, written s id unit r c → c.dst = .sp c.die j →
    ∃ t, exec (.copyUnitWrite id unit r) s = .next t ∧
      (c.arrive = none → ∀ n ∈ s.unitBytes c unit, c.overlaps (c.addr c.dst n) = false →
        (∀ m ∈ s.unitBytes c unit, m ≠ n → c.addr c.dst m ≠ c.addr c.dst n) →
        t.scratch.read (dieKey c.die (c.addr c.dst n)) = byte s c n) ∧
      (∀ a, c.arrive = some a → c.rel = false → c.told ≤ c.raised → s.copyCarried id = false → s.lineOk c.ctx c.die a = true →
        (∀ n ∈ s.unitBytes c unit, c.addr c.dst n < a ∨ a + 16 ≤ c.addr c.dst n) →
        t.arrAt c.die a = (s.arrAt c.die a).raise (c.raised + (s.unitBytes c unit).length - c.told))) ∧
  (∀ s id unit r c, written s id unit r c → c.dst = .main → c.die < s.views.length →
    ∃ t, exec (.copyUnitWrite id unit r) s = .next t ∧
      (∀ n ∈ s.unitBytes c unit, ∀ pa, s.translate c.ctx (c.addr c.dst n) true = .at pa →
        (∀ m ∈ s.unitBytes c unit, m ≠ n → s.translate c.ctx (c.addr c.dst m) true ≠ .at pa) →
        (SMap.get? (s.view c.die).order pa).getD 0 < s.writeNo → (t.view c.die).mem.read pa = byte s c n) ∧
      ∃ w ∈ t.carried, w.origin = c.die ∧ w.order = s.writeNo ∧ w.dests = (List.range 5).filter (fun k => k != c.die) ∧ w.copy = some id ∧
        (∀ p ∈ w.cells, ∃ n ∈ s.unitBytes c unit, s.translate c.ctx (c.addr c.dst n) true = .at p.1) ∧
        ∀ n ∈ s.unitBytes c unit, ∀ pa, s.translate c.ctx (c.addr c.dst n) true = .at pa →
          (∀ m ∈ s.unitBytes c unit, m ≠ n → s.translate c.ctx (c.addr c.dst m) true ≠ .at pa) → (pa, byte s c n) ∈ w.cells) ∧
  (∀ s id unit r c, written s id unit r c → c.dst = .net →
    ∃ t, exec (.copyUnitWrite id unit r) s = .next t ∧ ∀ n, (s.unitBytes c unit).head? = some n →
      t.hub.outbox = s.hub.outbox ++ [.netWrite (c.word 7 % 2 ^ 16) (c.addr c.dst n) ((s.unitBytes c unit).map (byte s c))]) ∧
  (∀ s id unit r c, s.copy? id = some c → c.stalled = none → (s.nextUnit c).isSome = true →
    s.unitBytes c unit ≠ [] → s.storesMeet c (s.unitBytes c unit) = false → s.unitHold c (s.unitBytes c unit) = .bad →
    ∃ t, exec (.copyUnitWrite id unit r) s = .next t ∧ t.copy? id = none ∧
      ∀ a, c.arrive = some a → s.lineOk c.ctx c.dstDie a = true → (t.arrAt c.dstDie a).fault = true) ∧
  (∀ s id unit r c, s.copy? id = some c → c.stalled = none → s.nextUnit c = none → c.rel = true → c.total ≤ c.raised →
    s.mayRelease c = true → s.copyCarried id = false → c.dstDie = c.die →
    ∃ t, exec (.copyUnitWrite id unit r) s = .next t ∧ t.copy? id = none ∧
      ∀ a, c.arrive = some a → s.lineOk c.ctx c.die a = true → t.arrAt c.die a = (s.arrAt c.die a).raise c.total) ∧
  (∀ s idx v w, s.carried[idx]? = some w → w.dests.contains v = true → v ≠ w.origin → v < s.views.length → (s.view v).clock.length = 5 → w.origin < 5 →
    (w.ready (s.view v) = true → ∃ t, exec (.writeApply idx v) s = .next t ∧ clockAt (t.view v).clock w.origin = clockAt w.clock w.origin ∧
      ∀ p ∈ w.cells, (w.cells.filter (fun q => q.1 == p.1)).length = 1 → (SMap.get? (s.view v).order p.1).getD 0 < w.order →
        (t.view v).mem.read p.1 = p.2) ∧
    (w.ready (s.view v) = false → exec (.writeApply idx v) s = .next s))

/-- R236, R237, R240: where each live thread's record passes and the core's buffer has room, the calls join it in ascending
thread index (helpers send none); a unit takes a call whose thread has none of the type before it, and answers BADOP to
an undefined OP. token opens a window (that its tokens are to be retired anew, over those retired before, is the model's
choice, log entry 14), and stalls while two are open; tskip retires the tokens of its threads. A window lists each retired
token once, which opening a window and retiring a token keep. -/
def Obligations.Calls : Prop :=
  let act (i : Instr) (h : Hdr) (e : Env) : List Nat := (e.live i h).filter (fun n => !(e.helper n))
  let listed (w : TokWin) : Prop := w.retired.Nodup ∧ ∀ k ∈ w.retired, k < w.len
  let sends (i : Instr) (h : Hdr) (k : CallKind) (tr : Option (Fin 8)) (a : Opnd) : Prop :=
    (∀ s e, env? s = some e → e.ready i = true → WellFormed i →
      (∀ n ∈ act i h e, s.badCall (e.callOf s k n a) = none ∧
        ((e.callOf s k n a).ordered = true → e.team.inWindow (e.callOf s k n a).token = true)) →
      s.callCount e.team.die e.team.core k + (act i h e).length ≤ Config.callBuf →
      ∃ t new, exec i s = .next t ∧ t.calls = s.calls ++ new ∧ new.map (fun c => (c.tid, c.words)) = (act i h e).map (fun n => (n, e.run n 1 a 16)) ∧
        (∀ c ∈ new, c.kind = k ∧ c.team = e.team.id ∧ c.gix = e.g.gix ∧ c.die = e.team.die ∧ c.core = e.team.core ∧ c.accepted = false) ∧
        ∀ p, tr = some p → p ≠ 0 → ∀ n ∈ e.live i h, t.predOf e.team.id e.g.gix n p.val = some (!(e.helper n))) ∧
    Faults i h (fun e n =>
      if e.helper n = true ∨ Config.callBuf < e.s.callCount e.team.die e.team.core k + (e.live i h).length then none
      else match e.s.badCall (e.callOf e.s k n a) with
        | some j => some ⟨.badcall, a.code, BitVec.ofNat 32 j⟩
        | none => if (e.callOf e.s k n a).ordered = true ∧ e.team.inWindow (e.callOf e.s k n a).token = false
            then some ⟨.tokwin, a.code, (e.callOf e.s k n a).token⟩ else none)
  (∀ h tr a, sends (.cpcLat h tr a) h .lat tr a ∧ sends (.cpcGlz h tr a) h .glz tr a ∧ sends (.cpcCut h tr a) h .cut tr a ∧
    sends (.cpcIcg h tr a) h .icg tr a) ∧
  (∀ (s : State) (id : Nat) (c : Call), s.call? id = some c → c.accepted = false →
    (∀ d ∈ s.callsBefore c, d.sameThread c = true → d.accepted = true) →
    let ok : Prop := 1 ≤ c.word 0 % 256 ∧ c.word 0 % 256 ≤ (if c.kind = .cut then 4 else 2)
    ∃ t, exec (.callAccept id) s = .next t ∧
      (ok → t.call? id = some { c with accepted := true }) ∧
      (¬ok → t.call? id = none ∧ (s.lineOk c.ctx c.die c.ret = true → c.arrive = 0 →
        (t.locWord (.die c.die c.ret)).toNat % 256 = 1 ∧ t.locWord (.die c.die (c.ret + 4)) = c.token))) ∧
  (∀ h a b s e, let i := Instr.token h a b
    let n := (e.w 32 2 b).toNat
    env? s = some e → e.ready i = true → e.anyReal i h = true → WellFormed i → 1 ≤ n → n ≤ 65536 →
    ∃ t tm, exec i s = .next t ∧ t.team? e.team.id = some tm ∧
      (e.team.windows.length < 2 → tm.windows = e.team.windows ++ [⟨s.nextId, e.w 32 1 a, n, []⟩]) ∧
      (2 ≤ e.team.windows.length → tm.windows = e.team.windows ∧
        (t.group? e.team.id e.g.gix).map Group.tokWait = some (e.team.windows.head?.map TokWin.id))) ∧
  (∀ h a b, Faults (.token h a b) h (fun e _ =>
    if e.anyReal (.token h a b) h = true ∧ ((e.w 32 2 b).toNat = 0 ∨ 65536 < (e.w 32 2 b).toNat) then some ⟨.tokwin, b.code, e.w 32 2 b⟩ else none)) ∧
  (∀ h a s e, let i := Instr.tskip h a
    env? s = some e → e.ready i = true → WellFormed i → (∀ w ∈ e.team.windows, listed w) →
    (∀ n ∈ act i h e, e.team.openToken (e.w n 1 a) = true) →
    ((act i h e).map (fun n => e.w n 1 a)).Nodup →
    ∃ t tm, exec i s = .next t ∧ t.team? e.team.id = some tm ∧ ∀ n ∈ act i h e, (e.w n 1 a, true) ∈ tm.retired) ∧
  (∀ h a, Faults (.tskip h a) h (fun e n =>
    if e.helper n = false ∧ e.team.openToken (e.w n 1 a) = false then some ⟨.tokwin, a.code, e.w n 1 a⟩ else none)) ∧
  (∀ (t : Team), (∀ w ∈ t.windows, listed w) →
    (∀ id base len, ∀ w ∈ (t.openWindow id base len).windows, listed w) ∧
    ∀ tok how, (∀ w ∈ (t.retireToken tok how).windows, listed w) ∧
      ∀ w ∈ (t.retireToken tok how).windows, ∃ k, k < w.len ∧ w.retired.contains k = false)

/-- R241 to R244, R360: spawn puts the records of its threads that are no helpers into the queue's ring in ascending thread
index while there is room (a .try form on a full queue gives false); the records that a plain spawn has no room for take
their places in the same order, ahead of every later push, and their threads go on as they enter (that the places are taken
as those of pending pushes is the model's choice, log entry 56); tget takes the record at the head, or 64 zero bytes,
for every live thread, and its return sets HELPER from HMASK when the record asks for it, and waits while a pending push to the
queue has space; tdone decrements its
successor's counter, which at 0 pushes the successor record; a pending push is placed when its queue has space. -/
def Obligations.Tasks : Prop :=
  (∀ h tr a b s e q, let i := Instr.spawn h tr a b
    let act := (e.live i h).filter (fun n => !(e.helper n))
    env? s = some e → e.ready i = true → WellFormed i → s.taskqOn e.team.die e.team.ctx (e.w 32 2 b).toNat = some q →
    (act.length ≤ s.room q → ∃ t, exec i s = .next t ∧ (t.taskq? q.ctx q.num).map TaskQ.tail = some (q.tail + act.length) ∧
      (∀ k n, act[k]? = some n → t.readLoc (.die q.die (q.ring + 64 * ((q.tail + k) % 2 ^ q.logn))) 64 = (e.run n 1 a 16).flatMap wordBytes) ∧
      ∀ p, tr = some p → p ≠ 0 → ∀ n ∈ e.live i h, t.predOf e.team.id e.g.gix n p.val = some (!(e.helper n))) ∧
    (∀ p, s.room q = 0 → tr = some p → ∃ t, exec i s = .next t ∧ t.taskqs = s.taskqs ∧ t.scratch = s.scratch ∧
      (p ≠ 0 → ∀ n ∈ e.live i h, t.predOf e.team.id e.g.gix n p.val = some false)) ∧
    (tr = none → e.calm i h = true → s.settled = true → s.parked = [] → s.room q < act.length → ∃ t, exec i s = .next t ∧
      (t.taskq? q.ctx q.num).map TaskQ.tail = some (q.tail + s.room q) ∧
      t.pushes = s.pushes ++ (act.drop (s.room q)).zipIdx.map (fun k =>
        ⟨s.nextId + k.2, e.team.die, e.team.ctx, q.num, e.team.id, e.g.gix, (e.run k.1 1 a 16).flatMap wordBytes, some (k.1, i)⟩))) ∧
  (∀ h tr a b, FaultsQuiet (.spawn h tr a b) h (fun e n =>
    if e.helper n = false ∧ e.s.taskqOn e.team.die e.team.ctx (e.w 32 2 b).toNat = none then some ⟨.taskq, b.code, e.w 32 2 b⟩ else none)) ∧
  (∀ h d a sb s e q, let i := Instr.tget h d a sb
    let bs := if q.tail - q.head = 0 then List.replicate 64 0 else s.readLoc (.die q.die (q.ring + 64 * (q.head % 2 ^ q.logn))) 64
    env? s = some e → e.ready i = true → e.anyReal i h = true → WellFormed i → isTCode d.code.toNat = false →
    s.taskqOn e.team.die e.team.ctx (e.w 32 1 a).toNat = some q →
    ∃ t g o, exec i s = .next t ∧ t.group? e.team.id e.g.gix = some g ∧ o ∈ g.ops ∧ o.slot = sb.val ∧ o.kind = .tget ∧
      o.hmask = (if (wordAt bs 32).getLsbD 1 then some (wordAt bs 60) else none) ∧
      (∀ n ∈ e.live i h, ∀ j, j < 16 → (n, d.code.toNat + j, wordAt bs (4 * j)) ∈ o.writes) ∧
      (t.taskq? q.ctx q.num).map TaskQ.head = some (q.head + if q.tail - q.head = 0 then 0 else 1)) ∧
  (∀ h d a sb s e q, let i := Instr.tget h d a sb
    env? s = some e → e.anyReal i h = true → s.taskqOn e.team.die e.team.ctx (e.w 32 1 a).toNat = some q →
    (∃ p ∈ s.pushes, p.ctx = q.ctx ∧ p.queue = q.num) → q.tail - q.head < 2 ^ q.logn → exec i s = .next s) ∧
  Lands .tgetReturn .tget (fun _ _ => True) ∧
  (∀ (s : State) (id gix slot : Nat) (g : Group) (o : PendOp) (m : Word), s.group? id gix = some g → s.opAt id gix slot = some o → o.kind = .tget →
    o.hmask = some m → ∃ t g', exec (.tgetReturn id gix slot) s = .next t ∧ t.group? id gix = some g' ∧
      ∀ (n : Nat) (th : Thread), g'.threads[n]? = some th → th.helper = m.getLsbD n) ∧
  (∀ h a s e n, let i := Instr.tdone h a
    let succ := (e.reg n 1 a 7).toNat
    let c := (s.locWord (.die e.team.die succ)).toNat
    let bs := s.readLoc (.die e.team.die (succ + 64)) 64
    env? s = some e → e.ready i = true → WellFormed i → e.live i h = [n] → e.helper n = false →
    (succ = 0 → ∃ t, exec i s = .next t ∧ t.scratch = s.scratch ∧ t.taskqs = s.taskqs ∧ t.pushes = s.pushes) ∧
    (succ ≠ 0 → succ % 128 = 0 → s.dieFault e.team.ctx e.team.die succ .plain = none → s.dieFault e.team.ctx e.team.die (succ + 64) .plain = none →
      (1 < c → ∃ t, exec i s = .next t ∧ (t.locWord (.die e.team.die succ)).toNat = c - 1 ∧ t.taskqs = s.taskqs) ∧
      (c = 1 → ∀ q, s.taskqOn e.team.die e.team.ctx (leNat (s.readLoc (.die e.team.die (succ + 4)) 2)) = some q →
        s.pendingOn e.team.die < Config.pendPush →
        ∃ t, exec i s = .next t ∧
          (s.room q = 0 → t.pushes = s.pushes ++ [⟨s.nextId, e.team.die, e.team.ctx, q.num, e.team.id, e.g.gix, bs, none⟩] ∧ t.locWord (.die e.team.die succ) = 0) ∧
          (0 < s.room q → (t.taskq? q.ctx q.num).map TaskQ.tail = some (q.tail + 1) ∧
            t.readLoc (.die q.die (q.ring + 64 * (q.tail % 2 ^ q.logn))) 64 = bs)))) ∧
  (∀ (s : State) (die : Nat) (p : PendPush) (q : TaskQ), s.pushes.find? (fun p => p.die == die && s.placeable p) = some p →
    s.taskq? p.ctx p.queue = some q → p.bytes.length = 64 → s.settled = true →
    ∃ t, exec (.pendingPush die) s = .next t ∧
      (p.by_ = none → t.pushes = s.pushes.erase p) ∧
      (∀ n i e h, p.by_ = some (n, i) → envOf s p.team p.gix = some e → hdrOf i = some h → n ∈ e.act → e.sound = true →
        t.pushes = s.pushes.erase p ∧ Stands e t n (e.cont (e.loops n))) ∧
      (t.taskq? p.ctx p.queue).map TaskQ.tail = some (q.tail + 1) ∧
      t.readLoc (.die q.die (q.ring + 64 * (q.tail % 2 ^ q.logn))) 64 = p.bytes)

/-- R118, R245 to R247: claim gains blocks at once when none waits in the slice and they are free, and otherwise joins the
slice's queue and holds its group; claim.try says which; surr gives up the highest blocks, whose registers then read
zero; the head of a slice's queue is granted when its blocks are free, and withdrawn when it can never be; a claim that a
restore has brought back begins again, and is killed with TIMEOUT where the budget is spent. A team all of
whose threads have exited and whose operations are all done is no more. That a restored claim begins again, by R56 and R264, is
the model's reading (log entry 27), as are when a claim can never be granted, by R260, and that a claim.try beyond the pool gives
false (log entry 17). -/
def Obligations.Claims : Prop :=
  let begins (i : Instr) (h : Hdr) (s : State) (e : Env) : Prop :=
    env? s = some e ∧ e.ready i = true ∧ e.calm i h = true ∧ s.settled = true ∧ e.anyReal i h = true ∧ WellFormed i
  let free (s : State) (e : Env) (n : Fin 192) : Bool :=
    (s.claimHead e.team.die e.team.core e.g.slice).isNone && decide (n.val ≤ s.freeBlocks e.team.die e.team.core e.g.slice)
  let vblk (t : State) (id gix : Nat) : Option Nat := (t.group? id gix).map Group.vblk
  (∀ h n s e, begins (.claim h n) h s e → e.g.claim = none → e.g.vblk + n.val ≤ 192 →
    ∃ t, exec (.claim h n) s = .next t ∧
      (free s e n = true → vblk t e.team.id e.g.gix = some (e.g.vblk + n.val) ∧ t.claims = s.claims) ∧
      (free s e n = false → t.claims = s.claims ++ [⟨e.team.die, e.team.core, e.g.slice, e.team.id, e.g.gix, n.val⟩] ∧
        vblk t e.team.id e.g.gix = some e.g.vblk ∧ (t.group? e.team.id e.g.gix).map Group.claim = some (some n.val))) ∧
  (∀ h pd n s e, begins (.claimTry h pd n) h s e → ∃ t, exec (.claimTry h pd n) s = .next t ∧
    vblk t e.team.id e.g.gix = some (if free s e n then e.g.vblk + n.val else e.g.vblk) ∧
    (pd ≠ 0 → ∀ k ∈ e.live (.claimTry h pd n) h, t.predOf e.team.id e.g.gix k pd.val = some (free s e n))) ∧
  (∀ h n s e, begins (.surr h n) h s e → n.val < e.g.vblk → ∃ t, exec (.surr h n) s = .next t ∧
    vblk t e.team.id e.g.gix = some (e.g.vblk - n.val) ∧ t.placeDue = true ∧
    ∀ k c, 8 * (e.g.vblk - n.val) ≤ c → c < 1536 → k < e.g.threads.length → t.regOf e.team.id e.g.gix k c = some 0) ∧
  (∀ h n, Faults (.surr h n) h (fun e _ => if e.anyReal (.surr h n) h = true ∧ e.g.vblk ≤ n.val
    then some ⟨.claimlimit, 0x7FF, BitVec.ofNat 32 n.val⟩ else none)) ∧
  (∀ h n m s e, begins (.claim h n) h s e → e.g.claim = some m → ∃ t, exec (.claim h n) s = .next t ∧ t.claims = s.claims ∧
    vblk t e.team.id e.g.gix = some e.g.vblk ∧ (t.group? e.team.id e.g.gix).map Group.claim = some (some m) ∧
    (t.group? e.team.id e.g.gix).map Group.held = some true) ∧
  (∀ (s : State) (die core slice : Nat) (q : ClaimReq) (e : Env), s.claimHead die core slice = some q → envOf s q.team q.gix = some e →
    e.spent = true → e.team.killed = none →
    ∃ t, exec (.claimGrant die core slice) s = .next t ∧ ∀ tm, t.team? q.team = some tm → tm.killed = some .timeout) ∧
  (∀ (s : State) (die core slice : Nat) (q : ClaimReq) (g : Group), s.claimHead die core slice = some q → s.group? q.team q.gix = some g →
    q.n ≤ s.freeBlocks die core slice → (∀ e, envOf s q.team q.gix = some e → e.spent = false) →
    ∃ t, exec (.claimGrant die core slice) s = .next t ∧ vblk t q.team q.gix = some (g.vblk + q.n) ∧
      (t.group? q.team q.gix).map Group.claim = some none) ∧
  (∀ (s : State) (die core slice : Nat) (q : ClaimReq) (g : Group) (tm : Team), s.claimHead die core slice = some q → s.team? q.team = some tm →
    tm.group? q.gix = some g → s.freeBlocks die core slice < q.n → tm.allClaim = true →
    (∀ e, envOf s q.team q.gix = some e → e.spent = false) →
    ∃ t, exec (.regdeadlock die core slice) s = .next t ∧ (t.group? q.team q.gix).map Group.claim = some none ∧ vblk t q.team q.gix = some g.vblk) ∧
  (∀ (s : State) (id : Nat) (tm : Team), s.team? id = some tm → s.complete tm = true →
    ∃ t, exec (.teamComplete id) s = .next t ∧ t.team? id = none ∧ t.placeDue = true)

/-! ### Coprocessors -/

/-- R311 to R328, R407: a good PASS.BEGIN opens a pass on the lowest free slot of its Cutter; TRI adds its primitive to an open pass,
culled when its area is 0 or it faces the culled way; PASS.END waits with its range, and the pass resolves once every
token of the range is retired; PASS.ABORT frees the pass. A resolving pass takes its bins in order: one with nothing in
it completes, another takes the next slot and its task. FRAG joins a resolved bin, or the stream path when it is ordered;
BINDONE waits for FCOUNT fragments, and the commit ends the bin: pixel by pixel, in ascending (KEY, PRIMID), a fragment that
passes ZTEST is blended into the colour target, counts, and with ZWRITE gives the depth target its depth, and the bin's
counters are added to STATS. A due stream fragment commits the same way against the depth target alone. A pass with nothing
left to do adds its own counters, and ends with its END. A call that ends is no longer in flight, and its status stands in
its record. That the lowest free slot is taken, and that PASS.ABORT of an abandoned pass is answered OK, is the model's choice
(log entry 20). -/
def Obligations.Passes : Prop :=
  let ends (s t : State) (c : Call) (st : Nat) : Prop :=
    t.call? c.id = none ∧ (s.lineOk c.ctx c.die c.ret = true → c.arrive = 0 → (t.locWord (.die c.die c.ret)).toNat % 256 = st)
  let waits (t : State) (c : Call) : Prop := t.call? c.id = some { c with waiting := true }
  let apart (p : Pass) (c : Call) (a : Nat) : Prop :=
    a < 2 ^ 29 ∧ (c.die = p.die → (a < c.ret ∨ c.ret + 32 ≤ a) ∧ (c.arrive = 0 ∨ a < c.arrive ∨ c.arrive + 16 ≤ a))
  let outside (s : State) (p : Pass) (k a : Nat) : Prop :=
    a < 2 ^ 29 ∧ ∀ c, s.call? k = some c → c.die < 4 ∧ c.ret + 32 ≤ 2 ^ 29 ∧ c.arrive + 16 ≤ 2 ^ 29 ∧ apart p c a
  let counter (s : State) (p : Pass) (j : Nat) : Nat := leNat (s.readLoc (.die p.die (p.stats + j)) 8)
  let goesOn (p : Pass) (b : Nat) (g : Option StreamFrag) : Prop :=
    p.nextBin < p.nbx * p.nby ∨ (∃ x ∈ p.bins, x.idx ≠ b) ∨ ∃ f ∈ p.stream, some f ≠ g
  (∀ (s : State) (id : Nat) (c : Call) (at_ : Nat × Nat), s.serve id .cut 1 = some c → c.flagsOk false false false = true → c.word 4 % 64 = 0 → c.zeros 5 15 = true →
    s.spanOk c.ctx c.die (c.word 4) 64 .any = true → s.freePassSlot c.die = some at_ →
    let p := Pass.open_ s.nextId c at_ ((List.range 16).map (fun k => s.locWord (.die c.die (c.word 4 + 4 * k))))
    p.layoutOk = true → (s.taskqOn c.die c.ctx p.shadeQ).isSome = true → (∀ r ∈ p.spans, s.spanOk c.ctx c.die r.1 r.2 .plain = true) →
    ∃ t, exec (.passBegin id) s = .next t ∧ t.passes = s.passes ++ [p] ∧ ends s t c 0 ∧
      (s.lineOk c.ctx c.die c.ret = true → c.arrive = 0 → t.locWord (.die c.die (c.ret + 8)) = BitVec.ofNat 32 (at_.1 * 256 + at_.2))) ∧
  (∀ (s : State) (id : Nat) (c : Call) (p : Pass), s.serve id .cut 2 = some c → c.triOk = true → s.ownPass c c.handle14 = some p → s.pass? p.id = some p →
    s.tokenRetired p c.token = false → s.resolves p = false → p.prims.length < p.primCap →
    let v (k : Nat) : Int := snap (c.words.getD (4 + k) 0)
    let area : Int := (v 3 - v 0) * (v 7 - v 1) - (v 4 - v 1) * (v 6 - v 0)
    let cull := c.word 14 / 2 ^ 16 % 4
    ∃ t p' q, exec (.tri id) s = .next t ∧ t.pass? p.id = some p' ∧ p'.prims = p.prims ++ [q] ∧ q.verts = (c.words.drop 4).take 9 ∧
      q.primid = c.words.getD 13 0 ∧ q.token = c.token ∧ q.mayKill = c.mayKill ∧
      q.culled = decide (area = 0 ∨ (cull = 1 ∧ area < 0) ∨ (cull = 2 ∧ 0 < area)) ∧ t.call? c.id = none) ∧
  (∀ (s : State) (id : Nat) (c : Call), s.serve id .cut 2 = some c →
    (c.triOk = false → ∃ t, exec (.tri id) s = .next t ∧ ends s t c 0x02) ∧
    (c.triOk = true → s.ownPass c c.handle14 = none → ∃ t, exec (.tri id) s = .next t ∧ ends s t c 0x17)) ∧
  (∀ (s : State) (id : Nat) (c : Call) (p : Pass), s.serve id .cut 3 = some c → c.endOk = true → s.ownPass c c.handle14 = some p → s.pass? p.id = some p →
    p.ended = none →
    ∃ t p', exec (.passEnd id) s = .next t ∧ t.pass? p.id = some p' ∧ p'.ended = some (c.id, c.word 4, c.word 5) ∧ waits t c) ∧
  (∀ (s : State) (id : Nat) (c : Call) (p : Pass), s.serve id .cut 4 = some c → c.flagsOk false false false = true → c.zeros 4 13 = true → c.word 14 < 2 ^ 16 → c.word 15 = 0 →
    s.passOf c.die c.handle14 = some p → p.ctx = c.ctx →
    ∃ t, exec (.passAbort id) s = .next t ∧ t.pass? p.id = none ∧ ends s t c 0) ∧
  (∀ (s : State) (id : Nat) (p : Pass), s.pass? id = some p → p.resolving = false → p.abandoned = false → s.rangeRetired p = true →
    ∃ t p', exec (.resolutionBegin id) s = .next t ∧ t.pass? id = some p' ∧ p'.resolving = true ∧ p'.skipped = s.skippedIn p) ∧
  (∀ (s : State) (id : Nat) (p : Pass), s.pass? id = some p → p.resolving = true → p.abandoned = false → s.passRuns p = true → p.nextBin < p.nbx * p.nby →
    let bin := (p.bin? p.nextBin).getD (Bin.blank p.nextBin)
    (p.candidates p.nextBin = [] → bin.late = [] → ∃ t, exec (.binResolve id) s = .next t ∧
      ∀ p', t.pass? id = some p' → p'.nextBin = p.nextBin + 1 ∧ p'.bin? p.nextBin = none) ∧
    (p.candidates p.nextBin ≠ [] → (∀ b ∈ p.bins, b.slot ≠ some p.nextSlot) → ∀ q, s.taskqOn p.die p.ctx p.shadeQ = some q → 0 < s.room q →
      ∃ t p', exec (.binResolve id) s = .next t ∧ t.pass? id = some p' ∧ p'.nextBin = p.nextBin + 1 ∧
        p'.nextSlot = (p.nextSlot + 1) % p.visSlots ∧ (p'.bin? p.nextBin).map Bin.slot = some (some p.nextSlot) ∧
        (t.taskq? q.ctx q.num).map TaskQ.tail = some (q.tail + 1))) ∧
  (∀ (s : State) (id : Nat) (c : Call) (p : Pass), s.serve id .icg 1 = some c → c.fragOk = true → s.pass? p.id = some p →
    let x := c.word 4 % 2 ^ 16
    let y := c.word 4 / 2 ^ 16
    let b := y / 32 * p.nbx + x / 32
    x < p.width → y < p.height →
    (c.ordered = false → s.binPass c (x / 32) (y / 32) = some p → ∀ bin slot, p.bin? b = some bin → bin.slot = some slot → bin.done = none →
      bin.frags.length < 1535 →
      ∃ t p' bin', exec (.frag id) s = .next t ∧ t.pass? p.id = some p' ∧ p'.bin? b = some bin' ∧ bin'.frags.length = bin.frags.length + 1 ∧
        bin'.slot = some slot ∧ ends s t c 0) ∧
    (c.ordered = true → s.ownPass c c.handle7 = some p → p.depth ≠ 0 →
      ∃ t p' l g, exec (.frag id) s = .next t ∧ t.pass? p.id = some p' ∧ p'.stream = l ++ [g] ∧ g.call = c.id ∧ g.token = c.token ∧
        g.words = c.words ∧ g.pixel = y * p.width + x ∧ (c.last = false → l = p.stream) ∧
        l.map (fun f => { f with ready := false }) = p.stream.map (fun f => { f with ready := false }) ∧ waits t c)) ∧
  (∀ (s : State) (id : Nat) (c : Call) (p : Pass) (bin : Bin), let bx := c.icgBin.1
    let by_ := c.icgBin.2
    s.serve id .icg 2 = some c → c.flagsOk true false false = true → c.word 5 ≤ 1535 → c.word 6 = 0 → c.word 7 < 2 ^ 16 → c.zeros 8 15 = true →
    s.binPass c bx by_ = some p → s.pass? p.id = some p → bx < p.nbx → by_ < p.nby → p.bin? (by_ * p.nbx + bx) = some bin → bin.slot ≠ none →
    bin.done = none → bin.frags.length ≤ c.word 5 →
    ∃ t p' bin', exec (.bindone id) s = .next t ∧ t.pass? p.id = some p' ∧ p'.bin? (by_ * p.nbx + bx) = some bin' ∧
      bin'.done = some (c.id, c.word 5) ∧ waits t c) ∧
  (∀ (s : State) (id b : Nat) (p : Pass) (bin : Bin) (slot k n : Nat), s.pass? id = some p → p.bin? b = some bin → bin.slot = some slot → bin.done = some (k, n) →
    bin.frags.length = n →
    let frs := ((List.range 1535).filter (fun i => bin.frags.contains i)).map (fun i => Frag.of (wordsOf 16 (s.readLoc (.die p.die (p.areaAt slot i)) 64)))
    let w : Commit := (p.pixels b).foldl (fun a q => a.pixel p slot frs q) ⟨s, (0, 0, 0), [0, 0, 0, 0, 0]⟩
    let adds := [(0x18, bin.touched), (0x20, bin.resolvedN), (0x28, bin.late.length), (0x30, 1)] ++ w.n.zipIdx.map (fun q => (0x38 + 8 * q.2, q.1))
    ∃ t, exec (.binCommit id b) s = .next t ∧ t.call? k = none ∧ (∀ p', t.pass? id = some p' → p'.bin? b = none) ∧
      (goesOn p b none →
        (∀ a, outside s p k a → (a < p.stats ∨ p.stats + 128 ≤ a) → t.scratch.read (dieKey p.die a) = w.s.scratch.read (dieKey p.die a)) ∧
        ∀ x ∈ adds, (∀ j, j < 8 → outside s p k (p.stats + x.1 + j)) → counter t p x.1 = (counter w.s p x.1 + x.2) % 2 ^ 64)) ∧
  (∀ (p : Pass) (slot : Nat) (frs : List Frag) (k : Commit) (i x y : Nat),
    let r := wordsOf 4 (k.s.readLoc (.die p.die (p.slotAt slot + 16 * i)) 16)
    let st := if (r.getD 3 0).getLsbD 0 then (r.getD 0 0, r.getD 1 0, r.getD 2 0) else (p.zclear, 0xFFFFFFFF, 0xFFFFFFFF)
    ∃ here : List Frag, here.Perm (frs.filter (fun f => f.x == x && f.y == y)) ∧
      here.Pairwise (fun f g => f.key.toNat < g.key.toNat ∨ (f.key = g.key ∧ f.primid.toNat ≤ g.primid.toNat)) ∧
      let e := here.foldl (fun a f => a.frag p f (!(p.nearerKey a.st (f.z, f.key, f.primid))) (f.z, f.key, f.primid)) { k with st := st }
      let u := k.pixel p slot frs (i, x, y)
      u.n = e.n ∧ (p.depth = 0 → u.s = e.s) ∧
      (p.depth ≠ 0 → u.s.locWord (.die p.die (p.depthAddr x y)) = e.st.1 ∧
        ∀ a, a < p.depthAddr x y ∨ p.depthAddr x y + 4 ≤ a → u.s.scratch.read (dieKey p.die a) = e.s.scratch.read (dieKey p.die a))) ∧
  (∀ (k : Commit) (p : Pass) (f : Frag) (near : Bool) (st : Word × Word × Word), f.rgba.length = 4 → k.n.length = 5 →
    let u := k.frag p f near st
    let at_ := p.color + 16 * (f.y * p.width + f.x)
    ((f.ztest && !near) = true → u = k) ∧
    ((f.ztest && !near) = false → u.st = (if f.zwrite then st else k.st) ∧
      (∀ j, j < 5 → u.n[j]? = k.n[j]?.map (fun c => c + if j = 0 ∨ (f.query = true ∧ j = 1 + f.qidx) then 1 else 0)) ∧
      (∀ j, j < 4 →
        let src := f.rgba.getD j 0
        let dst := k.s.locWord (.die p.die (at_ + 4 * j))
        u.s.locWord (.die p.die (at_ + 4 * j)) =
          if f.blend = 0 then rnd32 (val32 src) else if f.blend = 1 then add32 dst src
          else add32 src (mul32 dst (sub32 0x3F800000 (f.rgba.getD 3 0)))) ∧
      ∀ d a, (d ≠ p.die ∨ a < at_ ∨ at_ + 16 ≤ a) → d < 4 → p.die < 4 → a < 2 ^ 29 → at_ + 16 ≤ 2 ^ 29 →
        u.s.scratch.read (dieKey d a) = k.s.scratch.read (dieKey d a))) ∧
  (∀ (s : State) (id px : Nat) (p : Pass) (g : StreamFrag), s.pass? id = some p → nextStream (p.stream.filter (fun f => f.pixel == px)) = some g →
    g.ready = true → s.passRuns p = true →
    let f := Frag.of g.words
    let d := p.depthAddr f.x f.y
    let old := s.locWord (.die p.die d)
    let w := (⟨s, (old, 0, 0), p.streamPassed⟩ : Commit).frag p f (s.streamNear p f.z old) (f.z, 0, 0)
    ∃ t, exec (.streamCommit id px) s = .next t ∧ t.call? g.call = none ∧
      (∀ p', t.pass? id = some p' → p'.stream = p.stream.erase g ∧ p'.streamPassed = w.n) ∧
      (nan32 old = false → s.streamNear p f.z old = !(p.nearerZ old f.z)) ∧
      (goesOn p (p.nbx * p.nby) (some g) →
        (∀ a, outside s p g.call a → (a < d ∨ d + 4 ≤ a) → t.scratch.read (dieKey p.die a) = w.s.scratch.read (dieKey p.die a)) ∧
        ((∀ j, j < 4 → outside s p g.call (d + j)) → t.locWord (.die p.die d) = w.st.1))) ∧
  (∀ (s : State) (id call base count : Nat) (p : Pass), s.pass? id = some p → p.abandoned = false → p.ended = some (call, base, count) → p.resolving = true →
    p.nbx * p.nby ≤ p.nextBin → p.bins = [] → p.stream = [] →
    let t := s.finishPass id
    t.pass? id = none ∧ t.call? call = none ∧
      ∀ x ∈ [(0x00, p.prims.length), (0x08, p.culledN), (0x10, p.skipped)] ++ p.streamPassed.zipIdx.map (fun q => (0x38 + 8 * q.2, q.1)),
        (∀ j, j < 8 → outside s p call (p.stats + x.1 + j)) → counter t p x.1 = (counter s p x.1 + x.2) % 2 ^ 64)

/-- R329 to R341: a good Lattice call is answered OK with the hit of its triangle, or with the nearest hit of its patch when
every node encloses the offsets under it; a good Glaze call with its filtered channels, or with the network's six outputs;
a bad record gives BADREC, an address that fails ADDRFAULT; that a bad payload is told before a bad address is the model's
choice (log entry 22), as is the sign of a zero in the sums and in t, u and v (log entry 49). A unit reads each 64 bytes of
scratchpad as it stands when the call is answered or as it has stood at some time since the call was sent, which is not fixed; of
a line that has been zeroed for a new owner it finds nothing older. Each call ends, its RESULT in words 2 to 7 of its record. -/
def Obligations.UnitCalls : Prop :=
  let ends (s t : State) (c : Call) (st : Nat) (result : List Word) : Prop :=
    t.call? c.id = none ∧ (s.lineOk c.ctx c.die c.ret = true → c.arrive = 0 →
      (t.locWord (.die c.die c.ret)).toNat % 256 = st ∧ t.locWord (.die c.die (c.ret + 4)) = c.token ∧
      ∀ k w, k < 6 → result[k]? = some w → t.locWord (.die c.die (c.ret + 8 + 4 * k)) = w)
  let hit (c : Call) (h : Option Hit) : List Word :=
    match h with
    | some x => [x.t, x.u, x.v, BitVec.ofNat 32 x.leaf, c.words.getD 13 0, BitVec.ofNat 32 (1 + (if x.front then 2 else 0))]
    | none => [0x7F800000, 0, 0, 0xFFFFFFFF, c.words.getD 13 0, 0]
  (∀ (s : State) (id : Nat) (c : Call), s.serve id .lat 1 = some c →
    let vs := (List.range 3).map (fun k => (List.range 3).map (fun j => (s.unitReads c).locWord (.die c.die (c.word 12 + 12 * k + 4 * j))))
    ∃ t, exec (.latticeTri id) s = .next t ∧
      (c.rayOk = false → ends s t c 2 []) ∧
      (c.rayOk = true → s.spanOk c.ctx c.die (c.word 12) 64 .any = false → ends s t c 3 []) ∧
      (c.rayOk = true → s.spanOk c.ctx c.die (c.word 12) 64 .any = true →
        if vs.all (fun v => v.all finite32) = true
          then ends s t c 0 (hit c (testTri (c.run 4 3) (c.run 7 3) (c.words.getD 10 0) (c.words.getD 11 0) (c.word 14) 0 vs))
          else ends s t c 2 [])) ∧
  (∀ (s : State) (id : Nat) (c : Call), s.serve id .lat 2 = some c → c.rayOk = true → s.spanOk c.ctx c.die (c.word 12) 128 .any = true →
    let r := s.unitReads c
    let bs := r.readLoc (.die c.die (c.word 12)) 128
    let p := Patch.of bs
    p.ok bs = true → s.spanOk c.ctx c.die p.offBase (2 * gridLen (2 ^ p.depth)) .any = true →
    s.spanOk c.ctx c.die p.bounds (4 * nodeBase (p.depth + 1)) .any = true →
    (∀ q ∈ p.nodes, (r.nodeAt c.die p q.1 q.2).1 ≤ (r.nodeAt c.die p q.1 q.2).2 ∧ r.encloses c.die p q.1 q.2 = true) →
    ∃ t, exec (.patch id) s = .next t ∧ ends s t c 0 (hit c ((List.range (4 ^ p.depth)).foldl (fun a k => nearerHit a (r.leafHit c p k)) none))) ∧
  (∀ (s : State) (id : Nat) (c : Call) (dec : Bool), s.serve id .glz (if dec then 2 else 1) = some c → c.texOk dec = true →
    s.spanOk c.ctx c.die (c.word 7) 64 .any = true →
    let r := s.unitReads c
    let bs := r.readLoc (.die c.die (c.word 7)) 64
    let x := Tex.of bs
    x.ok bs dec = true → s.spanOk c.ctx c.die x.base (x.bytes * x.before x.levels) .any = true →
    (dec = true → s.spanOk c.ctx c.die x.net 640 .any = true) →
    let ch := (List.range x.channels).map (r.filtered c.die x (c.words.getD 4 0) (c.words.getD 5 0) (c.words.getD 6 0))
    ∃ t, exec (if dec then .decodeCall id else .sample id) s = .next t ∧
      (nan32 (c.words.getD 6 0) = true → ends s t c 0x11 []) ∧
      (nan32 (c.words.getD 6 0) = false → ends s t c 0 (if dec then r.network c.die x.net (ch ++ c.run 8 4) else ch))) ∧
  (∀ (s : State) (id : Nat) (c : Call) (dec : Bool), s.serve id .glz (if dec then 2 else 1) = some c → c.texOk dec = false →
    ∃ t, exec (if dec then .decodeCall id else .sample id) s = .next t ∧ ends s t c 2 []) ∧
  (∀ (s : State) (c : Call) (unit : Nat), (∀ w ∈ s.olds, ∀ x ∈ w.cells, ∀ y ∈ w.cells, x.1 = y.1 → x.2 = y.2) →
    ∃ p, c.sentAt ≤ p ∧ p ≤ max s.writes c.sentAt ∧ ∀ a, a / 64 = unit →
      (s.unitReads c).scratch.read (dieKey c.die a) = s.stoodAt (.die c.die) p a (s.scratch.read (dieKey c.die a))) ∧
  (∀ (s : State) (d a n : Nat), ∀ w ∈ (s.zeroLines d a n).olds, w.touches (.die d) a n = false)

/-! ### The Proofer's bytecodes -/

/-- R347, R349: a bytecode that computes leaves its result, modulo 2^64, in the program register gD; it is one step, its
packet goes on at the next word, and nothing else of the device changes. -/
def Obligations.RegisterBytecodes : Prop :=
  let gives (i : Instr) (d : Fin 8) (v : Eng → DWord) : Prop :=
    ∀ s e, eng? s = some e → ∃ t, exec i s = .next t ∧
      t.cmdq? e.q.ctx e.q.num = some { e.q with
        frames := { e.f with pc := e.f.pc + 1, steps := e.f.steps + 1 } :: e.rest, lost := none, g := e.q.g.set d.val (v e) } ∧
      (∀ c n, (c, n) ≠ (e.q.ctx, e.q.num) → t.cmdq? c n = s.cmdq? c n) ∧ { t with cmdqs := s.cmdqs } = s
  ∀ (d a b : Fin 8) (x : BitVec 17) (y : BitVec 16) (n : Fin 64) (w : Fin 8),
    gives (.bMovi d x) d (fun _ => BitVec.ofInt 64 x.toInt) ∧
    gives (.bMovh d y) d (fun e => BitVec.ofNat 64 ((e.g d).toNat * 2 ^ 16 + y.toNat)) ∧
    gives (.bAdd d a b) d (fun e => BitVec.ofNat 64 ((e.g a).toNat + (e.g b).toNat)) ∧
    gives (.bSub d a b) d (fun e => BitVec.ofInt 64 ((e.g a).toNat - (e.g b).toNat)) ∧
    gives (.bAnd d a b) d (fun e => e.g a &&& e.g b) ∧
    gives (.bOr d a b) d (fun e => e.g a ||| e.g b) ∧
    gives (.bAddi d a x) d (fun e => BitVec.ofInt 64 ((e.g a).toNat + x.toInt)) ∧
    gives (.bShl d a n) d (fun e => BitVec.ofNat 64 ((e.g a).toNat * 2 ^ n.val)) ∧
    gives (.bShr d a n) d (fun e => BitVec.ofNat 64 ((e.g a).toNat / 2 ^ n.val)) ∧
    gives (.bLdp d w) d (fun e => dwordAt e.f.packet (8 * w.val))

/-- R347 to R352, R355: the other bytecodes. ldw and stw act through view 4 on the eight bytes of the window at win(x); an
access that cannot be made faults the queue with WINFAULT (5). skip, loop and endl move the packet within its program,
waitl frees the engine, and the queue is drawn again once no launch of its own is left, ib enters a buffer (IBDEPTH 3 at level 4, IBFAULT 4), tkt sets
TICKETS between 1 and 255, endp ends a packet, launch starts a table that passes the checks (BADGRAPH 6, TABLEBUSY 7,
GRAPHFAULT 8), and a packet that would take its 513th step faults with BUDGET (2). A fault stops the queue and records
the word and the level. A word that needs a page waits for it. IBFAULT for a count or an alignment out of range and for
the ib word of the level above, and a word that waits for its page, are the model's reading (log entry 24), as is
TABLEBUSY before the checks of a table's content (log entry 25). -/
def Obligations.ProgramBytecodes : Prop :=
  let after (t : State) (e : Eng) (fs : List Frame) : Prop := ∃ q, t.cmdq? e.q.ctx e.q.num = some q ∧ q.frames = fs ∧ q.g = e.q.g
  let step (e : Eng) (pc : Nat) : Frame := { e.f with pc := pc, steps := e.f.steps + 1 }
  let on (e : Eng) : List Frame := step e (e.f.pc + 1) :: e.rest
  let quiet (s : State) (e : Eng) : Prop := ∀ w ∈ s.mapWaits, (w.ctx, w.num) ≠ (e.q.ctx, e.q.num)
  let faulted (t : State) (e : Eng) (code pc level : Nat) : Prop :=
    ∃ q, t.cmdq? e.q.ctx e.q.num = some q ∧ q.faulted = true ∧ q.fault = code ∧ q.frames = [] ∧ q.engine = none ∧
      q.faultPc = BitVec.ofNat 32 (pc % 2 ^ 16 + level * 2 ^ 16)
  let here (t : State) (e : Eng) (code : Nat) : Prop := faulted t e code e.f.pc e.rest.length
  let waits (t : State) (e : Eng) (p : Nat) : Prop :=
    ∃ q, t.cmdq? e.q.ctx e.q.num = some q ∧ q.stalled = some p ∧ q.frames = e.f :: e.rest
  let freed (t : State) (e : Eng) : Prop := t.engineQueue e.n = none
  let win (e : Eng) (a : Fin 8) (x : BitVec 17) : Nat :=
    e.q.wbase + ((BitVec.ofInt 64 ((e.g a).toNat + x.toInt)).toNat % e.q.wsize) / 8 * 8
  (∀ (d a : Fin 8) x s e, eng? s = some e →
    (s.span e.q.ctx (win e a x) 8 false e.q.lost = .ready → ∃ t q, exec (.bLdw d a x) s = .next t ∧
      t.cmdq? e.q.ctx e.q.num = some q ∧ q.frames = on e ∧
      ∀ bs, s.readVirt e.q.ctx (win e a x) 8 = some bs → q.g = e.q.g.set d.val (dwordAt bs 0)) ∧
    (s.span e.q.ctx (win e a x) 8 false e.q.lost = .bad → quiet s e → ∃ t, exec (.bLdw d a x) s = .next t ∧ here t e 5) ∧
    (∀ p, s.span e.q.ctx (win e a x) 8 false e.q.lost = .pageIn p → ∃ t, exec (.bLdw d a x) s = .next t ∧ waits t e p) ∧
    (s.span e.q.ctx (win e a x) 8 true e.q.lost = .ready → ∃ t, exec (.bStw a d x) s = .next t ∧ after t e (on e) ∧
      ∀ pa, s.views.length = 5 → (∀ j, j < 8 → s.translate e.q.ctx (win e a x + j) true = .at (pa + j)) →
        (∀ j, j < 8 → (SMap.get? (s.view 4).order (pa + j)).getD 0 < s.writeNo) →
        ∀ j, j < 8 → some ((t.view 4).mem.read (pa + j)) = (dwordBytes (e.g d))[j]?) ∧
    (s.span e.q.ctx (win e a x) 8 true e.q.lost = .bad → quiet s e → ∃ t, exec (.bStw a d x) s = .next t ∧ here t e 5) ∧
    (∀ p, s.span e.q.ctx (win e a x) 8 true e.q.lost = .pageIn p → ∃ t, exec (.bStw a d x) s = .next t ∧ waits t e p)) ∧
  (∀ cc a b (x : BitVec 17) s e, eng? s = some e → ∃ t, exec (.bSkip cc a b x) s = .next t ∧
    after t e (step e (if (match cc with
      | .always => true | .eq => decide (e.g a = e.g b) | .ne => decide (e.g a ≠ e.g b)
      | .ltu => decide ((e.g a).toNat < (e.g b).toNat) | .geu => decide ((e.g b).toNat ≤ (e.g a).toNat)) = true
      then e.f.pc + x.toNat else e.f.pc + 1) :: e.rest)) ∧
  (∀ n s e, eng? s = some e → ∃ t, exec (.bLoop n) s = .next t ∧
    after t e ({ step e (e.f.pc + 1) with loops := (e.f.pc + 1, n.toNat) :: e.f.loops } :: e.rest)) ∧
  (∀ s e start n l, eng? s = some e → e.f.loops = (start, n) :: l → ∃ t, exec .bEndl s = .next t ∧
    after t e ((if 1 < n then { step e start with loops := (start, n - 1) :: l } else { step e (e.f.pc + 1) with loops := l }) :: e.rest)) ∧
  (∀ s e, eng? s = some e → ∃ t, exec .bWaitl s = .next t ∧ (quiet s e → freed t e ∧ after t e (on e) ∧
      ∃ q, t.cmdq? e.q.ctx e.q.num = some q ∧ q.waitl = !e.q.launches.isEmpty ∧ q.engine = none)) ∧
  (∀ a b s e, eng? s = some e → ∃ t, exec (.bIb a b) s = .next t ∧
    let va := (e.g a).toNat
    let n := (e.g b).toNat
    (4 ≤ e.rest.length → quiet s e → here t e 3) ∧
    (e.rest.length < 4 → (n = 0 ∨ 65536 < n ∨ va % 64 ≠ 0 ∨ s.span e.q.ctx va 64 false e.q.lost = .bad) → quiet s e → here t e 4) ∧
    (e.rest.length < 4 → 1 ≤ n → n ≤ 65536 → va % 64 = 0 →
      (∀ p, s.span e.q.ctx va 64 false e.q.lost = .pageIn p → waits t e p) ∧
      (s.span e.q.ctx va 64 false e.q.lost = .ready → ∃ f, after t e (f :: on e) ∧ f.addr = va ∧ f.left = n - 1 ∧ f.pc = 0 ∧ f.steps = 0 ∧
        (∀ bs, s.readVirt e.q.ctx va 64 = some bs → f.packet = bs) ∧ (∀ c, SMap.get? s.programs e.q.prog = some c → f.code = c)))) ∧
  (∀ a s e, eng? s = some e → ∃ t q, exec (.bTkt a) s = .next t ∧ t.cmdq? e.q.ctx e.q.num = some q ∧ q.frames = on e ∧
    q.tickets = min 255 (max 1 (e.g a).toNat)) ∧
  (∀ s e, eng? s = some e → quiet s e → ∃ t, exec .bEndp s = .next t ∧
    (e.rest = [] → freed t e ∧
      ∃ q, t.cmdq? e.q.ctx e.q.num = some q ∧ q.head = e.q.head + 1 ∧ q.frames = [] ∧ q.engine = none ∧ q.lastEnd = s.clock) ∧
    ∀ p ps, e.rest = p :: ps →
      (e.f.left = 0 → after t e (p :: ps)) ∧
      (e.f.left ≠ 0 → s.span e.q.ctx (e.f.addr + 64) 64 false e.q.lost = .ready →
        ∃ f, after t e (f :: p :: ps) ∧ f.addr = e.f.addr + 64 ∧ f.left = e.f.left - 1 ∧ f.pc = 0 ∧ f.steps = 0) ∧
      (e.f.left ≠ 0 → s.span e.q.ctx (e.f.addr + 64) 64 false e.q.lost = .bad → faulted t e 4 (p.pc - 1) ps.length)) ∧
  (∀ a b s e, eng? s = some e → ∃ t, exec (.bLaunch a b) s = .next t ∧
    let va := (e.g a).toNat
    let n := (e.g b).toNat
    let ready (wr : Bool) : Prop := s.span e.q.ctx va (256 * n) wr e.q.lost = .ready
    let table (bs : List Byte) : List (List Byte) := (List.range n).map (fun i => (bs.drop (256 * i)).take 256)
    ((n = 0 ∨ 4096 < n ∨ va % 256 ≠ 0) → quiet s e → here t e 6) ∧
    (1 ≤ n → n ≤ 4096 → va % 256 = 0 →
      ((s.span e.q.ctx va (256 * n) false e.q.lost = .bad ∨ s.span e.q.ctx va (256 * n) true e.q.lost = .bad) → quiet s e → here t e 8) ∧
      ∀ bs, ready false → ready true → s.readVirt e.q.ctx va (256 * n) = some bs →
        (s.runs.any (fun r => r.ctx == e.q.ctx && r.table == va) = true → quiet s e → here t e 7) ∧
        (s.runs.any (fun r => r.ctx == e.q.ctx && r.table == va) = false → tableOk (table bs) = false → quiet s e → here t e 6) ∧
        (s.runs.any (fun r => r.ctx == e.q.ctx && r.table == va) = false → tableOk (table bs) = true → s.carried = [] →
          (∀ x ∈ pagePoints va (256 * n), ∃ pa, (s.resolveSpan e.q.ctx va (256 * n)).translate e.q.ctx x true = .at pa) →
          (∃ q, t.cmdq? e.q.ctx e.q.num = some q ∧ q.frames = on e ∧ q.launches = e.q.launches ++ [s.nextId]) ∧
          ∃ r ∈ t.runs, r.id = s.nextId ∧ r.ctx = e.q.ctx ∧ r.table = va ∧ r.queue = e.q.num ∧ r.images = table bs))) ∧
  (∀ s n e, eng? { s with cur := .engine n } = some e → 512 ≤ e.f.steps → quiet s e →
    ∃ t, exec (.budget n) s = .next t ∧ here t e 2)

/-! ### Queues, the lottery, graphs, placement, saves and pages -/

/-- R343 to R346, R353: a master's signal moves TAIL of a mapped queue, faults it with RINGOVER (1) past the ring, and does
nothing when stale; it maps an unmapped queue in the lowest free slot, or in place of the least recently signalled queue
without a packet in execution, or waits. A signal of no queue is journalled as BADSIGNAL. An idle queue is unmapped, its
descriptor updated; of the PENDING queues that are due, the one that became PENDING first is mapped again. A draw advances the generator, and the queue
on whose tickets the number falls runs on the engine that draws: of those free by an earlier cycle, the one that has been free
longest, and of those that became free in one cycle the lowest (that the first to become free draws first is the model's choice, log
entry 24). The journal entry's fields, and
IDLE counted from the later of the last signal and the last packet's end, are the model's reading (log entry 23). -/
def Obligations.Queues : Prop :=
  let takes (s t : State) (q q' : CmdQ) (tail : Word) : Prop :=
    let d := (tail - q.tail).toNat
    t.cmdq? q.ctx q.num = some q' ∧ q'.lastSignal = s.clock ∧
      ((d = 0 ∨ 2 ^ 31 ≤ d) → q'.tail = q.tail ∧ q'.faulted = q.faulted) ∧
      (0 < d → d < 2 ^ 31 → (tail - q.head).toNat ≤ 2 ^ q.logn → q'.tail = tail ∧ q'.faulted = q.faulted) ∧
      (0 < d → d < 2 ^ 31 → 2 ^ q.logn < (tail - q.head).toNat → q'.tail = q.tail ∧ q'.faulted = true ∧ q'.fault = 1)
  let slotFree (s : State) (k : Nat) : Prop :=
    k < 256 ∧ (∀ x ∈ s.cmdqs, x.slot ≠ some k) ∧ ∀ j, j < k → ∃ x ∈ s.cmdqs, x.slot = some j
  let full (s : State) : Prop := ∀ j, j < 256 → ∃ x ∈ s.cmdqs, x.slot = some j
  (∀ sid ctx (n rsv : BitVec 16) (tail : Word) s m, s.masterOf sid = some m →
    ((s.cmdq? ctx n.toNat = none ∨ rsv ≠ 0) → ∃ t e, exec (.signal sid ctx n rsv tail) s = .next t ∧ t.hub.journal.getLast? = some e ∧
      e.jseq = s.hub.jseq ∧ e.status = .badsignal ∧ e.source = m ∧ t.cmdqs = s.cmdqs) ∧
    (∀ q, s.cmdq? ctx n.toNat = some q → rsv = 0 →
      (q.slot.isSome = true → (∀ w ∈ s.mapWaits, (w.ctx, w.num) ≠ (ctx, n.toNat)) →
        ∃ t q', exec (.signal sid ctx n rsv tail) s = .next t ∧ takes s t q q' tail ∧ (s.mapWaits = [] → q'.slot = q.slot)) ∧
      (∀ k, q.slot = none → slotFree s k → s.mapWaits = [] → ∃ t q', exec (.signal sid ctx n rsv tail) s = .next t ∧ takes s t q q' tail ∧
        q'.slot = some k ∧ q'.pending = false ∧
        ∀ bs, s.readVirt ctx (q.desc + 0x40) 64 = some bs → q'.g = (List.range 8).map (fun j => dwordAt bs (8 * j))) ∧
      (∀ v k, q.slot = none → full s → s.mapWaits = [] → s.cmdq? v.ctx v.num = some v → v.slot = some k → v.engine = none →
        (∀ x ∈ s.cmdqs, x.slot = some k → x = v) →
        (∀ x ∈ s.cmdqs, ∀ j, x.slot = some j → x.engine = none → v.lastSignal < x.lastSignal ∨ (v.lastSignal = x.lastSignal ∧ k ≤ j)) →
        ∃ t q' v', exec (.signal sid ctx n rsv tail) s = .next t ∧ takes s t q q' tail ∧ q'.slot = some k ∧
          t.cmdq? v.ctx v.num = some v' ∧ v'.slot = none ∧ v'.pending = (v.head != v.tail)) ∧
      (q.slot = none → full s → (∀ x ∈ s.cmdqs, x.slot.isSome = true → x.engine.isSome = true) →
        ∃ t, exec (.signal sid ctx n rsv tail) s = .next t ∧ t.mapWaits = s.mapWaits ++ [⟨ctx, n.toNat, some tail⟩] ∧ t.cmdqs = s.cmdqs))) ∧
  (∀ k s q, s.cmdqs.find? (fun x => x.slot == some k) = some q → s.cmdq? q.ctx q.num = some q →
    (q.head = q.tail → q.frames = [] → q.engine = none →
      max q.lastSignal q.lastEnd + (if q.idle = 0 then 200 else q.idle) * Config.cyclesPerUs ≤ s.clock →
      ∃ t q', exec (.queueIdleTimeout k) s = .next t ∧ t.cmdq? q.ctx q.num = some q' ∧ q'.slot = none ∧ q'.pending = false ∧
        ∀ pa, s.views.length = 5 → q.g.length = 8 → (∀ j, j < 128 → s.translate q.ctx (q.desc + j) true = .at (pa + j)) →
          (∀ j, j < 128 → (SMap.get? (s.view 4).order (pa + j)).getD 0 < s.writeNo) →
          (∀ j, j < 64 → some ((t.view 4).mem.read (pa + 0x40 + j)) = (q.g.flatMap dwordBytes)[j]?) ∧
          (∀ j, j < 8 → some ((t.view 4).mem.read (pa + 0xC + j)) = (wordBytes q.head ++ wordBytes q.tail)[j]?)) ∧
    (s.clock < max q.lastSignal q.lastEnd + (if q.idle = 0 then 200 else q.idle) * Config.cyclesPerUs →
      exec (.queueIdleTimeout k) s = .next s)) ∧
  (∀ ctx n s q k, s.cmdq? ctx n = some q → q.slot = none → slotFree s k → q.pending = true → s.mapWaits = [] →
    (q.pendSince + 200 * Config.cyclesPerUs ≤ s.clock → (∀ x ∈ s.cmdqs, x.due s.clock = true → q.pendNo ≤ x.pendNo) →
      ∃ t q', exec (.pendingRemap ctx n) s = .next t ∧ t.cmdq? ctx n = some q' ∧ q'.slot = some k ∧ q'.pending = false ∧ q'.tail = q.tail) ∧
    ((∃ x ∈ s.cmdqs, x.due s.clock = true ∧ x.pendNo < q.pendNo) → exec (.pendingRemap ctx n) s = .next s) ∧
    (s.clock < q.pendSince + 200 * Config.cyclesPerUs → exec (.pendingRemap ctx n) s = .next s)) ∧
  (∀ (s : State) (n : Nat) (e : Engine), s.freeEngineNo = some n → s.engines[n]? = some e → e.queue = none ∧ e.service = false ∧ e.freeFrom ≤ s.clock ∧
    ∀ (k : Nat) (x : Engine), s.engines[k]? = some x → x.queue = none → x.service = false → x.freeFrom ≤ s.clock →
      e.freeFrom < x.freeFrom ∨ (e.freeFrom = x.freeFrom ∧ n ≤ k)) ∧
  (∀ s n pre q post, s.freeEngineNo = some n → s.readyQueues = pre ++ q :: post → s.cmdq? q.ctx q.num = some q →
    let x1 := s.lottery ^^^ BitVec.ofNat 32 (s.lottery.toNat * 2 ^ 13)
    let x2 := x1 ^^^ BitVec.ofNat 32 (x1.toNat / 2 ^ 17)
    let x3 := x2 ^^^ BitVec.ofNat 32 (x2.toNat * 2 ^ 5)
    let sum (l : List CmdQ) : Nat := (l.map CmdQ.tickets).sum
    let w := x3.toNat % sum s.readyQueues
    sum pre ≤ w → w < sum pre + q.tickets →
    let at_ := q.ring + 64 * (q.head.toNat % 2 ^ q.logn)
    ∃ t q', exec .lotteryDraw s = .next t ∧ t.lottery = x3 ∧ (t.engines[n]?).map Engine.queue = some (some (q.ctx, q.num)) ∧
      t.cmdq? q.ctx q.num = some q' ∧ q'.engine = some n ∧ (q.frames ≠ [] → q'.frames = q.frames) ∧
      (q.frames = [] → (∀ p, s.span q.ctx at_ 64 false q.lost ≠ .pageIn p) →
        ∃ f, q'.frames = [f] ∧ f.addr = at_ ∧ f.pc = 0 ∧ f.steps = 0 ∧ (∀ bs, s.readVirt q.ctx at_ 64 = some bs → f.packet = bs) ∧
          ∀ c, SMap.get? s.programs q.prog = some c → f.code = c))

/-- R356 to R359, R362, R371, R377, R378, R390: a node whose teams have all ended is DONE and its successors lose a
predecessor, the last of which starts them, or it is FAILED and the waiting nodes after it are SKIPPED, or CANCELLED; with
no node waiting or running the graph is over. Completions are handled in the order of their cycles, those of one cycle in
ascending index, once the cycle is over. A placement round, in the cycle after an event that asks for one, starts the
teams of a unit that fits, with registers zero at the node's entry (the stored words of T registers, which have no defined
value, are log entry 4's choice). Dispatch launches one team with the next TEAMID, or stops the queue when the team could
never be placed; what can never be placed, which save place a team takes and where an image is written are the model's choice where the
rules leave them open (log entries 25 and 26). A quiet halted team is saved and leaves its core, which may complete a pre-emption. A page wanted becomes
resident with its contents; a COW page gets a frame of its own. That bytes which a page's source does not list are 0 is the
model's choice (log entry 7). -/
def Obligations.Launches : Prop :=
  let stateOf (t : State) (run i : Nat) : Option NodeState := (t.run? run).bind (fun r => (r.nodes[i]?).map NodeRun.state)
  let open_ (n : NodeRun) : Prop := n.state = .waiting ∨ n.state = .running
  let free (s : State) (f n : Nat) : Prop := s.views.length = 5 ∧ s.carried = [] ∧
    ∀ j, j < n → (SMap.get? (s.view 4).order (f + j)).getD 0 < s.writeNo
  (∀ (r : GraphRun) (clock i : Nat), r.due clock = some i → ∃ n, r.nodes[i]? = some n ∧ n.state = .running ∧ n.left = 0 ∧ n.dueFrom ≤ clock ∧
    ∀ (j : Nat) (m : NodeRun), r.nodes[j]? = some m → m.state = .running → m.left = 0 → m.dueFrom ≤ clock →
      n.dueFrom < m.dueFrom ∨ (n.dueFrom = m.dueFrom ∧ i ≤ j)) ∧
  (∀ s run node r n, s.run? run = some r → r.due s.clock = some node → r.nodes[node]? = some n →
    let succ := nodeSucc (r.images.getD node [])
    let others : Prop := ∃ j m, j ≠ node ∧ r.nodes[j]? = some m ∧ open_ m
    ∃ t, exec (.nodeComplete run node) s = .next t ∧
      ((∀ j m, j ≠ node → r.nodes[j]? = some m → ¬ open_ m) → t.run? run = none ∧
        ∀ q, s.cmdq? r.ctx r.queue = some q → ∃ q', t.cmdq? r.ctx r.queue = some q' ∧
          q'.launches = q.launches.filter (fun k => k != run) ∧ (q'.launches = [] → q'.waitl = false)) ∧
      (n.cancelled = true → others → stateOf t run node = some .cancelled) ∧
      (n.cancelled = false → n.cause.isSome = true → (∃ j m, j ≠ node ∧ r.nodes[j]? = some m ∧ m.state = .running) →
        stateOf t run node = some .failed ∧
        ∀ i m, i ∈ reach (fun k => nodeSucc (r.images.getD k [])) r.nodes.length succ → i ≠ node → r.nodes[i]? = some m → m.state = .waiting →
          stateOf t run i = some .skipped) ∧
      (n.cancelled = false → n.cause = none → others → node ∉ succ → succ.Nodup →
        stateOf t run node = some .done ∧
        ∀ i m, i ∈ succ → r.nodes[i]? = some m → ∃ r' m', t.run? run = some r' ∧ r'.nodes[i]? = some m' ∧ m'.counter = m.counter - 1 ∧
          (m.state = .waiting → m'.state = if m.counter ≤ 1 then .running else .waiting))) ∧
  (∀ s u c, s.roundDue = true → (∀ x ∈ s.saved, x.doomed = none) → s.units = [u] → u.restore = [] → u.more = 0 → s.ctx? u.ctx = some c → s.ctxRuns u.ctx = true →
    s.carried = [] →
    let need := nodeNeed u.image
    s.noFit need u.teams (s.unitDies u) c.saveSize = false →
    ∀ offs fits, saveRoom c.saveSize need.save u.teams (s.savePlaces u.ctx) = some offs →
      s.chooseAll (List.replicate u.teams need) (s.unitDies u) = some fits →
      ∃ t new, exec .placementRound s = .next t ∧ t.placeDue = decide (s.clock ≤ s.placeLast) ∧ t.units = [] ∧ t.teams = s.teams ++ new ∧
        new.length = (fits.zip offs).length ∧
        ∀ k f o, (fits.zip offs)[k]? = some (f, o) → ∃ tm, new[k]? = some tm ∧ tm.ctx = u.ctx ∧ tm.origin = u.origin ∧
          tm.die = f.die ∧ tm.core = f.core ∧ tm.teamid = BitVec.ofNat 32 (u.firstTeam + k) ∧ tm.tic = k ∧ tm.csize = u.teams - 1 ∧
          tm.handler = nodeHandler u.image ∧ tm.killed = none ∧ tm.groups.length = nodeGroups u.image ∧ tm.frontier = [⟨0, nodeEntry u.image, 0⟩] ∧
          ∀ g ∈ tm.groups, g.threads.length = 32 ∧ ∀ th ∈ g.threads, th.pc = nodeEntry u.image ∧ th.place = .entry 0 ∧ th.exited = false ∧
            (∀ x, th.v.read x = 0 ∧ th.t.read x = 0) ∧ th.p = 1) ∧
  (∀ s, (s.placeDue = false ∨ s.clock ≤ s.placeSince) → exec .placementRound s = .next s) ∧
  (∀ s ctx q x n c, s.taskq? ctx q = some x → s.ctx? ctx = some c → x.dtable ≠ 0 → x.stopped = false → x.head ≠ x.tail → x.alive < x.maxteams → s.ctxRuns ctx = true →
    s.readVirt ctx (x.dtable + 256 * x.dnode) 256 = some n → nodeFit n = true →
    let s1 := (s.modTaskq ctx q (fun x => { x with nextTeam := x.nextTeam + 1, alive := x.alive + 1 })).launchScratch ctx n [x.die]
    ∃ t x', exec (.dispatch ctx q) s = .next t ∧ t.placeDue = true ∧ t.taskq? ctx q = some x' ∧ x'.nextTeam = x.nextTeam + 1 ∧
      (s1.noFit (nodeNeed n) 1 [x.die] c.saveSize = true → x'.stopped = true ∧ x'.alive = x.alive ∧ t.units = s.units) ∧
      (s1.noFit (nodeNeed n) 1 [x.die] c.saveSize = false → x'.stopped = false ∧ x'.alive = x.alive + 1 ∧
        ∃ u, t.units = s.units ++ [u] ∧ u.ctx = ctx ∧ u.origin = .dispatch ctx q ∧ u.firstTeam = x.nextTeam ∧ u.teams = 1 ∧ u.more = 0 ∧
          u.image = n ∧ u.restore = [])) ∧
  (∀ s id tm, s.team? id = some tm → tm.halted = true → tm.killed = none → tm.all.any (fun p => !p.2.2.exited) = true → s.quiet tm = true → s.callsSettled tm = true →
    s.noStep tm = true → s.noCommit tm.ctx = true →
    ∃ t x, exec (.save id) s = .next t ∧ t.teams = s.teams.filter (fun u => u.id != tm.id) ∧ t.saved = s.saved ++ [x] ∧ x.id = id ∧
      x.ctx = tm.ctx ∧ x.teamid = tm.teamid ∧ x.tic = tm.tic ∧ x.die = tm.die ∧ x.groups.length = tm.groups.length ∧
      t.claims = s.claims.filter (fun q => q.team != tm.id) ∧
      ∀ c sid m jseq seq, s.ctx? tm.ctx = some c → c.run = .preempting sid m jseq seq → (∀ u ∈ s.teams, u.ctx = tm.ctx → u.id = id) →
        (t.ctx? tm.ctx).map Context.run = some .saved ∧
        ∀ k, (k = sid ∨ k ∈ c.again) →
          .response { sid := k, jseq := jseq, cmd := 0x1B, status := .ok, nextSeq := seq + 1,
                      body := leBytes 4 ((s.saved.filter (fun y => y.ctx == tm.ctx)).length + 1) } ∈ t.hub.outbox) ∧
  (∀ s ctx va ok data p bs f, s.pageAt ctx va = some p → (∀ pa, p.place ≠ .resident pa) → s.pageWanted ctx p = true →
    (if ok then s.gather.backing p data else none) = some bs → s.frameFor ctx p.size = some f →
    ∃ t, exec (.pageIn ctx va ok data) s = .next t ∧ t.pageAt ctx va = some { p with place := .resident f, owned := true } ∧
      (free s f p.size → ∀ j, j < p.size → (t.view 4).mem.read (f + j) = match bs.find? (fun x => x.1 == j) with | some x => x.2 | none => 0)) ∧
  (∀ s ctx va p pa f, s.pageAt ctx va = some p → p.place = .resident pa → p.cow = true → 0 < p.size → s.retiredIn pa p.size = false →
    s.copies.any (fun c => c.ctx == ctx && c.stalled == some va) = true → s.frameFor ctx p.size = some f →
    ∃ t, exec (.cowResolve ctx va) s = .next t ∧
      t.pageAt ctx va = some { p with place := .resident f, write := true, cow := false, owned := true } ∧
      (s.carried = [] → ∀ c ∈ t.copies, c.ctx = ctx → c.stalled ≠ some va) ∧
      (free s f p.size → ∀ j, j < p.size → (t.view 4).mem.read (f + j) = (s.view 4).mem.read (pa + j)))

/-! ### The hub -/

/-- R302, R381 to R385, R392, R396, R397, R399: a session binds to a master's key or to a peer's; a peer writes and reads
view 4 in pages mapped for it; HSEM ends with its lease; boot takes the valid marker of higher MSEQ whose slot verifies, or
the recovery loader; power loss resets the device and keeps the flash; SCRUB counts a corrected error, journalled at most once a second for
each array, and journals an uncorrectable one, which in hub SRAM does no more, else zeroes an unowned line, poisons an owned one and ends its context, drops a buffer entry and ends its context, kills the
team, ends the call or retires the page; a core
fault starts a migration to a spare, or closes the core; SVCDONE ends the operation, and the first waiting fault of a core that is
still in placement is served. That LAST is 0 after a power loss, and
what a peer's access that its pages do not admit does, is the model's choice (log entries 31 and 36), as are the moments at
which a service operation may complete and a waiting core fault is served (log entry 30) and the order in which spares are
taken (log entry 48). That a page error retires every 64 KiB of each page that holds it, that an error in a retired page does
nothing, what is dropped with an entry, and that an error in hub SRAM ends nothing, is the model's choice (log entry 37). -/
def Obligations.HubEvents : Prop :=
  let logged (s t : State) (code ctx detail : Nat) : Prop :=
    ∃ e ∈ t.hub.journal, e.jseq = s.hub.jseq ∧ e.time = s.clock ∧ e.cmd = BitVec.ofNat 16 code ∧ e.source = 2 ∧ e.ctx = BitVec.ofNat 32 ctx ∧
      e.detail = BitVec.ofNat 32 detail
  let dead (t : State) (id : Nat) : Prop := ∀ u, t.team? id = some u → u.killed.isSome = true
  let ended (t : State) (ctx : Nat) : Prop :=
    (t.ctx? ctx).map Context.ended = some true ∧ ∀ u, t.team? u.id = some u → u.ctx = ctx → u.killed.isSome = true
  let uncorr (cls die core word : Nat) : Nat := cls * 2 ^ 28 + die % 4 * 2 ^ 26 + core % 128 * 2 ^ 19 + word % 2 ^ 19
  (∀ sid port key s, s.session? sid = none → port < 8 → s.hub.portsOut.contains port = false →
    let keyIs (m : Nat) : Prop := ∃ x, s.hub.masters[m]? = some x ∧ x.key = key
    (∀ m, m < 2 → keyIs m → (∀ k, k < m → ¬ keyIs k) →
      ∃ t, exec (.sessionEstablish sid port key) s = .next t ∧ t.hub.sessions = s.hub.sessions ++ [⟨sid, port, .master m⟩]) ∧
    (¬ keyIs 0 → ¬ keyIs 1 →
      (∀ p, s.hub.peers.find? (fun p => p.key == key) = some p → ∃ t, exec (.sessionEstablish sid port key) s = .next t ∧
        t.hub.sessions = s.hub.sessions ++ [⟨sid, port, .peer key⟩]) ∧
      ((∀ p ∈ s.hub.peers, p.key ≠ key) → exec (.sessionEstablish sid port key) s = .next s))) ∧
  (∀ sid ctx va data s, (s.peerMay sid ctx va data.length = true → s.span ctx va data.length true none = .ready →
      ∃ t, exec (.peerWrite sid ctx va data) s = .next t ∧ t.hub.outbox = s.hub.outbox ++ [.ack sid] ∧
        ∀ pa, s.views.length = 5 → (∀ j, j < data.length → s.translate ctx (va + j) true = .at (pa + j)) →
          (∀ j, j < data.length → (SMap.get? (s.view 4).order (pa + j)).getD 0 < s.writeNo) →
          ∀ j, j < data.length → some ((t.view 4).mem.read (pa + j)) = data[j]?) ∧
    (s.peerMay sid ctx va data.length = false → exec (.peerWrite sid ctx va data) s = .next s)) ∧
  (∀ sid ctx va n s, (∀ bs, s.peerMay sid ctx va n = true → s.readVirt ctx va n = some bs →
      ∃ t, exec (.peerRead sid ctx va n) s = .next t ∧ t.hub.outbox = s.hub.outbox ++ [.read sid bs]) ∧
    (s.peerMay sid ctx va n = false → exec (.peerRead sid ctx va n) s = .next s)) ∧
  (∀ s m e, s.hub.hsem = some (m, e) → (e ≤ s.clock → ∃ t, exec .hsemLeaseExpiry s = .next t ∧ t.hub.hsem = none) ∧
    (s.clock < e → exec .hsemLeaseExpiry s = .next s)) ∧
  (∀ s a b, s.hub.needBoot = true → s.hub.markers = [a, b] →
    let good (k : Marker) : Bool := k.valid && s.hub.slotOk k
    let boots (k : Marker) : Prop := ∃ t, exec .boot s = .next t ∧ t.hub.booted = some k ∧ t.hub.needBoot = false ∧ t.hub.recovery = false ∧
      logged s t 0x8009 0 (k.slot.toNat % 2)
    (good a = true → (good b = false ∨ b.mseq.toNat ≤ a.mseq.toNat) → boots a) ∧
    (good b = true → (good a = false ∨ a.mseq.toNat < b.mseq.toNat) → boots b) ∧
    (good a = false → good b = false → ∃ t, exec .boot s = .next t ∧ t.hub.booted = none ∧ t.hub.needBoot = false ∧
      t.hub.recovery = true ∧ logged s t 0x800A 0 0)) ∧
  (∀ s part, ∃ t, exec (.powerLoss part) s = .next t ∧ t.clock = 0 ∧ t.teams = [] ∧ t.contexts = [] ∧ t.cmdqs = [] ∧ t.saved = [] ∧
    t.scratch = [] ∧ t.lottery = 1 ∧ t.hub.hsem = none ∧ t.hub.journal = [] ∧ t.hub.jseq = 0 ∧ t.hub.sessions = [] ∧ t.hub.needBoot = true ∧
    t.hub.masters.map Master.last = [0, 0] ∧ t.hub.masters.map Master.frozen = [false, false] ∧
    (part = none → t.hub.flash = s.hub.flash ∧ t.hub.markers = s.hub.markers) ∧
    (∀ bs, part = some (.marker bs) → t.hub.flash = s.hub.flash ∧ t.hub.markers = modifyAt (fun _ => markerFrom bs) s.hub.lower s.hub.markers) ∧
    ∀ off bs img, part = some (.image off bs) → s.hub.flash[s.hub.target]? = some img → t.hub.markers = s.hub.markers ∧
      ∃ img', t.hub.flash[s.hub.target]? = some img' ∧ (img'.drop off).take bs.length = bs ∧
        (∀ k, k ≠ s.hub.target → t.hub.flash[k]? = s.hub.flash[k]?)) ∧
  (∀ s, exec (.scrub none) s = .next s) ∧
  (∀ s a, ∃ t, exec (.scrub (some (.single a))) s = .next t ∧ t.hub.corrcount = s.hub.corrcount + 1 ∧
    ((∀ c, s.corrTime a = some c → c + 1000000 * Config.cyclesPerUs ≤ s.clock) →
      logged s t 0x8003 0 ((s.hub.corrcount + 1).toNat % 2 ^ 32) ∧ t.corrTime a = some s.clock) ∧
    (∀ c, s.corrTime a = some c → s.clock < c + 1000000 * Config.cyclesPerUs → t.hub.journal = s.hub.journal ∧ t.corrTime a = some c) ∧
    ∀ b, b ≠ a → t.corrTime b = s.corrTime b) ∧
  (∀ s word, ∃ t, exec (.scrub (some (.hub word))) s = .next t ∧ logged s t 0x8004 0 (uncorr 7 0 0 word) ∧ t.teams = s.teams ∧
    t.contexts = s.contexts) ∧
  (∀ s die core off, ∃ t, exec (.scrub (some (.scratch die core off))) s = .next t ∧
    logged s t 0x8004 (s.tagAt die core off).1 (uncorr 2 die core (off / 8)) ∧
    ((s.tagAt die core off).1 = 0 → ∀ j, j < 64 → t.scratch.read (dieKey die (core * 2 ^ 22 + off / 64 * 64) + j) = 0) ∧
    ((s.tagAt die core off).1 ≠ 0 → t.isPoisoned die (core * 2 ^ 22 + off) = true) ∧
    ∀ c, (s.tagAt die core off).1 ≠ 0 → s.ctx? (s.tagAt die core off).1 = some c → c.ended = false → ended t (s.tagAt die core off).1) ∧
  (∀ s id u cls, s.team? id = some u →
    (∃ t w, exec (.scrub (some (.regs id))) s = .next t ∧ logged s t 0x8004 u.ctx (uncorr 1 u.die u.core w) ∧ dead t id) ∧
    ∃ t w, exec (.scrub (some (.teamState id cls))) s = .next t ∧ logged s t 0x8004 u.ctx (uncorr cls u.die u.core w) ∧ dead t id) ∧
  (∀ s b ctx die core u c, s.takeEntry b = some (ctx, die, core, u) → s.ctx? ctx = some c → c.ended = false →
    ∃ t w, exec (.scrub (some (.entry b))) s = .next t ∧ logged s t 0x8004 ctx (uncorr 6 die core w) ∧ ended t ctx) ∧
  (∀ (s : State), (∀ id c, s.copy? id = some c → (s.takeEntry (.copy id)).map (fun p => (p.1, p.2.1, p.2.2.1)) = some (c.ctx, c.die, c.core)) ∧
    (∀ id c, s.call? id = some c → c.accepted = false → (s.takeEntry (.call id)).map (fun p => (p.1, p.2.1, p.2.2.1)) = some (c.ctx, c.die, c.core)) ∧
    ∀ die core k p, (s.takeEntry (.request die core k) = some p ∨ s.takeEntry (.staged die core k) = some p) → p.2.1 = die ∧ p.2.2.1 = core) ∧
  (∀ s id c, s.copy? id = some c → ∃ t, exec (.scrub (some (.entry (.copy id)))) s = .next t ∧ t.copy? id = none) ∧
  (∀ s id c, s.call? id = some c → c.accepted = false → ∃ t, exec (.scrub (some (.entry (.call id)))) s = .next t ∧ t.call? id = none) ∧
  (∀ s die core k q, (s.estUnit die core).inbuf[k]? = some q → (s.reqCtx q).isSome = true →
    ∃ t, exec (.scrub (some (.entry (.request die core k)))) s = .next t ∧
      (t.estUnit die core).inbuf = (s.estUnit die core).inbuf.eraseIdx k) ∧
  (∀ s die core k c, (s.estUnit die core).staged[k]? = some c →
    ∃ t, exec (.scrub (some (.entry (.staged die core k)))) s = .next t ∧
      (t.estUnit die core).staged = (s.estUnit die core).staged.eraseIdx k) ∧
  (∀ s id c, s.call? id = some c → c.accepted = true → ∃ t w, exec (.scrub (some (.unitCall id))) s = .next t ∧
    logged s t 0x8004 c.ctx (uncorr 8 c.die c.core w) ∧ t.call? c.id = none ∧
    (s.lineOk c.ctx c.die c.ret = true → c.arrive = 0 → (t.locWord (.die c.die c.ret)).toNat % 256 = 4)) ∧
  (∀ s id p, s.pass? id = some p → ∃ t d, exec (.scrub (some (.unitPass id))) s = .next t ∧ logged s t 0x8004 p.ctx d ∧
    ∀ p', t.pass? id = some p' → p'.abandoned = true) ∧
  (∀ s pa, (s.isRetired pa = false → ∃ t, exec (.scrub (some (.page pa))) s = .next t ∧ t.isRetired pa = true ∧ logged s t 0x8005 0 (pa / 65536) ∧
      ∀ c ∈ s.contexts, ∀ p ∈ c.pages, ∀ f, p.frame? = some f → f ≤ pa → pa < f + p.size → ∀ k, k < p.size / 65536 →
        t.isRetired ((f / 65536 + k) * 65536) = true) ∧
    (s.isRetired pa = true → exec (.scrub (some (.page pa))) s = .next s)) ∧
  (∀ s die core, die < Config.dies → core < Config.cores →
    let moves (spare : Bool) (t : State) : Prop := t.hub.svc = some ⟨.core die core spare, s.migrants die core⟩ ∧
      ∀ u ∈ t.teams, u.id ∈ s.migrants die core → u.halted = true
    (s.hub.svc.isSome = true → ∃ t, exec (.coreFault die core) s = .next t ∧ t.hub.coreFaults = s.hub.coreFaults ++ [(die, core)]) ∧
    (s.hub.svc = none → s.cores.out.contains (die * 128 + core) = true → exec (.coreFault die core) s = .next s) ∧
    (s.hub.svc = none → s.cores.out.contains (die * 128 + core) = false →
      (s.hasSpare die = true → ∃ t, exec (.coreFault die core) s = .next t ∧ moves true t) ∧
      (s.hasSpare die = false → ∃ t, exec (.coreFault die core) s = .next t ∧ moves false t ∧ logged s t 0x8008 0 (die * 128 + core)))) ∧
  (∀ s v, s.hub.svc = some v → (s.svcReady v = false → exec .svcDone s = .next s) ∧
    (s.svcReady v = true → s.hub.coreFaults = [] → ∃ t, exec .svcDone s = .next t ∧ t.hub.svc = none ∧
      (∀ n e, v.op = .engine n → s.engines[n]? = some e → logged s t 0x8007 0 0x30 ∧ t.engines[n]? = some { e with service := false, freeFrom := s.clock + 1 }) ∧
      (∀ n, v.op = .stack n → logged s t 0x8007 0 0x31) ∧
      (∀ p, v.op = .port p → logged s t 0x8007 0 0x33 ∧ t.hub.portsOut = []) ∧
      (∀ die core, v.op = .core die core true → die < s.cores.sparesUsed.length → logged s t 0x8007 0 0x32 ∧ t.placeDue = true ∧
        SMap.get? t.cores.phys (die * 128 + core) = some (Config.cores + s.cores.sparesUsed.getD die 0) ∧
        t.cores.sparesUsed.getD die 0 = s.cores.sparesUsed.getD die 0 + 1) ∧
      (∀ die core, v.op = .core die core false → t.cores.out = s.cores.out ++ [die * 128 + core])) ∧
    (∀ pre die core l, s.svcReady v = true → (∀ d c b, v.op ≠ .core d c b) → s.hub.coreFaults = pre ++ (die, core) :: l →
      (∀ p ∈ pre, s.cores.out.contains (p.1 * 128 + p.2) = true) → s.cores.out.contains (die * 128 + core) = false →
      ∃ t spare ids, exec .svcDone s = .next t ∧ t.hub.coreFaults = l ∧ t.hub.svc = some ⟨.core die core spare, ids⟩))

/-! ### The masters' commands -/

/-- R386 to R392, R396: what every command record meets, in this order. A record from no master's session, or before
boot, does nothing. A record whose signature does not verify is BADSIG, one out of sequence BADSEQ, and a repeat of the
last one is answered with the response kept, or, for a CTXPREEMPT not answered yet, when that is; none of these changes a
master port. A record in sequence takes LAST, and is FROZEN for a frozen master, BADCMD in the recovery loader unless it serves it, HSEMREQ without HSEM where it needs it (and
freezes its master), BADCMD with a body or a context that breaks the rules. Each is journalled and answered. The order of
these tests, and the fields of the journal entry of a record whose signature does not verify, are the model's reading (log
entry 29). -/
def Obligations.CommandProtocol : Prop :=
  let answered (r : MRec) (cmd : BitVec 16) (s t : State) (m : Nat) (st : Status) : Prop :=
    (∃ e, t.hub.journal.getLast? = some e ∧ e.jseq = s.hub.jseq ∧ e.time = s.clock ∧ e.cmd = cmd ∧ e.status = st ∧ e.source = m ∧
      e.seq = r.seq ∧ e.ctx = r.ctx ∧ e.digest = (recHash r cmd).take 16) ∧
    t.hub.outbox = s.hub.outbox ++ [.response ⟨r.sid, s.hub.jseq, cmd, st, (t.master m).last + 1, []⟩]
  let early (cmd : BitVec 16) (i : MRec → Instr) : Prop := ∀ r s,
    ((s.masterOf r.sid = none ∨ s.hub.needBoot = true) → exec (i r) s = .next s) ∧
    ∀ sm, s.masterOf r.sid = some sm → s.hub.needBoot = false →
      (s.signer cmd r = none → ∃ t, exec (i r) s = .next t ∧ answered r cmd s t sm .badsig ∧ t.hub.masters = s.hub.masters)
  let proto (c : Nat) (hsem loader dev : Bool) (len : Option Nat) (i : MRec → Instr) : Prop :=
    let cmd := BitVec.ofNat 16 c
    early cmd i ∧
    ∀ r s sm m, s.masterOf r.sid = some sm → s.hub.needBoot = false → s.signer cmd r = some m →
      let x := s.master m
      let turned (t : State) (st : Status) : Prop := exec (i r) s = .next t ∧ answered r cmd s t m st ∧ (t.master m).last = r.seq
      (r.seq ≠ x.last + 1 → ¬ (r.seq = x.last ∧ (recHash r cmd).take 16 = x.lastDigest) →
        ∃ t, exec (i r) s = .next t ∧ answered r cmd s t m .badseq ∧ t.hub.masters = s.hub.masters) ∧
      (∀ y, r.seq = x.last → (recHash r cmd).take 16 = x.lastDigest → x.lastResp = some y →
        ∃ t, exec (i r) s = .next t ∧ t.hub.outbox = s.hub.outbox ++ [.response { y with sid := r.sid }] ∧ t.hub.journal = s.hub.journal ∧
          t.hub.masters = s.hub.masters) ∧
      (r.seq = x.last → (recHash r cmd).take 16 = x.lastDigest → x.lastResp = none →
        ∃ t, exec (i r) s = .next t ∧ t.hub = s.hub ∧
          ∀ c sid j, s.ctx? c.id = some c → c.run = .preempting sid m j r.seq → ∃ c', t.ctx? c.id = some c' ∧ c'.again = c.again ++ [r.sid]) ∧
      (r.seq = x.last + 1 →
        (x.frozen = true → ∃ t, turned t .frozen) ∧
        (x.frozen = false → loader = false → s.hub.recovery = true → ∃ t, turned t .badcmd) ∧
        (x.frozen = false → (loader = true ∨ s.hub.recovery = false) → hsem = true → s.holder ≠ some m →
          ∃ t, turned t .hsemreq ∧ (t.master m).frozen = true) ∧
        (x.frozen = false → (loader = true ∨ s.hub.recovery = false) → (hsem = true → s.holder = some m) →
          (r.rsv ≠ 0 ∨ (dev = true ∧ r.ctx ≠ 0) ∨ (dev = false ∧ ∀ c, s.ctx? r.ctx.toNat = some c → c.dying = true) ∨
            (∃ n, len = some n ∧ r.body.length ≠ n)) → ∃ t, turned t .badcmd))
  proto 0x01 false true true (some 4) .hsemacq ∧ proto 0x02 true true true (some 0) .hsemrel ∧
  proto 0x03 false true true (some 4) .thaw ∧ proto 0x04 false true true (some 8) .jread ∧
  proto 0x10 false false true (some 32) .ctxcreate ∧ proto 0x11 false false false (some 0) .ctxdestroy ∧
  proto 0x12 false false false (some 16) .qcreate ∧ proto 0x13 false false false (some 4) .qdestroy ∧
  proto 0x14 false false false (some 4) .qclear ∧ proto 0x15 false false false (some 36) .tqcreate ∧
  proto 0x16 false false false (some 16) .progload ∧ proto 0x17 false false false (some 24) .map ∧
  proto 0x18 false false false (some 16) .unmap ∧ proto 0x19 false false false (some 88) .peermap ∧
  proto 0x1A false false false (some 8) .graphcancel ∧ proto 0x1B false false false (some 0) .ctxpreempt ∧
  proto 0x1C false false false (some 0) .ctxresume ∧ proto 0x20 true false true (some 4) .seed ∧
  proto 0x21 true true true none .fwwrite ∧ proto 0x22 true true true (some 4) .fwcommit ∧
  proto 0x23 true true true (some 0) .reset ∧ proto 0x24 true false true (some 64) .keyset ∧
  proto 0x25 false false true (some 32) .attest ∧ proto 0x30 true false true (some 4) .svcEngine ∧
  proto 0x31 true false true (some 4) .svcStack ∧ proto 0x32 true false true (some 4) .svcCore ∧
  proto 0x33 true false true (some 4) .svcPort ∧
  (∀ c, c < 2 ^ 16 → c ∉ knownCodes → proto c false false true none (.unknownCommand (BitVec.ofNat 16 c)) ∧
    ∀ r s sm m, let cmd := BitVec.ofNat 16 c
      s.masterOf r.sid = some sm → s.hub.needBoot = false → s.signer cmd r = some m → r.seq = (s.master m).last + 1 →
      (s.master m).frozen = false → s.hub.recovery = false →
      ∃ t, exec (.unknownCommand cmd r) s = .next t ∧ answered r cmd s t m .badcmd ∧ (t.master m).last = r.seq) ∧
  (∀ cmd, early cmd (.badsig cmd))

/-- R353, R389, R391 to R393, R396 to R399: the device's commands. HSEMACQ takes or extends HSEM, BUSY while the other master
holds it; HSEMREL releases it; THAW thaws the other master; JREAD returns up to 64 entries; SEED sets the generator; KEYSET
sets the master's own key; ATTEST signs what has booted; FWWRITE writes the slot not running, FWCOMMIT verifies it and
overwrites the lower marker; RESET resets; the service commands start their operation, BUSY while one runs. That LAST is 0
after RESET, the layout of the message ATTEST signs, where sessions of a port go, and what JREAD answers from an empty
journal, are the model's choice (log entries 30, 31, 32 and 38), as are the algorithm behind a signature, a check and a digest (log
entry 39) and where an image holds what is checked of it, its SVN and the device's secret (log entry 19). -/
def Obligations.DeviceCommands : Prop :=
  let w (r : MRec) (k : Nat) : Nat := (wordAt r.body k).toNat
  let b0 (r : MRec) (k : Nat) : Nat := (byteAt r.body k).toNat
  let idle (s : State) : Prop := s.hub.svc = none
  let moved (r : MRec) (s : State) : Option (List (Nat × Nat × Nat)) :=
    newPlaces (State.usedHbm { s with hub := { s.hub with svc := some ⟨.stack (b0 r 0), []⟩ } } ++ s.usedCxl) (s.stackFrames (b0 r 0))
  let busy (c : Nat) (i : MRec → Instr) (good : MRec → Prop) : Prop :=
    Sends c true false i .busy (fun _ r s => r.dev 4 ∧ good r ∧ s.hub.svc.isSome = true ∧ s.hub.portsOut = []) fun _ _ s t _ => t.hub.svc = s.hub.svc
  Sends 0x01 false true .hsemacq .ok (fun m r s => r.dev 4 ∧ 1 ≤ w r 0 ∧ w r 0 ≤ 60000 ∧ (s.holder = none ∨ s.holder = some m))
    (fun m r s t _ => t.hub.hsem = some (m, s.clock + w r 0 * 1000 * Config.cyclesPerUs)) ∧
  Sends 0x01 false true .hsemacq .busy (fun m r s => r.dev 4 ∧ 1 ≤ w r 0 ∧ w r 0 ≤ 60000 ∧ ∃ k, k ≠ m ∧ s.holder = some k)
    (fun _ _ s t _ => t.hub.hsem = s.hub.hsem) ∧
  Sends 0x02 true true .hsemrel .ok (fun _ r _ => r.dev 0) (fun _ _ _ t _ => t.hub.hsem = none) ∧
  Sends 0x03 false true .thaw .ok (fun m r s => r.dev 4 ∧ zeroAt r.body 1 3 = true ∧ b0 r 0 ≤ 1 ∧ b0 r 0 ≠ m ∧ (s.master (b0 r 0)).frozen = true)
    (fun _ r _ t _ => (t.master (b0 r 0)).frozen = false) ∧
  Sends 0x03 false true .thaw .badcmd (fun m r s => r.dev 4 ∧ (b0 r 0 = m ∨ (s.master (b0 r 0)).frozen = false)) (fun _ _ _ _ _ => True) ∧
  (let oldest (s : State) : Nat := (s.hub.journal.head?.map JEntry.jseq).getD s.hub.jseq
   let head (n : Nat) (s : State) : List Byte := leBytes 4 n ++ leBytes 4 0 ++ leBytes 8 (oldest s) ++ dwordBytes s.hub.corrcount
   Sends 0x04 false true .jread .ok (fun _ r s => r.dev 8 ∧ oldest s ≤ numAt r.body 0) (fun _ r s _ b =>
     let es := (s.hub.journal.filter (fun e => decide (numAt r.body 0 ≤ e.jseq))).take 64
     b = head es.length s ++ es.flatMap JEntry.bytes) ∧
   Sends 0x04 false true .jread .gone (fun _ r s => r.dev 8 ∧ numAt r.body 0 < oldest s) (fun _ _ s _ b => b = head 0 s)) ∧
  Sends 0x20 true false .seed .ok (fun _ r _ => r.dev 4 ∧ w r 0 ≠ 0) (fun _ r _ t _ => t.lottery = wordAt r.body 0) ∧
  Sends 0x24 true false .keyset .ok (fun _ r _ => r.dev 64 ∧ zeroAt r.body 57 7 = true) (fun m r _ t _ => (t.master m).key = r.body.take 57) ∧
  Sends 0x25 false false .attest .ok (fun _ r s => r.dev 32 ∧ s.hub.booted.isSome = true) (fun _ r s _ b =>
    ∀ k, s.hub.booted = some k →
      let svn := leBytes 4 (Config.imageSvn (s.hub.flash.getD k.slot.toNat []))
      b = [k.slot] ++ leBytes 3 0 ++ wordBytes k.mseq ++ k.idig ++ svn ++ leBytes 4 0 ++
        (ed448Sign Config.identitySecret (shake256 (r.body ++ [k.slot] ++ wordBytes k.mseq ++ k.idig ++ svn) 64)).2) ∧
  Sends 0x21 true true .fwwrite .ok (fun _ r s => r.dev (8 + w r 4) ∧ w r 0 % 4 = 0 ∧ 4 ≤ w r 4 ∧ w r 4 ≤ 3992 ∧ w r 4 % 4 = 0 ∧
      s.hub.target < s.hub.flash.length)
    (fun _ r s t _ => t.hub.markers = s.hub.markers ∧ ∃ img, t.hub.flash[s.hub.target]? = some img ∧
      (img.drop (w r 0)).take (w r 4) = r.body.drop 8 ∧
      (∀ k old, s.hub.flash[s.hub.target]? = some old → k < old.length → (k < w r 0 ∨ w r 0 + w r 4 ≤ k) → img[k]? = old[k]?) ∧
      ∀ k, k ≠ s.hub.target → t.hub.flash[k]? = s.hub.flash[k]?) ∧
  (let img (r : MRec) (s : State) : List Byte := (s.hub.flash.getD s.hub.target []).take (w r 0)
   let whole (r : MRec) (s : State) : Prop := r.dev 4 ∧ w r 0 ≤ (s.hub.flash.getD s.hub.target []).length
   let ok (x : List Byte) : Bool := ed448Verify Config.rootKey (shake256 (Config.imageBody x) 64) (Config.imageSig x) && decide (Config.svnFloor ≤ Config.imageSvn x)
   Sends 0x22 true true .fwcommit .ok (fun _ r s => whole r s ∧ ok (img r s) = true ∧ s.hub.lower < s.hub.markers.length) (fun _ r s t _ =>
     ∃ k, t.hub.markers[s.hub.lower]? = some k ∧ k.slot = BitVec.ofNat 8 s.hub.target ∧ k.idig = shake256 (img r s) 64 ∧ k.valid = true ∧
       (∀ x, s.hub.byMseq.find? Marker.valid = some x → k.mseq = x.mseq + 1) ∧ (s.hub.byMseq.find? Marker.valid = none → k.mseq = 1) ∧
       ∀ j, j ≠ s.hub.lower → t.hub.markers[j]? = s.hub.markers[j]?) ∧
   Sends 0x22 true true .fwcommit .badimage (fun _ r s => whole r s ∧ ok (img r s) = false) (fun _ _ s t _ =>
     t.hub.markers = s.hub.markers ∧ t.hub.flash = s.hub.flash)) ∧
  (∀ m r s sm, s.masterOf r.sid = some sm → s.hub.needBoot = false → s.signer 0x23 r = some m → r.seq = (s.master m).last + 1 →
    (s.master m).frozen = false → s.holder = some m → r.rsv = 0 → r.dev 0 →
    ∃ t, exec (.reset r) s = .next t ∧ t.clock = 0 ∧ t.teams = [] ∧ t.contexts = [] ∧ t.cmdqs = [] ∧ t.lottery = 1 ∧ t.hub.hsem = none ∧
      t.hub.jseq = 0 ∧ t.hub.needBoot = true ∧ t.hub.flash = s.hub.flash ∧ t.hub.markers = s.hub.markers ∧
      t.hub.masters.map Master.last = [0, 0] ∧
      t.hub.outbox = s.hub.outbox ++ [.response { sid := r.sid, jseq := s.hub.jseq, cmd := 0x23, status := .ok, nextSeq := r.seq + 1, body := [] }]) ∧
  Sends 0x30 true false .svcEngine .ok (fun _ r s => r.dev 4 ∧ zeroAt r.body 1 3 = true ∧ b0 r 0 < Config.engines ∧ idle s) (fun _ r s t _ =>
    t.hub.svc = some ⟨.engine (b0 r 0), []⟩ ∧ ∀ e, s.engines[b0 r 0]? = some e → t.engines[b0 r 0]? = some { e with service := true }) ∧
  Sends 0x31 true false .svcStack .ok (fun _ r s => r.dev 4 ∧ zeroAt r.body 1 3 = true ∧ b0 r 0 < 8 ∧ idle s ∧
      (∀ c ∈ s.contexts, ∀ p ∈ c.pages, p.size = 2 ^ 16 ∨ p.size = 2 ^ 21 ∨ p.size = 2 ^ 30) ∧
      (moved r s).isSome = true)
    (fun _ r _ t _ => t.hub.svc = some ⟨.stack (b0 r 0), []⟩ ∧
      ∀ c ∈ t.contexts, ∀ p ∈ c.pages, ∀ pa, p.place = .resident pa → pa / stackBytes ≠ b0 r 0) ∧
  Sends 0x31 true false .svcStack .noroom (fun _ r s => r.dev 4 ∧ zeroAt r.body 1 3 = true ∧ b0 r 0 < 8 ∧ idle s ∧
      moved r s = none)
    (fun _ _ s t _ => t.contexts = s.contexts ∧ t.hub.svc = none) ∧
  (let good (r : MRec) : Prop := r.dev 4 ∧ zeroAt r.body 2 2 = true ∧ b0 r 0 < Config.dies ∧ b0 r 1 < Config.cores
   Sends 0x32 true false .svcCore .ok (fun _ r s => good r ∧ idle s ∧ s.hasSpare (b0 r 0) = true) (fun _ r s t _ =>
     t.hub.svc = some ⟨.core (b0 r 0) (b0 r 1) true, s.migrants (b0 r 0) (b0 r 1)⟩ ∧
       ∀ u ∈ t.teams, u.id ∈ s.migrants (b0 r 0) (b0 r 1) → u.halted = true) ∧
   Sends 0x32 true false .svcCore .nospare (fun _ r s => good r ∧ idle s ∧ s.hasSpare (b0 r 0) = false) (fun _ _ _ t _ => t.hub.svc = none) ∧
   busy 0x32 .svcCore (fun r => zeroAt r.body 2 2 = true ∧ b0 r 0 < Config.dies ∧ b0 r 1 < Config.cores)) ∧
  Sends 0x33 true false .svcPort .ok (fun _ r s => r.dev 4 ∧ zeroAt r.body 1 3 = true ∧ b0 r 0 < 8 ∧ idle s ∧ s.hub.portsOut = []) (fun _ r s t _ =>
    t.hub.svc = some ⟨.port (b0 r 0), []⟩ ∧ t.hub.portsOut = [b0 r 0] ∧ t.hub.sessions.map Session.sid = s.hub.sessions.map Session.sid ∧
      ∀ x ∈ t.hub.sessions, x.port ≠ b0 r 0) ∧
  busy 0x30 .svcEngine (fun r => zeroAt r.body 1 3 = true ∧ b0 r 0 < Config.engines) ∧
  busy 0x31 .svcStack (fun r => zeroAt r.body 1 3 = true ∧ b0 r 0 < 8) ∧
  busy 0x33 .svcPort (fun r => zeroAt r.body 1 3 = true ∧ b0 r 0 < 8)

/-- R343, R348, R351, R356, R360, R369, R374, R376, R379, R380, R389, R390: the commands on contexts. CTXCREATE makes the
context of the lowest free CTXID, empty or with its template's code and pages, the pages shared by copy on write;
CTXDESTROY kills and ends; QCREATE, QDESTROY, QCLEAR and TQCREATE make, remove, clear and make queues; PROGLOAD loads a
program that passes the checks, else LOADCHECK; MAP, UNMAP and PEERMAP change pages and peers; GRAPHCANCEL cancels a
graph; CTXPREEMPT halts the teams and is answered when they are saved; CTXRESUME lists them for placement. That the
lowest free CTXID and the lowest free places are taken is the model's choice (log entry 34), as are NOROOM for want of
page-table memory, which is a free value there, BUSY of an existing queue number (log entry 23), what MAP and UNMAP take for
a remap and for a page that is not there (log entry 33), and which bodies of QDESTROY, PROGLOAD and GRAPHCANCEL give BADCMD
(log entry 35). -/
def Obligations.ContextCommands : Prop :=
  let id (r : MRec) : Nat := r.ctx.toNat
  let on (n : Nat) (p : MRec → State → Context → Prop) (_ : Nat) (r : MRec) (s : State) : Prop := ∃ c, r.forCtx n s c ∧ p r s c
  let w (r : MRec) (k : Nat) : Nat := (wordAt r.body k).toNat
  let newCtx (n : Nat) (s : State) : Prop := 1 ≤ n ∧ n < 4096 ∧ s.ctx? n = none ∧ ∀ k, 1 ≤ k → k < n → (s.ctx? k).isSome = true
  let body (r : MRec) : Prop := r.dev 32 ∧ zeroAt r.body 4 4 = true ∧ numAt r.body 8 % 2 ^ 21 = 0 ∧ numAt r.body 16 % 2 ^ 21 = 0 ∧
    numAt r.body 8 + numAt r.body 16 ≤ 2 ^ 48
  let made (fit : Bool) : Status := if fit then .ok else .noroom
  (∀ n fit, Sends 0x10 false false .ctxcreate (made fit) (fun _ r s => body r ∧ w r 0 = 0 ∧ newCtx n s ∧ s.tablesFit = fit) (fun _ r s t b =>
    if fit = false then t.contexts = s.contexts else b = leBytes 4 n ∧
    ∃ c, t.contexts = s.contexts ++ [c] ∧ c.id = n ∧ c.saveVa = numAt r.body 8 ∧ c.saveSize = numAt r.body 16 ∧ c.hbmQuota = numAt r.body 24 ∧
      c.pages = [] ∧ c.run = .running ∧ c.ended = false)) ∧
  Sends 0x10 false false .ctxcreate .noroom (fun _ r s => body r ∧ w r 0 = 0 ∧
      ∀ k, 1 ≤ k → k < 4096 → (s.ctx? k).isSome = true)
    (fun _ _ s t _ => t.contexts = s.contexts) ∧
  (∀ n x fit, Sends 0x10 false false .ctxcreate (made fit) (fun _ r s => body r ∧ w r 0 ≠ 0 ∧ s.ctx? (w r 0) = some x ∧ x.dying = false ∧
      newCtx n s ∧ s.tablesFit = fit ∧ (s.cloneRanges n (s.regionTab.filter (fun e => e.owner == w r 0))).isSome = true)
    (fun _ r s t b => if fit = false then t.contexts = s.contexts else b = leBytes 4 n ∧
      let shared (p : Page) : Page := if p.write then { p with write := false, cow := true } else p
      (∃ c, t.ctx? n = some c ∧ c.code = x.code ∧ c.kernels = x.kernels ∧ c.pages = x.pages.map (fun p => { shared p with owned := false }) ∧
        c.saveVa = numAt r.body 8 ∧ c.saveSize = numAt r.body 16) ∧
      t.ctx? (w r 0) = some { x with pages := x.pages.map shared } ∧
      ∀ q ∈ s.cmdqs, q.ctx = w r 0 → ∃ q' ∈ t.cmdqs, q'.ctx = n ∧ q'.num = q.num ∧ q'.ring = q.ring ∧ q'.head = q.tail ∧ q'.tail = q.tail ∧
        q'.slot = none)) ∧
  Sends 0x11 false false .ctxdestroy .ok (on 0 fun _ _ _ => True) (fun _ r s t _ =>
    (∀ c, t.ctx? (id r) = some c → c.dying = true ∧ c.ended = true) ∧
    (∀ u, t.team? u.id = some u → u.ctx = id r → u.killed.isSome = true) ∧
    (∀ u ∈ s.teams, u.ctx = id r → (t.ctx? (id r)).isSome = true) ∧
    ((∀ u ∈ s.teams, u.ctx ≠ id r) → t.ctx? (id r) = none ∧ ∀ q ∈ t.cmdqs, q.ctx ≠ id r)) ∧
  (∀ d, Sends 0x12 false false .qcreate .ok (on 16 fun r s _ => zeroAt r.body 2 6 = true ∧ numAt r.body 8 % 128 = 0 ∧
      s.cmdq? (id r) (halfAt r.body 0) = none ∧ s.readVirt (id r) (numAt r.body 8) 128 = some d ∧ queueDescOk d = true)
    (fun _ r _ t _ => ∃ q, t.cmdq? (id r) (halfAt r.body 0) = some q ∧ q.desc = numAt r.body 8 ∧ q.ring = numAt d 0 ∧ q.logn = (wordAt d 8).toNat ∧
      q.head = wordAt d 0xC ∧ q.tail = wordAt d 0x10 ∧ q.prog = halfAt d 0x14 ∧ q.tickets = (byteAt d 0x16).toNat ∧ q.wbase = numAt d 0x18 ∧
      q.wsize = (wordAt d 0x20).toNat ∧ q.idle = (wordAt d 0x24).toNat ∧ q.slot = none ∧ q.frames = [])) ∧
  Sends 0x12 false false .qcreate .busy (on 16 fun r s _ => zeroAt r.body 2 6 = true ∧ numAt r.body 8 % 128 = 0 ∧
      (s.cmdq? (id r) (halfAt r.body 0)).isSome = true) (fun _ _ s t _ => t.cmdqs = s.cmdqs) ∧
  (∀ q, Sends 0x13 false false .qdestroy .ok (on 4 fun r s _ => zeroAt r.body 2 2 = true ∧ s.cmdq? (id r) (halfAt r.body 0) = some q ∧ q.engine = none)
    (fun _ r _ t _ => t.cmdq? (id r) (halfAt r.body 0) = none)) ∧
  (∀ q, Sends 0x13 false false .qdestroy .busy (on 4 fun r s _ => zeroAt r.body 2 2 = true ∧ s.cmdq? (id r) (halfAt r.body 0) = some q ∧
      q.engine.isSome = true) (fun _ _ s t _ => t.cmdqs = s.cmdqs)) ∧
  (∀ q, Sends 0x14 false false .qclear .ok (on 4 fun r s _ => zeroAt r.body 2 2 = true ∧ s.cmdq? (id r) (halfAt r.body 0) = some q)
    (fun _ r _ t _ => ∃ q', t.cmdq? (id r) (halfAt r.body 0) = some q' ∧ q'.faulted = false ∧ q'.fault = 0 ∧ q'.head = q.head ∧ q'.tail = q.tail)) ∧
  Sends 0x15 false false .tqcreate .ok (on 36 fun r s _ => zeroAt r.body 2 2 = true ∧ s.taskq? (id r) (halfAt r.body 0) = none ∧
      s.taskqOk (id r) (r.body.drop 4) = true)
    (fun _ r _ t _ => let d := r.body.drop 4
      ∃ q, t.taskq? (id r) (halfAt r.body 0) = some q ∧ q.ring = (wordAt d 0).toNat ∧ q.logn = (wordAt d 4).toNat % 32 ∧
        q.die = (wordAt d 4).toNat / 2 ^ 8 % 4 ∧ q.dtable = numAt d 8 ∧ q.dnode = halfAt d 0x10 ∧ q.maxteams = halfAt d 0x12 ∧ q.head = 0 ∧
        q.tail = 0 ∧ q.alive = 0) ∧
  Sends 0x15 false false .tqcreate .busy (on 36 fun r s _ => zeroAt r.body 2 2 = true ∧ (s.taskq? (id r) (halfAt r.body 0)).isSome = true)
    (fun _ _ s t _ => t.taskqs = s.taskqs) ∧
  (let good (r : MRec) : Prop := halfAt r.body 0 ≤ 255 ∧ 1 ≤ halfAt r.body 2 ∧ halfAt r.body 2 ≤ 1024 ∧ zeroAt r.body 4 4 = true ∧ numAt r.body 8 % 4 = 0
   ∀ bs, (Sends 0x16 false false .progload .ok (on 16 fun r s _ => good r ∧ s.readVirt (id r) (numAt r.body 8) (4 * halfAt r.body 2) = some bs ∧
       loadOk (wordsOf (halfAt r.body 2) bs) = true)
     (fun _ r _ t _ => SMap.get? t.programs (halfAt r.body 0) = some (wordsOf (halfAt r.body 2) bs))) ∧
   Sends 0x16 false false .progload .loadcheck (on 16 fun r s _ => good r ∧ s.readVirt (id r) (numAt r.body 8) (4 * halfAt r.body 2) = some bs ∧
       loadOk (wordsOf (halfAt r.body 2) bs) = false) (fun _ _ s t _ => t.programs = s.programs)) ∧
  (∀ c p, Sends 0x17 false false .map .ok (fun _ r s => r.forCtx 24 s c ∧ s.mapPage (id r) r.body = some p ∧
      (∀ x ∈ c.pages, apart x.va x.size p.va p.size = true ∨ (x.va = p.va ∧ x.size = p.size)) ∧
      (c.saveSize = 0 ∨ apart c.saveVa c.saveSize p.va p.size = true))
    (fun _ r _ t _ => (t.ctx? (id r)).map Context.pages = some (c.pages.filter (fun x => x.va != p.va) ++ [p]))) ∧
  (∀ c p, Sends 0x18 false false .unmap .ok (fun _ r s => r.forCtx 16 s c ∧ zeroAt r.body 9 7 = true ∧ p ∈ c.pages ∧ p.va = numAt r.body 0 ∧
      pageSize (byteAt r.body 8).toNat = some p.size)
    (fun _ r _ t _ => (t.ctx? (id r)).map Context.pages = some (c.pages.filter (fun x => x.va != p.va)))) ∧
  Sends 0x19 false false .peermap .ok (on 88 fun r _ _ => zeroAt r.body 2 6 = true ∧ zeroAt r.body 0x51 7 = true) (fun _ r s t _ =>
    let old := s.hub.peers.filter (fun x => !(x.ctx == id r && x.handle == halfAt r.body 0))
    t.hub.peers = old ++ [⟨id r, halfAt r.body 0, (r.body.drop 8).take 16, (r.body.drop 0x18).take 57⟩]) ∧
  (∀ x : GraphRun, Sends 0x1A false false .graphcancel .ok (on 8 fun r s _ => s.runs.find? (fun y => y.ctx == id r && y.table == numAt r.body 0) = some x ∧
      s.run? x.id = some x)
    (fun _ _ _ t _ =>
      ((∀ n ∈ x.nodes, n.state ≠ .running) → t.run? x.id = none) ∧
      ((∃ n ∈ x.nodes, n.state = .running) → ∃ x' : GraphRun, t.run? x.id = some x' ∧ ∀ (i : Nat) (n : NodeRun), x.nodes[i]? = some n → ∃ n' : NodeRun, x'.nodes[i]? = some n' ∧
        (n.state = .waiting → n'.state = .cancelled) ∧ (n.state = .running → n'.state = .running ∧ n'.cancelled = true)) ∧
      ∀ u k, t.team? u.id = some u → u.origin = .node x.id k → u.killed.isSome = true)) ∧
  Sends 0x1B false false .ctxpreempt .ok (on 0 fun r s c => c.run = .running ∧ ∀ u ∈ s.teams, u.ctx ≠ id r) (fun _ r s t b =>
    (t.ctx? (id r)).map Context.run = some .saved ∧ b = leBytes 4 (s.saved.filter (fun x => x.ctx == id r)).length) ∧
  (∀ m r s sm c, s.masterOf r.sid = some sm → s.hub.needBoot = false → s.signer 0x1B r = some m → r.seq = (s.master m).last + 1 →
    (s.master m).frozen = false → s.hub.recovery = false → r.rsv = 0 → r.forCtx 0 s c → c.run = .running → (∃ u ∈ s.teams, u.ctx = id r) →
    ∃ t, exec (.ctxpreempt r) s = .next t ∧ (t.ctx? (id r)).map Context.run = some (.preempting r.sid m s.hub.jseq r.seq) ∧
      (∀ u ∈ t.teams, u.ctx = id r → u.halted = true) ∧ t.hub.outbox = s.hub.outbox ∧ (t.master m).last = r.seq) ∧
  Sends 0x1B false false .ctxpreempt .busy (on 0 fun _ _ c => c.run ≠ .running) (fun _ _ s t _ => t.contexts = s.contexts) ∧
  Sends 0x1C false false .ctxresume .ok (on 0 fun _ _ c => c.run = .saved) (fun _ r s t _ =>
    (t.ctx? (id r)).map Context.run = some .running ∧ t.placeDue = true ∧
      ∀ x ∈ s.saved, x.ctx = id r → x.tic < 8 → (∀ y ∈ s.saved, y.ctx = id r → y.clusterNo = x.clusterNo → y.tic = x.tic → y = x) →
        ∃ u ∈ t.units, x.id ∈ u.restore) ∧
  Sends 0x1C false false .ctxresume .busy (on 0 fun _ _ c => c.run ≠ .saved) (fun _ _ s t _ => t.contexts = s.contexts)

/-! ### The machine as a whole -/

/-- R44, R353, R381, R386, R392, R393, R396: after reset the cycle count is 0, the lottery generator 1, CORRCOUNT 0, the
journal empty with its numbers at 0, LAST of both ports 0, HSEM free and the hub yet to boot; no context, team, queue or
call stands. Every memory lists nothing and so has its canonical form; that a byte nothing has written then reads as zero,
and that LAST is 0, is the model's choice (log entries 7, 8 and 31). -/
def Obligations.ResetValues : Prop :=
  let s := State.reset
  s.clock = 0 ∧ s.lottery = 1 ∧ s.hub.corrcount = 0 ∧ s.hub.journal = [] ∧ s.hub.jseq = 0 ∧ s.hub.masters.map Master.last = [0, 0] ∧
  s.hub.masters.map Master.frozen = [false, false] ∧ s.hub.hsem = none ∧ s.hub.needBoot = true ∧ s.hub.booted = none ∧
  s.hub.sessions = [] ∧ s.hub.peers = [] ∧ s.contexts = [] ∧ s.teams = [] ∧ s.cmdqs = [] ∧ s.taskqs = [] ∧ s.calls = [] ∧ s.copies = [] ∧
  s.regionTab = [] ∧ s.tags = [] ∧ s.runs = [] ∧ s.units = [] ∧ s.scratch.wf = true ∧ (∀ a, s.scratch.read a = 0) ∧
  ∀ v, v < 5 → (s.view v).mem.wf = true ∧ (∀ a, (s.view v).mem.read a = 0)

/-- R77 to R80, R86, R89, R347: a step does the first act of the agenda. For a group that may issue it fetches the word at
the PC of its streamed threads, and executes the instruction that the word decodes to where class and place allow it, or
else its ILLOP; where the agenda says so, only the first passes of an instruction that acts on registers alone take place
(R370); for an engine it executes the bytecode at the packet's next word; an event is executed as it stands; time
passes by the cycles given, and the accesses that are due then are performed, and the words of region commands. An empty agenda is filled with a round of all that may move (the model's choice, log entry 2). -/
def Obligations.StepRunsDecoded : Prop :=
  (∀ s id gix l, s.agenda = .group id gix :: l →
    let t : State := { s with agenda := l }
    let u : State := { s with agenda := l, cur := .group id gix }
    ∀ e, envOf t id gix = some e → e.team.runs = true → e.stalled = false → (e.clauseBegin = false ∨ e.boundary = none) →
      (∀ i, decode e.word = .ok i → placeOk e.hdr (pcIdx e.pc) i = true → step s = exec i u) ∧
      (∀ i, decode e.word = .ok i → placeOk e.hdr (pcIdx e.pc) i = false → step s = exec (.illop e.word 0x7FF) u) ∧
      (∀ r, decode e.word = .error r → step s = exec (.illop e.word r.opnd) u)) ∧
  (∀ s id gix l, s.agenda = .group id gix :: l →
    let t : State := { s with agenda := l }
    ∀ e i, envOf t id gix = some e → e.team.runs = true → e.clauseBegin = true → e.boundary = some i →
      step s = exec i { s with agenda := l, cur := .group id gix }) ∧
  (∀ s id gix n l, s.agenda = .part id gix n :: l →
    let t : State := { s with agenda := l }
    ∀ e i, envOf t id gix = some e → e.team.runs = true → e.stalled = false → (e.clauseBegin = false ∨ e.boundary = none) →
      decode e.word = .ok i → placeOk e.hdr (pcIdx e.pc) i = true →
      step s = exec i { s with agenda := l, cur := if splits i then .part id gix n else .group id gix }) ∧
  (∀ s n l, s.agenda = .engine n :: l →
    let t : State := { s with agenda := l }
    ∀ q f fs w i, t.engineQueue n = some q → q.waitl = false → q.faulted = false → q.stalled = none → q.frames = f :: fs →
      (f.steps < 512 → f.code[f.pc]? = some w → decodeByte w = .ok i → step s = exec i { s with agenda := l, cur := .engine n }) ∧
      (512 ≤ f.steps → step s = exec (.budget n) { s with agenda := l, cur := .engine n })) ∧
  (∀ s i l, s.agenda = .ev i :: l → step s = exec i { s with agenda := l, cur := .none }) ∧
  (∀ s n l, s.agenda = .tick n :: l → step s = .next (State.passTime n { s with agenda := l })) ∧
  (∀ s, s.agenda = [] → step s = step { s with agenda := s.allActs })

/-- R47, R77, R86, R97 to R109, R347: the manual's own worked encodings decode to the instructions that they encode, and
words it calls undefined decode to none. -/
def Obligations.DecodeWords : Prop :=
  let h : Hdr := ⟨false, 0, 0⟩
  decode 0x0E21C6F8D8002004 = .ok (.add ⟨false, 0, 4⟩ .i32 (.v 0) (.c 11) (.c 11) (.c 0)) ∧
  decode 0x0040080018028300 = .ok (.stH h .b32 none (.v 3) 4 (.v 2)) ∧
  decode 0xFFFFFFF800000010 = .ok (.br ⟨false, 1, 0⟩ 0xFFFFFFF8) ∧
  decode 0x0010000000031D00 = .ok (.mfs h (.v 3) .clockLo) ∧
  decode 0x0001003888001E00 = .ok (.mts h .mode (.c 1)) ∧
  decode 0x100FC44010053200 = .ok (.addmin h true (.v 5) (.v 2) (.c 1) (.v 7)) ∧
  decode 0x010B000048045200 = .ok (.cvt h (.v 4) (.v 9) .fn8 .f32 .rne 0) ∧
  decode 0x200000C010017000 = .ok (.setpI h .lt 1 (.v 2) (.v 3) ⟨false, 0⟩) ∧
  decode 0x0103080030018000 = .ok (.ldS h .b32 false none (.v 1) (.v 6) 16 3) ∧
  decode 0x00010A4010049800 = .ok (.atomS h .fadd false false (.v 2) 0 (.v 4) 1) ∧
  decode 0x000020800000A800 = .ok (.fence h .rel .dev) ∧
  decode 0x000410805006B300 = .ok (.eld h (.v 6) (.v 10) 0 2 4) ∧
  decode 0x00B200C08002B800 = .ok (.mma h .fn4 2 (.v 16) 3 1 true) ∧
  decode 0x90018130400BC800 = .ok (.copyG2s h true false .dev (some 3) (.k 8) (.k 4)) ∧
  decode 0x000000008000D000 = .ok (.cpcLat h none (.v 16)) ∧
  decode 0x000500301010D900 = .ok (.tget h (.v 16) (.k 2) 5) ∧
  decode 0x000800400001DB00 = .ok (.claimTry h 1 8) ∧
  decode 0x0000000500001810 = .ok (.trap ⟨false, 1, 0⟩ 5) ∧
  decodeByte 0x40140000 = .ok (.bLaunch 1 2) ∧
  decodeByte 0x32300000 = .ok (.bStw 3 4 0) ∧
  (∀ r : BitVec 48, ∃ x, decode (r ++ (0x8C00 : BitVec 16)) = .error x) ∧
  ∃ x, decode 0xFFFFFFF800000080 = .error x

/-- R97 to R109, R347: encoding then decoding gives every instruction back: a well-formed Igfin instruction from its 64-bit
word, a bytecode from its 32-bit word, every operand at every value that its field admits. -/
def Obligations.RoundTrip : Prop := ∀ i : Instr, Sys2Proof.Laws.RoundTrip.Statement i

/-- The scratchpads of the dies keep their canonical form: whatever a step does, rising addresses and no byte listed that
equals what an unlisted address reads as. The form is the model's own (log entry 8), which every read and write of a
scratchpad rests on. -/
def Obligations.ScratchFormStep : Prop := ∀ s t, s.scratch.wf = true → step s = .next t → t.scratch.wf = true
end

