-- ==== Sys2Proof/Laws/Memory.lean ====
section
/-!
SUPPORT. The laws of sparse maps, register files and memories: a read after a write, every other place unchanged, and
the canonical form kept by every operation.
-/

namespace Sys2Proof.Machine

/-! ### Sparse maps -/

theorem SMap.get?_set_self {α : Type} (m : SMap α) (x : Nat) (v : α) : SMap.get? (SMap.set m x v) x = some v := by
  induction m with
  | nil => simp [SMap.set, SMap.get?]
  | cons p m ih =>
    obtain ⟨k, w⟩ := p
    simp only [SMap.set]
    split
    · simp [SMap.get?]
    · split
      · simp [SMap.get?]
      · simp only [SMap.get?]; rw [if_neg (by omega), ih]

theorem SMap.get?_set_of_ne {α : Type} (m : SMap α) {x y : Nat} (v : α) (h : y ≠ x) :
    SMap.get? (SMap.set m x v) y = SMap.get? m y := by
  induction m with
  | nil => simp [SMap.set, SMap.get?, h.symm]
  | cons p m ih =>
    obtain ⟨k, w⟩ := p
    simp only [SMap.set]
    split
    · subst_vars; simp [SMap.get?, h.symm]
    · split
      · simp [SMap.get?, h.symm]
      · simp only [SMap.get?, ih]

theorem SMap.get?_erase_self {α : Type} (m : SMap α) (x : Nat) : SMap.get? (SMap.erase m x) x = none := by
  induction m with
  | nil => rfl
  | cons p m ih =>
    obtain ⟨k, w⟩ := p
    simp only [SMap.erase]
    split
    · exact ih
    · simp only [SMap.get?, if_neg ‹_›, ih]

theorem SMap.get?_erase_of_ne {α : Type} (m : SMap α) {x y : Nat} (h : y ≠ x) :
    SMap.get? (SMap.erase m x) y = SMap.get? m y := by
  induction m with
  | nil => rfl
  | cons p m ih =>
    obtain ⟨k, w⟩ := p
    simp only [SMap.erase]
    split
    · subst_vars; simp only [SMap.get?, if_neg h.symm, ih]
    · simp only [SMap.get?, ih]

/-! ### Register files -/

/-- A register reads what was written to it. -/
theorem RegMap.read_write_self (m : RegMap) (n : Nat) (v : Word) : (m.write n v).read n = v := by
  unfold RegMap.write RegMap.read
  split
  · rw [SMap.get?_erase_self, ‹v = 0›]; rfl
  · rw [SMap.get?_set_self]; rfl

/-- Every other register is unchanged by a write. -/
theorem RegMap.read_write_of_ne (m : RegMap) {n k : Nat} (v : Word) (h : k ≠ n) : (m.write n v).read k = m.read k := by
  unfold RegMap.write RegMap.read
  split
  · rw [SMap.get?_erase_of_ne m h]
  · rw [SMap.get?_set_of_ne m v h]

/-! ### Memories -/

/-- A byte reads what was written to it. -/
theorem Memory.read_write_self (m : Memory) (a : Nat) (b : Byte) : (m.write a b).read a = b := by
  unfold Memory.write Memory.read
  split
  · rw [SMap.get?_erase_self, ‹b = 0›]; rfl
  · rw [SMap.get?_set_self]; rfl

/-- Every other byte is unchanged by a write. -/
theorem Memory.read_write_of_ne (m : Memory) {a c : Nat} (b : Byte) (h : c ≠ a) : (m.write a b).read c = m.read c := by
  unfold Memory.write Memory.read
  split
  · rw [SMap.get?_erase_of_ne m h]
  · rw [SMap.get?_set_of_ne m b h]

/-- A byte outside a written run is unchanged. -/
theorem Memory.read_writeN_outside (bs : List Byte) : ∀ (m : Memory) (a c : Nat), c < a ∨ a + bs.length ≤ c →
    (m.writeN a bs).read c = m.read c := by
  induction bs with
  | nil => intros; rfl
  | cons b bs ih =>
    intro m a c h
    simp only [List.length_cons] at h
    rw [Memory.writeN, ih (m.write a b) (a + 1) c (by omega), Memory.read_write_of_ne m b (by omega)]

/-- A byte inside a written run reads as written. -/
theorem Memory.read_writeN_inside (bs : List Byte) : ∀ (m : Memory) (a i : Nat) (b : Byte), bs[i]? = some b →
    (m.writeN a bs).read (a + i) = b := by
  induction bs with
  | nil => intro m a i b h; simp at h
  | cons c bs ih =>
    intro m a i b h
    cases i with
    | zero =>
      simp only [List.getElem?_cons_zero, Option.some.injEq] at h
      subst h
      rw [Memory.writeN, Memory.read_writeN_outside bs _ _ _ (by omega), Nat.add_zero, Memory.read_write_self]
    | succ i =>
      rw [List.getElem?_cons_succ] at h
      rw [Memory.writeN, show a + (i + 1) = a + 1 + i by omega]
      exact ih (m.write a c) (a + 1) i b h

/-- A byte that no listed cell names is unchanged. -/
theorem Memory.read_writeCells_outside (cs : List Host.Cell) : ∀ (m : Memory) (c : Nat), (∀ p ∈ cs, p.1 ≠ c) →
    (m.writeCells cs).read c = m.read c := by
  induction cs with
  | nil => intros; rfl
  | cons p cs ih =>
    intro m c h
    show ((m.write p.1 p.2).writeCells cs).read c = _
    rw [ih _ c (fun q hq => h q (List.mem_cons_of_mem _ hq)), Memory.read_write_of_ne]
    exact (h p List.mem_cons_self).symm

/-! ### The canonical form -/

/-- A memory in canonical form, as a proposition. -/
theorem Memory.wf_iff (m : Memory) : m.wf = true ↔ (m.map Prod.fst).Pairwise (· < ·) ∧ ∀ c ∈ m, c.2 ≠ 0 := by
  simp [Memory.wf, List.all_eq_true]

theorem SMap.mem_set {α : Type} (m : SMap α) (x : Nat) (v : α) : ∀ p ∈ SMap.set m x v, p = (x, v) ∨ p ∈ m := by
  induction m with
  | nil => intro p hp; simpa [SMap.set] using hp
  | cons q m ih =>
    obtain ⟨k, w⟩ := q
    intro p hp
    simp only [SMap.set] at hp
    split at hp
    · rcases List.mem_cons.1 hp with h | h
      · exact .inl h
      · exact .inr (List.mem_cons_of_mem _ h)
    · split at hp
      · rcases List.mem_cons.1 hp with h | h
        · exact .inl h
        · exact .inr h
      · rcases List.mem_cons.1 hp with h | h
        · exact .inr (h ▸ List.mem_cons_self)
        · rcases ih p h with h | h
          · exact .inl h
          · exact .inr (List.mem_cons_of_mem _ h)

theorem SMap.mem_erase {α : Type} (m : SMap α) (x : Nat) : ∀ p ∈ SMap.erase m x, p ∈ m := by
  induction m with
  | nil => intro p hp; exact hp
  | cons q m ih =>
    obtain ⟨k, w⟩ := q
    intro p hp
    simp only [SMap.erase] at hp
    split at hp
    · exact List.mem_cons_of_mem _ (ih p hp)
    · rcases List.mem_cons.1 hp with h | h
      · exact h ▸ List.mem_cons_self
      · exact List.mem_cons_of_mem _ (ih p h)

theorem SMap.sorted_set {α : Type} (m : SMap α) (x : Nat) (v : α) (h : (m.map Prod.fst).Pairwise (· < ·)) :
    ((SMap.set m x v).map Prod.fst).Pairwise (· < ·) := by
  induction m with
  | nil => simp [SMap.set]
  | cons q m ih =>
    obtain ⟨k, w⟩ := q
    simp only [List.map_cons, List.pairwise_cons, List.mem_map] at h
    simp only [SMap.set]
    split
    · subst_vars; simpa [List.pairwise_cons] using h
    · split
      · simp only [List.map_cons, List.pairwise_cons, List.mem_cons, List.mem_map]
        refine ⟨?_, h.1, h.2⟩
        rintro a (rfl | ⟨p, hp, rfl⟩)
        · assumption
        · exact lt_trans ‹x < k› (h.1 _ ⟨p, hp, rfl⟩)
      · simp only [List.map_cons, List.pairwise_cons, List.mem_map]
        refine ⟨?_, ih h.2⟩
        rintro a ⟨p, hp, rfl⟩
        rcases SMap.mem_set m x v p hp with rfl | hp
        · show k < x; omega
        · exact h.1 _ ⟨p, hp, rfl⟩

theorem SMap.sorted_erase {α : Type} (m : SMap α) (x : Nat) (h : (m.map Prod.fst).Pairwise (· < ·)) :
    ((SMap.erase m x).map Prod.fst).Pairwise (· < ·) := by
  induction m with
  | nil => simp [SMap.erase]
  | cons q m ih =>
    obtain ⟨k, w⟩ := q
    simp only [List.map_cons, List.pairwise_cons, List.mem_map] at h
    simp only [SMap.erase]
    split
    · exact ih h.2
    · simp only [List.map_cons, List.pairwise_cons, List.mem_map]
      refine ⟨?_, ih h.2⟩
      rintro a ⟨p, hp, rfl⟩
      exact h.1 _ ⟨p, SMap.mem_erase m x p hp, rfl⟩

/-- A write keeps the canonical form. -/
theorem Memory.wf_write (m : Memory) (a : Nat) (b : Byte) (h : m.wf = true) : (m.write a b).wf = true := by
  rw [Memory.wf_iff] at h ⊢
  unfold Memory.write
  split
  · exact ⟨SMap.sorted_erase m a h.1, fun c hc => h.2 c (SMap.mem_erase m a c hc)⟩
  · refine ⟨SMap.sorted_set m a b h.1, fun c hc => ?_⟩
    rcases SMap.mem_set m a b c hc with rfl | hc
    · assumption
    · exact h.2 c hc

/-- Writing a run of bytes keeps the canonical form. -/
theorem Memory.wf_writeN (bs : List Byte) : ∀ (m : Memory) (a : Nat), m.wf = true → (m.writeN a bs).wf = true := by
  induction bs with
  | nil => intro m a h; exact h
  | cons b bs ih => intro m a h; exact ih _ _ (Memory.wf_write m a b h)

/-- Writing listed cells keeps the canonical form. -/
theorem Memory.wf_writeCells (cs : List Host.Cell) : ∀ m : Memory, m.wf = true → (m.writeCells cs).wf = true := by
  induction cs with
  | nil => intro m h; exact h
  | cons c cs ih => intro m h; exact ih _ (Memory.wf_write m c.1 c.2 h)

/-- Clearing a run of bytes keeps the canonical form. -/
theorem Memory.wf_clear (m : Memory) (a n : Nat) (h : m.wf = true) : (m.clear a n).wf = true := by
  rw [Memory.wf_iff] at h ⊢
  exact ⟨h.1.sublist (List.Sublist.map _ List.filter_sublist), fun c hc => h.2 c (List.mem_filter.1 hc).1⟩

/-- Setting a byte of a carve-out keeps its addresses rising. -/
theorem Memory.sorted_set (m : Memory) (a : Nat) (b : Byte) (h : m.sorted = true) : Memory.sorted (SMap.set m a b) = true := by
  simp only [Memory.sorted, decide_eq_true_eq] at h ⊢
  exact SMap.sorted_set m a b h

/-- Memory at reset has the canonical form: nothing is listed. -/
theorem reset_scratch_wf : State.reset.scratch.wf = true := by decide
theorem reset_views_wf : State.reset.views.all (fun v => v.mem.wf) = true := by decide

end Sys2Proof.Machine
end

