-- ==== Sys2Proof/Laws/State.lean ====
section
/-!
SUPPORT. One lemma for each field of State and each update of one record: the fields it leaves alone.
-/

namespace Sys2Proof.Machine

/-! ### modTeam -/

@[simp] theorem State.modTeam_clock (s : State) (a : Nat) (f : Team → Team) : (s.modTeam a f).clock = s.clock := rfl
@[simp] theorem State.modTeam_agenda (s : State) (a : Nat) (f : Team → Team) : (s.modTeam a f).agenda = s.agenda := rfl
@[simp] theorem State.modTeam_cur (s : State) (a : Nat) (f : Team → Team) : (s.modTeam a f).cur = s.cur := rfl
@[simp] theorem State.modTeam_nonce (s : State) (a : Nat) (f : Team → Team) : (s.modTeam a f).nonce = s.nonce := rfl
@[simp] theorem State.modTeam_nextId (s : State) (a : Nat) (f : Team → Team) : (s.modTeam a f).nextId = s.nextId := rfl
@[simp] theorem State.modTeam_writeNo (s : State) (a : Nat) (f : Team → Team) : (s.modTeam a f).writeNo = s.writeNo := rfl
@[simp] theorem State.modTeam_contexts (s : State) (a : Nat) (f : Team → Team) : (s.modTeam a f).contexts = s.contexts := rfl
@[simp] theorem State.modTeam_saved (s : State) (a : Nat) (f : Team → Team) : (s.modTeam a f).saved = s.saved := rfl
@[simp] theorem State.modTeam_matctx (s : State) (a : Nat) (f : Team → Team) : (s.modTeam a f).matctx = s.matctx := rfl
@[simp] theorem State.modTeam_turns (s : State) (a : Nat) (f : Team → Team) : (s.modTeam a f).turns = s.turns := rfl
@[simp] theorem State.modTeam_regions (s : State) (a : Nat) (f : Team → Team) : (s.modTeam a f).regions = s.regions := rfl
@[simp] theorem State.modTeam_est (s : State) (a : Nat) (f : Team → Team) : (s.modTeam a f).est = s.est := rfl
@[simp] theorem State.modTeam_regionOps (s : State) (a : Nat) (f : Team → Team) : (s.modTeam a f).regionOps = s.regionOps := rfl
@[simp] theorem State.modTeam_copies (s : State) (a : Nat) (f : Team → Team) : (s.modTeam a f).copies = s.copies := rfl
@[simp] theorem State.modTeam_calls (s : State) (a : Nat) (f : Team → Team) : (s.modTeam a f).calls = s.calls := rfl
@[simp] theorem State.modTeam_passes (s : State) (a : Nat) (f : Team → Team) : (s.modTeam a f).passes = s.passes := rfl
@[simp] theorem State.modTeam_taskqs (s : State) (a : Nat) (f : Team → Team) : (s.modTeam a f).taskqs = s.taskqs := rfl
@[simp] theorem State.modTeam_pushes (s : State) (a : Nat) (f : Team → Team) : (s.modTeam a f).pushes = s.pushes := rfl
@[simp] theorem State.modTeam_claims (s : State) (a : Nat) (f : Team → Team) : (s.modTeam a f).claims = s.claims := rfl
@[simp] theorem State.modTeam_claimAt (s : State) (a : Nat) (f : Team → Team) : (s.modTeam a f).claimAt = s.claimAt := rfl
@[simp] theorem State.modTeam_scratch (s : State) (a : Nat) (f : Team → Team) : (s.modTeam a f).scratch = s.scratch := rfl
@[simp] theorem State.modTeam_late (s : State) (a : Nat) (f : Team → Team) : (s.modTeam a f).late = s.late := rfl
@[simp] theorem State.modTeam_writes (s : State) (a : Nat) (f : Team → Team) : (s.modTeam a f).writes = s.writes := rfl
@[simp] theorem State.modTeam_olds (s : State) (a : Nat) (f : Team → Team) : (s.modTeam a f).olds = s.olds := rfl
@[simp] theorem State.modTeam_sights (s : State) (a : Nat) (f : Team → Team) : (s.modTeam a f).sights = s.sights := rfl
@[simp] theorem State.modTeam_poisoned (s : State) (a : Nat) (f : Team → Team) : (s.modTeam a f).poisoned = s.poisoned := rfl
@[simp] theorem State.modTeam_regionTab (s : State) (a : Nat) (f : Team → Team) : (s.modTeam a f).regionTab = s.regionTab := rfl
@[simp] theorem State.modTeam_tags (s : State) (a : Nat) (f : Team → Team) : (s.modTeam a f).tags = s.tags := rfl
@[simp] theorem State.modTeam_views (s : State) (a : Nat) (f : Team → Team) : (s.modTeam a f).views = s.views := rfl
@[simp] theorem State.modTeam_carried (s : State) (a : Nat) (f : Team → Team) : (s.modTeam a f).carried = s.carried := rfl
@[simp] theorem State.modTeam_retiredPages (s : State) (a : Nat) (f : Team → Team) : (s.modTeam a f).retiredPages = s.retiredPages := rfl
@[simp] theorem State.modTeam_cmdqs (s : State) (a : Nat) (f : Team → Team) : (s.modTeam a f).cmdqs = s.cmdqs := rfl
@[simp] theorem State.modTeam_engines (s : State) (a : Nat) (f : Team → Team) : (s.modTeam a f).engines = s.engines := rfl
@[simp] theorem State.modTeam_mapWaits (s : State) (a : Nat) (f : Team → Team) : (s.modTeam a f).mapWaits = s.mapWaits := rfl
@[simp] theorem State.modTeam_programs (s : State) (a : Nat) (f : Team → Team) : (s.modTeam a f).programs = s.programs := rfl
@[simp] theorem State.modTeam_lottery (s : State) (a : Nat) (f : Team → Team) : (s.modTeam a f).lottery = s.lottery := rfl
@[simp] theorem State.modTeam_runs (s : State) (a : Nat) (f : Team → Team) : (s.modTeam a f).runs = s.runs := rfl
@[simp] theorem State.modTeam_units (s : State) (a : Nat) (f : Team → Team) : (s.modTeam a f).units = s.units := rfl
@[simp] theorem State.modTeam_placeDue (s : State) (a : Nat) (f : Team → Team) : (s.modTeam a f).placeDue = s.placeDue := rfl
@[simp] theorem State.modTeam_placeSince (s : State) (a : Nat) (f : Team → Team) : (s.modTeam a f).placeSince = s.placeSince := rfl
@[simp] theorem State.modTeam_placeLast (s : State) (a : Nat) (f : Team → Team) : (s.modTeam a f).placeLast = s.placeLast := rfl
@[simp] theorem State.modTeam_cores (s : State) (a : Nat) (f : Team → Team) : (s.modTeam a f).cores = s.cores := rfl
@[simp] theorem State.modTeam_hub (s : State) (a : Nat) (f : Team → Team) : (s.modTeam a f).hub = s.hub := rfl

/-! ### modGroup -/

@[simp] theorem State.modGroup_clock (s : State) (a b : Nat) (f : Group → Group) : (s.modGroup a b f).clock = s.clock := rfl
@[simp] theorem State.modGroup_agenda (s : State) (a b : Nat) (f : Group → Group) : (s.modGroup a b f).agenda = s.agenda := rfl
@[simp] theorem State.modGroup_cur (s : State) (a b : Nat) (f : Group → Group) : (s.modGroup a b f).cur = s.cur := rfl
@[simp] theorem State.modGroup_nonce (s : State) (a b : Nat) (f : Group → Group) : (s.modGroup a b f).nonce = s.nonce := rfl
@[simp] theorem State.modGroup_nextId (s : State) (a b : Nat) (f : Group → Group) : (s.modGroup a b f).nextId = s.nextId := rfl
@[simp] theorem State.modGroup_writeNo (s : State) (a b : Nat) (f : Group → Group) : (s.modGroup a b f).writeNo = s.writeNo := rfl
@[simp] theorem State.modGroup_contexts (s : State) (a b : Nat) (f : Group → Group) : (s.modGroup a b f).contexts = s.contexts := rfl
@[simp] theorem State.modGroup_saved (s : State) (a b : Nat) (f : Group → Group) : (s.modGroup a b f).saved = s.saved := rfl
@[simp] theorem State.modGroup_matctx (s : State) (a b : Nat) (f : Group → Group) : (s.modGroup a b f).matctx = s.matctx := rfl
@[simp] theorem State.modGroup_turns (s : State) (a b : Nat) (f : Group → Group) : (s.modGroup a b f).turns = s.turns := rfl
@[simp] theorem State.modGroup_regions (s : State) (a b : Nat) (f : Group → Group) : (s.modGroup a b f).regions = s.regions := rfl
@[simp] theorem State.modGroup_est (s : State) (a b : Nat) (f : Group → Group) : (s.modGroup a b f).est = s.est := rfl
@[simp] theorem State.modGroup_regionOps (s : State) (a b : Nat) (f : Group → Group) : (s.modGroup a b f).regionOps = s.regionOps := rfl
@[simp] theorem State.modGroup_copies (s : State) (a b : Nat) (f : Group → Group) : (s.modGroup a b f).copies = s.copies := rfl
@[simp] theorem State.modGroup_calls (s : State) (a b : Nat) (f : Group → Group) : (s.modGroup a b f).calls = s.calls := rfl
@[simp] theorem State.modGroup_passes (s : State) (a b : Nat) (f : Group → Group) : (s.modGroup a b f).passes = s.passes := rfl
@[simp] theorem State.modGroup_taskqs (s : State) (a b : Nat) (f : Group → Group) : (s.modGroup a b f).taskqs = s.taskqs := rfl
@[simp] theorem State.modGroup_pushes (s : State) (a b : Nat) (f : Group → Group) : (s.modGroup a b f).pushes = s.pushes := rfl
@[simp] theorem State.modGroup_claims (s : State) (a b : Nat) (f : Group → Group) : (s.modGroup a b f).claims = s.claims := rfl
@[simp] theorem State.modGroup_claimAt (s : State) (a b : Nat) (f : Group → Group) : (s.modGroup a b f).claimAt = s.claimAt := rfl
@[simp] theorem State.modGroup_scratch (s : State) (a b : Nat) (f : Group → Group) : (s.modGroup a b f).scratch = s.scratch := rfl
@[simp] theorem State.modGroup_late (s : State) (a b : Nat) (f : Group → Group) : (s.modGroup a b f).late = s.late := rfl
@[simp] theorem State.modGroup_writes (s : State) (a b : Nat) (f : Group → Group) : (s.modGroup a b f).writes = s.writes := rfl
@[simp] theorem State.modGroup_olds (s : State) (a b : Nat) (f : Group → Group) : (s.modGroup a b f).olds = s.olds := rfl
@[simp] theorem State.modGroup_sights (s : State) (a b : Nat) (f : Group → Group) : (s.modGroup a b f).sights = s.sights := rfl
@[simp] theorem State.modGroup_poisoned (s : State) (a b : Nat) (f : Group → Group) : (s.modGroup a b f).poisoned = s.poisoned := rfl
@[simp] theorem State.modGroup_regionTab (s : State) (a b : Nat) (f : Group → Group) : (s.modGroup a b f).regionTab = s.regionTab := rfl
@[simp] theorem State.modGroup_tags (s : State) (a b : Nat) (f : Group → Group) : (s.modGroup a b f).tags = s.tags := rfl
@[simp] theorem State.modGroup_views (s : State) (a b : Nat) (f : Group → Group) : (s.modGroup a b f).views = s.views := rfl
@[simp] theorem State.modGroup_carried (s : State) (a b : Nat) (f : Group → Group) : (s.modGroup a b f).carried = s.carried := rfl
@[simp] theorem State.modGroup_retiredPages (s : State) (a b : Nat) (f : Group → Group) : (s.modGroup a b f).retiredPages = s.retiredPages := rfl
@[simp] theorem State.modGroup_cmdqs (s : State) (a b : Nat) (f : Group → Group) : (s.modGroup a b f).cmdqs = s.cmdqs := rfl
@[simp] theorem State.modGroup_engines (s : State) (a b : Nat) (f : Group → Group) : (s.modGroup a b f).engines = s.engines := rfl
@[simp] theorem State.modGroup_mapWaits (s : State) (a b : Nat) (f : Group → Group) : (s.modGroup a b f).mapWaits = s.mapWaits := rfl
@[simp] theorem State.modGroup_programs (s : State) (a b : Nat) (f : Group → Group) : (s.modGroup a b f).programs = s.programs := rfl
@[simp] theorem State.modGroup_lottery (s : State) (a b : Nat) (f : Group → Group) : (s.modGroup a b f).lottery = s.lottery := rfl
@[simp] theorem State.modGroup_runs (s : State) (a b : Nat) (f : Group → Group) : (s.modGroup a b f).runs = s.runs := rfl
@[simp] theorem State.modGroup_units (s : State) (a b : Nat) (f : Group → Group) : (s.modGroup a b f).units = s.units := rfl
@[simp] theorem State.modGroup_placeDue (s : State) (a b : Nat) (f : Group → Group) : (s.modGroup a b f).placeDue = s.placeDue := rfl
@[simp] theorem State.modGroup_placeSince (s : State) (a b : Nat) (f : Group → Group) : (s.modGroup a b f).placeSince = s.placeSince := rfl
@[simp] theorem State.modGroup_placeLast (s : State) (a b : Nat) (f : Group → Group) : (s.modGroup a b f).placeLast = s.placeLast := rfl
@[simp] theorem State.modGroup_cores (s : State) (a b : Nat) (f : Group → Group) : (s.modGroup a b f).cores = s.cores := rfl
@[simp] theorem State.modGroup_hub (s : State) (a b : Nat) (f : Group → Group) : (s.modGroup a b f).hub = s.hub := rfl

/-! ### modThread -/

@[simp] theorem State.modThread_clock (s : State) (a b c : Nat) (f : Thread → Thread) : (s.modThread a b c f).clock = s.clock := rfl
@[simp] theorem State.modThread_agenda (s : State) (a b c : Nat) (f : Thread → Thread) : (s.modThread a b c f).agenda = s.agenda := rfl
@[simp] theorem State.modThread_cur (s : State) (a b c : Nat) (f : Thread → Thread) : (s.modThread a b c f).cur = s.cur := rfl
@[simp] theorem State.modThread_nonce (s : State) (a b c : Nat) (f : Thread → Thread) : (s.modThread a b c f).nonce = s.nonce := rfl
@[simp] theorem State.modThread_nextId (s : State) (a b c : Nat) (f : Thread → Thread) : (s.modThread a b c f).nextId = s.nextId := rfl
@[simp] theorem State.modThread_writeNo (s : State) (a b c : Nat) (f : Thread → Thread) : (s.modThread a b c f).writeNo = s.writeNo := rfl
@[simp] theorem State.modThread_contexts (s : State) (a b c : Nat) (f : Thread → Thread) : (s.modThread a b c f).contexts = s.contexts := rfl
@[simp] theorem State.modThread_saved (s : State) (a b c : Nat) (f : Thread → Thread) : (s.modThread a b c f).saved = s.saved := rfl
@[simp] theorem State.modThread_matctx (s : State) (a b c : Nat) (f : Thread → Thread) : (s.modThread a b c f).matctx = s.matctx := rfl
@[simp] theorem State.modThread_turns (s : State) (a b c : Nat) (f : Thread → Thread) : (s.modThread a b c f).turns = s.turns := rfl
@[simp] theorem State.modThread_regions (s : State) (a b c : Nat) (f : Thread → Thread) : (s.modThread a b c f).regions = s.regions := rfl
@[simp] theorem State.modThread_est (s : State) (a b c : Nat) (f : Thread → Thread) : (s.modThread a b c f).est = s.est := rfl
@[simp] theorem State.modThread_regionOps (s : State) (a b c : Nat) (f : Thread → Thread) : (s.modThread a b c f).regionOps = s.regionOps := rfl
@[simp] theorem State.modThread_copies (s : State) (a b c : Nat) (f : Thread → Thread) : (s.modThread a b c f).copies = s.copies := rfl
@[simp] theorem State.modThread_calls (s : State) (a b c : Nat) (f : Thread → Thread) : (s.modThread a b c f).calls = s.calls := rfl
@[simp] theorem State.modThread_passes (s : State) (a b c : Nat) (f : Thread → Thread) : (s.modThread a b c f).passes = s.passes := rfl
@[simp] theorem State.modThread_taskqs (s : State) (a b c : Nat) (f : Thread → Thread) : (s.modThread a b c f).taskqs = s.taskqs := rfl
@[simp] theorem State.modThread_pushes (s : State) (a b c : Nat) (f : Thread → Thread) : (s.modThread a b c f).pushes = s.pushes := rfl
@[simp] theorem State.modThread_claims (s : State) (a b c : Nat) (f : Thread → Thread) : (s.modThread a b c f).claims = s.claims := rfl
@[simp] theorem State.modThread_claimAt (s : State) (a b c : Nat) (f : Thread → Thread) : (s.modThread a b c f).claimAt = s.claimAt := rfl
@[simp] theorem State.modThread_scratch (s : State) (a b c : Nat) (f : Thread → Thread) : (s.modThread a b c f).scratch = s.scratch := rfl
@[simp] theorem State.modThread_late (s : State) (a b c : Nat) (f : Thread → Thread) : (s.modThread a b c f).late = s.late := rfl
@[simp] theorem State.modThread_writes (s : State) (a b c : Nat) (f : Thread → Thread) : (s.modThread a b c f).writes = s.writes := rfl
@[simp] theorem State.modThread_olds (s : State) (a b c : Nat) (f : Thread → Thread) : (s.modThread a b c f).olds = s.olds := rfl
@[simp] theorem State.modThread_sights (s : State) (a b c : Nat) (f : Thread → Thread) : (s.modThread a b c f).sights = s.sights := rfl
@[simp] theorem State.modThread_poisoned (s : State) (a b c : Nat) (f : Thread → Thread) : (s.modThread a b c f).poisoned = s.poisoned := rfl
@[simp] theorem State.modThread_regionTab (s : State) (a b c : Nat) (f : Thread → Thread) : (s.modThread a b c f).regionTab = s.regionTab := rfl
@[simp] theorem State.modThread_tags (s : State) (a b c : Nat) (f : Thread → Thread) : (s.modThread a b c f).tags = s.tags := rfl
@[simp] theorem State.modThread_views (s : State) (a b c : Nat) (f : Thread → Thread) : (s.modThread a b c f).views = s.views := rfl
@[simp] theorem State.modThread_carried (s : State) (a b c : Nat) (f : Thread → Thread) : (s.modThread a b c f).carried = s.carried := rfl
@[simp] theorem State.modThread_retiredPages (s : State) (a b c : Nat) (f : Thread → Thread) : (s.modThread a b c f).retiredPages = s.retiredPages := rfl
@[simp] theorem State.modThread_cmdqs (s : State) (a b c : Nat) (f : Thread → Thread) : (s.modThread a b c f).cmdqs = s.cmdqs := rfl
@[simp] theorem State.modThread_engines (s : State) (a b c : Nat) (f : Thread → Thread) : (s.modThread a b c f).engines = s.engines := rfl
@[simp] theorem State.modThread_mapWaits (s : State) (a b c : Nat) (f : Thread → Thread) : (s.modThread a b c f).mapWaits = s.mapWaits := rfl
@[simp] theorem State.modThread_programs (s : State) (a b c : Nat) (f : Thread → Thread) : (s.modThread a b c f).programs = s.programs := rfl
@[simp] theorem State.modThread_lottery (s : State) (a b c : Nat) (f : Thread → Thread) : (s.modThread a b c f).lottery = s.lottery := rfl
@[simp] theorem State.modThread_runs (s : State) (a b c : Nat) (f : Thread → Thread) : (s.modThread a b c f).runs = s.runs := rfl
@[simp] theorem State.modThread_units (s : State) (a b c : Nat) (f : Thread → Thread) : (s.modThread a b c f).units = s.units := rfl
@[simp] theorem State.modThread_placeDue (s : State) (a b c : Nat) (f : Thread → Thread) : (s.modThread a b c f).placeDue = s.placeDue := rfl
@[simp] theorem State.modThread_placeSince (s : State) (a b c : Nat) (f : Thread → Thread) : (s.modThread a b c f).placeSince = s.placeSince := rfl
@[simp] theorem State.modThread_placeLast (s : State) (a b c : Nat) (f : Thread → Thread) : (s.modThread a b c f).placeLast = s.placeLast := rfl
@[simp] theorem State.modThread_cores (s : State) (a b c : Nat) (f : Thread → Thread) : (s.modThread a b c f).cores = s.cores := rfl
@[simp] theorem State.modThread_hub (s : State) (a b c : Nat) (f : Thread → Thread) : (s.modThread a b c f).hub = s.hub := rfl

/-! ### claimSlot -/

@[simp] theorem State.claimSlot_clock (s : State) (a b : Nat) (o : PendOp) : (s.claimSlot a b o).clock = s.clock := rfl
@[simp] theorem State.claimSlot_agenda (s : State) (a b : Nat) (o : PendOp) : (s.claimSlot a b o).agenda = s.agenda := rfl
@[simp] theorem State.claimSlot_cur (s : State) (a b : Nat) (o : PendOp) : (s.claimSlot a b o).cur = s.cur := rfl
@[simp] theorem State.claimSlot_nonce (s : State) (a b : Nat) (o : PendOp) : (s.claimSlot a b o).nonce = s.nonce := rfl
@[simp] theorem State.claimSlot_nextId (s : State) (a b : Nat) (o : PendOp) : (s.claimSlot a b o).nextId = s.nextId := rfl
@[simp] theorem State.claimSlot_writeNo (s : State) (a b : Nat) (o : PendOp) : (s.claimSlot a b o).writeNo = s.writeNo := rfl
@[simp] theorem State.claimSlot_contexts (s : State) (a b : Nat) (o : PendOp) : (s.claimSlot a b o).contexts = s.contexts := rfl
@[simp] theorem State.claimSlot_saved (s : State) (a b : Nat) (o : PendOp) : (s.claimSlot a b o).saved = s.saved := rfl
@[simp] theorem State.claimSlot_matctx (s : State) (a b : Nat) (o : PendOp) : (s.claimSlot a b o).matctx = s.matctx := rfl
@[simp] theorem State.claimSlot_turns (s : State) (a b : Nat) (o : PendOp) : (s.claimSlot a b o).turns = s.turns := rfl
@[simp] theorem State.claimSlot_regions (s : State) (a b : Nat) (o : PendOp) : (s.claimSlot a b o).regions = s.regions := rfl
@[simp] theorem State.claimSlot_est (s : State) (a b : Nat) (o : PendOp) : (s.claimSlot a b o).est = s.est := rfl
@[simp] theorem State.claimSlot_regionOps (s : State) (a b : Nat) (o : PendOp) : (s.claimSlot a b o).regionOps = s.regionOps := rfl
@[simp] theorem State.claimSlot_copies (s : State) (a b : Nat) (o : PendOp) : (s.claimSlot a b o).copies = s.copies := rfl
@[simp] theorem State.claimSlot_calls (s : State) (a b : Nat) (o : PendOp) : (s.claimSlot a b o).calls = s.calls := rfl
@[simp] theorem State.claimSlot_passes (s : State) (a b : Nat) (o : PendOp) : (s.claimSlot a b o).passes = s.passes := rfl
@[simp] theorem State.claimSlot_taskqs (s : State) (a b : Nat) (o : PendOp) : (s.claimSlot a b o).taskqs = s.taskqs := rfl
@[simp] theorem State.claimSlot_pushes (s : State) (a b : Nat) (o : PendOp) : (s.claimSlot a b o).pushes = s.pushes := rfl
@[simp] theorem State.claimSlot_claims (s : State) (a b : Nat) (o : PendOp) : (s.claimSlot a b o).claims = s.claims := rfl
@[simp] theorem State.claimSlot_claimAt (s : State) (a b : Nat) (o : PendOp) : (s.claimSlot a b o).claimAt = s.claimAt := rfl
@[simp] theorem State.claimSlot_scratch (s : State) (a b : Nat) (o : PendOp) : (s.claimSlot a b o).scratch = s.scratch := rfl
@[simp] theorem State.claimSlot_late (s : State) (a b : Nat) (o : PendOp) : (s.claimSlot a b o).late = s.late := rfl
@[simp] theorem State.claimSlot_writes (s : State) (a b : Nat) (o : PendOp) : (s.claimSlot a b o).writes = s.writes := rfl
@[simp] theorem State.claimSlot_olds (s : State) (a b : Nat) (o : PendOp) : (s.claimSlot a b o).olds = s.olds := rfl
@[simp] theorem State.claimSlot_sights (s : State) (a b : Nat) (o : PendOp) : (s.claimSlot a b o).sights = s.sights := rfl
@[simp] theorem State.claimSlot_poisoned (s : State) (a b : Nat) (o : PendOp) : (s.claimSlot a b o).poisoned = s.poisoned := rfl
@[simp] theorem State.claimSlot_regionTab (s : State) (a b : Nat) (o : PendOp) : (s.claimSlot a b o).regionTab = s.regionTab := rfl
@[simp] theorem State.claimSlot_tags (s : State) (a b : Nat) (o : PendOp) : (s.claimSlot a b o).tags = s.tags := rfl
@[simp] theorem State.claimSlot_views (s : State) (a b : Nat) (o : PendOp) : (s.claimSlot a b o).views = s.views := rfl
@[simp] theorem State.claimSlot_carried (s : State) (a b : Nat) (o : PendOp) : (s.claimSlot a b o).carried = s.carried := rfl
@[simp] theorem State.claimSlot_retiredPages (s : State) (a b : Nat) (o : PendOp) : (s.claimSlot a b o).retiredPages = s.retiredPages := rfl
@[simp] theorem State.claimSlot_cmdqs (s : State) (a b : Nat) (o : PendOp) : (s.claimSlot a b o).cmdqs = s.cmdqs := rfl
@[simp] theorem State.claimSlot_engines (s : State) (a b : Nat) (o : PendOp) : (s.claimSlot a b o).engines = s.engines := rfl
@[simp] theorem State.claimSlot_mapWaits (s : State) (a b : Nat) (o : PendOp) : (s.claimSlot a b o).mapWaits = s.mapWaits := rfl
@[simp] theorem State.claimSlot_programs (s : State) (a b : Nat) (o : PendOp) : (s.claimSlot a b o).programs = s.programs := rfl
@[simp] theorem State.claimSlot_lottery (s : State) (a b : Nat) (o : PendOp) : (s.claimSlot a b o).lottery = s.lottery := rfl
@[simp] theorem State.claimSlot_runs (s : State) (a b : Nat) (o : PendOp) : (s.claimSlot a b o).runs = s.runs := rfl
@[simp] theorem State.claimSlot_units (s : State) (a b : Nat) (o : PendOp) : (s.claimSlot a b o).units = s.units := rfl
@[simp] theorem State.claimSlot_placeDue (s : State) (a b : Nat) (o : PendOp) : (s.claimSlot a b o).placeDue = s.placeDue := rfl
@[simp] theorem State.claimSlot_placeSince (s : State) (a b : Nat) (o : PendOp) : (s.claimSlot a b o).placeSince = s.placeSince := rfl
@[simp] theorem State.claimSlot_placeLast (s : State) (a b : Nat) (o : PendOp) : (s.claimSlot a b o).placeLast = s.placeLast := rfl
@[simp] theorem State.claimSlot_cores (s : State) (a b : Nat) (o : PendOp) : (s.claimSlot a b o).cores = s.cores := rfl
@[simp] theorem State.claimSlot_hub (s : State) (a b : Nat) (o : PendOp) : (s.claimSlot a b o).hub = s.hub := rfl

/-! ### modCtx -/

@[simp] theorem State.modCtx_clock (s : State) (a : Nat) (f : Context → Context) : (s.modCtx a f).clock = s.clock := rfl
@[simp] theorem State.modCtx_agenda (s : State) (a : Nat) (f : Context → Context) : (s.modCtx a f).agenda = s.agenda := rfl
@[simp] theorem State.modCtx_cur (s : State) (a : Nat) (f : Context → Context) : (s.modCtx a f).cur = s.cur := rfl
@[simp] theorem State.modCtx_nonce (s : State) (a : Nat) (f : Context → Context) : (s.modCtx a f).nonce = s.nonce := rfl
@[simp] theorem State.modCtx_nextId (s : State) (a : Nat) (f : Context → Context) : (s.modCtx a f).nextId = s.nextId := rfl
@[simp] theorem State.modCtx_writeNo (s : State) (a : Nat) (f : Context → Context) : (s.modCtx a f).writeNo = s.writeNo := rfl
@[simp] theorem State.modCtx_teams (s : State) (a : Nat) (f : Context → Context) : (s.modCtx a f).teams = s.teams := rfl
@[simp] theorem State.modCtx_saved (s : State) (a : Nat) (f : Context → Context) : (s.modCtx a f).saved = s.saved := rfl
@[simp] theorem State.modCtx_matctx (s : State) (a : Nat) (f : Context → Context) : (s.modCtx a f).matctx = s.matctx := rfl
@[simp] theorem State.modCtx_turns (s : State) (a : Nat) (f : Context → Context) : (s.modCtx a f).turns = s.turns := rfl
@[simp] theorem State.modCtx_regions (s : State) (a : Nat) (f : Context → Context) : (s.modCtx a f).regions = s.regions := rfl
@[simp] theorem State.modCtx_est (s : State) (a : Nat) (f : Context → Context) : (s.modCtx a f).est = s.est := rfl
@[simp] theorem State.modCtx_regionOps (s : State) (a : Nat) (f : Context → Context) : (s.modCtx a f).regionOps = s.regionOps := rfl
@[simp] theorem State.modCtx_copies (s : State) (a : Nat) (f : Context → Context) : (s.modCtx a f).copies = s.copies := rfl
@[simp] theorem State.modCtx_calls (s : State) (a : Nat) (f : Context → Context) : (s.modCtx a f).calls = s.calls := rfl
@[simp] theorem State.modCtx_passes (s : State) (a : Nat) (f : Context → Context) : (s.modCtx a f).passes = s.passes := rfl
@[simp] theorem State.modCtx_taskqs (s : State) (a : Nat) (f : Context → Context) : (s.modCtx a f).taskqs = s.taskqs := rfl
@[simp] theorem State.modCtx_pushes (s : State) (a : Nat) (f : Context → Context) : (s.modCtx a f).pushes = s.pushes := rfl
@[simp] theorem State.modCtx_claims (s : State) (a : Nat) (f : Context → Context) : (s.modCtx a f).claims = s.claims := rfl
@[simp] theorem State.modCtx_claimAt (s : State) (a : Nat) (f : Context → Context) : (s.modCtx a f).claimAt = s.claimAt := rfl
@[simp] theorem State.modCtx_scratch (s : State) (a : Nat) (f : Context → Context) : (s.modCtx a f).scratch = s.scratch := rfl
@[simp] theorem State.modCtx_late (s : State) (a : Nat) (f : Context → Context) : (s.modCtx a f).late = s.late := rfl
@[simp] theorem State.modCtx_writes (s : State) (a : Nat) (f : Context → Context) : (s.modCtx a f).writes = s.writes := rfl
@[simp] theorem State.modCtx_olds (s : State) (a : Nat) (f : Context → Context) : (s.modCtx a f).olds = s.olds := rfl
@[simp] theorem State.modCtx_sights (s : State) (a : Nat) (f : Context → Context) : (s.modCtx a f).sights = s.sights := rfl
@[simp] theorem State.modCtx_poisoned (s : State) (a : Nat) (f : Context → Context) : (s.modCtx a f).poisoned = s.poisoned := rfl
@[simp] theorem State.modCtx_regionTab (s : State) (a : Nat) (f : Context → Context) : (s.modCtx a f).regionTab = s.regionTab := rfl
@[simp] theorem State.modCtx_tags (s : State) (a : Nat) (f : Context → Context) : (s.modCtx a f).tags = s.tags := rfl
@[simp] theorem State.modCtx_views (s : State) (a : Nat) (f : Context → Context) : (s.modCtx a f).views = s.views := rfl
@[simp] theorem State.modCtx_carried (s : State) (a : Nat) (f : Context → Context) : (s.modCtx a f).carried = s.carried := rfl
@[simp] theorem State.modCtx_retiredPages (s : State) (a : Nat) (f : Context → Context) : (s.modCtx a f).retiredPages = s.retiredPages := rfl
@[simp] theorem State.modCtx_cmdqs (s : State) (a : Nat) (f : Context → Context) : (s.modCtx a f).cmdqs = s.cmdqs := rfl
@[simp] theorem State.modCtx_engines (s : State) (a : Nat) (f : Context → Context) : (s.modCtx a f).engines = s.engines := rfl
@[simp] theorem State.modCtx_mapWaits (s : State) (a : Nat) (f : Context → Context) : (s.modCtx a f).mapWaits = s.mapWaits := rfl
@[simp] theorem State.modCtx_programs (s : State) (a : Nat) (f : Context → Context) : (s.modCtx a f).programs = s.programs := rfl
@[simp] theorem State.modCtx_lottery (s : State) (a : Nat) (f : Context → Context) : (s.modCtx a f).lottery = s.lottery := rfl
@[simp] theorem State.modCtx_runs (s : State) (a : Nat) (f : Context → Context) : (s.modCtx a f).runs = s.runs := rfl
@[simp] theorem State.modCtx_units (s : State) (a : Nat) (f : Context → Context) : (s.modCtx a f).units = s.units := rfl
@[simp] theorem State.modCtx_placeDue (s : State) (a : Nat) (f : Context → Context) : (s.modCtx a f).placeDue = s.placeDue := rfl
@[simp] theorem State.modCtx_placeSince (s : State) (a : Nat) (f : Context → Context) : (s.modCtx a f).placeSince = s.placeSince := rfl
@[simp] theorem State.modCtx_placeLast (s : State) (a : Nat) (f : Context → Context) : (s.modCtx a f).placeLast = s.placeLast := rfl
@[simp] theorem State.modCtx_cores (s : State) (a : Nat) (f : Context → Context) : (s.modCtx a f).cores = s.cores := rfl
@[simp] theorem State.modCtx_hub (s : State) (a : Nat) (f : Context → Context) : (s.modCtx a f).hub = s.hub := rfl

/-! ### modMat -/

@[simp] theorem State.modMat_clock (s : State) (a b c : Nat) (f : MatCtx → MatCtx) : (s.modMat a b c f).clock = s.clock := rfl
@[simp] theorem State.modMat_agenda (s : State) (a b c : Nat) (f : MatCtx → MatCtx) : (s.modMat a b c f).agenda = s.agenda := rfl
@[simp] theorem State.modMat_cur (s : State) (a b c : Nat) (f : MatCtx → MatCtx) : (s.modMat a b c f).cur = s.cur := rfl
@[simp] theorem State.modMat_nonce (s : State) (a b c : Nat) (f : MatCtx → MatCtx) : (s.modMat a b c f).nonce = s.nonce := rfl
@[simp] theorem State.modMat_nextId (s : State) (a b c : Nat) (f : MatCtx → MatCtx) : (s.modMat a b c f).nextId = s.nextId := rfl
@[simp] theorem State.modMat_writeNo (s : State) (a b c : Nat) (f : MatCtx → MatCtx) : (s.modMat a b c f).writeNo = s.writeNo := rfl
@[simp] theorem State.modMat_contexts (s : State) (a b c : Nat) (f : MatCtx → MatCtx) : (s.modMat a b c f).contexts = s.contexts := rfl
@[simp] theorem State.modMat_teams (s : State) (a b c : Nat) (f : MatCtx → MatCtx) : (s.modMat a b c f).teams = s.teams := rfl
@[simp] theorem State.modMat_saved (s : State) (a b c : Nat) (f : MatCtx → MatCtx) : (s.modMat a b c f).saved = s.saved := rfl
@[simp] theorem State.modMat_turns (s : State) (a b c : Nat) (f : MatCtx → MatCtx) : (s.modMat a b c f).turns = s.turns := rfl
@[simp] theorem State.modMat_regions (s : State) (a b c : Nat) (f : MatCtx → MatCtx) : (s.modMat a b c f).regions = s.regions := rfl
@[simp] theorem State.modMat_est (s : State) (a b c : Nat) (f : MatCtx → MatCtx) : (s.modMat a b c f).est = s.est := rfl
@[simp] theorem State.modMat_regionOps (s : State) (a b c : Nat) (f : MatCtx → MatCtx) : (s.modMat a b c f).regionOps = s.regionOps := rfl
@[simp] theorem State.modMat_copies (s : State) (a b c : Nat) (f : MatCtx → MatCtx) : (s.modMat a b c f).copies = s.copies := rfl
@[simp] theorem State.modMat_calls (s : State) (a b c : Nat) (f : MatCtx → MatCtx) : (s.modMat a b c f).calls = s.calls := rfl
@[simp] theorem State.modMat_passes (s : State) (a b c : Nat) (f : MatCtx → MatCtx) : (s.modMat a b c f).passes = s.passes := rfl
@[simp] theorem State.modMat_taskqs (s : State) (a b c : Nat) (f : MatCtx → MatCtx) : (s.modMat a b c f).taskqs = s.taskqs := rfl
@[simp] theorem State.modMat_pushes (s : State) (a b c : Nat) (f : MatCtx → MatCtx) : (s.modMat a b c f).pushes = s.pushes := rfl
@[simp] theorem State.modMat_claims (s : State) (a b c : Nat) (f : MatCtx → MatCtx) : (s.modMat a b c f).claims = s.claims := rfl
@[simp] theorem State.modMat_claimAt (s : State) (a b c : Nat) (f : MatCtx → MatCtx) : (s.modMat a b c f).claimAt = s.claimAt := rfl
@[simp] theorem State.modMat_scratch (s : State) (a b c : Nat) (f : MatCtx → MatCtx) : (s.modMat a b c f).scratch = s.scratch := rfl
@[simp] theorem State.modMat_late (s : State) (a b c : Nat) (f : MatCtx → MatCtx) : (s.modMat a b c f).late = s.late := rfl
@[simp] theorem State.modMat_writes (s : State) (a b c : Nat) (f : MatCtx → MatCtx) : (s.modMat a b c f).writes = s.writes := rfl
@[simp] theorem State.modMat_olds (s : State) (a b c : Nat) (f : MatCtx → MatCtx) : (s.modMat a b c f).olds = s.olds := rfl
@[simp] theorem State.modMat_sights (s : State) (a b c : Nat) (f : MatCtx → MatCtx) : (s.modMat a b c f).sights = s.sights := rfl
@[simp] theorem State.modMat_poisoned (s : State) (a b c : Nat) (f : MatCtx → MatCtx) : (s.modMat a b c f).poisoned = s.poisoned := rfl
@[simp] theorem State.modMat_regionTab (s : State) (a b c : Nat) (f : MatCtx → MatCtx) : (s.modMat a b c f).regionTab = s.regionTab := rfl
@[simp] theorem State.modMat_tags (s : State) (a b c : Nat) (f : MatCtx → MatCtx) : (s.modMat a b c f).tags = s.tags := rfl
@[simp] theorem State.modMat_views (s : State) (a b c : Nat) (f : MatCtx → MatCtx) : (s.modMat a b c f).views = s.views := rfl
@[simp] theorem State.modMat_carried (s : State) (a b c : Nat) (f : MatCtx → MatCtx) : (s.modMat a b c f).carried = s.carried := rfl
@[simp] theorem State.modMat_retiredPages (s : State) (a b c : Nat) (f : MatCtx → MatCtx) : (s.modMat a b c f).retiredPages = s.retiredPages := rfl
@[simp] theorem State.modMat_cmdqs (s : State) (a b c : Nat) (f : MatCtx → MatCtx) : (s.modMat a b c f).cmdqs = s.cmdqs := rfl
@[simp] theorem State.modMat_engines (s : State) (a b c : Nat) (f : MatCtx → MatCtx) : (s.modMat a b c f).engines = s.engines := rfl
@[simp] theorem State.modMat_mapWaits (s : State) (a b c : Nat) (f : MatCtx → MatCtx) : (s.modMat a b c f).mapWaits = s.mapWaits := rfl
@[simp] theorem State.modMat_programs (s : State) (a b c : Nat) (f : MatCtx → MatCtx) : (s.modMat a b c f).programs = s.programs := rfl
@[simp] theorem State.modMat_lottery (s : State) (a b c : Nat) (f : MatCtx → MatCtx) : (s.modMat a b c f).lottery = s.lottery := rfl
@[simp] theorem State.modMat_runs (s : State) (a b c : Nat) (f : MatCtx → MatCtx) : (s.modMat a b c f).runs = s.runs := rfl
@[simp] theorem State.modMat_units (s : State) (a b c : Nat) (f : MatCtx → MatCtx) : (s.modMat a b c f).units = s.units := rfl
@[simp] theorem State.modMat_placeDue (s : State) (a b c : Nat) (f : MatCtx → MatCtx) : (s.modMat a b c f).placeDue = s.placeDue := rfl
@[simp] theorem State.modMat_placeSince (s : State) (a b c : Nat) (f : MatCtx → MatCtx) : (s.modMat a b c f).placeSince = s.placeSince := rfl
@[simp] theorem State.modMat_placeLast (s : State) (a b c : Nat) (f : MatCtx → MatCtx) : (s.modMat a b c f).placeLast = s.placeLast := rfl
@[simp] theorem State.modMat_cores (s : State) (a b c : Nat) (f : MatCtx → MatCtx) : (s.modMat a b c f).cores = s.cores := rfl
@[simp] theorem State.modMat_hub (s : State) (a b c : Nat) (f : MatCtx → MatCtx) : (s.modMat a b c f).hub = s.hub := rfl

/-! ### modNode -/

@[simp] theorem State.modNode_clock (s : State) (a b : Nat) (f : NodeRun → NodeRun) : (s.modNode a b f).clock = s.clock := rfl
@[simp] theorem State.modNode_agenda (s : State) (a b : Nat) (f : NodeRun → NodeRun) : (s.modNode a b f).agenda = s.agenda := rfl
@[simp] theorem State.modNode_cur (s : State) (a b : Nat) (f : NodeRun → NodeRun) : (s.modNode a b f).cur = s.cur := rfl
@[simp] theorem State.modNode_nonce (s : State) (a b : Nat) (f : NodeRun → NodeRun) : (s.modNode a b f).nonce = s.nonce := rfl
@[simp] theorem State.modNode_nextId (s : State) (a b : Nat) (f : NodeRun → NodeRun) : (s.modNode a b f).nextId = s.nextId := rfl
@[simp] theorem State.modNode_writeNo (s : State) (a b : Nat) (f : NodeRun → NodeRun) : (s.modNode a b f).writeNo = s.writeNo := rfl
@[simp] theorem State.modNode_contexts (s : State) (a b : Nat) (f : NodeRun → NodeRun) : (s.modNode a b f).contexts = s.contexts := rfl
@[simp] theorem State.modNode_teams (s : State) (a b : Nat) (f : NodeRun → NodeRun) : (s.modNode a b f).teams = s.teams := rfl
@[simp] theorem State.modNode_saved (s : State) (a b : Nat) (f : NodeRun → NodeRun) : (s.modNode a b f).saved = s.saved := rfl
@[simp] theorem State.modNode_matctx (s : State) (a b : Nat) (f : NodeRun → NodeRun) : (s.modNode a b f).matctx = s.matctx := rfl
@[simp] theorem State.modNode_turns (s : State) (a b : Nat) (f : NodeRun → NodeRun) : (s.modNode a b f).turns = s.turns := rfl
@[simp] theorem State.modNode_regions (s : State) (a b : Nat) (f : NodeRun → NodeRun) : (s.modNode a b f).regions = s.regions := rfl
@[simp] theorem State.modNode_est (s : State) (a b : Nat) (f : NodeRun → NodeRun) : (s.modNode a b f).est = s.est := rfl
@[simp] theorem State.modNode_regionOps (s : State) (a b : Nat) (f : NodeRun → NodeRun) : (s.modNode a b f).regionOps = s.regionOps := rfl
@[simp] theorem State.modNode_copies (s : State) (a b : Nat) (f : NodeRun → NodeRun) : (s.modNode a b f).copies = s.copies := rfl
@[simp] theorem State.modNode_calls (s : State) (a b : Nat) (f : NodeRun → NodeRun) : (s.modNode a b f).calls = s.calls := rfl
@[simp] theorem State.modNode_passes (s : State) (a b : Nat) (f : NodeRun → NodeRun) : (s.modNode a b f).passes = s.passes := rfl
@[simp] theorem State.modNode_taskqs (s : State) (a b : Nat) (f : NodeRun → NodeRun) : (s.modNode a b f).taskqs = s.taskqs := rfl
@[simp] theorem State.modNode_pushes (s : State) (a b : Nat) (f : NodeRun → NodeRun) : (s.modNode a b f).pushes = s.pushes := rfl
@[simp] theorem State.modNode_claims (s : State) (a b : Nat) (f : NodeRun → NodeRun) : (s.modNode a b f).claims = s.claims := rfl
@[simp] theorem State.modNode_claimAt (s : State) (a b : Nat) (f : NodeRun → NodeRun) : (s.modNode a b f).claimAt = s.claimAt := rfl
@[simp] theorem State.modNode_scratch (s : State) (a b : Nat) (f : NodeRun → NodeRun) : (s.modNode a b f).scratch = s.scratch := rfl
@[simp] theorem State.modNode_late (s : State) (a b : Nat) (f : NodeRun → NodeRun) : (s.modNode a b f).late = s.late := rfl
@[simp] theorem State.modNode_writes (s : State) (a b : Nat) (f : NodeRun → NodeRun) : (s.modNode a b f).writes = s.writes := rfl
@[simp] theorem State.modNode_olds (s : State) (a b : Nat) (f : NodeRun → NodeRun) : (s.modNode a b f).olds = s.olds := rfl
@[simp] theorem State.modNode_sights (s : State) (a b : Nat) (f : NodeRun → NodeRun) : (s.modNode a b f).sights = s.sights := rfl
@[simp] theorem State.modNode_poisoned (s : State) (a b : Nat) (f : NodeRun → NodeRun) : (s.modNode a b f).poisoned = s.poisoned := rfl
@[simp] theorem State.modNode_regionTab (s : State) (a b : Nat) (f : NodeRun → NodeRun) : (s.modNode a b f).regionTab = s.regionTab := rfl
@[simp] theorem State.modNode_tags (s : State) (a b : Nat) (f : NodeRun → NodeRun) : (s.modNode a b f).tags = s.tags := rfl
@[simp] theorem State.modNode_views (s : State) (a b : Nat) (f : NodeRun → NodeRun) : (s.modNode a b f).views = s.views := rfl
@[simp] theorem State.modNode_carried (s : State) (a b : Nat) (f : NodeRun → NodeRun) : (s.modNode a b f).carried = s.carried := rfl
@[simp] theorem State.modNode_retiredPages (s : State) (a b : Nat) (f : NodeRun → NodeRun) : (s.modNode a b f).retiredPages = s.retiredPages := rfl
@[simp] theorem State.modNode_cmdqs (s : State) (a b : Nat) (f : NodeRun → NodeRun) : (s.modNode a b f).cmdqs = s.cmdqs := rfl
@[simp] theorem State.modNode_engines (s : State) (a b : Nat) (f : NodeRun → NodeRun) : (s.modNode a b f).engines = s.engines := rfl
@[simp] theorem State.modNode_mapWaits (s : State) (a b : Nat) (f : NodeRun → NodeRun) : (s.modNode a b f).mapWaits = s.mapWaits := rfl
@[simp] theorem State.modNode_programs (s : State) (a b : Nat) (f : NodeRun → NodeRun) : (s.modNode a b f).programs = s.programs := rfl
@[simp] theorem State.modNode_lottery (s : State) (a b : Nat) (f : NodeRun → NodeRun) : (s.modNode a b f).lottery = s.lottery := rfl
@[simp] theorem State.modNode_units (s : State) (a b : Nat) (f : NodeRun → NodeRun) : (s.modNode a b f).units = s.units := rfl
@[simp] theorem State.modNode_placeDue (s : State) (a b : Nat) (f : NodeRun → NodeRun) : (s.modNode a b f).placeDue = s.placeDue := rfl
@[simp] theorem State.modNode_placeSince (s : State) (a b : Nat) (f : NodeRun → NodeRun) : (s.modNode a b f).placeSince = s.placeSince := rfl
@[simp] theorem State.modNode_placeLast (s : State) (a b : Nat) (f : NodeRun → NodeRun) : (s.modNode a b f).placeLast = s.placeLast := rfl
@[simp] theorem State.modNode_cores (s : State) (a b : Nat) (f : NodeRun → NodeRun) : (s.modNode a b f).cores = s.cores := rfl
@[simp] theorem State.modNode_hub (s : State) (a b : Nat) (f : NodeRun → NodeRun) : (s.modNode a b f).hub = s.hub := rfl

/-! ### modTaskq -/

@[simp] theorem State.modTaskq_clock (s : State) (a b : Nat) (f : TaskQ → TaskQ) : (s.modTaskq a b f).clock = s.clock := rfl
@[simp] theorem State.modTaskq_agenda (s : State) (a b : Nat) (f : TaskQ → TaskQ) : (s.modTaskq a b f).agenda = s.agenda := rfl
@[simp] theorem State.modTaskq_cur (s : State) (a b : Nat) (f : TaskQ → TaskQ) : (s.modTaskq a b f).cur = s.cur := rfl
@[simp] theorem State.modTaskq_nonce (s : State) (a b : Nat) (f : TaskQ → TaskQ) : (s.modTaskq a b f).nonce = s.nonce := rfl
@[simp] theorem State.modTaskq_nextId (s : State) (a b : Nat) (f : TaskQ → TaskQ) : (s.modTaskq a b f).nextId = s.nextId := rfl
@[simp] theorem State.modTaskq_writeNo (s : State) (a b : Nat) (f : TaskQ → TaskQ) : (s.modTaskq a b f).writeNo = s.writeNo := rfl
@[simp] theorem State.modTaskq_contexts (s : State) (a b : Nat) (f : TaskQ → TaskQ) : (s.modTaskq a b f).contexts = s.contexts := rfl
@[simp] theorem State.modTaskq_teams (s : State) (a b : Nat) (f : TaskQ → TaskQ) : (s.modTaskq a b f).teams = s.teams := rfl
@[simp] theorem State.modTaskq_saved (s : State) (a b : Nat) (f : TaskQ → TaskQ) : (s.modTaskq a b f).saved = s.saved := rfl
@[simp] theorem State.modTaskq_matctx (s : State) (a b : Nat) (f : TaskQ → TaskQ) : (s.modTaskq a b f).matctx = s.matctx := rfl
@[simp] theorem State.modTaskq_turns (s : State) (a b : Nat) (f : TaskQ → TaskQ) : (s.modTaskq a b f).turns = s.turns := rfl
@[simp] theorem State.modTaskq_regions (s : State) (a b : Nat) (f : TaskQ → TaskQ) : (s.modTaskq a b f).regions = s.regions := rfl
@[simp] theorem State.modTaskq_est (s : State) (a b : Nat) (f : TaskQ → TaskQ) : (s.modTaskq a b f).est = s.est := rfl
@[simp] theorem State.modTaskq_regionOps (s : State) (a b : Nat) (f : TaskQ → TaskQ) : (s.modTaskq a b f).regionOps = s.regionOps := rfl
@[simp] theorem State.modTaskq_copies (s : State) (a b : Nat) (f : TaskQ → TaskQ) : (s.modTaskq a b f).copies = s.copies := rfl
@[simp] theorem State.modTaskq_calls (s : State) (a b : Nat) (f : TaskQ → TaskQ) : (s.modTaskq a b f).calls = s.calls := rfl
@[simp] theorem State.modTaskq_passes (s : State) (a b : Nat) (f : TaskQ → TaskQ) : (s.modTaskq a b f).passes = s.passes := rfl
@[simp] theorem State.modTaskq_pushes (s : State) (a b : Nat) (f : TaskQ → TaskQ) : (s.modTaskq a b f).pushes = s.pushes := rfl
@[simp] theorem State.modTaskq_claims (s : State) (a b : Nat) (f : TaskQ → TaskQ) : (s.modTaskq a b f).claims = s.claims := rfl
@[simp] theorem State.modTaskq_claimAt (s : State) (a b : Nat) (f : TaskQ → TaskQ) : (s.modTaskq a b f).claimAt = s.claimAt := rfl
@[simp] theorem State.modTaskq_scratch (s : State) (a b : Nat) (f : TaskQ → TaskQ) : (s.modTaskq a b f).scratch = s.scratch := rfl
@[simp] theorem State.modTaskq_late (s : State) (a b : Nat) (f : TaskQ → TaskQ) : (s.modTaskq a b f).late = s.late := rfl
@[simp] theorem State.modTaskq_writes (s : State) (a b : Nat) (f : TaskQ → TaskQ) : (s.modTaskq a b f).writes = s.writes := rfl
@[simp] theorem State.modTaskq_olds (s : State) (a b : Nat) (f : TaskQ → TaskQ) : (s.modTaskq a b f).olds = s.olds := rfl
@[simp] theorem State.modTaskq_sights (s : State) (a b : Nat) (f : TaskQ → TaskQ) : (s.modTaskq a b f).sights = s.sights := rfl
@[simp] theorem State.modTaskq_poisoned (s : State) (a b : Nat) (f : TaskQ → TaskQ) : (s.modTaskq a b f).poisoned = s.poisoned := rfl
@[simp] theorem State.modTaskq_regionTab (s : State) (a b : Nat) (f : TaskQ → TaskQ) : (s.modTaskq a b f).regionTab = s.regionTab := rfl
@[simp] theorem State.modTaskq_tags (s : State) (a b : Nat) (f : TaskQ → TaskQ) : (s.modTaskq a b f).tags = s.tags := rfl
@[simp] theorem State.modTaskq_views (s : State) (a b : Nat) (f : TaskQ → TaskQ) : (s.modTaskq a b f).views = s.views := rfl
@[simp] theorem State.modTaskq_carried (s : State) (a b : Nat) (f : TaskQ → TaskQ) : (s.modTaskq a b f).carried = s.carried := rfl
@[simp] theorem State.modTaskq_retiredPages (s : State) (a b : Nat) (f : TaskQ → TaskQ) : (s.modTaskq a b f).retiredPages = s.retiredPages := rfl
@[simp] theorem State.modTaskq_cmdqs (s : State) (a b : Nat) (f : TaskQ → TaskQ) : (s.modTaskq a b f).cmdqs = s.cmdqs := rfl
@[simp] theorem State.modTaskq_engines (s : State) (a b : Nat) (f : TaskQ → TaskQ) : (s.modTaskq a b f).engines = s.engines := rfl
@[simp] theorem State.modTaskq_mapWaits (s : State) (a b : Nat) (f : TaskQ → TaskQ) : (s.modTaskq a b f).mapWaits = s.mapWaits := rfl
@[simp] theorem State.modTaskq_programs (s : State) (a b : Nat) (f : TaskQ → TaskQ) : (s.modTaskq a b f).programs = s.programs := rfl
@[simp] theorem State.modTaskq_lottery (s : State) (a b : Nat) (f : TaskQ → TaskQ) : (s.modTaskq a b f).lottery = s.lottery := rfl
@[simp] theorem State.modTaskq_runs (s : State) (a b : Nat) (f : TaskQ → TaskQ) : (s.modTaskq a b f).runs = s.runs := rfl
@[simp] theorem State.modTaskq_units (s : State) (a b : Nat) (f : TaskQ → TaskQ) : (s.modTaskq a b f).units = s.units := rfl
@[simp] theorem State.modTaskq_placeDue (s : State) (a b : Nat) (f : TaskQ → TaskQ) : (s.modTaskq a b f).placeDue = s.placeDue := rfl
@[simp] theorem State.modTaskq_placeSince (s : State) (a b : Nat) (f : TaskQ → TaskQ) : (s.modTaskq a b f).placeSince = s.placeSince := rfl
@[simp] theorem State.modTaskq_placeLast (s : State) (a b : Nat) (f : TaskQ → TaskQ) : (s.modTaskq a b f).placeLast = s.placeLast := rfl
@[simp] theorem State.modTaskq_cores (s : State) (a b : Nat) (f : TaskQ → TaskQ) : (s.modTaskq a b f).cores = s.cores := rfl
@[simp] theorem State.modTaskq_hub (s : State) (a b : Nat) (f : TaskQ → TaskQ) : (s.modTaskq a b f).hub = s.hub := rfl

/-! ### modCopy -/

@[simp] theorem State.modCopy_clock (s : State) (a : Nat) (f : Copy → Copy) : (s.modCopy a f).clock = s.clock := rfl
@[simp] theorem State.modCopy_agenda (s : State) (a : Nat) (f : Copy → Copy) : (s.modCopy a f).agenda = s.agenda := rfl
@[simp] theorem State.modCopy_cur (s : State) (a : Nat) (f : Copy → Copy) : (s.modCopy a f).cur = s.cur := rfl
@[simp] theorem State.modCopy_nonce (s : State) (a : Nat) (f : Copy → Copy) : (s.modCopy a f).nonce = s.nonce := rfl
@[simp] theorem State.modCopy_nextId (s : State) (a : Nat) (f : Copy → Copy) : (s.modCopy a f).nextId = s.nextId := rfl
@[simp] theorem State.modCopy_writeNo (s : State) (a : Nat) (f : Copy → Copy) : (s.modCopy a f).writeNo = s.writeNo := rfl
@[simp] theorem State.modCopy_contexts (s : State) (a : Nat) (f : Copy → Copy) : (s.modCopy a f).contexts = s.contexts := rfl
@[simp] theorem State.modCopy_teams (s : State) (a : Nat) (f : Copy → Copy) : (s.modCopy a f).teams = s.teams := rfl
@[simp] theorem State.modCopy_saved (s : State) (a : Nat) (f : Copy → Copy) : (s.modCopy a f).saved = s.saved := rfl
@[simp] theorem State.modCopy_matctx (s : State) (a : Nat) (f : Copy → Copy) : (s.modCopy a f).matctx = s.matctx := rfl
@[simp] theorem State.modCopy_turns (s : State) (a : Nat) (f : Copy → Copy) : (s.modCopy a f).turns = s.turns := rfl
@[simp] theorem State.modCopy_regions (s : State) (a : Nat) (f : Copy → Copy) : (s.modCopy a f).regions = s.regions := rfl
@[simp] theorem State.modCopy_est (s : State) (a : Nat) (f : Copy → Copy) : (s.modCopy a f).est = s.est := rfl
@[simp] theorem State.modCopy_regionOps (s : State) (a : Nat) (f : Copy → Copy) : (s.modCopy a f).regionOps = s.regionOps := rfl
@[simp] theorem State.modCopy_calls (s : State) (a : Nat) (f : Copy → Copy) : (s.modCopy a f).calls = s.calls := rfl
@[simp] theorem State.modCopy_passes (s : State) (a : Nat) (f : Copy → Copy) : (s.modCopy a f).passes = s.passes := rfl
@[simp] theorem State.modCopy_taskqs (s : State) (a : Nat) (f : Copy → Copy) : (s.modCopy a f).taskqs = s.taskqs := rfl
@[simp] theorem State.modCopy_pushes (s : State) (a : Nat) (f : Copy → Copy) : (s.modCopy a f).pushes = s.pushes := rfl
@[simp] theorem State.modCopy_claims (s : State) (a : Nat) (f : Copy → Copy) : (s.modCopy a f).claims = s.claims := rfl
@[simp] theorem State.modCopy_claimAt (s : State) (a : Nat) (f : Copy → Copy) : (s.modCopy a f).claimAt = s.claimAt := rfl
@[simp] theorem State.modCopy_scratch (s : State) (a : Nat) (f : Copy → Copy) : (s.modCopy a f).scratch = s.scratch := rfl
@[simp] theorem State.modCopy_late (s : State) (a : Nat) (f : Copy → Copy) : (s.modCopy a f).late = s.late := rfl
@[simp] theorem State.modCopy_writes (s : State) (a : Nat) (f : Copy → Copy) : (s.modCopy a f).writes = s.writes := rfl
@[simp] theorem State.modCopy_olds (s : State) (a : Nat) (f : Copy → Copy) : (s.modCopy a f).olds = s.olds := rfl
@[simp] theorem State.modCopy_sights (s : State) (a : Nat) (f : Copy → Copy) : (s.modCopy a f).sights = s.sights := rfl
@[simp] theorem State.modCopy_poisoned (s : State) (a : Nat) (f : Copy → Copy) : (s.modCopy a f).poisoned = s.poisoned := rfl
@[simp] theorem State.modCopy_regionTab (s : State) (a : Nat) (f : Copy → Copy) : (s.modCopy a f).regionTab = s.regionTab := rfl
@[simp] theorem State.modCopy_tags (s : State) (a : Nat) (f : Copy → Copy) : (s.modCopy a f).tags = s.tags := rfl
@[simp] theorem State.modCopy_views (s : State) (a : Nat) (f : Copy → Copy) : (s.modCopy a f).views = s.views := rfl
@[simp] theorem State.modCopy_carried (s : State) (a : Nat) (f : Copy → Copy) : (s.modCopy a f).carried = s.carried := rfl
@[simp] theorem State.modCopy_retiredPages (s : State) (a : Nat) (f : Copy → Copy) : (s.modCopy a f).retiredPages = s.retiredPages := rfl
@[simp] theorem State.modCopy_cmdqs (s : State) (a : Nat) (f : Copy → Copy) : (s.modCopy a f).cmdqs = s.cmdqs := rfl
@[simp] theorem State.modCopy_engines (s : State) (a : Nat) (f : Copy → Copy) : (s.modCopy a f).engines = s.engines := rfl
@[simp] theorem State.modCopy_mapWaits (s : State) (a : Nat) (f : Copy → Copy) : (s.modCopy a f).mapWaits = s.mapWaits := rfl
@[simp] theorem State.modCopy_programs (s : State) (a : Nat) (f : Copy → Copy) : (s.modCopy a f).programs = s.programs := rfl
@[simp] theorem State.modCopy_lottery (s : State) (a : Nat) (f : Copy → Copy) : (s.modCopy a f).lottery = s.lottery := rfl
@[simp] theorem State.modCopy_runs (s : State) (a : Nat) (f : Copy → Copy) : (s.modCopy a f).runs = s.runs := rfl
@[simp] theorem State.modCopy_units (s : State) (a : Nat) (f : Copy → Copy) : (s.modCopy a f).units = s.units := rfl
@[simp] theorem State.modCopy_placeDue (s : State) (a : Nat) (f : Copy → Copy) : (s.modCopy a f).placeDue = s.placeDue := rfl
@[simp] theorem State.modCopy_placeSince (s : State) (a : Nat) (f : Copy → Copy) : (s.modCopy a f).placeSince = s.placeSince := rfl
@[simp] theorem State.modCopy_placeLast (s : State) (a : Nat) (f : Copy → Copy) : (s.modCopy a f).placeLast = s.placeLast := rfl
@[simp] theorem State.modCopy_cores (s : State) (a : Nat) (f : Copy → Copy) : (s.modCopy a f).cores = s.cores := rfl
@[simp] theorem State.modCopy_hub (s : State) (a : Nat) (f : Copy → Copy) : (s.modCopy a f).hub = s.hub := rfl

/-! ### modCall -/

@[simp] theorem State.modCall_clock (s : State) (a : Nat) (f : Call → Call) : (s.modCall a f).clock = s.clock := rfl
@[simp] theorem State.modCall_agenda (s : State) (a : Nat) (f : Call → Call) : (s.modCall a f).agenda = s.agenda := rfl
@[simp] theorem State.modCall_cur (s : State) (a : Nat) (f : Call → Call) : (s.modCall a f).cur = s.cur := rfl
@[simp] theorem State.modCall_nonce (s : State) (a : Nat) (f : Call → Call) : (s.modCall a f).nonce = s.nonce := rfl
@[simp] theorem State.modCall_nextId (s : State) (a : Nat) (f : Call → Call) : (s.modCall a f).nextId = s.nextId := rfl
@[simp] theorem State.modCall_writeNo (s : State) (a : Nat) (f : Call → Call) : (s.modCall a f).writeNo = s.writeNo := rfl
@[simp] theorem State.modCall_contexts (s : State) (a : Nat) (f : Call → Call) : (s.modCall a f).contexts = s.contexts := rfl
@[simp] theorem State.modCall_teams (s : State) (a : Nat) (f : Call → Call) : (s.modCall a f).teams = s.teams := rfl
@[simp] theorem State.modCall_saved (s : State) (a : Nat) (f : Call → Call) : (s.modCall a f).saved = s.saved := rfl
@[simp] theorem State.modCall_matctx (s : State) (a : Nat) (f : Call → Call) : (s.modCall a f).matctx = s.matctx := rfl
@[simp] theorem State.modCall_turns (s : State) (a : Nat) (f : Call → Call) : (s.modCall a f).turns = s.turns := rfl
@[simp] theorem State.modCall_regions (s : State) (a : Nat) (f : Call → Call) : (s.modCall a f).regions = s.regions := rfl
@[simp] theorem State.modCall_est (s : State) (a : Nat) (f : Call → Call) : (s.modCall a f).est = s.est := rfl
@[simp] theorem State.modCall_regionOps (s : State) (a : Nat) (f : Call → Call) : (s.modCall a f).regionOps = s.regionOps := rfl
@[simp] theorem State.modCall_copies (s : State) (a : Nat) (f : Call → Call) : (s.modCall a f).copies = s.copies := rfl
@[simp] theorem State.modCall_passes (s : State) (a : Nat) (f : Call → Call) : (s.modCall a f).passes = s.passes := rfl
@[simp] theorem State.modCall_taskqs (s : State) (a : Nat) (f : Call → Call) : (s.modCall a f).taskqs = s.taskqs := rfl
@[simp] theorem State.modCall_pushes (s : State) (a : Nat) (f : Call → Call) : (s.modCall a f).pushes = s.pushes := rfl
@[simp] theorem State.modCall_claims (s : State) (a : Nat) (f : Call → Call) : (s.modCall a f).claims = s.claims := rfl
@[simp] theorem State.modCall_claimAt (s : State) (a : Nat) (f : Call → Call) : (s.modCall a f).claimAt = s.claimAt := rfl
@[simp] theorem State.modCall_scratch (s : State) (a : Nat) (f : Call → Call) : (s.modCall a f).scratch = s.scratch := rfl
@[simp] theorem State.modCall_late (s : State) (a : Nat) (f : Call → Call) : (s.modCall a f).late = s.late := rfl
@[simp] theorem State.modCall_writes (s : State) (a : Nat) (f : Call → Call) : (s.modCall a f).writes = s.writes := rfl
@[simp] theorem State.modCall_olds (s : State) (a : Nat) (f : Call → Call) : (s.modCall a f).olds = s.olds := rfl
@[simp] theorem State.modCall_sights (s : State) (a : Nat) (f : Call → Call) : (s.modCall a f).sights = s.sights := rfl
@[simp] theorem State.modCall_poisoned (s : State) (a : Nat) (f : Call → Call) : (s.modCall a f).poisoned = s.poisoned := rfl
@[simp] theorem State.modCall_regionTab (s : State) (a : Nat) (f : Call → Call) : (s.modCall a f).regionTab = s.regionTab := rfl
@[simp] theorem State.modCall_tags (s : State) (a : Nat) (f : Call → Call) : (s.modCall a f).tags = s.tags := rfl
@[simp] theorem State.modCall_views (s : State) (a : Nat) (f : Call → Call) : (s.modCall a f).views = s.views := rfl
@[simp] theorem State.modCall_carried (s : State) (a : Nat) (f : Call → Call) : (s.modCall a f).carried = s.carried := rfl
@[simp] theorem State.modCall_retiredPages (s : State) (a : Nat) (f : Call → Call) : (s.modCall a f).retiredPages = s.retiredPages := rfl
@[simp] theorem State.modCall_cmdqs (s : State) (a : Nat) (f : Call → Call) : (s.modCall a f).cmdqs = s.cmdqs := rfl
@[simp] theorem State.modCall_engines (s : State) (a : Nat) (f : Call → Call) : (s.modCall a f).engines = s.engines := rfl
@[simp] theorem State.modCall_mapWaits (s : State) (a : Nat) (f : Call → Call) : (s.modCall a f).mapWaits = s.mapWaits := rfl
@[simp] theorem State.modCall_programs (s : State) (a : Nat) (f : Call → Call) : (s.modCall a f).programs = s.programs := rfl
@[simp] theorem State.modCall_lottery (s : State) (a : Nat) (f : Call → Call) : (s.modCall a f).lottery = s.lottery := rfl
@[simp] theorem State.modCall_runs (s : State) (a : Nat) (f : Call → Call) : (s.modCall a f).runs = s.runs := rfl
@[simp] theorem State.modCall_units (s : State) (a : Nat) (f : Call → Call) : (s.modCall a f).units = s.units := rfl
@[simp] theorem State.modCall_placeDue (s : State) (a : Nat) (f : Call → Call) : (s.modCall a f).placeDue = s.placeDue := rfl
@[simp] theorem State.modCall_placeSince (s : State) (a : Nat) (f : Call → Call) : (s.modCall a f).placeSince = s.placeSince := rfl
@[simp] theorem State.modCall_placeLast (s : State) (a : Nat) (f : Call → Call) : (s.modCall a f).placeLast = s.placeLast := rfl
@[simp] theorem State.modCall_cores (s : State) (a : Nat) (f : Call → Call) : (s.modCall a f).cores = s.cores := rfl
@[simp] theorem State.modCall_hub (s : State) (a : Nat) (f : Call → Call) : (s.modCall a f).hub = s.hub := rfl

/-! ### bumpId -/

@[simp] theorem State.bumpId_clock (s : State) : s.bumpId.clock = s.clock := rfl
@[simp] theorem State.bumpId_agenda (s : State) : s.bumpId.agenda = s.agenda := rfl
@[simp] theorem State.bumpId_cur (s : State) : s.bumpId.cur = s.cur := rfl
@[simp] theorem State.bumpId_nonce (s : State) : s.bumpId.nonce = s.nonce := rfl
@[simp] theorem State.bumpId_writeNo (s : State) : s.bumpId.writeNo = s.writeNo := rfl
@[simp] theorem State.bumpId_contexts (s : State) : s.bumpId.contexts = s.contexts := rfl
@[simp] theorem State.bumpId_teams (s : State) : s.bumpId.teams = s.teams := rfl
@[simp] theorem State.bumpId_saved (s : State) : s.bumpId.saved = s.saved := rfl
@[simp] theorem State.bumpId_matctx (s : State) : s.bumpId.matctx = s.matctx := rfl
@[simp] theorem State.bumpId_turns (s : State) : s.bumpId.turns = s.turns := rfl
@[simp] theorem State.bumpId_regions (s : State) : s.bumpId.regions = s.regions := rfl
@[simp] theorem State.bumpId_est (s : State) : s.bumpId.est = s.est := rfl
@[simp] theorem State.bumpId_regionOps (s : State) : s.bumpId.regionOps = s.regionOps := rfl
@[simp] theorem State.bumpId_copies (s : State) : s.bumpId.copies = s.copies := rfl
@[simp] theorem State.bumpId_calls (s : State) : s.bumpId.calls = s.calls := rfl
@[simp] theorem State.bumpId_passes (s : State) : s.bumpId.passes = s.passes := rfl
@[simp] theorem State.bumpId_taskqs (s : State) : s.bumpId.taskqs = s.taskqs := rfl
@[simp] theorem State.bumpId_pushes (s : State) : s.bumpId.pushes = s.pushes := rfl
@[simp] theorem State.bumpId_claims (s : State) : s.bumpId.claims = s.claims := rfl
@[simp] theorem State.bumpId_claimAt (s : State) : s.bumpId.claimAt = s.claimAt := rfl
@[simp] theorem State.bumpId_scratch (s : State) : s.bumpId.scratch = s.scratch := rfl
@[simp] theorem State.bumpId_late (s : State) : s.bumpId.late = s.late := rfl
@[simp] theorem State.bumpId_writes (s : State) : s.bumpId.writes = s.writes := rfl
@[simp] theorem State.bumpId_olds (s : State) : s.bumpId.olds = s.olds := rfl
@[simp] theorem State.bumpId_sights (s : State) : s.bumpId.sights = s.sights := rfl
@[simp] theorem State.bumpId_poisoned (s : State) : s.bumpId.poisoned = s.poisoned := rfl
@[simp] theorem State.bumpId_regionTab (s : State) : s.bumpId.regionTab = s.regionTab := rfl
@[simp] theorem State.bumpId_tags (s : State) : s.bumpId.tags = s.tags := rfl
@[simp] theorem State.bumpId_views (s : State) : s.bumpId.views = s.views := rfl
@[simp] theorem State.bumpId_carried (s : State) : s.bumpId.carried = s.carried := rfl
@[simp] theorem State.bumpId_retiredPages (s : State) : s.bumpId.retiredPages = s.retiredPages := rfl
@[simp] theorem State.bumpId_cmdqs (s : State) : s.bumpId.cmdqs = s.cmdqs := rfl
@[simp] theorem State.bumpId_engines (s : State) : s.bumpId.engines = s.engines := rfl
@[simp] theorem State.bumpId_mapWaits (s : State) : s.bumpId.mapWaits = s.mapWaits := rfl
@[simp] theorem State.bumpId_programs (s : State) : s.bumpId.programs = s.programs := rfl
@[simp] theorem State.bumpId_lottery (s : State) : s.bumpId.lottery = s.lottery := rfl
@[simp] theorem State.bumpId_runs (s : State) : s.bumpId.runs = s.runs := rfl
@[simp] theorem State.bumpId_units (s : State) : s.bumpId.units = s.units := rfl
@[simp] theorem State.bumpId_placeDue (s : State) : s.bumpId.placeDue = s.placeDue := rfl
@[simp] theorem State.bumpId_placeSince (s : State) : s.bumpId.placeSince = s.placeSince := rfl
@[simp] theorem State.bumpId_placeLast (s : State) : s.bumpId.placeLast = s.placeLast := rfl
@[simp] theorem State.bumpId_cores (s : State) : s.bumpId.cores = s.cores := rfl
@[simp] theorem State.bumpId_hub (s : State) : s.bumpId.hub = s.hub := rfl

/-! ### bumpNonce -/

@[simp] theorem State.bumpNonce_clock (s : State) : s.bumpNonce.clock = s.clock := rfl
@[simp] theorem State.bumpNonce_agenda (s : State) : s.bumpNonce.agenda = s.agenda := rfl
@[simp] theorem State.bumpNonce_cur (s : State) : s.bumpNonce.cur = s.cur := rfl
@[simp] theorem State.bumpNonce_nextId (s : State) : s.bumpNonce.nextId = s.nextId := rfl
@[simp] theorem State.bumpNonce_writeNo (s : State) : s.bumpNonce.writeNo = s.writeNo := rfl
@[simp] theorem State.bumpNonce_contexts (s : State) : s.bumpNonce.contexts = s.contexts := rfl
@[simp] theorem State.bumpNonce_teams (s : State) : s.bumpNonce.teams = s.teams := rfl
@[simp] theorem State.bumpNonce_saved (s : State) : s.bumpNonce.saved = s.saved := rfl
@[simp] theorem State.bumpNonce_matctx (s : State) : s.bumpNonce.matctx = s.matctx := rfl
@[simp] theorem State.bumpNonce_turns (s : State) : s.bumpNonce.turns = s.turns := rfl
@[simp] theorem State.bumpNonce_regions (s : State) : s.bumpNonce.regions = s.regions := rfl
@[simp] theorem State.bumpNonce_est (s : State) : s.bumpNonce.est = s.est := rfl
@[simp] theorem State.bumpNonce_regionOps (s : State) : s.bumpNonce.regionOps = s.regionOps := rfl
@[simp] theorem State.bumpNonce_copies (s : State) : s.bumpNonce.copies = s.copies := rfl
@[simp] theorem State.bumpNonce_calls (s : State) : s.bumpNonce.calls = s.calls := rfl
@[simp] theorem State.bumpNonce_passes (s : State) : s.bumpNonce.passes = s.passes := rfl
@[simp] theorem State.bumpNonce_taskqs (s : State) : s.bumpNonce.taskqs = s.taskqs := rfl
@[simp] theorem State.bumpNonce_pushes (s : State) : s.bumpNonce.pushes = s.pushes := rfl
@[simp] theorem State.bumpNonce_claims (s : State) : s.bumpNonce.claims = s.claims := rfl
@[simp] theorem State.bumpNonce_claimAt (s : State) : s.bumpNonce.claimAt = s.claimAt := rfl
@[simp] theorem State.bumpNonce_scratch (s : State) : s.bumpNonce.scratch = s.scratch := rfl
@[simp] theorem State.bumpNonce_late (s : State) : s.bumpNonce.late = s.late := rfl
@[simp] theorem State.bumpNonce_writes (s : State) : s.bumpNonce.writes = s.writes := rfl
@[simp] theorem State.bumpNonce_olds (s : State) : s.bumpNonce.olds = s.olds := rfl
@[simp] theorem State.bumpNonce_sights (s : State) : s.bumpNonce.sights = s.sights := rfl
@[simp] theorem State.bumpNonce_poisoned (s : State) : s.bumpNonce.poisoned = s.poisoned := rfl
@[simp] theorem State.bumpNonce_regionTab (s : State) : s.bumpNonce.regionTab = s.regionTab := rfl
@[simp] theorem State.bumpNonce_tags (s : State) : s.bumpNonce.tags = s.tags := rfl
@[simp] theorem State.bumpNonce_views (s : State) : s.bumpNonce.views = s.views := rfl
@[simp] theorem State.bumpNonce_carried (s : State) : s.bumpNonce.carried = s.carried := rfl
@[simp] theorem State.bumpNonce_retiredPages (s : State) : s.bumpNonce.retiredPages = s.retiredPages := rfl
@[simp] theorem State.bumpNonce_cmdqs (s : State) : s.bumpNonce.cmdqs = s.cmdqs := rfl
@[simp] theorem State.bumpNonce_engines (s : State) : s.bumpNonce.engines = s.engines := rfl
@[simp] theorem State.bumpNonce_mapWaits (s : State) : s.bumpNonce.mapWaits = s.mapWaits := rfl
@[simp] theorem State.bumpNonce_programs (s : State) : s.bumpNonce.programs = s.programs := rfl
@[simp] theorem State.bumpNonce_lottery (s : State) : s.bumpNonce.lottery = s.lottery := rfl
@[simp] theorem State.bumpNonce_runs (s : State) : s.bumpNonce.runs = s.runs := rfl
@[simp] theorem State.bumpNonce_units (s : State) : s.bumpNonce.units = s.units := rfl
@[simp] theorem State.bumpNonce_placeDue (s : State) : s.bumpNonce.placeDue = s.placeDue := rfl
@[simp] theorem State.bumpNonce_placeSince (s : State) : s.bumpNonce.placeSince = s.placeSince := rfl
@[simp] theorem State.bumpNonce_placeLast (s : State) : s.bumpNonce.placeLast = s.placeLast := rfl
@[simp] theorem State.bumpNonce_cores (s : State) : s.bumpNonce.cores = s.cores := rfl
@[simp] theorem State.bumpNonce_hub (s : State) : s.bumpNonce.hub = s.hub := rfl

/-! ### clockTo -/

@[simp] theorem State.clockTo_agenda (s : State) (c : Nat) : (s.clockTo c).agenda = s.agenda := rfl
@[simp] theorem State.clockTo_cur (s : State) (c : Nat) : (s.clockTo c).cur = s.cur := rfl
@[simp] theorem State.clockTo_nonce (s : State) (c : Nat) : (s.clockTo c).nonce = s.nonce := rfl
@[simp] theorem State.clockTo_nextId (s : State) (c : Nat) : (s.clockTo c).nextId = s.nextId := rfl
@[simp] theorem State.clockTo_writeNo (s : State) (c : Nat) : (s.clockTo c).writeNo = s.writeNo := rfl
@[simp] theorem State.clockTo_contexts (s : State) (c : Nat) : (s.clockTo c).contexts = s.contexts := rfl
@[simp] theorem State.clockTo_teams (s : State) (c : Nat) : (s.clockTo c).teams = s.teams := rfl
@[simp] theorem State.clockTo_saved (s : State) (c : Nat) : (s.clockTo c).saved = s.saved := rfl
@[simp] theorem State.clockTo_matctx (s : State) (c : Nat) : (s.clockTo c).matctx = s.matctx := rfl
@[simp] theorem State.clockTo_turns (s : State) (c : Nat) : (s.clockTo c).turns = s.turns := rfl
@[simp] theorem State.clockTo_regions (s : State) (c : Nat) : (s.clockTo c).regions = s.regions := rfl
@[simp] theorem State.clockTo_est (s : State) (c : Nat) : (s.clockTo c).est = s.est := rfl
@[simp] theorem State.clockTo_regionOps (s : State) (c : Nat) : (s.clockTo c).regionOps = s.regionOps := rfl
@[simp] theorem State.clockTo_copies (s : State) (c : Nat) : (s.clockTo c).copies = s.copies := rfl
@[simp] theorem State.clockTo_calls (s : State) (c : Nat) : (s.clockTo c).calls = s.calls := rfl
@[simp] theorem State.clockTo_passes (s : State) (c : Nat) : (s.clockTo c).passes = s.passes := rfl
@[simp] theorem State.clockTo_taskqs (s : State) (c : Nat) : (s.clockTo c).taskqs = s.taskqs := rfl
@[simp] theorem State.clockTo_pushes (s : State) (c : Nat) : (s.clockTo c).pushes = s.pushes := rfl
@[simp] theorem State.clockTo_claims (s : State) (c : Nat) : (s.clockTo c).claims = s.claims := rfl
@[simp] theorem State.clockTo_claimAt (s : State) (c : Nat) : (s.clockTo c).claimAt = s.claimAt := rfl
@[simp] theorem State.clockTo_scratch (s : State) (c : Nat) : (s.clockTo c).scratch = s.scratch := rfl
@[simp] theorem State.clockTo_late (s : State) (c : Nat) : (s.clockTo c).late = s.late := rfl
@[simp] theorem State.clockTo_writes (s : State) (c : Nat) : (s.clockTo c).writes = s.writes := rfl
@[simp] theorem State.clockTo_olds (s : State) (c : Nat) : (s.clockTo c).olds = s.olds := rfl
@[simp] theorem State.clockTo_sights (s : State) (c : Nat) : (s.clockTo c).sights = s.sights := rfl
@[simp] theorem State.clockTo_poisoned (s : State) (c : Nat) : (s.clockTo c).poisoned = s.poisoned := rfl
@[simp] theorem State.clockTo_regionTab (s : State) (c : Nat) : (s.clockTo c).regionTab = s.regionTab := rfl
@[simp] theorem State.clockTo_tags (s : State) (c : Nat) : (s.clockTo c).tags = s.tags := rfl
@[simp] theorem State.clockTo_views (s : State) (c : Nat) : (s.clockTo c).views = s.views := rfl
@[simp] theorem State.clockTo_carried (s : State) (c : Nat) : (s.clockTo c).carried = s.carried := rfl
@[simp] theorem State.clockTo_retiredPages (s : State) (c : Nat) : (s.clockTo c).retiredPages = s.retiredPages := rfl
@[simp] theorem State.clockTo_cmdqs (s : State) (c : Nat) : (s.clockTo c).cmdqs = s.cmdqs := rfl
@[simp] theorem State.clockTo_engines (s : State) (c : Nat) : (s.clockTo c).engines = s.engines := rfl
@[simp] theorem State.clockTo_mapWaits (s : State) (c : Nat) : (s.clockTo c).mapWaits = s.mapWaits := rfl
@[simp] theorem State.clockTo_programs (s : State) (c : Nat) : (s.clockTo c).programs = s.programs := rfl
@[simp] theorem State.clockTo_lottery (s : State) (c : Nat) : (s.clockTo c).lottery = s.lottery := rfl
@[simp] theorem State.clockTo_runs (s : State) (c : Nat) : (s.clockTo c).runs = s.runs := rfl
@[simp] theorem State.clockTo_units (s : State) (c : Nat) : (s.clockTo c).units = s.units := rfl
@[simp] theorem State.clockTo_placeDue (s : State) (c : Nat) : (s.clockTo c).placeDue = s.placeDue := rfl
@[simp] theorem State.clockTo_placeSince (s : State) (c : Nat) : (s.clockTo c).placeSince = s.placeSince := rfl
@[simp] theorem State.clockTo_placeLast (s : State) (c : Nat) : (s.clockTo c).placeLast = s.placeLast := rfl
@[simp] theorem State.clockTo_cores (s : State) (c : Nat) : (s.clockTo c).cores = s.cores := rfl
@[simp] theorem State.clockTo_hub (s : State) (c : Nat) : (s.clockTo c).hub = s.hub := rfl

@[simp] theorem State.bumpId_nextId (s : State) : s.bumpId.nextId = s.nextId + 1 := rfl
@[simp] theorem State.bumpNonce_nonce (s : State) : s.bumpNonce.nonce = s.nonce + 1 := rfl

end Sys2Proof.Machine
end

