-- ==== Sys2Proof/Laws/Registers.lean ====
section
/-!
SUPPORT. What retiring an instruction does to the registers: each thread's results are written, and nothing that
follows (leaving, traps, kills) touches a V, K, P or T register, but for rfe.
-/

namespace Sys2Proof.Machine

theorem map_replaceIf {α β : Type} (p : α → Bool) (f : α → α) (q : α → β) (h : ∀ a, q (f a) = q a) (l : List α) :
    (replaceIf p f l).map q = l.map q := by
  simp only [replaceIf, List.map_map]
  refine List.map_congr_left (fun a _ => ?_)
  show q (if p a then f a else a) = q a
  split <;> simp [h]

theorem map_modifyAt {α β : Type} (f : α → α) (q : α → β) (h : ∀ a, q (f a) = q a) : ∀ (l : List α) (n : Nat),
    (modifyAt f n l).map q = l.map q := by
  intro l
  induction l with
  | nil => intro n; cases n <;> rfl
  | cons a l ih =>
    intro n
    cases n with
    | zero => simp [modifyAt, h]
    | succ n => simp [modifyAt, ih]

theorem foldl_keeps {α β γ : Type} (q : α → γ) (f : α → β → α) (h : ∀ a b, q (f a b) = q a) : ∀ (l : List β) (a : α),
    q (l.foldl f a) = q a := by
  intro l
  induction l with
  | nil => intro a; rfl
  | cons b l ih => intro a; rw [List.foldl_cons, ih, h]

/-! ### Operations that keep the registers -/

theorem Group.kept_modThread (g : Group) (i : Nat) (f : Thread → Thread) (h : ∀ th, (f th).kept = th.kept) :
    (g.modThread i f).kept = g.kept := by
  simp only [Group.kept, Group.modThread, map_modifyAt f Thread.kept h]
theorem Group.kept_mapThreads (g : Group) (f : Thread → Thread) (h : ∀ th, (f th).kept = th.kept) :
    (g.mapThreads f).kept = g.kept := by
  have hc : Thread.kept ∘ f = Thread.kept := funext h
  simp only [Group.kept, Group.mapThreads, List.map_map, hc]
theorem Team.kept_modGroup (t : Team) (gix : Nat) (f : Group → Group) (h : ∀ g, (f g).kept = g.kept) :
    (t.modGroup gix f).kept = t.kept := by
  simp only [Team.kept, Team.modGroup, map_replaceIf _ f Group.kept h]
theorem Team.kept_modThread (t : Team) (gix i : Nat) (f : Thread → Thread) (h : ∀ th, (f th).kept = th.kept) :
    (t.modThread gix i f).kept = t.kept :=
  Team.kept_modGroup t gix _ (fun g => Group.kept_modThread g i f h)
theorem Team.kept_mapThreads (t : Team) (f : Thread → Thread) (h : ∀ th, (f th).kept = th.kept) :
    (t.mapThreads f).kept = t.kept := by
  simp only [Team.kept, Team.mapThreads, List.map_map]
  congr 1
  exact List.map_congr_left (fun g _ => Group.kept_mapThreads g f h)
theorem State.kept_modTeam (s : State) (id : Nat) (f : Team → Team) (h : ∀ t, (f t).kept = t.kept) :
    (s.modTeam id f).kept = s.kept := by
  simp only [State.kept, State.modTeam, map_replaceIf _ f Team.kept h]
theorem State.kept_modGroup (s : State) (id gix : Nat) (f : Group → Group) (h : ∀ g, (f g).kept = g.kept) :
    (s.modGroup id gix f).kept = s.kept := State.kept_modTeam s id _ (fun t => Team.kept_modGroup t gix f h)
theorem State.kept_modThread (s : State) (id gix i : Nat) (f : Thread → Thread) (h : ∀ th, (f th).kept = th.kept) :
    (s.modThread id gix i f).kept = s.kept := State.kept_modTeam s id _ (fun t => Team.kept_modThread t gix i f h)

theorem PendOp.kept_dropT (i : Nat) (o : PendOp) : (PendOp.dropT i o).kept = o.kept := by
  have hw : (o.writes.filter (fun w => !(w.1 == i && isTCode w.2.1))).filter (fun w => !(isTCode w.2.1)) =
      o.writes.filter (fun w => !(isTCode w.2.1)) := by
    rw [List.filter_filter]
    refine List.filter_congr (fun w _ => ?_)
    cases isTCode w.2.1 <;> simp
  unfold PendOp.kept PendOp.dropT
  simp only [hw]
  cases o.acc <;> simp only [AccAct.kept]
  · split <;> simp_all
  · split <;> simp_all
theorem Group.kept_endBlock (g : Group) (i : Nat) : (g.endBlock i).kept = g.kept := by
  have h := Group.kept_modThread g i (fun x => { x with tdef := 0 }) (fun _ => rfl)
  have ho : (g.ops.map (PendOp.dropT i)).map PendOp.kept = g.ops.map PendOp.kept := by
    rw [List.map_map]; exact List.map_congr_left (fun o _ => PendOp.kept_dropT i o)
  unfold Group.endBlock
  unfold Group.kept at h ⊢
  simp only [ho]
  exact h
theorem Team.kept_join (t : Team) (gix i : Nat) : (t.join gix i).kept = t.kept := by
  unfold Team.join
  split
  · rfl
  · split
    · exact Team.kept_modThread t gix i _ (fun _ => rfl)
    · split
      · dsimp only
        refine (Team.kept_modThread _ gix i _ ?_).trans ?_
        · intro _; rfl
        refine (Team.kept_mapThreads _ _ (fun th => ?_)).trans rfl
        split <;> rfl
      · exact Team.kept_modThread t gix i _ (fun _ => rfl)
theorem Team.kept_meetCheck (t : Team) (gix : Nat) (v : DWord) : (t.meetCheck gix v).kept = t.kept := by
  unfold Team.meetCheck
  split
  · rfl
  · dsimp only
    split
    · refine Team.kept_modGroup t gix _ (fun g => Group.kept_mapThreads g _ (fun th => ?_))
      split <;> rfl
    · rfl
theorem Team.kept_meetAt (t : Team) (v : DWord) : (t.meetAt v).kept = t.kept :=
  foldl_keeps Team.kept (fun (a : Team) (g : Group) => a.meetCheck g.gix v) (fun a g => Team.kept_meetCheck a g.gix v) t.groups t
theorem Team.kept_arrive (t : Team) (gix i : Nat) : (t.arrive gix i).kept = t.kept := by
  unfold Team.arrive
  split
  · rfl
  · exact (Team.kept_meetAt _ _).trans (Team.kept_join t gix i)
theorem Team.kept_tryEnter (t : Team) (gix i : Nat) : (t.tryEnter gix i).kept = t.kept := by
  unfold Team.tryEnter
  split
  · split
    · exact Team.kept_arrive t gix i
    · rfl
  · rfl
theorem Team.kept_readmit (t : Team) : t.readmit.kept = t.kept :=
  foldl_keeps Team.kept (fun (a : Team) (p : Nat × Nat × Thread) => a.tryEnter p.1 p.2.1) (fun a p => Team.kept_tryEnter a p.1 p.2.1) t.all t
theorem Team.kept_cleanup (t : Team) : t.cleanup.kept = t.kept := by
  unfold Team.cleanup
  dsimp only
  split
  · rfl
  · exact (Team.kept_readmit _).trans rfl
theorem Team.kept_enterMeet (t : Team) (gix i : Nat) : (t.enterMeet gix i).kept = t.kept :=
  (Team.kept_arrive _ gix i).trans (Team.kept_modGroup t gix _ (fun g => Group.kept_endBlock g i))
theorem Team.kept_transfer (t : Team) (gix i : Nat) (pc : DWord) : (t.transfer gix i pc).kept = t.kept :=
  (Team.kept_enterMeet _ _ _).trans (Team.kept_modThread t gix i _ (fun _ => rfl))
theorem State.kept_fallThrough (s : State) (id gix i : Nat) : (s.fallThrough id gix i).kept = s.kept := by
  unfold State.fallThrough
  split
  · rfl
  · split
    · rfl
    · refine State.kept_modTeam s id _ (fun t => ?_)
      dsimp only
      split
      · exact (Team.kept_enterMeet _ _ _).trans (Team.kept_modThread t gix i _ (fun _ => rfl))
      · exact Team.kept_modThread t gix i _ (fun _ => rfl)
theorem State.kept_cvCheck (s : State) (id n : Nat) : (s.cvCheck id n).kept = s.kept := by
  unfold State.cvCheck
  split
  · rfl
  · split
    · rfl
    · split
      · rfl
      · split
        · dsimp only
          split
          · exact State.kept_modTeam s id _ (fun _ => rfl)
          · exact State.kept_modTeam s id _ (fun _ => rfl)
        · exact State.kept_modTeam s id _ (fun _ => rfl)
theorem State.kept_cvCheckAll (s : State) (id : Nat) : (s.cvCheckAll id).kept = s.kept :=
  foldl_keeps State.kept _ (fun a n => State.kept_cvCheck a id n) _ s
theorem State.kept_exitThread (s : State) (id gix i : Nat) : (s.exitThread id gix i).kept = s.kept := by
  unfold State.exitThread
  split
  · rfl
  · refine (State.kept_cvCheckAll _ id).trans (State.kept_modTeam s id _ (fun t => ?_))
    exact (Team.kept_meetCheck _ _ _).trans ((Team.kept_cleanup _).trans (Team.kept_modThread t gix i _ (fun _ => rfl)))
theorem Team.kept_asKilled (c : Cause) (t : Team) : (Team.asKilled c t).kept = t.kept := by
  simp only [Team.asKilled, Team.mapThreads, Team.kept, List.map_map]
  congr 1
  exact List.map_congr_left (fun g _ => Group.kept_mapThreads g Thread.asExited (fun _ => rfl))
theorem State.kept_recordCause (s : State) (t : Team) (c : Cause) : (s.recordCause t c).kept = s.kept := by
  unfold State.recordCause
  split <;> rfl
theorem State.kept_killTeam (s : State) (id : Nat) (c : Cause) : (s.killTeam id c).kept = s.kept := by
  unfold State.killTeam
  split
  · rfl
  · split
    · rfl
    · exact (State.kept_recordCause _ _ c).trans (State.kept_modTeam s id _ (Team.kept_asKilled c))
theorem State.kept_atCycle (s : State) (c : Nat) (f : State → State) (h : ∀ a : State, (f a).kept = a.kept) : (s.atCycle c f).kept = s.kept :=
  h { s with clock := c }
theorem Thread.kept_atWait (th : Thread) : th.atWait.kept = th.kept := by
  unfold Thread.atWait
  split <;> rfl
theorem State.kept_trapEnter (s : State) (id gix i : Nat) (f : PendFault) (pc : DWord) (l : List LoopEntry) :
    (s.trapEnter id gix i f pc l).kept = s.kept := by
  unfold State.trapEnter
  split
  · rfl
  split
  · rfl
  split
  · rfl
  split
  · exact State.kept_killTeam s id _
  split
  · exact State.kept_killTeam s id _
  split
  · exact State.kept_killTeam s id _
  dsimp only
  have h1 : ∀ (F : Team → Team), (∀ t, (F t).kept = t.kept) → (s.modTeam id F).kept = s.kept := State.kept_modTeam s id
  split
  · refine (State.kept_modTeam _ id _ (fun t => (Team.kept_cleanup _).trans (Team.kept_enterMeet t gix i))).trans (h1 _ (fun t => ?_))
    refine (Team.kept_modThread _ gix i _ ?_).trans (Team.kept_modGroup t gix _ ?_) <;> (intro; rfl)
  · refine (State.kept_killTeam _ id _).trans (h1 _ (fun t => ?_))
    refine (Team.kept_modThread _ gix i _ ?_).trans (Team.kept_modGroup t gix _ ?_) <;> (intro; rfl)
theorem State.kept_trapAt (s : State) (id gix i : Nat) (f : PendFault) : (s.trapAt id gix i f).kept = s.kept := by
  unfold State.trapAt
  split
  · rfl
  · exact State.kept_trapEnter s id gix i f _ _
theorem State.kept_afterWait (s : State) (id gix i : Nat) (w : Option (WaitOn × BitVec 11)) :
    (s.afterWait id gix i w).kept = s.kept := by
  unfold State.afterWait
  split
  · dsimp only
    split
    · exact State.kept_modTeam s id _ (fun t => (Team.kept_enterMeet _ _ _).trans (Team.kept_modThread t gix i _ (fun _ => rfl)))
    · split
      · exact State.kept_modTeam s id _ (fun t => (Team.kept_enterMeet _ _ _).trans (Team.kept_modThread t gix i _ (fun _ => rfl)))
      · exact State.kept_trapAt s id gix i _
  · rfl
theorem State.kept_doYield (s : State) (id gix i : Nat) : (s.doYield id gix i).kept = s.kept := by
  unfold State.doYield
  split
  · dsimp only
    split
    · exact State.kept_modTeam s id _ (fun t => (Team.kept_enterMeet _ _ _).trans (Team.kept_modThread t gix i _ (fun _ => rfl)))
    · exact State.kept_trapAt s id gix i _
  · rfl
/-- Leaving an instruction, except by rfe, keeps every register. -/
theorem State.kept_leave (s : State) (id gix i : Nat) (l : Leave) (h : ∀ v, l ≠ .rfe v) : (s.leave id gix i l).kept = s.kept := by
  unfold State.leave
  split
  · rfl
  split
  · rfl
  unfold State.leaveLive
  cases l with
  | fall => exact State.kept_fallThrough s id gix i
  | goto pc => exact State.kept_modTeam s id _ (fun t => Team.kept_transfer t gix i pc)
  | trap f => exact State.kept_trapAt s id gix i f
  | trapNext f =>
    dsimp only
    split
    · exact State.kept_trapEnter s id gix i f _ _
    · rfl
  | exit => exact State.kept_exitThread s id gix i
  | rfe v => exact absurd rfl (h v)
  | stay => rfl
  | park w o => exact State.kept_afterWait s id gix i _
  | waited => exact State.kept_afterWait s id gix i _
  | yield => exact State.kept_doYield s id gix i
  | met old => exact (State.kept_fallThrough _ id gix i).trans (State.kept_modTeam s id _ (fun t => Team.kept_meetCheck t gix old))
theorem State.kept_wakeGone : ∀ (n : Nat) (s : State), (State.wakeGone n s).kept = s.kept
  | 0, _ => rfl
  | n + 1, s => by
    unfold State.wakeGone
    dsimp only
    split
    · rfl
    · refine (State.kept_wakeGone n _).trans (foldl_keeps State.kept _ (fun a q => ?_) _ s)
      split
      · exact (State.kept_trapAt _ _ _ _ _).trans (State.kept_modThread a _ _ _ _ Thread.kept_atWait)
      · rfl
theorem State.kept_settle (s : State) : s.settle.kept = s.kept := State.kept_wakeGone _ s

/-! ### Retiring -/

/-- Write the results of a list of threads into their group. -/
def State.applyAll (s : State) (key : Nat) (e : Env) (rs : List (Nat × TRes)) : State :=
  rs.foldl (fun a r => a.modGroup e.team.id e.g.gix (fun g => g.applyRes key (e.helper r.1) r.1 r.2)) s

/-- Retiring an instruction none of whose threads executes rfe leaves the registers as its results make them. -/
theorem kept_retire (e : Env) (i : Instr) (h : Hdr) (rs : List (Nat × TRes)) (s : State) (hr : ∀ r ∈ rs, ∀ v, r.2.leave ≠ .rfe v) :
    (retire e i h rs s).kept = (s.applyAll s.nonce e rs).kept := by
  have fold : ∀ (l : List (Nat × TRes)) (a : State), (∀ r ∈ l, ∀ v, r.2.leave ≠ .rfe v) →
      (l.foldl (fun a r => a.atCycle (e.cycleOf i r.1) (fun a => a.leave e.team.id e.g.gix r.1 r.2.leave)) a).kept = a.kept := by
    intro l
    induction l with
    | nil => intro a _; rfl
    | cons r l ih =>
      intro a hl
      rw [List.foldl_cons, ih _ (fun r hr => hl r (List.mem_cons_of_mem _ hr)),
        State.kept_atCycle _ _ _ (fun a => State.kept_leave a _ _ _ _ (hl r List.mem_cons_self))]
  have app : ∀ (l : List (Nat × TRes)) (a : State) (c : Nat),
      l.foldl (fun a r => a.modGroup e.team.id e.g.gix (fun g => g.applyRes s.nonce (e.helper r.1) r.1 r.2)) { a with clock := c } =
      { a.applyAll s.nonce e l with clock := c } := by
    intro l
    induction l with
    | nil => intro a c; rfl
    | cons r l ih =>
      intro a c
      exact ih (a.modGroup e.team.id e.g.gix (fun g => g.applyRes s.nonce (e.helper r.1) r.1 r.2)) c
  unfold retire
  dsimp only
  show State.kept (State.settle _) = _
  rw [State.kept_settle]
  have last : State.kept (rs.foldl (fun a r => a.atCycle (e.cycleOf i r.1) (fun a => a.leave e.team.id e.g.gix r.1 r.2.leave))
      (rs.foldl (fun a r => a.modGroup e.team.id e.g.gix (fun g => g.applyRes s.nonce (e.helper r.1) r.1 r.2)) (s.clockTo e.fp))) =
      (s.applyAll s.nonce e rs).kept := by
    rw [fold rs _ hr]
    have := congrArg State.kept (app rs s (s.clockTo e.fp).clock)
    exact this
  split
  · refine (State.kept_modGroup _ _ _ _ ?_).trans last
    intro; rfl
  · refine (State.kept_modTeam _ _ _ ?_).trans ((State.kept_modGroup _ _ _ _ ?_).trans last) <;> (intro; rfl)

/-! ### Reading registers -/

theorem find?_map_key {α : Type} (k : α → Nat) (f : α → α) (hf : ∀ a, k (f a) = k a) (id : Nat) (l : List α) :
    (replaceIf (fun a => k a == id) f l).find? (fun a => k a == id) = (l.find? (fun a => k a == id)).map f := by
  induction l with
  | nil => rfl
  | cons a l ih =>
    simp only [replaceIf, List.map_cons, List.find?_cons] at ih ⊢
    by_cases h : (k a == id) = true
    · simp [h, hf]
    · simp only [Bool.not_eq_true] at h
      simp only [h, Bool.false_eq_true, if_false]
      simpa using ih
theorem find?_map_other {α : Type} (k : α → Nat) (f : α → α) (hf : ∀ a, k (f a) = k a) {id id' : Nat} (hn : id' ≠ id) (l : List α) :
    (replaceIf (fun a => k a == id) f l).find? (fun a => k a == id') = l.find? (fun a => k a == id') := by
  induction l with
  | nil => rfl
  | cons a l ih =>
    simp only [replaceIf, List.map_cons, List.find?_cons] at ih ⊢
    by_cases h : (k a == id) = true
    · have h' : (k a == id') = false := by simp only [beq_iff_eq] at h; simp [h, hn.symm]
      simp only [h, if_true, hf, h']; exact ih
    · simp only [Bool.not_eq_true] at h
      simp only [h, Bool.false_eq_true, if_false]
      split
      · rfl
      · exact ih

/-- A changed team is found under its id. -/
theorem State.team?_modTeam (s : State) (id : Nat) (f : Team → Team) (hf : ∀ t, (f t).id = t.id) :
    (s.modTeam id f).team? id = (s.team? id).map f := find?_map_key Team.id f hf id s.teams
/-- Another team is unchanged. -/
theorem State.team?_modTeam_other (s : State) {id id' : Nat} (f : Team → Team) (hf : ∀ t, (f t).id = t.id) (h : id' ≠ id) :
    (s.modTeam id f).team? id' = s.team? id' := find?_map_other Team.id f hf h s.teams
/-- A changed group is found under its index. -/
theorem Team.group?_modGroup (t : Team) (gix : Nat) (f : Group → Group) (hf : ∀ g, (f g).gix = g.gix) :
    (t.modGroup gix f).group? gix = (t.group? gix).map f := find?_map_key Group.gix f hf gix t.groups
/-- Another group is unchanged. -/
theorem Team.group?_modGroup_other (t : Team) {gix gix' : Nat} (f : Group → Group) (hf : ∀ g, (f g).gix = g.gix) (h : gix' ≠ gix) :
    (t.modGroup gix f).group? gix' = t.group? gix' := find?_map_other Group.gix f hf h t.groups
/-- A changed group of a team of the device. -/
theorem State.group?_modGroup (s : State) (id gix : Nat) (f : Group → Group) (hf : ∀ g, (f g).gix = g.gix) :
    (s.modGroup id gix f).group? id gix = (s.group? id gix).map f := by
  unfold State.group? State.modGroup
  rw [State.team?_modTeam s id (fun t => t.modGroup gix f) (fun _ => rfl)]
  cases s.team? id with
  | none => rfl
  | some t => exact Team.group?_modGroup t gix f hf
/-- Every other group of the device. -/
theorem State.group?_modGroup_other (s : State) {id gix id' gix' : Nat} (f : Group → Group) (hf : ∀ g, (f g).gix = g.gix)
    (h : ¬(id' = id ∧ gix' = gix)) : (s.modGroup id gix f).group? id' gix' = s.group? id' gix' := by
  unfold State.group? State.modGroup
  by_cases hid : id' = id
  · subst hid
    rw [State.team?_modTeam s id' (fun t => t.modGroup gix f) (fun _ => rfl)]
    cases s.team? id' with
    | none => rfl
    | some t => exact Team.group?_modGroup_other t f hf (fun hg => h ⟨rfl, hg⟩)
  · rw [State.team?_modTeam_other s (fun t => t.modGroup gix f) (fun _ => rfl) hid]

theorem getElem?_modifyAt_self {α : Type} (f : α → α) : ∀ (l : List α) (n : Nat), (modifyAt f n l)[n]? = l[n]?.map f := by
  intro l
  induction l with
  | nil => intro n; cases n <;> rfl
  | cons a l ih => intro n; cases n with | zero => rfl | succ n => simpa [modifyAt] using ih n
theorem getElem?_modifyAt_other {α : Type} (f : α → α) : ∀ (l : List α) (n k : Nat), k ≠ n → (modifyAt f n l)[k]? = l[k]? := by
  intro l
  induction l with
  | nil => intro n k _; cases n <;> rfl
  | cons a l ih =>
    intro n k h
    cases n with
    | zero => cases k with | zero => exact absurd rfl h | succ k => rfl
    | succ n => cases k with | zero => rfl | succ k => simpa [modifyAt] using ih n k (by omega)

/-- What a register code reads in a group (R28, R47). -/
def Group.regOf (g : Group) (n code : Nat) : Option Word :=
  if 1536 ≤ code ∧ code < 1792 then some (g.k.read (code - 1536))
  else
    match g.threads[n]? with
    | none => none
    | some th => some (if code < 1536 then th.v.read code else th.t.read (code - 1792))

theorem State.regOf_eq (s : State) (id gix n code : Nat) : s.regOf id gix n code = (s.group? id gix).bind (fun g => g.regOf n code) := by
  unfold State.regOf
  cases s.group? id gix <;> rfl

theorem teams_find_kept (id : Nat) : ∀ (l l' : List Team), l.map Team.kept = l'.map Team.kept →
    ((l.find? (fun t => t.id == id)).map Team.kept) = ((l'.find? (fun t => t.id == id)).map Team.kept) := by
  intro l
  induction l with
  | nil => intro l' h; cases l' with | nil => rfl | cons _ _ => simp at h
  | cons t l ih =>
    intro l' h
    cases l' with
    | nil => simp at h
    | cons t' l' =>
      simp only [List.map_cons, List.cons.injEq] at h
      have hid : t.id = t'.id := (congrArg Team.id h.1 : (Team.kept t).id = (Team.kept t').id)
      simp only [List.find?_cons, hid]
      split
      · simp [h.1]
      · exact ih l' h.2
/-- A team is found as before, up to what leaving changes. -/
theorem State.team?_kept {s s' : State} (h : s.kept = s'.kept) (id : Nat) :
    (s.team? id).map Team.kept = (s'.team? id).map Team.kept :=
  teams_find_kept id s.teams s'.teams (congrArg State.teams h : s.kept.teams = s'.kept.teams)
/-- Group found among the registers. -/
theorem State.group?_kept {s s' : State} (h : s.kept = s'.kept) (id gix : Nat) :
    (s.group? id gix).map Group.kept = (s'.group? id gix).map Group.kept := by
  have grp : ∀ (l l' : List Group), l.map Group.kept = l'.map Group.kept →
      ((l.find? (fun g => g.gix == gix)).map Group.kept) = ((l'.find? (fun g => g.gix == gix)).map Group.kept) := by
    intro l
    induction l with
    | nil => intro l' h; cases l' with | nil => rfl | cons _ _ => simp at h
    | cons t l ih =>
      intro l' h
      cases l' with
      | nil => simp at h
      | cons t' l' =>
        simp only [List.map_cons, List.cons.injEq] at h
        have hid : t.gix = t'.gix := (congrArg Group.gix h.1 : (Group.kept t).gix = (Group.kept t').gix)
        simp only [List.find?_cons, hid]
        split
        · simp [h.1]
        · exact ih l' h.2
  have ht := teams_find_kept id s.teams s'.teams (congrArg State.teams h : s.kept.teams = s'.kept.teams)
  unfold State.group? State.team?
  cases h1 : s.teams.find? (fun t => t.id == id) with
  | none =>
    cases h2 : s'.teams.find? (fun t => t.id == id) with
    | none => rfl
    | some t' => simp [h1, h2] at ht
  | some t =>
    cases h2 : s'.teams.find? (fun t => t.id == id) with
    | none => simp [h1, h2] at ht
    | some t' =>
      simp only [h1, h2, Option.map_some, Option.some.injEq] at ht
      exact grp t.groups t'.groups (congrArg Team.groups ht : (Team.kept t).groups = (Team.kept t').groups)

theorem Group.regOf_of_kept {g g' : Group} (h : g.kept = g'.kept) (n code : Nat) : g.regOf n code = g'.regOf n code := by
  have ht := congrArg (fun g => g.threads[n]?) h
  have hk : g.k = g'.k := (congrArg Group.k h : g.kept.k = g'.kept.k)
  simp only [Group.kept, List.getElem?_map] at ht
  unfold Group.regOf
  rw [hk]
  split
  · rfl
  · cases h1 : g.threads[n]? with
    | none => cases h2 : g'.threads[n]? with | none => rfl | some _ => simp [h1, h2] at ht
    | some a =>
      cases h2 : g'.threads[n]? with
      | none => simp [h1, h2] at ht
      | some b =>
        simp only [h1, h2, Option.map_some, Option.some.injEq] at ht
        have hv : a.v = b.v := (congrArg Thread.v ht : a.kept.v = b.kept.v)
        have htt : a.t = b.t := (congrArg Thread.t ht : a.kept.t = b.kept.t)
        simp only [hv, htt]

/-- Equal registers read the same. -/
theorem State.regOf_of_kept {s s' : State} (h : s.kept = s'.kept) (id gix n code : Nat) :
    s.regOf id gix n code = s'.regOf id gix n code := by
  rw [State.regOf_eq, State.regOf_eq]
  have := State.group?_kept h id gix
  cases h1 : s.group? id gix with
  | none => cases h2 : s'.group? id gix with | none => rfl | some _ => simp [h1, h2] at this
  | some g =>
    cases h2 : s'.group? id gix with
    | none => simp [h1, h2] at this
    | some g' =>
      simp only [h1, h2, Option.map_some, Option.some.injEq] at this
      exact Group.regOf_of_kept this n code

end Sys2Proof.Machine
end

