-- ==== Sys2Proof/Laws/Perform.lean ====
section
/-!
SUPPORT. What performing an instruction does, said once for `performWith`, `perform` and `performU`: it answers a next
state, and each live thread's results stand in its registers there.
-/

namespace Sys2Proof.Machine

/-! ### The surroundings of an instruction -/

/-- What the surroundings of the instruction in execution say of the state. -/
theorem env?_spec {s : State} {e : Env} (h : env? s = some e) :
    e.s = s ∧ s.team? e.team.id = some e.team ∧ s.group? e.team.id e.g.gix = some e.g ∧
      (s.cur = .group e.team.id e.g.gix ∨ ∃ n, s.cur = .part e.team.id e.g.gix n) ∧
      (∃ l, streamedOf e.g = some (e.pc, l) ∧ e.act.Sublist l) ∧
      e.fp = (if s.clock < e.g.nextIssue then e.g.nextIssue else s.clock) := by
  have base : ∀ id gix e, envOf s id gix = some e → e.s = s ∧ s.team? e.team.id = some e.team ∧
      s.group? e.team.id e.g.gix = some e.g ∧ e.team.id = id ∧ e.g.gix = gix ∧ streamedOf e.g = some (e.pc, e.act) ∧
      e.fp = (if s.clock < e.g.nextIssue then e.g.nextIssue else s.clock) := by
    intro id gix e h
    unfold envOf at h
    split at h
    · cases h
    rename_i t ht
    split at h
    · cases h
    rename_i g hg
    split at h
    · cases h
    rename_i p hp
    cases h
    have hid : t.id = id := by simpa using List.find?_some ht
    have hgix : g.gix = gix := by simpa using List.find?_some hg
    subst hid hgix
    refine ⟨rfl, ht, ?_, rfl, rfl, hp, rfl⟩
    show (match s.team? t.id with | some t => t.group? g.gix | none => none) = some g
    rw [ht]; exact hg
  unfold env? at h
  split at h
  · rename_i id gix hcur
    obtain ⟨h1, h2, h3, rfl, rfl, h4, h5⟩ := base _ _ _ h
    exact ⟨h1, h2, h3, .inl hcur, ⟨_, h4, List.Sublist.refl _⟩, h5⟩
  · rename_i id gix n hcur
    obtain ⟨e', h', rfl⟩ := Option.map_eq_some_iff.1 h
    obtain ⟨h1, h2, h3, rfl, rfl, h4, h5⟩ := base _ _ _ h'
    exact ⟨h1, h2, h3, .inr ⟨n, hcur⟩, ⟨_, h4, List.take_sublist _ _⟩, h5⟩
  · cases h

/-- The streamed threads are threads of the group, each once. -/
theorem streamedOf_spec {g : Group} {pc : DWord} {act : List Nat} (h : streamedOf g = some (pc, act)) :
    act.Nodup ∧ ∀ n ∈ act, ∃ th, g.threads[n]? = some th ∧ th.pc = pc ∧ th.current = true := by
  unfold streamedOf at h
  dsimp only at h
  split at h
  · cases h
  · rename_i c l hc
    simp only [Option.some.injEq, Prod.mk.injEq] at h
    obtain ⟨rfl, rfl⟩ := h
    generalize hpc : (List.foldl (fun a (p : DWord × Nat) => if pcKey p.1 < pcKey a then p.1 else a) c.1 l) = pc
    rw [List.filter_map, List.map_map]
    constructor
    · have sub : (List.map (Prod.snd ∘ fun p : Thread × Nat => (p.1.pc, p.2))
          (List.filter ((fun p : DWord × Nat => p.1 == pc) ∘ fun p : Thread × Nat => (p.1.pc, p.2))
            (List.filter (fun p => p.1.current) g.threads.zipIdx))).Sublist (g.threads.zipIdx.map Prod.snd) :=
        List.Sublist.map Prod.snd (List.filter_sublist.trans List.filter_sublist)
      refine sub.nodup ?_
      rw [List.zipIdx_map_snd]
      exact List.nodup_range' 
    · intro n hn
      simp only [List.mem_map, List.mem_filter, Function.comp_apply, beq_iff_eq] at hn
      obtain ⟨⟨th, k⟩, ⟨⟨hm, hcur⟩, hp⟩, rfl⟩ := hn
      refine ⟨th, ?_, hp, hcur⟩
      have := List.mem_zipIdx_iff_getElem?.1 hm
      simpa using this

/-- Performing an instruction that is ready retires it. -/
theorem performWith_next {i : Instr} {h : Hdr} {s : State} {e : Env} (body : Env → List Nat → State → State × (Nat → TRes))
    (he : env? s = some e) (hr : e.ready i = true) :
    performWith i h s body =
      .next (retire e i h (e.results i h (body e (e.live i h) s).2) (body e (e.live i h) s).1) := by
  simp only [Env.ready, Bool.and_eq_true, Bool.not_eq_true', Option.isNone_iff_eq_none] at hr
  obtain ⟨⟨⟨⟨h1, h2⟩, -⟩, h3⟩, h4⟩ := hr
  simp only [performWith, performStall, performChecked, he, h1, h2, h3, h4, Bool.or_false, Bool.false_eq_true, if_false]

/-- The same for an instruction that acts on registers alone. -/
theorem perform_next {i : Instr} {h : Hdr} {s : State} {e : Env} (f : Env → Nat → TRes) (he : env? s = some e)
    (hr : e.ready i = true) : perform i h s f = .next (retire e i h (e.results i h (f e)) s) :=
  performWith_next (fun e _ s => (s, f e)) he hr

/-! ### Writing one thread's results -/

/-- A code of the K class. -/
def isKCode (c : Nat) : Prop := 1536 ≤ c ∧ c < 1792

theorem Group.regOf_modThread (g : Group) (t n c : Nat) (f : Thread → Thread) (hf : ∀ th, (f th).v = th.v ∧ (f th).t = th.t) :
    (g.modThread t f).regOf n c = g.regOf n c := by
  unfold Group.regOf Group.modThread
  split
  · rfl
  · by_cases hn : n = t
    · subst hn
      simp only [getElem?_modifyAt_self]
      cases g.threads[n]? with
      | none => rfl
      | some th => simp [(hf th).1, (hf th).2]
    · simp only [getElem?_modifyAt_other f g.threads t n hn]

theorem Group.regOf_dropPending (key : Nat) (g : Group) (t c n c' : Nat) : (g.dropPending key t c).regOf n c' = g.regOf n c' := by
  unfold Group.dropPending
  split <;> rfl
theorem Group.threads_dropPending (key : Nat) (g : Group) (t c : Nat) : (g.dropPending key t c).threads = g.threads := by
  unfold Group.dropPending
  split <;> rfl
theorem Group.gix_dropPending (key : Nat) (g : Group) (t c : Nat) : (g.dropPending key t c).gix = g.gix := by
  unfold Group.dropPending
  split <;> rfl

theorem Group.regOf_writeCode_self (g : Group) (t c : Nat) (v : Word) (ht : isKCode c ∨ t < g.threads.length) :
    (g.writeCode t c v).regOf t c = some v := by
  unfold Group.writeCode Group.regOf
  by_cases hk : 1536 ≤ c ∧ c < 1792
  · simp only [hk, and_self, if_true, Group.writeK, RegMap.read_write_self]
  · simp only [hk, if_false, Group.modThread, getElem?_modifyAt_self]
    rcases ht with ht | ht
    · exact absurd ht hk
    · rw [List.getElem?_eq_getElem ht]
      simp only [Option.map_some, Thread.writeReg]
      by_cases h1 : c < 1536
      · simp only [h1, if_true, RegMap.read_write_self]
      · have h2 : 1792 ≤ c := by omega
        simp only [h1, h2, if_true, if_false, RegMap.read_write_self]
theorem Group.regOf_writeCode_of_ne (g : Group) (t c n c' : Nat) (v : Word) (h : c' ≠ c) :
    (g.writeCode t c v).regOf n c' = g.regOf n c' := by
  unfold Group.writeCode Group.regOf
  by_cases hk : 1536 ≤ c ∧ c < 1792
  · simp only [hk, and_self, if_true, Group.writeK]
    split
    · rw [RegMap.read_write_of_ne]; omega
    · rfl
  · simp only [hk, if_false, Group.modThread]
    split
    · rfl
    · by_cases hn : n = t
      · subst hn
        simp only [getElem?_modifyAt_self]
        cases g.threads[n]? with
        | none => rfl
        | some th =>
          simp only [Option.map_some, Thread.writeReg]
          by_cases h1 : c < 1536
          · simp only [h1, if_true]
            split
            · rw [RegMap.read_write_of_ne _ _ h]
            · rfl
          · have h2 : 1792 ≤ c := by omega
            simp only [h1, h2, if_true, if_false]
            split
            · rfl
            · rw [RegMap.read_write_of_ne]; omega
      · simp only [getElem?_modifyAt_other _ g.threads t n hn]
theorem Group.regOf_writeCode_thread (g : Group) (t c n c' : Nat) (v : Word) (hk : ¬isKCode c) (h : n ≠ t) :
    (g.writeCode t c v).regOf n c' = g.regOf n c' := by
  have e : g.writeCode t c v = g.modThread t (fun th => th.writeReg c v) := if_neg hk
  rw [e]
  unfold Group.regOf
  simp only [Group.modThread, getElem?_modifyAt_other _ g.threads t n h]
theorem length_modifyAt {α : Type} (f : α → α) : ∀ (l : List α) (n : Nat), (modifyAt f n l).length = l.length := by
  intro l
  induction l with
  | nil => intro n; cases n <;> rfl
  | cons a l ih => intro n; cases n with | zero => rfl | succ n => simp [modifyAt, ih]
theorem Group.length_writeCode (g : Group) (t c : Nat) (v : Word) : (g.writeCode t c v).threads.length = g.threads.length := by
  unfold Group.writeCode
  split
  · rfl
  · exact length_modifyAt _ _ _
theorem Group.gix_writeCode (g : Group) (t c : Nat) (v : Word) : (g.writeCode t c v).gix = g.gix := by
  unfold Group.writeCode
  split <;> rfl

/-- The register writes of one thread, one after another. -/
def Group.writeAll (key : Nat) (t : Nat) (ws : List (Nat × Word)) (g : Group) : Group :=
  ws.foldl (fun g w => (g.dropPending key t w.1).writeCode t w.1 w.2) g
theorem Group.writeAll_frame (key t : Nat) : ∀ (ws : List (Nat × Word)) (g : Group),
    (g.writeAll key t ws).threads.length = g.threads.length ∧ (g.writeAll key t ws).gix = g.gix ∧
      (∀ n c, c ∉ ws.map Prod.fst → (g.writeAll key t ws).regOf n c = g.regOf n c) ∧
      ((∀ w ∈ ws, ¬isKCode w.1) → ∀ n c, n ≠ t → (g.writeAll key t ws).regOf n c = g.regOf n c) := by
  intro ws
  induction ws with
  | nil => intro g; exact ⟨rfl, rfl, fun _ _ _ => rfl, fun _ _ _ _ => rfl⟩
  | cons w ws ih =>
    intro g
    obtain ⟨h1, h2, h3, h4⟩ := ih ((g.dropPending key t w.1).writeCode t w.1 w.2)
    have step : g.writeAll key t (w :: ws) = ((g.dropPending key t w.1).writeCode t w.1 w.2).writeAll key t ws := rfl
    rw [step]
    refine ⟨?_, ?_, ?_, ?_⟩
    · rw [h1, Group.length_writeCode, Group.threads_dropPending]
    · rw [h2, Group.gix_writeCode, Group.gix_dropPending]
    · intro n c hc
      simp only [List.map_cons, List.mem_cons, not_or] at hc
      rw [h3 n c hc.2, Group.regOf_writeCode_of_ne _ _ _ _ _ _ hc.1, Group.regOf_dropPending]
    · intro hw n c hn
      rw [h4 (fun w hw' => hw w (List.mem_cons_of_mem _ hw')) n c hn,
        Group.regOf_writeCode_thread _ _ _ _ _ _ (hw w List.mem_cons_self) hn, Group.regOf_dropPending]
theorem Group.regOf_writeAll (key t : Nat) : ∀ (ws : List (Nat × Word)) (g : Group), (ws.map Prod.fst).Nodup →
    ∀ w ∈ ws, (isKCode w.1 ∨ t < g.threads.length) → (g.writeAll key t ws).regOf t w.1 = some w.2 := by
  intro ws
  induction ws with
  | nil => intro g _ w hw; cases hw
  | cons x ws ih =>
    intro g hn w hw ht
    simp only [List.map_cons, List.nodup_cons] at hn
    have step : g.writeAll key t (x :: ws) = ((g.dropPending key t x.1).writeCode t x.1 x.2).writeAll key t ws := rfl
    rw [step]
    rcases List.mem_cons.1 hw with rfl | hw
    · rw [(Group.writeAll_frame key t ws _).2.2.1 t w.1 hn.1, Group.regOf_writeCode_self]
      rw [Group.threads_dropPending]; exact ht
    · refine ih _ hn.2 w hw ?_
      rw [Group.length_writeCode, Group.threads_dropPending]; exact ht

/-- Predicates, loops, MR and flags leave the registers that codes name. -/
theorem Group.applyRes_regOf (key : Nat) (hp : Bool) (g : Group) (t : Nat) (r : TRes) (n c : Nat) :
    (g.applyRes key hp t r).regOf n c = (g.writeAll key t r.writes).regOf n c := by
  have fold : ∀ (l : List (Nat × Bool)) (g : Group),
      (l.foldl (fun g w => (g.dropPending key t (predCode w.1)).modThread t (fun th => th.writePred w.1 w.2)) g).regOf n c = g.regOf n c := by
    intro l
    induction l with
    | nil => intro g; rfl
    | cons w l ih =>
      intro g
      rw [List.foldl_cons, ih, Group.regOf_modThread, Group.regOf_dropPending]
      intro th
      unfold Thread.writePred
      split <;> exact ⟨rfl, rfl⟩
  unfold Group.applyRes Group.setFlags
  dsimp only
  split
  · refine (Group.regOf_modThread _ _ _ _ _ ?_).trans (fold r.preds _)
    exact fun _ => ⟨rfl, rfl⟩
  · refine (Group.regOf_modThread _ _ _ _ _ ?_).trans (fold r.preds _)
    exact fun _ => ⟨rfl, rfl⟩
theorem Group.applyRes_shape (key : Nat) (hp : Bool) (g : Group) (t : Nat) (r : TRes) :
    (g.applyRes key hp t r).threads.length = g.threads.length ∧ (g.applyRes key hp t r).gix = g.gix := by
  have fold : ∀ (l : List (Nat × Bool)) (g : Group),
      let k := l.foldl (fun g w => (g.dropPending key t (predCode w.1)).modThread t (fun th => th.writePred w.1 w.2)) g
      k.threads.length = g.threads.length ∧ k.gix = g.gix := by
    intro l
    induction l with
    | nil => intro g; exact ⟨rfl, rfl⟩
    | cons w l ih =>
      intro g
      obtain ⟨a, b⟩ := ih ((g.dropPending key t (predCode w.1)).modThread t (fun th => th.writePred w.1 w.2))
      rw [List.foldl_cons]
      refine ⟨a.trans ?_, b.trans ?_⟩
      · exact (length_modifyAt _ _ _).trans (by rw [Group.threads_dropPending])
      · exact Group.gix_dropPending _ _ _ _
  obtain ⟨a, b⟩ := fold r.preds (g.writeAll key t r.writes)
  obtain ⟨c, d, -, -⟩ := Group.writeAll_frame key t r.writes g
  unfold Group.applyRes Group.setFlags
  dsimp only
  split
  · exact ⟨(length_modifyAt _ _ _).trans (a.trans c), b.trans d⟩
  · exact ⟨(length_modifyAt _ _ _).trans (a.trans c), b.trans d⟩

/-! ### Writing every thread's results -/

/-- The group after the results of a list of threads. -/
def Group.applyAll (key : Nat) (e : Env) (rs : List (Nat × TRes)) (g : Group) : Group :=
  rs.foldl (fun g r => g.applyRes key (e.helper r.1) r.1 r.2) g
theorem State.group?_applyAll (key : Nat) (e : Env) : ∀ (rs : List (Nat × TRes)) (s : State),
    (s.applyAll key e rs).group? e.team.id e.g.gix = (s.group? e.team.id e.g.gix).map (Group.applyAll key e rs) := by
  intro rs
  induction rs with
  | nil => intro s; cases h : s.group? e.team.id e.g.gix <;> simp [State.applyAll, Group.applyAll, h]
  | cons r rs ih =>
    intro s
    have step : s.applyAll key e (r :: rs) =
        (s.modGroup e.team.id e.g.gix (fun g => g.applyRes key (e.helper r.1) r.1 r.2)).applyAll key e rs := rfl
    rw [step, ih, State.group?_modGroup _ _ _ _ (fun g => (Group.applyRes_shape key _ g r.1 r.2).2)]
    cases s.group? e.team.id e.g.gix <;> rfl
theorem State.group?_applyAll_other (key : Nat) (e : Env) {id gix : Nat} (h : ¬(id = e.team.id ∧ gix = e.g.gix)) :
    ∀ (rs : List (Nat × TRes)) (s : State), (s.applyAll key e rs).group? id gix = s.group? id gix := by
  intro rs
  induction rs with
  | nil => intro s; rfl
  | cons r rs ih =>
    intro s
    have step : s.applyAll key e (r :: rs) =
        (s.modGroup e.team.id e.g.gix (fun g => g.applyRes key (e.helper r.1) r.1 r.2)).applyAll key e rs := rfl
    rw [step, ih, State.group?_modGroup_other _ _ (fun g => (Group.applyRes_shape key _ g r.1 r.2).2) h]
theorem Group.applyAll_other (key : Nat) (e : Env) (n c : Nat) : ∀ (rs : List (Nat × TRes)) (g : Group),
    (∀ r ∈ rs, (∀ w ∈ r.2.writes, ¬isKCode w.1) ∧ (r.1 = n → c ∉ r.2.writes.map Prod.fst)) →
    (g.applyAll key e rs).regOf n c = g.regOf n c := by
  intro rs
  induction rs with
  | nil => intro g _; rfl
  | cons r rs ih =>
    intro g h
    have step : g.applyAll key e (r :: rs) = (g.applyRes key (e.helper r.1) r.1 r.2).applyAll key e rs := rfl
    rw [step, ih _ (fun r hr => h r (List.mem_cons_of_mem _ hr)), Group.applyRes_regOf]
    obtain ⟨hk, hc⟩ := h r List.mem_cons_self
    by_cases hn : n = r.1
    · exact (Group.writeAll_frame key r.1 r.2.writes g).2.2.1 n c (hc hn.symm)
    · exact (Group.writeAll_frame key r.1 r.2.writes g).2.2.2 hk n c hn
/-- Each thread's own results stand in its registers after all have been written. -/
theorem Group.applyAll_self (key : Nat) (e : Env) : ∀ (rs : List (Nat × TRes)) (g : Group), (rs.map Prod.fst).Nodup →
    (∀ r ∈ rs, ∀ w ∈ r.2.writes, ¬isKCode w.1) →
    ∀ r ∈ rs, r.1 < g.threads.length → (r.2.writes.map Prod.fst).Nodup → ∀ w ∈ r.2.writes,
      (g.applyAll key e rs).regOf r.1 w.1 = some w.2 := by
  intro rs
  induction rs with
  | nil => intro g _ _ r hr; cases hr
  | cons x rs ih =>
    intro g hn hk r hr hl hd w hw
    simp only [List.map_cons, List.nodup_cons] at hn
    have step : g.applyAll key e (x :: rs) = (g.applyRes key (e.helper x.1) x.1 x.2).applyAll key e rs := rfl
    rw [step]
    rcases List.mem_cons.1 hr with rfl | hr
    · rw [Group.applyAll_other]
      · rw [Group.applyRes_regOf]; exact Group.regOf_writeAll key r.1 r.2.writes g hd w hw (.inr hl)
      · intro y hy
        refine ⟨hk y (List.mem_cons_of_mem _ hy), fun heq => absurd ?_ hn.1⟩
        exact List.mem_map.2 ⟨y, hy, heq⟩
    · refine ih _ hn.2 (fun y hy => hk y (List.mem_cons_of_mem _ hy)) r hr ?_ hd w hw
      rw [(Group.applyRes_shape key _ g x.1 x.2).1]; exact hl

/-! ### The registers after an instruction -/

/-- The registers of the group after an instruction is retired, none of whose threads executes rfe. -/
theorem regOf_retire {s : State} {e : Env} (he : env? s = some e) (i : Instr) (h : Hdr) (rs : List (Nat × TRes)) (s1 : State)
    (hg : s1.group? e.team.id e.g.gix = s.group? e.team.id e.g.gix) (hr : ∀ r ∈ rs, ∀ v, r.2.leave ≠ .rfe v) (n c : Nat) :
    (retire e i h rs s1).regOf e.team.id e.g.gix n c = (e.g.applyAll s1.nonce e rs).regOf n c := by
  rw [State.regOf_of_kept (kept_retire e i h rs s1 hr), State.regOf_eq, State.group?_applyAll, hg, (env?_spec he).2.2.1]
  rfl

/-- The codes of a run of registers. -/
theorem run_codes_nodup (c : Nat) (ws : List Word) :
    ((ws.zipIdx.map (fun p => (c + p.2, p.1))).map Prod.fst).Nodup := by
  rw [List.map_map]
  have : (ws.zipIdx.map (Prod.fst ∘ fun p : Word × Nat => (c + p.2, p.1))) = (ws.zipIdx.map Prod.snd).map (fun k => c + k) := by
    rw [List.map_map]; rfl
  rw [this, List.zipIdx_map_snd]
  exact List.Nodup.map (fun a b h => by simpa using h) List.nodup_range'

/-- The results of a live thread are its own. -/
theorem results_mem {e : Env} {i : Instr} {h : Hdr} {f : Nat → TRes} {n : Nat} (hn : n ∈ e.live i h) : (n, f n) ∈ e.results i h f := by
  unfold Env.results
  refine List.mem_map.2 ⟨n, (List.mem_filter.1 hn).1, ?_⟩
  simp [hn]
theorem results_fst (e : Env) (i : Instr) (h : Hdr) (f : Nat → TRes) : (e.results i h f).map Prod.fst = e.act := by
  unfold Env.results
  rw [List.map_map]
  exact List.map_id'' (fun _ => rfl) _
/-- Every result is a live thread's own, or that of a thread that does not perform the instruction. -/
theorem results_cases {e : Env} {i : Instr} {h : Hdr} {f : Nat → TRes} {r : Nat × TRes} (hr : r ∈ e.results i h f) :
    (r.1 ∈ e.live i h ∧ r.2 = f r.1) ∨ ∃ b, r.2 = e.idleRes i h b r.1 := by
  unfold Env.results at hr
  obtain ⟨n, -, rfl⟩ := List.mem_map.1 hr
  by_cases hn : n ∈ e.live i h
  · exact .inl ⟨hn, by simp [hn]⟩
  · exact .inr ⟨_, by simp only [List.contains_iff_mem, hn, if_false]; rfl⟩
theorem idleRes_spec (e : Env) (i : Instr) (h : Hdr) (b : Bool) (n : Nat) :
    (e.idleRes i h b n).writes = [] ∧ ∀ v, (e.idleRes i h b n).leave ≠ .rfe v := by
  unfold Env.idleRes faultRes
  split
  · exact ⟨rfl, by simp⟩
  · split <;> exact ⟨rfl, by simp⟩

/-- `perform` delivers each live thread's results to a run of its own V or T registers. -/
theorem perform_delivers {i : Instr} {h : Hdr} {f : Env → Nat → TRes} {c : Nat} {val : Env → Nat → List Word}
    (hw : ∀ e n, (f e n).writes = (val e n).zipIdx.map (fun p => (c + p.2, p.1))) (hl : ∀ e n v, (f e n).leave ≠ .rfe v)
    {s : State} {e : Env} (hc : ∀ n, c + (val e n).length ≤ 1536 ∨ 1792 ≤ c) (he : env? s = some e) (hr : e.ready i = true) :
    ∃ t, perform i h s f = .next t ∧ ∀ n ∈ e.live i h, ∀ j w, (val e n)[j]? = some w →
      t.regOf e.team.id e.g.gix n (c + j) = some w := by
  refine ⟨_, perform_next f he hr, fun n hn j w hj => ?_⟩
  obtain ⟨-, -, -, -, ⟨l, hst, hsub⟩, -⟩ := env?_spec he
  obtain ⟨hnd, hth⟩ := streamedOf_spec hst
  rw [regOf_retire he i h _ s rfl]
  · have nk : ∀ m, ∀ w ∈ (f e m).writes, ¬isKCode w.1 := by
      intro m w hw'
      rw [hw] at hw'
      obtain ⟨p, hp, rfl⟩ := List.mem_map.1 hw'
      have := List.snd_lt_of_mem_zipIdx hp
      unfold isKCode
      rcases hc m with h1 | h1 <;> simp only <;> omega
    have key := Group.applyAll_self s.nonce e (e.results i h (f e)) e.g (by rw [results_fst]; exact hsub.nodup hnd) ?_ (n, f e n)
      (results_mem hn) ?_ ?_ (c + j, w) ?_
    · exact key
    · intro r hr'
      rcases results_cases hr' with ⟨-, hx⟩ | ⟨b, hx⟩
      · rw [hx]; exact nk r.1
      · rw [hx, (idleRes_spec e i h b r.1).1]; intro w hw'; cases hw'
    · obtain ⟨th, ht, -⟩ := hth n (hsub.subset (List.mem_filter.1 hn).1)
      exact (List.getElem?_eq_some_iff.1 ht).1
    · rw [hw]; exact run_codes_nodup c _
    · rw [hw]
      refine List.mem_map.2 ⟨(w, j), ?_, rfl⟩
      rw [List.mem_zipIdx_iff_getElem?]; exact hj
  · intro r hr'
    rcases results_cases hr' with ⟨-, hx⟩ | ⟨b, hx⟩
    · rw [hx]; exact hl e r.1
    · rw [hx]; exact (idleRes_spec e i h b r.1).2

/-- `performU` with a K destination delivers the group's results, computed as thread 32. -/
theorem performU_delivers {i : Instr} {h : Hdr} {f : Env → Nat → TRes} {c : Nat} {val : Env → Nat → List Word}
    (hw : ∀ e n, (f e n).writes = (val e n).zipIdx.map (fun p => (c + p.2, p.1)))
    {s : State} {e : Env} (hc : ∀ j, j < (val e 32).length → isKCode (c + j)) (hu : isUniform i = true) (he : env? s = some e)
    (hr : e.ready i = true) (hn : e.live i h ≠ []) :
    ∃ t, performU i h s f = .next t ∧ ∀ j w, (val e 32)[j]? = some w → t.regOf e.team.id e.g.gix 32 (c + j) = some w := by
  have hx : performU i h s f = performWith i h s (fun e ts s =>
      if ts.isEmpty then (s, fun _ => {})
      else (s.modGroup e.team.id e.g.gix (fun g => g.applyRes s.nonce false 32 (f e 32)), fun _ => {})) := by
    unfold performU; rw [if_pos hu]
  refine ⟨_, hx.trans (performWith_next _ he hr), fun j w hj => ?_⟩
  have hne : (e.live i h).isEmpty = false := by simpa using hn
  simp only [hne, Bool.false_eq_true, if_false]
  have quiet : ∀ r ∈ e.results i h (fun _ => ({} : TRes)), (∀ v, r.2.leave ≠ .rfe v) ∧ r.2.writes = [] := by
    intro r hr'
    rcases results_cases hr' with ⟨-, hx⟩ | ⟨b, hx⟩
    · rw [hx]; exact ⟨by simp, rfl⟩
    · rw [hx]; exact ⟨(idleRes_spec e i h b r.1).2, (idleRes_spec e i h b r.1).1⟩
  rw [State.regOf_of_kept (kept_retire e i h _ _ (fun r hr' => (quiet r hr').1)), State.regOf_eq, State.group?_applyAll,
    State.group?_modGroup _ _ _ _ (fun g => (Group.applyRes_shape _ _ g _ _).2), (env?_spec he).2.2.1]
  simp only [Option.map_some, Option.bind_some]
  rw [Group.applyAll_other, Group.applyRes_regOf]
  · refine Group.regOf_writeAll s.nonce 32 (f e 32).writes e.g (by rw [hw]; exact run_codes_nodup c _) (c + j, w) ?_ (.inl ?_)
    · rw [hw]
      refine List.mem_map.2 ⟨(w, j), ?_, rfl⟩
      rw [List.mem_zipIdx_iff_getElem?]; exact hj
    · exact hc j (List.getElem?_eq_some_iff.1 hj).1
  · intro r hr'
    rw [(quiet r hr').2]
    refine ⟨?_, ?_⟩
    · intro w hw'; cases hw'
    · intro _; simp

end Sys2Proof.Machine
end

