-- ==== Sys2Proof/Laws/Frame.lean ====
section
/-!
SUPPORT. What an instruction that acts on registers alone leaves alone: everything but its results, where its threads
stand, and time.
-/

namespace Sys2Proof.Machine

theorem replaceIf_keeps {α β : Type} (p : α → Bool) (f : α → α) (q : α → β) (h : ∀ a, q (f a) = q a) (l : List α) :
    (replaceIf p f l).map q = l.map q := map_replaceIf p f q h l

theorem Group.rest_modThread (g : Group) (i : Nat) (f : Thread → Thread) (h : ∀ th, (f th).rest = th.rest) :
    (g.modThread i f).rest = g.rest := by
  simp only [Group.rest, Group.modThread, map_modifyAt f Thread.rest h]
theorem Group.rest_mapThreads (g : Group) (f : Thread → Thread) (h : ∀ th, (f th).rest = th.rest) :
    (g.mapThreads f).rest = g.rest := by
  simp only [Group.rest, Group.mapThreads, List.map_map]
  congr 1
  exact List.map_congr_left (fun a _ => h a)
theorem Team.rest_modGroup (t : Team) (gix : Nat) (f : Group → Group) (h : ∀ g, (f g).rest = g.rest) :
    (t.modGroup gix f).rest = t.rest := by
  simp only [Team.rest, Team.modGroup, map_replaceIf _ f Group.rest h]
theorem Team.rest_modThread (t : Team) (gix i : Nat) (f : Thread → Thread) (h : ∀ th, (f th).rest = th.rest) :
    (t.modThread gix i f).rest = t.rest := Team.rest_modGroup t gix _ (fun g => Group.rest_modThread g i f h)
theorem Team.rest_mapThreads (t : Team) (f : Thread → Thread) (h : ∀ th, (f th).rest = th.rest) :
    (t.mapThreads f).rest = t.rest := by
  simp only [Team.rest, Team.mapThreads, List.map_map]
  congr 1
  exact List.map_congr_left (fun g _ => Group.rest_mapThreads g f h)
theorem State.rest_modTeam (s : State) (id : Nat) (f : Team → Team) (h : ∀ t, (f t).rest = t.rest) :
    (s.modTeam id f).rest = s.rest := by
  simp only [State.rest, State.modTeam, map_replaceIf _ f Team.rest h]
theorem State.rest_modGroup (s : State) (id gix : Nat) (f : Group → Group) (h : ∀ g, (f g).rest = g.rest) :
    (s.modGroup id gix f).rest = s.rest := State.rest_modTeam s id _ (fun t => Team.rest_modGroup t gix f h)

theorem Group.rest_endBlock (g : Group) (i : Nat) : (g.endBlock i).rest = g.rest :=
  Group.rest_modThread g i _ (fun _ => rfl)
theorem Team.rest_join (t : Team) (gix i : Nat) : (t.join gix i).rest = t.rest := by
  unfold Team.join
  split
  · rfl
  · split
    · exact Team.rest_modThread t gix i _ (fun _ => rfl)
    · split
      · dsimp only
        refine (Team.rest_modThread _ gix i _ ?_).trans ?_
        · intro _; rfl
        refine (Team.rest_mapThreads _ _ (fun th => ?_)).trans rfl
        split <;> rfl
      · exact Team.rest_modThread t gix i _ (fun _ => rfl)
theorem Team.rest_meetCheck (t : Team) (gix : Nat) (v : DWord) : (t.meetCheck gix v).rest = t.rest := by
  unfold Team.meetCheck
  split
  · rfl
  · dsimp only
    split
    · refine Team.rest_modGroup t gix _ (fun g => Group.rest_mapThreads g _ (fun th => ?_))
      split <;> rfl
    · rfl
theorem Team.rest_meetAt (t : Team) (v : DWord) : (t.meetAt v).rest = t.rest :=
  foldl_keeps Team.rest (fun (a : Team) (g : Group) => a.meetCheck g.gix v) (fun a g => Team.rest_meetCheck a g.gix v) t.groups t
theorem Team.rest_arrive (t : Team) (gix i : Nat) : (t.arrive gix i).rest = t.rest := by
  unfold Team.arrive
  split
  · rfl
  · exact (Team.rest_meetAt _ _).trans (Team.rest_join t gix i)
theorem Team.rest_enterMeet (t : Team) (gix i : Nat) : (t.enterMeet gix i).rest = t.rest :=
  (Team.rest_arrive _ gix i).trans (Team.rest_modGroup t gix _ (fun g => Group.rest_endBlock g i))
theorem Team.rest_transfer (t : Team) (gix i : Nat) (pc : DWord) : (t.transfer gix i pc).rest = t.rest :=
  (Team.rest_enterMeet _ _ _).trans (Team.rest_modThread t gix i _ (fun _ => rfl))
theorem State.rest_fallThrough (s : State) (id gix i : Nat) : (s.fallThrough id gix i).rest = s.rest := by
  unfold State.fallThrough
  split
  · rfl
  · split
    · rfl
    · refine State.rest_modTeam s id _ (fun t => ?_)
      dsimp only
      split
      · exact (Team.rest_enterMeet _ _ _).trans (Team.rest_modThread t gix i _ (fun _ => rfl))
      · exact Team.rest_modThread t gix i _ (fun _ => rfl)

/-- A departure that only moves the thread: falling through, a transfer, a join. -/
def Leave.moves : Leave → Bool
  | .fall => true | .goto _ => true | .met _ => true | .stay => true
  | _ => false
theorem State.rest_leave (s : State) (id gix i : Nat) (l : Leave) (h : l.moves = true) : (s.leave id gix i l).rest = s.rest := by
  unfold State.leave
  split
  · rfl
  split
  · rfl
  unfold State.leaveLive
  cases l with
  | fall => exact State.rest_fallThrough s id gix i
  | goto pc => exact State.rest_modTeam s id _ (fun t => Team.rest_transfer t gix i pc)
  | stay => rfl
  | met old => exact (State.rest_fallThrough _ id gix i).trans (State.rest_modTeam s id _ (fun t => Team.rest_meetCheck t gix old))
  | trap f => cases h
  | trapNext f => cases h
  | exit => cases h
  | rfe v => cases h
  | park w o => cases h
  | waited => cases h
  | yield => cases h

theorem State.rest_atCycle (s : State) (c : Nat) (f : State → State) (h : ∀ a : State, (f a).rest = a.rest) : (s.atCycle c f).rest = s.rest :=
  h { s with clock := c }

theorem Group.rest_applyRes (key : Nat) (hp : Bool) (g : Group) (t : Nat) (r : TRes) : (g.applyRes key hp t r).rest = g.rest := by
  have drop : ∀ (g : Group) (c : Nat), (g.dropPending key t c).rest = g.rest := by
    intro g c
    unfold Group.dropPending
    split <;> rfl
  have code : ∀ (g : Group) (c : Nat) (v : Word), (g.writeCode t c v).rest = g.rest := by
    intro g c v
    unfold Group.writeCode
    split
    · rfl
    · refine Group.rest_modThread g t _ (fun th => ?_)
      unfold Thread.writeReg
      split
      · rfl
      · split <;> rfl
  have pred : ∀ (g : Group) (n : Nat) (b : Bool), (g.modThread t (fun th => th.writePred n b)).rest = g.rest := by
    intro g n b
    refine Group.rest_modThread g t _ (fun th => ?_)
    unfold Thread.writePred
    split <;> rfl
  have f1 : ∀ (l : List (Nat × Word)) (g : Group), (l.foldl (fun g w => (g.dropPending key t w.1).writeCode t w.1 w.2) g).rest = g.rest := by
    intro l
    induction l with
    | nil => intro g; rfl
    | cons w l ih => intro g; rw [List.foldl_cons, ih, code, drop]
  have f2 : ∀ (l : List (Nat × Bool)) (g : Group),
      (l.foldl (fun g w => (g.dropPending key t (predCode w.1)).modThread t (fun th => th.writePred w.1 w.2)) g).rest = g.rest := by
    intro l
    induction l with
    | nil => intro g; rfl
    | cons w l ih => intro g; rw [List.foldl_cons, ih, pred, drop]
  unfold Group.applyRes Group.setFlags
  dsimp only
  split
  · refine (Group.rest_modThread _ t _ ?_).trans ((f2 _ _).trans (f1 _ _)); intro; rfl
  · refine Eq.trans (b := Group.rest (Group.modThread _ _ _)) rfl ((Group.rest_modThread _ t _ ?_).trans ((f2 _ _).trans (f1 _ _))); intro; rfl

/-! ### No wait ends in a settled state -/

theorem State.waitGone_rest (s : State) (th : Thread) : s.rest.waitGone th.rest = s.waitGone th := by
  have find : ∀ (l : List Team) (id : Nat), (l.map Team.rest).find? (fun t => t.id == id) = (l.find? (fun t => t.id == id)).map Team.rest := by
    intro l id
    induction l with
    | nil => rfl
    | cons t l ih =>
      simp only [List.map_cons, List.find?_cons]
      have : (Team.rest t).id = t.id := rfl
      rw [this]
      split
      · rfl
      · exact ih
  unfold State.waitGone
  have hw : th.rest.wait = th.wait := rfl
  rw [hw]
  split
  · rename_i _ _ id _ _ _ _ _ _
    have : s.rest.team? id = (s.team? id).map Team.rest := find s.teams id
    rw [this]
    cases s.team? id <;> rfl
  · rfl
theorem State.settled_rest (s : State) : s.rest.settled = s.settled := by
  have all : ∀ t : Team, (Team.rest t).all.all (fun p => !(s.rest.waitGone p.2.2)) = t.all.all (fun p => !(s.waitGone p.2.2)) := by
    intro t
    unfold Team.all Team.rest Group.rest
    simp only [List.flatMap_map, List.all_flatMap, List.zipIdx_map, List.all_map, List.map_map]
    refine congrArg (List.all _) ?_
    funext g
    refine congrArg (List.all _) ?_
    funext p
    simp only [Function.comp_apply, Prod.map_fst, State.waitGone_rest]
  unfold State.settled
  show (s.teams.map Team.rest).all _ = _
  rw [List.all_map]
  refine congrArg (List.all _) ?_
  funext t
  exact congrArg (t.halted || ·) (all t)
theorem State.settle_of_settled (s : State) (h : s.settled = true) : s.settle = s := by
  have : ((s.teams.filter (fun t => !t.halted)).flatMap (fun t => (t.all.filter (fun p => s.waitGone p.2.2)).map (fun p => (t.id, p)))) = [] := by
    rw [List.flatMap_eq_nil_iff]
    intro t ht
    rw [List.map_eq_nil_iff, List.filter_eq_nil_iff]
    intro p hp
    obtain ⟨hm, hh⟩ := List.mem_filter.1 ht
    have h1 := List.all_eq_true.1 h t hm
    have h3 : t.halted = false := by simpa using hh
    rw [h3, Bool.false_or] at h1
    have h2 := List.all_eq_true.1 h1 p hp
    simpa using h2
  unfold State.settle State.wakeGone
  dsimp only
  rw [if_pos (by rw [this]; rfl)]

/-! ### Retiring -/

/-- Retiring an instruction whose threads only move leaves everything else alone. -/
theorem rest_retire (e : Env) (i : Instr) (h : Hdr) (rs : List (Nat × TRes)) (s : State)
    (hr : ∀ r ∈ rs, r.2.leave.moves = true) (hs : s.settled = true) : (retire e i h rs s).rest = s.rest := by
  have f1 : ∀ (l : List (Nat × TRes)) (a : State),
      (l.foldl (fun a r => a.modGroup e.team.id e.g.gix (fun g => g.applyRes s.nonce (e.helper r.1) r.1 r.2)) a).rest = a.rest := by
    intro l
    induction l with
    | nil => intro a; rfl
    | cons r l ih => intro a; rw [List.foldl_cons, ih, State.rest_modGroup _ _ _ _ (fun g => Group.rest_applyRes _ _ g _ _)]
  have f2 : ∀ (l : List (Nat × TRes)) (a : State), (∀ r ∈ l, r.2.leave.moves = true) →
      (l.foldl (fun a r => a.atCycle (e.cycleOf i r.1) (fun a => a.leave e.team.id e.g.gix r.1 r.2.leave)) a).rest = a.rest := by
    intro l
    induction l with
    | nil => intro a _; rfl
    | cons r l ih =>
      intro a hl
      rw [List.foldl_cons, ih _ (fun r hr => hl r (List.mem_cons_of_mem _ hr)),
        State.rest_atCycle _ _ _ (fun a => State.rest_leave a _ _ _ _ (hl r List.mem_cons_self))]
  have settle : ∀ a : State, a.rest = s.rest → a.settle.bumpNonce.rest = s.rest := by
    intro a ha
    have : a.settled = true := by rw [← State.settled_rest, ha, State.settled_rest]; exact hs
    rw [State.settle_of_settled a this]
    exact ha
  unfold retire
  dsimp only
  refine settle _ ?_
  have base : State.rest (rs.foldl (fun a r => a.atCycle (e.cycleOf i r.1) (fun a => a.leave e.team.id e.g.gix r.1 r.2.leave))
      (rs.foldl (fun a r => a.modGroup e.team.id e.g.gix (fun g => g.applyRes s.nonce (e.helper r.1) r.1 r.2)) (s.clockTo e.fp))) = s.rest := by
    rw [f2 rs _ hr, f1]; rfl
  split
  · refine (State.rest_modGroup _ _ _ _ ?_).trans base
    intro; rfl
  · refine (State.rest_modTeam _ _ _ ?_).trans ((State.rest_modGroup _ _ _ _ ?_).trans base) <;> (intro; rfl)

/-- No idle thread of a calm instruction faults. -/
theorem idleRes_calm {e : Env} {i : Instr} {h : Hdr} (hc : e.calm i h = true) {n : Nat} (hn : n ∈ e.act) (hl : n ∉ e.live i h) :
    e.idleRes i h false n = {} := by
  have h1 := List.all_eq_true.1 hc n hn
  unfold Env.idleRes
  unfold Env.live at hl
  rw [List.mem_filter] at hl
  simp only [hn, true_and, Bool.and_eq_true, Bool.not_eq_true', not_and] at hl
  simp only [Bool.not_eq_true', Bool.and_eq_false_iff] at h1
  by_cases hg : e.guard h n = true
  · have h2 := hl hg
    simp only [Bool.and_eq_false_iff, not_or] at h2
    rcases h1 with (h1 | h1) | h1
    · exact absurd hg (by simp [h1])
    · exact absurd h1 h2.1
    · exact absurd h1 h2.2
  · rw [if_neg hg]; rfl

end Sys2Proof.Machine
end

