-- ==== Sys2Proof/Laws/Order.lean ====
section
/-!
SUPPORT. What reads, acquires, releases and writes do to the history: the first three change only what agents know of writes,
a read that must find every write made gives what stands in the place, and a write leaves every byte that it does not name.
-/

namespace Sys2Proof.Machine

/-! ### Sights -/

/-- A step over agents that each come farther changes the sights alone. -/
theorem foldl_setSight (f : State → Agent → Sight) : ∀ (l : List Agent) (s : State),
    ∃ x, l.foldl (fun s g => s.setSight g (f s g)) s = { s with sights := x } := by
  intro l
  induction l with
  | nil => intro s; exact ⟨s.sights, rfl⟩
  | cons g l ih =>
    intro s
    obtain ⟨x, hx⟩ := ih (s.setSight g (f s g))
    exact ⟨x, by rw [List.foldl_cons, hx]; rfl⟩
theorem map_rest_know (p : Old → Bool) (ag : List Agent) (l : List Old) :
    (l.map (fun w => if p w = true then { w with known := ag ++ w.known } else w)).map Old.rest = l.map Old.rest := by
  rw [List.map_map]
  refine List.map_congr_left (fun w _ => ?_)
  simp only [Function.comp]
  split <;> rfl

/-! ### What a read, an acquire and a release can do -/

/-- Reading changes the sights and who knows which write. -/
theorem State.learn_spec (s : State) (ag : List Agent) (m : Mem) (a n p : Nat) :
    ∃ x y, s.learn ag m a n p = { s with olds := y, sights := x } ∧ y.map Old.rest = s.olds.map Old.rest := by
  obtain ⟨x, hx⟩ := foldl_setSight (fun s x => { s.sight x with seen := max (s.sight x).seen p }) ag
    { s with olds := s.olds.map (fun w => if (w.touches m a n && decide (w.no ≤ p)) = true then { w with known := ag ++ w.known } else w) }
  exact ⟨x, _, hx, map_rest_know _ ag s.olds⟩
theorem State.learnLoc_spec (s : State) (ag : List Agent) (l : Loc) (n p : Nat) :
    ∃ x y, s.learnLoc ag l n p = { s with olds := y, sights := x } ∧ y.map Old.rest = s.olds.map Old.rest := by
  unfold State.learnLoc
  split
  · exact State.learn_spec s ag _ _ n p
  · exact ⟨s.sights, s.olds, rfl, rfl⟩
theorem State.learnNewest_spec (s : State) (ag : List Agent) (l : Loc) (n : Nat) :
    ∃ x y, (s.learnNewest ag l n).1 = { s with olds := y, sights := x } ∧ y.map Old.rest = s.olds.map Old.rest := by
  unfold State.learnNewest
  split
  · exact State.learn_spec s ag _ _ n _
  · exact ⟨s.sights, s.olds, rfl, rfl⟩
/-- An acquire changes the sights and who awaits a late store. -/
theorem State.acquire_spec (s : State) (a : Author) (ag : List Agent) (sc : Scope) (p : Nat) (full : Bool) :
    ∃ x y, s.acquire a ag sc p full = { s with late := y, sights := x } ∧ y.map LateStore.rest = s.late.map LateStore.rest := by
  obtain ⟨x, hx⟩ := foldl_setSight (fun b g => s.acquired a g (b.sight g) sc p full) ag s
  unfold State.acquire
  simp only [hx]
  exact ⟨x, _, rfl, by rw [List.map_map]; exact List.map_congr_left (fun _ _ => rfl)⟩
/-- A release changes which releases a late store precedes. -/
theorem State.releaseBy_spec (s : State) (a : Author) (ts : List Nat) (sc : Scope) (full : Bool) (ps : List (Option (Mem × Nat))) :
    ∃ y, s.releaseBy a ts sc full ps = { s with late := y } ∧ y.map LateStore.rest = s.late.map LateStore.rest := by
  unfold State.releaseBy
  refine ⟨_, rfl, ?_⟩
  rw [List.map_map]
  refine List.map_congr_left (fun x _ => ?_)
  simp only [Function.comp]
  split <;> rfl

/-- A change of the history's knowledge alone is hidden by `State.kept` and by `State.rest`. -/
theorem State.kept_of_history {s t : State} {x : List (Agent × Sight)} {y : List Old} {z : List LateStore}
    (h : t = { s with olds := y, sights := x, late := z }) (hy : y.map Old.rest = s.olds.map Old.rest)
    (hz : z.map LateStore.rest = s.late.map LateStore.rest) : t.kept = s.kept := by
  subst h
  simp only [State.kept, hy, hz]
theorem State.rest_of_history {s t : State} {x : List (Agent × Sight)} {y : List Old} {z : List LateStore}
    (h : t = { s with olds := y, sights := x, late := z }) (hy : y.map Old.rest = s.olds.map Old.rest)
    (hz : z.map LateStore.rest = s.late.map LateStore.rest) : t.rest = s.rest := by
  subst h
  simp only [State.rest, hy, hz]

theorem State.kept_learn (s : State) (ag : List Agent) (m : Mem) (a n p : Nat) : (s.learn ag m a n p).kept = s.kept := by
  obtain ⟨x, y, h, hy⟩ := s.learn_spec ag m a n p
  exact State.kept_of_history (z := s.late) h hy rfl
theorem State.kept_learnLoc (s : State) (ag : List Agent) (l : Loc) (n p : Nat) : (s.learnLoc ag l n p).kept = s.kept := by
  obtain ⟨x, y, h, hy⟩ := s.learnLoc_spec ag l n p
  exact State.kept_of_history (z := s.late) h hy rfl
theorem State.kept_learnNewest (s : State) (ag : List Agent) (l : Loc) (n : Nat) : (s.learnNewest ag l n).1.kept = s.kept := by
  obtain ⟨x, y, h, hy⟩ := s.learnNewest_spec ag l n
  exact State.kept_of_history (z := s.late) h hy rfl
theorem State.kept_acquire (s : State) (a : Author) (ag : List Agent) (sc : Scope) (p : Nat) (full : Bool) :
    (s.acquire a ag sc p full).kept = s.kept := by
  obtain ⟨x, y, h, hy⟩ := s.acquire_spec a ag sc p full
  exact State.kept_of_history (y := s.olds) h rfl hy
theorem State.kept_releaseBy (s : State) (a : Author) (ts : List Nat) (sc : Scope) (full : Bool) (ps : List (Option (Mem × Nat))) :
    (s.releaseBy a ts sc full ps).kept = s.kept := by
  obtain ⟨y, h, hy⟩ := s.releaseBy_spec a ts sc full ps
  exact State.kept_of_history (x := s.sights) (y := s.olds) h rfl hy
theorem State.kept_acquireWait (s : State) (a : Author) (g : Agent) (l : Loc) (n : Nat) (sc : Scope) :
    (s.acquireWait a g l n sc).kept = s.kept := by
  unfold State.acquireWait
  exact (State.kept_acquire _ a [g] sc _ false).trans (State.kept_learnNewest s [g] l n)
theorem State.rest_acquire (s : State) (a : Author) (ag : List Agent) (sc : Scope) (p : Nat) (full : Bool) :
    (s.acquire a ag sc p full).rest = s.rest := by
  obtain ⟨x, y, h, hy⟩ := s.acquire_spec a ag sc p full
  exact State.rest_of_history (y := s.olds) h rfl hy
theorem State.rest_releaseBy (s : State) (a : Author) (ts : List Nat) (sc : Scope) (full : Bool) (ps : List (Option (Mem × Nat))) :
    (s.releaseBy a ts sc full ps).rest = s.rest := by
  obtain ⟨y, h, hy⟩ := s.releaseBy_spec a ts sc full ps
  exact State.rest_of_history (x := s.sights) (y := s.olds) h rfl hy

theorem State.learnLoc_readByte (s : State) (ag : List Agent) (l m : Loc) (n p j : Nat) :
    (s.learnLoc ag l n p).readByte m j = s.readByte m j := by
  obtain ⟨x, y, h, -⟩ := s.learnLoc_spec ag l n p
  rw [h]; cases m <;> rfl
theorem State.learnNewest_readByte (s : State) (ag : List Agent) (l m : Loc) (n j : Nat) :
    (s.learnNewest ag l n).1.readByte m j = s.readByte m j := by
  obtain ⟨x, y, h, -⟩ := s.learnNewest_spec ag l n
  rw [h]; cases m <;> rfl
theorem State.acquire_readByte (s : State) (a : Author) (ag : List Agent) (sc : Scope) (p : Nat) (full : Bool) (m : Loc) (j : Nat) :
    (s.acquire a ag sc p full).readByte m j = s.readByte m j := by
  obtain ⟨x, y, h, -⟩ := s.acquire_spec a ag sc p full
  rw [h]; cases m <;> rfl
theorem State.releaseBy_readByte (s : State) (a : Author) (ts : List Nat) (sc : Scope) (full : Bool) (ps : List (Option (Mem × Nat)))
    (m : Loc) (j : Nat) : (s.releaseBy a ts sc full ps).readByte m j = s.readByte m j := by
  obtain ⟨y, h, -⟩ := s.releaseBy_spec a ts sc full ps
  rw [h]; cases m <;> rfl

/-! ### Reads at a point -/

theorem foldl_max_no (l : List Old) : ∀ k, k ≤ l.foldl (fun k w => max k w.no) k ∧ ∀ w ∈ l, w.no ≤ l.foldl (fun k w => max k w.no) k := by
  induction l with
  | nil => intro k; exact ⟨Nat.le_refl _, fun _ h => absurd h (by simp)⟩
  | cons v l ih =>
    intro k
    obtain ⟨h1, h2⟩ := ih (max k v.no)
    refine ⟨Nat.le_trans (Nat.le_max_left ..) h1, fun w hw => ?_⟩
    rcases List.mem_cons.1 hw with rfl | hw
    · exact Nat.le_trans (Nat.le_max_right ..) h1
    · exact h2 w hw
/-- No write that passes the test has a number above the newest one's. -/
theorem State.le_lastNo (s : State) (p : Old → Bool) {w : Old} (hw : w ∈ s.olds) (hp : p w = true) : w.no ≤ s.lastNo p :=
  (foldl_max_no (s.olds.filter p) 0).2 w (List.mem_filter.2 ⟨hw, hp⟩)
/-- A byte stands as it does now since the last write that covers it. -/
theorem State.stoodAt_now (s : State) (m : Mem) (p a : Nat) (now : Byte) (h : ∀ w ∈ s.olds, p < w.no → w.byte m a = none) :
    s.stoodAt m p a now = now := by
  unfold State.stoodAt
  generalize s.olds = l at h
  induction l with
  | nil => rfl
  | cons w l ih =>
    have hw := h w List.mem_cons_self
    have hstep : (if p < w.no then (w.byte m a).getD now else now) = now := by
      split
      · next hp => rw [hw hp]; rfl
      · rfl
    rw [List.foldl_cons, hstep]
    exact ih (fun v hv => h v (List.mem_cons_of_mem _ hv))
/-- A write that covers a byte of a span touches the span. -/
theorem Old.touches_of_byte {w : Old} {m : Mem} {a n j : Nat} (hj : j < n) (h : w.byte m (a + j) ≠ none) : w.touches m a n = true := by
  unfold Old.byte at h
  split at h
  · next hm =>
    unfold Old.touches
    simp only [hm, beq_self_eq_true, Bool.true_and, List.any_eq_true, Bool.and_eq_true, decide_eq_true_eq]
    cases hf : w.cells.find? (fun c => c.1 == a + j) with
    | none => rw [hf] at h; exact absurd rfl h
    | some c =>
      have hc := List.find?_some hf
      simp only [beq_iff_eq] at hc
      exact ⟨c, List.mem_of_find?_eq_some hf, by omega, by omega⟩
  · exact absurd rfl h
/-- A read at a point after which the history holds no write to its bytes gives what stands there. -/
theorem State.readAt_now (s : State) (p : Nat) (l : Loc) (n : Nat)
    (h : ∀ m a, l.mem = some (m, a) → ∀ w ∈ s.olds, w.touches m a n = true → w.no ≤ p) : s.readAt p l n = s.readLoc l n := by
  unfold State.readAt
  split
  · rfl
  · next m a hm =>
    refine List.map_congr_left (fun j hj => ?_)
    refine State.stoodAt_now s m p (a + j) _ (fun w hw hp => ?_)
    cases hb : w.byte m (a + j) with
    | none => rfl
    | some b =>
      have := h m a hm w hw (Old.touches_of_byte (List.mem_range.1 hj) (by rw [hb]; simp))
      omega
/-- A read that must find every write made gives what stands in the place, at whatever point from its floor on. -/
theorem State.readAt_sees (s : State) (r : Reader) (p : Nat) (l : Loc) (n : Nat) (h : s.sees r l n = true)
    (hp : s.floorLoc r l n ≤ p) : s.readAt p l n = s.readLoc l n := by
  refine State.readAt_now s p l n (fun m a hm w hw ht => ?_)
  simp only [State.sees, hm, List.all_eq_true] at h
  simp only [State.floorLoc, hm] at hp
  have hmust : w.must r = true := by
    have := h w hw
    simpa [ht] using this
  exact Nat.le_trans (State.le_lastNo s _ hw (by simp [ht, hmust])) hp
theorem State.floor_le_point (s : State) (k age : Nat) : k ≤ s.point k age := Nat.le_max_left ..

/-! ### Writes -/

/-- A write on whosever behalf leaves in memory what laying its bytes leaves. -/
theorem State.writeAs_readByte (s : State) (by_ : Option Author) (ag : List Agent) (l : Loc) (bs : List Byte) (m : Loc) (j : Nat) :
    (s.writeAs by_ ag l bs).readByte m j = (s.put l bs).readByte m j := by
  unfold State.writeAs
  split
  · cases l <;> cases m <;> rfl
  · rfl

end Sys2Proof.Machine
end

