-- ==== Sys2Proof/Laws/Effects.lean ====
section
/-!
SUPPORT. What an instruction with an effect on memory or on pending operations leaves: waking threads keeps what
`State.kept` shows, and bytes, pending results, predicates and flags can be read off it.
-/

namespace Sys2Proof.Machine

/-! ### Waking -/

theorem State.kept_releaseWait (s : State) (id gix i : Nat) : (s.releaseWait id gix i).kept = s.kept := by
  unfold State.releaseWait
  split
  · split
    · rfl
    · dsimp only
      split
      · refine (State.kept_modTeam _ id _ (fun t => ?_)).trans (State.kept_acquireWait s _ _ _ _ _)
        exact (Team.kept_tryEnter _ _ _).trans (Team.kept_modThread t gix i _ (fun _ => rfl))
      · exact (State.kept_trapAt _ _ _ _ _).trans (State.kept_modThread s id gix i _ Thread.kept_atWait)
  · rfl
theorem State.kept_wakeOne (s : State) (id gix i : Nat) : (s.wakeOne id gix i).kept = s.kept := by
  unfold State.wakeOne
  split
  · split
    · rfl
    · split
      · rfl
      · exact State.kept_releaseWait s id gix i
      · exact (State.kept_trapAt _ _ _ _ _).trans (State.kept_modThread s id gix i _ Thread.kept_atWait)
  · rfl
/-- Waking the parked threads keeps registers, memory and pending results. -/
theorem State.kept_wake (s : State) : s.wake.kept = s.kept :=
  foldl_keeps State.kept (fun (a : State) (p : Nat × Nat × Nat) => a.wakeOne p.1 p.2.1 p.2.2)
    (fun a p => State.kept_wakeOne a p.1 p.2.1 p.2.2) s.parked s

/-! ### Retiring -/

/-- Writing results changes registers, predicates, flags and the operations' destination lists only. -/
theorem Group.applyRes_ops (key : Nat) (hp : Bool) (g : Group) (t : Nat) (r : TRes) :
    (g.applyRes key hp t r).ops.map (fun o => { o with regs := [] }) = g.ops.map (fun o => { o with regs := [] }) := by
  have drop : ∀ (g : Group) (c : Nat), (g.dropPending key t c).ops.map (fun o => { o with regs := [] }) = g.ops.map (fun o => { o with regs := [] }) := by
    intro g c
    unfold Group.dropPending
    split
    · simp only [List.map_map]; exact List.map_congr_left (fun _ _ => rfl)
    · rfl
  have code : ∀ (g : Group) (c : Nat) (v : Word), (g.writeCode t c v).ops = g.ops := by
    intro g c v
    unfold Group.writeCode
    split <;> rfl
  have f1 : ∀ (l : List (Nat × Word)) (g : Group), (l.foldl (fun g w => (g.dropPending key t w.1).writeCode t w.1 w.2) g).ops.map (fun o => { o with regs := [] }) =
      g.ops.map (fun o => { o with regs := [] }) := by
    intro l
    induction l with
    | nil => intro g; rfl
    | cons w l ih => intro g; rw [List.foldl_cons, ih, code, drop]
  have f2 : ∀ (l : List (Nat × Bool)) (g : Group),
      (l.foldl (fun g w => (g.dropPending key t (predCode w.1)).modThread t (fun th => th.writePred w.1 w.2)) g).ops.map (fun o => { o with regs := [] }) =
        g.ops.map (fun o => { o with regs := [] }) := by
    intro l
    induction l with
    | nil => intro g; rfl
    | cons w l ih =>
      intro g; rw [List.foldl_cons, ih]; exact drop g _
  unfold Group.applyRes Group.setFlags
  dsimp only
  split
  · exact (f2 _ _).trans (f1 _ _)
  · exact (f2 _ _).trans (f1 _ _)

/-- An operation without its destination list and its T results. -/
def PendOp.strip (o : PendOp) : PendOp := { o.kept with regs := [] }
/-- A group without its registers, predicates, flags and destination lists. -/
def Group.strip (g : Group) : Group :=
  { g.kept with k := [], nflags := 0, flagsAt := 0, flagsSet := 0, threads := [], ops := g.ops.map PendOp.strip }
/-- A state without the registers, predicates and flags of its threads. -/
def State.strip (s : State) : State :=
  { s.kept with teams := s.teams.map (fun t => { t.kept with groups := t.groups.map Group.strip }) }
theorem State.strip_of_kept {s s' : State} (h : s.kept = s'.kept) : s.strip = s'.strip := by
  have grp : ∀ g : Group, g.strip = { g.kept with k := [], nflags := 0, flagsAt := 0, flagsSet := 0, threads := [], ops := g.kept.ops.map (fun o => { o with regs := [] }) } := by
    intro g
    unfold Group.strip
    simp only [Group.kept, List.map_map]
    rfl
  have team : ∀ t : Team, ({ t.kept with groups := t.groups.map Group.strip } : Team) =
      { t.kept with groups := t.kept.groups.map (fun g => { g with k := [], nflags := 0, flagsAt := 0, flagsSet := 0, threads := [], ops := g.ops.map (fun o => { o with regs := [] }) }) } := by
    intro t
    have hg : Group.strip = (fun g : Group => { g with k := [], nflags := 0, flagsAt := 0, flagsSet := 0, threads := [], ops := g.ops.map (fun o => { o with regs := [] }) }) ∘ Group.kept := funext grp
    rw [hg, ← List.map_map]
    rfl
  have st : ∀ s : State, s.strip = { s.kept with teams := s.kept.teams.map (fun t =>
      { t with groups := t.groups.map (fun g => { g with k := [], nflags := 0, flagsAt := 0, flagsSet := 0, threads := [], ops := g.ops.map (fun o => { o with regs := [] }) }) }) } := by
    intro s
    have ht : (fun t : Team => ({ t.kept with groups := t.groups.map Group.strip } : Team)) =
        (fun t : Team => { t with groups := t.groups.map (fun g => { g with k := [], nflags := 0, flagsAt := 0, flagsSet := 0, threads := [], ops := g.ops.map (fun o => { o with regs := [] }) }) }) ∘ Team.kept :=
      funext team
    unfold State.strip
    rw [ht, ← List.map_map]
    rfl
  rw [st, st, h]
theorem Group.strip_applyRes (key : Nat) (hp : Bool) (g : Group) (t : Nat) (r : TRes) : (g.applyRes key hp t r).strip = g.strip := by
  have ho := Group.applyRes_ops key hp g t r
  have h2 : (g.applyRes key hp t r).ops.map PendOp.strip = g.ops.map PendOp.strip := by
    have e : ∀ l : List PendOp, l.map PendOp.strip = (l.map (fun o => { o with regs := [] })).map PendOp.kept := by
      intro l; rw [List.map_map]; exact List.map_congr_left (fun _ _ => rfl)
    rw [e, e, ho]
  have hr := Group.rest_applyRes key hp g t r
  have fields : ∀ g : Group, ({ g.kept with k := [], nflags := 0, flagsAt := 0, flagsSet := 0, threads := [], ops := [] } : Group) =
      { g.rest with threads := [], stack := [], claim := none, tokWait := none } := fun _ => rfl
  have key2 : ∀ g g' : Group, g.rest = g'.rest → g.ops.map PendOp.strip = g'.ops.map PendOp.strip → g.strip = g'.strip := by
    intro g g' h h'
    have h3 : ({ g.kept with k := [], nflags := 0, flagsAt := 0, flagsSet := 0, threads := [], ops := [] } : Group) = { g'.kept with k := [], nflags := 0, flagsAt := 0, flagsSet := 0, threads := [], ops := [] } := by
      rw [fields, fields, h]
    have h4 : ∀ g : Group, g.strip = { ({ g.kept with k := [], nflags := 0, flagsAt := 0, flagsSet := 0, threads := [], ops := [] } : Group) with ops := g.ops.map PendOp.strip } := fun _ => rfl
    rw [h4, h4 g', h3, h']
  exact key2 _ _ hr h2

theorem State.strip_modGroup (s : State) (id gix : Nat) (f : Group → Group) (h : ∀ g, (f g).strip = g.strip) :
    (s.modGroup id gix f).strip = s.strip := by
  unfold State.strip
  have : (s.modGroup id gix f).teams.map (fun t => ({ t.kept with groups := t.groups.map Group.strip } : Team)) =
      s.teams.map (fun t => { t.kept with groups := t.groups.map Group.strip }) := by
    refine map_replaceIf _ _ _ (fun t => ?_) s.teams
    have : (t.modGroup gix f).groups.map Group.strip = t.groups.map Group.strip := map_replaceIf _ f Group.strip h t.groups
    rw [this]
    rfl
  rw [this]
  rfl
/-- Retiring keeps everything but registers, predicates, flags, timing and what `State.kept` leaves out. -/
theorem strip_retire (e : Env) (i : Instr) (h : Hdr) (rs : List (Nat × TRes)) (s : State) (hr : ∀ r ∈ rs, ∀ v, r.2.leave ≠ .rfe v) :
    (retire e i h rs s).strip = s.strip := by
  rw [State.strip_of_kept (kept_retire e i h rs s hr)]
  have : ∀ (l : List (Nat × TRes)) (a : State), (a.applyAll s.nonce e l).strip = a.strip := by
    intro l
    induction l with
    | nil => intro a; rfl
    | cons r l ih =>
      intro a
      have step : a.applyAll s.nonce e (r :: l) =
          (a.modGroup e.team.id e.g.gix (fun g => g.applyRes s.nonce (e.helper r.1) r.1 r.2)).applyAll s.nonce e l := rfl
      rw [step, ih, State.strip_modGroup _ _ _ _ (fun g => Group.strip_applyRes _ _ g _ _)]
  exact this rs s

/-- Bytes of die scratchpads and carve-outs after an instruction is retired. -/
theorem State.readByte_of_strip {s s' : State} (h : s.strip = s'.strip) : ∀ (l : Loc) (j : Nat), (∀ id gix o, l ≠ .st id gix o) →
    s.readByte l j = s'.readByte l j
  | .die d a, j, _ => by
    have hs : s.scratch = s'.scratch := (congrArg State.scratch h : s.strip.scratch = s'.strip.scratch)
    show s.scratch.read _ = s'.scratch.read _
    rw [hs]
  | .sh id o, j, _ => by
    have hm : s.teams.map (fun t => (t.id, t.shared, t.sharedKey)) = s'.teams.map (fun t => (t.id, t.shared, t.sharedKey)) := by
      have m : ∀ s : State, s.strip.teams.map (fun t => (t.id, t.shared, t.sharedKey)) = s.teams.map (fun t => (t.id, t.shared, t.sharedKey)) := by
        intro s
        show (s.teams.map (fun t => ({ t.kept with groups := t.groups.map Group.strip } : Team))).map (fun t => (t.id, t.shared, t.sharedKey)) = _
        rw [List.map_map]
        rfl
      rw [← m, ← m s', h]
    have find : ∀ (l l' : List Team), l.map (fun t => (t.id, t.shared, t.sharedKey)) = l'.map (fun t => (t.id, t.shared, t.sharedKey)) →
        (l.find? (fun t => t.id == id)).map (fun t => (t.id, t.shared, t.sharedKey)) =
        (l'.find? (fun t => t.id == id)).map (fun t => (t.id, t.shared, t.sharedKey)) := by
      intro l
      induction l with
      | nil => intro l' h; cases l' with | nil => rfl | cons _ _ => simp at h
      | cons t l ih =>
        intro l' h
        cases l' with
        | nil => simp at h
        | cons t' l' =>
          simp only [List.map_cons, List.cons.injEq] at h
          have hid : t.id = t'.id := congrArg Prod.fst h.1
          simp only [List.find?_cons, hid]
          split
          · simp [h.1]
          · exact ih l' h.2
    have ht := find s.teams s'.teams hm
    show (match s.team? id with | some t => t.sharedByte (o + j) | none => 0) = (match s'.team? id with | some t => t.sharedByte (o + j) | none => 0)
    unfold State.team?
    cases h1 : s.teams.find? (fun t => t.id == id) with
    | none => cases h2 : s'.teams.find? (fun t => t.id == id) with | none => rfl | some _ => simp [h1, h2] at ht
    | some t =>
      cases h2 : s'.teams.find? (fun t => t.id == id) with
      | none => simp [h1, h2] at ht
      | some t' =>
        simp only [h1, h2, Option.map_some, Option.some.injEq, Prod.mk.injEq] at ht
        simp only [Team.sharedByte, ht.2.1, ht.2.2]
  | .st id gix o, _, hl => absurd rfl (hl id gix o)

end Sys2Proof.Machine
end

