-- ==== Sys2Proof/Laws/Units.lean ====
section
/-!
SUPPORT. Small facts of the operations that copies, tokens, flags, placement rounds and retired pages share.
-/

namespace Sys2Proof.Machine

/-! ### Flags, tokens, rounds and pages -/

@[simp] theorem Group.complete_nflags (g : Group) (c : Nat) (f : FlagBits) : (g.complete c f).nflags = g.nflags ||| f := rfl
@[simp] theorem MatCtx.complete_flags (m : MatCtx) (c : Nat) (f : AccFlags) : (m.complete c f).flags = m.flags ||| f := rfl
@[simp] theorem TokWin.note_id (w : TokWin) (tok : Word) : (w.note tok).id = w.id := by unfold TokWin.note; dsimp only; split <;> rfl
@[simp] theorem TokWin.note_base (w : TokWin) (tok : Word) : (w.note tok).base = w.base := by unfold TokWin.note; dsimp only; split <;> rfl
@[simp] theorem TokWin.note_len (w : TokWin) (tok : Word) : (w.note tok).len = w.len := by unfold TokWin.note; dsimp only; split <;> rfl
@[simp] theorem State.askRound_placeDue (s : State) : s.askRound.placeDue = true := rfl
@[simp] theorem State.askRound_placeLast (s : State) : s.askRound.placeLast = s.clock := rfl
theorem State.mem_framesAt (s : State) (pa : Nat) : pa / 65536 ∈ s.framesAt pa := List.mem_cons_self ..
theorem worstHold_bad {hs : List Hold} (h : Hold.bad ∈ hs) : worstHold hs = .bad := by unfold worstHold; simp [h]
theorem worstHold_go {hs : List Hold} (h : ∀ x ∈ hs, x = .go) : worstHold hs = .go := by
  unfold worstHold
  have hb : hs.contains Hold.bad = false := by
    rw [Bool.eq_false_iff]
    intro hc
    exact absurd (h _ (List.contains_iff_mem.1 hc)) (by decide)
  have hf : hs.find? (fun x => x != .go) = none := List.find?_eq_none.2 fun x hx => by simp [h x hx]
  simp only [hb, hf]
  rfl

end Sys2Proof.Machine
end

