-- ==== Sys2Proof/Tests/Slice0.lean ====
section
/-!
SUPPORT. The tests: ill-formed terms and words that are refused; words of the manual's encodings and the instructions
they stand for; single steps on small states, with results worked out from the rules; and for every obligation that has
hypotheses a named state, `witness_<its name>`, that meets them all together.
-/

set_option Elab.async false
set_option maxRecDepth 100000

namespace Sys2Proof.Tests

open Sys2Proof.Machine

/-! ### Well-formedness and decoding -/

/-- The word decodes to the instruction, for each pair. -/
def reads (l : List (DWord × Instr)) : Bool := l.all fun p => match decode p.1 with | .ok i => decide (i = p.2) | .error _ => false
/-- The same for bytecodes. -/
def readsByte (l : List (Word × Instr)) : Bool := l.all fun p => match decodeByte p.1 with | .ok i => decide (i = p.2) | .error _ => false
/-- None of the words is an instruction. -/
def unread (l : List DWord) : Bool := l.all fun w => match decode w with | .ok _ => false | .error _ => true
/-- A header without guard or stall. -/
abbrev h0 : Hdr := ⟨false, 0, 0⟩

/-- Each check refuses an ill-formed term for its own reason. -/
def refuses (l : List (Instr × Reject)) : Bool := l.all fun p => firstReject p.1 == some p.2 && !wellFormed p.1

/-- R85, R32: a negated P0 as guard; a guard or a thread-varying operand in the uniform class. -/
theorem test_wf_guard : refuses [(.exit ⟨true, 0, 0⟩, .badGuard), (.add ⟨false, 1, 0⟩ .i32 (.k 0) (.k 1) (.k 2) (.c 0), .badGuard),
    (.add h0 .i32 (.k 0) (.v 1) (.k 2) (.c 0), .varying 1), (.add h0 .i32 (.k 0) (.k 1) (.k 2) (.c 7), .varying 1815)] = true := by decide +kernel
/-- R47, R89: operands of a class that the field does not admit. -/
theorem test_wf_operand : refuses [(.add h0 .i32 (.c 1) (.v 1) (.v 2) (.c 0), .badOperand 1809), (.div h0 false (.k 0) (.v 1) (.v 2) 0, .badOperand 1536),
    (.ldu h0 .b32 none (.v 0) (.k 0) 0 0, .badOperand 0), (.ldu h0 .b32 none (.k 0) (.v 0) 0 0, .varying 0),
    (.loop h0 (.v 1) 4, .badOperand 1), (.loop h0 (.c 7) 4, .badOperand 1815), (.ereg h0 (.v 0) (.k 0), .badOperand 0),
    (.eflush h0 (.c 8), .badOperand 1816), (.cpcLat h0 none (.k 0), .badOperand 1536), (.xres h0 0 (.v 0), .badOperand 0),
    (.brx h0 (.c 1) 0, .badOperand 1809)] = true := by decide +kernel
/-- R88: pairs and runs that start at a wrong register or pass the last one, and constants as pairs. -/
theorem test_wf_run : refuses [(.add h0 .i64 (.v 1) (.v 2) (.v 4) (.c 0), .badRun 1), (.add h0 .i64 (.v 0) (.v 2) (.c 1) (.c 0), .badRun 1809),
    (.ldS h0 .b128 false none (.v 2) (.v 0) 0 0, .badRun 2), (.cas h0 .s true false (.v 0) 0 (.v 2) 0, .badRun 2),
    (.accMv h0 false (.v 1520) 0 0, .badRun 1520), (.cpcLat h0 none (.v 1522), .badRun 1522)] = true := by decide +kernel
/-- R100 to R105, R122, R135, R162, R165, R182, R245, R348: the limits of the entries. -/
theorem test_wf_limit : refuses [(.loopImm h0 0 4, .badLimit), (.mts h0 .status (.v 0), .badLimit), (.cvt h0 (.v 0) (.v 1) .f32 .f32 .rne 0, .badLimit),
    (.cvt h0 (.v 0) (.v 1) .f32 .f16 .rne 2, .badLimit), (.cvt h0 (.v 0) (.v 1) .i32 .n8 .rz 0, .badLimit), (.cvt h0 (.v 0) (.v 1) .fn8 .f32 .rz 0, .badLimit),
    (.pk h0 .f32 (.v 0) (.v 1) (.v 2) (.c 0), .badLimit), (.upk h0 .i64 (.v 0) (.v 1) (.v 2), .badLimit),
    (.setpI h0 .num 1 (.v 0) (.v 1) ⟨false, 0⟩, .badLimit), (.setpN h0 .nan 1 (.v 0) (.v 1) ⟨false, 0⟩, .badLimit),
    (.ldS h0 .b32 true none (.v 0) (.v 1) 0 0, .badLimit), (.ldH h0 .b64 true none (.v 0) (.v 2) 0 0, .badLimit),
    (.ldK h0 .b128 true (.v 0) (.v 4) 0 0, .badLimit), (.ldC h0 .b32 true none (.v 0) (.v 1) 0 0, .badLimit), (.ldu h0 .b16 none (.k 0) (.k 1) 0 0, .badLimit),
    (.atomS h0 .fadd true false (.v 0) 0 (.v 2) 0, .badLimit), (.atomH h0 .fmin true false (.v 0) 0 (.v 2) 0, .badLimit),
    (.atomC h0 .fmax true false (.v 0) 0 (.v 2) 0, .badLimit), (.redS h0 .fadd true false (.v 0) 0 (.v 2), .badLimit),
    (.redH h0 .fmin true false (.v 0) 0 (.v 2), .badLimit), (.redC h0 .fmax true false (.v 0) 0 (.v 2), .badLimit), (.claim h0 0, .badLimit),
    (.claimTry h0 1 0, .badLimit), (.surr h0 0, .badLimit), (.bSkip .always 0 0 0, .badLimit), (.bLoop 0, .badLimit)] = true := by decide +kernel
/-- R47, R84, R87, R89, R97 to R109: unassigned MAJORs; FN, SIZE, ORDER, FMT, MOD and type codes that the map does not list;
nonzero bits where the map has none; reserved operand codes. -/
theorem test_unread : unread [0x0000000000000A00, 0x0000000000001F00, 0x0000000000003800, 0x0000000000005600, 0x0000000000006800, 0x0000000000007D00,
    0x0000000000008A00, 0x0000000000008C00, 0x0000000000009F00, 0x000000000000AB00, 0x000000000000B700, 0x000000000000C300, 0x000000000000CD00,
    0x000000000000D600, 0x000000000000DD00, 0x000000000000E000, 0x000000000000FF00, 0x5000000000002C00, 0x4000000000002000, 0x0000140000018000,
    0x0000E80000018000, 0x0000480000018000, 0x0000280000018100, 0x0001080000008100, 0x00E000000000B800, 0x000030000000A800, 0x0010000000005200,
    0x0000000100000500, 0x0000000000010500, 0x0000000100001C00, 0x0014000000001D00, 0x0000003900002000,
    0x0002000000002200, 0xC00000000000C800, 0x000000000040C800] = true := by decide +kernel

/-- Words put together from the fields of R84 and the map (R97). -/
def controlWords : List (DWord × Instr) := [
    (0xFFFFFFFE00000000, .br ⟨false, 0, 0⟩ 0xFFFFFFFE), (0x0000000507030114, .brx ⟨false, 1, 4⟩ (.t 3) 5),
    (0x00000010000602A7, .call ⟨true, 2, 7⟩ (.v 6) 16), (0x000000304804030F, .callx ⟨false, 0, 15⟩ (.v 4) (.k 9)),
    (0x00000000070204F3, .ret ⟨true, 7, 3⟩ (.t 2)), (0x0000000000000500, .exit ⟨false, 0, 0⟩),
    (0x0000000900000614, .meet ⟨false, 1, 4⟩ 9), (0x0000000E071607A7, .loop ⟨true, 2, 7⟩ (.c 6) 14),
    (0x0000000E0FFF070F, .loopImm ⟨false, 0, 15⟩ 2047 14), (0x00000008000308F3, .loopv ⟨true, 7, 3⟩ (.v 3) 8),
    (0x0000000000000900, .lpop ⟨false, 0, 0⟩), (0xDEADBEEF00001814, .trap ⟨false, 1, 4⟩ 0xDEADBEEF),
    (0x00000000000019A7, .rfe ⟨true, 2, 7⟩), (0x0000000000001A0F, .yield ⟨false, 0, 15⟩), (0x0000000300001BF3, .bkpt ⟨true, 7, 3⟩ 3),
    (0x0000000000001C00, .nop ⟨false, 0, 0⟩)]
theorem test_decode_control : reads controlWords = true := by decide +kernel

/-- Words put together from the fields of R84 and the map (R98). -/
def integerWords : List (DWord × Instr) := [
    (0x2E2380C010012014, .add ⟨false, 1, 4⟩ .i32sat (.v 1) (.v 2) (.k 3) (.c 1)),
    (0x100800C0100121A7, .addc ⟨true, 2, 7⟩ true (.v 1) (.v 2) (.v 3) (.v 4)),
    (0x3001C3C01001220F, .sub ⟨false, 0, 15⟩ .n32sat (.v 1) (.v 2) (.t 15)),
    (0x000800C0100923F3, .subb ⟨true, 7, 3⟩ false (.v 9) (.v 2) (.v 3) (.v 4)),
    (0x1000000020022400, .neg ⟨false, 0, 0⟩ .i64 (.v 2) (.v 4)), (0x2000000020022514, .abs ⟨false, 1, 4⟩ .i32sat (.v 2) (.v 4)),
    (0x500001C0280226A7, .mul ⟨true, 2, 7⟩ .wideN (.v 2) (.v 5) (.v 7)),
    (0x100180800006270F, .mulhi ⟨false, 0, 15⟩ true (.v 6) (.v 0) (.k 2)),
    (0x101001C0280228F3, .mad ⟨true, 7, 3⟩ .wideI (.v 2) (.v 5) (.v 7) (.v 8)),
    (0x001201C028022900, .madhi ⟨false, 0, 0⟩ false (.v 2) (.v 5) (.v 7) (.v 9)),
    (0x3000018020022A14, .min ⟨false, 1, 4⟩ .n64 (.v 2) (.v 4) (.v 6)),
    (0x1001C7C020022BA7, .max ⟨true, 2, 7⟩ .n32 (.v 2) (.v 4) (.c 15)), (0x000000C010012C0F, .and ⟨false, 0, 15⟩ (.v 1) (.v 2) (.v 3)),
    (0x100000C010012CF3, .or ⟨true, 7, 3⟩ (.v 1) (.v 2) (.v 3)), (0x200000C010012C00, .xor ⟨false, 0, 0⟩ (.v 1) (.v 2) (.v 3)),
    (0x300000C010012C14, .andn ⟨false, 1, 4⟩ (.v 1) (.v 2) (.v 3)), (0x4000000010012CA7, .not ⟨true, 2, 7⟩ (.v 1) (.v 2)),
    (0x000000C010012D0F, .shl ⟨false, 0, 15⟩ (.v 1) (.v 2) (.v 3)), (0x100000C010012DF3, .shr ⟨true, 7, 3⟩ (.v 1) (.v 2) (.v 3)),
    (0x200000C010012D00, .sar ⟨false, 0, 0⟩ (.v 1) (.v 2) (.v 3)), (0x300000C010012D14, .rot ⟨false, 1, 4⟩ (.v 1) (.v 2) (.v 3)),
    (0x0000000010012EA7, .clz ⟨true, 2, 7⟩ (.v 1) (.v 2)), (0x1000000010012E0F, .popc ⟨false, 0, 15⟩ (.v 1) (.v 2)),
    (0x2000000010012EF3, .brev ⟨true, 7, 3⟩ (.v 1) (.v 2)), (0x100800C010012F00, .bfe ⟨false, 0, 0⟩ true (.v 1) (.v 2) (.v 3) (.v 4)),
    (0x000800C010013014, .bfi ⟨false, 1, 4⟩ (.v 1) (.v 2) (.v 3) (.v 4)),
    (0x6E2000C0100131A7, .lea ⟨true, 2, 7⟩ 6 (.v 1) (.v 2) (.v 3) (.c 0)),
    (0x100800C01001320F, .addmin ⟨false, 0, 15⟩ true (.v 1) (.v 2) (.v 3) (.v 4)),
    (0x000800C0100133F3, .addmax ⟨true, 7, 3⟩ false (.v 1) (.v 2) (.v 3) (.v 4)),
    (0x101200C010013400, .div ⟨false, 0, 0⟩ true (.v 1) (.v 2) (.v 3) 9),
    (0x001E00C010013514, .rem ⟨false, 1, 4⟩ false (.v 1) (.v 2) (.v 3) 15), (0x1000003026023607, .mov ⟨false, 0, 7⟩ true (.k 2) (.k 4)),
    (0x8000000105FF370F, .movi ⟨false, 0, 15⟩ (.v 1535) 0x80000001)]
theorem test_decode_integer : reads integerWords = true := by decide +kernel

/-- Words put together from the fields of R84 and the map (R99, R100). -/
def floatWords : List (DWord × Instr) := [
    (0x100000C0100140F3, .fadd ⟨true, 7, 3⟩ .rz (.v 1) (.v 2) (.v 3)),
    (0x200000C010014100, .fsub ⟨false, 0, 0⟩ .rdn (.v 1) (.v 2) (.v 3)),
    (0x300000C010014214, .fmul ⟨false, 1, 4⟩ .rup (.v 1) (.v 2) (.v 3)),
    (0x200800C0100143A7, .ffma ⟨true, 2, 7⟩ .rdn (.v 1) (.v 2) (.v 3) (.v 4)),
    (0x000000C01001440F, .fmin ⟨false, 0, 15⟩ (.v 1) (.v 2) (.v 3)), (0x000000C0100145F3, .fmax ⟨true, 7, 3⟩ (.v 1) (.v 2) (.v 3)),
    (0x0000000010014600, .fabs ⟨false, 0, 0⟩ (.v 1) (.v 2)), (0x0000000010014714, .fneg ⟨false, 1, 4⟩ (.v 1) (.v 2)),
    (0x000A0000100148A7, .frcp ⟨true, 2, 7⟩ .rne (.v 1) (.v 2) 5), (0x100C00001001490F, .frsq ⟨false, 0, 15⟩ .rz (.v 1) (.v 2) 6),
    (0x200E000010014AF3, .fsqrt ⟨true, 7, 3⟩ .rdn (.v 1) (.v 2) 7),
    (0x300200C010014B00, .fdiv ⟨false, 0, 0⟩ .rup (.v 1) (.v 2) (.v 3) 1), (0x0000000010014C14, .fexp2 ⟨false, 1, 4⟩ (.v 1) (.v 2) 0),
    (0x0002000010014DA7, .flog2 ⟨true, 2, 7⟩ (.v 1) (.v 2) 1), (0x0004000010014E0F, .fsin ⟨false, 0, 15⟩ (.v 1) (.v 2) 2),
    (0x0006000010014FF3, .fcos ⟨true, 7, 3⟩ (.v 1) (.v 2) 3), (0x0000000010015000, .frint ⟨false, 0, 0⟩ (.v 1) (.v 2)),
    (0x1000000010015014, .ftrunc ⟨false, 1, 4⟩ (.v 1) (.v 2)), (0x20000000100150A7, .ffloor ⟨true, 2, 7⟩ (.v 1) (.v 2)),
    (0x300000001001500F, .fceil ⟨false, 0, 15⟩ (.v 1) (.v 2)), (0x00000000100151F3, .fclass ⟨true, 7, 3⟩ (.v 1) (.v 2)),
    (0x1523000048045200, .cvt ⟨false, 0, 0⟩ (.v 4) (.v 9) .i64 .f16 .rz 1),
    (0x500000C010015314, .hadd2 ⟨false, 1, 4⟩ .bf16 .rz (.v 1) (.v 2) (.v 3)),
    (0x200000C0100154A7, .hmul2 ⟨true, 2, 7⟩ .f16 .rdn (.v 1) (.v 2) (.v 3)),
    (0x400800C01001550F, .hfma2 ⟨false, 0, 15⟩ .bf16 .rne (.v 1) (.v 2) (.v 3) (.v 4))]
theorem test_decode_float : reads floatWords = true := by decide +kernel

/-- Words put together from the fields of R84 and the map (R101). -/
def packedWords : List (DWord × Instr) := [
    (0x700800C0100160F3, .dot2 ⟨true, 7, 3⟩ .f16 .rup (.v 1) (.v 2) (.v 3) (.v 4)),
    (0x500800C010016100, .dot4f ⟨false, 0, 0⟩ true .rz (.v 1) (.v 2) (.v 3) (.v 4)),
    (0x100000C010016214, .dot4i ⟨false, 1, 4⟩ true (.v 1) (.v 2) (.v 3)),
    (0x200800C0100163A7, .dot8f ⟨true, 2, 7⟩ .rdn (.v 1) (.v 2) (.v 3) (.v 4)),
    (0x000000C01001640F, .dot8i ⟨false, 0, 15⟩ false (.v 1) (.v 2) (.v 3)),
    (0xDE2600C0100165F3, .pk ⟨true, 7, 3⟩ .fn4 (.v 1) (.v 2) (.v 3) (.c 3)),
    (0xE00000C010016600, .upk ⟨false, 0, 0⟩ .i4 (.v 1) (.v 2) (.v 3)),
    (0x500000C010016714, .scl ⟨false, 1, 4⟩ true .rz (.v 1) (.v 2) (.v 3))]
theorem test_decode_packed : reads packedWords = true := by decide +kernel

/-- Words put together from the fields of R84 and the map (R102). -/
def laneWords : List (DWord × Instr) := [
    (0x501400C0100370A7, .setpI ⟨true, 2, 7⟩ .ge 3 (.v 2) (.v 3) ⟨true, 2⟩),
    (0x100180C01007710F, .setpN ⟨false, 0, 15⟩ .ne 7 (.v 2) (.k 3) ⟨false, 0⟩),
    (0x700A00C0100172F3, .setpF ⟨true, 7, 3⟩ .nan 1 (.v 2) (.v 3) ⟨false, 5⟩),
    (0x0000018060017300, .pand ⟨false, 0, 0⟩ 1 ⟨true, 4⟩ ⟨false, 6⟩), (0x1000018060027314, .por ⟨false, 1, 4⟩ 2 ⟨true, 4⟩ ⟨false, 6⟩),
    (0x20000180600373A7, .pxor ⟨true, 2, 7⟩ 3 ⟨true, 4⟩ ⟨false, 6⟩), (0x300000004004730F, .pnot ⟨false, 0, 15⟩ 4 ⟨true, 0⟩),
    (0x10120180200274F3, .sel ⟨true, 7, 3⟩ true (.v 2) (.v 4) (.v 6) ⟨true, 1⟩),
    (0x100800C010017500, .lsh ⟨false, 0, 0⟩ true (.v 1) (.v 2) (.v 3) (.v 4)),
    (0x000000C010017614, .lxor ⟨false, 1, 4⟩ (.v 1) (.v 2) (.v 3)), (0x000000C0100177A7, .lbc ⟨true, 2, 7⟩ (.v 1) (.v 2) (.v 3)),
    (0x000000C01001780F, .lrot ⟨false, 0, 15⟩ (.v 1) (.v 2) (.v 3)), (0x20000000100179F3, .qswp ⟨true, 7, 3⟩ .d (.v 1) (.v 2)),
    (0x000000C010017A00, .qbc ⟨false, 0, 0⟩ (.v 1) (.v 2) (.v 3)), (0x1000000058057B14, .vote ⟨false, 1, 4⟩ (.all 5) ⟨true, 3⟩),
    (0x20000000181D7BA7, .vote ⟨true, 2, 7⟩ (.bal (.v 29)) ⟨false, 3⟩),
    (0xC000000010017C0F, .lscan ⟨false, 0, 15⟩ .maxN true (.v 1) (.v 2))]
theorem test_decode_lane : reads laneWords = true := by decide +kernel

/-- Words put together from the fields of R84 and the map (R103 to R107). -/
def memoryWords : List (DWord × Instr) := [
    (0xFFF30440100180F3, .ldS ⟨true, 7, 3⟩ .b16 true none (.v 1) (.v 2) 0xFFF 3),
    (0x0070900010048100, .stS ⟨false, 0, 0⟩ .b128 (some .clu) (.v 2) 7 (.v 4)),
    (0x00242C0028028214, .ldH ⟨false, 1, 4⟩ .b64 false (some .team) (.v 2) (.v 5) 2 4),
    (0x0020C030280283A7, .stH ⟨true, 2, 7⟩ .b8 (some .dev) (.k 5) 2 (.v 2)),
    (0x002500402802840F, .ldK ⟨false, 0, 15⟩ .b8 true (.v 2) (.v 5) 2 5), (0x00300838800285F3, .stK ⟨true, 7, 3⟩ .b32 (.c 0) 3 (.v 2)),
    (0x0016680028028600, .ldC ⟨false, 0, 0⟩ .b32 false (some .clu) (.v 2) (.v 5) 1 6),
    (0x0010880028028714, .stC ⟨false, 1, 4⟩ .b32 (some .clu) (.v 5) 1 (.v 2)),
    (0x0017B0304E048807, .ldu ⟨false, 0, 7⟩ .b128 (some .dev) (.k 4) (.k 9) 1 7),
    (0x001800804810890F, .ldt ⟨false, 0, 15⟩ 2 (.v 16) (.v 9) 1 8),
    (0x00410E00100498F3, .atomS ⟨true, 7, 3⟩ .xchg true false (.v 2) 4 (.v 4) 1),
    (0x00421A4010049900, .atomH ⟨false, 0, 0⟩ .fadd false true (.v 2) 4 (.v 4) 2),
    (0x00431C4010049A14, .atomC ⟨false, 1, 4⟩ .minI true true (.v 2) 4 (.v 4) 3),
    (0x0040080010049BA7, .redS ⟨true, 2, 7⟩ .add false false (.v 2) 4 (.v 4)),
    (0x00400AC010049C0F, .redH ⟨false, 0, 15⟩ .fmax false false (.v 2) 4 (.v 4)),
    (0x00400DC010049DF3, .redC ⟨true, 7, 3⟩ .xor true false (.v 2) 4 (.v 4)),
    (0x00491C4010089E00, .cas ⟨false, 0, 0⟩ .h true true (.v 2) 4 (.v 8) 9), (0x000010400000A814, .fence ⟨false, 1, 4⟩ .acq .clu),
    (0x00100C001711A9A7, .barInit ⟨true, 2, 7⟩ (.v 2) 1 (.c 1)), (0x00130C401004A90F, .barArrive ⟨false, 0, 15⟩ (.v 4) (.v 2) 1 3),
    (0x00100CB04003A9F3, .barWait ⟨true, 7, 3⟩ (.k 8) 1 (.v 3)), (0x001010001004AA00, .arrInit ⟨false, 0, 0⟩ (.v 2) 1 (.v 4)),
    (0x001010401004AA14, .arrAdd ⟨false, 1, 4⟩ (.v 2) 1 (.v 4)), (0x001010801004AAA7, .arrWait ⟨true, 2, 7⟩ (.v 2) 1 (.v 4)),
    (0x001610C01004AA0F, .arrRead ⟨false, 0, 15⟩ (.v 4) (.v 2) 1 6), (0x000000301715B0F3, .ereg ⟨true, 7, 3⟩ (.k 2) (.c 5)),
    (0x001010001005B100, .esamp ⟨false, 0, 0⟩ (.v 2) 1 (.v 5)), (0x001010401006B114, .esampW ⟨false, 1, 4⟩ (.v 2) 1 (.v 6)),
    (0x001010001004B2A7, .esampB ⟨true, 2, 7⟩ (.v 2) 1 (.v 4)), (0x001211401006B30F, .eld ⟨false, 0, 15⟩ (.v 6) (.v 2) 1 5 2),
    (0x000000303607B4F3, .edecay ⟨true, 7, 3⟩ (.k 6) (.k 7)), (0x000000303000B500, .eflush ⟨false, 0, 0⟩ (.k 6)),
    (0x00000038E000B614, .eclr ⟨false, 1, 4⟩ (.c 12))]
theorem test_decode_memory : reads memoryWords = true := by decide +kernel

/-- Words put together from the fields of R84 and the map (R108, R109). -/
def engineWords : List (DWord × Instr) := [
    (0x008E0100C00FB8A7, .mma ⟨true, 2, 7⟩ .i8 15 (.v 24) 4 7 false), (0x000600006000B90F, .cvdeclSet ⟨false, 0, 15⟩ 3 ⟨true, 4⟩),
    (0x010400000000B9F3, .cvdeclAdd ⟨true, 7, 3⟩ 2 ⟨false, 0⟩), (0x000000306005BA00, .xres ⟨false, 0, 0⟩ 5 (.k 12)),
    (0x000000000006BB14, .xrel ⟨false, 1, 4⟩ 6), (0x910001402007BCA7, .xld ⟨true, 2, 7⟩ true 7 (.v 4) (.v 5) 9),
    (0x000181702008BD0F, .xsc ⟨false, 0, 15⟩ 8 (.k 4) (.k 5)), (0x000000000007BEF3, .accClr ⟨true, 7, 3⟩ 7),
    (0x210000002820BF00, .accMv ⟨false, 0, 0⟩ true (.v 32) 5 2), (0x400000304003C014, .accLd ⟨false, 1, 4⟩ false 3 (.k 8) 4),
    (0x210000304001C1A7, .accSt ⟨true, 2, 7⟩ true (.k 8) 1 2), (0x100000000002C20F, .mstat ⟨false, 0, 15⟩ (.v 2) 1),
    (0x1001C4304000C8F3, .copyG2s ⟨true, 7, 3⟩ true false .team none (.k 8) (.c 0)),
    (0x600180F04009C900, .copyS2g ⟨false, 0, 0⟩ false true .clu (some 1) (.k 8) (.k 3)),
    (0x0001C4304000CA14, .copyS2s ⟨false, 1, 4⟩ false false .team none (.k 8) (.c 0)),
    (0xB00180F0400BCBA7, .copyDie ⟨true, 2, 7⟩ true true .dev (some 3) (.k 8) (.k 3)),
    (0x8001C4304000CC0F, .copyNet ⟨false, 0, 15⟩ false false .dev none (.k 8) (.c 0)),
    (0x000000008000D0F3, .cpcLat ⟨true, 7, 3⟩ none (.v 16)), (0x000000010009D100, .cpcGlz ⟨false, 0, 0⟩ (some 1) (.v 32)),
    (0x000000008000D214, .cpcCut ⟨false, 1, 4⟩ none (.v 16)), (0x00000001000BD3A7, .cpcIcg ⟨true, 2, 7⟩ (some 3) (.v 32)),
    (0x000181702000D40F, .token ⟨false, 0, 15⟩ (.k 4) (.k 5)), (0x000000004800D5F3, .tskip ⟨true, 7, 3⟩ (.v 9)),
    (0x00018041000AD800, .spawn ⟨false, 0, 0⟩ (some 2) (.v 32) (.k 1)), (0x000500301010D914, .tget ⟨false, 1, 4⟩ (.v 16) (.k 2) 5),
    (0x000000008000DAA7, .tdone ⟨true, 2, 7⟩ (.v 16)), (0x00BF00000000DB0F, .claim ⟨false, 0, 15⟩ 191),
    (0x000800400001DBF3, .claimTry ⟨true, 7, 3⟩ 1 8), (0x000400000000DC00, .surr ⟨false, 0, 0⟩ 4)]
theorem test_decode_engine : reads engineWords = true := by decide +kernel

/-- Words put together from the fields and the table of R347. -/
theorem test_decode_bytecodes : readsByte [
    (0x0501FFFF, .bMovi 2 0x1FFFF), (0x09801234, .bMovh 3 0x1234), (0x0CA60000, .bAdd 1 2 3), (0x10A60000, .bSub 1 2 3),
    (0x14A60000, .bAnd 1 2 3), (0x18A60000, .bOr 1 2 3), (0x1E400001, .bAddi 4 4 1), (0x20A0003F, .bShl 1 2 63),
    (0x24A00010, .bShr 1 2 16), (0x28800038, .bLdp 1 7), (0x2E300008, .bLdw 4 3 8), (0x32300008, .bStw 3 4 8),
    (0x36140005, .bSkip .geu 1 2 5), (0x380000FF, .bLoop 255), (0x3C000000, .bEndl), (0x40140000, .bLaunch 1 2), (0x44000000, .bWaitl),
    (0x48380000, .bIb 3 4), (0x4C600000, .bTkt 6), (0x50000000, .bEndp)] = true := by decide +kernel

/-- Words that the manual writes out among its worked encodings (chapters 4 to 8, 12, 15, 17 to 21). -/
theorem test_decode_worked : reads [
    (0x0001003888001E00, .mts ⟨false, 0, 0⟩ .mode (.c 1)), (0x0010000000031D00, .mfs ⟨false, 0, 0⟩ (.v 3) .clockLo),
    (0x0E21C6F8D8002004, .add ⟨false, 0, 4⟩ .i32 (.v 0) (.c 11) (.c 11) (.c 0)),
    (0x0E21C44008037500, .lsh ⟨false, 0, 0⟩ false (.v 3) (.v 1) (.c 1) (.c 0)),
    (0x1001808000062700, .mulhi ⟨false, 0, 0⟩ true (.v 6) (.v 0) (.k 2)), (0x0000000500001810, .trap ⟨false, 1, 0⟩ 5),
    (0x0000002B08050700, .loopImm ⟨false, 0, 0⟩ 5 43), (0x0000008038087706, .lbc ⟨false, 0, 6⟩ (.v 8) (.v 7) (.v 2)),
    (0x0103080030018000, .ldS ⟨false, 0, 0⟩ .b32 false none (.v 1) (.v 6) 16 3),
    (0x00011A4010049800, .atomS ⟨false, 0, 0⟩ .fadd false true (.v 2) 0 (.v 4) 1),
    (0x00010000A8028900, .ldt ⟨false, 0, 0⟩ 0 (.v 2) (.v 21) 0 1), (0x00000CB04003A900, .barWait ⟨false, 0, 0⟩ (.k 8) 0 (.v 3)),
    (0x00101040600DAA40, .arrAdd ⟨false, 4, 0⟩ (.v 12) 1 (.v 13)), (0x000211404010B330, .eld ⟨false, 3, 0⟩ (.v 16) (.v 8) 0 5 2),
    (0x000000303607B420, .edecay ⟨false, 2, 0⟩ (.k 6) (.k 7)), (0x00B200C08002B800, .mma ⟨false, 0, 0⟩ .fn4 2 (.v 16) 3 1 true),
    (0x300001402002BC00, .xld ⟨false, 0, 0⟩ false 2 (.v 4) (.v 5) 3), (0x210000304001C100, .accSt ⟨false, 0, 0⟩ true (.k 8) 1 2),
    (0x90018130400BC800, .copyG2s ⟨false, 0, 0⟩ true false .dev (some 3) (.k 8) (.k 4)),
    (0x000000010009D300, .cpcIcg ⟨false, 0, 0⟩ (some 1) (.v 32)), (0x00000000A800D5C0, .tskip ⟨true, 4, 0⟩ (.v 21)),
    (0x000500301010D900, .tget ⟨false, 0, 0⟩ (.v 16) (.k 2) 5), (0x80000000B8167C00, .lscan ⟨false, 0, 0⟩ .add true (.v 22) (.v 23)),
    (0x20000000201D7B00, .vote ⟨false, 0, 0⟩ (.bal (.v 29)) ⟨false, 4⟩),
    (0x03000C0048008100, .stS ⟨false, 0, 0⟩ .b64 none (.v 9) 48 (.v 0))] = true := by decide +kernel
/-! ### Small states -/

/-- The clauses of a code space: address and word. -/
def codeMem (l : List (Nat × DWord)) : Memory := l.foldl (fun m p => m.writeN p.1 (dwordBytes p.2)) []
/-- A header of one instruction with ENTRY, and one without. -/
abbrev entryHdr : DWord := 0xC1A5000000000080
/-- The same without ENTRY. -/
abbrev plainHdr : DWord := 0xC1A5000000000000
/-- Clauses of one instruction at 0x1000, 0x1010, 0x1020 and 0x1030; `second` heads that at 0x1010. -/
def code4 (second : DWord) : Memory := codeMem [(0x1000, entryHdr), (0x1010, second), (0x1020, entryHdr), (0x1030, entryHdr)]
/-- A thread that stands in the current block at 0x1000 with V registers; P1 is true, P2 to P7 are false. -/
def thr (v : RegMap) : Thread := { Thread.blank (mkPc 0x1000 0) with v := v, p := 0x03 }
/-- Context 1 and its team 7 on die 0, core 0, which can trap to 0x1030: one group whose threads 0 and 1 stream the
instruction at 0x1000, while the others have exited. The context owns the granules 0 to 31 of core 0, the upper 16 of them
for estimators. -/
def mk (second : DWord) (v0 v1 k : RegMap) : State :=
  let g : Group := { Group.blank 0 0 0 192 8 0 (thr v0 :: thr v1 :: List.replicate 30 (thr []).asExited) with k := k }
  { State.reset with
    contexts := [Context.blank 1 (code4 second)],
    teams := [{ Team.blank 7 1 (.dispatch 1 0) (mkPc 0x1000 0) [g] with handler := mkPc 0x1030 0, shsize := 4096, stackSize := 6400 }],
    regionTab := [⟨0, 0, 0, 1, false, 0, 15⟩, ⟨0, 0, 1, 1, true, 16, 31⟩], tags := [⟨0, 0, 0, 2048, 1, false⟩], cur := .group 7 0 }
/-- The block ends after the instruction. -/
def st (v0 v1 k : RegMap) : State := mk entryHdr v0 v1 k
/-- The block goes on after it. -/
def on (v0 v1 k : RegMap) : State := mk plainHdr v0 v1 k
/-- All registers zero. -/
def st0 : State := st [] [] []
/-- Every group of a state changed. -/
def upG (s : State) (f : Group → Group) : State := { s with teams := s.teams.map (fun t => { t with groups := t.groups.map f }) }
/-- Every team of a state changed. -/
def upT (s : State) (f : Team → Team) : State := { s with teams := s.teams.map f }
/-- Every thread that has not exited changed. -/
def upH (s : State) (f : Thread → Thread) : State :=
  upG s (fun g => { g with threads := g.threads.map (fun th => if th.exited then th else f th) })

/-- The instruction begins in the state, in surroundings that satisfy `p`: env? answers them, the group is ready, no thread
reads early, nothing waits on a carve-out that is gone, no streamed thread has exited, the instruction is well formed, and
a thread is live. -/
def begins (s : State) (i : Instr) (p : Env → Hdr → Bool := fun _ _ => true) : Bool :=
  match env? s, hdrOf i with
  | some e, some h => e.ready i && e.calm i h && s.settled && e.sound && wellFormed i && !(e.live i h).isEmpty && p e h
  | _, _ => false
/-- Each of the instructions does. -/
def beginAll (s : State) (l : List Instr) : Bool := l.all (fun i => begins s i)
/-- It begins in a group whose threads can trap, with no thread parked, and a live thread satisfies `p`. -/
def trapping (s : State) (i : Instr) (p : Env → Nat → Bool) : Bool :=
  begins s i (fun e h => e.canTrap && s.parked.isEmpty && (e.live i h).any (p e))

/-! ### Single steps -/

/-- The step answers a next state of which `p` holds. -/
def after (i : Instr) (s : State) (p : State → Bool) : Bool := match exec i s with | .next t => p t | _ => false
/-- Register `c` of thread `n` of the group is `w`, as is NFLAGS. -/
def reg (n c : Nat) (w : Word) (fl : FlagBits := 0) (t : State) : Bool := t.regOf 7 0 n c == some w && t.flagsOf 7 0 == some fl
/-- Predicate `q` of thread `n`. -/
def prd (n q : Nat) (b : Bool) (t : State) : Bool := t.predOf 7 0 n q == some b

/-- R142: a 32-bit sum wraps; a saturating one clamps and raises SAT. -/
theorem test_add : after (.add h0 .i32 (.v 2) (.v 0) (.v 1) (.c 1)) (st [(0, 0xFFFFFFFF), (1, 1)] [] []) (reg 0 2 1) &&
    after (.add h0 .i32sat (.v 2) (.v 0) (.v 1) (.c 0)) (st [(0, 0x7FFFFFFF), (1, 1)] [] []) (reg 0 2 0x7FFFFFFF 0x20) = true := by decide +kernel
/-- R142: the 64-bit sum carries into the upper register; the uniform form writes K. -/
theorem test_add_wide : after (.add h0 .i64 (.v 2) (.v 0) (.v 4) (.c 0)) (st [(0, 0xFFFFFFFF), (4, 1)] [] []) (reg 0 3 1) &&
    after (.add h0 .i32 (.k 2) (.k 0) (.k 1) (.c 0)) (st [] [] [(0, 3), (1, 4)]) (reg 0 1538 7) = true := by decide +kernel
/-- R143: carry out and borrow out. -/
theorem test_carry : after (.addc h0 true (.v 2) (.v 0) (.v 1) (.c 1)) (st [(0, 0xFFFFFFFF)] [] []) (reg 0 2 1) &&
    after (.subb h0 true (.v 2) (.v 0) (.v 1) (.c 1)) (st [] [] []) (reg 0 2 1) &&
    after (.subb h0 false (.v 2) (.v 0) (.v 1) (.c 1)) (st [] [] []) (reg 0 2 0xFFFFFFFF) = true := by decide +kernel
/-- R142: the negative of the least number wraps to itself or clamps; sub below 0 clamps to 0 unsigned. -/
theorem test_sub_neg_abs : after (.neg h0 .i32sat (.v 2) (.v 0)) (st [(0, 0x80000000)] [] []) (reg 0 2 0x7FFFFFFF 0x20) &&
    after (.abs h0 .i32 (.v 2) (.v 0)) (st [(0, 0x80000000)] [] []) (reg 0 2 0x80000000) &&
    after (.sub h0 .n32sat (.v 2) (.v 0) (.v 1)) (st [(1, 1)] [] []) (reg 0 2 0 0x20) = true := by decide +kernel
/-- R144: the high and low halves of (−1) × 2, signed and unsigned; d + a × b. -/
theorem test_mul : after (.mul h0 .wideI (.v 2) (.v 0) (.v 1)) (st [(0, 0xFFFFFFFF), (1, 2)] [] []) (fun t => reg 0 2 0xFFFFFFFE 0 t && reg 0 3 0xFFFFFFFF 0 t) &&
    after (.mulhi h0 true (.v 2) (.v 0) (.v 1)) (st [(0, 0xFFFFFFFF), (1, 2)] [] []) (reg 0 2 1) &&
    after (.madhi h0 false (.v 2) (.v 0) (.v 1) (.c 6)) (st [(0, 0xFFFFFFFF), (1, 2)] [] []) (reg 0 2 0x3FFFFFFF) &&
    after (.mad h0 .i32 (.v 2) (.v 0) (.v 1) (.c 1)) (st [(0, 5), (1, 7)] [] []) (reg 0 2 36) = true := by decide +kernel
/-- R145, R146: signed and unsigned order differ; shifts by the width or more; bit counts. -/
theorem test_bits : after (.min h0 .i32 (.v 2) (.v 0) (.v 1)) (st [(0, 0xFFFFFFFF), (1, 1)] [] []) (reg 0 2 0xFFFFFFFF) &&
    after (.max h0 .n32 (.v 2) (.v 0) (.v 1)) (st [(0, 0xFFFFFFFF), (1, 1)] [] []) (reg 0 2 0xFFFFFFFF) &&
    after (.andn h0 (.v 2) (.v 0) (.v 1)) (st [(0, 0xFF), (1, 0x0F)] [] []) (reg 0 2 0xF0) &&
    after (.shl h0 (.v 2) (.c 1) (.v 1)) (st [(1, 32)] [] []) (reg 0 2 0) &&
    after (.sar h0 (.v 2) (.v 0) (.v 1)) (st [(0, 0x80000000), (1, 40)] [] []) (reg 0 2 0xFFFFFFFF) &&
    after (.rot h0 (.v 2) (.v 0) (.v 1)) (st [(0, 0x80000001), (1, 33)] [] []) (reg 0 2 3) &&
    after (.clz h0 (.v 2) (.v 0)) st0 (reg 0 2 32) && after (.popc h0 (.v 2) (.c 2)) st0 (reg 0 2 32) &&
    after (.brev h0 (.v 2) (.c 1)) st0 (reg 0 2 0x80000000) = true := by decide +kernel
/-- R147, R148, R149: a signed field that would pass bit 31, a field inserted, a scaled address, a sum and its minimum. -/
theorem test_fields : after (.bfe h0 true (.v 2) (.v 0) (.v 1) (.v 3)) (st [(0, 0xF0000000), (1, 28), (3, 8)] [] []) (reg 0 2 0xFFFFFFFF) &&
    after (.bfi h0 (.v 2) (.v 0) (.c 2) (.v 1)) (st [(1, 0x0804)] [] []) (reg 0 2 0xFFFFF00F) &&
    after (.lea h0 3 (.v 2) (.v 0) (.v 1) (.c 1)) (st [(0, 0x100), (1, 2)] [] []) (reg 0 2 0x111) &&
    after (.addmin h0 false (.v 2) (.v 0) (.v 1) (.v 3)) (st [(0, 5), (1, 6), (3, 0xFFFFFFFF)] [] []) (reg 0 2 0xFFFFFFFF) &&
    after (.addmax h0 true (.v 2) (.v 0) (.v 1) (.c 0)) (st [(0, 0xFFFFFFFF), (1, 6)] [] []) (reg 0 2 0xFFFFFFFF 0x20) = true := by decide +kernel
/-- R64 to R66, R152, R153: 1 + 2^−24 rounds to even with NX; ∞ − ∞ is the default NaN with NV; 2^127 × 2 overflows with OF
and NX; the lesser of the zeros is −0. -/
theorem test_float : after (.fadd h0 .rne (.v 2) (.v 0) (.v 1)) (st [(0, 0x3F800000), (1, 0x33800000)] [] []) (reg 0 2 0x3F800000 0x10) &&
    after (.fadd h0 .rup (.v 2) (.v 0) (.v 1)) (st [(0, 0x3F800000), (1, 0x33800000)] [] []) (reg 0 2 0x3F800001 0x10) &&
    after (.fsub h0 .rne (.v 2) (.c 12) (.c 12)) st0 (reg 0 2 0x7FC00000 0x01) &&
    after (.fmul h0 .rne (.v 2) (.v 0) (.c 6)) (st [(0, 0x7F000000)] [] []) (reg 0 2 0x7F800000 0x14) &&
    after (.ffma h0 .rne (.v 2) (.c 6) (.c 6) (.c 4)) st0 (reg 0 2 0x40400000) &&
    after (.fmin h0 (.v 2) (.c 0) (.c 14)) st0 (reg 0 2 0x80000000) && after (.fneg h0 (.v 2) (.c 13)) st0 (reg 0 2 0xFFC00000) = true := by decide +kernel
/-- R157, R159: 2.5 to an integer, to even or up, without NX; 16,777,217 to binary32; 65,535 to binary16 overflows; 1.0 to FP16. -/
theorem test_convert : after (.frint h0 (.v 2) (.v 0)) (st [(0, 0x40200000)] [] []) (reg 0 2 0x40000000) &&
    after (.fceil h0 (.v 2) (.v 0)) (st [(0, 0x40200000)] [] []) (reg 0 2 0x40400000) &&
    after (.cvt h0 (.v 2) (.v 0) .f32 .i32 .rne 0) (st [(0, 16777217)] [] []) (reg 0 2 0x4B800000 0x10) &&
    after (.cvt h0 (.v 2) (.v 0) .f16 .n32 .rne 0) (st [(0, 65535)] [] []) (reg 0 2 0x7C00 0x14) &&
    after (.cvt h0 (.v 2) (.c 3) .f16 .f32 .rne 0) st0 (reg 0 2 0x3C00) &&
    after (.cvt h0 (.v 2) (.v 0) .i32 .f32 .rz 0) (st [(0, 0xC0200000)] [] []) (reg 0 2 0xFFFFFFFE 0x10) = true := by decide +kernel
/-- R160, R161, R164: two halves at a time; four byte products and the addend; a row scaled by BF16 1.5. -/
theorem test_packed : after (.hadd2 h0 .f16 .rne (.v 2) (.v 0) (.v 1)) (st [(0, 0x3C004000), (1, 0x3C003C00)] [] []) (reg 0 2 0x40004200) &&
    after (.dot4i h0 false (.v 2) (.v 0) (.v 1)) (st [(0, 0xFF010203), (1, 0x01010101), (2, 10)] [] []) (reg 0 2 15) &&
    after (.dot8i h0 true (.v 2) (.v 0) (.v 1)) (st [(0, 0xF0000001), (1, 0x20000003)] [] []) (reg 0 2 33) &&
    after (.sel h0 true (.v 2) (.v 4) (.v 6) ⟨true, 1⟩) (st [(4, 1), (5, 2), (6, 3), (7, 4)] [] []) (reg 0 3 4) = true := by decide +kernel
/-- R165, R166, R31: comparisons; a NaN is unordered and equal to nothing, with NV only where the rule says; P0 stays true. -/
theorem test_predicates : after (.setpI h0 .lt 2 (.v 0) (.c 0) ⟨false, 0⟩) (st [(0, 0xFFFFFFFF)] [] []) (prd 0 2 true) &&
    after (.setpN h0 .lt 2 (.v 0) (.c 0) ⟨false, 0⟩) (st [(0, 0xFFFFFFFF)] [] []) (prd 0 2 false) &&
    after (.setpF h0 .nan 2 (.c 13) (.c 0) ⟨false, 0⟩) st0 (prd 0 2 true) && after (.setpF h0 .eq 1 (.c 13) (.c 13) ⟨false, 0⟩) st0 (prd 0 1 false) &&
    after (.pxor h0 3 ⟨false, 1⟩ ⟨true, 2⟩) st0 (prd 0 3 false) && after (.pnot h0 0 ⟨false, 1⟩) st0 (prd 0 0 true) &&
    after (.pand h0 1 ⟨false, 0⟩ ⟨false, 2⟩) st0 (prd 0 1 false) = true := by decide +kernel
/-- R169 to R173: exchange between threads 0 and 1; a lane whose thread has exited reads 0; ballot and exclusive scan. -/
theorem test_lanes : after (.lxor h0 (.v 2) (.v 0) (.c 1)) (st [(0, 5)] [(0, 6)] []) (fun t => reg 0 2 6 0 t && reg 1 2 5 0 t) &&
    after (.lsh h0 false (.v 2) (.v 0) (.c 1) (.c 2)) (st [(0, 5)] [(0, 6)] []) (fun t => reg 0 2 0xFFFFFFFF 0 t && reg 1 2 5 0 t) &&
    after (.lrot h0 (.v 2) (.v 0) (.v 1)) (st [(0, 5), (1, 3)] [] []) (reg 0 2 0) && after (.qswp h0 .h (.v 2) (.v 0)) (st [] [(0, 9)] []) (reg 0 2 9) &&
    after (.vote h0 (.bal (.v 2)) ⟨false, 0⟩) st0 (reg 0 2 3) && after (.vote h0 (.all 3) ⟨false, 2⟩) st0 (prd 0 3 false) &&
    after (.lscan h0 .add true (.v 2) (.v 0)) (st [(0, 5)] [(0, 6)] []) (fun t => reg 0 2 0 0 t && reg 1 2 5 0 t) = true := by decide +kernel
/-- R134, R135: mfs of GROUPID's and COREID's views; mts of MODE. -/
theorem test_system : after (.mts h0 .mode (.c 1)) st0 (fun t => (t.group? 7 0).map Group.ftz == some true) &&
    after (.mts h0 .nflags (.c 2)) st0 (fun t => t.flagsOf 7 0 == some 0x3F) && after (.mfs h0 (.v 2) .ctxid) st0 (reg 0 2 1) = true := by decide +kernel

/-- The results that an operation of the group will write. -/
def pend (slot : Nat) (w : Nat × Nat × Word) (t : State) : Bool :=
  match t.opAt 7 0 slot with | some o => o.writes.contains w | none => false
/-- A byte of memory. -/
def byte (l : Loc) (b : Byte) (t : State) : Bool := t.readByte l 0 == b
/-- R150, R155: quotients toward zero, a quotient by 0, and 1 ÷ 0 with DZ, leave with the slot. -/
theorem test_sequence : after (.div h0 false (.v 2) (.v 0) (.v 1) 3) (st [(0, 0xFFFFFFF9), (1, 2)] [] []) (pend 3 (0, 2, 0xFFFFFFFD)) &&
    after (.rem h0 false (.v 2) (.v 0) (.v 1) 3) (st [(0, 0xFFFFFFF9), (1, 2)] [] []) (pend 3 (0, 2, 0xFFFFFFFF)) &&
    after (.div h0 true (.v 2) (.c 1) (.c 0) 3) st0 (pend 3 (0, 2, 0xFFFFFFFF)) &&
    after (.frcp h0 .rne (.v 2) (.c 0) 3) st0 (fun t => pend 3 (0, 2, 0x7F800000) t && (t.opAt 7 0 3).map PendOp.flags == some 0x02) &&
    after (.fsqrt h0 .rne (.v 2) (.v 0) 3) (st [(0, 0x40800000)] [] []) (pend 3 (0, 2, 0x40000000)) &&
    after (.fdiv h0 .rne (.v 2) (.c 3) (.v 0) 3) (st [(0, 0x40400000)] [] []) (pend 3 (0, 2, 0x3EAAAAAB)) &&
    after (.fexp2 h0 (.v 2) (.c 6) 3) st0 (pend 3 (0, 2, 0x40800000)) = true := by decide +kernel
/-- R176, R179: little-endian bytes; a load extends its sign; offsets are scaled by the size. -/
theorem test_memory : after (.stK h0 .b32 (.v 0) 1 (.v 1)) (st [(0, 8), (1, 0xDDCCBBAA)] [(0, 64)] []) (byte (.st 7 0 12) 0xAA) &&
    after (.stK h0 .b16 (.v 0) 0 (.v 1)) (st [(0, 8), (1, 0xDDCCBBAA)] [(0, 64)] []) (fun t => byte (.st 7 0 9) 0xBB t && byte (.st 7 0 10) 0 t) &&
    after (.stK h0 .b8 (.v 0) 0xFFF (.v 1)) (st [(0, 8), (1, 0xDDCCBBAA)] [(0, 64)] []) (byte (.st 7 0 7) 0xAA) &&
    after (.ldS h0 .b8 true none (.v 2) (.c 0) 5 3) { st0 with scratch := [(5, 0x80)] } (pend 3 (0, 2, 0xFFFFFF80)) &&
    after (.ldu h0 .b32 none (.k 2) (.k 0) 0 4) { st [] [] [(0, 4)] with scratch := [(5, 0x80)] } (pend 4 (32, 1538, 0x8000)) = true := by decide +kernel
/-- R186, R188: the old value returns; threads of one word act in ascending index; compare and swap. -/
theorem test_atomics : after (.atomS h0 .xchg false false (.c 0) 0 (.v 2) 2) { st [(2, 9)] [(2, 8)] [] with scratch := [(0, 5)] }
      (fun t => pend 2 (0, 2, 5) t && pend 2 (1, 2, 9) t && byte (.die 0 0) 8 t) &&
    after (.redS h0 .maxN false false (.c 0) 0 (.v 1)) { st [(1, 3)] [(1, 2)] [] with scratch := [(0, 1)] } (byte (.die 0 0) 3) &&
    after (.cas h0 .s false false (.c 0) 0 (.v 2) 2) { st [(2, 5), (3, 6)] [(2, 5), (3, 7)] [] with scratch := [(0, 5)] }
      (fun t => pend 2 (1, 2, 6) t && byte (.die 0 0) 6 t) = true := by decide +kernel
/-- Bytes at 64. -/
def at64 (l : List Byte) : List Host.Cell := l.zipIdx.map (fun p => (64 + p.2, p.1))
/-- The team's carve-out holds these bytes at 64. -/
def bar64 (l : List Byte) (s : State) : State := upT s (fun t => { t with shared := at64 l })
/-- R194, R195, R199: bar.init for two threads gives EXPECT 1 and a PHASE two higher; the last of two arrivals ends the
phase, and each token names it; arr.add past the target starts the next generation. -/
theorem test_sync : after (.barInit h0 (.v 0) 0 (.c 1)) (bar64 [2, 0, 1, 0, 6, 0, 0, 0] (st [(0, 64)] [(0, 64)] [])) (fun t => t.locNat (.sh 7 64) 8 == 8 * 2 ^ 32 + 1) &&
    after (.barArrive h0 (.v 2) (.v 0) 0 4) (bar64 [2, 0, 0, 0, 6, 0, 0, 0] (st [(0, 64)] [(0, 64)] []))
      (fun t => t.locNat (.sh 7 64) 8 == 7 * 2 ^ 32 + 2 && pend 4 (0, 2, 0x80000006) t && pend 4 (1, 2, 0x80000006) t) &&
    after (.arrAdd h0 (.v 0) 0 (.v 1)) { st [(0, 64), (1, 5)] [(0, 64)] [] with scratch := (at64 [4, 0, 0, 0, 0, 0, 0, 0, 7]).filter (fun c => c.2 != 0) }
      (fun t => t.arrAt 0 64 == ⟨4, 1, 8, 0⟩) = true := by decide +kernel
/-- R205: the first sample of a word; R208: nothing else of it. -/
theorem test_estimator : after (.estimatorMerge 0 0)
    { st0 with est := [⟨0, 0, [.contrib ⟨1, 1, 0, 0, 0, 0, 0, 0x10000, 3, false, 0x3F800000, 0x40000000, 0⟩], []⟩] }
    (fun t => t.eword 0 0x10000 == ⟨0x3F800000, 0x40000000, 0, 1, 0, false, false⟩) = true := by decide +kernel

/-- Where a thread stands: its PC and INTRAP. -/
def stands (n : Nat) (pc : DWord) (tr : Bool) (t : State) : Bool := (t.thread? 7 0 n).map (fun th => (th.pc, th.intrap)) == some (pc, tr)
/-- R113: a branch two clauses on, and one to no header, which traps. -/
theorem test_branch : after (.br h0 4) st0 (stands 0 (mkPc 0x1020 0) false) && after (.br h0 3) st0 (stands 0 (mkPc 0x1030 0) true) &&
    after (.br ⟨false, 2, 0⟩ 4) st0 (stands 0 (mkPc 0x1010 0) false) && after (.call h0 (.v 2) 4) st0 (reg 0 2 0x1010) &&
    after (.ret h0 (.v 0)) (st [(0, 0x1020)] [(0, 0x1020)] []) (stands 1 (mkPc 0x1020 0) false) = true := by decide +kernel
/-- R122, R124: a loop of 3 pushes its entry; a count of 0 skips past END; lpop removes an entry. -/
theorem test_loop : after (.loopImm h0 3 2) st0 (fun t => (t.thread? 7 0 0).map Thread.loops == some [⟨0x1010, 0x1010, 3⟩]) &&
    after (.loopv h0 (.v 0) 2) st0 (stands 0 (mkPc 0x1020 0) false) &&
    after (.lpop h0) (upH st0 (fun th => { th with loops := [⟨0, 8, 2⟩] })) (fun t => (t.thread? 7 0 0).map Thread.loops == some []) = true := by decide +kernel
/-- R127, R129: trap 5: cause, TRAPPC of the fall-through, VALUE 5, OPND 0x7FF; R117: exit. -/
theorem test_trap : after (.trap h0 5) st0 (fun t => stands 0 (mkPc 0x1030 0) true t &&
      (t.thread? 7 0 0).map (fun th => (th.trappc, th.trapinfo)) == some (0x1010, 0x7FF00000005)) &&
    after (.exit h0) st0 (fun t => (t.thread? 7 0 1).map Thread.exited == some true) = true := by decide +kernel

/-- Queue 0 of context 1 runs a packet on engine 0 at a program of one word. -/
def engSt (w : Word) (g : List DWord) : State :=
  let f : Frame := { addr := 0, left := 0, packet := (List.range 64).map (BitVec.ofNat 8), code := [w], pc := 0, steps := 0, loops := [] }
  { State.reset with
    contexts := [Context.blank 1 []], cmdqs := [{ CmdQ.blank 1 0 with slot := some 0, frames := [f], engine := some 0, g := g }],
    engines := [⟨some (1, 0), 0, false⟩], cur := .engine 0 }
/-- Register `d` of the queue, and the next word of its packet. -/
def greg (d : Nat) (v : DWord) (pc : Nat) (t : State) : Bool :=
  match t.cmdq? 1 0 with | some q => q.g[d]? == some v && q.frames.head?.map Frame.pc == some pc | none => false
/-- R347: sign extension, modulo 2^64, shifts, and bytes 8 to 15 of the packet. -/
theorem test_bytecodes : after (.bMovi 1 0x1FFFF) (engSt 0 (List.replicate 8 0)) (greg 1 0xFFFFFFFFFFFFFFFF 1) &&
    after (.bMovh 1 0x1234) (engSt 0 (List.replicate 8 5)) (greg 1 0x51234 1) && after (.bSub 1 2 3) (engSt 0 [0, 0, 3, 4, 0, 0, 0, 0]) (greg 1 0xFFFFFFFFFFFFFFFF 1) &&
    after (.bShl 1 2 63) (engSt 0 [0, 0, 3, 4, 0, 0, 0, 0]) (greg 1 0x8000000000000000 1) && after (.bLdp 1 1) (engSt 0 (List.replicate 8 0)) (greg 1 0x0F0E0D0C0B0A0908 1) &&
    after (.bSkip .ltu 2 3 4) (engSt 0 [0, 0, 3, 4, 0, 0, 0, 0]) (greg 2 3 4) && after (.bSkip .geu 2 3 4) (engSt 0 [0, 0, 3, 4, 0, 0, 0, 0]) (greg 2 3 1) &&
    after (.bTkt 2) (engSt 0 [0, 0, 300, 4, 0, 0, 0, 0]) (fun t => (t.cmdq? 1 0).map CmdQ.tickets == some 255) = true := by decide +kernel

/-! ### Witnesses: registers -/

theorem witness_SumResults : beginAll st0 [.add h0 .i32 (.v 2) (.v 0) (.v 1) (.c 0), .add h0 .i64 (.k 2) (.k 4) (.k 6) (.c 0), .sub h0 .n32sat (.v 2) (.v 0) (.v 1),
    .neg h0 .i32sat (.v 2) (.v 0), .abs h0 .i32sat (.t 2) (.v 0)] = true := by decide +kernel
theorem witness_CarryResults : beginAll st0 [.addc h0 true (.v 2) (.v 0) (.v 1) (.v 3), .addc h0 false (.k 2) (.k 0) (.k 1) (.c 1),
    .subb h0 true (.v 2) (.v 0) (.v 1) (.v 3)] = true := by decide +kernel
theorem witness_ProductResults : beginAll st0 [.mul h0 .wideI (.v 2) (.v 0) (.v 1), .mulhi h0 true (.v 2) (.v 0) (.v 1), .mad h0 .wideN (.k 2) (.k 0) (.k 1) (.k 4),
    .madhi h0 false (.v 2) (.v 0) (.v 1) (.v 3)] = true := by decide +kernel
theorem witness_BitResults : beginAll st0 [.min h0 .i32 (.v 2) (.v 0) (.v 1), .max h0 .n64 (.v 2) (.v 4) (.v 6), .and h0 (.k 2) (.k 0) (.k 1), .or h0 (.v 2) (.v 0) (.v 1),
    .xor h0 (.v 2) (.v 0) (.v 1), .andn h0 (.v 2) (.v 0) (.v 1), .not h0 (.v 2) (.v 0), .shl h0 (.v 2) (.v 0) (.v 1), .shr h0 (.v 2) (.v 0) (.v 1),
    .sar h0 (.v 2) (.v 0) (.v 1), .rot h0 (.v 2) (.v 0) (.v 1), .clz h0 (.v 2) (.v 0), .popc h0 (.v 2) (.v 0), .brev h0 (.v 2) (.v 0), .mov h0 true (.v 2) (.v 4),
    .movi h0 (.v 2) 7] = true := by decide +kernel
theorem witness_FieldResults : beginAll st0 [.bfe h0 true (.v 2) (.v 0) (.v 1) (.v 3), .bfi h0 (.v 2) (.v 0) (.v 1) (.v 3), .lea h0 7 (.k 2) (.k 0) (.k 1) (.c 0),
    .addmin h0 true (.v 2) (.v 0) (.v 1) (.v 3), .addmax h0 false (.v 2) (.v 0) (.v 1) (.v 3)] = true := by decide +kernel
theorem witness_FloatResults : beginAll st0 [.fadd h0 .rne (.v 2) (.v 0) (.v 1), .fsub h0 .rz (.v 2) (.v 0) (.v 1), .fmul h0 .rdn (.v 2) (.v 0) (.v 1),
    .ffma h0 .rup (.v 2) (.v 0) (.v 1) (.v 3), .fmin h0 (.v 2) (.v 0) (.v 1), .fmax h0 (.v 2) (.v 0) (.v 1), .fabs h0 (.v 2) (.v 0), .fneg h0 (.k 2) (.k 0),
    .frint h0 (.v 2) (.v 0), .ftrunc h0 (.v 2) (.v 0), .ffloor h0 (.v 2) (.v 0), .fceil h0 (.v 2) (.v 0), .fclass h0 (.v 2) (.v 0)] = true := by decide +kernel
theorem witness_PackedResults : beginAll st0 [.cvt h0 (.v 2) (.v 0) .f32 .f16 .rne 1, .hadd2 h0 .f16 .rne (.v 2) (.v 0) (.v 1), .hmul2 h0 .bf16 .rz (.v 2) (.v 0) (.v 1),
    .hfma2 h0 .f16 .rup (.k 2) (.k 0) (.k 1) (.k 3), .dot2 h0 .f16 .rne (.v 2) (.v 0) (.v 1) (.v 3), .dot4f h0 true .rne (.v 2) (.v 0) (.v 1) (.v 3),
    .dot8f h0 .rne (.v 2) (.v 0) (.v 1) (.v 3), .dot4i h0 true (.v 2) (.v 0) (.v 1), .dot8i h0 false (.v 2) (.v 0) (.v 1), .pk h0 .fn8 (.v 2) (.v 0) (.v 1) (.c 1),
    .upk h0 .fn4 (.v 2) (.v 0) (.v 1), .scl h0 true .rne (.v 2) (.v 0) (.v 1), .sel h0 true (.v 2) (.v 4) (.v 6) ⟨true, 1⟩] = true := by decide +kernel
theorem witness_LaneResults : beginAll st0 [.lsh h0 true (.v 2) (.v 0) (.v 1) (.v 3), .lxor h0 (.v 2) (.v 0) (.v 1), .lbc h0 (.v 2) (.v 0) (.v 1), .lrot h0 (.v 2) (.v 0) (.v 1),
    .qswp h0 .d (.v 2) (.v 0), .qbc h0 (.v 2) (.v 0) (.v 1), .vote h0 (.bal (.v 2)) ⟨false, 1⟩, .lscan h0 .add true (.v 2) (.v 0), .mfs h0 (.v 2) .clockLo] &&
    begins st0 (.vote h0 (.bal (.v 2)) ⟨false, 1⟩) (fun e _ => e.act.all (fun n => decide (n < 32)) && decide e.act.Nodup) = true := by decide +kernel
theorem witness_PredicateResults : beginAll st0 [.setpI h0 .lt 2 (.v 0) (.v 1) ⟨false, 0⟩, .setpN h0 .ge 0 (.v 0) (.v 1) ⟨true, 1⟩, .setpF h0 .nan 2 (.v 0) (.v 1) ⟨false, 0⟩,
    .pand h0 2 ⟨false, 1⟩ ⟨true, 3⟩, .por h0 2 ⟨false, 1⟩ ⟨true, 3⟩, .pxor h0 2 ⟨false, 1⟩ ⟨true, 3⟩, .pnot h0 2 ⟨false, 1⟩, .vote h0 (.any 2) ⟨false, 1⟩,
    .vote h0 (.all 2) ⟨false, 1⟩] = true := by decide +kernel
theorem witness_RegisterFrame : begins st0 (.add h0 .i32 (.v 2) (.v 0) (.v 1) (.c 0)) (fun _ _ => (latency (.add h0 .i32 (.v 2) (.v 0) (.v 1) (.c 0))).isSome) &&
    begins st0 (.scl h0 false .rne (.v 2) (.v 0) (.v 1)) (fun e h => (latency (.scl h0 false .rne (.v 2) (.v 0) (.v 1))).isSome &&
      (e.live (.scl h0 false .rne (.v 2) (.v 0) (.v 1)) h).all (fun n => match scClass (sclHalf false (e.w n 2 (.v 1))) with | .bad => false | _ => true)) = true := by decide +kernel

/-! ### Witnesses: pending results and memory -/

/-- An operation that keeps slot 3 busy. -/
def op3 (k : OpKind) : PendOp :=
  { slot := 3, kind := k, writes := [(0, 2, 5), (1, 2, 6)], preds := [], flags := 0x10, regs := [(0, 2), (1, 2)], hmask := none, need := 0, acc := .none,
    waits := [], xrec := 0, xbytes := [], reads := [], ended := [] }
/-- The group has it. -/
def busy (k : OpKind) (s : State) : State := upG s (fun g => { g with ops := [op3 k] })
theorem witness_SlotStall : slotOf (.div h0 false (.v 4) (.v 0) (.v 1) 3) = some 3 ∧ (match env? (busy .load st0) with
    | some e => e.g.busy 3 && !e.g.held | none => false) = true := by decide +kernel
theorem witness_SequenceUnitIssue : beginAll (on [] [] []) [.div h0 true (.v 2) (.v 0) (.v 1) 3, .rem h0 false (.t 2) (.v 0) (.v 1) 3, .frcp h0 .rne (.v 2) (.v 0) 3,
    .frsq h0 .rne (.v 2) (.v 0) 3, .fsqrt h0 .rne (.v 2) (.v 0) 3, .fdiv h0 .rne (.v 2) (.v 0) (.v 1) 3, .fexp2 h0 (.v 2) (.v 0) 3, .flog2 h0 (.v 2) (.v 0) 3,
    .fsin h0 (.v 2) (.v 0) 3, .fcos h0 (.v 2) (.v 0) 15] && begins (on [] [] []) (.rem h0 false (.t 2) (.v 0) (.v 1) 3) (fun e _ => e.inBlock) = true := by decide +kernel
/-- The slot of the group holds an operation of the kind, whose results go to different registers, for threads that run. -/
def lands (k : OpKind) (s : State) : Bool :=
  match s.group? 7 0, s.opAt 7 0 3 with
  | some g, some o => o.kind == k && o.need == 0 && !g.held && o.waits.isEmpty && decide (o.acc = .none) &&
      decide ((o.writes.map (fun w => (ownerOf w.2.1 w.1, w.2.1))).Nodup) &&
      o.writes.all (fun w => o.regs.contains (ownerOf w.2.1 w.1, w.2.1) && (g.threads[w.1]?).any (fun th => !th.exited))
  | _, _ => false
theorem witness_PendingLands : ([.load, .atomic, .seq, .eld, .acc] : List OpKind).all (fun k => lands k (busy k st0)) = true := by decide +kernel

/-- A live thread's access is legal, for each live thread. -/
def legal (s : State) (i : Instr) (x : Acc) (p : Env → Nat → Loc → Bool := fun _ _ _ => true) : Bool :=
  begins s i (fun e h => (e.live i h).all (fun n => match e.access s x n with | .ok l => p e n l | .error _ => false))
/-- The register of thread 0 names place 0, that of thread 1 the next. -/
def two : State := on [(0, 64)] [(0, 128)] []
/-- The newest write of die 0 is one by team 8, in the cluster of team 7, to 0x40, where 1 to 4 stood before; with those who
know it. -/
def past8 (known : List Agent) (s : State) : State :=
  { s with writes := 1, olds := [⟨some ⟨1, 7, 8, 0⟩, .die 0, [(0x40, 1), (0x41, 2), (0x42, 3), (0x43, 4)], 1, known, ⟨0, 0, 0, 0⟩, []⟩] }
/-- Threads that know the store and load bytes of it; threads that do not, and load it plainly or acquire; the group that does. -/
theorem witness_LoadsIssue_old :
    legal (past8 [.thread 7 0, .thread 7 1] two) (.ldS h0 .b16 true none (.v 2) (.v 0) 1 3) ⟨.s, .v 0, 1, 2, 2, 2, .any⟩ (fun e n l => e.s.sees (e.s.reader e.author [n]) l 2) &&
    begins (past8 [] two) (.ldS h0 .b16 true none (.v 2) (.v 0) 0 3) (fun e _ => match e.access e.s ⟨.s, .v 0, 0, 2, 2, 2, .any⟩ 0 with
      | .ok l => !e.s.sees (e.s.reader e.author [0]) l 2 && e.s.floorLoc (e.s.reader e.author [0]) l 2 == 0 && e.s.readAt 0 l 2 == [1, 2] | .error _ => false) &&
    begins (past8 [] two) (.ldS h0 .b16 true (some .dev) (.v 2) (.v 0) 0 3) (fun e h => (e.live (.ldS h0 .b16 true (some .dev) (.v 2) (.v 0) 0 3) h).contains 0) &&
    begins (past8 [.thread 7 1] (on [] [] [(0, 60)])) (.ldu h0 .b32 none (.k 2) (.k 0) 1 3) (fun e _ => match e.access e.s ⟨.s, .k 0, 1, 4, 4, 4, .any⟩ 32 with
      | .ok l => e.s.sees (e.s.reader e.author e.act) l 4 && !e.s.sees (e.s.reader e.author [0]) l 4 | .error _ => false) = true := by decide +kernel
/-- R285, R289, R290: a read may find a store not yet made; not after an acquire at a scope that holds both, nor for a thread
that knows it; an acquire of another thread, or of a narrower scope, brings it nothing. -/
theorem test_old :
    let a : Author := ⟨1, 7, 7, 0⟩
    let r (s : State) : List Byte := s.readAt (s.floorLoc (s.reader a [0]) (.die 0 0x42) 2) (.die 0 0x42) 2
    let acq (n : Nat) (sc : Scope) (p : Nat) : State := (past8 [] State.reset).acquire a [.thread 7 n] sc p false
    (r (past8 [] State.reset) == [3, 4] && r (acq 0 .clu 1) == [0, 0] && r (acq 0 .clu 0) == [3, 4] && r (acq 0 .team 1) == [3, 4] &&
      r (acq 1 .dev 1) == [3, 4] && r (past8 [.thread 7 0] State.reset) == [0, 0] && r ((past8 [] State.reset).learn [.thread 7 0] (.die 0) 0x43 1 1) == [0, 0] &&
      r ((past8 [] State.reset).learn [.thread 7 0] (.die 0) 0x44 1 1) == [3, 4]) = true := by decide +kernel
theorem witness_LoadsIssue :
    legal two (.ldS h0 .b16 true none (.v 2) (.v 0) 1 3) ⟨.s, .v 0, 1, 2, 2, 2, .any⟩ && legal two (.ldH h0 .b64 false none (.v 2) (.v 0) 1 3) ⟨.h, .v 0, 1, 8, 8, 8, .plain⟩ &&
    legal two (.ldK h0 .b128 false (.v 4) (.v 0) 1 3) ⟨.k, .v 0, 1, 16, 16, 16, .plain⟩ && legal two (.ldC h0 .b32 false none (.t 2) (.v 0) 1 3) ⟨.c, .v 0, 1, 4, 4, 4, .plain⟩ (fun e _ _ => e.inBlock) &&
    legal two (.arrRead h0 (.v 2) (.v 0) 1 3) ⟨.s, .v 0, 1, 16, 16, 16, .plain⟩ && legal two (.ldt h0 1 (.v 4) (.v 0) 0 3) ⟨.s, .v 0, 0, 16, 16, 16, .any⟩ &&
    begins two (.ldu h0 .b32 none (.k 2) (.k 0) 1 3) (fun e _ => match e.access two ⟨.s, .k 0, 1, 4, 4, 4, .any⟩ 32 with | .ok _ => true | .error _ => false) = true := by
  decide +kernel
/-- The threads store apart, at places no trap frame can take; the byte at 0 is none of them. -/
def apart2 (i : Instr) (sp : Space) (k : Nat) (l0 : Loc) : Bool :=
  legal two i ⟨sp, .v 0, 1, k, k, k, .plain⟩ (fun _ _ l => two.clearOfFrames (l.plus 0) && two.clearOfFrames l0 && decide (l.plus 0 ≠ l0)) &&
  begins two i (fun e _ => match e.access two ⟨sp, .v 0, 1, k, k, k, .plain⟩ 0, e.access two ⟨sp, .v 0, 1, k, k, k, .plain⟩ 1 with
    | .ok l, .ok l' => decide (l ≠ l') | _, _ => false)
/-- A store of thread 0 to 0x40 that has issued and is not performed yet. -/
def lateSt (due : Nat) (s : State) : State := { s with late := [⟨⟨1, 7, 7, 0⟩, [(0, .die 0 0x40, [5])], 0, due, [], [(.thread 7 1, .clu)]⟩] }
/-- A load of thread 0 whose read of 0x40 may still be made. -/
def lateLd (due : Nat) (s : State) : State :=
  upG s (fun g => { g with ops := [{ op3 .load with writes := [(0, 2, 9)], reads := [⟨0, .die 0 0x40, 4, .ldS h0 .b32 false none (.v 2) (.v 0) 0 3, 0, 0, due, 0, 0⟩] }] })
theorem witness_Late :
    [.fence h0 .rel .dev, .fence h0 .full .dev, .stS h0 .b32 (some .dev) (.v 0) 0 (.v 2), .spawn h0 none (.v 16) (.k 1)].all (fun i =>
      ordersAfter i == some true && storesFirst i && (env? (lateSt 9 st0)).any (fun e => e.holds i && (hdrOf i).any (fun h => e.act.contains 0 && e.guard h 0) && e.s.late.any (fun x => x.by_.team == e.team.id && x.by_.gix == e.g.gix && x.parts.any (fun c => c.1 == 0)))) &&
    [.ldS h0 .b32 false none (.v 2) (.v 0) 0 3, .atomH h0 .add false false (.v 0) 1 (.v 2) 3].all (fun i =>
      accesses i && (env? (lateSt 9 (st [(0, 0x80)] [(0, 0x80)] []))).any (fun e => e.holds i && (hdrOf i).any (fun h => e.act.contains 1 && e.guard h 1) && e.s.late.any (fun x => x.awaits.any (fun q => q.1 == .thread e.team.id (e.tit 1))))) &&
    (env? (lateLd 9 st0)).any (fun e => e.holds (.fence h0 .acq .team) && e.g.ops.any (fun o => o.reads.any (fun r => r.tid == 0)) && !e.holds (.add h0 .i32 (.v 4) (.v 1) (.v 1) (.c 0))) &&
    (let s := lateSt 9 (st [(0, 0x40)] [(0, 0x80)] []); (env? { s with late := s.late.map (fun x => { x with awaits := [] }) }).any (fun e => e.holds (.ldS h0 .b32 false none (.v 2) (.v 0) 0 3) && !e.holds (.ldS h0 .b32 false none (.v 2) (.v 0) 1 3) && !e.holds (.fence h0 .acq .dev))) &&
    (let s := lateSt 1 st0; s.late.all (fun y => decide (y.due ≤ s.clock + 1) && y.parts.length == 1 && y.parts.all (fun c => c.2.1.mem.isSome)) && s.parked.isEmpty && s.regionOps.isEmpty) &&
    (let s := { st0 with late := [⟨⟨1, 7, 7, 0⟩, [(0, .sh 7 0, [5])], 0, 1, [], []⟩] }; s.late.all (fun y => decide (y.due ≤ s.clock + 1) && y.parts.all (fun c => c.2.1.mem.isSome)) && (s.team? 7).isSome) &&
    (let s := lateLd 1 st0; s.late.isEmpty && (s.group? 7 0).any (fun g => g.ops.all (fun o => o.reads.length == 1 && o.reads.all (fun r => decide (r.due ≤ s.clock + 1) && !s.badPlace r.loc)))) = true := by decide +kernel
/-- R185, R287, R292: a cycle in which a store and a read are due: the store is performed, the read finds it, and the agent that awaits it
has acquired it. -/
theorem test_late : (match step { lateLd 1 (lateSt 1 st0) with agenda := [.tick 1] } with
    | .next t => byte (.die 0 0x40) 5 t && pend 3 (0, 2, 5) t && t.late.isEmpty &&
        t.olds == [⟨some ⟨1, 7, 7, 0⟩, .die 0, [(0x40, 0)], 1, [.thread 7 0, .thread 7 0, .thread 7 1], ⟨0, 0, 0, 0⟩, []⟩] &&
        (t.sight (.thread 7 1)).clu == 1 | _ => false) = true := by decide +kernel
theorem witness_StoreWrites : apart2 (.stS h0 .b32 none (.v 0) 1 (.v 2)) .s 4 (.die 0 0) && apart2 (.stH h0 .b128 (some .dev) (.v 0) 1 (.v 4)) .h 16 (.sh 7 0) &&
    apart2 (.stK h0 .b8 (.v 0) 1 (.v 2)) .k 1 (.st 7 0 0) && apart2 (.stC h0 .b64 none (.v 0) 1 (.v 2)) .c 8 (.sh 7 0) = true := by decide +kernel
theorem witness_StoreFrame : apart2 (.stS h0 .b16 none (.v 0) 1 (.v 2)) .s 2 (.die 0 0) && apart2 (.stH h0 .b64 none (.v 0) 1 (.v 4)) .h 8 (.sh 7 0) &&
    apart2 (.stK h0 .b32 (.v 0) 1 (.v 2)) .k 4 (.st 7 0 0) && apart2 (.stC h0 .b8 none (.v 0) 1 (.v 2)) .c 1 (.sh 7 0) = true := by decide +kernel
/-- The address that thread 0 names, and the surroundings. -/
def at0 (a : Word) (s : State → State := id) (p : Env → State → Nat → Bool) : Bool :=
  match env? (s (st [(0, a)] [] [])) with | some e => p e (s (st [(0, a)] [] [])) (e.w 0 1 (.v 0)).toNat | none => false
/-- Each clause at a boundary: misaligned and aligned; the last word of a carve-out or stack and the one past it; the first
address of no core, the last of core 79; a line of no entry, of another context, of a local line; an estimator line for a
plain access and the reverse; a peer beyond the cluster, and the team itself. -/
theorem witness_AccessFaults :
    at0 2 id (fun _ _ a => a % 4 ≠ 0) && at0 4 id (fun _ _ a => a % 4 = 0) &&
    at0 4092 id (fun e _ a => decide (a % 4 = 0 ∧ a + 4 ≤ e.team.shsize)) && at0 4096 id (fun e _ a => decide (a % 4 = 0 ∧ ¬ a + 4 ≤ e.team.shsize)) &&
    at0 6396 id (fun e _ a => decide (a % 4 = 0 ∧ a + 4 ≤ e.team.stackSize)) && at0 6400 id (fun e _ a => decide (a % 4 = 0 ∧ ¬ a + 4 ≤ e.team.stackSize)) &&
    at0 0x00300000 id (fun _ _ a => a % 4 = 0 && !spValid a) && at0 0x14000000 id (fun _ _ a => a % 4 = 0 && !spValid a) && at0 0x20000000 id (fun _ _ a => a % 4 = 0 && !spValid a) &&
    at0 0x20000 id (fun e s a => a % 4 = 0 && spValid a && (s.entryAt e.team.die (spCore a) (spOff a)).isNone) &&
    at0 0x1FFFC id (fun e s a => a % 4 = 0 && spValid a && (s.entryAt e.team.die (spCore a) (spOff a)).any (fun r => r.owner == e.team.ctx && r.est) &&
      s.tagAt e.team.die (spCore a) (64 * (spOff a / 64)) == (e.team.ctx, false)) &&
    at0 0xFFFC id (fun e s a => a % 4 = 0 && spValid a && (s.entryAt e.team.die (spCore a) (spOff a)).any (fun r => r.owner == e.team.ctx && !r.est) &&
      s.tagAt e.team.die (spCore a) (64 * (spOff a / 64)) == (e.team.ctx, false)) &&
    at0 0 (fun s => { s with tags := [⟨0, 0, 0, 1, 1, true⟩] }) (fun e s a => a % 4 = 0 && spValid a && (s.entryAt e.team.die (spCore a) (spOff a)).isSome &&
      s.tagAt e.team.die (spCore a) (64 * (spOff a / 64)) != (e.team.ctx, false)) &&
    at0 0x20000000 id (fun e _ a => decide (a % 4 = 0 ∧ e.team.csize < a / 2 ^ 29)) &&
    at0 4092 id (fun e s a => (s.peer? e.team (a / 2 ^ 29)).any (fun u => decide (a % 4 = 0 ∧ a / 2 ^ 29 ≤ e.team.csize ∧ a % 2 ^ 29 + 4 ≤ u.shsize))) &&
    at0 4096 id (fun e s a => (s.peer? e.team (a / 2 ^ 29)).any (fun u => decide (¬ a % 2 ^ 29 + 4 ≤ u.shsize))) = true := by decide +kernel
/-- The places differ. -/
def alone2 (i : Instr) (sp : Space) (k : Nat) : Bool :=
  apart2 i sp k (match sp with | .s => .die 0 0 | _ => .sh 7 0) && begins two i (fun e _ => e.inBlock && two.parked.isEmpty)
theorem witness_AtomicResults : alone2 (.atomS h0 .add false false (.v 0) 1 (.v 2) 3) .s 4 && alone2 (.atomH h0 .xchg true false (.v 0) 1 (.v 2) 3) .h 8 &&
    alone2 (.atomC h0 .fadd false true (.v 0) 1 (.t 2) 3) .c 4 && alone2 (.redS h0 .add false false (.v 0) 1 (.v 2)) .s 4 && alone2 (.redH h0 .or true false (.v 0) 1 (.v 2)) .h 8 &&
    alone2 (.redC h0 .fmax false false (.v 0) 1 (.v 2)) .c 4 && alone2 (.cas h0 .s false false (.v 0) 1 (.v 2) 3) .s 4 && alone2 (.cas h0 .h true false (.v 0) 1 (.v 4) 3) .h 8 &&
    alone2 (.cas h0 .c false true (.v 0) 1 (.v 2) 3) .c 4 = true := by decide +kernel

/-! ### Witnesses: control flow, traps, system registers -/

/-- A target is an ENTRY header of the team's code, or it is none. -/
def target (s : State) (i : Instr) (good : Bool) (tgt : Env → Nat → Int) : Bool :=
  trapping s i (fun e n => e.s.entryOk e.team.ctx (tgt e n) == good) && begins s i (fun e h => (e.live i h).all (fun n => e.s.entryOk e.team.ctx (tgt e n) == good))
theorem witness_Branches :
    target st0 (.br h0 4) true (fun e _ => (e.hdrAddr : Int) + 8 * 4) && target st0 (.br h0 3) false (fun e _ => (e.hdrAddr : Int) + 8 * 3) &&
    target st0 (.brx h0 (.v 0) 6) true (fun e n => (e.hdrAddr : Int) + 8 * (6 + sw (e.w n 1 (.v 0)))) &&
    target (st [(0, 1)] [(0, 3)] []) (.brx h0 (.v 0) 6) false (fun e n => (e.hdrAddr : Int) + 8 * (6 + sw (e.w n 1 (.v 0)))) &&
    target st0 (.call h0 (.v 2) 2) true (fun e _ => (e.hdrAddr : Int) + 8 * 2) && target st0 (.call h0 (.v 2) 5) false (fun e _ => (e.hdrAddr : Int) + 8 * 5) &&
    target (st [(0, 2)] [(0, 4)] []) (.callx h0 (.v 2) (.v 0)) true (fun e n => (e.hdrAddr : Int) + 8 * sw (e.w n 1 (.v 0))) &&
    target (st [(0, 1)] [(0, 3)] []) (.callx h0 (.v 2) (.v 0)) false (fun e n => (e.hdrAddr : Int) + 8 * sw (e.w n 1 (.v 0))) &&
    target (st [(0, 0x1020)] [(0, 0x1010)] []) (.ret h0 (.v 0)) true (fun e n => ((e.pair n 1 (.v 0)).toNat : Int)) &&
    target st0 (.ret h0 (.v 0)) false (fun e n => ((e.pair n 1 (.v 0)).toNat : Int)) = true := by decide +kernel
/-- The start and the end of the loop that the instruction would open, and whether a clause follows its end. -/
def loopCase (s : State) (i : Instr) (off : Int) (p : Env → Int → Int → Bool) : Bool :=
  trapping s i (fun e _ => p e e.nextHdr ((e.hdrAddr : Int) + 8 * off))
/-- Four open loops. -/
def deep : State := upH (st [(0, 1)] [(0, 1)] []) (fun th => { th with loops := List.replicate 4 ⟨0, 8, 2⟩ })
/-- The cases of an entry at the end of its clause, and those of the three instructions: pushed, skipped, START no ENTRY
header, END before START, COUNT above 0xFFFFFF, nothing after END, and no room. -/
theorem witness_Loops : (loopBack 8 [⟨0, 8, 2⟩]).1 = some 0 ∧ (loopBack 8 [⟨0, 8, 1⟩, ⟨0, 16, 3⟩]).2 = [⟨0, 16, 3⟩] ∧
    loopCase (st [(0, 0xFFFFFF)] [(0, 1)] []) (.loopv h0 (.v 0) 2) 2 (fun e a b => e.s.entryOk 1 a && decide (a ≤ b) && (e.loops 0).length < 4) = true ∧
    loopCase st0 (.loopv h0 (.v 0) 2) 2 (fun e a b => e.s.entryOk 1 a && decide (a ≤ b) && e.s.entryOk 1 (b + 16)) = true ∧
    loopCase st0 (.loopImm h0 2047 2) 2 (fun e a b => e.s.entryOk 1 a && decide (a ≤ b)) = true ∧
    loopCase st0 (.loop h0 (.k 0) 2) 2 (fun e a b => e.s.entryOk 1 a && decide (a ≤ b) && e.s.entryOk 1 (b + 16)) = true ∧
    loopCase (on [] [] []) (.loop h0 (.c 1) 2) 2 (fun e a _ => !e.s.entryOk 1 a) = true ∧
    loopCase st0 (.loopImm h0 5 0) 0 (fun e a b => e.s.entryOk 1 a && decide (b < a)) = true ∧
    loopCase (st [(0, 0x1000000)] [] []) (.loopv h0 (.v 0) 2) 2 (fun e a b => e.s.entryOk 1 a && decide (a ≤ b) && decide (0xFFFFFF < (e.w 0 1 (.v 0)).toNat)) = true ∧
    loopCase st0 (.loopv h0 (.v 0) 6) 6 (fun e a b => e.s.entryOk 1 a && decide (a ≤ b) && !e.s.entryOk 1 (b + 16)) = true ∧
    loopCase deep (.loopv h0 (.v 0) 2) 2 (fun e a b => e.s.entryOk 1 a && decide (a ≤ b) && decide (4 ≤ (e.loops 0).length)) = true := by decide +kernel
theorem witness_LoopPop : beginAll deep [.lpop h0, .lpop ⟨false, 1, 3⟩] && beginAll st0 [.lpop h0] = true := by decide +kernel
theorem witness_NoEffect : beginAll st0 [.nop h0, .nop ⟨true, 2, 7⟩] &&
    begins (upT st0 (fun t => { t with handler := 0 })) (.bkpt h0 3) (fun e _ => e.team.handler == 0) = true := by decide +kernel
theorem witness_TrapTaken : trapping st0 (.trap h0 5) (fun _ _ => true) && trapping (on [] [] []) (.bkpt h0 3) (fun _ _ => true) = true := by decide +kernel
/-- The instruction begins, and the threads can trap. -/
def startsOk (e : Env) (i : Instr) : Bool :=
  e.begins i && !e.spent && e.canTrap && !e.act.isEmpty
/-- An operand above the group's top in instructions of each kind; any word; early reads with CHKSB.EN, of an instruction of fixed
latency, a store, a slotted one and a branch; a bad header; a bad scale. -/
theorem witness_EncodingFaults :
    ([.mov h0 false (.v 8) (.v 0), .stS h0 .b32 none (.v 8) 0 (.v 1), .redS h0 .add false false (.v 8) 0 (.v 2), .ret h0 (.v 8), .loopv h0 (.v 9) 2, .div h0 false (.v 8) (.v 0) (.v 1) 3] : List Instr).all (fun i => (env? (upG st0 (fun g => { g with vblk := 1 }))).any (fun e =>
      startsOk e i && (vrange? e.g i).isSome)) = true ∧
    (env? (upG st0 (fun g => { g with vblk := 2 }))).any (fun e => ([(.v 16, false), (.v 1528, false), (.v 1535, true)] : List (Opnd × Bool)).all (fun p =>
      startsOk e (.mma h0 .fn4 2 p.1 3 1 true) && decide (8 * e.g.vblk < p.1.code.toNat + e.team.runLen 3) && decide (1536 < p.1.code.toNat + e.team.runLen 3) == p.2)) = true ∧
    (env? (upG (busy .load st0) (fun g => { g with chksb := true }))).any (fun e => e.s.parked.isEmpty && e.chksb &&
      ([.mov h0 false (.v 4) (.v 2), .stS h0 .b32 none (.v 0) 0 (.v 2), .div h0 false (.v 4) (.v 2) (.v 1) 5, .loopv h0 (.v 2) 2, .ldS h0 .b32 false none (.v 2) (.v 0) 0 6] : List Instr).all (fun i =>
        startsOk e i && wellFormed i && (vrange? e.g i).isNone && e.act.all (fun n => e.guard h0 n && (e.early? n h0 i).isSome))) = true ∧
    trapping (st [(1, 0xFFFF)] [(1, 0xFFFF)] []) (.scl h0 false .rne (.v 2) (.v 0) (.v 1))
      (fun e n => match scClass (element 16 0 (e.w n 2 (.v 1))) with | .bad => true | _ => false) = true := by decide +kernel
/-- A team that has not been killed, with no handler, a thread in its handler, a stack with no room, or a handler that is no
ENTRY header. -/
def killCase (s : State) (p : Team → Thread → Bool) : Bool :=
  match s.team? 7, s.thread? 7 0 0 with | some t, some th => t.killed.isNone && !th.exited && p t th | _, _ => false
theorem witness_TrapKills : killCase (upT st0 (fun t => { t with handler := 0 })) (fun t _ => t.handler == 0) &&
    killCase (upH st0 (fun th => { th with intrap := true })) (fun t th => t.handler != 0 && th.intrap) &&
    killCase (upT st0 (fun t => { t with stackSize := 6143 })) (fun t th => t.handler != 0 && !th.intrap && decide (t.stackSize < Config.frameArea)) &&
    killCase (upT st0 (fun t => { t with stackSize := 6144, handler := 8 })) (fun t th => t.handler != 0 && !th.intrap && decide (Config.frameArea ≤ t.stackSize) &&
      !(st0.entryOk t.ctx t.handler.toNat)) = true := by decide +kernel
/-- The threads stand in the handler, with frames of one loop. -/
def inHandler : State :=
  upG (upH st0 (fun th => { th with intrap := true, trappc := 0x1010 })) (fun g =>
    { g with stack := (g.stack.writeN (frameOff 6400 0 + 0x14) [1, 0, 0, 0x80]).writeN (frameOff 6400 1 + 0x14) [4, 0, 0, 0x80] })
theorem witness_RfeReturns : begins inHandler (.rfe h0) (fun e h => (e.live (.rfe h0) h).all (fun n => match e.thread n with
    | some th => th.intrap && decide (th.trappc.toNat / 2 ^ 52 = 0 ∧ th.trappc.toNat % 8 = 0 ∧ pcIdx th.trappc ≤ hdrCnt (e.s.codeAt 1 (pcAddr th.trappc)) ∧
        128 ≤ (e.g.stack.read (frameOff e.team.stackSize n + 0x17)).toNat ∧ (e.g.stack.read (frameOff e.team.stackSize n + 0x14)).toNat % 8 ≤ 4)
    | none => false)) && trapping st0 (.rfe h0) (fun e n => (e.thread n).any (fun th => !th.intrap)) = true := by decide +kernel
theorem witness_ExitAndYield : begins st0 (.exit h0) && begins st0 (.yield h0) (fun e h => (e.live (.yield h0) h).all (fun n => (e.cont (e.loops n)).ends)) &&
    trapping (on [] [] []) (.yield h0) (fun e n => !(e.cont (e.loops n)).ends) = true := by decide +kernel
/-- Two threads of a group whose meetings are at 0x1020: both held there, or one still on its way. -/
def meeting (other : Place) : Team :=
  let ths := [{ Thread.blank 0x1020 with mr := 0x1020, place := .entry 0 }, { Thread.blank 0x1020 with mr := 0x1020, place := other }]
  { Team.blank 7 1 (.dispatch 1 0) 0 [Group.blank 0 0 0 192 8 0 ths] with frontier := [⟨0, 0x1020, 0⟩] }
theorem witness_Meetings : target st0 (.meet h0 4) true (fun e _ => (e.hdrAddr : Int) + 32) && target st0 (.meet h0 5) false (fun e _ => (e.hdrAddr : Int) + 40) &&
    begins st0 (.meet h0 4) (fun e h => (e.live (.meet h0 4) h).all (fun n => decide ((e.cont (e.loops n)).pc ≠ mkPc 0x1020 0))) &&
    ((meeting (.entry 0)).group? 0).any (fun g => g.threads.all (fun th => th.mr == 0x1020 && !th.exited && (meeting (.entry 0)).isHeld th)) &&
    ((meeting .cur).group? 0).any (fun g => g.threads.any (fun th => th.mr == 0x1020 && !th.exited && !(meeting .cur).isHeld th)) = true := by decide +kernel
/-- The matrix context 0 of core 0, bound to team 7. -/
def mat : MatCtx := { die := 0, core := 0, idx := 0, team := 7, acc := [], flags := 0, flagsAt := 0, flagsSet := 0, resv := false, accf := 0, resk := 0, seq := List.replicate 16 0, pending := [], running := none }
/-- The state with it. -/
def withMat (s : State) : State := { upT s (fun t => { t with matctx := some 0 }) with matctx := [mat] }
theorem witness_SystemMoves : beginAll (withMat st0) [.mts h0 .mode (.v 0), .mts h0 .nflags (.c 1), .mts h0 .chksb (.v 0), .mts h0 .role (.v 0), .mts h0 .accstat (.v 0)] &&
    begins (withMat st0) (.mts h0 .accstat (.v 0)) (fun e h => (e.live (.mts h0 .accstat (.v 0)) h).contains 1 && !e.helper 1 && (e.s.matctxOf e.team).isSome) &&
    beginAll inHandler [.mts h0 .trappcLo (.v 0), .mts h0 .trappcHi (.v 0), .mts h0 .trapinfoLo (.v 0), .mts h0 .trapinfoHi (.v 0)] &&
    begins inHandler (.mts h0 .trappcLo (.v 0)) (fun e h => (e.live (.mts h0 .trappcLo (.v 0)) h).all (fun n => (e.thread n).any (fun th => th.intrap))) &&
    trapping st0 (.mts h0 .trappcHi (.v 0)) (fun e n => (e.thread n).any (fun th => !th.intrap)) && begins st0 (.mfs h0 (.v 2) .clockLo) = true := by decide +kernel

/-! ### Witnesses: synchronisation, the Sieve, estimators -/

/-- Every live thread that is no helper names the place. -/
def onPlace (s : State) (i : Instr) (x : Acc) (l : Loc) : Bool := legal s i x (fun e n l' => !e.helper n && decide (l' = l))
/-- Both threads name 64. -/
def same : State := on [(0, 64), (1, 5)] [(0, 64), (1, 6)] []
/-- The clauses of an arrival: EXPECT 0 and above 8,192; no arrival, the last one, the last two; an early one with room,
without, and a token of a later phase. -/
theorem witness_SyncWords :
    ([⟨0, 0, 0, 0, 0⟩, ⟨0, 0, 0, 8193, 0⟩] : List Bar).all (fun b => decide (b.expect = 0 ∨ 8192 < b.expect)) &&
    ([(⟨0, 65535, 8190, 8192, 0⟩, 0), (⟨1, 7, 1, 2, 0⟩, 0), (⟨2, 7, 1, 2, 0⟩, 0), (⟨1, 7, 0, 2, 0⟩, 0x80000007), (⟨2, 7, 0, 2, 0⟩, 0x80000007), (⟨0, 7, 0, 2, 0⟩, 0x80000008), (⟨0, 7, 0, 2, 0⟩, 0x80000006)] :
      List (Bar × Word)).all (fun p => decide (1 ≤ p.1.expect ∧ p.1.expect ≤ 8192 ∧ p.1.count < p.1.expect ∧ p.1.next ≤ p.1.expect ∧ p.1.phase < 65536)) &&
    onPlace same (.barInit h0 (.v 0) 0 (.v 1)) ⟨.c, .v 0, 0, 8, 8, 8, .plain⟩ (.sh 7 64) && onPlace same (.barArrive h0 (.v 2) (.v 0) 0 3) ⟨.c, .v 0, 0, 8, 8, 8, .plain⟩ (.sh 7 64) &&
    beginAll st0 [.fence h0 .full .dev, .fence h0 .acq .team] &&
    onPlace same (.arrInit h0 (.v 0) 0 (.v 1)) ⟨.s, .v 0, 0, 16, 16, 16, .plain⟩ (.die 0 64) && onPlace same (.arrAdd h0 (.v 0) 0 (.v 1)) ⟨.s, .v 0, 0, 16, 16, 16, .plain⟩ (.die 0 64) = true := by
  decide +kernel
/-- Thread 0 has read up to a write of its cluster that it does not know. -/
def hasRead (s : State) : State := { past8 [] s with sights := [(.thread 7 0, ⟨1, 0, 0, 0⟩)] }
/-- A store of team 7 that stands behind a release of its cluster's scope; team 7 has written since, and team 8 after it in the
same unit, as thread 0 of team 9 of the cluster knows. -/
def released : State :=
  { State.reset with
    writes := 2, late := [⟨⟨1, 7, 7, 0⟩, [(0, .die 0 0x80, [5])], 0, 9, [⟨⟨1, 7, 7, 0⟩, .clu, 0, none, false⟩], []⟩],
    olds := [⟨some ⟨1, 7, 8, 0⟩, .die 0, [(0x44, 0)], 2, [.thread 9 0], ⟨0, 0, 0, 0⟩, []⟩, ⟨some ⟨1, 7, 7, 0⟩, .die 0, [(0x40, 0)], 1, [], ⟨0, 0, 0, 0⟩, []⟩] }
/-- The same once that store has been performed. -/
def performed9 : State :=
  { released with
    writes := 3, late := [], olds := ⟨some ⟨1, 7, 7, 0⟩, .die 0, [(0x80, 0)], 3, [], ⟨0, 0, 0, 0⟩, [⟨⟨1, 7, 7, 0⟩, .clu, 0, none, false⟩]⟩ :: released.olds }
/-- Fences of threads that run: ones that acquire, past a write of their cluster; ones of narrow scope that release, with a store
of their own still to be performed; an acquire of another team, before which that store was released; a read of a write. -/
theorem witness_SyncWords_order :
    ([.acq, .full] : List FenceKind).all (fun k => begins (hasRead st0) (.fence h0 k .clu) (fun e h => (e.live (.fence h0 k .clu) h).contains 0 && e.s.olds.all (fun w =>
      w.by_.any (fun b => decide (b.shared e.author = .clu)) && decide (w.no ≤ (e.s.sightOf 7 (e.tit 0)).seen) && !w.must (e.s.reader e.author [0])))) &&
    ([.rel, .full] : List FenceKind).all (fun k => begins { st0 with late := [⟨⟨1, 7, 7, 0⟩, [(0, .die 0 0x40, [5])], 0, 9, [], []⟩] } (.fence h0 k .clu) (fun e h =>
      e.s.late.all (fun x => x.by_ == e.author && x.parts.all (fun c => (e.live (.fence h0 k .clu) h).contains c.1)))) &&
    (let b : Author := ⟨1, 7, 9, 0⟩
     let met (s : State) (rels : List Release) : Bool := rels.any (fun r => decide (scopeRank (r.by_.shared b) ≤ scopeRank r.scope) && decide (scopeRank (r.by_.shared b) ≤ scopeRank Scope.clu) && r.place.isNone &&
       s.olds.any (fun v => v.by_ == some r.by_ && decide (r.at_ < v.no) && s.olds.any (fun w => decide (v.no ≤ w.no) && v.mem == w.mem &&
         v.cells.any (fun c => w.cells.any (fun d => c.1 / 64 == d.1 / 64)) && w.known.contains (.thread 9 0))))
     released.late.any (fun x => met released x.rels) && performed9.olds.any (fun x => met performed9 x.rels) &&
     released.olds.any (fun w => decide (w.no ≤ 2 ∧ scopeRank (w.shared b) ≤ scopeRank Scope.clu))) &&
    (past8 [] st0).olds.all (fun w => w.touches (.die 0) 0x43 1 && decide (w.no ≤ 1) && !w.must (st0.reader ⟨1, 7, 7, 0⟩ [0])) = true := by decide +kernel
/-- R287, R289: the acquire of thread 0 of team 9 awaits the store; at its team's scope, or of a thread that knows nothing, it does not. -/
theorem test_awaits : let aw (g : Agent) (sc : Scope) : List (List (Agent × Scope)) := (released.acquire ⟨1, 7, 9, 0⟩ [g] sc 2 false).late.map LateStore.awaits
    (aw (.thread 9 0) .clu == [[(.thread 9 0, .clu)]] && aw (.thread 9 0) .team == [[]] && aw (.thread 9 1) .dev == [[]]) = true := by decide +kernel
/-- R289: a store performed after what releases it: the acquire of the agent that has met the release reaches it, another does not. -/
theorem test_performed : let far (n : Nat) : Nat := ((performed9.acquire ⟨1, 7, 9, 0⟩ [.thread 9 n] .clu 2 false).sight (.thread 9 n)).clu
    far 0 = 3 ∧ far 1 = 2 := by decide +kernel
/-- R296: what a thread of group 0 has acquired of the device goes with its write to a thread of group 1 that acquires it at the team's scope. -/
theorem test_handed : (let s := { State.reset with writes := 4, sights := [(.thread 7 0, ⟨4, 3, 3, 3⟩)] }.writeAs (some ⟨1, 7, 7, 0⟩) [.thread 7 0] (.die 0 0x40) [5]
    (s.acquire ⟨1, 7, 7, 1⟩ [.thread 7 32] .team 5 false).sight (.thread 7 32)) = ⟨0, 5, 3, 3⟩ := by decide +kernel
/-- The clause after the wait is an ENTRY clause. -/
def entryNext (s : State) (i : Instr) : Bool := begins s i (fun e h => (e.live i h).all (fun n => e.s.entryOk e.team.ctx (pcAddr (e.cont (e.loops n)).pc)))
theorem witness_Waits : onPlace (st [(0, 64)] [(0, 64)] []) (.barWait h0 (.v 0) 0 (.v 1)) ⟨.c, .v 0, 0, 8, 8, 8, .plain⟩ (.sh 7 64) && entryNext (st [(0, 64)] [(0, 64)] []) (.barWait h0 (.v 0) 0 (.v 1)) &&
    (st0.team? 7).any (fun u => u.killed.isNone) && onPlace (st [(0, 64)] [(0, 64)] []) (.arrWait h0 (.v 0) 0 (.v 1)) ⟨.s, .v 0, 0, 16, 16, 16, .plain⟩ (.die 0 64) &&
    entryNext (st [(0, 64)] [(0, 64)] []) (.arrWait h0 (.v 0) 0 (.v 1)) && !(st0.arrAt 0 64).fault = true := by decide +kernel
/-- A thread's access faults. -/
def illegal (s : State) (i : Instr) (x : Acc) : Bool := trapping s i (fun e n => match e.access e.s x n with | .error _ => true | .ok _ => false)
/-- A misaligned and an unowned address. -/
def badAddr : State := st [(0, 1)] [(0, 0x00100000)] [(0, 2)]
theorem witness_MemoryFaults :
    illegal badAddr (.ldS h0 .b32 false none (.v 2) (.v 0) 0 3) ⟨.s, .v 0, 0, 4, 4, 4, .any⟩ && illegal badAddr (.ldH h0 .b64 false none (.v 2) (.v 0) 0 3) ⟨.h, .v 0, 0, 8, 8, 8, .plain⟩ &&
    illegal badAddr (.ldK h0 .b32 false (.v 2) (.v 0) 0 3) ⟨.k, .v 0, 0, 4, 4, 4, .plain⟩ && illegal badAddr (.ldC h0 .b32 false none (.v 2) (.v 0) 0 3) ⟨.c, .v 0, 0, 4, 4, 4, .plain⟩ &&
    trapping badAddr (.ldu h0 .b32 none (.k 2) (.k 0) 0 3) (fun e _ => match e.access e.s ⟨.s, .k 0, 0, 4, 4, 4, .any⟩ 32 with | .error _ => true | .ok _ => false) &&
    illegal badAddr (.arrRead h0 (.v 2) (.v 0) 0 3) ⟨.s, .v 0, 0, 16, 16, 16, .plain⟩ && illegal badAddr (.ldt h0 2 (.v 8) (.v 0) 0 3) ⟨.s, .v 0, 0, 16, 32, 32, .any⟩ &&
    illegal badAddr (.stS h0 .b32 none (.v 0) 0 (.v 2)) ⟨.s, .v 0, 0, 4, 4, 4, .plain⟩ && illegal badAddr (.stH h0 .b32 none (.v 0) 0 (.v 2)) ⟨.h, .v 0, 0, 4, 4, 4, .plain⟩ &&
    illegal badAddr (.stK h0 .b32 (.v 0) 0 (.v 2)) ⟨.k, .v 0, 0, 4, 4, 4, .plain⟩ && illegal badAddr (.stC h0 .b32 none (.v 0) 0 (.v 2)) ⟨.c, .v 0, 0, 4, 4, 4, .plain⟩ &&
    illegal badAddr (.atomS h0 .add false false (.v 0) 0 (.v 2) 3) ⟨.s, .v 0, 0, 4, 4, 4, .plain⟩ && illegal badAddr (.atomH h0 .add false false (.v 0) 0 (.v 2) 3) ⟨.h, .v 0, 0, 4, 4, 4, .plain⟩ &&
    illegal badAddr (.atomC h0 .add false false (.v 0) 0 (.v 2) 3) ⟨.c, .v 0, 0, 4, 4, 4, .plain⟩ && illegal badAddr (.redS h0 .add false false (.v 0) 0 (.v 2)) ⟨.s, .v 0, 0, 4, 4, 4, .plain⟩ &&
    illegal badAddr (.redH h0 .add false false (.v 0) 0 (.v 2)) ⟨.h, .v 0, 0, 4, 4, 4, .plain⟩ && illegal badAddr (.redC h0 .add false false (.v 0) 0 (.v 2)) ⟨.c, .v 0, 0, 4, 4, 4, .plain⟩ &&
    illegal badAddr (.cas h0 .h false false (.v 0) 0 (.v 2) 3) ⟨.h, .v 0, 0, 4, 4, 4, .plain⟩ = true := by decide +kernel
theorem witness_MemoryFaults_sync :
    illegal badAddr (.barInit h0 (.v 0) 0 (.c 1)) ⟨.c, .v 0, 0, 8, 8, 8, .plain⟩ && trapping same (.barInit h0 (.v 0) 0 (.c 0)) (fun e n => !e.helper n && (e.w n 0 (.c 0)).toNat == 0) &&
    trapping (st [(0, 64), (1, 8193)] [(0, 64)] []) (.barInit h0 (.v 0) 0 (.v 1)) (fun e n => !e.helper n && decide (8192 < (e.w n 0 (.v 1)).toNat)) &&
    illegal badAddr (.barArrive h0 (.v 2) (.v 0) 0 3) ⟨.c, .v 0, 0, 8, 8, 8, .plain⟩ && illegal badAddr (.barWait h0 (.v 0) 0 (.v 1)) ⟨.c, .v 0, 0, 8, 8, 8, .plain⟩ &&
    illegal badAddr (.arrInit h0 (.v 0) 0 (.v 1)) ⟨.s, .v 0, 0, 16, 16, 16, .plain⟩ && illegal badAddr (.arrAdd h0 (.v 0) 0 (.v 1)) ⟨.s, .v 0, 0, 16, 16, 16, .plain⟩ &&
    illegal badAddr (.arrWait h0 (.v 0) 0 (.v 1)) ⟨.s, .v 0, 0, 16, 16, 16, .plain⟩ &&
    trapping { st [(0, 64)] [(0, 64)] [] with scratch := [(76, 1)] } (.arrWait h0 (.v 0) 0 (.v 1)) (fun e _ => (e.s.arrAt 0 64).fault) = true := by decide +kernel
/-- Team 7 between blocks: its threads wait in the entries named. -/
def idle (p0 p1 : Thread → Thread) (f : List FEntry) : State :=
  { State.reset with
    contexts := [Context.blank 1 (code4 entryHdr)],
    teams := [{ Team.blank 7 1 (.dispatch 1 0) 0 [Group.blank 0 0 0 192 8 0 (p0 (thr []) :: p1 (thr []) :: List.replicate 30 (thr []).asExited)] with frontier := f }] }
/-- A thread waits in an entry. -/
def inE (n : Nat) (th : Thread) : Thread := { th with place := .entry n }
/-- No block runs, and the selection finds a candidate (an aged one, deferred ones only) or none. -/
def selCase (s : State) (p : Team → Bool) : Bool := match s.team? 7 with | some t => t.runs && t.curEmpty && p t | none => false
theorem witness_Selection :
    selCase (idle (inE 0) (inE 1) [⟨0, 0x1020, 0⟩, ⟨1, 0x1010, 5⟩]) (fun t => !(t.candidates false).isEmpty && !(t.candidates false).any (fun f => f.age == 63)) &&
    selCase (idle (inE 0) (inE 1) [⟨0, 0x1020, 63⟩, ⟨1, 0x1010, 62⟩]) (fun t => (t.candidates false).any (fun f => f.age == 63)) &&
    selCase (idle (fun th => { inE 0 th with deferred := true }) (fun th => { inE 0 th with deferred := true }) [⟨0, 0x1020, 0⟩])
      (fun t => (t.candidates false).isEmpty && t.anyDeferred && !(t.candidates true).isEmpty) &&
    selCase (idle (fun th => { inE 0 th with mr := 0x1020 }) (fun th => { inE 0 th with mr := 0x1020 }) [⟨0, 0x1020, 0⟩])
      (fun t => (t.candidates false).isEmpty && !t.anyDeferred && (t.thread? 0 0).any (fun th => t.isHeld th)) = true := by decide +kernel
/-- A CV register whose declared set is thread 2, which waits outside the block. -/
def cvOut : CvReg := { CvReg.blank with declared := 4 }
/-- The clause at 0x1000 waits for CV0, and thread 2 waits elsewhere. -/
def stuck : State :=
  let s := upT st0 (fun t => { t with cv := cvOut :: List.replicate 7 CvReg.blank, frontier := [⟨0, 0x1020, 0⟩] })
  let s1 := upG s (fun g => { g with threads := modifyAt (fun _ => inE 0 { thr [] with pc := 0x1020 }) 2 g.threads })
  { s1 with contexts := [Context.blank 1 (codeMem [(0x1000, 0xC1A5000001000080), (0x1010, entryHdr), (0x1020, entryHdr), (0x1030, entryHdr)])] }
/-- A thread that is to raise a fault at its next clause. -/
def owing (c : Cause) : State := upH st0 (fun th => { th with faults := [⟨.uncorr, 0, 0⟩, ⟨c, 5, 7⟩] })
/-- The team stands at a div of slot 3 with its budget spent. -/
def spent (s : State) : State :=
  let w : DWord := match encode (.div h0 false (.v 4) (.v 0) (.v 1) 3) with | .igfin w => w | _ => 0
  { upT s (fun t => { t with budgeted := true }) with contexts := [Context.blank 1 ((code4 entryHdr).writeN 0x1008 (dwordBytes w))] }
/-- It does, and the group's surroundings and the instruction satisfy `p`. -/
def spentOn (s : State) (p : Env → Instr → Bool) : Bool :=
  ((spent s).team? 7).any (fun t => t.budgeted && t.budget == 0 && t.groups.length == 1 && t.groups.all (fun g =>
    match envOf (spent s) 7 g.gix, nextOf (spent s) 7 g.gix with | some e, some i => p e i | _, _ => false))
theorem witness_ClauseFaults :
    (match envOf stuck 7 0 with
      | some e => e.team.runs && e.clauseBegin && hdrOk e.hdr && !e.sbWaits && e.cvWaits.find? e.team.cvStuck == some 0 && e.canTrap && !e.act.isEmpty
      | none => false) = true ∧
    ([.badscale, .callfault] : List Cause).all (fun c => match envOf (owing c) 7 0 with
      | some e => e.team.runs && e.clauseBegin && pcIdx e.pc == 0 && e.act.contains 1 && e.canTrap &&
          (e.thread 1).any (fun th => th.faults.find? (fun f => f.cause == c) == some ⟨c, 5, 7⟩)
      | none => false) = true ∧
    spentOn st0 (fun e i => !e.g.held && e.begins i) = true ∧ spentOn (busy .load st0) (fun e i => e.spent && !e.begins i) = true := by decide +kernel
/-- R264: a spent budget kills the team when the instruction would begin, and not while its slot is busy. -/
theorem test_timeout : after (.timeout 7) (spent st0) (fun t => (t.team? 7).map Team.killed == some (some .timeout)) &&
    after (.timeout 7) (spent (busy .load st0)) (fun t => (t.team? 7).map Team.killed == some none) = true := by decide +kernel

/-- Region 3 of context 1 over 64 words of core 0, and its DET twin. -/
def region (det : Bool) : Region := ⟨0, 3, 1, 0, 0x10000, 64, 0x3C23D70A, 0x41800000, 0x1000, 5, det, 0⟩
/-- The threads name its words 0 and 1 with good operands, in v1 to v3. -/
def est (det : Bool) (s : State) : State := { s with regions := [region det] }
/-- The registers. -/
def estRegs : State := st [(0, 0x10000), (4, 0x3F800000), (5, 0x3F800000), (6, 0)] [(0, 0x10010), (4, 0x40000000), (5, 0xBF800000), (6, 0)] [(0, 3), (1, 0x3F000000)]
/-- Each live thread's word is legal, in core 0; the unit has room. -/
def estCase (det : Bool) (i : Instr) : Bool :=
  begins (est det estRegs) i (fun e h => !e.g.held && (e.live i h).all (fun n => match e.estWord e.s ⟨.s, .v 0, 0, 16, 16, 16, .est⟩ n with
      | .ok (addr, r) => r.det == det && spCore addr == 0 && e.team.core == 0 | .error _ => false) &&
    decide ((e.s.estUnit e.team.die 0).inbuf.length + (e.live i h).length ≤ Config.estBuf ∧ e.s.stagedCount e.team.die 0 + (e.live i h).length ≤ Config.estStage))
theorem witness_Contributions : estCase false (.esamp h0 (.v 0) 0 (.v 4)) && estCase true (.esampW h0 (.v 0) 0 (.v 4)) && estCase false (.esampB h0 (.v 0) 0 (.v 4)) = true := by decide +kernel
/-- A sample, and a batch, for word 0 of region 3 from core 0. -/
def contrib (batch : Bool) : Contrib := ⟨1, 1, 0, 0, 0, 0, 0, 0x10000, 3, batch, if batch then 4 else 0x3F800000, 0x40000000, 0⟩
/-- A contribution is the oldest request of core 0. -/
def merging (det batch : Bool) (lag : Bool) : State :=
  { est det st0 with
    est := [⟨0, 0, [.contrib (contrib batch)], []⟩],
    taskqs := [{ ctx := 1, num := 5, die := 0, ring := 0x1000, logn := 4, head := 0, tail := 0, dtable := 0, dnode := 0, maxteams := 0, nextTeam := 0, alive := 0, stopped := false, lastGet := (0, 0, 0) }],
    scratch := if lag then Memory.writeN [] 0x10000 (wordBytes 0x42000000 ++ wordBytes 0x3F800000 ++ wordBytes 0x47000000) else [] }
/-- Word 0 of the region lies in a poisoned line. -/
def bad0 (s : State) : State := { s with poisoned := [dieKey 0 0x10000 / 64] }
theorem witness_EstimatorMerges : estCase false (.eld h0 (.v 8) (.v 0) 0 2 4) &&
    ([merging false false false, merging false true false, merging true false false] : List State).all (fun s => (s.estUnit 0 0).inbuf.length == 1) &&
    ((merging false false false).region? 0 3).any (fun r => r.ctx == 1 && !(((merging false false false).eword 0 0x10000).sample 0x3F800000 0x40000000).lags r) &&
    ((merging false false true).region? 0 3).any (fun r => r.ctx == 1 && (((merging false false true).eword 0 0x10000).sample 0x3F800000 0x40000000).lags r &&
      ((merging false false true).taskqOn r.die r.ctx r.queue).any (fun q => (merging false false true).pushes.isEmpty && decide (0 < (merging false false true).room q) && (merging false false true).lineOk r.ctx q.die (q.line q.tail))) &&
    ([id, bad0] : List (State → State)).all (fun f => lands .eld (f { busy .eld st0 with est := [⟨0, 0, [.read 7 0 3 0 0x10000 8 2], []⟩] })) &&
    (bad0 (merging false false false)).isPoisoned 0 0x10000 && !(merging false false false).isPoisoned 0 0x10000 = true := by decide +kernel
/-- R382: a poisoned word takes no contribution. -/
theorem test_poisoned : after (.estimatorMerge 0 0) (bad0 (merging false false false)) (fun t => t.scratch.isEmpty && (t.estUnit 0 0).inbuf.isEmpty) = true := by decide +kernel
/-- R30: an eld request gives no T register once its code block has ended. -/
theorem test_eld_ended : ([(1793, 2), (8, 4)] : List (Nat × Nat)).all (fun p =>
    after (.estimatorMerge 0 0) { upG st0 (fun g => { g with ops := [{ op3 .eld with need := 1, ended := [0] }] }) with est := [⟨0, 0, [.read 7 0 3 0 0x10000 p.1 2], []⟩] }
      (fun t => (t.opAt 7 0 3).any (fun o => o.need == 0 && o.preds == [(0, 2, true)] && o.writes.length == p.2))) = true := by decide +kernel
/-- A descriptor at 0x40, and the instructions that name it or region 3. -/
def descBytes : List Byte := wordBytes 0x10000 ++ wordBytes 64 ++ wordBytes 0x3C23D70A ++ wordBytes 0x41800000 ++ dwordBytes 0x1000 ++ wordBytes 5 ++ wordBytes 0
/-- A region command of the group at work, which acts in cycle 2. -/
def atWork (j : RegionJob) : RegionOp := ⟨⟨1, 7, 7, 0⟩, [.thread 7 0], 0, j, 2⟩
/-- The command begins, the group's contributions are merged, and `p`. -/
def regCase (s : State) (i : Instr) (p : Env → Bool) : Bool := begins s i (fun e h => e.anyReal i h && !e.ownContribs && p e)
theorem witness_RegionCommands :
    regCase { st [] [] [(0, 0x40), (1, 3)] with scratch := Memory.writeN [] 0x40 descBytes } (.ereg h0 (.k 0) (.k 1)) (fun e =>
      let bs := e.s.readLoc (.die e.team.die (e.w 32 1 (.k 0)).toNat) 32
      decide ((e.w 32 1 (.k 0)).toNat % 32 = 0 ∧ (e.w 32 0 (.k 1)).toNat ≤ 63) && e.s.dieFault e.team.ctx e.team.die 0x40 .any == none && (e.s.region? 0 3).isNone && descOk bs &&
        e.s.rangeOwned 1 0 0x10000 1024 && !(e.s.overlaps (region false))) &&
    regCase (est true estRegs) (.edecay h0 (.k 0) (.k 1)) (fun e => (e.s.region? e.team.die (e.w 32 1 (.k 0)).toNat).any (fun r => r.ctx == e.team.ctx) &&
      f32Ge (e.w 32 0 (.k 1)) 0 && f32Ge 0x3F800000 (e.w 32 0 (.k 1)) && !e.s.isPoisoned 0 0x10000) &&
    regCase { est true (st [] [] [(0, 0x40), (1, 3)]) with scratch := Memory.writeN [] 0x40 descBytes, est := [⟨0, 0, [], [contrib false, { contrib false with addr := 0x10010 }]⟩] } (.ereg h0 (.k 0) (.k 1)) (fun e =>
      let bs := e.s.readLoc (.die 0 0x40) 32
      e.s.sees (e.s.reader e.author (e.issuers (.ereg h0 (.k 0) (.k 1)) h0)) (.die 0 0x40) 32 && descOk bs && e.s.rangeOwned 1 0 0x10000 1024 && !(e.s.overlaps (region false)) &&
      (e.s.region? 0 3).any (fun o => o.ctx == 1 && match e.s.toMerge o with | c :: cs => cs.any (fun x => x.addr != c.addr) | [] => false)) &&
    ([(none, 1), (some 0x3F000000, 3)] : List (Option Word × Nat)).all (fun x => let o := atWork (.scale x.1 0x10000 4 x.2); let s := { est false estRegs with regionOps := [o] }
      s.late.isEmpty && decide (1 ≤ x.2 ∧ x.2 < 4) && !s.isPoisoned 0 (0x10000 + 16 * x.2) &&
      (let s := upG s (fun g => { g with clauseAt := some 0x1000 }); (envOf s 7 0).any (fun e => e.team.runs && !e.clauseBegin) && s.regionOps.any (fun o => o.by_.team == 7 && o.by_.gix == 0))) &&
    (let s := { est true estRegs with regionOps := [atWork (.merge [contrib false, { contrib false with addr := 0x10010 }] none)] }
     s.late.isEmpty && s.regionOps.all (fun o => decide (o.due ≤ s.clock + 2 ∧ s.clock + 2 < o.due + 2)) && !s.isPoisoned 0 0x10000 &&
       (s.region? 0 3).all (fun r => !((s.eword 0 0x10000).sample 0x3F800000 0x40000000).lags r)) &&
    regCase { est true estRegs with est := [⟨0, 0, [], [contrib false]⟩] } (.eflush h0 (.k 0)) (fun e => (e.s.region? e.team.die (e.w 32 1 (.k 0)).toNat).any (fun r => r.ctx == e.team.ctx && r.det &&
      ((e.s.est.flatMap (fun u => u.staged)).filter (fun c => c.inRegion r)).length == 1 && !((e.s.eword 0 0x10000).sample 0x3F800000 0x40000000).lags r)) &&
    regCase (est false estRegs) (.eclr h0 (.k 0)) (fun e => (e.s.region? e.team.die (e.w 32 1 (.k 0)).toNat).any (fun r => r.ctx == e.team.ctx)) &&
    ([.edecay h0 (.k 0) (.k 1), .eflush h0 (.k 0), .eclr h0 (.k 0)] : List Instr).all (fun i => trapping estRegs i (fun e _ => e.anyReal i h0 && !e.ownContribs && (e.s.region? e.team.die (e.w 32 1 (.k 0)).toNat).isNone)) = true := by
  decide +kernel

/-- R279: eclr acts on the first word as it begins, and on the second two cycles later. -/
theorem test_region : after (.eclr h0 (.k 0)) { est false estRegs with scratch := Memory.writeN [] 0x10000 (List.replicate 48 1) } (fun t =>
    t.scratch.length == 32 && match step { t with agenda := [.tick 2] } with
      | .next u => u.scratch.length == 16 && u.regionOps.map RegionOp.job == [.scale none 0x10000 64 2] && (nextOf u 7 0).isNone | _ => false) = true := by decide +kernel
/-- R211, R279: an eflush merges what is staged for its first word, then for the second. -/
theorem test_flush : after (.eflush h0 (.k 0)) { est true estRegs with est := [⟨0, 0, [], [{ contrib false with addr := 0x10010 }, contrib false]⟩] } (fun t =>
    (t.eword 0 0x10000).w == 0x3F800000 && (t.eword 0 0x10010).w == 0 && match step { t with agenda := [.tick 2] } with
      | .next u => (u.eword 0 0x10010).w == 0x3F800000 && u.regionOps.isEmpty | _ => false) = true := by decide +kernel

/-! ### Witnesses: the matrix engine -/

/-- Team 7 has 16 KiB of the operand buffer, X3 a valid FN4 record over the first four of them, and the image of another in k4 to k7. -/
def matrix : State := upT (withMat (st [(0, 64), (1, 32)] [(0, 128), (1, 64)] [(4, 0x00501000), (8, 0), (9, 0x0301), (10, 0x40)])) (fun t =>
  { t with opSize := 16, x := (List.replicate 16 0).set 3 (XRec.word ⟨true, 0, 5, 4, 0, 0, 0, 0, false⟩) })
/-- The record X3 is named by a signature. -/
def named (s : State) : State := upT s (fun t => { t with cv := { CvReg.blank with params := true, xidx := 3, declared := 1 } :: List.replicate 7 CvReg.blank })
/-- A command of the matrix class that some live thread performs. -/
def xCase (s : State) (i : Instr) (p : Env → Bool) : Bool := begins s i (fun e h => e.anyReal i h && e.team.x.length == 16 && p e)
/-- The image in k4 to k7. -/
def img4 (e : Env) : XRec := XRec.of (BitVec.ofNat 128 ((e.reg 32 1 (.k 4) 0).toNat + (e.reg 32 1 (.k 4) 1).toNat * 2 ^ 32 + (e.reg 32 1 (.k 4) 2).toNat * 2 ^ 64 + (e.reg 32 1 (.k 4) 3).toNat * 2 ^ 96))
theorem witness_Records :
    ((matrix.team? 7).bind (fun t => t.findRange 5 4)) = some 4 ∧
    xCase matrix (.xres h0 5 (.k 4)) (fun e => !e.recordInUse 5 && !e.team.recordNamed 5 && !(img4 e).bad && (e.team.findRange 5 (img4 e).size).any (fun b => decide (b < 1024))) = true ∧
    xCase matrix (.xrel h0 3) (fun e => !e.recordInUse 3 && !e.team.recordNamed 3) = true ∧
    xCase matrix (.xsc h0 3 (.k 8) (.k 9)) (fun e => !e.recordInUse 3 && !e.team.recordNamed 3 && (e.team.xrec 3).valid && decide ((e.w 32 2 (.k 9)).toNat < 2 ^ 16) &&
      !({ e.team.xrec 3 with scoff := (e.w 32 1 (.k 8)).toNat, padk := (e.w 32 2 (.k 9)).toNat / 256, padn := (e.w 32 2 (.k 9)).toNat % 256 } : XRec).bad) = true ∧
    begins matrix (.xld h0 true 3 (.v 0) (.v 1) 6) (fun e h => (e.live (.xld h0 true 3 (.v 0) (.v 1) 6) h).all (fun n => !e.helper n && (e.team.xrec 3).valid &&
      (match e.access e.s ⟨.h, .v 0, 0, 1, 32, 32, .any⟩ n with | .ok _ => true | .error _ => false) && decide ((e.w n 2 (.v 1)).toNat % 32 = 0 ∧ (e.w n 2 (.v 1)).toNat + 32 ≤ (e.team.xrec 3).size * 1024))) = true ∧
    (let s := upG matrix (fun g => { g with ops := [{ op3 .xld with xrec := 3, xbytes := [(0, 1), (1023, 2)] }] })
     (s.opAt 7 0 3).any (fun o => o.kind == .xld && (s.team? 7).any (fun t => (t.xrec o.xrec).valid && o.xbytes.all (fun p => decide (1024 * (t.xrec o.xrec).base ≤ p.1 ∧ p.1 < 1024 * ((t.xrec o.xrec).base + (t.xrec o.xrec).size)))) && decide ((o.xbytes.map Prod.fst).Nodup))) = true ∧
    (let s := upG matrix (fun g => { g with ops := [{ op3 .xld with xrec := 3, xbytes := [(0, 1), (32, 2)], reads := [⟨0, .die 0 0x40, 32, .xld h0 false 3 (.v 0) (.v 1) 6, 32, 0, 1, 0, 0⟩] }] })
     s.late.isEmpty && (s.group? 7 0).any (fun g => g.ops.all (fun o => o.reads.length == 1 && o.reads.all (fun r => !s.badPlace r.loc && ({ s with poisoned := [dieKey 0 0x40 / 64] } : State).badPlace r.loc && decide (r.due ≤ s.clock + 1) &&
       match r.i with | .xld .. => true | _ => false)))) = true ∧
    trapping (named matrix) (.xres h0 3 (.k 4)) (fun e _ => e.anyReal (.xres h0 3 (.k 4)) h0 && !e.recordInUse 3 && e.team.recordNamed 3) = true ∧
    trapping matrix (.xres h0 5 (.k 12)) (fun e _ => e.anyReal (.xres h0 5 (.k 12)) h0 && !e.recordInUse 5 && (e.run 32 1 (.k 12) 4).all (fun w => w == 0)) = true ∧
    trapping (upT matrix (fun t => { t with opSize := 7 })) (.xres h0 5 (.k 4)) (fun e _ => (e.team.findRange 5 (img4 e).size).isNone) = true ∧
    trapping matrix (.xsc h0 5 (.k 8) (.k 9)) (fun e _ => !(e.team.xrec 5).valid) = true ∧ trapping (named matrix) (.xsc h0 3 (.k 8) (.k 9)) (fun e _ => !e.recordInUse 3 && e.team.recordNamed 3) = true ∧
    trapping (upG matrix (fun g => { g with k := [(9, 0x10000)] })) (.xsc h0 3 (.k 8) (.k 9)) (fun e _ => (e.team.xrec 3).valid && decide (2 ^ 16 ≤ (e.w 32 2 (.k 9)).toNat)) = true ∧
    trapping (upG matrix (fun g => { g with k := [(9, 32)] })) (.xsc h0 3 (.k 8) (.k 9)) (fun e _ => (e.team.xrec 3).valid && !e.recordInUse 3 && !e.team.recordNamed 3 &&
      decide ((e.w 32 2 (.k 9)).toNat < 2 ^ 16 ∧ 31 < (e.w 32 2 (.k 9)).toNat % 256)) = true ∧
    trapping (named matrix) (.xrel h0 3) (fun e _ => e.anyReal (.xrel h0 3) h0 && (e.team.xrec 3).valid && !e.recordInUse 3 && e.team.recordNamed 3) = true ∧
    trapping matrix (.xld h0 true 5 (.v 0) (.v 1) 6) (fun e n => !e.helper n && !(e.team.xrec 5).valid) = true ∧
    trapping (upH matrix (fun th => { th with v := th.v.write 0 1 })) (.xld h0 true 3 (.v 0) (.v 1) 6) (fun e n => !e.helper n && (e.team.xrec 3).valid &&
      (match e.access e.s ⟨.h, .v 0, 0, 1, 32, 32, .any⟩ n with | .ok _ => false | .error _ => true)) = true ∧
    ([1, 4096] : List Word).all (fun w => trapping (upH matrix (fun th => { th with v := th.v.write 1 w })) (.xld h0 true 3 (.v 0) (.v 1) 6) (fun e n => !e.helper n && (e.team.xrec 3).valid &&
      (match e.access e.s ⟨.h, .v 0, 0, 1, 32, 32, .any⟩ n with | .ok _ => true | .error _ => false) &&
      decide ((e.w n 2 (.v 1)).toNat % 32 ≠ 0 ∨ (e.team.xrec 3).size * 1024 < (e.w n 2 (.v 1)).toNat + 32))) = true := by
  decide +kernel
/-- CV1 holds threads 0 and 1, unsigned. -/
def declared (s : State) : State := upT s (fun t => { t with cv := List.replicate 2 { CvReg.blank with declared := 3 } ++ List.replicate 6 CvReg.blank })
/-- A format of X3 and a register CV1 for mma. -/
def mmaCase (s : State) (p : Env → CvReg → Bool) : Bool :=
  begins s (.mma h0 .fn4 2 (.v 16) 3 1 true) (fun e _ => decide (e.g.gix < 32) && e.g.threads.length == 32 && e.scaleFault (.v 16) 3 == none && (e.team.cv[1]?).any (p e))
theorem witness_Convergence :
    begins matrix (.cvdeclSet h0 1 ⟨false, 1⟩) (fun e h => decide (e.g.gix < 32) && e.g.threads.length == 32 && (e.team.cv[1]?).any (fun c => !c.waitsToBegin && !(c.params && !c.issued)) &&
      (e.live (.cvdeclSet h0 1 ⟨false, 1⟩) h).length == 2) = true ∧
    begins (declared matrix) (.cvdeclAdd h0 1 ⟨false, 1⟩) (fun e _ => (e.team.cv[1]?).any (fun c => !c.waitsToBegin && !(c.params && !c.issued))) = true ∧
    trapping (named matrix) (.cvdeclSet h0 0 ⟨false, 1⟩) (fun e _ => (e.team.cv[0]?).any (fun c => c.params && !c.issued)) = true ∧
    trapping (upT matrix (fun t => { t with cv := List.replicate 8 { CvReg.blank with declared := 0x7FFFFFFF00000000 } })) (.cvdeclSet h0 1 ⟨false, 1⟩) (fun e _ =>
      decide (e.g.gix < 32) && e.g.threads.length == 32 && (e.team.cv[1]?).any (fun c => !c.waitsToBegin && (declaredThreads c.declared).length == 31 && [0, 1].all (fun n => e.psrc n ⟨false, 1⟩))) = true ∧
    mmaCase (declared matrix) (fun e c => (e.team.xrec 3).valid && (e.team.xrec 3).fmt == 5 && (e.s.matctxOf e.team).isSome && !c.issued && !c.params &&
      [0, 1].all (fun k => c.declared.getLsbD k && !c.signed.getLsbD k)) = true ∧
    mmaCase { upT (declared matrix) (fun t => { t with matctx := none }) with matctx := [] } (fun e c => (e.s.freeMat e.team.die e.team.core).isSome && !c.issued) = true ∧
    trapping matrix (.mma h0 .fn4 2 (.v 16) 3 1 true) (fun e n => (e.team.cv[1]?).any (fun c => !c.declared.getLsbD n) && e.team.matctx.isSome && e.scaleFault (.v 16) 3 == none) = true ∧
    trapping (declared matrix) (.mma h0 .fn4 2 (.v 16) 4 1 true) (fun e _ => !(e.team.xrec 4).valid) = true ∧
    trapping (declared matrix) (.mma h0 .bf16 2 (.v 16) 3 1 true) (fun e _ => (e.team.xrec 3).valid && (e.team.xrec 3).fmt != 0 && e.scaleFault (.v 16) 3 == none) = true := by decide +kernel
/-- A step of a matrix context. -/
def step1 : MStep := { id := 9, cycle := 0, cv := 1, acc := 2, xidx := 3, fmt := 5, reuse := false, acode := 16, rows := [0, 1], signers := [0, 1], snap := [] }
/-- Its result at two places. -/
def run1 : MRun := { step := step1, result := [(2048, 0x3F800000), (2049, 0)], flags := 0, bad := none }
/-- The context of team 7 with a step that waits, or one that runs. -/
def withStep (p : List MStep) (r : Option MRun) : State := { matrix with clock := 1, matctx := [{ mat with pending := p, running := r }] }
/-- An acc.ld that waits for its step, from a poisoned line. -/
def badAcc : PendOp := { op3 .acc with acc := .ld 2 false 0x40 ⟨⟨1, 7, 7, 0⟩, [.thread 7 0], ⟨0, 0, 0, 0⟩, 0⟩ }
/-- An xld that may still read 0x40 for bytes 32 to 63. -/
def lateXld : PendOp :=
  { op3 .xld with xrec := 3, xbytes := [(31, 1), (32, 2), (33, 2)], reads := [⟨0, .die 0 0x40, 32, .xld h0 false 3 (.v 0) (.v 1) 6, 32, 0, 1, 0, 0⟩] }
/-- R295: the bytes that a copy wrote take their place in an xld that has issued. R382: the acc.ld is not made. -/
theorem test_late_xld : (match step { upG matrix (fun g => { g with ops := [lateXld] }) with scratch := [(0x41, 9)], agenda := [.tick 1] } with
    | .next t => (t.opAt 7 0 3).map PendOp.xbytes == some [(31, 1), (32, 0), (33, 9)] | _ => false) &&
    (let s := { withStep [] none with poisoned := [dieKey 0 0x40 / 64 + 63], scratch := [(0x40, 9)] }; (s.actAcc 7 0 badAcc).matctx == s.matctx) = true := by decide +kernel
theorem witness_TileSteps :
    ((withStep [step1] none).matctx.find? (fun m => m.die == 0 && m.core == 0 && m.idx == 0)).any (fun m => m.pending == [step1] && ((withStep [step1] none).team? m.team).isSome &&
      (withStep [step1] none).engineIdle 0 0 && (withStep [step1] none).mayBegin m && (withStep [step1] none).hasTurn m) = true ∧
    ((withStep [step1] none).team? 7).any (fun t => decide (step1.rows.length ≤ 32 ∧ (t.xrec step1.xidx).padn < 32)) = true ∧
    ((withStep [] (some run1)).matctx.find? (fun m => m.die == 0 && m.core == 0 && m.idx == 0)).any (fun m => m.running == some run1 && run1.bad.isNone && decide ((run1.result.map Prod.fst).Nodup) &&
      ((withStep [] (some run1)).team? m.team).any (fun t => t.groups.all (fun g => g.ops.all (fun o => o.kind != .acc)))) = true ∧
    (let p : StepShape := ⟨.fn4, 64, 1, false, 0⟩
     p.scaled = false ∧ p.nb = 1 ∧ p.padk = 0 ∧ 0 < p.k ∧
       ((List.range p.k).map (cellFV p.ty 0x31)).all (fun v => match v with | .fin _ _ _ => true | _ => false) = true) := by decide +kernel
/-- An accumulator instruction begins, no other of the team is about to act, and no line is poisoned. -/
def accCase (s : State) (i : Instr) (p : Env → Bool) : Bool :=
  begins s i (fun e h => e.anyReal i h && e.team.groups.all (fun g => g.ops.all (fun o => o.kind != .acc || !o.waits.isEmpty || decide (o.acc = .none))) && e.s.poisoned.isEmpty && p e)
theorem witness_Accumulators :
    accCase matrix (.accClr h0 7) (fun e => (e.s.matctxOf e.team).isSome && (e.stepsOn 7).isEmpty) && accCase matrix (.accMv h0 true (.v 32) 5 4) (fun e => (e.s.matctxOf e.team).isSome && (e.stepsOn 5).isEmpty) &&
    accCase (withStep [step1] none) (.accMv h0 false (.v 32) 2 4) (fun e => (e.s.matctxOf e.team).isSome && !(e.stepsOn 2).isEmpty) &&
    accCase matrix (.accLd h0 true 2 (.k 8) 4) (fun e => (e.s.matctxOf e.team).isSome && (e.stepsOn 2).isEmpty && decide ((e.w 32 1 (.k 8)).toNat % 64 = 0 ∧ (e.w 32 1 (.k 8)).toNat + 4096 ≤ e.team.shsize)) &&
    accCase matrix (.accSt h0 false (.k 8) 2 4) (fun e => (e.s.matctxOf e.team).isSome && (e.stepsOn 2).isEmpty && e.s.parked.isEmpty &&
      (List.range 64).all (fun k => e.s.dieFault e.team.ctx e.team.die ((e.w 32 1 (.k 8)).toNat + 64 * k) .plain == none)) &&
    accCase (withStep [step1] none) (.accLd h0 true 2 (.k 8) 4) (fun e => (e.s.matctxOf e.team).isSome && !(e.stepsOn 2).isEmpty && decide ((e.w 32 1 (.k 8)).toNat % 64 = 0 ∧ (e.w 32 1 (.k 8)).toNat + 4096 ≤ e.team.shsize)) &&
    accCase (withStep [step1] none) (.accSt h0 false (.k 8) 2 4) (fun e => (e.s.matctxOf e.team).isSome && !(e.stepsOn 2).isEmpty &&
      (List.range 64).all (fun k => e.s.dieFault e.team.ctx e.team.die ((e.w 32 1 (.k 8)).toNat + 64 * k) .plain == none)) &&
    accCase (withStep [step1] none) (.mstat h0 (.v 2) 4) (fun e => (e.s.matctxOf e.team).isSome && ((e.s.openSteps e.team).filter (fun st => decide (st.cycle < e.fp))).length == 1) &&
    accCase matrix (.mstat h0 (.v 2) 4) (fun e => ((e.s.openSteps e.team).filter (fun st => decide (st.cycle < e.fp))).isEmpty) &&
    accCase { withStep [step1] none with clock := 0 } (.mstat h0 (.v 2) 4) (fun e => !(e.s.openSteps e.team).isEmpty && ((e.s.openSteps e.team).filter (fun st => decide (st.cycle < e.fp))).isEmpty) &&
    (let s := { withStep [] none with poisoned := [dieKey 0 0x40 / 64 + 63] }; (s.team? 7).any (fun t => (s.matctxOf t).isSome && s.badPlace ((accLoc t false 0x40).plus (64 * 63)))) &&
    (let s := { upT (withStep [] none) (fun t => { t with localGran := [3] }) with poisoned := [192] }; (s.team? 7).any (fun t => (s.matctxOf t).isSome && s.badPlace ((accLoc t true 0).plus 0))) &&
    accCase st0 (.mstat h0 (.v 2) 4) (fun e => (e.s.matctxOf e.team).isNone) && accCase matrix (.mstat h0 (.v 2) 4) (fun e => (e.s.matctxOf e.team).isSome && (e.s.openSteps e.team).isEmpty) &&
    ([.accMv h0 true (.v 32) 5 4, .accLd h0 true 2 (.k 10) 4, .accSt h0 false (.k 8) 2 4, .accClr h0 7] : List Instr).all (fun i =>
      trapping st0 i (fun e _ => e.anyReal i h0 && (e.s.matctxOf e.team).isNone && (e.stepsOn 7).isEmpty)) = true := by decide +kernel

/-! ### Witnesses: copies, calls, tasks, claims -/

/-- A page of 64 KiB at virtual address 0x200000, of which the frame lies at 0x10000. -/
def page (place : PagePlace) (w cow : Bool) : Page := ⟨0x200000, 0x10000, place, true, w, cow, 0, false⟩
/-- Context 1 with the page and a peer. -/
def paged (p : Page) (s : State) : State :=
  { s with
    contexts := s.contexts.map (fun c => { c with pages := [p], hbmQuota := 0x100000 }),
    hub := { s.hub with peers := [⟨1, 9, [], [7]⟩] } }
/-- The frame is there. -/
def here : Page := page (.resident 0x10000) true false
/-- A descriptor of eight bytes in k8 to k15, and an arrival word at 0x80 in k16. -/
def copyRegs : State := paged here (st [] [] [(8, 0x40), (11, 0x10008), (12, 0x1001), (13, 0x200000), (15, 9), (16, 0x80)])
/-- The same for a die's own scratchpad on both sides: word 5 names 0x100. -/
def spRegs : State := st [] [] [(8, 0x40), (11, 0x10008), (12, 0x1001), (13, 0x100), (16, 0x80)]
/-- The command the group would issue passes the checks. -/
def copyCase (s : State) (i : Instr) (k : CopyKind) (b : Opnd) : Bool :=
  begins s i (fun e _ => e.anyReal i h0 && !e.s.copyFull e.team.die e.team.core && (e.s.copyDesc (e.copyOf e.s k true false .dev (.k 8) b)).isNone &&
    (e.s.arriveFault (e.copyOf e.s k true false .dev (.k 8) b)).isNone)
/-- The engine of core 0 as it reads for group 0 of team 7. -/
def engine0 : Reader := ⟨⟨1, 7, 7, 0⟩, [.copy 0 0], ⟨0, 0, 0, 0⟩, 0⟩
/-- Every copy slot of core 0 is busy. -/
def copyBusy (s : State) : State := { s with copies := List.replicate 32 ⟨90, .s2s, 0, 0, 1, 7, 0, [], none, false, false, .team, [], [], 0, 0, false, [], 0, engine0, none⟩ }
/-- A copy in flight, of eight bytes. -/
def fly (k : CopyKind) (desc : List Word) (arr : Option Nat) : Copy := ⟨5, k, 0, 0, 1, 7, 0, desc, arr, false, false, .team, [], [], 0, 0, false, [], 5, engine0, none⟩
/-- The same, releasing, with every unit written. -/
def flyRel (arr : Option Nat) : Copy :=
  ⟨5, .s2s, 0, 0, 1, 7, 0, [0x40, 0, 0, 0x10008, 0x1001, 0x100, 0, 0], arr, false, true, .dev, List.range 8, [], 8, 0, false, [], 5, engine0, none⟩
/-- The unit of the destination is due, and both sides can be reached. -/
def dueUnit (s : State) (c : Copy) (u : Nat) (d : Side) (hold : Hold) : Bool :=
  (s.copy? 5) == some c && c.stalled.isNone && (s.nextUnit c).isSome && s.unitBytes c u != [] && s.unitHold c (s.unitBytes c u) == hold && !s.storesMeet c (s.unitBytes c u) && c.dst == d
/-- The state with one copy. -/
def flying (s : State) (c : Copy) : State := { s with copies := [c] }
/-- Its words: to the scratchpad, to main memory, to a peer, and to a line that the context does not own. -/
def words8 (w0 w5 w7 : Word) : List Word := [w0, 0, 0, 0x10008, 0x1001, w5, 0, w7]
/-- A write of view 0 on its way to view 2, and one that comes too early. -/
def carried (n : Nat) : State := { State.reset with carried := [{ origin := 0, clock := [n, 0, 0, 0, 0], order := 7, cells := [(0x10000, 5)], dests := [1, 2], team := none, by_ := none, fills := false, copy := none, sp := none }] }
theorem witness_Copies :
    copyCase copyRegs (.copyG2s h0 true false .dev (some 2) (.k 8) (.k 16)) .g2s (.k 16) && copyCase copyRegs (.copyS2g h0 true false .dev none (.k 8) (.c 0)) .s2g (.c 0) &&
    copyCase spRegs (.copyS2s h0 true false .dev none (.k 8) (.k 16)) .s2s (.k 16) && copyCase spRegs (.copyDie h0 true false .dev none (.k 8) (.k 16)) .die (.k 16) &&
    copyCase copyRegs (.copyNet h0 true false .dev none (.k 8) (.k 16)) .net (.k 16) &&
    begins (copyBusy copyRegs) (.copyG2s h0 true false .dev (some 2) (.k 8) (.c 0)) (fun e _ => e.anyReal (.copyG2s h0 true false .dev (some 2) (.k 8) (.c 0)) h0 && e.s.copyFull e.team.die e.team.core) &&
    trapping st0 (.copyG2s h0 true false .dev none (.k 8) (.c 0)) (fun e _ => e.anyReal (.copyG2s h0 true false .dev none (.k 8) (.c 0)) h0 && !e.s.copyFull e.team.die e.team.core &&
      (e.s.copyDesc (e.copyOf e.s .g2s true false .dev (.k 8) (.c 0))).isSome) = true := by decide +kernel
theorem witness_Copies_units :
    (let c := fly .g2s (words8 0x40 0x200000 0) (some 0x80); dueUnit (flying copyRegs c) c 0x40 (.sp 0 0) .go && (flying copyRegs c).lineOk 1 0 0x80 && decide (c.told ≤ c.raised) && !(flying copyRegs c).copyCarried 5) &&
    (let c := flyRel (some 0x80); let s := flying copyRegs c; s.copy? 5 == some c && c.stalled.isNone && (s.nextUnit c).isNone && decide (c.total ≤ c.raised) && s.mayRelease c && !s.copyCarried 5 &&
      c.dstDie == c.die && s.lineOk 1 0 0x80) &&
    (let c := fly .s2s (words8 0x40 0x100 0) none; dueUnit (flying copyRegs c) c 0x100 (.sp 0 5) .go && !c.overlaps (c.addr c.dst 0)) &&
    (let c := fly .s2g (words8 0x40 0x200000 0) none; dueUnit (flying copyRegs c) c 0x200000 .main .go && copyRegs.translate 1 0x200000 true == .at 0x10000 &&
      decide ((SMap.get? (copyRegs.view 0).order 0x10000).getD 0 < copyRegs.writeNo ∧ c.die < copyRegs.views.length)) &&
    (let c := fly .net (words8 0x40 0x200000 9) none; dueUnit (flying copyRegs c) c 0x200000 .net .go && !c.get) &&
    (let c := fly .s2s (words8 0x40 0x100 0) none; let s := flying (past8 [.copy 0 0] copyRegs) c;
      s.srcPlace c 0 == some (.die 0, 0x40) && (s.srcSpan c 0).any (fun u => decide (0 < u.2.2) && s.olds.all (fun w => w.touches u.1 u.2.1 u.2.2 && w.must c.reader))) &&
    (let c := fly .s2s (words8 0x40 0x100 0) none; let s := { flying copyRegs c with late := [⟨⟨1, 7, 7, 0⟩, [(0, .die 0 0x104, [5])], 4, 9, [], []⟩] };
      s.copy? 5 == some c && c.stalled.isNone && (s.nextUnit c).isSome && s.storesMeet c (s.unitBytes c 0x100)) &&
    (let c := fly .s2s (words8 0x40 0x100000 0) none; dueUnit (flying copyRegs c) c 0x100000 (.sp 0 5) .bad) &&
    ([(1, true), (2, false)] : List (Nat × Bool)).all (fun x => ((carried x.1).carried[0]?).any (fun w => w.dests.contains 2 && decide (2 < (carried x.1).views.length ∧ ((carried x.1).view 2).clock.length = 5 ∧ w.origin < 5) &&
      w.ready ((carried x.1).view 2) == x.2)) = true := by decide +kernel

/-- R235, R293: a copy does not release while a store or a read that its group issued before it is still to be performed. -/
theorem test_release : (let c := flyRel (some 0x80); let s := flying copyRegs c
    s.mayRelease c && !(lateLd 9 s).mayRelease c && !(lateSt 9 s).mayRelease c) = true := by decide +kernel

/-- Records of good Lattice and Glaze calls, of an ordered FRAG and of a TRI in v0 to v15: OP 1, RET 0x100. -/
def callRegs (w0 : Word) : State :=
  upT (st [(0, w0), (1, 0x100), (3, 4)] [(0, w0), (1, 0x120), (3, 5)] [(0, 10), (1, 65536)]) (fun t => { t with windows := [⟨30, 4, 8, []⟩] })
/-- Each thread's record passes and there is room. -/
def callCase (s : State) (i : Instr) (k : CallKind) : Bool :=
  begins s i (fun e h => ((e.live i h).filter (fun n => !e.helper n)).all (fun n => (e.s.badCall (e.callOf e.s k n (.v 0))).isNone && (!(e.callOf e.s k n (.v 0)).ordered || e.team.inWindow (e.callOf e.s k n (.v 0)).token)) &&
    decide (e.s.callCount e.team.die e.team.core k + ((e.live i h).filter (fun n => !e.helper n)).length ≤ Config.callBuf))
/-- A call of thread 0 that its unit has or has not taken. -/
def call1 (k : CallKind) (words : List Word) (acc : Bool) : Call := ⟨5, k, 0, 0, 1, 7, 0, 0, words, acc, false, 0, 0⟩
/-- The state with one call. -/
def calling (k : CallKind) (words : List Word) (acc : Bool) : State := { st0 with calls := [call1 k words acc] }
theorem witness_Calls :
    callCase (callRegs 1) (.cpcLat h0 (some 2) (.v 0)) .lat && callCase (callRegs 2) (.cpcGlz h0 none (.v 0)) .glz && callCase (callRegs 0x60000002) (.cpcCut h0 none (.v 0)) .cut &&
    callCase (callRegs 0x20000001) (.cpcIcg h0 none (.v 0)) .icg && trapping (callRegs 0x40000001) (.cpcLat h0 none (.v 0)) (fun e n => !e.helper n && (e.s.badCall (e.callOf e.s .lat n (.v 0))).isSome) &&
    trapping (upT (callRegs 0x20000001) (fun t => { t with windows := [] })) (.cpcIcg h0 none (.v 0)) (fun e n => (e.callOf e.s .icg n (.v 0)).ordered && !e.team.inWindow (e.callOf e.s .icg n (.v 0)).token) &&
    ([[1, 0x100], [5, 0x100], [0, 0x100]] : List (List Word)).all (fun w => (calling .cut w false).call? 5 == some (call1 .cut w false) && ((calling .cut w false).callsBefore (call1 .cut w false)).all (fun d => !d.sameThread (call1 .cut w false) || d.accepted)) &&
    (let s := { calling .cut [1, 0x100] false with calls := [⟨4, .cut, 0, 0, 1, 7, 0, 0, [1, 0x100], true, false, 0, 0⟩, call1 .cut [1, 0x100] false] };
      s.call? 5 == some (call1 .cut [1, 0x100] false) && s.callsBefore (call1 .cut [1, 0x100] false) != [] && (s.callsBefore (call1 .cut [1, 0x100] false)).all (fun d => d.accepted)) &&
    begins (callRegs 0) (.token h0 (.k 0) (.k 1)) (fun e h => e.anyReal (.token h0 (.k 0) (.k 1)) h && decide (1 ≤ (e.w 32 2 (.k 1)).toNat ∧ (e.w 32 2 (.k 1)).toNat ≤ 65536 ∧ e.team.windows.length < 2)) &&
    begins (upT (callRegs 0) (fun t => { t with windows := [⟨30, 4, 8, [1]⟩, ⟨31, 40, 2, []⟩] })) (.token h0 (.k 0) (.k 1)) (fun e h => e.anyReal (.token h0 (.k 0) (.k 1)) h && e.team.windows.length == 2) &&
    trapping st0 (.token h0 (.k 0) (.k 1)) (fun e _ => e.anyReal (.token h0 (.k 0) (.k 1)) h0 && (e.w 32 2 (.k 1)).toNat == 0) &&
    begins (callRegs 0) (.tskip h0 (.v 3)) (fun e h => e.team.windows.all (fun w => decide w.retired.Nodup && w.retired.all (fun k => decide (k < w.len))) && (e.live (.tskip h0 (.v 3)) h).all (fun n => e.team.openToken (e.w n 1 (.v 3))) && decide (((e.live (.tskip h0 (.v 3)) h).map (fun n => e.w n 1 (.v 3))).Nodup)) &&
    trapping st0 (.tskip h0 (.v 3)) (fun e n => !e.helper n && !e.team.openToken (e.w n 1 (.v 3))) = true := by decide +kernel

/-- Task queue 5 of context 1: a ring of 2^logn records at 0x1000. -/
def tq (logn head tail : Nat) : TaskQ :=
  { ctx := 1, num := 5, die := 0, ring := 0x1000, logn := logn, head := head, tail := tail, dtable := 0, dnode := 0, maxteams := 0, nextTeam := 0, alive := 0, stopped := false, lastGet := (0, 0, 0) }
/-- The state with it; k1 names it, and v7 and v23 a counter at 0x400. -/
def tasks (q : TaskQ) (v7 : Word) (count : Word) : State :=
  let s := upG (st [(7, v7), (32, 1)] [] [(1, 5)]) (fun g => { g with threads := g.threads.zipIdx.map (fun p => if p.2 = 1 ∧ v7 ≠ 0 then p.1.asExited else p.1) })
  { s with taskqs := [q], scratch := Memory.writeN [] 0x400 (wordBytes count ++ [5, 0]) }
/-- A record of the group's spawn, that of thread 1, waits in a queue with space. -/
def spawnWait : State :=
  { tasks (tq 4 0 3) 0 0 with pushes := [⟨9, 0, 1, 5, 7, 0, List.replicate 64 1, some (1, .spawn h0 none (.v 16) (.k 1))⟩] }
theorem witness_Tasks :
    begins (tasks (tq 4 0 14) 0 0) (.spawn h0 (some 2) (.v 16) (.k 1)) (fun e h => (e.s.taskqOn e.team.die e.team.ctx (e.w 32 2 (.k 1)).toNat).any (fun q => decide ((e.live (.spawn h0 (some 2) (.v 16) (.k 1)) h).length ≤ e.s.room q))) &&
    begins (tasks (tq 4 0 16) 0 0) (.spawn h0 (some 2) (.v 16) (.k 1)) (fun e _ => (e.s.taskqOn e.team.die e.team.ctx (e.w 32 2 (.k 1)).toNat).any (fun q => e.s.room q == 0)) &&
    begins (tasks (tq 4 0 15) 0 0) (.spawn h0 none (.v 16) (.k 1)) (fun e h => e.s.parked.isEmpty && (e.s.taskqOn e.team.die e.team.ctx (e.w 32 2 (.k 1)).toNat).any (fun q => e.s.room q == 1 && decide (e.s.room q < (e.live (.spawn h0 none (.v 16) (.k 1)) h).length))) &&
    trapping st0 (.spawn h0 none (.v 16) (.k 1)) (fun e n => !e.helper n && (e.s.taskqOn e.team.die e.team.ctx (e.w 32 2 (.k 1)).toNat).isNone) &&
    begins (tasks (tq 4 0 2) 0 0) (.tget h0 (.v 16) (.k 1) 5) (fun e h => e.anyReal (.tget h0 (.v 16) (.k 1) 5) h && (e.s.taskqOn e.team.die e.team.ctx (e.w 32 1 (.k 1)).toNat).isSome) &&
    (env? { tasks (tq 4 0 2) 0 0 with pushes := [⟨9, 0, 1, 5, 8, 0, List.replicate 64 1, none⟩] }).any (fun e =>
      e.anyReal (.tget h0 (.v 16) (.k 1) 5) h0 && (e.s.taskqOn e.team.die e.team.ctx (e.w 32 1 (.k 1)).toNat).any (fun q => e.s.pushes.any (fun p => p.ctx == q.ctx && p.queue == q.num) &&
        decide (q.tail - q.head < 2 ^ q.logn))) &&
    lands .tget (busy .tget st0) && ((upG st0 (fun g => { g with ops := [{ op3 .tget with hmask := some 2 }] })).opAt 7 0 3).any (fun o => o.kind == .tget && o.hmask == some 2) &&
    begins (tasks (tq 4 0 0) 0x400 2) (.tdone h0 (.v 0)) (fun e h => e.live (.tdone h0 (.v 0)) h == [0] && !e.helper 0 && (e.reg 0 1 (.v 0) 7) == 0x400 && e.s.dieFault 1 0 0x400 .plain == none && e.s.dieFault 1 0 0x440 .plain == none &&
      e.s.locWord (.die 0 0x400) == 2) &&
    begins (tasks (tq 4 0 0) 0x400 1) (.tdone h0 (.v 0)) (fun e _ => e.s.locWord (.die 0 0x400) == 1 && (e.s.taskqOn 0 1 (leNat (e.s.readLoc (.die 0 0x404) 2))).any (fun q => decide (0 < e.s.room q)) && decide (e.s.pendingOn 0 < Config.pendPush)) &&
    begins (tasks (tq 4 0 16) 0x400 1) (.tdone h0 (.v 0)) (fun e _ => e.s.locWord (.die 0 0x400) == 1 && (e.s.taskqOn 0 1 (leNat (e.s.readLoc (.die 0 0x404) 2))).any (fun q => e.s.room q == 0)) &&
    begins (upG st0 (fun g => { g with threads := g.threads.zipIdx.map (fun p => if p.2 = 1 then p.1.asExited else p.1) })) (.tdone h0 (.v 0)) (fun e h => e.live (.tdone h0 (.v 0)) h == [0] && (e.reg 0 1 (.v 0) 7) == 0) &&
    (let p : PendPush := ⟨9, 0, 1, 5, 7, 0, List.replicate 64 1, none⟩; let s := { tasks (tq 4 0 3) 0 0 with pushes := [p] }; s.pushes.find? (fun p => p.die == 0 && s.placeable p) == some p && (s.taskq? p.ctx p.queue).isSome && p.bytes.length == 64 && s.settled) &&
    (let s := spawnWait; s.pushes.find? (fun p => p.die == 0 && s.placeable p) == s.pushes.head? && s.settled && s.pushes.length == 1 &&
      (envOf s 7 0).any (fun e => e.act.contains 1 && e.sound)) = true := by
  decide +kernel
/-- R242, R361: with room for one record a plain spawn places the first and keeps the other's place; its thread stays, and
goes on when the record enters. R244: a tget does not find the queue empty while a pending push has space. -/
theorem test_spawn : after (.spawn h0 none (.v 16) (.k 1)) (tasks (tq 4 0 15) 0 0) (fun t => (t.taskq? 1 5).map TaskQ.tail == some 16 &&
      t.pushes.map (fun p => p.by_) == [some (1, .spawn h0 none (.v 16) (.k 1))] && (t.group? 7 0).map Group.held == some true) &&
    after (.pendingPush 0) spawnWait (fun t => t.pushes.isEmpty && (t.taskq? 1 5).map TaskQ.tail == some 4 && stands 1 (mkPc 0x1010 0) false t) &&
    after (.tget h0 (.v 16) (.k 1) 5) { tasks (tq 4 2 2) 0 0 with pushes := [⟨9, 0, 1, 5, 8, 0, List.replicate 64 1, none⟩] } (fun t => (t.opAt 7 0 5).isNone) &&
    after (.tget h0 (.v 16) (.k 1) 5) (tasks (tq 4 2 2) 0 0) (fun t => (t.opAt 7 0 5).isSome) = true := by
  decide +kernel

/-- The group holds 8 blocks and another team of the core holds the rest but `free`. -/
def blocks (free : Nat) (q : List ClaimReq) : State :=
  let s := upG st0 (fun g => { g with vblk := 8 })
  let t : Team := Team.blank 8 1 (.dispatch 1 0) 0 [Group.blank 0 0 1 (184 - free) 8 0 (List.replicate 32 (thr []).asExited)]
  { s with teams := s.teams ++ [t], claims := q }
/-- A claim of the group waits in slice 0. -/
def waiting (n : Nat) : ClaimReq := ⟨0, 0, 0, 7, 0, n⟩
/-- A claim begins. -/
def claimCase (s : State) (i : Instr) (p : Env → Bool) : Bool := begins s i (fun e h => e.anyReal i h && p e)
theorem witness_Claims :
    claimCase (blocks 20 []) (.claim h0 16) (fun e => e.g.claim.isNone && decide (e.g.vblk + 16 ≤ 192) && (e.s.claimHead 0 0 0).isNone && decide (16 ≤ e.s.freeBlocks 0 0 0)) &&
    claimCase (blocks 15 []) (.claim h0 16) (fun e => e.g.claim.isNone && !decide (16 ≤ e.s.freeBlocks 0 0 0)) && claimCase (blocks 16 []) (.claimTry h0 2 16) (fun e => decide (16 ≤ e.s.freeBlocks 0 0 0)) &&
    claimCase (blocks 16 [waiting 4]) (.claimTry h0 2 8) (fun e => (e.s.claimHead 0 0 0).isSome) && claimCase (blocks 0 []) (.surr h0 7) (fun e => decide (7 < e.g.vblk)) &&
    trapping (blocks 0 []) (.surr h0 8) (fun e _ => e.anyReal (.surr h0 8) h0 && decide (e.g.vblk ≤ 8)) &&
    (blocks 16 [waiting 16]).claimHead 0 0 0 == some (waiting 16) && ((blocks 16 [waiting 16]).group? 7 0).isSome && decide (16 ≤ (blocks 16 [waiting 16]).freeBlocks 0 0 0) &&
    claimCase (upG (blocks 15 [waiting 16]) (fun g => { g with claim := some 16 })) (.claim h0 16) (fun e => e.g.claim == some 16) &&
    (let s := upT (blocks 15 [waiting 16]) (fun t => { t with budgeted := true, budget := 0 }); s.claimHead 0 0 0 == some (waiting 16) && (envOf s 7 0).any (fun e => e.spent && e.team.killed.isNone)) &&
    (envOf (blocks 16 [waiting 16]) 7 0).any (fun e => !e.spent) &&
    (let s := upG (blocks 15 [waiting 16]) (fun g => { g with claim := some 16 }); s.claimHead 0 0 0 == some (waiting 16) && (s.team? 7).any (fun t => t.allClaim && (t.group? 0).isSome) && decide (s.freeBlocks 0 0 0 < 16)) &&
    ((blocks 0 []).team? 8).any (fun t => (blocks 0 []).complete t) = true := by decide +kernel

/-! ### Witnesses: the units -/

/-- Die 0's context-1 granules 0 to 63 of core 0, plain, and a scratchpad of these words. -/
def wide (l : List (Nat × List Word)) (s : State) : State :=
  { s with
    regionTab := [⟨0, 0, 0, 1, false, 0, 63⟩], tags := [⟨0, 0, 0, 4096, 1, false⟩],
    scratch := l.foldl (fun m p => m.writeN p.1 (p.2.flatMap wordBytes)) [] }
/-- The descriptor of a pass of 64 × 32 pixels with one slot and queue 5, depth at 0x4000. -/
def passDesc : List Word := [0x00200040, 0, 0x3F800000, 0x8000, 0x4000, 0x20000, 1, 0x1000, 8, 0x2000, 5, 0, 0, 0, 0, 0]
/-- A call of thread 0 that its unit has taken, with the state that holds it, the descriptor at 0x40, queue 5 and passes. -/
def unitSt (k : CallKind) (words : List Word) (ps : List Pass) : State :=
  let s := wide [(0x40, passDesc)] (st [] [] [])
  { s with calls := [call1 k words true], taskqs := [tq 4 0 0], passes := ps }
/-- The pass that the descriptor opens. -/
def pass1 : Pass := Pass.open_ 9 (call1 .cut [] true) (0, 0) passDesc
/-- A TRI of pass 0: vertices (0, 0), (16, 0), (0, 16). -/
def triWords : List Word := [0x20000002, 0x800, 0, 4, 0, 0, 0, 0x41800000, 0, 0, 0, 0x41800000, 0, 77, 0, 0]
/-- The same with a word that its layout forbids. -/
def badTri : List Word := triWords.set 15 1
/-- A FRAG at (0, 0). -/
def fragWords (w0 : Word) : List Word := [w0, 0x800, 0, 4, 0, 0, 0, 0, 0, 0, 0, 0, 0, 0, 0, 0]
/-- A bin that stands in slot 0. -/
def bin0 (done : Option (Nat × Nat)) : Bin := { Bin.blank 0 with slot := some 0, done := done }
/-- A resolving pass with one primitive, before its first bin. -/
def resolving1 (prims : List Prim) : Pass := { pass1 with prims := prims, ended := some (6, 0, 1), resolving := true }
/-- The primitive of `triWords`. -/
def prim1 : Prim := ⟨(triWords.drop 4).take 9, 77, 4, 0, false, false⟩
/-- A stream fragment. -/
def sfrag (ready : Bool) : StreamFrag := ⟨5, 4, 0, fragWords 0x20000001, 4, ready⟩
/-- The unit serves the call next, and its pass, where it names one of its own. -/
def served (s : State) (k : CallKind) (op : Nat) (p : State → Call → Bool) : Bool :=
  match s.serve 5 k op with | some c => p s c | none => false
/-- Bytes `a` to `a + n − 1` of a pass's die lie outside the record of the pass's call 5, as their statement asks. -/
def outsideRet (s : State) (p : Pass) (a n : Nat) : Bool :=
  (s.call? 5).any (fun c => decide (c.die < 4 ∧ c.ret + 32 ≤ 2 ^ 29 ∧ c.arrive + 16 ≤ 2 ^ 29 ∧ a + n ≤ 2 ^ 29) && (c.die != p.die || (decide (a + n ≤ c.ret ∨ c.ret + 32 ≤ a) && c.arrive == 0)))
/-- The pass of the call's handle is its own team's and stands. -/
def owns (s : State) (c : Call) (h : Nat) (p : Pass → Bool) : Bool := (s.ownPass c h).any (fun x => s.pass? x.id == some x && p x)
/-- PASS.BEGIN, TRI good and bad and of no pass, PASS.END, PASS.ABORT. -/
theorem witness_Passes :
    served (unitSt .cut [1, 0x800, 0, 0, 0x40] []) .cut 1 (fun s c =>
      let p := Pass.open_ s.nextId c (0, 0) ((List.range 16).map (fun k => s.locWord (.die c.die (c.word 4 + 4 * k))))
      c.flagsOk false false false && c.word 4 % 64 == 0 && c.zeros 5 15 && s.spanOk c.ctx c.die (c.word 4) 64 .any && s.freePassSlot c.die == some (0, 0) &&
      p.layoutOk && (s.taskqOn c.die c.ctx p.shadeQ).isSome && p.spans.all (fun r => s.spanOk c.ctx c.die r.1 r.2 .plain) && s.lineOk c.ctx c.die c.ret && c.arrive == 0) &&
    served (unitSt .cut triWords [pass1]) .cut 2 (fun s c => c.triOk && owns s c c.handle14 (fun p => !s.tokenRetired p c.token && !s.resolves p && decide (p.prims.length < p.primCap))) &&
    served (unitSt .cut badTri []) .cut 2 (fun _ c => !c.triOk) && served (unitSt .cut triWords []) .cut 2 (fun s c => c.triOk && (s.ownPass c c.handle14).isNone) &&
    served (unitSt .cut [3, 0x800, 0, 0, 4, 1] [pass1]) .cut 3 (fun s c => c.endOk && owns s c c.handle14 (fun p => p.ended.isNone)) &&
    served (unitSt .cut [4, 0x800] [pass1]) .cut 4 (fun s c => c.flagsOk false false false && c.zeros 4 13 && decide (c.word 14 < 2 ^ 16) && c.word 15 == 0 &&
      (s.passOf c.die c.handle14).any (fun p => p.ctx == c.ctx)) = true := by decide +kernel
/-- A range that is retired; a bin with nothing in it, and one with a primitive. -/
theorem witness_Passes_resolve :
    (let p := { pass1 with ended := some (6, 4, 1) }; let s := upT (unitSt .cut [] [p]) (fun t => { t with retired := [(4, false)] })
     s.pass? 9 == some p && !p.resolving && !p.abandoned && s.rangeRetired p) &&
    ([[], [prim1]] : List (List Prim)).all (fun l => let p := resolving1 l; let s := unitSt .cut [] [p]
      s.pass? 9 == some p && p.resolving && !p.abandoned && s.passRuns p && decide (p.nextBin < p.nbx * p.nby) && (p.candidates p.nextBin).isEmpty == l.isEmpty &&
      ((p.bin? p.nextBin).getD (Bin.blank p.nextBin)).late.isEmpty && p.bins.all (fun b => b.slot != some p.nextSlot) &&
      (s.taskqOn p.die p.ctx p.shadeQ).any (fun q => decide (0 < s.room q))) = true := by decide +kernel
/-- FRAG by both paths, BINDONE, and the commits. -/
theorem witness_Passes_icing :
    served (unitSt .icg (fragWords 1) [{ pass1 with bins := [bin0 none] }]) .icg 1 (fun s c => c.fragOk && !c.ordered && (s.binPass c 0 0).any (fun p => s.pass? p.id == some p &&
      decide (0 < p.width ∧ 0 < p.height) && (p.bin? 0).any (fun b => b.slot == some 0 && b.done.isNone && decide (b.frags.length < 1535)))) &&
    served (unitSt .icg (fragWords 0x20000001) [pass1]) .icg 1 (fun s c => c.fragOk && c.ordered && owns s c c.handle7 (fun p => decide (p.depth ≠ 0 ∧ 0 < p.width ∧ 0 < p.height))) &&
    served (unitSt .icg [2, 0x800, 0, 4, 0, 3] [{ pass1 with bins := [bin0 none] }]) .icg 2 (fun s c => c.flagsOk true false false && decide (c.word 5 ≤ 1535) && c.word 6 == 0 && decide (c.word 7 < 2 ^ 16) &&
      c.zeros 8 15 && c.icgBin == (0, 0) && (s.binPass c 0 0).any (fun p => s.pass? p.id == some p && decide (0 < p.nbx ∧ 0 < p.nby) &&
      (p.bin? 0).any (fun b => b.slot.isSome && b.done.isNone && decide (b.frags.length ≤ c.word 5)))) &&
    (let p := { pass1 with bins := [bin0 (some (5, 0))] }; let s := unitSt .icg [2] [p]
     s.pass? 9 == some p && p.bin? 0 == some (bin0 (some (5, 0))) && s.passRuns p && (bin0 (some (5, 0))).frags.length == 0 && decide (p.nextBin < p.nbx * p.nby) && outsideRet s p p.stats 128) &&
    (let f := Frag.of (fragWords 1); f.rgba.length == 4 && !(f.ztest && !true)) && (let f := Frag.of ((fragWords 1).set 3 0xFFFFFFFF); f.rgba.length == 4) &&
    (let p := { resolving1 [] with nextBin := 2, ended := some (5, 4, 1) }; let s := unitSt .cut [3, 0x800, 0, 0, 4, 1] [p]
     s.pass? 9 == some p && !p.abandoned && decide (p.nbx * p.nby ≤ p.nextBin) && p.bins.isEmpty && p.stream.isEmpty && outsideRet s p p.stats 128) &&
    (let p := { pass1 with stream := [sfrag true] }; let s := unitSt .icg [1] [p]
     s.pass? 9 == some p && nextStream (p.stream.filter (fun f => f.pixel == 0)) == some (sfrag true) && (sfrag true).ready && s.passRuns p && decide (p.nextBin < p.nbx * p.nby) && outsideRet s p (p.depthAddr 0 0) 4) = true := by decide +kernel
/-- Words at 0x40 and a call of a stateless unit that names them. -/
def callSt (k : CallKind) (words : List Word) (mem : List Word) : State :=
  let s := wide [(0x40, mem)] (st [] [] [])
  { s with calls := [call1 k words true] }
/-- A ray from (0, 0, −1) along z, from 0 to 8, at 0x40. -/
def rayWords (op : Word) (a : Word) : List Word := [op, 0x800, 0, 4, 0, 0, 0xBF800000, 0, 0, 0x3F800000, 0, 0x41000000, a, 77, 0, 0]
/-- A triangle in z = 0, as a record. -/
def triRec : List Word := [0, 0, 0, 0x3F800000, 0, 0, 0, 0x3F800000, 0]
/-- A patch over it, of depth 0, its offsets at 0x400 and its bounds at 0x500. -/
def patchRec : List Word := triRec ++ [0, 0, 0x3F800000, 0, 0, 0x3F800000, 0, 0, 0x3F800000, 0, 0x400, 0x3F800000, 0, 0x500]
/-- A call at texture coordinates (0, 0) with this LOD and payload. -/
def texWords (op lod : Word) : List Word := [op, 0x800, 0, 4, 0, 0, lod, 0x40, 0, 0, 0, 0, 0, 0, 0, 0]
/-- A descriptor of a 1 × 1 texture at 0x1000, of format FP32 or BF16 latent with its network at 0x2000. -/
def texRec (latent : Bool) : List Word := [0x1000, 0x00010001, if latent then 0x31 else 0x01, if latent then 0x2000 else 0]
theorem witness_UnitCalls :
    served (callSt .lat (rayWords 1 0x40) triRec) .lat 1 (fun s c => c.rayOk && s.spanOk c.ctx c.die (c.word 12) 64 .any && s.lineOk c.ctx c.die c.ret && c.arrive == 0) &&
    served (callSt .lat (rayWords 1 0x41) triRec) .lat 1 (fun _ c => !c.rayOk) && served (callSt .lat (rayWords 1 0x80000) triRec) .lat 1 (fun s c => c.rayOk && !s.spanOk c.ctx c.die (c.word 12) 64 .any) &&
    served (callSt .lat (rayWords 2 0x40) patchRec) .lat 2 (fun s c => let r := s.unitReads c; let bs := r.readLoc (.die c.die (c.word 12)) 128; let p := Patch.of bs
      c.rayOk && s.spanOk c.ctx c.die (c.word 12) 128 .any && p.ok bs && s.spanOk c.ctx c.die p.offBase (2 * gridLen (2 ^ p.depth)) .any &&
      s.spanOk c.ctx c.die p.bounds (4 * nodeBase (p.depth + 1)) .any && p.nodes.all (fun q => decide ((r.nodeAt c.die p q.1 q.2).1 ≤ (r.nodeAt c.die p q.1 q.2).2) && r.encloses c.die p q.1 q.2)) &&
    [(false, 0), (false, 0x7FC00000), (true, (0 : Word)), (true, 0x7FC00000)].all (fun x => served (callSt .glz (texWords (if x.1 then 2 else 1) x.2) (texRec x.1)) .glz (if x.1 then 2 else 1) (fun s c =>
      let bs := (s.unitReads c).readLoc (.die c.die (c.word 7)) 64; let d := Tex.of bs
      c.texOk x.1 && s.spanOk c.ctx c.die (c.word 7) 64 .any && d.ok bs x.1 && s.spanOk c.ctx c.die d.base (d.bytes * d.before d.levels) .any &&
      (!x.1 || s.spanOk c.ctx c.die d.net 640 .any) && nan32 (c.words.getD 6 0) == (x.2 != 0))) &&
    [false, true].all (fun x => served (callSt .glz ((texWords (if x then 2 else 1) 0).set 15 1) []) .glz (if x then 2 else 1) (fun _ c => !c.texOk x)) = true := by decide +kernel
/-- The writes of the history name each address once. -/
theorem witness_UnitCalls_reads : ((past8 [] st0).olds.all (fun w => decide w.cells.Nodup && decide (w.cells.map Prod.fst).Nodup) && !(past8 [] st0).olds.isEmpty &&
    decide ((call1 .lat [] true).sentAt ≤ (past8 [] st0).writes)) = true := by decide +kernel
/-- R341, R268: what stood before a write, and after it; of a line that has been zeroed nothing older stands. -/
theorem test_stood : (let s := past8 [] st0
    s.stoodAt (.die 0) 0 0x42 9 == 3 && s.stoodAt (.die 0) 1 0x42 9 == 9 && (s.zeroLines 0 0x40 64).stoodAt (.die 0) 0 0x42 0 == 0 && (s.zeroLines 0 0x80 64).stoodAt (.die 0) 0 0x42 0 == 3) = true := by
  decide +kernel
/-- R334, R335: the ray meets the triangle at its corner: t = 1, and the hit's word 5. -/
theorem test_lattice : after (.latticeTri 5) (callSt .lat (rayWords 1 0x40) triRec) (fun t => t.locWord (.die 0 0x808) == 0x3F800000 && t.locWord (.die 0 0x804) == 4 && t.calls.isEmpty) = true := by
  decide +kernel

/-! ### Witnesses: the Proofer -/

theorem witness_RegisterBytecodes : (eng? (engSt 0 (List.replicate 8 0))).isSome = true := by decide +kernel

/-- Main memory of view 4 from 0x10000. -/
def main4 (bs : List Byte) (s : State) : State :=
  { s with views := s.views.take 4 ++ [{ s.view 4 with mem := Memory.writeN [] 0x10000 bs }] }
/-- The queue of `engSt` with a window of 64 bytes at 0x200000, in a context with these pages, its frames changed. -/
def engPg (ps : List Page) (g : List DWord) (up : List Frame → List Frame) : State :=
  let s := engSt 0 g
  { s with
    contexts := [{ Context.blank 1 [] with pages := ps, hbmQuota := 0x100000, saveSize := 0x100000 }],
    cmdqs := s.cmdqs.map (fun q => { q with wbase := 0x200000, wsize := 64, frames := up q.frames }) }
/-- A state in which the engine's bytecode is in execution and nothing waits to be mapped. -/
def engCase (s : State) (p : Eng → Bool) : Bool := (eng? s).any (fun e => s.mapWaits.isEmpty && p e)
/-- The page of `here` in CXL memory. -/
def away : Page := page (.cxl 0x8000000000) true false
/-- The pages at 0x200000 that each outcome of an access needs. -/
def spanIs (s : State) (va n : Nat) (wr : Bool) (x : Span) : Bool := engCase s (fun e => s.span e.q.ctx va n wr e.q.lost == x)
/-- ldw and stw: at hand, out of reach, to be brought in. -/
theorem witness_ProgramBytecodes :
    ([false, true] : List Bool).all (fun wr => spanIs (engPg [here] (List.replicate 8 0) id) 0x200000 8 wr .ready && spanIs (engPg [] (List.replicate 8 0) id) 0x200000 8 wr .bad &&
      spanIs (engPg [away] (List.replicate 8 0) id) 0x200000 8 wr (.pageIn 0x200000)) &&
    (let s := engPg [here] (List.replicate 8 0) id
     engCase s (fun e => (s.readVirt e.q.ctx 0x200000 8).isSome && s.views.length == 5 && (List.range 8).all (fun j => s.translate e.q.ctx (0x200000 + j) true == .at (0x10000 + j) &&
       decide ((SMap.get? (s.view 4).order (0x10000 + j)).getD 0 < s.writeNo)))) &&
    ([1, 2] : List Nat).all (fun n => engCase (engPg [] [] (fun l => l.map (fun f => { f with loops := [(0, n)] }))) (fun e => e.f.loops == [(0, n)])) &&
    ([[], [3]] : List (List Nat)).all (fun l => let s := engPg [] [] id; engCase { s with cmdqs := s.cmdqs.map (fun q => { q with launches := l }) } (fun e => e.q.launches == l)) = true := by
  decide +kernel
/-- g1 and g2 of an ib or launch. -/
def regs12 (va n : DWord) : List DWord := [0, va, n, 0, 0, 0, 0, 0]
/-- ib at level 4; with a count or an address that faults; with its page at hand and to be brought in. endp of the ring's
packet, and of a buffer's: the last, one before another that can be read, and one before another that cannot. -/
theorem witness_ProgramBytecodes_buffers :
    engCase (engPg [here] (regs12 0x200000 1) (fun l => l ++ l ++ l ++ l ++ l)) (fun e => decide (4 ≤ e.rest.length)) &&
    engCase (engPg [here] (regs12 0x200000 0) id) (fun e => e.rest.isEmpty && (e.g 2).toNat == 0) &&
    ([(here, Span.ready), (away, .pageIn 0x200000)] : List (Page × Span)).all (fun x => let s := engPg [x.1] (regs12 0x200000 1) id
      spanIs s 0x200000 64 false x.2 && engCase s (fun e => e.rest.isEmpty && (e.g 1).toNat == 0x200000 && (e.g 2).toNat == 1 && ((s.readVirt e.q.ctx 0x200000 64).isSome || x.2 != .ready))) &&
    engCase (engPg [] [] id) (fun e => e.rest.isEmpty) && engCase (engPg [] [] (fun l => l ++ l)) (fun e => !e.rest.isEmpty && e.f.left == 0) &&
    (let s := engPg [here] [] (fun l => l.map (fun f => { f with addr := 0x200000, left := 1 }) ++ l); engCase s (fun e => !e.rest.isEmpty && e.f.left != 0 && s.span 1 (e.f.addr + 64) 64 false e.q.lost == .ready)) &&
    (let s := engPg [] [] (fun l => l.map (fun f => { f with addr := 0x200000, left := 1 }) ++ l); engCase s (fun e => !e.rest.isEmpty && e.f.left != 0 && s.span 1 (e.f.addr + 64) 64 false e.q.lost == .bad)) &&
    (let s := engPg [] [] (fun l => l.map (fun f => { f with steps := 512 })); engCase { s with cur := .engine 0 } (fun e => decide (512 ≤ e.f.steps))) = true := by decide +kernel
/-- A node of one team with one group of one block, at entry 0x1000, on die 0. -/
def node1 : List Byte :=
  ([(0, 0x00), (1, 0x10), (0x10, 1), (0x24, 1), (0x40, 1)] : List (Nat × Byte)).foldl (fun l p => l.set p.1 p.2) (List.replicate 256 0)
/-- A run of a table of one node. -/
def tableRun (n : NodeRun) : GraphRun := ⟨6, 1, 0x200000, 0, [node1], [n]⟩
/-- The table of a launch. -/
def launchSt (bs : List Byte) (runs : List GraphRun) : State := { main4 bs (engPg [here] (regs12 0x200000 1) id) with runs := runs }
/-- A launch of no node, of one that cannot be read, of a running table, of one that fails the checks, and a good one. -/
theorem witness_ProgramBytecodes_launch :
    engCase (engPg [here] (regs12 0x200000 0) id) (fun e => (e.g 2).toNat == 0) && spanIs (engPg [] (regs12 0x200000 1) id) 0x200000 256 false .bad &&
    ([(node1, [tableRun ⟨.running, 0, 1, 0, none, (0, 0), false⟩], true), (List.replicate 256 0, [], false), (node1, [], true)] : List (List Byte × List GraphRun × Bool)).all (fun x =>
      let s := launchSt x.1 x.2.1
      engCase s (fun e => (e.g 1).toNat == 0x200000 && (e.g 2).toNat == 1) && spanIs s 0x200000 256 false .ready && spanIs s 0x200000 256 true .ready &&
      s.readVirt 1 0x200000 256 == some x.1 && tableOk ((List.range 1).map (fun i => (x.1.drop (256 * i)).take 256)) == x.2.2 &&
      s.runs.any (fun r => r.ctx == 1 && r.table == 0x200000) == !x.2.1.isEmpty &&
      (pagePoints 0x200000 256).all (fun a => (s.resolveSpan 1 0x200000 256).translate 1 a true == .at (a - 0x200000 + 0x10000))) = true := by decide +kernel

/-- Sessions 3 of master 0. -/
def talking (s : State) : State := { s with hub := { s.hub with sessions := [⟨3, 0, .master 0⟩] } }
/-- Queue 0 of context 1 in a slot or none. -/
def sigSt (up : CmdQ → CmdQ) (more : List CmdQ) : State :=
  talking { State.reset with clock := 1000000000, programs := [(0, [0x54000000])], contexts := [{ Context.blank 1 [] with pages := [here] }], cmdqs := [up { CmdQ.blank 1 0 with desc := 0x200000, logn := 4, g := List.replicate 8 0 }] ++ more }
/-- Queues that take every slot: slot `n` is queue `n + 1`. -/
def fill (engine : Option Nat) : List CmdQ := (List.range 256).map (fun n => { CmdQ.blank 1 (n + 1) with slot := some n, engine := engine, lastSignal := n })
/-- No slot is free. -/
def fullSlots (s : State) : Bool := (List.range 256).all (fun j => s.cmdqs.any (fun x => x.slot == some j))
/-- Slot 0 is free. -/
def slot0Free (s : State) : Bool := s.cmdqs.all (fun x => x.slot != some 0)
/-- Signals: of no queue; of a mapped one with TAIL stale, in the ring and past it; of an unmapped one with a slot free,
with a queue to replace, and with none. -/
theorem witness_Queues :
    (let s := sigSt id []; s.masterOf 3 == some 0 && (s.cmdq? 1 5).isNone && (s.cmdq? 1 0).any (fun q => q.slot.isNone) && slot0Free s && (s.readVirt 1 (0x200000 + 0x40) 64).isSome) &&
    (let s := sigSt (fun q => { q with slot := some 0 }) []; s.masterOf 3 == some 0 && (s.cmdq? 1 0).any (fun q => q.slot.isSome && (0 - q.tail).toNat == 0 &&
      (1 - q.tail).toNat == 1 && decide ((1 - q.head).toNat ≤ 2 ^ q.logn) && decide ((17 - q.tail).toNat < 2 ^ 31 ∧ 2 ^ q.logn < (17 - q.head).toNat))) &&
    (let s := sigSt id (fill none); s.masterOf 3 == some 0 && fullSlots s && (s.cmdq? 1 0).any (fun q => q.slot.isNone) && (s.cmdq? 1 1).any (fun v => v.slot == some 0 && v.engine.isNone &&
      s.cmdqs.all (fun x => (x.slot != some 0 || x == v) && (x.slot == none || v.lastSignal < x.lastSignal || (v.lastSignal == x.lastSignal && decide (0 ≤ x.slot.getD 0)))))) &&
    (let s := sigSt id (fill (some 0)); s.masterOf 3 == some 0 && fullSlots s && (s.cmdq? 1 0).any (fun q => q.slot.isNone) && s.cmdqs.all (fun x => x.slot.isNone || x.engine.isSome)) = true := by decide +kernel
/-- Two queues that became PENDING in one cycle, the first of them second. -/
def later : State := sigSt (fun q => { q with pending := true, pendNo := 2 }) [{ CmdQ.blank 1 1 with pending := true, pendNo := 1, desc := 0x200000, g := List.replicate 8 0 }]
/-- R346: the one that became PENDING first is mapped first. -/
theorem test_pending : after (.pendingRemap 1 0) later (fun t => (t.cmdq? 1 0).map CmdQ.pending == some true) &&
    after (.pendingRemap 1 1) later (fun t => (t.cmdq? 1 1).map CmdQ.pending == some false) = true := by decide +kernel
/-- A queue that is idle and one signalled just now; PENDING queues, due and not; a draw of one ready queue. -/
theorem witness_Queues_time :
    ([(0, true), (1000000000, false)] : List (Nat × Bool)).all (fun x => let s := sigSt (fun q => { q with slot := some 0, lastSignal := x.1 }) []
      s.cmdqs.find? (fun q => q.slot == some 0) == s.cmdq? 1 0 && (s.cmdq? 1 0).any (fun q => q.head == q.tail && q.frames.isEmpty && q.engine.isNone && q.g.length == 8 &&
        decide (max q.lastSignal q.lastEnd + (if q.idle = 0 then 200 else q.idle) * Config.cyclesPerUs ≤ s.clock) == x.2) && s.views.length == 5 &&
      (List.range 128).all (fun j => s.translate 1 (0x200000 + j) true == .at (0x10000 + j) && decide ((SMap.get? (s.view 4).order (0x10000 + j)).getD 0 < s.writeNo))) &&
    ([(0, true), (1000000000, false)] : List (Nat × Bool)).all (fun x => let s := sigSt (fun q => { q with pending := true, pendSince := x.1 }) []
      slot0Free s && (s.cmdq? 1 0).any (fun q => q.slot.isNone && q.pending && decide (q.pendSince + 200 * Config.cyclesPerUs ≤ s.clock) == x.2 &&
        s.cmdqs.all (fun y => !(y.due s.clock) || decide (q.pendNo ≤ y.pendNo)))) &&
    (let s := later; slot0Free s && s.mapWaits.isEmpty && (s.cmdq? 1 0).any (fun q => q.slot.isNone && q.pending && s.cmdqs.any (fun x => x.due s.clock && decide (x.pendNo < q.pendNo)))) &&
    ([true, false] : List Bool).all (fun x => let s := sigSt (fun q => { q with slot := some 0, tail := 1, tickets := 255, ring := 0x200000, frames := if x then [] else (engSt 0 []).cmdqs.flatMap CmdQ.frames }) []
      s.freeEngineNo == some 0 && s.readyQueues == (s.cmdq? 1 0).toList && s.readyQueues.length == 1 &&
      s.readyQueues.all (fun q => q.frames.isEmpty == x && s.span 1 (q.ring + 64 * (q.head.toNat % 2 ^ q.logn)) 64 false q.lost == .ready)) = true := by decide +kernel

/-- R353: of the free engines the one that came free first draws, of one cycle the lowest, and one that has just come free none. -/
theorem witness_Queues_engines : (let s (l : List Nat) : State := { State.reset with clock := 9, engines := l.map (fun k => ⟨none, k, false⟩) }
    (s [9, 7, 7]).freeEngineNo == some 1 && (s [10, 10]).freeEngineNo == none && (s [10, 0]).freeEngineNo == some 1 &&
      ({ s [0, 3] with engines := [⟨some (1, 0), 0, false⟩, ⟨none, 3, true⟩, ⟨none, 4, false⟩] } : State).freeEngineNo == some 2) = true := by decide +kernel

/-- A graph of two nodes, the second after the first, on context 1; the first is node state `a`, the second `b`. -/
def graphSt (a b : NodeRun) : State :=
  let n0 := (node1.set 0xA2 1).set 0xA8 1
  { engPg [here] [] id with runs := [⟨6, 1, 0x200000, 0, [n0, node1.set 0xA0 1], [a, b]⟩] }
/-- A node, with the teams it has left. -/
def nd (st : NodeState) (left : Nat) (cause : Option Cause) (cancelled : Bool) : NodeRun := ⟨st, 1, left, 0, cause, (0, 0), cancelled⟩
/-- Node 0 of the graph is due; others are open. -/
def due0 (a b : NodeRun) (p : GraphRun → Bool) : Bool :=
  let s := graphSt a b
  (s.run? 6).any (fun r => r.due s.clock == some 0 && r.nodes[0]? == some a && r.nodes[1]? == some b && p r)
/-- The last node; a cancelled one; one that failed while another runs; one that is done before its successor. -/
theorem witness_Launches :
    due0 (nd .running 0 none false) (nd .done 0 none false) (fun _ => ((graphSt (nd .running 0 none false) (nd .done 0 none false)).cmdq? 1 0).isSome) &&
    due0 (nd .running 0 none true) (nd .waiting 0 none false) (fun _ => true) &&
    due0 (nd .running 0 (some .nofit) false) (nd .running 1 none false) (fun _ => true) &&
    due0 (nd .running 0 none false) (nd .waiting 0 none false) (fun r => nodeSucc (r.images.getD 0 []) == [1]) = true := by decide +kernel
/-- R356: of nodes whose last teams ended in one cycle the lower index goes first; the one of the earlier cycle before either; none
in the cycle itself. -/
theorem test_due : (let n (at_ : Nat) : NodeRun := { nd .running 0 none false with dueFrom := at_ }
    let r (l : List NodeRun) : GraphRun := ⟨6, 1, 0x200000, 0, [], l⟩
    (r [n 6, n 6]).due 6 == some 0 && (r [n 7, n 6]).due 9 == some 1 && (r [n 7, n 8]).due 6 == none) = true := by decide +kernel
/-- A unit of one team of `node1` that waits for a round, and one of a cluster of two. -/
def unitDue (teams : Nat) : State :=
  { engPg [here] [] id with
    clock := 2, placeDue := true, placeSince := 1, units := [⟨1, .node 6 0, [0, 0, 0, 0, 0], some 0, 0, teams, 0, node1, 0, []⟩], runs := [tableRun ⟨.running, 0, 1, 0, none, (0, 0), false⟩] }
/-- A task queue that dispatches `node1` from the page. -/
def dispSt : State :=
  { main4 node1 (engPg [here] [] id) with taskqs := [{ tq 4 0 1 with dtable := 0x200000, maxteams := 3 }] }
/-- The same in a context whose save area holds no team. -/
def dispFull : State := { dispSt with contexts := dispSt.contexts.map (fun c => { c with saveSize := 0 }) }
/-- Placement of one team and of two, a dispatch, and a halted team. -/
theorem witness_Launches_teams :
    ([1, 2] : List Nat).all (fun k => let s := unitDue k
      s.roundDue && s.saved.isEmpty && s.carried.isEmpty && s.units.length == 1 && s.units.all (fun u => u.restore.isEmpty && u.more == 0 && s.ctxRuns u.ctx && (s.ctx? 1).any (fun c => !s.noFit (nodeNeed u.image) u.teams (s.unitDies u) c.saveSize &&
        (saveRoom c.saveSize (nodeNeed u.image).save u.teams (s.savePlaces u.ctx)).isSome) && (s.chooseAll (List.replicate u.teams (nodeNeed u.image)) (s.unitDies u)).any (fun f => f.length == k))) &&
    (!State.reset.placeDue) && (let s := { unitDue 1 with placeSince := 2 }; s.placeDue && decide (s.clock ≤ s.placeSince)) &&
    ([(dispSt, false), (dispFull, true)] : List (State × Bool)).all (fun y => let s := y.1; (s.taskq? 1 5).any (fun x => x.dtable != 0 && !x.stopped && x.head != x.tail && decide (x.alive < x.maxteams) && s.readVirt 1 (x.dtable + 256 * x.dnode) 256 == some node1) && s.ctxRuns 1 && nodeFit node1 && (s.ctx? 1).any (fun c =>
      ((s.modTaskq 1 5 (fun x => { x with nextTeam := x.nextTeam + 1, alive := x.alive + 1 })).launchScratch 1 node1 [0]).noFit (nodeNeed node1) 1 [0] c.saveSize == y.2)) &&
    (let s := upT st0 (fun t => { t with halted := true }); (s.team? 7).any (fun t => t.halted && t.killed.isNone && t.all.any (fun p => !p.2.2.exited) && s.quiet t && s.callsSettled t && s.noStep t && s.noCommit t.ctx)) &&
    (let s := { upT st0 (fun t => { t with halted := true }) with contexts := [{ Context.blank 1 [] with run := .preempting 3 0 5 6 }] }
     (s.ctx? 1).any (fun c => c.run == .preempting 3 0 5 6) && s.teams.all (fun t => t.ctx != 1 || t.id == 7)) = true := by decide +kernel
/-- A copy waits for the page at 0x200000. -/
def pageSt (p : Page) : State :=
  { paged p (st [] [] []) with copies := [{ fly .g2s (words8 0x40 0x200000 0) none with stalled := some 0x200000 }] }
/-- A page of the smallest size, in CXL memory and of a peer; and a COW page. -/
theorem witness_Launches_pages :
    ([away, page (.remote 9 0) true false] : List Page).all (fun p => let s := pageSt p
      s.pageAt 1 0x200000 == some p && s.pageWanted 1 p && (s.gather.backing p []).isSome && (s.frameFor 1 p.size).any (fun f => s.views.length == 5 && s.carried.isEmpty &&
        ([0, p.size - 1] : List Nat).all (fun j => decide ((SMap.get? (s.view 4).order (f + j)).getD 0 < s.writeNo)))) &&
    (let p := page (.resident 0x10000) false true; let s := pageSt p
     s.pageAt 1 0x200000 == some p && p.cow && decide (0 < p.size) && !s.retiredIn 0x10000 p.size && s.copies.any (fun c => c.ctx == 1 && c.stalled == some 0x200000) && (s.frameFor 1 p.size).isSome &&
     s.carried.isEmpty && (s.view 4).order.isEmpty) = true := by decide +kernel

/-! ### Witnesses: the hub -/

/-- A key of 57 bytes whose point is the neutral one, and the signature of zeros, which it verifies for every message. -/
def key0 : List Byte := 1 :: List.replicate 56 0
/-- The signature: the same point, and a factor of 0. -/
def sig0 : List Byte := key0 ++ List.replicate 57 0
theorem neutral_add : EdPoint.neutral.add EdPoint.neutral = EdPoint.neutral := by decide +kernel
theorem neutral_mul (bs : List Bool) : EdPoint.neutral.mul bs = EdPoint.neutral := by
  induction bs with
  | nil => rfl
  | cons b l ih =>
    have h : EdPoint.neutral.mul (b :: l) = EdPoint.neutral.mul l := by
      unfold EdPoint.mul
      rw [List.foldl_cons]
      cases b
      · rw [if_neg (by decide), neutral_add]
      · rw [if_pos rfl, neutral_add, neutral_add]
    rw [h, ih]
theorem key0_point : edDecode key0 = some EdPoint.neutral := by decide +kernel
theorem sig0_point : edDecode (sig0.take 57) = some EdPoint.neutral := by decide +kernel
theorem sig0_base : EdPoint.base.mul (bitsDown 446 (leNat (sig0.drop 57))) = EdPoint.neutral := by decide +kernel
theorem verifies (msg : List Byte) : ed448Verify key0 msg sig0 = true := by
  unfold ed448Verify
  rw [key0_point, sig0_point]
  simp only [sig0_base, neutral_mul]
  decide +kernel

/-- A device that has booted, whose master 0 has the key and has sent the records up to number 5 in session 3, and holds
HSEM; master 1 has session 4. Context 1 has a page at 0x200000. -/
def hubSt : State :=
  { main4 [] (paged here { st0 with teams := [] }) with
    clock := 10
    hub := { Hub.reset with
             masters := [⟨key0, 5, [], none, false⟩, ⟨[2], 0, [], none, false⟩], hsem := some (0, 1000), needBoot := false,
             sessions := [⟨3, 0, .master 0⟩, ⟨4, 1, .master 1⟩, ⟨5, 2, .peer [7]⟩], peers := [⟨1, 9, [], [7]⟩], flash := [[], []] } }
/-- The hub changed. -/
def upHub (f : Hub → Hub) (s : State) : State := { s with hub := f s.hub }
/-- The page mapped for peer 9. -/
def peerPage : State := { hubSt with contexts := hubSt.contexts.map (fun c => { c with pages := c.pages.map (fun p => { p with peer := 9 }) }) }
/-- Sessions, peer accesses, HSEM. -/
theorem witness_HubEvents :
    (hubSt.session? 6).isNone && !hubSt.hub.portsOut.contains 1 && hubSt.hub.masters.map Master.key == [key0, [2]] && key0 != [2] &&
    hubSt.hub.peers.find? (fun p => p.key == [7]) == some ⟨1, 9, [], [7]⟩ && hubSt.hub.peers.all (fun p => p.key != [8]) &&
    peerPage.peerMay 5 1 0x200000 2 && peerPage.span 1 0x200000 2 true none == .ready && !hubSt.peerMay 5 1 0x200000 2 && peerPage.views.length == 5 &&
    (List.range 2).all (fun j => peerPage.translate 1 (0x200000 + j) true == .at (0x10000 + j) && decide ((SMap.get? (peerPage.view 4).order (0x10000 + j)).getD 0 < peerPage.writeNo)) &&
    (peerPage.readVirt 1 0x200000 2).isSome && hubSt.hub.hsem == some (0, 1000) && !decide (1000 ≤ hubSt.clock) && decide (10 ≤ hubSt.clock) &&
    State.reset.hub.needBoot && State.reset.hub.markers.length == 2 && !Marker.blank.valid && ([[], []] : List (List Byte))[hubSt.hub.target]?.isSome && hubSt.hub.flash[hubSt.hub.target]?.isSome = true := by
  decide +kernel
/-- Of the clauses of a boot, one speaks of each hub: a marker is good or it is not, and its number is greater or not. -/
theorem witness_HubEvents_boot (ga gb : Bool) (a b : Nat) :
    (ga = true ∧ (gb = false ∨ b ≤ a)) ∨ (gb = true ∧ (ga = false ∨ a < b)) ∨ (ga = false ∧ gb = false) := by
  grind
/-- A team, context 1, a call that a unit has taken, and a pass. -/
def scrubSt : State := { unitSt .cut triWords [pass1] with hub := hubSt.hub }
/-- The service operation. -/
def svcSt (op : SvcOp) (teams : List Nat) : State := upHub (fun h => { h with svc := some ⟨op, teams⟩ }) st0
/-- A copy, a call that no unit has taken, a contribution on its way and one staged. -/
def entrySt : State :=
  { flying (callSt .lat [1, 0x800] []) (fly .s2s (words8 0x40 0x100 0) none) with
    est := [⟨0, 0, [.contrib (contrib false)], [contrib false]⟩], calls := [call1 .lat [1, 0x800] false] }
theorem witness_HubEvents_entries :
    ([.copy 5, .call 5, .request 0 0 0, .staged 0 0 0] : List BufEntry).all (fun b => (entrySt.takeEntry b).any (fun p => p.1 == 1 && p.2.1 == 0 && p.2.2.1 == 0)) && (entrySt.ctx? 1).any (fun c => !c.ended) &&
    (entrySt.copy? 5).isSome && (entrySt.call? 5).any (fun c => !c.accepted) && ((entrySt.estUnit 0 0).inbuf[0]?).any (fun q => (entrySt.reqCtx q).isSome) &&
    ((entrySt.estUnit 0 0).staged[0]?).isSome = true := by decide +kernel
/-- A bank of core 3's scratchpad. -/
def array0 : ArrayId := ⟨2, 0, 3, 0⟩
/-- R381: of two arrays of one class each gives its own entry within a second; of one array only the first does. -/
theorem test_corrected : (let s := (hubSt.correct array0).correct { array0 with num := 1 }; (s.hub.journal.length, ((s.correct array0).hub.journal.length), (s.correct array0).hub.corrcount) == (2, 2, 3)) = true := by decide +kernel
/-- Errors of the arrays: an array not yet journalled, one just now; a line of no context and one of context 1; the rest. -/
theorem witness_HubEvents_errors :
    (hubSt.corrTime array0).isNone && (let s := upHub (fun h => { h with corrTimes := [(array0, 0)] }) hubSt; s.corrTime array0 == some 0 && (s.corrTime { array0 with num := 1 }).isNone) && decide (hubSt.clock < 0 + 1000000 * Config.cyclesPerUs) &&
    (scrubSt.tagAt 0 0 0).1 == 1 && (scrubSt.tagAt 1 0 0).1 == 0 && (scrubSt.ctx? 1).any (fun c => !c.ended) && (scrubSt.team? 7).isSome && (scrubSt.call? 5).any (fun c => c.accepted && scrubSt.lineOk c.ctx c.die c.ret && c.arrive == 0) &&
    (scrubSt.pass? 9).isSome && !(paged here scrubSt).isRetired 0x10000 && (paged here scrubSt).contexts.any (fun c => c.pages.any (fun p => p.frame? == some 0x10000 && p.size == 65536)) && State.isRetired { scrubSt with retiredPages := [1] } 0x10000 = true := by decide +kernel
/-- Core faults: during a service, of a core out of placement, with a spare and without. SVCDONE: each operation ready, and
an engine and a core that are not. -/
theorem witness_HubEvents_service :
    (svcSt (.port 1) []).hub.svc.isSome && decide (0 < Config.dies ∧ 0 < Config.cores) && st0.hub.svc.isNone && State.hasSpare st0 0 && !st0.cores.out.contains 0 &&
    (State.hub { st0 with cores := ⟨[], [0, 0, 0, 0], [0]⟩ }).svc.isNone && !State.hasSpare { st0 with cores := ⟨[], [100, 0, 0, 0], []⟩ } 0 &&
    ([.engine 0, .stack 1, .port 1, .core 0 0 true, .core 0 0 false] : List SvcOp).all (fun op => let s := svcSt op []; s.hub.coreFaults.isEmpty && s.svcReady ⟨op, []⟩) &&
    (let s := upHub (fun h => { h with coreFaults := [(0, 5), (1, 6), (2, 7)] }) { svcSt (.port 1) [] with cores := ⟨[], [0, 0, 0, 0], [5]⟩ }
     s.svcReady ⟨.port 1, []⟩ && s.cores.out.contains 5 && !s.cores.out.contains (128 + 6)) &&
    (st0.engines[0]?).isSome && decide (0 < st0.cores.sparesUsed.length) && !(svcSt (.core 0 0 true) [7]).svcReady ⟨.core 0 0 true, [7]⟩ = true := by decide +kernel

/-! ### Witnesses: the masters' commands -/

/-- The record numbered `seq` of session 3, for a context, with a body. -/
def mrec (seq ctx : Word) (body : List Byte) : MRec := ⟨3, seq, ctx, 0, body, sig0⟩
/-- Every record of `mrec` is signed by master 0. -/
theorem signed (cmd : BitVec 16) (r : MRec) (s : State) (h : s.hub.masters[0]?.map Master.key = some key0) (g : r.sig = sig0) : s.signer cmd r = some 0 := by
  unfold State.signer
  cases hm : s.hub.masters[0]? with
  | none => simp [hm] at h
  | some x =>
    simp only [hm, Option.map_some, Option.some.injEq] at h
    simp [hm, h, g, verifies]
/-- What the clauses of a command ask of the session, the key, the number, the port, the loader, HSEM and the reserved word
holds of the record and the state, and `p` as well. -/
def cmdCase (hsem : Bool) (s : State) (r : MRec) (p : Bool) : Bool :=
  s.masterOf r.sid == some 0 && !s.hub.needBoot && s.hub.masters[0]?.map Master.key == some key0 && r.sig == sig0 && r.seq == (s.master 0).last + 1 &&
    !(s.master 0).frozen && !s.hub.recovery && (!hsem || s.holder == some 0) && r.rsv == 0 && p
/-- Master 0's port changed. -/
def port0 (f : Master → Master) (s : State) : State := s.modMaster 0 f
/-- No session, not booted, no valid signature, out of sequence, frozen, in the loader, without HSEM, a wrong body or
context; and a record in sequence. -/
theorem witness_CommandProtocol :
    (hubSt.masterOf 9).isNone && State.reset.hub.needBoot && cmdCase true hubSt (mrec 6 0 []) true && (hubSt.signer 1 { mrec 6 0 [] with sig := [] }).isNone &&
    (mrec 7 0 []).seq != (hubSt.master 0).last + 1 && (mrec 7 0 []).seq != (hubSt.master 0).last && ((port0 (fun m => { m with frozen := true }) hubSt).master 0).frozen &&
    (upHub (fun h => { h with recovery := true }) hubSt).hub.recovery && State.holder (upHub (fun h => { h with hsem := none }) hubSt) == none &&
    cmdCase false hubSt (mrec 6 3 []) ((hubSt.ctx? 3).isNone && (mrec 6 3 []).body.length != 4) = true := by decide +kernel
/-- The record that was taken last. -/
theorem witness_CommandProtocol_repeat : ∃ (s : State) (r : MRec) (y : Response), s.masterOf r.sid = some 0 ∧ s.hub.needBoot = false ∧ s.signer 1 r = some 0 ∧
    r.seq = (s.master 0).last ∧ (recHash r 1).take 16 = (s.master 0).lastDigest ∧ (s.master 0).lastResp = some y := by
  refine ⟨port0 (fun m => { m with lastDigest := (recHash (mrec 5 0 []) 1).take 16, lastResp := some ⟨3, 0, 1, .ok, 6, []⟩ }) hubSt, mrec 5 0 [], ⟨3, 0, 1, .ok, 6, []⟩,
    by decide +kernel, by decide +kernel, ?_, by decide +kernel, rfl, rfl⟩
  exact signed _ _ _ rfl rfl

/-- A repeat of a CTXPREEMPT that has not been answered. -/
theorem witness_CommandProtocol_pending : ∃ (s : State) (r : MRec) (c : Context), s.masterOf r.sid = some 0 ∧ s.hub.needBoot = false ∧
    s.signer 0x1B r = some 0 ∧ r.seq = (s.master 0).last ∧ (recHash r 0x1B).take 16 = (s.master 0).lastDigest ∧ (s.master 0).lastResp = none ∧
    s.ctx? c.id = some c ∧ c.run = .preempting 3 0 7 r.seq := by
  refine ⟨let s := port0 (fun m => { m with lastDigest := (recHash (mrec 5 1 []) 0x1B).take 16, lastResp := none }) hubSt
    { s with contexts := [{ Context.blank 1 [] with run := .preempting 3 0 7 5 }] }, mrec 5 1 [],
    { Context.blank 1 [] with run := .preempting 3 0 7 5 }, ?_⟩
  refine ⟨by decide +kernel, by decide +kernel, signed _ _ _ rfl rfl, by decide +kernel, rfl, by decide +kernel, ?_, rfl⟩
  decide +kernel

/-- A record for the device, and one for context 1. -/
def devRec (body : List Byte) : MRec := mrec 6 0 body
/-- The same for context 1. -/
def ctxRec (body : List Byte) : MRec := mrec 6 1 body
/-- A command for the device whose body has `n` bytes and whose clause asks `p`. -/
def devCase (hsem : Bool) (s : State) (n : Nat) (body : List Byte) (p : Bool) : Bool := cmdCase hsem s (devRec body) (body.length == n && p)
/-- Bytes and words of bodies. -/
def w4 (n : Nat) : List Byte := leBytes 4 n
/-- Another master holds HSEM. -/
def held1 : State := upHub (fun h => { h with hsem := some (1, 1000) }) hubSt
/-- A service runs. -/
def inSvc : State := upHub (fun h => { h with svc := some ⟨.engine 1, []⟩ }) hubSt
/-- The journal has entry 4 alone. -/
def logged4 : State := upHub (fun h => { h with journal := [⟨4, 0, 0, 0, .ok, 0, 0, 0, []⟩], jseq := 5 }) hubSt
/-- HSEMACQ, HSEMREL, THAW, JREAD, SEED, KEYSET, ATTEST, RESET. -/
theorem witness_DeviceCommands :
    devCase false hubSt 4 (w4 100) (hubSt.holder == some 0) && devCase false held1 4 (w4 100) (held1.holder == some 1) && devCase true hubSt 0 [] true &&
    (let s := upHub (fun h => { h with masters := modifyAt (fun m => { m with frozen := true }) 1 h.masters }) hubSt; devCase false s 4 (w4 1) (zeroAt (w4 1) 1 3 && (s.master 1).frozen)) &&
    devCase false hubSt 4 (w4 0) true && devCase false logged4 8 (leBytes 8 4) (numAt (leBytes 8 4) 0 == 4) && devCase false logged4 8 (leBytes 8 3) (numAt (leBytes 8 3) 0 == 3) &&
    devCase true hubSt 4 (w4 9) ((wordAt (w4 9) 0).toNat == 9) && devCase true hubSt 64 (List.replicate 64 0) (zeroAt (List.replicate 64 0) 57 7) &&
    devCase false (upHub (fun h => { h with booted := some ⟨1, 1, [], []⟩ }) hubSt) 32 (List.replicate 32 0) true = true := by decide +kernel
/-- FWWRITE, and FWCOMMIT of an image that verifies or does not: one of its clauses speaks of it. -/
theorem witness_DeviceCommands_firmware (ok : List Byte → Bool) :
    devCase true hubSt 12 (w4 8 ++ w4 4 ++ w4 77) ((wordAt (w4 8 ++ w4 4 ++ w4 77) 4).toNat == 4 && decide (hubSt.hub.target < hubSt.hub.flash.length)) = true ∧
    devCase true hubSt 4 (w4 0) (decide (hubSt.hub.lower < hubSt.hub.markers.length) && (wordAt (w4 0) 0).toNat == 0) = true ∧
    ((ok ((hubSt.hub.flash.getD hubSt.hub.target []).take 0) = true) ∨ ok ((hubSt.hub.flash.getD hubSt.hub.target []).take 0) = false) :=
  ⟨by decide +kernel, by decide +kernel, by cases ok _ <;> simp⟩
/-- A context whose pages take HBM from stack 1 on and the CXL tier, and one page in stack 0. -/
def hbmFull : State :=
  { hubSt with contexts := hubSt.contexts ++ [{ Context.blank 2 [] with pages := [{ here with place := .resident (64 * 2 ^ 30), size := 448 * 2 ^ 30 }, { here with place := .cxl Config.cxlBase, size := Config.cxlBytes }] }] }
/-- The free space of HBM beside the stack, and of the CXL tier, takes the frames of the stack. -/
def movable (s : State) (n : Nat) : Option (List (Nat × Nat × Nat)) :=
  newPlaces (State.usedHbm { s with hub := { s.hub with svc := some ⟨.stack n, []⟩ } } ++ s.usedCxl) (s.stackFrames n)
/-- The service commands, with none running, with one, and where there is no room or no spare. -/
theorem witness_DeviceCommands_service :
    devCase true hubSt 4 (w4 0) (zeroAt (w4 0) 1 3 && decide (0 < Config.engines) && hubSt.hub.svc.isNone && (hubSt.engines[0]?).isSome && hubSt.hub.portsOut.isEmpty) &&
    hubSt.contexts.all (fun c => c.pages.all (fun p => p.size == 2 ^ 16)) && (movable hubSt 0).isSome && devCase true hbmFull 4 (w4 0) (hbmFull.hub.svc.isNone && (movable hbmFull 0).isNone) &&
    devCase true hubSt 4 (w4 0) (zeroAt (w4 0) 2 2 && decide (0 < Config.dies ∧ 0 < Config.cores) && hubSt.hasSpare 0) &&
    (let s := { hubSt with cores := ⟨[], [100, 0, 0, 0], []⟩ }; devCase true s 4 (w4 0) (s.hub.svc.isNone && !s.hasSpare 0)) &&
    devCase true inSvc 4 (w4 0) (inSvc.hub.svc.isSome && inSvc.hub.portsOut.isEmpty) = true := by decide +kernel

/-- A command for context 1. -/
def ctxCase (s : State) (n : Nat) (body : List Byte) (p : Bool) : Bool :=
  cmdCase false s (ctxRec body) ((s.ctx? 1).any (fun c => !c.dying) && body.length == n && p)
/-- The body of CTXCREATE with a template. -/
def createBody (tmpl : Nat) : List Byte := w4 tmpl ++ w4 0 ++ leBytes 8 0 ++ leBytes 8 0x200000 ++ leBytes 8 0x10000000
/-- Its fields keep the rules. -/
def createOk (b : List Byte) : Bool := zeroAt b 4 4 && numAt b 8 % 2 ^ 21 == 0 && numAt b 16 % 2 ^ 21 == 0 && decide (numAt b 8 + numAt b 16 ≤ 2 ^ 48)
/-- Every CTXID is taken. -/
def allCtx : State := { hubSt with contexts := (List.range 4095).map (fun k => Context.blank (k + 1) []) }
/-- CTXCREATE empty, without a CTXID and with a template, each whether or not its page tables fit; CTXDESTROY with teams and without. -/
theorem witness_ContextCommands :
    devCase false hubSt 32 (createBody 0) (createOk (createBody 0) && (wordAt (createBody 0) 0).toNat == 0 && (hubSt.ctx? 2).isNone && (hubSt.ctx? 1).isSome) &&
    devCase false allCtx 32 (createBody 0) true && allCtx.contexts.zipIdx.all (fun p => p.1.id == p.2 + 1) && allCtx.contexts.length == 4095 &&
    devCase false hubSt 32 (createBody 1) (createOk (createBody 1) && (wordAt (createBody 1) 0).toNat == 1 && (hubSt.ctx? 1).any (fun x => !x.dying && !x.ended) &&
      (hubSt.cloneRanges 2 (hubSt.regionTab.filter (fun e => e.owner == 1))).isSome) &&
    ctxCase hubSt 0 [] true = true := by decide +kernel
/-- A queue descriptor. -/
def queueDesc : List Byte :=
  ([(8, 4), (0x16, 1), (0x21, 0x10)] : List (Nat × Byte)).foldl (fun l p => l.set p.1 p.2) (List.replicate 128 0)
/-- Queue 0 stands, on an engine or not. -/
def queued (engine : Option Nat) : State := { hubSt with cmdqs := [{ CmdQ.blank 1 0 with engine := engine }] }
/-- The body of TQCREATE: a ring of four records at 0x1000, one team at most. -/
def tqBody : List Byte := [5, 0, 0, 0] ++ w4 0x1000 ++ w4 2 ++ leBytes 8 0 ++ [0, 0, 1, 0] ++ List.replicate 12 0
/-- QCREATE, QDESTROY, QCLEAR, TQCREATE: done, and BUSY. -/
theorem witness_ContextCommands_queues :
    (let s := main4 queueDesc hubSt; let b := leBytes 8 0 ++ leBytes 8 0x200000
     ctxCase s 16 b (zeroAt b 2 6 && numAt b 8 % 128 == 0 && (s.cmdq? 1 0).isNone && s.readVirt 1 (numAt b 8) 128 == some queueDesc && queueDescOk queueDesc)) &&
    (let b := leBytes 8 0 ++ leBytes 8 0x200000; ctxCase (queued none) 16 b (zeroAt b 2 6 && numAt b 8 % 128 == 0 && ((queued none).cmdq? 1 0).isSome)) &&
    ctxCase (queued none) 4 (w4 0) (zeroAt (w4 0) 2 2 && ((queued none).cmdq? 1 0).any (fun q => q.engine.isNone)) && ctxCase (queued (some 0)) 4 (w4 0) (((queued (some 0)).cmdq? 1 0).any (fun q => q.engine.isSome)) &&
    ctxCase hubSt 36 tqBody (zeroAt tqBody 2 2 && (hubSt.taskq? 1 5).isNone && hubSt.taskqOk 1 (tqBody.drop 4)) &&
    (let s := { hubSt with taskqs := [tq 4 0 0] }; ctxCase s 36 tqBody (halfAt tqBody 0 == 5 && (s.taskq? 1 5).isSome)) = true := by decide +kernel
/-- The body of PROGLOAD of one word for slot 3. -/
def loadBody : List Byte := [3, 0, 1, 0, 0, 0, 0, 0] ++ leBytes 8 0x200000
/-- A word that is an endp, and the body of MAP. -/
def endpWord : Word := 0x50000000
def mapBody (va : Nat) (pa attr : Nat) : List Byte := leBytes 8 va ++ leBytes 8 pa ++ [0, BitVec.ofNat 8 attr, 9, 0, 0, 0, 0, 0]
/-- PROGLOAD that passes and does not; MAP of a place anew and again, in HBM, CXL and of a peer; UNMAP; PEERMAP; GRAPHCANCEL
with a node that runs and without; CTXPREEMPT with teams, without, and of a context that is saved; CTXRESUME. -/
theorem witness_ContextCommands_others :
    ([endpWord, 0] : List Word).all (fun w => let s := main4 (wordBytes w) hubSt
      ctxCase s 16 loadBody (halfAt loadBody 0 == 3 && halfAt loadBody 2 == 1 && zeroAt loadBody 4 4 && numAt loadBody 8 == 0x200000 && s.readVirt 1 0x200000 4 == some (wordBytes w) &&
        loadOk (wordsOf 1 (wordBytes w)) == (w == endpWord))) &&
    ([(0x300000, 0x20000, 3), (0x200000, 0x20000, 3), (0x300000, Config.cxlBase, 11), (0x300000, 4, 17)] : List (Nat × Nat × Nat)).all (fun x => let b := mapBody x.1 x.2.1 x.2.2
      ctxCase hubSt 24 b ((hubSt.mapPage 1 b).any (fun p => (hubSt.ctx? 1).any (fun c => c.pages.all (fun y => apart y.va y.size p.va p.size || (y.va == p.va && y.size == p.size)) &&
        (c.saveSize == 0 || apart c.saveVa c.saveSize p.va p.size))))) &&
    (let b := leBytes 8 0x200000 ++ leBytes 8 0; ctxCase hubSt 16 b (zeroAt b 9 7 && (hubSt.ctx? 1).any (fun c => c.pages.contains here) && numAt b 0 == 0x200000 && pageSize 0 == some here.size)) &&
    (let b := List.replicate 88 (0 : Byte); ctxCase hubSt 88 b (zeroAt b 2 6 && zeroAt b 0x51 7)) &&
    ([.running, .waiting] : List NodeState).all (fun st => let s := { hubSt with runs := [tableRun (nd st 1 none false)] }
      ctxCase s 8 (leBytes 8 0x200000) (s.runs.find? (fun y => y.ctx == 1 && y.table == numAt (leBytes 8 0x200000) 0) == some (tableRun (nd st 1 none false)) && s.run? 6 == some (tableRun (nd st 1 none false)))) &&
    ctxCase hubSt 0 [] ((hubSt.ctx? 1).any (fun c => c.run == .running) && hubSt.teams.all (fun u => u.ctx != 1)) &&
    (let s := { hubSt with teams := st0.teams }; ctxCase s 0 [] ((s.ctx? 1).any (fun c => c.run == .running) && s.teams.any (fun u => u.ctx == 1))) &&
    (let s := { hubSt with contexts := hubSt.contexts.map (fun c => { c with run := .saved }) }; ctxCase s 0 [] ((s.ctx? 1).any (fun c => c.run == .saved && c.run != .running))) &&
    ctxCase hubSt 0 [] ((hubSt.ctx? 1).any (fun c => c.run != .saved)) = true := by decide +kernel

/-! ### Witnesses: steps -/

/-- The state with this agenda, and a word at 0x1008. -/
def going (a : Act) (w : DWord) (s : State) : State :=
  { s with agenda := [a], contexts := s.contexts.map (fun c => { c with code := c.code.writeN 0x1008 (dwordBytes w) }) }
/-- Group 0 of team 7 may issue, and what its word stands for: 0 an instruction in its place, 1 one out of its place, 2 none. -/
def stands7 (s : State) (w : DWord) (what : Nat) : Bool :=
  (envOf s 7 0).any (fun e => e.team.runs && !e.stalled && (!e.clauseBegin || e.boundary.isNone) && e.word == w &&
    match decode e.word with | .ok i => what == (if placeOk e.hdr (pcIdx e.pc) i then 0 else 1) | .error _ => what == 2)
/-- The step is that of the group's word: an instruction in its place, one that is not, none; a boundary event. The step of
an engine: a bytecode, and its budget. -/
theorem witness_StepRunsDecoded :
    ([(0x0E21C6F8D8002004, 0), (0x0040080018028300, 1), (0x8C00, 2)] : List (DWord × Nat)).all (fun x =>
      (going (.group 7 0) x.1 st0).agenda == [.group 7 0] && stands7 { going (.group 7 0) x.1 st0 with agenda := [] } x.1 x.2) &&
    (going (.part 7 0 1) 0x0E21C6F8D8002004 st0).agenda == [.part 7 0 1] && stands7 { going (.part 7 0 1) 0x0E21C6F8D8002004 st0 with agenda := [] } 0x0E21C6F8D8002004 0 &&
    splits (.add ⟨false, 0, 4⟩ .i32 (.v 0) (.c 11) (.c 11) (.c 0)) &&
    (envOf { upH st0 (fun th => { th with pc := mkPc 0x1008 0 }) with agenda := [] } 7 0).any (fun e => e.team.runs && e.clauseBegin && e.boundary.isSome) &&
    (let s := { engSt 0x50000000 [] with agenda := [.engine 0] }
     (s.engineQueue 0).any (fun q => !q.waitl && !q.faulted && q.stalled.isNone && (q.frames.head?).any (fun f => decide (f.steps < 512) && f.code[f.pc]? == some 0x50000000)) &&
     (match decodeByte 0x50000000 with | .ok .bEndp => true | _ => false)) &&
    ((engPg [] [] (fun l => l.map (fun f => { f with steps := 512 }))).engineQueue 0).any (fun q => !q.waitl && !q.faulted && q.stalled.isNone && (q.frames.head?).any (fun f => decide (512 ≤ f.steps))) = true := by
  decide +kernel
/-- RoundTrip: a well-formed instruction. ScratchFormStep: a step from a state whose scratchpads have their form. -/
theorem witness_RoundTrip : wellFormed (.add h0 .i32 (.v 2) (.v 0) (.v 1) (.c 1)) = true ∧ wellFormed (.bAdd 1 2 3) = true := by decide +kernel
theorem witness_ScratchFormStep : ∃ t, st0.scratch.wf = true ∧ step { st0 with agenda := [.tick 5] } = .next t := ⟨_, by decide +kernel, rfl⟩
end Sys2Proof.Tests
end

/-!
What an instruction leaves alone where its threads trap: trap frames are laid at the top of the spill stacks, and every
byte below their room stays, as does all that `State.kept` shows when the results are quiet.
-/

namespace Sys2Proof.Machine

/-! ### The spill stacks of a team -/

/-- What the bytes of a team's spill stacks and the room of its trap frames depend on (R365, R366). -/
def Team.stacks (t : Team) : Nat × DWord × Nat × List (Nat × Memory) :=
  (t.id, t.handler, t.stackSize, t.groups.map (fun g => (g.gix, g.stack)))

theorem Team.stacks_of_rest {t t' : Team} (h : t.rest = t'.rest) : t.stacks = t'.stacks := by
  have rest_stacks : ∀ t : Team, t.rest.stacks = t.stacks := fun t => by
    simp only [Team.stacks, Team.rest, Group.rest, List.map_map, Function.comp_def]
  rw [← rest_stacks t, h, rest_stacks]
theorem Team.stacks_modGroup (t : Team) (gix : Nat) (f : Group → Group) (h : ∀ g, (f g).gix = g.gix ∧ (f g).stack = g.stack) :
    (t.modGroup gix f).stacks = t.stacks := by
  simp only [Team.stacks, Team.modGroup, map_replaceIf _ f (fun g => (g.gix, g.stack)) (fun g => by rw [(h g).1, (h g).2])]
@[simp] theorem Team.stacks_modThread (t : Team) (gix i : Nat) (f : Thread → Thread) : (t.modThread gix i f).stacks = t.stacks :=
  Team.stacks_modGroup t gix _ (fun _ => ⟨rfl, rfl⟩)
@[simp] theorem Team.stacks_meetCheck (t : Team) (gix : Nat) (v : DWord) : (t.meetCheck gix v).stacks = t.stacks :=
  Team.stacks_of_rest (Team.rest_meetCheck t gix v)
@[simp] theorem Team.stacks_enterMeet (t : Team) (gix i : Nat) : (t.enterMeet gix i).stacks = t.stacks :=
  Team.stacks_of_rest (Team.rest_enterMeet t gix i)
@[simp] theorem Team.stacks_transfer (t : Team) (gix i : Nat) (pc : DWord) : (t.transfer gix i pc).stacks = t.stacks :=
  Team.stacks_of_rest (Team.rest_transfer t gix i pc)
theorem Team.rest_tryEnter (t : Team) (gix i : Nat) : (t.tryEnter gix i).rest = t.rest := by
  unfold Team.tryEnter
  split
  · split
    · exact Team.rest_arrive t gix i
    · rfl
  · rfl
theorem Team.rest_readmit (t : Team) : t.readmit.rest = t.rest :=
  foldl_keeps Team.rest (fun (a : Team) (p : Nat × Nat × Thread) => a.tryEnter p.1 p.2.1) (fun a p => Team.rest_tryEnter a p.1 p.2.1) t.all t
theorem Team.rest_cleanup (t : Team) : t.cleanup.rest = t.rest := by
  unfold Team.cleanup
  dsimp only
  split
  · rfl
  · exact Team.rest_readmit _
@[simp] theorem Team.stacks_cleanup (t : Team) : t.cleanup.stacks = t.stacks := Team.stacks_of_rest (Team.rest_cleanup t)
@[simp] theorem Team.stacks_asKilled (c : Cause) (t : Team) : (Team.asKilled c t).stacks = t.stacks := by
  simp only [Team.stacks, Team.asKilled, Team.mapThreads, Group.mapThreads, List.map_map, Function.comp_def]

/-! ### Bytes below the room of trap frames -/

/-- A byte of a spill stack that no trap frame may take up. -/
def State.lowByte (s : State) (id gix o : Nat) : Option Byte :=
  if s.clearOfFrames (.st id gix o) then some (s.readByte (.st id gix o) 0) else none
theorem State.readByte_of_lowByte {s t : State} (h : t.lowByte = s.lowByte) {id gix o j : Nat}
    (hc : s.clearOfFrames (.st id gix (o + j)) = true) : t.readByte (.st id gix o) j = s.readByte (.st id gix o) j := by
  have hb : t.lowByte id gix (o + j) = some (s.readByte (.st id gix (o + j)) 0) := by rw [h]; exact if_pos hc
  unfold State.lowByte at hb
  split at hb
  · exact Option.some.inj hb
  · cases hb

/-- No trap frame of the team can take up this byte of a spill stack (R365). -/
def Team.clear (t : Team) (o : Nat) : Bool :=
  t.handler == 0 || decide (t.stackSize < Config.frameArea) || decide (o < t.stackSize - Config.frameArea)
/-- A byte of a spill stack of the team. -/
def Team.stackByte (t : Team) (gix o : Nat) : Byte := match t.group? gix with | some g => g.stack.read o | none => 0
/-- A byte of a spill stack of the team that no trap frame may take up. -/
def Team.lowByte (t : Team) (gix o : Nat) : Option Byte := if t.clear o then some (t.stackByte gix o) else none
theorem State.lowByte_eq (s : State) (id gix o : Nat) :
    s.lowByte id gix o = ((s.team? id).map (fun t => t.lowByte gix o)).getD (some 0) := by
  cases h : s.team? id with
  | none => simp [State.lowByte, State.clearOfFrames, State.readByte, State.group?, h]
  | some t => simp only [State.lowByte, State.clearOfFrames, State.readByte, State.group?, h]; rfl
theorem Team.lowByte_of_stacks {t t' : Team} (h : t.stacks = t'.stacks) : t.lowByte = t'.lowByte := by
  have stack : ∀ (t : Team) (gix : Nat), (t.group? gix).map Group.stack =
      ((t.groups.map (fun g => (g.gix, g.stack))).find? (fun p => p.1 == gix)).map Prod.snd := by
    intro t gix
    simp only [List.find?_map, Option.map_map]
    rfl
  simp only [Team.stacks, Prod.mk.injEq] at h
  obtain ⟨-, hh, hz, hgs⟩ := h
  funext gix o
  have hg : (t.group? gix).map Group.stack = (t'.group? gix).map Group.stack := by rw [stack, stack, hgs]
  unfold Team.lowByte Team.clear Team.stackByte
  rw [hh, hz]
  cases h1 : t.group? gix <;> cases h2 : t'.group? gix <;> simp_all
/-- The spill stacks of the teams decide the bytes below the room of trap frames. -/
theorem State.lowByte_of_stacks {s s' : State} (h : s.teams.map Team.stacks = s'.teams.map Team.stacks) : s.lowByte = s'.lowByte := by
  have team : ∀ (s : State) (id : Nat), (s.team? id).map Team.stacks = (s.teams.map Team.stacks).find? (fun p => p.1 == id) := by
    intro s id
    rw [List.find?_map]
    rfl
  funext id gix o
  have ht : (s.team? id).map Team.stacks = (s'.team? id).map Team.stacks := by rw [team, team, h]
  rw [State.lowByte_eq, State.lowByte_eq]
  cases h1 : s.team? id with
  | none => rw [h1] at ht; rw [Option.map_eq_none_iff.1 ht.symm]
  | some t =>
    rw [h1] at ht
    obtain ⟨t', h2, h3⟩ := Option.map_eq_some_iff.1 ht.symm
    rw [h2]
    exact congrFun (congrFun (Team.lowByte_of_stacks h3.symm) gix) o
theorem State.lowByte_modTeam (s : State) (id : Nat) (f : Team → Team) (h : ∀ t, (f t).stacks = t.stacks) :
    (s.modTeam id f).lowByte = s.lowByte := State.lowByte_of_stacks (map_replaceIf _ f Team.stacks h s.teams)
theorem State.lowByte_modGroup (s : State) (id gix : Nat) (f : Group → Group) (h : ∀ g, (f g).gix = g.gix ∧ (f g).stack = g.stack) :
    (s.modGroup id gix f).lowByte = s.lowByte := State.lowByte_modTeam s id _ (fun t => Team.stacks_modGroup t gix f h)
theorem State.lowByte_modThread (s : State) (id gix i : Nat) (f : Thread → Thread) : (s.modThread id gix i f).lowByte = s.lowByte :=
  State.lowByte_modTeam s id _ (fun t => Team.stacks_modThread t gix i f)
theorem State.lowByte_fallThrough (s : State) (id gix i : Nat) : (s.fallThrough id gix i).lowByte = s.lowByte := by
  unfold State.fallThrough
  split
  · rfl
  · split
    · rfl
    · refine State.lowByte_modTeam s id _ (fun t => ?_)
      dsimp only
      split <;> simp

/-! ### Traps and kills -/

theorem State.lowByte_killTeam (s : State) (id : Nat) (c : Cause) : (s.killTeam id c).lowByte = s.lowByte := by
  have cause : ∀ (s : State) (t : Team), (s.recordCause t c).teams = s.teams := fun s t => by
    unfold State.recordCause
    split <;> rfl
  unfold State.killTeam
  split
  · rfl
  · split
    · rfl
    · refine Eq.trans (State.lowByte_of_stacks ?_) (State.lowByte_modTeam s id (Team.asKilled c) (Team.stacks_asKilled c))
      exact congrArg (List.map Team.stacks) (cause _ _)
/-- A change of a group's stack in bytes that trap frames may take up. -/
theorem Team.lowByte_modGroup (t : Team) (gix : Nat) (f : Group → Group) (hf : ∀ g, (f g).gix = g.gix)
    (hs : ∀ g o, t.clear o = true → (f g).stack.read o = g.stack.read o) : (t.modGroup gix f).lowByte = t.lowByte := by
  funext gix' o
  have hc : (t.modGroup gix f).clear o = t.clear o := rfl
  unfold Team.lowByte
  rw [hc]
  split
  · next ho =>
    unfold Team.stackByte
    by_cases hg : gix' = gix
    · subst hg
      rw [Team.group?_modGroup t gix' f hf]
      cases t.group? gix' with
      | none => rfl
      | some g => exact congrArg some (hs g o ho)
    · rw [Team.group?_modGroup_other t f hf hg]
  · rfl
/-- A clear byte lies below every trap frame, where the team has a handler and room for trap frames. -/
theorem Team.lt_frameOff_of_clear {t : Team} {o : Nat} (i : Nat) (hh : ¬t.handler = 0) (hz : ¬t.stackSize < Config.frameArea)
    (hc : t.clear o = true) : o < frameOff t.stackSize i := by
  simp only [Team.clear, Bool.or_eq_true, beq_iff_eq, decide_eq_true_eq, hh, hz, false_or] at hc
  unfold frameOff
  omega
/-- The team with a trap frame of a thread in its group's stack, and the thread changed. -/
def Team.withFrame (t : Team) (gix i : Nat) (img : List Byte) (k : Thread → Thread) : Team :=
  (t.modGroup gix (fun g => { g with stack := g.stack.writeN (frameOff t.stackSize i) img })).modThread gix i k
theorem Team.lowByte_withFrame (t : Team) (gix i : Nat) (img : List Byte) (k : Thread → Thread) (hh : ¬t.handler = 0)
    (hz : ¬t.stackSize < Config.frameArea) : (t.withFrame gix i img k).lowByte = t.lowByte :=
  (Team.lowByte_of_stacks (Team.stacks_modThread _ gix i k)).trans (Team.lowByte_modGroup t gix _ (fun _ => rfl)
    (fun g o hc => Memory.read_writeN_outside img g.stack _ o (.inl (Team.lt_frameOff_of_clear i hh hz hc))))
/-- A change of the one team with this id that keeps its bytes below the room of trap frames. -/
theorem State.lowByte_modTeam_of (s : State) {id : Nat} {t : Team} (ht : s.team? id = some t) (f : Team → Team) (hf : ∀ t, (f t).id = t.id)
    (h : (f t).lowByte = t.lowByte) : (s.modTeam id f).lowByte = s.lowByte := by
  funext id' gix o
  rw [State.lowByte_eq, State.lowByte_eq]
  by_cases hid : id' = id
  · subst hid
    rw [State.team?_modTeam s id' f hf, ht]
    exact congrFun (congrFun h gix) o
  · rw [State.team?_modTeam_other s f hf hid]
theorem State.lowByte_trapEnter (s : State) (id gix i : Nat) (f : PendFault) (pc : DWord) (l : List LoopEntry) :
    (s.trapEnter id gix i f pc l).lowByte = s.lowByte := by
  unfold State.trapEnter
  split
  · rfl
  next t ht =>
  split
  · rfl
  split
  · rfl
  split
  · exact State.lowByte_killTeam s id _
  next hh =>
  split
  · exact State.lowByte_killTeam s id _
  split
  · exact State.lowByte_killTeam s id _
  next hz =>
  dsimp only
  have framed : ∀ (img : List Byte) (k : Team → Thread → Thread),
      (s.modTeam id (fun t => t.withFrame gix i img (k t))).lowByte = s.lowByte := fun img k =>
    State.lowByte_modTeam_of s ht _ (fun _ => rfl) (Team.lowByte_withFrame t gix i img (k t) hh hz)
  split
  · exact (State.lowByte_modTeam _ id _ (fun t => by simp)).trans (framed _ _)
  · exact (State.lowByte_killTeam _ id _).trans (framed _ _)
theorem State.lowByte_trapAt (s : State) (id gix i : Nat) (f : PendFault) : (s.trapAt id gix i f).lowByte = s.lowByte := by
  unfold State.trapAt
  split
  · rfl
  · exact State.lowByte_trapEnter s id gix i f _ _

/-! ### Departures and the end of waits -/

theorem State.lowByte_cvCheck (s : State) (id n : Nat) : (s.cvCheck id n).lowByte = s.lowByte := by
  unfold State.cvCheck
  split
  · rfl
  split
  · rfl
  split
  · rfl
  split
  · refine Eq.trans (State.lowByte_of_stacks ?_) (State.lowByte_modTeam s id (fun t =>
      { t with cv := modifyAt (fun c => { c with issued := true, step := some s.nextId }) n t.cv }) (fun _ => rfl))
    dsimp only
    split <;> rfl
  · exact State.lowByte_modTeam s id _ (fun _ => rfl)
theorem State.lowByte_exitThread (s : State) (id gix i : Nat) : (s.exitThread id gix i).lowByte = s.lowByte := by
  unfold State.exitThread
  split
  · rfl
  · exact (foldl_keeps State.lowByte _ (fun a n => State.lowByte_cvCheck a id n) _ _).trans
      (State.lowByte_modTeam s id _ (fun t => by simp))
theorem State.lowByte_afterWait (s : State) (id gix i : Nat) (w : Option (WaitOn × BitVec 11)) :
    (s.afterWait id gix i w).lowByte = s.lowByte := by
  unfold State.afterWait
  split
  · dsimp only
    split
    · exact State.lowByte_modTeam s id _ (fun t => by simp)
    · split
      · exact State.lowByte_modTeam s id _ (fun t => by simp)
      · exact State.lowByte_trapAt s id gix i _
  · rfl
theorem State.lowByte_doYield (s : State) (id gix i : Nat) : (s.doYield id gix i).lowByte = s.lowByte := by
  unfold State.doYield
  split
  · dsimp only
    split
    · exact State.lowByte_modTeam s id _ (fun t => by simp)
    · exact State.lowByte_trapAt s id gix i _
  · rfl
/-- Leaving an instruction, except by rfe, writes to a spill stack trap frames at most. -/
theorem State.lowByte_leave (s : State) (id gix i : Nat) (l : Leave) (h : ∀ v, l ≠ .rfe v) : (s.leave id gix i l).lowByte = s.lowByte := by
  unfold State.leave
  split
  · rfl
  split
  · rfl
  unfold State.leaveLive
  cases l with
  | fall => exact State.lowByte_fallThrough s id gix i
  | goto pc => exact State.lowByte_modTeam s id _ (fun t => Team.stacks_transfer t gix i pc)
  | trap f => exact State.lowByte_trapAt s id gix i f
  | trapNext f =>
    dsimp only
    split
    · exact State.lowByte_trapEnter s id gix i f _ _
    · rfl
  | exit => exact State.lowByte_exitThread s id gix i
  | rfe v => exact absurd rfl (h v)
  | stay => rfl
  | park w o => exact State.lowByte_afterWait s id gix i _
  | waited => exact State.lowByte_afterWait s id gix i _
  | yield => exact State.lowByte_doYield s id gix i
  | met old => exact (State.lowByte_fallThrough _ id gix i).trans (State.lowByte_modTeam s id _ (fun t => Team.stacks_meetCheck t gix old))
theorem State.lowByte_wakeGone : ∀ (n : Nat) (s : State), (State.wakeGone n s).lowByte = s.lowByte
  | 0, _ => rfl
  | n + 1, s => by
    unfold State.wakeGone
    dsimp only
    split
    · rfl
    · refine (State.lowByte_wakeGone n _).trans (foldl_keeps State.lowByte _ (fun a q => ?_) _ s)
      split
      · exact (State.lowByte_trapAt _ _ _ _ _).trans (State.lowByte_modThread a _ _ _ _)
      · rfl

/-! ### The stages of retiring -/

/-- Each thread departs, in the cycle of its pass. -/
def State.departAll (e : Env) (i : Instr) (rs : List (Nat × TRes)) (s : State) : State :=
  rs.foldl (fun a r => a.atCycle (e.cycleOf i r.1) (fun a => a.leave e.team.id e.g.gix r.1 r.2.leave)) s
/-- The timing of the group and the budget of its team. -/
def State.countIssue (e : Env) (i : Instr) (h : Hdr) (rs : List (Nat × TRes)) (s : State) : State :=
  let s1 := s.modGroup e.team.id e.g.gix (fun g => g.retime e i h (e.more || rs.any (fun r => r.2.leave == .stay)) [])
  if e.g.held then s1
  else s1.modTeam e.team.id (fun t => { t with budget := if t.budgeted then t.budget - 1 else t.budget })
/-- Retiring: results, departures, timing, and the consequences of kills. -/
theorem retire_eq (e : Env) (i : Instr) (h : Hdr) (rs : List (Nat × TRes)) (s : State) :
    retire e i h rs s =
      ((((s.clockTo e.fp).applyAll s.nonce e rs).departAll e i rs).countIssue e i h rs).settle.bumpNonce := rfl

theorem Group.gix_stack_applyRes (key : Nat) (hp : Bool) (g : Group) (t : Nat) (r : TRes) :
    (g.applyRes key hp t r).gix = g.gix ∧ (g.applyRes key hp t r).stack = g.stack := by
  have hg := congrArg Group.gix (Group.rest_applyRes key hp g t r)
  have hs := congrArg Group.stack (Group.rest_applyRes key hp g t r)
  exact ⟨hg, hs⟩
/-- Retiring an instruction none of whose threads executes rfe writes to spill stacks trap frames at most. -/
theorem lowByte_retire (e : Env) (i : Instr) (h : Hdr) (rs : List (Nat × TRes)) (s : State) (hr : ∀ r ∈ rs, ∀ v, r.2.leave ≠ .rfe v) :
    (retire e i h rs s).lowByte = s.lowByte := by
  have applied : ((s.clockTo e.fp).applyAll s.nonce e rs).lowByte = s.lowByte :=
    foldl_keeps State.lowByte _ (fun a r => State.lowByte_modGroup a _ _ _ (fun g => Group.gix_stack_applyRes _ _ g _ _)) rs (s.clockTo e.fp)
  have departed : ∀ a : State, (a.departAll e i rs).lowByte = a.lowByte := fun a =>
    List.foldlRecOn (motive := fun b : State => b.lowByte = a.lowByte) rs _ rfl
      (fun b hb r hm => (State.lowByte_leave { b with clock := e.cycleOf i r.1 } _ _ _ _ (hr r hm)).trans hb)
  have counted : ∀ a : State, (a.countIssue e i h rs).lowByte = a.lowByte := fun a => by
    unfold State.countIssue
    dsimp only
    split
    · exact State.lowByte_modGroup a _ _ _ (fun _ => ⟨rfl, rfl⟩)
    · refine (State.lowByte_modTeam _ _ _ ?_).trans (State.lowByte_modGroup a _ _ _ (fun _ => ⟨rfl, rfl⟩))
      intro; rfl
  rw [retire_eq]
  exact (State.lowByte_wakeGone _ _).trans ((counted _).trans ((departed _).trans applied))

/-! ### Quiet results -/

/-- A result that writes no register and no predicate and raises no flag, of a thread that does not return from its handler. -/
structure TRes.Quiet (r : TRes) : Prop where
  writes : r.writes = []
  preds : r.preds = []
  flags : r.flags = 0
  stays : ∀ v, r.leave ≠ .rfe v
theorem Group.setFlags_zero (g : Group) (hp : Bool) : g.setFlags hp 0 = g := by
  have hz : g.nflags ||| 0 = g.nflags := BitVec.or_zero
  unfold Group.setFlags
  rw [hz, ite_self]
/-- The change of a thread's loop stack and MR that a result names. -/
def TRes.turn (r : TRes) (th : Thread) : Thread := { th with loops := r.loops.getD th.loops, mr := r.mr.getD th.mr }
theorem Group.applyRes_quiet {r : TRes} (hr : r.Quiet) (key : Nat) (hp : Bool) (g : Group) (t : Nat) :
    g.applyRes key hp t r = g.modThread t r.turn := by
  simp only [Group.applyRes, hr.writes, hr.preds, hr.flags, List.foldl_nil, Group.setFlags_zero]
  rfl
theorem idleRes_quiet (e : Env) (i : Instr) (h : Hdr) (b : Bool) (n : Nat) : (e.idleRes i h b n).Quiet := by
  obtain ⟨hw, hl⟩ := idleRes_spec e i h b n
  refine ⟨hw, ?_, ?_, hl⟩ <;>
  · unfold Env.idleRes faultRes
    split
    · rfl
    · split <;> rfl
theorem results_quiet {e : Env} {i : Instr} {h : Hdr} {f : Nat → TRes} (hf : ∀ n, (f n).Quiet) : ∀ r ∈ e.results i h f, r.2.Quiet := by
  intro r hr
  rcases results_cases hr with ⟨-, hx⟩ | ⟨b, hx⟩ <;> rw [hx]
  · exact hf r.1
  · exact idleRes_quiet e i h b r.1
/-- Quiet results leave all that `State.kept` shows. -/
theorem kept_retire_quiet (e : Env) (i : Instr) (h : Hdr) (rs : List (Nat × TRes)) (s : State) (hr : ∀ r ∈ rs, r.2.Quiet) :
    (retire e i h rs s).kept = s.kept := by
  refine (kept_retire e i h rs s (fun r hm => (hr r hm).stays)).trans ?_
  refine List.foldlRecOn (motive := fun b : State => b.kept = s.kept) rs _ rfl (fun b hb r hm => Eq.trans ?_ hb)
  refine State.kept_modGroup b _ _ _ (fun g => ?_)
  rw [Group.applyRes_quiet (hr r hm)]
  exact Group.kept_modThread g r.1 _ (fun _ => rfl)

/-! ### Predicates, flags and memory in what is kept -/

theorem State.predOf_of_kept {s s' : State} (h : s.kept = s'.kept) (id gix n p : Nat) : s.predOf id gix n p = s'.predOf id gix n p := by
  have thread : ∀ s : State, (s.thread? id gix n).map Thread.kept = ((s.group? id gix).map Group.kept).bind (fun g => g.threads[n]?) := by
    intro s
    unfold State.thread? State.group? Team.thread?
    cases s.team? id with
    | none => rfl
    | some t =>
      dsimp only
      cases t.group? gix with
      | none => rfl
      | some g => simp [Group.kept]
  have bits : ∀ s : State, s.predOf id gix n p = ((s.thread? id gix n).map Thread.kept).map (fun th => p == 0 || th.p.getLsbD p) := by
    intro s
    unfold State.predOf
    rw [Option.map_map]
    rfl
  rw [bits, bits, thread, thread, State.group?_kept h]
theorem State.flagsOf_of_kept {s s' : State} (h : s.kept = s'.kept) (id gix : Nat) : s.flagsOf id gix = s'.flagsOf id gix := by
  have flags : ∀ s : State, s.flagsOf id gix = ((s.group? id gix).map Group.kept).map Group.nflags := by
    intro s
    unfold State.flagsOf
    rw [Option.map_map]
    rfl
  rw [flags, flags, State.group?_kept h]
/-- Registers, predicates, flags and memory of a state that keeps all that `State.kept` shows and the bytes below the room of
trap frames. -/
theorem State.sameBut_of_kept {s t : State} (hk : t.kept = s.kept) (hl : t.lowByte = s.lowByte) (w : Nat → Nat → Nat → Nat → Prop) :
    s.sameBut t w := by
  refine ⟨fun id gix n c _ => State.regOf_of_kept hk id gix n c, State.predOf_of_kept hk, State.flagsOf_of_kept hk,
    (congrArg State.views hk : t.kept.views = s.kept.views), fun l j hc => ?_⟩
  have strip := State.strip_of_kept hk
  cases l with
  | die d a => exact State.readByte_of_strip strip _ j (by simp)
  | sh id o => exact State.readByte_of_strip strip _ j (by simp)
  | st id gix o => exact State.readByte_of_lowByte hl hc
/-- An instruction whose results are quiet keeps every register, predicate and flag and all of memory. -/
theorem keeps_of_quiet {i : Instr} {h : Hdr} {f : Env → Nat → TRes} (hx : ∀ s, exec i s = perform i h s f)
    (hf : ∀ e n, (f e n).Quiet) (link : List Nat) : Keeps i h link := by
  intro s e he hr _
  have quiet := results_quiet (e := e) (i := i) (h := h) (hf e)
  exact ⟨_, (hx s).trans (perform_next f he hr), State.sameBut_of_kept (kept_retire_quiet e i h _ s quiet)
    (lowByte_retire e i h _ s (fun r hm => (quiet r hm).stays)) _⟩

end Sys2Proof.Machine

/-!
Where threads stand after an instruction that they fall through: each departure sets one thread at its continuation, and
leaves every other thread of the group where it stands, but for overflow-parked threads that an entry for their PC admits.
-/

namespace Sys2Proof.Machine

/-! ### Threads of a changed team -/

theorem Team.thread?_eq (t : Team) (gix n : Nat) : t.thread? gix n = (t.group? gix).bind (fun g => g.threads[n]?) := by
  unfold Team.thread?
  cases t.group? gix <;> rfl
theorem Team.thread?_modGroup (t : Team) (gix n : Nat) (f : Group → Group) (hf : ∀ g, (f g).gix = g.gix) :
    (t.modGroup gix f).thread? gix n = (t.group? gix).bind (fun g => (f g).threads[n]?) := by
  rw [Team.thread?_eq, Team.group?_modGroup t gix f hf]
  cases t.group? gix <;> rfl
theorem Team.thread?_modGroup_other (t : Team) {gix gix' : Nat} (n : Nat) (f : Group → Group) (hf : ∀ g, (f g).gix = g.gix) (h : gix' ≠ gix) :
    (t.modGroup gix f).thread? gix' n = t.thread? gix' n := by
  rw [Team.thread?_eq, Team.thread?_eq, Team.group?_modGroup_other t f hf h]
theorem Team.thread?_modThread_self {t : Team} {gix i : Nat} {th : Thread} (f : Thread → Thread) (h : t.thread? gix i = some th) :
    (t.modThread gix i f).thread? gix i = some (f th) := by
  rw [Team.thread?_eq] at h
  obtain ⟨g, hg, hth⟩ := Option.bind_eq_some_iff.1 h
  have hm : (t.modThread gix i f).thread? gix i = (t.group? gix).bind (fun g => (g.modThread i f).threads[i]?) :=
    Team.thread?_modGroup t gix i (fun g => g.modThread i f) (fun _ => rfl)
  rw [hm, hg]
  exact (getElem?_modifyAt_self f g.threads i).trans (congrArg (Option.map f) hth)
theorem Team.thread?_mapThreads {t : Team} {gix n : Nat} {th : Thread} (f : Thread → Thread) (h : t.thread? gix n = some th) :
    (t.mapThreads f).thread? gix n = some (f th) := by
  have hm : (t.mapThreads f).group? gix = (t.group? gix).map (fun g => g.mapThreads f) := by
    unfold Team.group? Team.mapThreads
    rw [List.find?_map]
    rfl
  rw [Team.thread?_eq] at h ⊢
  obtain ⟨g, hg, hth⟩ := Option.bind_eq_some_iff.1 h
  rw [hm, hg]
  exact List.getElem?_map.trans (congrArg (Option.map f) hth)
theorem State.thread?_eq (s : State) (id gix n : Nat) : s.thread? id gix n = (s.team? id).bind (fun t => t.thread? gix n) := by
  unfold State.thread?
  cases s.team? id <;> rfl
theorem State.team?_modTeam_self {s : State} {id : Nat} {t : Team} (f : Team → Team) (hf : ∀ t, (f t).id = t.id) (h : s.team? id = some t) :
    (s.modTeam id f).team? id = some (f t) := (State.team?_modTeam s id f hf).trans (congrArg (Option.map f) h)
theorem mem_insertEntry (e f : FEntry) (l : List FEntry) : f ∈ insertEntry e l ↔ f = e ∨ f ∈ l := by
  induction l with
  | nil => simp [insertEntry]
  | cons x l ih =>
    unfold insertEntry
    split
    · simp
    · simp [ih, or_left_comm]

/-! ### Threads that another thread's departure leaves where they stand -/

/-- Two readings of a thread agree in PC, loop stack and exit. -/
structure Thread.SameAt (th th' : Thread) : Prop where
  pc : th'.pc = th.pc
  loops : th'.loops = th.loops
  exited : th'.exited = th.exited
theorem Thread.SameAt.trans {a b c : Thread} (h : a.SameAt b) (h' : b.SameAt c) : a.SameAt c :=
  ⟨h'.pc.trans h.pc, h'.loops.trans h.loops, h'.exited.trans h.exited⟩
/-- Thread `n` of group `gix` stands where it stood: at its PC with its loop stack and in its place, or, if it was
overflow-parked, in an entry for its PC (R255). No entry is lost. -/
structure Team.Undisturbed (gix n : Nat) (t t' : Team) : Prop where
  ctx : t'.ctx = t.ctx
  entries : ∀ f ∈ t.frontier, f ∈ t'.frontier
  thread : ∀ th, t.thread? gix n = some th → ∃ th', t'.thread? gix n = some th' ∧ th.SameAt th' ∧
    (th'.place = th.place ∨ (th.place = .overflow ∧ ∃ f ∈ t'.frontier, th'.place = .entry f.slot ∧ f.addr = th.pc))

theorem Team.Undisturbed.refl (gix n : Nat) (t : Team) : Team.Undisturbed gix n t t :=
  ⟨rfl, fun _ h => h, fun th h => ⟨th, h, ⟨rfl, rfl, rfl⟩, .inl rfl⟩⟩
theorem Team.Undisturbed.trans {gix n : Nat} {t t' t'' : Team} (h : Team.Undisturbed gix n t t') (h' : Team.Undisturbed gix n t' t'') :
    Team.Undisturbed gix n t t'' := by
  refine ⟨h'.ctx.trans h.ctx, fun f hf => h'.entries f (h.entries f hf), fun th hth => ?_⟩
  obtain ⟨th', hth', same, place⟩ := h.thread th hth
  obtain ⟨th'', hth'', same', place'⟩ := h'.thread th' hth'
  refine ⟨th'', hth'', same.trans same', ?_⟩
  rcases place with place | ⟨ov, f, hf, place, ha⟩
  · rcases place' with place' | ⟨ov, f, hf, place', ha⟩
    · exact .inl (place'.trans place)
    · exact .inr ⟨place.symm.trans ov, f, hf, place', ha.trans same.pc⟩
  · rcases place' with place' | ⟨ov', -⟩
    · exact .inr ⟨ov, f, h'.entries f hf, place'.trans place, ha⟩
    · rw [place] at ov'; cases ov'
/-- A change of a group in which each thread `n` keeps its PC, loop stack, exit and place. -/
theorem Team.undisturbed_modGroup (t : Team) (gix gix' n : Nat) (f : Group → Group) (hf : ∀ g, (f g).gix = g.gix)
    (h : ∀ g : Group, ∀ th, g.threads[n]? = some th → ∃ th', (f g).threads[n]? = some th' ∧ th.SameAt th' ∧ th'.place = th.place) :
    Team.Undisturbed gix n t (t.modGroup gix' f) := by
  refine ⟨rfl, fun _ h => h, fun th hth => ?_⟩
  by_cases hg : gix = gix'
  · subst hg
    rw [Team.thread?_eq] at hth
    obtain ⟨g, hgr, hth⟩ := Option.bind_eq_some_iff.1 hth
    obtain ⟨th', hth', same, place⟩ := h g th hth
    refine ⟨th', ?_, same, .inl place⟩
    rw [Team.thread?_modGroup t gix n f hf, hgr]
    exact hth'
  · exact ⟨th, (Team.thread?_modGroup_other t n f hf hg).trans hth, ⟨rfl, rfl, rfl⟩, .inl rfl⟩
theorem Team.undisturbed_modThread (t : Team) (gix : Nat) {i n : Nat} (f : Thread → Thread) (h : n ≠ i) :
    Team.Undisturbed gix n t (t.modThread gix i f) :=
  Team.undisturbed_modGroup t gix gix n _ (fun _ => rfl)
    (fun g th hth => ⟨th, (getElem?_modifyAt_other f g.threads i n h).trans hth, ⟨rfl, rfl, rfl⟩, rfl⟩)
theorem Team.undisturbed_endBlock (t : Team) (gix i n : Nat) : Team.Undisturbed gix n t (t.modGroup gix (fun g => g.endBlock i)) := by
  refine Team.undisturbed_modGroup t gix gix n _ (fun _ => rfl) (fun g th hth => ?_)
  by_cases hn : n = i
  · subst hn
    exact ⟨_, (getElem?_modifyAt_self _ g.threads n).trans (congrArg (Option.map _) hth), ⟨rfl, rfl, rfl⟩, rfl⟩
  · exact ⟨th, (getElem?_modifyAt_other _ g.threads i n hn).trans hth, ⟨rfl, rfl, rfl⟩, rfl⟩
/-- Releasing a meeting changes MR alone. -/
theorem Team.undisturbed_meetCheck (t : Team) (gix gix' n : Nat) (v : DWord) : Team.Undisturbed gix n t (t.meetCheck gix' v) := by
  unfold Team.meetCheck
  split
  · exact Team.Undisturbed.refl gix n t
  · dsimp only
    split
    · refine Team.undisturbed_modGroup t gix gix' n _ (fun _ => rfl) (fun g th hth => ?_)
      refine ⟨_, List.getElem?_map.trans (congrArg (Option.map _) hth), ?_, ?_⟩ <;> dsimp only
      · split <;> exact ⟨rfl, rfl, rfl⟩
      · split <;> rfl
    · exact Team.Undisturbed.refl gix n t
theorem Team.undisturbed_meetAt (t : Team) (gix n : Nat) (v : DWord) : Team.Undisturbed gix n t (t.meetAt v) :=
  List.foldlRecOn (motive := fun a => Team.Undisturbed gix n t a) t.groups _ (Team.Undisturbed.refl gix n t)
    (fun a ha g _ => ha.trans (Team.undisturbed_meetCheck a gix g.gix n v))

/-! ### Joining the frontier (R255) -/

/-- A thread that has joined the frontier is overflow-parked or in an entry for its PC. -/
def Team.Entered (t : Team) (th : Thread) : Prop := th.place = .overflow ∨ ∃ f ∈ t.frontier, th.place = .entry f.slot ∧ f.addr = th.pc

theorem Team.Undisturbed.entered {gix n : Nat} {t t' : Team} (h : Team.Undisturbed gix n t t') {th : Thread}
    (hth : t.thread? gix n = some th) (hin : t.Entered th) :
    ∃ th', t'.thread? gix n = some th' ∧ th.SameAt th' ∧ t'.Entered th' := by
  obtain ⟨th', hth', same, place⟩ := h.thread th hth
  refine ⟨th', hth', same, ?_⟩
  rcases place with place | ⟨-, f, hf, place, ha⟩
  · rcases hin with ov | ⟨f, hf, hp, ha⟩
    · exact .inl (place.trans ov)
    · exact .inr ⟨f, h.entries f hf, place.trans hp, ha.trans same.pc.symm⟩
  · exact .inr ⟨f, hf, place, ha.trans same.pc.symm⟩
/-- A new entry for an address takes in the overflow-parked threads of that PC. -/
theorem Team.undisturbed_newEntry (t : Team) (gix n m : Nat) (pc : DWord) :
    Team.Undisturbed gix n t (({ t with frontier := insertEntry ⟨m, pc, 0⟩ t.frontier } : Team).mapThreads (fun x =>
      if x.place = .overflow ∧ x.pc = pc ∧ x.wait = none then { x with place := .entry m } else x)) := by
  refine ⟨rfl, fun f hf => (mem_insertEntry _ f _).2 (.inr hf), fun th hth => ?_⟩
  have hth' : ({ t with frontier := insertEntry ⟨m, pc, 0⟩ t.frontier } : Team).thread? gix n = some th := hth
  refine ⟨_, Team.thread?_mapThreads _ hth', ?_, ?_⟩
  · split <;> exact ⟨rfl, rfl, rfl⟩
  · split
    · next hp => exact .inr ⟨hp.1, ⟨m, pc, 0⟩, (mem_insertEntry _ _ _).2 (.inl rfl), rfl, hp.2.1.symm⟩
    · exact .inl rfl
/-- What a join does: the thread enters, and every other thread of its group is left where it stands. -/
theorem Team.join_spec {t : Team} {gix i : Nat} {th : Thread} (hth : t.thread? gix i = some th) :
    (∃ th', (t.join gix i).thread? gix i = some th' ∧ th.SameAt th' ∧ (t.join gix i).Entered th') ∧
      ∀ n, n ≠ i → Team.Undisturbed gix n t (t.join gix i) := by
  unfold Team.join
  rw [hth]
  dsimp only
  split
  · next f hf =>
    have ha : f.addr = th.pc := by simpa using List.find?_some hf
    exact ⟨⟨_, Team.thread?_modThread_self _ hth, ⟨rfl, rfl, rfl⟩, .inr ⟨f, List.mem_of_find?_eq_some hf, rfl, ha⟩⟩,
      fun n hn => Team.undisturbed_modThread t gix _ hn⟩
  · split
    · next m _ =>
      refine ⟨?_, fun n hn => (Team.undisturbed_newEntry t gix n m th.pc).trans (Team.undisturbed_modThread _ gix _ hn)⟩
      obtain ⟨th', hth', same, -⟩ := (Team.undisturbed_newEntry t gix i m th.pc).thread th hth
      exact ⟨_, Team.thread?_modThread_self _ hth', ⟨same.pc, same.loops, same.exited⟩,
        .inr ⟨⟨m, th.pc, 0⟩, (mem_insertEntry _ _ _).2 (.inl rfl), rfl, same.pc.symm⟩⟩
    · exact ⟨⟨_, Team.thread?_modThread_self _ hth, ⟨rfl, rfl, rfl⟩, .inl rfl⟩, fun n hn => Team.undisturbed_modThread t gix _ hn⟩
/-- A thread that enters at its PC, and the meetings that this completes. -/
theorem Team.enterMeet_spec {t : Team} {gix i : Nat} {th : Thread} (hth : t.thread? gix i = some th) :
    (∃ th', (t.enterMeet gix i).thread? gix i = some th' ∧ th.SameAt th' ∧ (t.enterMeet gix i).Entered th') ∧
      ∀ n, n ≠ i → Team.Undisturbed gix n t (t.enterMeet gix i) := by
  have ended := Team.undisturbed_endBlock t gix i
  obtain ⟨th1, hth1, same1, -⟩ := (ended i).thread th hth
  obtain ⟨⟨th2, hth2, same2, in2⟩, others⟩ := Team.join_spec hth1
  have arrived : t.enterMeet gix i = ((t.modGroup gix (fun g => g.endBlock i)).join gix i).meetAt th1.pc := by
    unfold Team.enterMeet Team.arrive
    rw [hth1]
  rw [arrived]
  have met := fun n => Team.undisturbed_meetAt ((t.modGroup gix (fun g => g.endBlock i)).join gix i) gix n th1.pc
  refine ⟨?_, fun n hn => (ended n).trans ((others n hn).trans (met n))⟩
  obtain ⟨th3, hth3, same3, in3⟩ := (met i).entered hth2 in2
  exact ⟨th3, hth3, (same1.trans same2).trans same3, in3⟩

/-! ### Falling through -/

/-- A thread of a team stands at a continuation: in its block, or, where that ends, entered for its PC. -/
def Team.At (t : Team) (gix n : Nat) (c : Cont) : Prop :=
  ∃ th, t.thread? gix n = some th ∧ th.pc = c.pc ∧ th.loops = c.loops ∧ (c.ends = false → th.place = .cur) ∧ (c.ends = true → t.Entered th)
theorem Team.At.undisturbed {gix n : Nat} {t t' : Team} {c : Cont} (hat : t.At gix n c) (h : Team.Undisturbed gix n t t') :
    t'.At gix n c := by
  obtain ⟨th, hth, hpc, hl, hcur, hent⟩ := hat
  obtain ⟨th', hth', same, place⟩ := h.thread th hth
  refine ⟨th', hth', same.pc.trans hpc, same.loops.trans hl, fun he => ?_, fun he => ?_⟩
  · rcases place with place | ⟨ov, -⟩
    · exact place.trans (hcur he)
    · rw [hcur he] at ov; cases ov
  · obtain ⟨th'', hth'', -, hin⟩ := h.entered hth (hent he)
    rw [hth'] at hth''
    exact Option.some.inj hth'' ▸ hin
/-- Moving a thread to a continuation, which it enters where the block ends. -/
def Team.moveTo (t : Team) (gix i : Nat) (c : Cont) : Team :=
  let t1 := t.modThread gix i (fun th => { th with pc := c.pc, loops := c.loops })
  if c.ends then t1.enterMeet gix i else t1
theorem Team.moveTo_at {t : Team} {gix i : Nat} {th : Thread} (c : Cont) (hth : t.thread? gix i = some th) (hcur : th.place = .cur) :
    (t.moveTo gix i c).At gix i c := by
  have moved := Team.thread?_modThread_self (fun th => { th with pc := c.pc, loops := c.loops }) hth
  unfold Team.moveTo
  dsimp only
  split
  · next he =>
    obtain ⟨⟨th', hth', ⟨hpc, hl, -⟩, hin⟩, -⟩ := Team.enterMeet_spec moved
    exact ⟨th', hth', hpc, hl, fun hn => Bool.noConfusion (he.symm.trans hn), fun _ => hin⟩
  · next he => exact ⟨_, moved, rfl, rfl, fun _ => hcur, fun hy => absurd hy he⟩
theorem Team.undisturbed_moveTo {t : Team} {gix i n : Nat} {th : Thread} (c : Cont) (hth : t.thread? gix i = some th) (hn : n ≠ i) :
    Team.Undisturbed gix n t (t.moveTo gix i c) := by
  have moved := Team.thread?_modThread_self (fun th => { th with pc := c.pc, loops := c.loops }) hth
  have others := Team.undisturbed_modThread t gix (fun th => { th with pc := c.pc, loops := c.loops }) hn
  unfold Team.moveTo
  dsimp only
  split
  · exact others.trans ((Team.enterMeet_spec moved).2 n hn)
  · exact others
theorem Team.id_moveTo (t : Team) (gix i : Nat) (c : Cont) : (t.moveTo gix i c).id = t.id := by
  have hr : (t.moveTo gix i c).rest = t.rest := by
    unfold Team.moveTo
    dsimp only
    split
    · exact (Team.rest_enterMeet _ _ _).trans (Team.rest_modThread t gix i _ (fun _ => rfl))
    · exact Team.rest_modThread t gix i _ (fun _ => rfl)
  have hid := congrArg Team.id hr
  exact hid

/-! ### The same in the device -/

/-- A thread of the device stands at a continuation. -/
def State.At (id gix n : Nat) (c : Cont) (s : State) : Prop := ∃ t, s.team? id = some t ∧ t.At gix n c
/-- A thread is streamed at a PC with a loop stack, in a team of a context. -/
def State.Streams (id gix n ctx : Nat) (pc : DWord) (loops : List LoopEntry) (s : State) : Prop :=
  ∃ t th, s.team? id = some t ∧ t.ctx = ctx ∧ t.thread? gix n = some th ∧ th.pc = pc ∧ th.loops = loops ∧ th.exited = false ∧ th.place = .cur
/-- Thread `n` stands where it stood, and no code space has changed. -/
structure State.Undisturbed (id gix n : Nat) (s s' : State) : Prop where
  code : s'.contexts = s.contexts
  team : ∀ t, s.team? id = some t → ∃ t', s'.team? id = some t' ∧ Team.Undisturbed gix n t t'

theorem State.Undisturbed.refl (id gix n : Nat) (s : State) : State.Undisturbed id gix n s s :=
  ⟨rfl, fun t ht => ⟨t, ht, Team.Undisturbed.refl gix n t⟩⟩
theorem State.Undisturbed.trans {id gix n : Nat} {s s' s'' : State} (h : State.Undisturbed id gix n s s') (h' : State.Undisturbed id gix n s' s'') :
    State.Undisturbed id gix n s s'' := by
  refine ⟨h'.code.trans h.code, fun t ht => ?_⟩
  obtain ⟨t', ht', u⟩ := h.team t ht
  obtain ⟨t'', ht'', u'⟩ := h'.team t' ht'
  exact ⟨t'', ht'', u.trans u'⟩
theorem State.undisturbed_modTeam (s : State) (id gix n : Nat) (f : Team → Team) (hf : ∀ t, (f t).id = t.id)
    (h : ∀ t, s.team? id = some t → Team.Undisturbed gix n t (f t)) : State.Undisturbed id gix n s (s.modTeam id f) :=
  ⟨rfl, fun t ht => ⟨f t, State.team?_modTeam_self f hf ht, h t ht⟩⟩
theorem State.undisturbed_atCycle {s : State} {id gix n : Nat} (c : Nat) {f : State → State}
    (h : ∀ a : State, State.Undisturbed id gix n a (f a)) : State.Undisturbed id gix n s (s.atCycle c f) :=
  ⟨(h { s with clock := c }).code, (h { s with clock := c }).team⟩
theorem State.At.undisturbed {id gix n : Nat} {c : Cont} {s s' : State} (hat : s.At id gix n c) (h : State.Undisturbed id gix n s s') :
    s'.At id gix n c := by
  obtain ⟨t, ht, hat⟩ := hat
  obtain ⟨t', ht', u⟩ := h.team t ht
  exact ⟨t', ht', hat.undisturbed u⟩
theorem State.Streams.undisturbed {id gix n ctx : Nat} {pc : DWord} {loops : List LoopEntry} {s s' : State}
    (hst : s.Streams id gix n ctx pc loops) (h : State.Undisturbed id gix n s s') : s'.Streams id gix n ctx pc loops := by
  obtain ⟨t, th, ht, hc, hth, hpc, hl, hx, hcur⟩ := hst
  obtain ⟨t', ht', u⟩ := h.team t ht
  obtain ⟨th', hth', ⟨hpc', hl', hx'⟩, place⟩ := u.thread th hth
  refine ⟨t', th', ht', u.ctx.trans hc, hth', hpc'.trans hpc, hl'.trans hl, hx'.trans hx, ?_⟩
  rcases place with place | ⟨ov, -⟩
  · exact place.trans hcur
  · rw [hcur] at ov; cases ov
theorem State.fallThrough_eq {s : State} {id gix i : Nat} {t : Team} {th : Thread} (ht : s.team? id = some t) (hth : t.thread? gix i = some th) :
    s.fallThrough id gix i = s.modTeam id (fun t' => t'.moveTo gix i (s.contOf t.ctx th.pc th.loops)) := by
  unfold State.fallThrough
  rw [ht]
  dsimp only
  rw [hth]
  rfl
/-- A streamed thread that falls through stands at its continuation. -/
theorem State.Streams.leave_fall {id gix i ctx : Nat} {pc : DWord} {loops : List LoopEntry} {s : State}
    (h : s.Streams id gix i ctx pc loops) : (s.leave id gix i .fall).At id gix i (s.contOf ctx pc loops) := by
  obtain ⟨t, th, ht, rfl, hth, rfl, rfl, hx, hcur⟩ := h
  have left : s.leave id gix i .fall = s.fallThrough id gix i := by
    unfold State.leave
    rw [State.thread?_eq, ht, Option.bind_some, hth]
    dsimp only
    rw [hx]
    rfl
  rw [left, State.fallThrough_eq ht hth]
  exact ⟨_, State.team?_modTeam_self _ (fun t => Team.id_moveTo t gix i _) ht, Team.moveTo_at _ hth hcur⟩
/-- A thread that falls through leaves every other thread of its group where it stands. -/
theorem State.undisturbed_leave_fall (s : State) (id gix : Nat) {i n : Nat} (hn : n ≠ i) :
    State.Undisturbed id gix n s (s.leave id gix i .fall) := by
  unfold State.leave
  split
  · exact State.Undisturbed.refl id gix n s
  next th hst =>
  split
  · exact State.Undisturbed.refl id gix n s
  rw [State.thread?_eq] at hst
  obtain ⟨t, ht, hth⟩ := Option.bind_eq_some_iff.1 hst
  have left : s.leaveLive id gix i .fall = s.fallThrough id gix i := rfl
  rw [left, State.fallThrough_eq ht hth]
  refine State.undisturbed_modTeam s id gix n _ (fun t => Team.id_moveTo t gix i _) (fun t' ht' => ?_)
  rw [ht] at ht'
  exact Option.some.inj ht' ▸ Team.undisturbed_moveTo _ hth hn
theorem State.contOf_congr {s s' : State} (h : s'.contexts = s.contexts) : s'.contOf = s.contOf := by
  unfold State.contOf State.codeAt State.ctx?
  rw [h]

/-! ### One thread among those that retire -/

/-- A pass over threads, of which the one at hand comes once: what holds up to its turn, what its turn makes of it, and what the
turns of the others leave. -/
theorem foldl_of_once {op : State → Nat × TRes → State} {rs : List (Nat × TRes)} {r : Nat × TRes} {s : State} (P Q : State → Prop)
    (hnd : (rs.map Prod.fst).Nodup) (hr : r ∈ rs) (hs : P s) (before : ∀ a, ∀ x ∈ rs, r.1 ≠ x.1 → P a → P (op a x))
    (turn : ∀ a, P a → Q (op a r)) (after : ∀ a, ∀ x ∈ rs, r.1 ≠ x.1 → Q a → Q (op a x)) : Q (rs.foldl op s) := by
  obtain ⟨l1, l2, rfl⟩ := List.append_of_mem hr
  simp only [List.map_append, List.map_cons, List.nodup_append, List.nodup_cons, List.mem_map, List.mem_cons] at hnd
  obtain ⟨-, ⟨hn2, -⟩, hn1⟩ := hnd
  rw [List.foldl_append, List.foldl_cons]
  have first : P (l1.foldl op s) := List.foldlRecOn l1 op hs (fun a ha x hx =>
    before a x (by simp [hx]) (fun h => hn1 _ ⟨x, hx, rfl⟩ _ (.inl rfl) h.symm) ha)
  exact List.foldlRecOn l2 op (turn _ first) (fun a ha x hx => after a x (by simp [hx]) (fun h => hn2 ⟨x, hx, h.symm⟩) ha)

/-- The result of a thread that only falls through, with a change of its loop stack or none. -/
def TRes.falls (l : Option (List LoopEntry)) : TRes := { loops := l }
theorem TRes.falls_quiet (l : Option (List LoopEntry)) : (TRes.falls l).Quiet := ⟨rfl, rfl, rfl, fun _ => Leave.noConfusion⟩

/-- Departing by a fall-through, each thread comes to stand at its continuation. -/
theorem State.Streams.departAll {e : Env} {i : Instr} {rs : List (Nat × TRes)} {r : Nat × TRes} {ctx : Nat} {pc : DWord}
    {loops : List LoopEntry} {s : State} (h : s.Streams e.team.id e.g.gix r.1 ctx pc loops) (hnd : (rs.map Prod.fst).Nodup)
    (hr : r ∈ rs) (hf : ∀ x ∈ rs, x.2.leave = .fall) : (s.departAll e i rs).At e.team.id e.g.gix r.1 (s.contOf ctx pc loops) := by
  have other : ∀ (a : State), ∀ x ∈ rs, r.1 ≠ x.1 → State.Undisturbed e.team.id e.g.gix r.1 a
      (a.atCycle (e.cycleOf i x.1) (fun a => a.leave e.team.id e.g.gix x.1 x.2.leave)) := by
    intro a x hx hn
    rw [hf x hx]
    exact State.undisturbed_atCycle _ (fun a => State.undisturbed_leave_fall a e.team.id e.g.gix hn)
  refine foldl_of_once (State.Undisturbed e.team.id e.g.gix r.1 s) (State.At e.team.id e.g.gix r.1 (s.contOf ctx pc loops)) hnd hr
    (State.Undisturbed.refl _ _ _ _) (fun a x hx hn ha => ha.trans (other a x hx hn)) (fun a ha => ?_)
    (fun a x hx hn ha => ha.undisturbed (other a x hx hn))
  have here := h.undisturbed ha
  have streams : ({ a with clock := e.cycleOf i r.1 } : State).Streams e.team.id e.g.gix r.1 ctx pc loops := here
  have stands := streams.leave_fall
  rw [State.contOf_congr (s := s) (s' := { a with clock := e.cycleOf i r.1 }) ha.code] at stands
  rw [hf r hr]
  exact stands
/-- Writing quiet results changes the loop stack of each thread that has a new one. -/
theorem State.Streams.applyAll {e : Env} {rs : List (Nat × TRes)} {n : Nat} {l : Option (List LoopEntry)} {ctx : Nat} {pc : DWord}
    {loops : List LoopEntry} {s : State} (key : Nat) (h : s.Streams e.team.id e.g.gix n ctx pc loops) (hnd : (rs.map Prod.fst).Nodup)
    (hr : (n, TRes.falls l) ∈ rs) (hq : ∀ x ∈ rs, x.2.Quiet) :
    (s.applyAll key e rs).contexts = s.contexts ∧ (s.applyAll key e rs).Streams e.team.id e.g.gix n ctx pc (l.getD loops) := by
  have other : ∀ (a : State), ∀ x ∈ rs, n ≠ x.1 → State.Undisturbed e.team.id e.g.gix n a
      (a.modGroup e.team.id e.g.gix (fun g => g.applyRes key (e.helper x.1) x.1 x.2)) := by
    intro a x hx hn
    simp only [Group.applyRes_quiet (hq x hx)]
    exact State.undisturbed_modTeam a _ _ _ _ (fun _ => rfl) (fun t _ => Team.undisturbed_modThread t _ _ hn)
  refine foldl_of_once (r := (n, TRes.falls l)) (State.Undisturbed e.team.id e.g.gix n s)
    (fun a => a.contexts = s.contexts ∧ a.Streams e.team.id e.g.gix n ctx pc (l.getD loops)) hnd hr
    (State.Undisturbed.refl _ _ _ _) (fun a x hx hn ha => ha.trans (other a x hx hn)) (fun a ha => ?_)
    (fun a x hx hn ha => ⟨(other a x hx hn).code.trans ha.1, ha.2.undisturbed (other a x hx hn)⟩)
  obtain ⟨t, th, ht, hc, hth, hpc, hl, hx, hcur⟩ := h.undisturbed ha
  simp only [Group.applyRes_quiet (TRes.falls_quiet l)]
  have turned := State.team?_modTeam_self (fun t => t.modThread e.g.gix n (TRes.falls l).turn) (fun _ => rfl) ht
  exact ⟨ha.code, _, _, turned, hc, Team.thread?_modThread_self _ hth, hpc, congrArg l.getD hl, hx, hcur⟩
/-- Timing moves no thread. -/
theorem State.undisturbed_countIssue (e : Env) (i : Instr) (h : Hdr) (rs : List (Nat × TRes)) (n : Nat) (s : State) :
    State.Undisturbed e.team.id e.g.gix n s (s.countIssue e i h rs) := by
  have timed : State.Undisturbed e.team.id e.g.gix n s (s.modGroup e.team.id e.g.gix
      (fun g => g.retime e i h (e.more || rs.any (fun r => r.2.leave == .stay)) [])) :=
    State.undisturbed_modTeam s _ _ _ _ (fun _ => rfl) (fun t _ => Team.undisturbed_modGroup t _ _ n _ (fun _ => rfl)
      (fun g th hth => ⟨th, hth, ⟨rfl, rfl, rfl⟩, rfl⟩))
  unfold State.countIssue
  dsimp only
  split
  · exact timed
  · exact timed.trans (State.undisturbed_modTeam _ _ _ _ _ (fun _ => rfl) (fun t _ =>
      ⟨rfl, fun _ hf => hf, fun th hth => ⟨th, hth, ⟨rfl, rfl, rfl⟩, .inl rfl⟩⟩))
/-- Where threads only move, no wait ends: what follows the departures changes nothing. -/
theorem settle_departed (e : Env) (i : Instr) (h : Hdr) (rs : List (Nat × TRes)) (s : State)
    (hr : ∀ r ∈ rs, r.2.leave.moves = true) (hs : s.settled = true) :
    ((((s.clockTo e.fp).applyAll s.nonce e rs).departAll e i rs).countIssue e i h rs).settle =
      (((s.clockTo e.fp).applyAll s.nonce e rs).departAll e i rs).countIssue e i h rs := by
  have applied : ((s.clockTo e.fp).applyAll s.nonce e rs).rest = s.rest :=
    foldl_keeps State.rest _ (fun a r => State.rest_modGroup a _ _ _ (fun g => Group.rest_applyRes _ _ g _ _)) rs (s.clockTo e.fp)
  have departed : ∀ a : State, (a.departAll e i rs).rest = a.rest := fun a =>
    List.foldlRecOn (motive := fun b : State => b.rest = a.rest) rs _ rfl
      (fun b hb r hm => (State.rest_atCycle b _ _ (fun a => State.rest_leave a _ _ _ _ (hr r hm))).trans hb)
  have counted : ∀ a : State, (a.countIssue e i h rs).rest = a.rest := fun a => by
    unfold State.countIssue
    dsimp only
    split
    · refine State.rest_modGroup a _ _ _ ?_
      intro; rfl
    · refine (State.rest_modTeam _ _ _ ?_).trans (State.rest_modGroup a _ _ _ ?_) <;> (intro; rfl)
  refine State.settle_of_settled _ ?_
  rw [← State.settled_rest, counted, departed, applied, State.settled_rest]
  exact hs

/-! ### Instructions that threads fall through -/

/-- A streamed thread that has not exited, in the surroundings of the instruction. -/
theorem streams_of_act {s : State} {e : Env} (he : env? s = some e) (hsound : e.sound = true) {n : Nat} (hn : n ∈ e.act) :
    s.Streams e.team.id e.g.gix n e.team.ctx e.pc (e.loops n) := by
  obtain ⟨-, ht, hg, -, ⟨l, hl, hsub⟩, -⟩ := env?_spec he
  obtain ⟨th, hth, hpc, hcur⟩ := (streamedOf_spec hl).2 n (hsub.subset hn)
  have hx := List.all_eq_true.1 hsound n hn
  simp only [Env.exited, Env.thread, hth, Bool.not_eq_true'] at hx
  have hloops : e.loops n = th.loops := by simp only [Env.loops, Env.thread, hth]
  have hth' : e.team.thread? e.g.gix n = some th := by
    unfold State.group? at hg
    rw [ht] at hg
    exact (Team.thread?_eq _ _ _).trans (Option.bind_eq_some_iff.2 ⟨e.g, hg, hth⟩)
  exact ⟨e.team, th, ht, rfl, hth', hpc, hloops.symm, hx, by simpa [Thread.current] using hcur⟩
theorem State.At.stands {e : Env} {n : Nat} {c : Cont} {t : State} (h : t.At e.team.id e.g.gix n c) : Stands e t n c := by
  obtain ⟨tm, ht, th, hth, hpc, hl, hcur, hent⟩ := h
  have hst : t.thread? e.team.id e.g.gix n = some th := by rw [State.thread?_eq, ht]; exact hth
  exact ⟨tm, th, ht, hst, hpc, hl, hcur, fun he => hpc ▸ hent he⟩
/-- A thread that falls through stands at its continuation when the instruction is retired. -/
theorem stands_retire {s : State} {e : Env} (he : env? s = some e) (hsound : e.sound = true) (hset : s.settled = true) (i : Instr) (h : Hdr)
    {rs : List (Nat × TRes)} (hfst : rs.map Prod.fst = e.act) (hf : ∀ r ∈ rs, ∃ l, r.2 = TRes.falls l) {n : Nat}
    {l : Option (List LoopEntry)} (hr : (n, TRes.falls l) ∈ rs) : Stands e (retire e i h rs s) n (e.cont (l.getD (e.loops n))) := by
  obtain ⟨hes, -, -, -, ⟨l', hl', hsub⟩, -⟩ := env?_spec he
  have hnd : (rs.map Prod.fst).Nodup := hfst ▸ hsub.nodup (streamedOf_spec hl').1
  have hfall : ∀ r ∈ rs, r.2.leave = .fall := fun r hm => by obtain ⟨k, hk⟩ := hf r hm; rw [hk]; rfl
  have hquiet : ∀ r ∈ rs, r.2.Quiet := fun r hm => by obtain ⟨k, hk⟩ := hf r hm; rw [hk]; exact TRes.falls_quiet k
  have hn : n ∈ e.act := hfst ▸ List.mem_map_of_mem hr
  have streams : (s.clockTo e.fp).Streams e.team.id e.g.gix n e.team.ctx e.pc (e.loops n) := streams_of_act he hsound hn
  obtain ⟨hcode, applied⟩ := streams.applyAll s.nonce hnd hr hquiet
  have departed := applied.departAll (i := i) (r := (n, TRes.falls l)) hnd hr hfall
  rw [State.contOf_congr hcode] at departed
  have counted := departed.undisturbed (State.undisturbed_countIssue e i h rs n _)
  rw [retire_eq, settle_departed e i h rs s (fun r hm => by rw [hfall r hm]; rfl) hset]
  have code : ((s.clockTo e.fp).contOf e.team.ctx e.pc (l.getD (e.loops n))) = e.cont (l.getD (e.loops n)) := by
    unfold Env.cont
    rw [hes]
    rfl
  rw [code] at counted
  exact counted.stands
/-- Where no thread of a calm instruction holds the group, a thread that does not perform it falls through. -/
theorem results_of_falls {e : Env} {i : Instr} {h : Hdr} {f : Nat → TRes} (hc : e.calm i h = true)
    (hf : ∀ n ∈ e.live i h, ∃ l, f n = TRes.falls l) {r : Nat × TRes} (hr : r ∈ e.results i h f) :
    (r.1 ∈ e.live i h ∧ r.2 = f r.1) ∨ (r.1 ∉ e.live i h ∧ r.2 = TRes.falls none) := by
  have held : (e.live i h).any (fun t => (f t).leave == .stay) = false := by
    rw [List.any_eq_false]
    intro n hn
    obtain ⟨l, hl⟩ := hf n hn
    simp [hl, TRes.falls]
  unfold Env.results at hr
  rw [held] at hr
  obtain ⟨n, hn, rfl⟩ := List.mem_map.1 hr
  by_cases hm : n ∈ e.live i h
  · exact .inl ⟨hm, if_pos (List.contains_iff_mem.2 hm)⟩
  · exact .inr ⟨hm, (if_neg (fun hx => hm (List.contains_iff_mem.1 hx))).trans (idleRes_calm hc hn hm)⟩
/-- An instruction whose live threads all fall through, some with a new loop stack. -/
theorem goes_of_falls {i : Instr} {h : Hdr} {f : Env → Nat → TRes} {dest : Env → Nat → Option Cont}
    (hx : ∀ s, exec i s = perform i h s f)
    (hd : ∀ e n c, dest e n = some c → ∃ l, f e n = TRes.falls l ∧ c = e.cont (l.getD (e.loops n))) : Goes i h dest := by
  intro s e he hr hcalm hset hsound _ hsome
  have hlive : ∀ n ∈ e.live i h, ∃ l, f e n = TRes.falls l := fun n hn => by
    obtain ⟨c, hc⟩ := Option.isSome_iff_exists.1 (hsome n hn)
    obtain ⟨l, hl, -⟩ := hd e n c hc
    exact ⟨l, hl⟩
  have hfalls : ∀ r ∈ e.results i h (f e), ∃ l, r.2 = TRes.falls l := fun r hm => by
    rcases results_of_falls hcalm hlive hm with ⟨hl, hres⟩ | ⟨-, hres⟩
    · rw [hres]; exact hlive r.1 hl
    · exact ⟨none, hres⟩
  have stands := fun {n l} (hm : (n, TRes.falls l) ∈ e.results i h (f e)) =>
    stands_retire he hsound hset i h (results_fst e i h (f e)) hfalls hm
  refine ⟨_, (hx s).trans (perform_next f he hr), rest_retire e i h _ s (fun r hm => ?_) hset, fun n hn c hc => ?_, fun n hn hl => ?_⟩
  · obtain ⟨l, hres⟩ := hfalls r hm
    rw [hres]; rfl
  · obtain ⟨l, hres, rfl⟩ := hd e n c hc
    exact stands (hres ▸ results_mem hn)
  · obtain ⟨⟨n', r⟩, hm, rfl⟩ := List.mem_map.1 ((results_fst e i h (f e)).symm ▸ hn : n ∈ (e.results i h (f e)).map Prod.fst)
    rcases results_of_falls hcalm hlive hm with ⟨hy, -⟩ | ⟨-, hres⟩
    · exact absurd hy hl
    · exact stands (l := none) (hres ▸ hm)

end Sys2Proof.Machine

/-!
What lpop, nop and bkpt do to their threads (R123, R130, R133).
-/

namespace Sys2Proof.Machine

theorem exec_lpop (h : Hdr) (s : State) : exec (.lpop h) s = perform (.lpop h) h s (fun e n => TRes.falls (some (e.loops n).tail)) := rfl
theorem exec_nop (h : Hdr) (s : State) : exec (.nop h) s = perform (.nop h) h s (fun _ _ => TRes.falls none) := rfl
/-- What bkpt does to a thread: it falls through, or traps with the PC of its fall-through (R130). -/
def bkptRes (imm : Word) (e : Env) : TRes :=
  if e.team.handler = 0 then TRes.falls none else { leave := .trapNext ⟨.bkpt, opndNone, imm⟩ }
theorem exec_bkpt (h : Hdr) (imm : Word) (s : State) : exec (.bkpt h imm) s = perform (.bkpt h imm) h s (fun e _ => bkptRes imm e) := rfl
theorem bkptRes_quiet (imm : Word) (e : Env) : (bkptRes imm e).Quiet := by
  unfold bkptRes
  split
  · exact TRes.falls_quiet none
  · exact ⟨rfl, rfl, rfl, fun _ => Leave.noConfusion⟩
theorem goes_bkpt (h : Hdr) (imm : Word) :
    Goes (.bkpt h imm) h (fun e n => if e.team.handler = 0 then some (e.cont (e.loops n)) else none) := by
  refine goes_of_falls (exec_bkpt h imm) (fun e n c hc => ?_)
  split at hc
  · next hh => exact ⟨none, if_pos hh, (Option.some.inj hc).symm⟩
  · cases hc

/-- Settles O21: lpop's results are fall-throughs with the tail of the loop stack. -/
theorem loopPop : Obligations.LoopPop := by
  unfold Obligations.LoopPop
  refine ⟨fun h => ?_, fun h => ?_, fun _ => rfl⟩
  · exact goes_of_falls (exec_lpop h) (fun e n c hc => ⟨some (e.loops n).tail, rfl, (Option.some.inj hc).symm⟩)
  · exact keeps_of_quiet (exec_lpop h) (fun e n => TRes.falls_quiet (some (e.loops n).tail)) []

/-- Settles O22: nop's results are fall-throughs, and so are those of bkpt where the team has no handler. -/
theorem noEffect : Obligations.NoEffect := by
  unfold Obligations.NoEffect
  refine ⟨fun h => ⟨?_, ?_⟩, fun _ => rfl, fun _ _ _ => rfl, fun h imm => ⟨goes_bkpt h imm, ?_⟩⟩
  · exact goes_of_falls (exec_nop h) (fun e n c hc => ⟨none, rfl, (Option.some.inj hc).symm⟩)
  · exact keeps_of_quiet (exec_nop h) (fun _ _ => TRes.falls_quiet none) []
  · exact keeps_of_quiet (exec_bkpt h imm) (fun e _ => bkptRes_quiet imm e) []

end Sys2Proof.Machine

/-!
What an instruction with a uniform form computes (R41, R138, R139): each live thread's results stand in the registers that its
destination names, and the flags of all of them have joined NFLAGS.
-/

namespace Sys2Proof.Machine

/-! ### The flags of results -/

@[simp] theorem Group.nflags_modThread (g : Group) (t : Nat) (f : Thread → Thread) : (g.modThread t f).nflags = g.nflags := rfl
@[simp] theorem Group.nflags_dropPending (key : Nat) (g : Group) (t c : Nat) : (g.dropPending key t c).nflags = g.nflags := by
  unfold Group.dropPending
  split <;> rfl
@[simp] theorem Group.nflags_writeCode (g : Group) (t c : Nat) (v : Word) : (g.writeCode t c v).nflags = g.nflags := by
  unfold Group.writeCode
  split <;> rfl
/-- A helper's flags are discarded (R76). -/
theorem Group.nflags_setFlags (g : Group) (hp : Bool) (f : FlagBits) :
    (g.setFlags hp f).nflags = if hp then g.nflags else g.nflags ||| f := by
  cases hp <;> rfl
/-- Of a result, its flags alone change NFLAGS. -/
theorem Group.nflags_applyRes (key : Nat) (hp : Bool) (g : Group) (t : Nat) (r : TRes) :
    (g.applyRes key hp t r).nflags = if hp then g.nflags else g.nflags ||| r.flags := by
  unfold Group.applyRes
  dsimp only
  rw [Group.nflags_setFlags, Group.nflags_modThread, foldl_keeps Group.nflags _ (fun a w => by simp),
    foldl_keeps Group.nflags _ (fun a w => by simp)]
theorem Group.nflags_applyAll (key : Nat) (e : Env) : ∀ (rs : List (Nat × TRes)) (g : Group),
    (g.applyAll key e rs).nflags = rs.foldl (fun a r => if e.helper r.1 then a else a ||| r.2.flags) g.nflags := by
  intro rs
  induction rs with
  | nil => intro g; rfl
  | cons r rs ih =>
    intro g
    have step : g.applyAll key e (r :: rs) = (g.applyRes key (e.helper r.1) r.1 r.2).applyAll key e rs := rfl
    rw [step, ih, Group.nflags_applyRes, List.foldl_cons]
/-- The flags that join NFLAGS are those of the live threads that are no helpers. -/
theorem foldl_flags_results (e : Env) (i : Instr) (h : Hdr) (f : Nat → TRes) (a : FlagBits) :
    (e.results i h f).foldl (fun a r => if e.helper r.1 then a else a ||| r.2.flags) a =
      ((e.live i h).filter (fun n => !(e.helper n))).foldl (fun a n => a ||| (f n).flags) a := by
  have members : ∀ n ∈ e.act, (n ∈ e.live i h ↔ (e.guard h n && !(e.chksb && (e.early? n h i).isSome)) = true) :=
    fun n hn => by simp only [Env.live, List.mem_filter, hn, true_and]
  rw [List.foldl_filter]
  conv_rhs => unfold Env.live
  rw [List.foldl_filter]
  unfold Env.results
  rw [List.foldl_map]
  refine List.foldl_ext _ _ a (fun b n hn => ?_)
  dsimp only
  by_cases hl : n ∈ e.live i h
  · rw [if_pos (List.contains_iff_mem.2 hl), if_pos ((members n hn).1 hl)]
    cases e.helper n <;> rfl
  · have quiet := (idleRes_quiet e i h ((e.live i h).any (fun t => (f t).leave == .stay)) n).flags
    rw [if_neg (fun hc => hl (List.contains_iff_mem.1 hc)), if_neg (fun hp => hl ((members n hn).2 hp)), quiet]
    exact ite_eq_left_iff.2 (fun _ => BitVec.or_zero)
theorem State.flagsOf_modGroup {s : State} {id gix : Nat} {g : Group} (hg : s.group? id gix = some g) (f : Group → Group)
    (hf : ∀ g, (f g).gix = g.gix) : (s.modGroup id gix f).flagsOf id gix = some (f g).nflags := by
  unfold State.flagsOf
  rw [State.group?_modGroup s id gix f hf, hg]
  rfl

/-- `perform` raises the flags of its live threads' results. -/
theorem perform_flags {i : Instr} {h : Hdr} {f : Env → Nat → TRes} (hl : ∀ e n v, (f e n).leave ≠ .rfe v) {s : State} {e : Env}
    (he : env? s = some e) (hr : e.ready i = true) :
    ∃ t, perform i h s f = .next t ∧ t.flagsOf e.team.id e.g.gix =
      some (((e.live i h).filter (fun n => !(e.helper n))).foldl (fun a n => a ||| (f e n).flags) e.g.nflags) := by
  have stays : ∀ r ∈ e.results i h (f e), ∀ v, r.2.leave ≠ .rfe v := fun r hm => by
    rcases results_cases hm with ⟨-, hx⟩ | ⟨b, hx⟩ <;> rw [hx]
    · exact hl e r.1
    · exact (idleRes_spec e i h b r.1).2
  refine ⟨_, perform_next f he hr, ?_⟩
  rw [State.flagsOf_of_kept (kept_retire e i h _ s stays), State.flagsOf, State.group?_applyAll, (env?_spec he).2.2.1,
    Option.map_some, Option.map_some, Group.nflags_applyAll, foldl_flags_results]

/-- The uniform form raises the flags of the group's one result, where a thread is live (R139). -/
theorem performU_flags {i : Instr} (h : Hdr) (f : Env → Nat → TRes) (hu : isUniform i = true) {s : State} {e : Env}
    (he : env? s = some e) (hr : e.ready i = true) :
    ∃ t, performU i h s f = .next t ∧ t.flagsOf e.team.id e.g.gix =
      some (if (e.live i h).isEmpty then e.g.nflags else e.g.nflags ||| (f e 32).flags) := by
  have hg := (env?_spec he).2.2.1
  have hx : performU i h s f = performWith i h s (fun e ts s =>
      if ts.isEmpty then (s, fun _ => {})
      else (s.modGroup e.team.id e.g.gix (fun g => g.applyRes s.nonce false 32 (f e 32)), fun _ => {})) := if_pos hu
  have quiet : ∀ r ∈ e.results i h (fun _ => ({} : TRes)), r.2.Quiet := results_quiet (fun _ => TRes.falls_quiet none)
  refine ⟨_, hx.trans (performWith_next _ he hr), ?_⟩
  cases hlive : (e.live i h).isEmpty with
  | true =>
    simp only [if_true]
    rw [State.flagsOf_of_kept (kept_retire_quiet e i h _ s quiet), State.flagsOf, hg]
    rfl
  | false =>
    simp only [Bool.false_eq_true, if_false]
    rw [State.flagsOf_of_kept (kept_retire_quiet e i h _ _ quiet),
      State.flagsOf_modGroup hg _ (fun g => (Group.applyRes_shape _ _ g _ _).2), Group.nflags_applyRes]
    rfl

end Sys2Proof.Machine

namespace Sys2Proof

/-! ### Runs of registers -/

/-- A run of `m` registers from the operand on stays in the operand's class. -/
def Opnd.Fits (d : Opnd) (m : Nat) : Prop :=
  match d with
  | .v n => n.val + m ≤ 1536
  | .k n => n.val + m ≤ 256
  | .t n => n.val + m ≤ 16
  | .c n => n.val + m ≤ 16
theorem Opnd.fits_one (d : Opnd) : d.Fits 1 := by
  cases d with
  | v n => exact n.isLt
  | k n => exact n.isLt
  | t n => exact n.isLt
  | c n => exact n.isLt
theorem Opnd.Fits.isKCode {d : Opnd} {m : Nat} (h : d.Fits m) (hk : d.isK = true) {j : Nat} (hj : j < m) :
    Machine.isKCode (d.code.toNat + j) := by
  cases d with
  | k n =>
    have hm : n.val + m ≤ 256 := h
    have hc : (Opnd.code (.k n)).toNat = 1536 + n.val := by simp only [Opnd.code, BitVec.toNat_ofNat]; omega
    unfold Machine.isKCode
    omega
  | v n => cases hk
  | t n => cases hk
  | c n => cases hk
theorem Opnd.Fits.thread_codes {d : Opnd} {m : Nat} (h : d.Fits m) (hk : d.isK = false) :
    d.code.toNat + m ≤ 1536 ∨ 1792 ≤ d.code.toNat := by
  cases d with
  | v n =>
    have hm : n.val + m ≤ 1536 := h
    simp only [Opnd.code, BitVec.toNat_ofNat]
    omega
  | k n => cases hk
  | t n => simp only [Opnd.code, BitVec.toNat_ofNat]; omega
  | c n => simp only [Opnd.code, BitVec.toNat_ofNat]; omega

end Sys2Proof

namespace Sys2Proof.Machine

/-! ### Results of an instruction with a uniform form -/

section

variable {i : Instr} {h : Hdr} {d : Opnd} {f : Env → Nat → TRes} {val : Env → Nat → List Word} {fl : Env → Nat → FlagBits}
  (hx : ∀ s, exec i s = performU i h s f) (hl : ∀ e n v, (f e n).leave ≠ .rfe v)
include hx hl

theorem delivers_of_performU (hu : uniformDst? i = some d) (hw : ∀ e n, (f e n).writes = wrRun d (val e n))
    (hfit : WellFormed i → ∀ e n, d.Fits (val e n).length) : Delivers i h d val := by
  have uniform : isUniform i = d.isK := by simp only [isUniform, hu]
  intro s e he hr hwf
  cases hk : d.isK with
  | false =>
    have hperform : performU i h s f = perform i h s f := if_neg (by rw [uniform, hk]; exact Bool.false_ne_true)
    obtain ⟨t, ht, hv⟩ := perform_delivers (val := val) hw hl (fun n => (hfit hwf e n).thread_codes hk) he hr
    exact ⟨t, (hx s).trans (hperform.trans ht), fun _ => hv, Bool.noConfusion⟩
  | true =>
    have hu' : isUniform i = true := uniform.trans hk
    by_cases hn : e.live i h = []
    · obtain ⟨t, ht, -⟩ := performU_flags h f hu' he hr
      exact ⟨t, (hx s).trans ht, Bool.noConfusion, fun _ hne => absurd hn hne⟩
    · obtain ⟨t, ht, hv⟩ := performU_delivers (val := val) hw (fun j hj => (hfit hwf e 32).isKCode hk hj) hu' he hr hn
      exact ⟨t, (hx s).trans ht, Bool.noConfusion, fun _ _ => hv⟩

theorem raises_of_performU (hf : ∀ e n, (f e n).flags = fl e n) : Raises i h fl := by
  intro s e he hr _
  simp only [← hf]
  cases hu : isUniform i with
  | false =>
    have hperform : performU i h s f = perform i h s f := if_neg (by rw [hu]; exact Bool.false_ne_true)
    obtain ⟨t, ht, hv⟩ := perform_flags (h := h) hl he hr
    exact ⟨t, (hx s).trans (hperform.trans ht), hv⟩
  | true =>
    obtain ⟨t, ht, hv⟩ := performU_flags h f hu he hr
    exact ⟨t, (hx s).trans ht, hv⟩

end

/-- An instruction with a uniform form whose results are one word and no flag. -/
theorem computes_word {i : Instr} {h : Hdr} {d : Opnd} {v w : Env → Nat → Word}
    (hx : ∀ s, exec i s = performU i h s (fun e n => { writes := wr d (w e n) })) (hu : uniformDst? i = some d)
    (hv : ∀ e n, w e n = v e n) : Computes i h d (fun e n => [v e n]) (fun _ _ => 0) := by
  have stays : ∀ e n a, ({ writes := wr d (w e n) } : TRes).leave ≠ .rfe a := fun _ _ _ => Leave.noConfusion
  refine ⟨delivers_of_performU hx stays hu (fun e n => ?_) (fun _ _ _ => d.fits_one), raises_of_performU hx stays (fun _ _ => rfl)⟩
  rw [← hv]
  rfl

end Sys2Proof.Machine

/-!
What addc and subb compute (R143).
-/

namespace Sys2Proof.Machine

theorem exec_addc (h : Hdr) (co : Bool) (d a b c : Opnd) (s : State) :
    exec (.addc h co d a b c) s =
      performU (.addc h co d a b c) h s (fun e n => { writes := wr d (addcRes co (e.w n 1 a) (e.w n 2 b) (e.w n 3 c)) }) := rfl
theorem exec_subb (h : Hdr) (bo : Bool) (d a b c : Opnd) (s : State) :
    exec (.subb h bo d a b c) s =
      performU (.subb h bo d a b c) h s (fun e n => { writes := wr d (subbRes bo (e.w n 1 a) (e.w n 2 b) (e.w n 3 c)) }) := rfl
/-- The sum of two words and a bit: its carry, or what is left of it modulo 2^32. -/
theorem addcRes_eq (co : Bool) (a b c : Word) :
    addcRes co a b c = BitVec.ofNat 32 (if co then (a.toNat + b.toNat + c.toNat % 2) / 2 ^ 32
      else (a.toNat + b.toNat + c.toNat % 2) % 2 ^ 32) := by
  cases co with
  | true => rfl
  | false => exact BitVec.eq_of_toNat_eq (by simp [addcRes])
theorem boolFn_eq (x : Bool) : boolFn x = if x then 1 else 0 := by
  cases x <;> rfl

/-- Settles O2: addc and subb write one word and raise no flag, and the word is the exact sum's or difference's low part, or its
carry or borrow. -/
theorem carryResults : Obligations.CarryResults := by
  unfold Obligations.CarryResults
  refine ⟨fun h co d a b c => ?_, fun h bo d a b c => ?_, fun h x d a b c => ?_⟩
  · exact computes_word (exec_addc h co d a b c) rfl (fun e n => addcRes_eq co (e.w n 1 a) (e.w n 2 b) (e.w n 3 c))
  · cases bo with
    | true => exact computes_word (exec_subb h true d a b c) rfl (fun _ _ => rfl)
    | false => exact computes_word (exec_subb h false d a b c) rfl (fun _ _ => rfl)
  · rw [← boolFn_eq]
    exact ⟨rfl, rfl⟩

end Sys2Proof.Machine
